-- ==== Sys2Proof/Word.lean ====
section
/-! DEFINITION. The machine's word types. -/

namespace Sys2Proof

/-- A byte of memory. -/
abbrev Byte := BitVec 8

/-- A 64-bit scalar register value or doubleword (R15). -/
abbrev Word := BitVec 64

/-- A 32-bit Lomop instruction word (R31). -/
abbrev Insn := BitVec 32

end Sys2Proof
end

