-- ==== Sys2Proof/Syntax.lean ====
section
/-! DEFINITION. Abstract syntax: one constructor of Instr per row of spec/opcode_table.json.
The first 240 rows are 32-bit Lomop words, with the fields of their formats (R32).  The other 82 rows are the
part's events: steps of an agent of the machine, or inputs from outside, which have no word.  An event's
operands say which agent, element or request it is about; where the spec leaves an order open, the
operand is the choice. -/

namespace Sys2Proof

/-- A thread slot of the core, 0 or 1 (R223). -/
abbrev Slot := Fin 2

/-- Functional classes of the lanes (R107, R183). -/
inductive FClass where
  | integerMask | floating | permute | memoryReturn
deriving DecidableEq, Repr

/-- The ten atomic operations, op codes 0 to 9 of format A (R32, R84). -/
inductive AmoOp where
  | add | and | or | xor | min | max | minn | maxn | swap | cas
deriving DecidableEq, Repr

/-- A PCIe function of the module: link 0 or 1, and function 0 (the PF) or 1 to 16 (a VF), R390. -/
structure PcieFn where
  link : Fin 2
  fn   : Fin 17
deriving DecidableEq, Repr

/-- The three BARs of a function (R390). -/
inductive Bar where
  | bar0 | bar2 | bar4
deriving DecidableEq, Repr

/-- A plain bus access of the host or of another module. -/
inductive BusOp where
  | read (n : Nat)
  | write (bytes : List Byte)
  | atomic (op : AmoOp) (wide : Bool) (b cmp : BitVec 64)
deriving DecidableEq, Repr

/-- Where a correctable error is found (R410 to R413). -/
inductive ErrSite where
  | lane (k : Fin 64) | core | channel | other
deriving DecidableEq, Repr

/-- Who calls the firmware service: a device thread that executed TRAP, or the mailbox of a function (R418). -/
inductive Caller where
  | device (sl : Slot)
  | mailbox (f : PcieFn)
deriving DecidableEq, Repr

/-- One constructor per row of the opcode table. -/
inductive Instr where
  /-- Writes a + b, modulo 2^64, to d. R77. -/
  | add (d a b : BitVec 5)
  /-- Writes a − b, modulo 2^64, to d. R77. -/
  | sub (d a b : BitVec 5)
  /-- Writes the bitwise AND of a and b to d. R77. -/
  | and (d a b : BitVec 5)
  /-- Writes the bitwise OR of a and b to d. R77. -/
  | or (d a b : BitVec 5)
  /-- Writes the bitwise XOR of a and b to d. R77. -/
  | xor (d a b : BitVec 5)
  /-- Writes a shifted left by b[5:0] to d. R77. -/
  | sll (d a b : BitVec 5)
  /-- Writes a shifted right by b[5:0], with zero fill, to d. R77. -/
  | srl (d a b : BitVec 5)
  /-- Writes a shifted right by b[5:0], with sign fill, to d. R77. -/
  | sra (d a b : BitVec 5)
  /-- Writes a rotated right by b[5:0] to d. R77. -/
  | ror (d a b : BitVec 5)
  /-- Writes 1 to d if a < b as signed values, else 0. R77. -/
  | slt (d a b : BitVec 5)
  /-- Writes 1 to d if a < b as unsigned values, else 0. R77. -/
  | sltn (d a b : BitVec 5)
  /-- Writes the low 64 bits of a × b to d. R77. -/
  | mul (d a b : BitVec 5)
  /-- Writes the high 64 bits of the signed 128-bit product to d. R77. -/
  | mulh (d a b : BitVec 5)
  /-- Writes the high 64 bits of the unsigned 128-bit product to d. R77. -/
  | mulhn (d a b : BitVec 5)
  /-- Writes the signed quotient, rounded toward zero, to d; division by zero and overflow give defined results. R78. -/
  | div (d a b : BitVec 5)
  /-- Writes the unsigned quotient to d; division by zero gives all ones. R78. -/
  | divn (d a b : BitVec 5)
  /-- Writes the signed remainder, with the sign of a, to d. R78. -/
  | rem (d a b : BitVec 5)
  /-- Writes the unsigned remainder to d. R78. -/
  | remn (d a b : BitVec 5)
  /-- Writes the signed smaller of a and b to d. R77. -/
  | min (d a b : BitVec 5)
  /-- Writes the signed larger of a and b to d. R77. -/
  | max (d a b : BitVec 5)
  /-- Writes the unsigned smaller of a and b to d. R77. -/
  | minn (d a b : BitVec 5)
  /-- Writes the unsigned larger of a and b to d. R77. -/
  | maxn (d a b : BitVec 5)
  /-- Writes the count of leading zero bits of a to d. R77. -/
  | clz (d a : BitVec 5)
  /-- Writes the count of trailing zero bits of a to d. R77. -/
  | ctz (d a : BitVec 5)
  /-- Writes the count of set bits of a to d. R77. -/
  | spopc (d a : BitVec 5)
  /-- Writes a[7:0] sign-extended to 64 bits to d. R77. -/
  | sextb (d a : BitVec 5)
  /-- Writes a[15:0] sign-extended to 64 bits to d. R77. -/
  | sexth (d a : BitVec 5)
  /-- Writes a[31:0] sign-extended to 64 bits to d. R77. -/
  | sextw (d a : BitVec 5)
  /-- Writes a plus the sign-extended immediate to d. R79. -/
  | addi (d a : BitVec 5) (i : BitVec 16)
  /-- Writes a AND the zero-extended immediate to d. R79. -/
  | andi (d a : BitVec 5) (i : BitVec 16)
  /-- Writes a OR the zero-extended immediate to d. R79. -/
  | ori (d a : BitVec 5) (i : BitVec 16)
  /-- Writes a XOR the zero-extended immediate to d. R79. -/
  | xori (d a : BitVec 5) (i : BitVec 16)
  /-- Writes 1 to d if a < the sign-extended immediate as signed values, else 0. R79. -/
  | slti (d a : BitVec 5) (i : BitVec 16)
  /-- Writes 1 to d if a < the zero-extended immediate as unsigned values, else 0. R79. -/
  | sltni (d a : BitVec 5) (i : BitVec 16)
  /-- Writes a shifted left by n to d. R79. -/
  | slli (d a : BitVec 5) (n : BitVec 6)
  /-- Writes a shifted right by n, with zero fill, to d. R79. -/
  | srli (d a : BitVec 5) (n : BitVec 6)
  /-- Writes a shifted right by n, with sign fill, to d. R79. -/
  | srai (d a : BitVec 5) (n : BitVec 6)
  /-- Writes a rotated right by n to d. R79. -/
  | rori (d a : BitVec 5) (n : BitVec 6)
  /-- Writes the sign-extended immediate × 2^16 to d. R79. -/
  | lih (d : BitVec 5) (i : BitVec 16)
  /-- Writes (a × 2^16) OR the zero-extended immediate to d. R79. -/
  | lix (d a : BitVec 5) (i : BitVec 16)
  /-- Writes the 64 KiB page base of the instruction plus the immediate × 65,536 to d. R80. -/
  | addpc (d : BitVec 5) (i : BitVec 16)
  /-- Loads one byte, sign-extended, into d after the checks of R82. R81. -/
  | ldb (d a : BitVec 5) (o : BitVec 12)
  /-- Loads two bytes, sign-extended, into d. R81. -/
  | ldh (d a : BitVec 5) (o : BitVec 12)
  /-- Loads four bytes, sign-extended, into d. R81. -/
  | ldw (d a : BitVec 5) (o : BitVec 12)
  /-- Loads eight bytes into d. R81. -/
  | ldd (d a : BitVec 5) (o : BitVec 12)
  /-- Loads one byte, zero-extended, into d. R81. -/
  | ldbn (d a : BitVec 5) (o : BitVec 12)
  /-- Loads two bytes, zero-extended, into d. R81. -/
  | ldhn (d a : BitVec 5) (o : BitVec 12)
  /-- Loads four bytes, zero-extended, into d. R81. -/
  | ldwn (d a : BitVec 5) (o : BitVec 12)
  /-- Stores the low byte of s(d) after the checks of R82. R81. -/
  | stb (d a : BitVec 5) (o : BitVec 12)
  /-- Stores the low two bytes of s(d). R81. -/
  | sth (d a : BitVec 5) (o : BitVec 12)
  /-- Stores the low four bytes of s(d). R81. -/
  | stw (d a : BitVec 5) (o : BitVec 12)
  /-- Stores the eight bytes of s(d). R81. -/
  | std (d a : BitVec 5) (o : BitVec 12)
  /-- Atomically adds b to the word at s(a) and returns the old value in d. R84. -/
  | amoadd (d a b : BitVec 5) (s : BitVec 3) (o w : BitVec 2)
  /-- Atomically ANDs b into the word at s(a) and returns the old value. R84. -/
  | amoand (d a b : BitVec 5) (s : BitVec 3) (o w : BitVec 2)
  /-- Atomically ORs b into the word at s(a) and returns the old value. R84. -/
  | amoor (d a b : BitVec 5) (s : BitVec 3) (o w : BitVec 2)
  /-- Atomically XORs b into the word at s(a) and returns the old value. R84. -/
  | amoxor (d a b : BitVec 5) (s : BitVec 3) (o w : BitVec 2)
  /-- Atomically writes the signed minimum of the word and b and returns the old value. R84. -/
  | amomin (d a b : BitVec 5) (s : BitVec 3) (o w : BitVec 2)
  /-- Atomically writes the signed maximum of the word and b and returns the old value. R84. -/
  | amomax (d a b : BitVec 5) (s : BitVec 3) (o w : BitVec 2)
  /-- Atomically writes the unsigned minimum of the word and b and returns the old value. R84. -/
  | amominn (d a b : BitVec 5) (s : BitVec 3) (o w : BitVec 2)
  /-- Atomically writes the unsigned maximum of the word and b and returns the old value. R84. -/
  | amomaxn (d a b : BitVec 5) (s : BitVec 3) (o w : BitVec 2)
  /-- Atomically writes b to the word and returns the old value. R84. -/
  | amoswap (d a b : BitVec 5) (s : BitVec 3) (o w : BitVec 2)
  /-- Atomically writes b if the word equals the old d, and returns the old value. R84. -/
  | amocas (d a b : BitVec 5) (s : BitVec 3) (o w : BitVec 2)
  /-- Branches when s(a) = s(b). R87. -/
  | beq (a b : BitVec 5) (o : BitVec 16)
  /-- Branches when s(a) ≠ s(b). R87. -/
  | bne (a b : BitVec 5) (o : BitVec 16)
  /-- Branches when s(a) < s(b) as signed values. R87. -/
  | blt (a b : BitVec 5) (o : BitVec 16)
  /-- Branches when s(a) ≥ s(b) as signed values. R87. -/
  | bge (a b : BitVec 5) (o : BitVec 16)
  /-- Branches when s(a) < s(b) as unsigned values. R87. -/
  | bltn (a b : BitVec 5) (o : BitVec 16)
  /-- Branches when s(a) ≥ s(b) as unsigned values. R87. -/
  | bgen (a b : BitVec 5) (o : BitVec 16)
  /-- Continues at its own address plus the word offset. R88. -/
  | j (o : BitVec 26)
  /-- Pushes the return address and the vector-state word, then jumps by the word offset. R89. -/
  | call (o : BitVec 26)
  /-- Continues at s(a), checking the alignment of R31. R91. -/
  | jr (a : BitVec 5)
  /-- Pushes the return address and the vector-state word, then continues at s(a). R89. -/
  | callr (a : BitVec 5)
  /-- Pops the return address and vector-state word, restores VL, SEGSEL and FRM, and returns. R90. -/
  | ret
  /-- Waits for earlier rules to complete and enters the supervisor, or the firmware service at supervisor level, with the system-call cause. R93. -/
  | trap (n : BitVec 7)
  /-- Waits for the handler's stores, reinstalls the held image or returns to the saved level, and continues at EPC. R205. -/
  | eret
  /-- Reads a configuration register into d, draining earlier rules for VSTAT, FFLAGS and VOIDCNT. R95. -/
  | rdcfg (d : BitVec 5) (c : BitVec 7)
  /-- Writes s(a) to a configuration register under the rules of R22 to R24. R95. -/
  | wrcfg (a : BitVec 5) (c : BitVec 7)
  /-- Orders the predecessor set of the thread's accesses before the successor set at one scope. R96. -/
  | fence (p q r t : Bool) (s : BitVec 3)
  /-- Waits for earlier rules and enters the handler with the breakpoint cause and EPC at the BRK. R93. -/
  | brk (n : BitVec 7)
  /-- Waits for earlier rules and accesses to complete, then frees the thread slot. R97. -/
  | exit
  /-- Hands the Porter's issue slot to the other thread slot for one instruction. R98. -/
  | yield
  /-- Reads the code binding and moves the thread to splice entry n of a newer version, if one defines it. R99. -/
  | splice (n : BitVec 8)
  /-- Posts the 128-byte task record at s(a) to the die's launch list. R100. -/
  | launch (a : BitVec 5)
  /-- Writes the held window and tag image to s(a). R206. -/
  | wsave (a : BitVec 5)
  /-- Checks the image at s(a) and replaces the held image with it. R207. -/
  | wload (a : BitVec 5)
  /-- Marks writable leaves of a range copy-on-write, invalidates their TLB entries, and returns the count. R369. -/
  | snapr (d a b : BitVec 5)
  /-- As SNAPR, also marking executable leaves that are not writable. R369. -/
  | snaprX (d a b : BitVec 5)
  /-- Removes the context's TLB entries for a range from every TLB of the module. R370. -/
  | tlbinv (a b : BitVec 5)
  /-- Adds listed frames to the die's free-page pool and returns the pool's count. R371. -/
  | pgpool (d a b : BitVec 5)
  /-- Arrives at barrier n and waits for the phase to complete, returning its report. R253. -/
  | bar (d : BitVec 5) (n : BitVec 4)
  /-- Arrives at barrier n and returns the phase arrived in, without waiting. R253. -/
  | bara (d : BitVec 5) (n : BitVec 4)
  /-- Waits until barrier n has passed the phase token and returns the last report. R253. -/
  | barw (d a : BitVec 5) (n : BitVec 4)
  /-- Adds s(a) extra expectations to the current phase of barrier n. R253. -/
  | barexp (a : BitVec 5) (n : BitVec 4)
  /-- Takes a portion of work pool p sized by core speed, or returns −1 when the pool is empty. R256. -/
  | take (d : BitVec 5) (p : BitVec 3)
  /-- Removes the caller from the members of pool p. R257. -/
  | lrel (p : BitVec 3)
  /-- Waits until the counter at s(a) reaches s(b) and writes its value to d. R323. -/
  | waitc (d a b : BitVec 5)
  /-- Waits for the thread's earlier engine commands, then adds s(b) to the counter with release order. R324. -/
  | cadd (d a b : BitVec 5)
  /-- Grants a strip for the requested length and width, taking up pending lane or level changes. R128. -/
  | setvl (d a : BitVec 5) (w q : BitVec 2)
  /-- Grants a strip for an immediate requested length. R128. -/
  | setvli (d : BitVec 5) (n : BitVec 10) (w q : BitVec 2)
  /-- Packs whole rows into one strip, marks segment starts in mk, and sets VL and SEGSEL. R132. -/
  | setfib (d a b : BitVec 5) (w : BitVec 2) (k : BitVec 4)
  /-- Sets the element-type tag of vd, renaming it to zeros when the width changes. R133. -/
  | vtag (d : BitVec 5) (t : BitVec 4)
  /-- Rule: element-wise add in the promoted computing type, saturating for integers. R110. -/
  | vadd (d a b : BitVec 5) (m : BitVec 4) (x : Bool)
  /-- Rule: element-wise a − b. R110. -/
  | vsub (d a b : BitVec 5) (m : BitVec 4) (x : Bool)
  /-- Rule: element-wise b − a. R110. -/
  | vrsub (d a b : BitVec 5) (m : BitVec 4) (x : Bool)
  /-- Rule: element-wise wrapping add. R112. -/
  | vaddw (d a b : BitVec 5) (m : BitVec 4) (x : Bool)
  /-- Rule: element-wise wrapping subtract. R112. -/
  | vsubw (d a b : BitVec 5) (m : BitVec 4) (x : Bool)
  /-- Rule: element-wise multiply. R110. -/
  | vmul (d a b : BitVec 5) (m : BitVec 4) (x : Bool)
  /-- Rule: element-wise high half of an integer product. R112. -/
  | vmulh (d a b : BitVec 5) (m : BitVec 4) (x : Bool)
  /-- Rule: element-wise division with defined results for zero divisors. R111. -/
  | vdiv (d a b : BitVec 5) (m : BitVec 4) (x : Bool)
  /-- Rule: element-wise integer remainder. R111. -/
  | vrem (d a b : BitVec 5) (m : BitVec 4) (x : Bool)
  /-- Rule: element-wise minimum by value. R110. -/
  | vmin (d a b : BitVec 5) (m : BitVec 4) (x : Bool)
  /-- Rule: element-wise maximum by value. R110. -/
  | vmax (d a b : BitVec 5) (m : BitVec 4) (x : Bool)
  /-- Rule: element-wise absolute value. R110. -/
  | vabs (d a : BitVec 5) (m : BitVec 4)
  /-- Rule: element-wise negation. R110. -/
  | vneg (d a : BitVec 5) (m : BitVec 4)
  /-- Rule: element-wise bitwise AND of patterns. R113. -/
  | vand (d a b : BitVec 5) (m : BitVec 4) (x : Bool)
  /-- Rule: element-wise bitwise OR of patterns. R113. -/
  | vor (d a b : BitVec 5) (m : BitVec 4) (x : Bool)
  /-- Rule: element-wise bitwise XOR of patterns. R113. -/
  | vxor (d a b : BitVec 5) (m : BitVec 4) (x : Bool)
  /-- Rule: element-wise logical left shift at vd's width. R113. -/
  | vsll (d a b : BitVec 5) (m : BitVec 4) (x : Bool)
  /-- Rule: element-wise logical right shift. R113. -/
  | vsrl (d a b : BitVec 5) (m : BitVec 4) (x : Bool)
  /-- Rule: element-wise arithmetic right shift. R113. -/
  | vsra (d a b : BitVec 5) (m : BitVec 4) (x : Bool)
  /-- Rule: converts each element from va's tag to vd's tag. R114. -/
  | vcvt (d a : BitVec 5) (m : BitVec 4)
  /-- Rule: VADD with the imm5 as second operand. R115. -/
  | vaddi (d a i : BitVec 5) (m : BitVec 4)
  /-- Rule: VSUB with the imm5. R115. -/
  | vsubi (d a i : BitVec 5) (m : BitVec 4)
  /-- Rule: VRSUB with the imm5. R115. -/
  | vrsubi (d a i : BitVec 5) (m : BitVec 4)
  /-- Rule: VADDW with the imm5. R115. -/
  | vaddwi (d a i : BitVec 5) (m : BitVec 4)
  /-- Rule: VSUBW with the imm5. R115. -/
  | vsubwi (d a i : BitVec 5) (m : BitVec 4)
  /-- Rule: VMUL with the imm5. R115. -/
  | vmuli (d a i : BitVec 5) (m : BitVec 4)
  /-- Rule: VMIN with the imm5. R115. -/
  | vmini (d a i : BitVec 5) (m : BitVec 4)
  /-- Rule: VMAX with the imm5. R115. -/
  | vmaxi (d a i : BitVec 5) (m : BitVec 4)
  /-- Rule: VAND with the imm5. R115. -/
  | vandi (d a i : BitVec 5) (m : BitVec 4)
  /-- Rule: VOR with the imm5. R115. -/
  | vori (d a i : BitVec 5) (m : BitVec 4)
  /-- Rule: VXOR with the imm5. R115. -/
  | vxori (d a i : BitVec 5) (m : BitVec 4)
  /-- Rule: VSLL with an unsigned imm5 amount. R115. -/
  | vslli (d a i : BitVec 5) (m : BitVec 4)
  /-- Rule: VSRL with an unsigned imm5 amount. R115. -/
  | vsrli (d a i : BitVec 5) (m : BitVec 4)
  /-- Rule: VSRA with an unsigned imm5 amount. R115. -/
  | vsrai (d a i : BitVec 5) (m : BitVec 4)
  /-- Rule: sets mask bit i when va[i] equals b. R135. -/
  | vcmpeq (d a b : BitVec 5) (m : BitVec 4) (x : Bool)
  /-- Rule: sets mask bit i when va[i] differs from b or either is NaN. R135. -/
  | vcmpne (d a b : BitVec 5) (m : BitVec 4) (x : Bool)
  /-- Rule: sets mask bit i when va[i] < b. R135. -/
  | vcmplt (d a b : BitVec 5) (m : BitVec 4) (x : Bool)
  /-- Rule: sets mask bit i when va[i] ≤ b. R135. -/
  | vcmple (d a b : BitVec 5) (m : BitVec 4) (x : Bool)
  /-- Rule: sets mask bit i when va[i] > b. R135. -/
  | vcmpgt (d a b : BitVec 5) (m : BitVec 4) (x : Bool)
  /-- Rule: sets mask bit i when va[i] ≥ b. R135. -/
  | vcmpge (d a b : BitVec 5) (m : BitVec 4) (x : Bool)
  /-- Rule: sets mask bit i when either operand is a NaN. R135. -/
  | vcmpun (d a b : BitVec 5) (m : BitVec 4) (x : Bool)
  /-- Rule: mask AND. R134. -/
  | mand (d a b : BitVec 5) (m : BitVec 4)
  /-- Rule: mask OR. R134. -/
  | mor (d a b : BitVec 5) (m : BitVec 4)
  /-- Rule: mask XOR. R134. -/
  | mxor (d a b : BitVec 5) (m : BitVec 4)
  /-- Rule: mask a AND NOT b. R134. -/
  | mandn (d a b : BitVec 5) (m : BitVec 4)
  /-- Rule: mask NOT. R134. -/
  | mnot (d a : BitVec 5) (m : BitVec 4)
  /-- Rule: sets the bits before the first set bit. R136. -/
  | msbf (d a : BitVec 5) (m : BitVec 4)
  /-- Rule: sets the bits up to and including the first set bit. R136. -/
  | msif (d a : BitVec 5) (m : BitVec 4)
  /-- Rule: sets only the first set bit. R136. -/
  | msof (d a : BitVec 5) (m : BitVec 4)
  /-- Rule: writes at each active element the count of set active bits below it. R137. -/
  | viota (d a : BitVec 5) (m : BitVec 4)
  /-- Rule: writes each element's index. R137. -/
  | vid (d : BitVec 5) (m : BitVec 4)
  /-- Rule: gathers va[vb[i]] into vd[i], zero and RANGE beyond capacity. R140. -/
  | vrgather (d a b : BitVec 5) (m : BitVec 4)
  /-- Rule: gathers from the even-aligned register pair at va. R140. -/
  | vrgather2 (d a b : BitVec 5) (m : BitVec 4)
  /-- Rule: slides va up by s(b) elements. R138. -/
  | vslideup (d a b : BitVec 5) (m : BitVec 4)
  /-- Rule: slides va down by s(b) elements. R138. -/
  | vslidedown (d a b : BitVec 5) (m : BitVec 4)
  /-- Rule: slides va up by one, inserting the scalar at element 0. R138. -/
  | vslide1up (d a b : BitVec 5) (m : BitVec 4)
  /-- Rule: slides va down by one, inserting the scalar at element VL − 1. R138. -/
  | vslide1down (d a b : BitVec 5) (m : BitVec 4)
  /-- Rule and resync: packs the elements selected by mb and writes their count to VL. R142. -/
  | vcompress (d a b : BitVec 5)
  /-- Rule: scatters va within vd at indices vb, the highest source index winning. R143. -/
  | vpush (d a b : BitVec 5) (m : BitVec 4)
  /-- Rule: widening multiply into a register group. R123. -/
  | vwmul (d a b : BitVec 5) (m : BitVec 4) (x : Bool)
  /-- Rule: widening fused multiply-accumulate into a register group. R123. -/
  | vwmacc (d a b : BitVec 5) (m : BitVec 4) (x : Bool)
  /-- Rule: widening add into a register group. R123. -/
  | vwadd (d a b : BitVec 5) (m : BitVec 4) (x : Bool)
  /-- Rule: narrows a register group by conversion to vd's tag. R123. -/
  | vncvt (d a : BitVec 5) (m : BitVec 4)
  /-- Rule: narrowing right shift with FRM rounding and clamping. R124. -/
  | vnshr (d a b : BitVec 5) (m : BitVec 4) (x : Bool)
  /-- Rule: writes the low bytes of s(b) to every element. R144. -/
  | vsplat (d b : BitVec 5) (m : BitVec 4)
  /-- Rule: writes va[s(b)] to every element. R144. -/
  | vext (d a b : BitVec 5) (m : BitVec 4)
  /-- Resync: moves element s(b) of va to s(d). R145. -/
  | vmvs (d a b : BitVec 5)
  /-- Resync: writes the lowest set mask bit index below VL, or −1. R9. -/
  | mffs (d a : BitVec 5)
  /-- Resync: writes the number of set PRESENT mask bits below VL. R145. -/
  | mpopc (d a : BitVec 5)
  /-- Rule: element-wise IEEE square root. R117. -/
  | vfsqrt (d a : BitVec 5) (m : BitVec 4)
  /-- Rule: element-wise table-defined reciprocal estimate. R118. -/
  | vfrec (d a : BitVec 5) (m : BitVec 4)
  /-- Rule: element-wise table-defined reciprocal square root estimate. R119. -/
  | vfrsqrt (d a : BitVec 5) (m : BitVec 4)
  /-- Rule: writes the one-hot class mask of each element. R120. -/
  | vfclass (d a : BitVec 5) (m : BitVec 4)
  /-- Rule: copies a with the sign of b. R121. -/
  | vfsgnj (d a b : BitVec 5) (m : BitVec 4) (x : Bool)
  /-- Rule: copies a with the inverted sign of b. R121. -/
  | vfsgnjn (d a b : BitVec 5) (m : BitVec 4) (x : Bool)
  /-- Rule: copies a with its sign XOR the sign of b. R121. -/
  | vfsgnjx (d a b : BitVec 5) (m : BitVec 4) (x : Bool)
  /-- Rule: fused a × b + old vd with a static or captured rounding mode. R116. -/
  | vfmadd (d a b : BitVec 5) (m : BitVec 4) (x : Bool) (r : BitVec 3)
  /-- Rule: fused a × b − old vd. R116. -/
  | vfmsub (d a b : BitVec 5) (m : BitVec 4) (x : Bool) (r : BitVec 3)
  /-- Rule: fused old vd − a × b. R116. -/
  | vfrmsub (d a b : BitVec 5) (m : BitVec 4) (x : Bool) (r : BitVec 3)
  /-- Rule: fused −(a × b) − old vd. R116. -/
  | vfnmadd (d a b : BitVec 5) (m : BitVec 4) (x : Bool) (r : BitVec 3)
  /-- Rule: ordered sum per segment combined with the start. R147. -/
  | vredsumo (d a b : BitVec 5) (m : BitVec 4) (x : Bool)
  /-- Rule: tree sum per segment combined with the start. R147. -/
  | vredsumt (d a b : BitVec 5) (m : BitVec 4) (x : Bool)
  /-- Rule: minimum per segment. R147. -/
  | vredmin (d a b : BitVec 5) (m : BitVec 4) (x : Bool)
  /-- Rule: maximum per segment. R147. -/
  | vredmax (d a b : BitVec 5) (m : BitVec 4) (x : Bool)
  /-- Rule: bitwise AND reduction per segment. R147. -/
  | vredand (d a b : BitVec 5) (m : BitVec 4) (x : Bool)
  /-- Rule: bitwise OR reduction per segment. R147. -/
  | vredor (d a b : BitVec 5) (m : BitVec 4) (x : Bool)
  /-- Rule: bitwise XOR reduction per segment. R147. -/
  | vredxor (d a b : BitVec 5) (m : BitVec 4) (x : Bool)
  /-- Rule: inclusive ordered prefix sum per segment. R148. -/
  | vscansum (d a : BitVec 5) (m : BitVec 4)
  /-- Rule: inclusive prefix minimum per segment. R148. -/
  | vscanmin (d a : BitVec 5) (m : BitVec 4)
  /-- Rule: inclusive prefix maximum per segment. R148. -/
  | vscanmax (d a : BitVec 5) (m : BitVec 4)
  /-- Rule: unit-stride vector load with optional format conversion. R153. -/
  | vld (d a : BitVec 5) (m : BitVec 4) (o v : Bool) (f : BitVec 3)
  /-- Rule: strided vector load. R153. -/
  | vldStrided (d a b : BitVec 5) (m : BitVec 4) (o v : Bool) (f : BitVec 3)
  /-- Rule: indexed gather with a scope, writing scope-miss bits to m0. R153. -/
  | vldIndexed (d a b : BitVec 5) (m : BitVec 4) (o v : Bool) (s : BitVec 2) (w : Bool)
  /-- Rule: fault-only-first unit-stride load that trims VL at the first faulting element above 0. R8. -/
  | vldFf (d a : BitVec 5) (m : BitVec 4) (o v : Bool) (f : BitVec 3)
  /-- Rule: unit-stride vector store. R154. -/
  | vst (d a : BitVec 5) (m : BitVec 4) (o v : Bool) (f : BitVec 3)
  /-- Rule: strided vector store. R154. -/
  | vstStrided (d a b : BitVec 5) (m : BitVec 4) (o v : Bool) (f : BitVec 3)
  /-- Rule: indexed scatter with a scope, writing m0. R154. -/
  | vstIndexed (d a b : BitVec 5) (m : BitVec 4) (o v : Bool) (s : BitVec 2) (w : Bool)
  /-- Rule: per-element atomic add at indexed addresses. R167. -/
  | vamoadd (d a b : BitVec 5) (m : BitVec 4) (s : BitVec 2) (w : Bool)
  /-- Rule: per-element atomic AND. R167. -/
  | vamoand (d a b : BitVec 5) (m : BitVec 4) (s : BitVec 2) (w : Bool)
  /-- Rule: per-element atomic OR. R167. -/
  | vamoor (d a b : BitVec 5) (m : BitVec 4) (s : BitVec 2) (w : Bool)
  /-- Rule: per-element atomic XOR. R167. -/
  | vamoxor (d a b : BitVec 5) (m : BitVec 4) (s : BitVec 2) (w : Bool)
  /-- Rule: per-element atomic signed minimum. R167. -/
  | vamomin (d a b : BitVec 5) (m : BitVec 4) (s : BitVec 2) (w : Bool)
  /-- Rule: per-element atomic signed maximum. R167. -/
  | vamomax (d a b : BitVec 5) (m : BitVec 4) (s : BitVec 2) (w : Bool)
  /-- Rule: per-element atomic unsigned minimum. R167. -/
  | vamominn (d a b : BitVec 5) (m : BitVec 4) (s : BitVec 2) (w : Bool)
  /-- Rule: per-element atomic unsigned maximum. R167. -/
  | vamomaxn (d a b : BitVec 5) (m : BitVec 4) (s : BitVec 2) (w : Bool)
  /-- Rule: per-element atomic swap. R167. -/
  | vamoswap (d a b : BitVec 5) (m : BitVec 4) (s : BitVec 2) (w : Bool)
  /-- Rule: per-element atomic compare-and-swap using a register pair. R167. -/
  | vamocas (d a b : BitVec 5) (m : BitVec 4) (s : BitVec 2) (w : Bool)
  /-- Rule: loads each element from the lane table of its lane. R170. -/
  | vltl (d a b : BitVec 5) (m : BitVec 4)
  /-- Rule: stores each element into the lane table of its lane. R170. -/
  | vlts (d a b : BitVec 5) (m : BitVec 4)
  /-- Rule: copies scratchpad bytes into the table of every held lane. R171. -/
  | tblb (d a b : BitVec 5)
  /-- Rule: renames the write-set and starts one virtual processor per active element at the block. R245. -/
  | vpf (k : BitVec 4) (o : BitVec 20)
  /-- Per VP: branches to the target when bit i of mK is 1. R246. -/
  | vpbr (k : BitVec 4) (o : BitVec 20)
  /-- Per VP: jumps to the target. R246. -/
  | vpj (o : BitVec 20)
  /-- Per VP: ends the VP and makes its write-set elements final. R246. -/
  | vpstop
  /-- Posts a copy of a box of up to three dimensions. R311. -/
  | cpy (g : BitVec 5) (s : BitVec 4) (h : BitVec 5) (c : Bool) (n i : BitVec 4)
  /-- Posts a gather of memory rows into the scratchpad by the row numbers in a v register. R312. -/
  | cpyg (g : BitVec 5) (s : BitVec 4) (v : BitVec 5) (c : Bool) (n i : BitVec 4)
  /-- Posts a scatter of scratchpad rows to memory rows named by a v register. R313. -/
  | cpys (g : BitVec 5) (s : BitVec 4) (v : BitVec 5) (c : Bool) (n i : BitVec 4)
  /-- Posts a multigrid restrict, inject, prolong or prolong-add transfer. R315. -/
  | cpymg (g : BitVec 5) (s : BitVec 4) (h : BitVec 5) (c : Bool) (n i : BitVec 4)
  /-- Posts a load of a 512-byte stencil-weight table. R318. -/
  | cwtld (g : BitVec 5) (s : BitVec 4) (c : Bool) (n i : BitVec 4)
  /-- Posts a stream barrier over the streams of a mask. R320. -/
  | csbar (g : BitVec 5)
  /-- Restarts a parked stream whose fault has been delivered. R321. -/
  | cresume (s : BitVec 4)
  /-- Sets the slot's panel configuration from M, N, K and the formats. R327. -/
  | mcfg (m n k : BitVec 5) (a : BitVec 2) (b : BitVec 4)
  /-- Posts a clear of an accumulator, setting its format. R328. -/
  | mzero (c : BitVec 2)
  /-- Posts a panel multiply-accumulate into an accumulator by K-groups. R329. -/
  | mma (c : BitVec 2) (x y : BitVec 5)
  /-- Posts a matrix-vector product on the bank multipliers against a bank-layout matrix. R332. -/
  | mmav (g h : BitVec 5) (s : BitVec 4)
  /-- Rule: reads one accumulator row into a vector register once the row is released. R330. -/
  | mrd (c : BitVec 2) (d q : BitVec 5) (m : BitVec 4)
  /-- Posts a store of an accumulator panel to the scratchpad in a chosen format. R331. -/
  | mst (c : BitVec 2) (x : BitVec 5) (f : BitVec 3)
  /-- Rule and resync: walks a hierarchical bitmap from the cursor and writes coordinates, VL and the new cursor. R336. -/
  | cwalk (d c e p : BitVec 5)
  /-- Posts a chain configuration: record class, stage kinds and spools. R387. -/
  | pkcfg (a : BitVec 5)
  /-- Posts a load of a bank image into a stage's shadow bank. R387. -/
  | pkload (a : BitVec 5) (n : BitVec 4)
  /-- Posts an exchange of active and shadow banks of the masked stages at one entry boundary. R383. -/
  | pkswap (m : BitVec 12)
  /-- Posts a feed of s(B) records from the scratchpad into the chain. R387. -/
  | pkfeed (a b : BitVec 5)
  /-- Waits for earlier feeds and reads a chain count into d. R388. -/
  | pkmiss (d : BitVec 5) (n : BitVec 7)
  /-- Waits for earlier feeds and reads the count of spool s(A). R388. -/
  | pkdrain (d a : BitVec 5)
  /-- As PKDRAIN, then sets the spool count to 0. R388. -/
  | pkdrainClr (d a : BitVec 5)
  /-- Opens a live cross-module transaction. R401. -/
  | xbegin
  /-- Stages an 8-byte store to s(A) in the open transaction. R402. -/
  | xst (d a : BitVec 5)
  /-- Runs both commit phases of the transaction, or aborts it, and writes a code to d. R403. -/
  | xcommit (d : BitVec 5)
  /-- Closes the open transaction and discards every staged store. R401. -/
  | xabort
  /-- A lane fires the lowest ready elements of the oldest rule in one functional class. R183. -/
  | elementFire (sl : Slot) (lane : Fin 64) (cls : FClass)
  /-- The lane's carry path copies ready carried elements from the old register. R183. -/
  | carryCopy (sl : Slot) (lane : Fin 64)
  /-- Up to four complete rules retire from the head of the window. R186. -/
  | retire (sl : Slot)
  /-- A physical register no longer read, carried or imaged returns to the pool. R189. -/
  | registerFree (sl : Slot) (pred : Bool) (p : Nat)
  /-- A branch's operand becomes final; the Porter confirms or squashes the predicted path. R193. -/
  | branchResolve (sl : Slot)
  /-- A ready vector memory element is checked and performed. R155. -/
  | elementAccess (sl : Slot) (pos : Nat) (e : Nat)
  /-- Returned read data lands in the destination element, converted, or VOID when uncorrectable. R153. -/
  | dataLanding (sl : Slot) (pos : Nat) (e : Nat)
  /-- The page copy ends; the leaf is rewritten and waiting accesses perform in the new frame. R372. -/
  | cowCopyDone (leaf : Nat)
  /-- An atomic arriving at its channel is performed indivisibly at the home store. R353. -/
  | baseDieAtomic (op : AmoOp) (wide : Bool) (pa : Nat) (b cmp : BitVec 64)
  /-- The dirty bytes of a scalar cache line are written back to the home store. R348. -/
  | lineWriteback (line : Nat)
  /-- A clean scalar cache line is discarded. R348. -/
  | lineDiscard (line : Nat)
  /-- A scalar cache line is filled from the home store as a prefetch. R348. -/
  | linePrefetch (line : Nat)
  /-- A line dirty for 100 µs is written back. R348. -/
  | dirtyLineTimeout (line : Nat)
  /-- A line held 100 µs after its fill is discarded. R348. -/
  | cleanLineTimeout (line : Nat)
  /-- Once the window is quiescent, the reported fault or word trap is entered and the held image formed. R201. -/
  | trapEntry (sl : Slot)
  /-- The cohort of VPs with the lowest PC issues its next block instruction as one rule. R230. -/
  | vpCohortIssue (sl : Slot)
  /-- A waiting grant proceeds once the other slot has given up the lanes. R220. -/
  | grantWaitEnd (sl : Slot)
  /-- After 4,096 cycles a flex-pool quarter is lent and Q rises. R235. -/
  | quarterMoveDone
  /-- A parked stream's fault is delivered to the issuing thread at an instruction boundary. R208. -/
  | engineFaultDelivery (sl : Slot)
  /-- A posted command enters performing once its stream, CSBARs and the range checker permit. R295. -/
  | courierBeginPerforming (cmd : Nat)
  /-- A Courier command transfers one element. R296. -/
  | courierElementTransfer (cmd : Nat) (e : Nat)
  /-- A command's writes perform, its tiles' use counts fall and it adds to its counter. R292. -/
  | commandComplete (cmd : Nat)
  /-- The matrix queue serves its head command in post order. R285. -/
  | matrixQueueServe
  /-- A waiting BAR or BARW returns once its phase has completed. R253. -/
  | barrierWaitEnd (sl : Slot)
  /-- A waiting WAITC reads its counter again after a line update or poll interval. R323. -/
  | waitcCounterRead (sl : Slot)
  /-- Stage 0 takes one fed record or re-entry. R381. -/
  | turnpikeEntry
  /-- A record's pass ends; it re-enters, goes to overflow, or leaves to its spool. R380. -/
  | turnpikePassEnd
  /-- A PKLOAD writes its shadow bank once no record of the old bank remains. R373. -/
  | pkloadPerform
  /-- A PKCFG installs the configuration once the chain is empty. R387. -/
  | pkcfgPerform
  /-- A rise of TRIG makes the Innkeeper take records from the post area. R266. -/
  | postAreaTake (area : Nat)
  /-- The Innkeeper takes a record from the die's launch list. R267. -/
  | launchListTake
  /-- The Innkeeper reads a watched counter and dispatches records whose target is met. R268. -/
  | watchCounterRead (entry : Nat)
  /-- A waiting party is placed on cores once every reservation can be made. R272. -/
  | partyPlace
  /-- The Innkeeper's signal stops every thread of a party and saves its state. R209. -/
  | preemption (party : Nat)
  /-- A party's save completes and it rejoins the placement order. R281. -/
  | partySaveDone (party : Nat)
  /-- A party ends when its threads have exited and its commands are complete. R282. -/
  | partyEnd (party : Nat)
  /-- Each 5 ms of waiting raises a task's effective priority. R277. -/
  | priorityAging (task : Nat)
  /-- At each 1 ms interval SPENT resets and G returns to 8. R237. -/
  | purseInterval
  /-- Activity energy is debited to a purse, changing G at thresholds. R409. -/
  | energyDebit (ctx : BitVec 12) (uj : BitVec 32)
  /-- A droop halves the core clock. R239. -/
  | droopDetect
  /-- After 2 µs clear, the clock returns from droop. R239. -/
  | droopEnd
  /-- The frequency-locked loop moves one 25 MHz step per 100 ns. R405. -/
  | clockStep
  /-- An idle core's 4 µs hold expires and it is gated. R406. -/
  | coreGate
  /-- A wake request cancels a hold or joins the in-rush arbiter's queue. R406. -/
  | wakeRequest
  /-- A 1 µs ramp ends and the core is ready. R407. -/
  | wakeRampDone
  /-- A correctable error is corrected and counted. R410. -/
  | correctableError (die : Fin 4) (site : ErrSite) (marks : Bool)
  /-- A marked core is retired when its party ends or is pre-empted. R412. -/
  | coreRetire
  /-- A link below a quarter of its width for 10 µs sheds to half width. R398. -/
  | linkShed (k : Fin 18)
  /-- A link whose queue holds over 32 flits widens one step. R398. -/
  | linkWiden (k : Fin 18)
  /-- After 1.2 µs the width change ends and flits cross again. R398. -/
  | linkWidthChangeDone (k : Fin 18)
  /-- A link that cannot recover in 20 µs or loses training faults and traffic moves. R399. -/
  | linkFault (k : Fin 18)
  /-- A request without a route for 100 µs fails. R399. -/
  | routeTimeout (req : Nat)
  /-- A request arriving from another module is performed at the home store. R357. -/
  | peerRequest (ctx : BitVec 12) (pa : Nat) (op : BusOp)
  /-- A reply arriving from a peer completes a remote write or atomic. R357. -/
  | peerReply (req : Nat) (data : BitVec 64)
  /-- A target's phase-one or phase-two reply arrives. R403. -/
  | xtTargetReply (target : Nat) (held : Bool)
  /-- A host read or write through BAR 2 or BAR 4 performs at the home store. R391. -/
  | hostBarAccess (f : PcieFn) (bar : Bar) (off : Nat) (op : BusOp)
  /-- A host AtomicOp is performed as a base-die atomic. R391. -/
  | hostAtomicop (f : PcieFn) (bar : Bar) (off : Nat) (op : AmoOp) (wide : Bool) (b cmp : BitVec 64)
  /-- A host write to a register with no row of its own, such as WSEL or an error counter. R392. -/
  | registerWrite (f : PcieFn) (off : Nat) (v : BitVec 64)
  /-- Reset starts boot verification of the firmware image. R415. -/
  | reset
  /-- Returns the firmware version, Lomop revision and module number. R420. -/
  | info (c : Caller)
  /-- Creates a context with its root table and supervisor entry. R420. -/
  | ctxnew (c : Caller)
  /-- Starts ending a context: stops parties, aborts records and frees its number. R420. -/
  | ctxend (c : Caller)
  /-- Returns the trap that ended a context. R420. -/
  | ctxreport (c : Caller)
  /-- Registers a post area with a die's Innkeeper. R420. -/
  | postreg (c : Caller)
  /-- Frees a post area's watch entry. R420. -/
  | postunreg (c : Caller)
  /-- Writes a die's pre-emption policy register. R420. -/
  | prepol (c : Caller)
  /-- Sets or clears a hardware breakpoint of the calling thread. R420. -/
  | bkset (c : Caller)
  /-- Installs a format window in a stack's cache slice. R420. -/
  | fwinset (c : Caller)
  /-- Arms the one-shot test fault on a Parlum link. R420. -/
  | linktest (c : Caller)
  /-- Sets the module power limit. R420. -/
  | mlimset (c : Caller)
  /-- Binds or unbinds an MSI-X vector to an event. R420. -/
  | vecbind (c : Caller)
  /-- Writes a signed attestation report for a nonce. R424. -/
  | attest (c : Caller)
  /-- Writes the module's public identity key. R420. -/
  | idkey (c : Caller)
  /-- Writes the module's speed table. R405. -/
  | speedtbl (c : Caller)
  /-- Reads, and optionally clears, a core's straggle entry. R288. -/
  | straggle (c : Caller)
  /-- Sets the device memory that a VF's BAR 2 may reach. R420. -/
  | vfmem (c : Caller)
  /-- Confirms that a withdrawn channel range has been vacated. R413. -/
  | chconfirm (c : Caller)
  /-- Starts ending a task, leaving STATE 7. R283. -/
  | taskabort (c : Caller)
  /-- The asynchronous work of CTXEND or TASKABORT ends and its counter is added to. R422. -/
  | serviceWorkDone
  /-- A party that has stood first in the order at effective priority 3 for 5 ms starts blocking all further placement on the dies in its DIES. R277. -/
  | firstPartyBlocksPlacement (party : Nat)
  /-- A Parlum link gains training and carries traffic, so its LINKUP bit becomes 1. R392. -/
  | linkGainsTraining (k : Fin 18)
  /-- A completion for a device read, flush read or AtomicOp to a HOST page arrives on a PCIe link. R347. -/
  | pcieCompletion (req : Nat) (data : BitVec 64)
deriving DecidableEq, Repr

end Sys2Proof
end

