-- ==== Sys2Proof/WellFormed.lean ====
section
/-! DEFINITION. Which terms of Instr are instructions of the part: the code limits and register groups that
step 4 of R37 checks, and the bounds of an event's operands. -/

namespace Sys2Proof

/-- An m register number, m0 to m15, in a 5-bit field; there is no m16 to m31, so bit 4 must be 0 (R20, R33).
DEDUCED: assumption 13. -/
def isMask (r : BitVec 5) : Bool := r.toNat < 16

/-- The first register of an even-aligned v pair (R42). -/
def isEven (r : BitVec 5) : Bool := r.toNat % 2 == 0

/-- The first register of a format E group: s4, s8, ..., s28 (R42). -/
def isGroup (r : BitVec 5) : Bool := r.toNat % 4 == 0 && r != 0#5

/-- Scope codes 6 and 7 and width codes 2 and 3 of format A are illegal (R32, R35). -/
def amoCodes (s : BitVec 3) (w : BitVec 2) : Bool := s.toNat ≤ 5 && w.toNat ≤ 1

/-- The configuration registers whose write level is not a dash (R22). -/
def cfgWritable (n : Nat) : Bool :=
  n == 0x02 || n == 0x03 || n == 0x04 || n == 0x05 || n == 0x06 || n == 0x0B || (0x11 ≤ n && n ≤ 0x18)

/-- The term is an instruction or event of the part (R37 step 4). -/
def Instr.wellFormed (i : Instr) : Bool :=
  match i with
  | .add _ _ _ => true
  | .sub _ _ _ => true
  | .and _ _ _ => true
  | .or _ _ _ => true
  | .xor _ _ _ => true
  | .sll _ _ _ => true
  | .srl _ _ _ => true
  | .sra _ _ _ => true
  | .ror _ _ _ => true
  | .slt _ _ _ => true
  | .sltn _ _ _ => true
  | .mul _ _ _ => true
  | .mulh _ _ _ => true
  | .mulhn _ _ _ => true
  | .div _ _ _ => true
  | .divn _ _ _ => true
  | .rem _ _ _ => true
  | .remn _ _ _ => true
  | .min _ _ _ => true
  | .max _ _ _ => true
  | .minn _ _ _ => true
  | .maxn _ _ _ => true
  | .clz _ _ => true
  | .ctz _ _ => true
  | .spopc _ _ => true
  | .sextb _ _ => true
  | .sexth _ _ => true
  | .sextw _ _ => true
  | .addi _ _ _ => true
  | .andi _ _ _ => true
  | .ori _ _ _ => true
  | .xori _ _ _ => true
  | .slti _ _ _ => true
  | .sltni _ _ _ => true
  | .slli _ _ _ => true
  | .srli _ _ _ => true
  | .srai _ _ _ => true
  | .rori _ _ _ => true
  | .lih _ _ => true
  | .lix _ _ _ => true
  | .addpc _ _ => true
  | .ldb _ _ _ => true
  | .ldh _ _ _ => true
  | .ldw _ _ _ => true
  | .ldd _ _ _ => true
  | .ldbn _ _ _ => true
  | .ldhn _ _ _ => true
  | .ldwn _ _ _ => true
  | .stb _ _ _ => true
  | .sth _ _ _ => true
  | .stw _ _ _ => true
  | .std _ _ _ => true
  | .amoadd _ _ _ s _ w => amoCodes s w
  | .amoand _ _ _ s _ w => amoCodes s w
  | .amoor _ _ _ s _ w => amoCodes s w
  | .amoxor _ _ _ s _ w => amoCodes s w
  | .amomin _ _ _ s _ w => amoCodes s w
  | .amomax _ _ _ s _ w => amoCodes s w
  | .amominn _ _ _ s _ w => amoCodes s w
  | .amomaxn _ _ _ s _ w => amoCodes s w
  | .amoswap _ _ _ s _ w => amoCodes s w
  | .amocas _ _ _ s _ w => amoCodes s w
  | .beq _ _ _ => true
  | .bne _ _ _ => true
  | .blt _ _ _ => true
  | .bge _ _ _ => true
  | .bltn _ _ _ => true
  | .bgen _ _ _ => true
  | .j _ => true
  | .call _ => true
  | .jr _ => true
  | .callr _ => true
  | .ret => true
  | .trap _ => true
  | .eret => true
  | .rdcfg _ c => c.toNat ≤ 0x18
  | .wrcfg _ c => cfgWritable c.toNat
  | .fence p q r t s => s.toNat ≤ 5 && (p || q) && (r || t)
  | .brk _ => true
  | .exit => true
  | .yield => true
  | .splice _ => true
  | .launch _ => true
  | .wsave _ => true
  | .wload _ => true
  | .snapr _ _ _ => true
  | .snaprX _ _ _ => true
  | .tlbinv _ _ => true
  | .pgpool _ _ _ => true
  | .bar _ _ => true
  | .bara _ _ => true
  | .barw _ _ _ => true
  | .barexp _ _ => true
  | .take _ _ => true
  | .lrel _ => true
  | .waitc _ _ _ => true
  | .cadd _ _ _ => true
  | .setvl _ _ _ _ => true
  | .setvli _ _ _ _ => true
  | .setfib _ _ _ _ k => k != 0#4
  | .vtag _ t => t.toNat ≤ 0xD
  | .vadd _ _ _ _ _ => true
  | .vsub _ _ _ _ _ => true
  | .vrsub _ _ _ _ _ => true
  | .vaddw _ _ _ _ _ => true
  | .vsubw _ _ _ _ _ => true
  | .vmul _ _ _ _ _ => true
  | .vmulh _ _ _ _ _ => true
  | .vdiv _ _ _ _ _ => true
  | .vrem _ _ _ _ _ => true
  | .vmin _ _ _ _ _ => true
  | .vmax _ _ _ _ _ => true
  | .vabs _ _ _ => true
  | .vneg _ _ _ => true
  | .vand _ _ _ _ _ => true
  | .vor _ _ _ _ _ => true
  | .vxor _ _ _ _ _ => true
  | .vsll _ _ _ _ _ => true
  | .vsrl _ _ _ _ _ => true
  | .vsra _ _ _ _ _ => true
  | .vcvt _ _ _ => true
  | .vaddi _ _ _ _ => true
  | .vsubi _ _ _ _ => true
  | .vrsubi _ _ _ _ => true
  | .vaddwi _ _ _ _ => true
  | .vsubwi _ _ _ _ => true
  | .vmuli _ _ _ _ => true
  | .vmini _ _ _ _ => true
  | .vmaxi _ _ _ _ => true
  | .vandi _ _ _ _ => true
  | .vori _ _ _ _ => true
  | .vxori _ _ _ _ => true
  | .vslli _ _ _ _ => true
  | .vsrli _ _ _ _ => true
  | .vsrai _ _ _ _ => true
  | .vcmpeq d _ _ _ _ => isMask d
  | .vcmpne d _ _ _ _ => isMask d
  | .vcmplt d _ _ _ _ => isMask d
  | .vcmple d _ _ _ _ => isMask d
  | .vcmpgt d _ _ _ _ => isMask d
  | .vcmpge d _ _ _ _ => isMask d
  | .vcmpun d _ _ _ _ => isMask d
  | .mand d a b _ => isMask d && isMask a && isMask b
  | .mor d a b _ => isMask d && isMask a && isMask b
  | .mxor d a b _ => isMask d && isMask a && isMask b
  | .mandn d a b _ => isMask d && isMask a && isMask b
  | .mnot d a _ => isMask d && isMask a
  | .msbf d a _ => isMask d && isMask a
  | .msif d a _ => isMask d && isMask a
  | .msof d a _ => isMask d && isMask a
  | .viota _ a _ => isMask a
  | .vid _ _ => true
  | .vrgather _ _ _ _ => true
  | .vrgather2 _ a _ _ => isEven a
  | .vslideup _ _ _ _ => true
  | .vslidedown _ _ _ _ => true
  | .vslide1up _ _ _ _ => true
  | .vslide1down _ _ _ _ => true
  | .vcompress _ _ b => isMask b
  | .vpush _ _ _ _ => true
  | .vwmul d _ _ _ _ => isEven d
  | .vwmacc d _ _ _ _ => isEven d
  | .vwadd d _ _ _ _ => isEven d
  | .vncvt _ a _ => isEven a
  | .vnshr _ a _ _ _ => isEven a
  | .vsplat _ _ _ => true
  | .vext _ _ _ _ => true
  | .vmvs _ _ _ => true
  | .mffs _ a => isMask a
  | .mpopc _ a => isMask a
  | .vfsqrt _ _ _ => true
  | .vfrec _ _ _ => true
  | .vfrsqrt _ _ _ => true
  | .vfclass _ _ _ => true
  | .vfsgnj _ _ _ _ _ => true
  | .vfsgnjn _ _ _ _ _ => true
  | .vfsgnjx _ _ _ _ _ => true
  | .vfmadd _ _ _ _ _ r => r != 5#3 && r != 6#3
  | .vfmsub _ _ _ _ _ r => r != 5#3 && r != 6#3
  | .vfrmsub _ _ _ _ _ r => r != 5#3 && r != 6#3
  | .vfnmadd _ _ _ _ _ r => r != 5#3 && r != 6#3
  | .vredsumo _ _ _ _ _ => true
  | .vredsumt _ _ _ _ _ => true
  | .vredmin _ _ _ _ _ => true
  | .vredmax _ _ _ _ _ => true
  | .vredand _ _ _ _ _ => true
  | .vredor _ _ _ _ _ => true
  | .vredxor _ _ _ _ _ => true
  | .vscansum _ _ _ => true
  | .vscanmin _ _ _ => true
  | .vscanmax _ _ _ => true
  | .vld _ _ _ _ _ _ => true
  | .vldStrided _ _ _ _ _ _ _ => true
  | .vldIndexed _ _ _ _ _ _ _ _ => true
  | .vldFf _ _ _ _ _ _ => true
  | .vst _ _ _ _ _ _ => true
  | .vstStrided _ _ _ _ _ _ _ => true
  | .vstIndexed _ _ _ _ _ _ _ _ => true
  | .vamoadd _ _ _ _ _ _ => true
  | .vamoand _ _ _ _ _ _ => true
  | .vamoor _ _ _ _ _ _ => true
  | .vamoxor _ _ _ _ _ _ => true
  | .vamomin _ _ _ _ _ _ => true
  | .vamomax _ _ _ _ _ _ => true
  | .vamominn _ _ _ _ _ _ => true
  | .vamomaxn _ _ _ _ _ _ => true
  | .vamoswap _ _ _ _ _ _ => true
  | .vamocas d _ _ _ _ _ => isEven d
  | .vltl _ _ _ _ => true
  | .vlts _ _ _ _ => true
  | .tblb _ _ _ => true
  | .vpf _ _ => true
  | .vpbr _ _ => true
  | .vpj _ => true
  | .vpstop => true
  | .cpy g _ h _ _ _ => isGroup g && isGroup h
  | .cpyg g _ _ _ _ _ => isGroup g
  | .cpys g _ _ _ _ _ => isGroup g
  | .cpymg g _ h _ _ _ => isGroup g && isGroup h
  | .cwtld g _ _ _ _ => isGroup g
  | .csbar g => isGroup g
  | .cresume _ => true
  | .mcfg _ _ _ _ b => (b.toNat ≤ 3 || (8 ≤ b.toNat && b.toNat ≤ 14))
  | .mzero _ => true
  | .mma _ _ _ => true
  | .mmav g h _ => isGroup g && isGroup h
  | .mrd _ _ _ _ => true
  | .mst _ _ f => f != 7#3
  | .cwalk d _ _ _ => isEven d
  | .pkcfg _ => true
  | .pkload _ n => n.toNat ≤ 11
  | .pkswap _ => true
  | .pkfeed _ _ => true
  | .pkmiss _ n => (n.toNat < 16 || 64 ≤ n.toNat)
  | .pkdrain _ _ => true
  | .pkdrainClr _ _ => true
  | .xbegin => true
  | .xst _ _ => true
  | .xcommit _ => true
  | .xabort => true
  | .elementFire _ _ _ => true
  | .carryCopy _ _ => true
  | .retire _ => true
  | .registerFree _ b p => decide (p < if b then 48 else 128)
  | .branchResolve _ => true
  | .elementAccess _ p e => decide (p < 26 + 2 ^ 41 ∧ e < 8192)
  | .dataLanding _ p e => decide (p < 24 ∧ e < 8192)
  | .cowCopyDone _ => true
  | .baseDieAtomic _ _ _ _ _ => true
  | .lineWriteback _ => true
  | .lineDiscard _ => true
  | .linePrefetch _ => true
  | .dirtyLineTimeout _ => true
  | .cleanLineTimeout _ => true
  | .trapEntry _ => true
  | .vpCohortIssue _ => true
  | .grantWaitEnd _ => true
  | .quarterMoveDone => true
  | .engineFaultDelivery _ => true
  | .courierBeginPerforming _ => true
  | .courierElementTransfer _ _ => true
  | .commandComplete _ => true
  | .matrixQueueServe => true
  | .barrierWaitEnd _ => true
  | .waitcCounterRead _ => true
  | .turnpikeEntry => true
  | .turnpikePassEnd => true
  | .pkloadPerform => true
  | .pkcfgPerform => true
  | .postAreaTake _ => true
  | .launchListTake => true
  | .watchCounterRead _ => true
  | .partyPlace => true
  | .preemption _ => true
  | .partySaveDone _ => true
  | .partyEnd _ => true
  | .priorityAging _ => true
  | .purseInterval => true
  | .energyDebit _ _ => true
  | .droopDetect => true
  | .droopEnd => true
  | .clockStep => true
  | .coreGate => true
  | .wakeRequest => true
  | .wakeRampDone => true
  | .correctableError _ _ _ => true
  | .coreRetire => true
  | .linkShed _ => true
  | .linkWiden _ => true
  | .linkWidthChangeDone _ => true
  | .linkFault _ => true
  | .routeTimeout _ => true
  | .peerRequest _ _ _ => true
  | .peerReply _ _ => true
  | .xtTargetReply _ _ => true
  | .hostBarAccess _ b _ _ => b != .bar0
  | .hostAtomicop _ _ _ op _ _ _ => op == .add || op == .swap || op == .cas
  | .registerWrite _ _ _ => true
  | .reset => true
  | .info _ => true
  | .ctxnew _ => true
  | .ctxend _ => true
  | .ctxreport _ => true
  | .postreg _ => true
  | .postunreg _ => true
  | .prepol _ => true
  | .bkset _ => true
  | .fwinset _ => true
  | .linktest _ => true
  | .mlimset _ => true
  | .vecbind _ => true
  | .attest _ => true
  | .idkey _ => true
  | .speedtbl _ => true
  | .straggle _ => true
  | .vfmem _ => true
  | .chconfirm _ => true
  | .taskabort _ => true
  | .serviceWorkDone => true
  | .firstPartyBlocksPlacement _ => true
  | .linkGainsTraining _ => true
  | .pcieCompletion _ _ => true

end Sys2Proof
end

