-- ==== Sys2Proof/Decode.lean ====
section
/-! DEFINITION. The decoder of Lomop words, total on any 32 bits and rejecting by name (R31 to R37), and the
encoder written from the same tables. Decoding does not depend on register values (R39); whether a word
may stand inside a VP block is decided where the block issues it (R41). -/

namespace Sys2Proof

/-- Why a word is no instruction: the steps 1, 3 and 4 of R37, each of which is the illegal-instruction trap. -/
inductive DecodeError where
  /-- The major is 0x00, 0x3F or unassigned (R36). -/
  | unassignedMajor
  /-- The function value is unassigned in its major. -/
  | unassignedFunction
  /-- A field that the instruction does not use is not zero (R33). -/
  | nonzeroField
  /-- A field holds a code marked illegal, or a group breaks R42. -/
  | illegalCode
  /-- Fewer than four bytes are left. -/
  | truncated
deriving DecidableEq, Repr

/-- Major 0x01, SALU: the function value selects the row, and every other fixed bit is checked (R33, R36). -/
def decSalu (w : Insn) : Except DecodeError Instr :=
  match (w.extractLsb' 0 11).toNat with
  | 0 => .ok (.add (w.extractLsb' 21 5) (w.extractLsb' 16 5) (w.extractLsb' 11 5))
  | 1 => .ok (.sub (w.extractLsb' 21 5) (w.extractLsb' 16 5) (w.extractLsb' 11 5))
  | 2 => .ok (.and (w.extractLsb' 21 5) (w.extractLsb' 16 5) (w.extractLsb' 11 5))
  | 3 => .ok (.or (w.extractLsb' 21 5) (w.extractLsb' 16 5) (w.extractLsb' 11 5))
  | 4 => .ok (.xor (w.extractLsb' 21 5) (w.extractLsb' 16 5) (w.extractLsb' 11 5))
  | 5 => .ok (.sll (w.extractLsb' 21 5) (w.extractLsb' 16 5) (w.extractLsb' 11 5))
  | 6 => .ok (.srl (w.extractLsb' 21 5) (w.extractLsb' 16 5) (w.extractLsb' 11 5))
  | 7 => .ok (.sra (w.extractLsb' 21 5) (w.extractLsb' 16 5) (w.extractLsb' 11 5))
  | 8 => .ok (.ror (w.extractLsb' 21 5) (w.extractLsb' 16 5) (w.extractLsb' 11 5))
  | 9 => .ok (.slt (w.extractLsb' 21 5) (w.extractLsb' 16 5) (w.extractLsb' 11 5))
  | 10 => .ok (.sltn (w.extractLsb' 21 5) (w.extractLsb' 16 5) (w.extractLsb' 11 5))
  | 11 => .ok (.mul (w.extractLsb' 21 5) (w.extractLsb' 16 5) (w.extractLsb' 11 5))
  | 12 => .ok (.mulh (w.extractLsb' 21 5) (w.extractLsb' 16 5) (w.extractLsb' 11 5))
  | 13 => .ok (.mulhn (w.extractLsb' 21 5) (w.extractLsb' 16 5) (w.extractLsb' 11 5))
  | 14 => .ok (.div (w.extractLsb' 21 5) (w.extractLsb' 16 5) (w.extractLsb' 11 5))
  | 15 => .ok (.divn (w.extractLsb' 21 5) (w.extractLsb' 16 5) (w.extractLsb' 11 5))
  | 16 => .ok (.rem (w.extractLsb' 21 5) (w.extractLsb' 16 5) (w.extractLsb' 11 5))
  | 17 => .ok (.remn (w.extractLsb' 21 5) (w.extractLsb' 16 5) (w.extractLsb' 11 5))
  | 18 => .ok (.min (w.extractLsb' 21 5) (w.extractLsb' 16 5) (w.extractLsb' 11 5))
  | 19 => .ok (.max (w.extractLsb' 21 5) (w.extractLsb' 16 5) (w.extractLsb' 11 5))
  | 20 => .ok (.minn (w.extractLsb' 21 5) (w.extractLsb' 16 5) (w.extractLsb' 11 5))
  | 21 => .ok (.maxn (w.extractLsb' 21 5) (w.extractLsb' 16 5) (w.extractLsb' 11 5))
  | 22 => if w.extractLsb' 11 5 = 0#5 then .ok (.clz (w.extractLsb' 21 5) (w.extractLsb' 16 5)) else .error .nonzeroField
  | 23 => if w.extractLsb' 11 5 = 0#5 then .ok (.ctz (w.extractLsb' 21 5) (w.extractLsb' 16 5)) else .error .nonzeroField
  | 24 => if w.extractLsb' 11 5 = 0#5 then .ok (.spopc (w.extractLsb' 21 5) (w.extractLsb' 16 5)) else .error .nonzeroField
  | 25 => if w.extractLsb' 11 5 = 0#5 then .ok (.sextb (w.extractLsb' 21 5) (w.extractLsb' 16 5)) else .error .nonzeroField
  | 26 => if w.extractLsb' 11 5 = 0#5 then .ok (.sexth (w.extractLsb' 21 5) (w.extractLsb' 16 5)) else .error .nonzeroField
  | 27 => if w.extractLsb' 11 5 = 0#5 then .ok (.sextw (w.extractLsb' 21 5) (w.extractLsb' 16 5)) else .error .nonzeroField
  | _ => .error .unassignedFunction

/-- Major 0x08, SHIFTI: the function value selects the row, and every other fixed bit is checked (R33, R36). -/
def decShifti (w : Insn) : Except DecodeError Instr :=
  match (w.extractLsb' 6 10).toNat with
  | 0 => .ok (.slli (w.extractLsb' 21 5) (w.extractLsb' 16 5) (w.extractLsb' 0 6))
  | 1 => .ok (.srli (w.extractLsb' 21 5) (w.extractLsb' 16 5) (w.extractLsb' 0 6))
  | 2 => .ok (.srai (w.extractLsb' 21 5) (w.extractLsb' 16 5) (w.extractLsb' 0 6))
  | 3 => .ok (.rori (w.extractLsb' 21 5) (w.extractLsb' 16 5) (w.extractLsb' 0 6))
  | _ => .error .unassignedFunction

/-- Major 0x0C, SLD: the function value selects the row, and every other fixed bit is checked (R33, R36). -/
def decSld (w : Insn) : Except DecodeError Instr :=
  match (w.extractLsb' 12 4).toNat with
  | 0 => .ok (.ldb (w.extractLsb' 21 5) (w.extractLsb' 16 5) (w.extractLsb' 0 12))
  | 1 => .ok (.ldh (w.extractLsb' 21 5) (w.extractLsb' 16 5) (w.extractLsb' 0 12))
  | 2 => .ok (.ldw (w.extractLsb' 21 5) (w.extractLsb' 16 5) (w.extractLsb' 0 12))
  | 3 => .ok (.ldd (w.extractLsb' 21 5) (w.extractLsb' 16 5) (w.extractLsb' 0 12))
  | 4 => .ok (.ldbn (w.extractLsb' 21 5) (w.extractLsb' 16 5) (w.extractLsb' 0 12))
  | 5 => .ok (.ldhn (w.extractLsb' 21 5) (w.extractLsb' 16 5) (w.extractLsb' 0 12))
  | 6 => .ok (.ldwn (w.extractLsb' 21 5) (w.extractLsb' 16 5) (w.extractLsb' 0 12))
  | _ => .error .unassignedFunction

/-- Major 0x0D, SST: the function value selects the row, and every other fixed bit is checked (R33, R36). -/
def decSst (w : Insn) : Except DecodeError Instr :=
  match (w.extractLsb' 12 4).toNat with
  | 0 => .ok (.stb (w.extractLsb' 21 5) (w.extractLsb' 16 5) (w.extractLsb' 0 12))
  | 1 => .ok (.sth (w.extractLsb' 21 5) (w.extractLsb' 16 5) (w.extractLsb' 0 12))
  | 2 => .ok (.stw (w.extractLsb' 21 5) (w.extractLsb' 16 5) (w.extractLsb' 0 12))
  | 3 => .ok (.std (w.extractLsb' 21 5) (w.extractLsb' 16 5) (w.extractLsb' 0 12))
  | _ => .error .unassignedFunction

/-- Major 0x0E, SAMO: the function value selects the row, and every other fixed bit is checked (R33, R36). -/
def decSamo (w : Insn) : Except DecodeError Instr :=
  match (w.extractLsb' 7 4).toNat with
  | 0 => .ok (.amoadd (w.extractLsb' 21 5) (w.extractLsb' 16 5) (w.extractLsb' 11 5) (w.extractLsb' 4 3) (w.extractLsb' 2 2) (w.extractLsb' 0 2))
  | 1 => .ok (.amoand (w.extractLsb' 21 5) (w.extractLsb' 16 5) (w.extractLsb' 11 5) (w.extractLsb' 4 3) (w.extractLsb' 2 2) (w.extractLsb' 0 2))
  | 2 => .ok (.amoor (w.extractLsb' 21 5) (w.extractLsb' 16 5) (w.extractLsb' 11 5) (w.extractLsb' 4 3) (w.extractLsb' 2 2) (w.extractLsb' 0 2))
  | 3 => .ok (.amoxor (w.extractLsb' 21 5) (w.extractLsb' 16 5) (w.extractLsb' 11 5) (w.extractLsb' 4 3) (w.extractLsb' 2 2) (w.extractLsb' 0 2))
  | 4 => .ok (.amomin (w.extractLsb' 21 5) (w.extractLsb' 16 5) (w.extractLsb' 11 5) (w.extractLsb' 4 3) (w.extractLsb' 2 2) (w.extractLsb' 0 2))
  | 5 => .ok (.amomax (w.extractLsb' 21 5) (w.extractLsb' 16 5) (w.extractLsb' 11 5) (w.extractLsb' 4 3) (w.extractLsb' 2 2) (w.extractLsb' 0 2))
  | 6 => .ok (.amominn (w.extractLsb' 21 5) (w.extractLsb' 16 5) (w.extractLsb' 11 5) (w.extractLsb' 4 3) (w.extractLsb' 2 2) (w.extractLsb' 0 2))
  | 7 => .ok (.amomaxn (w.extractLsb' 21 5) (w.extractLsb' 16 5) (w.extractLsb' 11 5) (w.extractLsb' 4 3) (w.extractLsb' 2 2) (w.extractLsb' 0 2))
  | 8 => .ok (.amoswap (w.extractLsb' 21 5) (w.extractLsb' 16 5) (w.extractLsb' 11 5) (w.extractLsb' 4 3) (w.extractLsb' 2 2) (w.extractLsb' 0 2))
  | 9 => .ok (.amocas (w.extractLsb' 21 5) (w.extractLsb' 16 5) (w.extractLsb' 11 5) (w.extractLsb' 4 3) (w.extractLsb' 2 2) (w.extractLsb' 0 2))
  | _ => .error .unassignedFunction

/-- Major 0x18, CTLR: the function value selects the row, and every other fixed bit is checked (R33, R36). -/
def decCtlr (w : Insn) : Except DecodeError Instr :=
  match (w.extractLsb' 0 11).toNat with
  | 0 => if w.extractLsb' 11 5 = 0#5 ∧ w.extractLsb' 21 5 = 0#5 then .ok (.jr (w.extractLsb' 16 5)) else .error .nonzeroField
  | 1 => if w.extractLsb' 11 5 = 0#5 ∧ w.extractLsb' 21 5 = 0#5 then .ok (.callr (w.extractLsb' 16 5)) else .error .nonzeroField
  | 2 => if w.extractLsb' 11 15 = 0#15 then .ok (.ret) else .error .nonzeroField
  | _ => .error .unassignedFunction

/-- Major 0x1C, SYS: the function value selects the row, and every other fixed bit is checked (R33, R36). -/
def decSys (w : Insn) : Except DecodeError Instr :=
  match (w.extractLsb' 7 4).toNat with
  | 0 => if w.extractLsb' 11 15 = 0#15 then .ok (.trap (w.extractLsb' 0 7)) else .error .nonzeroField
  | 1 => if w.extractLsb' 0 7 = 0#7 ∧ w.extractLsb' 11 15 = 0#15 then .ok (.eret) else .error .nonzeroField
  | 2 => if w.extractLsb' 11 10 = 0#10 then .ok (.rdcfg (w.extractLsb' 21 5) (w.extractLsb' 0 7)) else .error .nonzeroField
  | 3 => if w.extractLsb' 11 5 = 0#5 ∧ w.extractLsb' 21 5 = 0#5 then .ok (.wrcfg (w.extractLsb' 16 5) (w.extractLsb' 0 7)) else .error .nonzeroField
  | 4 => if w.extractLsb' 11 15 = 0#15 then .ok (.fence (w.extractLsb' 6 1 == 1#1) (w.extractLsb' 5 1 == 1#1) (w.extractLsb' 4 1 == 1#1) (w.extractLsb' 3 1 == 1#1) (w.extractLsb' 0 3)) else .error .nonzeroField
  | 5 => if w.extractLsb' 11 15 = 0#15 then .ok (.brk (w.extractLsb' 0 7)) else .error .nonzeroField
  | 6 => if w.extractLsb' 0 7 = 0#7 ∧ w.extractLsb' 11 15 = 0#15 then .ok (.exit) else .error .nonzeroField
  | 7 => if w.extractLsb' 0 7 = 0#7 ∧ w.extractLsb' 11 15 = 0#15 then .ok (.yield) else .error .nonzeroField
  | 8 => if w.extractLsb' 0 7 = 0#7 ∧ w.extractLsb' 11 7 = 0#7 then .ok (.splice (w.extractLsb' 18 8)) else .error .nonzeroField
  | 9 => if w.extractLsb' 0 7 = 0#7 ∧ w.extractLsb' 11 5 = 0#5 ∧ w.extractLsb' 21 5 = 0#5 then .ok (.launch (w.extractLsb' 16 5)) else .error .nonzeroField
  | 10 => if w.extractLsb' 0 7 = 0#7 ∧ w.extractLsb' 11 5 = 0#5 ∧ w.extractLsb' 21 5 = 0#5 then .ok (.wsave (w.extractLsb' 16 5)) else .error .nonzeroField
  | 11 => if w.extractLsb' 0 7 = 0#7 ∧ w.extractLsb' 11 5 = 0#5 ∧ w.extractLsb' 21 5 = 0#5 then .ok (.wload (w.extractLsb' 16 5)) else .error .nonzeroField
  | 12 => if w.extractLsb' 0 1 = 1#1 then (if w.extractLsb' 1 6 = 0#6 then .ok (.snaprX (w.extractLsb' 21 5) (w.extractLsb' 16 5) (w.extractLsb' 11 5)) else .error .nonzeroField) else (if w.extractLsb' 1 6 = 0#6 then .ok (.snapr (w.extractLsb' 21 5) (w.extractLsb' 16 5) (w.extractLsb' 11 5)) else .error .nonzeroField)
  | 13 => if w.extractLsb' 0 7 = 0#7 ∧ w.extractLsb' 21 5 = 0#5 then .ok (.tlbinv (w.extractLsb' 16 5) (w.extractLsb' 11 5)) else .error .nonzeroField
  | 14 => if w.extractLsb' 0 7 = 0#7 then .ok (.pgpool (w.extractLsb' 21 5) (w.extractLsb' 16 5) (w.extractLsb' 11 5)) else .error .nonzeroField
  | _ => .error .unassignedFunction

/-- Major 0x1D, SYNC: the function value selects the row, and every other fixed bit is checked (R33, R36). -/
def decSync (w : Insn) : Except DecodeError Instr :=
  match (w.extractLsb' 7 4).toNat with
  | 0 => if w.extractLsb' 4 3 = 0#3 ∧ w.extractLsb' 11 10 = 0#10 then .ok (.bar (w.extractLsb' 21 5) (w.extractLsb' 0 4)) else .error .nonzeroField
  | 1 => if w.extractLsb' 4 3 = 0#3 ∧ w.extractLsb' 11 10 = 0#10 then .ok (.bara (w.extractLsb' 21 5) (w.extractLsb' 0 4)) else .error .nonzeroField
  | 2 => if w.extractLsb' 4 3 = 0#3 ∧ w.extractLsb' 11 5 = 0#5 then .ok (.barw (w.extractLsb' 21 5) (w.extractLsb' 16 5) (w.extractLsb' 0 4)) else .error .nonzeroField
  | 3 => if w.extractLsb' 4 3 = 0#3 ∧ w.extractLsb' 11 5 = 0#5 ∧ w.extractLsb' 21 5 = 0#5 then .ok (.barexp (w.extractLsb' 16 5) (w.extractLsb' 0 4)) else .error .nonzeroField
  | 4 => if w.extractLsb' 3 4 = 0#4 ∧ w.extractLsb' 11 10 = 0#10 then .ok (.take (w.extractLsb' 21 5) (w.extractLsb' 0 3)) else .error .nonzeroField
  | 5 => if w.extractLsb' 3 4 = 0#4 ∧ w.extractLsb' 11 15 = 0#15 then .ok (.lrel (w.extractLsb' 0 3)) else .error .nonzeroField
  | 6 => if w.extractLsb' 0 7 = 0#7 then .ok (.waitc (w.extractLsb' 21 5) (w.extractLsb' 16 5) (w.extractLsb' 11 5)) else .error .nonzeroField
  | 7 => if w.extractLsb' 0 7 = 0#7 then .ok (.cadd (w.extractLsb' 21 5) (w.extractLsb' 16 5) (w.extractLsb' 11 5)) else .error .nonzeroField
  | _ => .error .unassignedFunction

/-- Major 0x20, VCONF: the function value selects the row, and every other fixed bit is checked (R33, R36). -/
def decVconf (w : Insn) : Except DecodeError Instr :=
  match (w.extractLsb' 7 4).toNat with
  | 0 => if w.extractLsb' 0 3 = 0#3 ∧ w.extractLsb' 11 5 = 0#5 then .ok (.setvl (w.extractLsb' 21 5) (w.extractLsb' 16 5) (w.extractLsb' 5 2) (w.extractLsb' 3 2)) else .error .nonzeroField
  | 1 => if w.extractLsb' 0 3 = 0#3 then .ok (.setvli (w.extractLsb' 21 5) (w.extractLsb' 11 10) (w.extractLsb' 5 2) (w.extractLsb' 3 2)) else .error .nonzeroField
  | 2 => if w.extractLsb' 0 1 = 0#1 then .ok (.setfib (w.extractLsb' 21 5) (w.extractLsb' 16 5) (w.extractLsb' 11 5) (w.extractLsb' 5 2) (w.extractLsb' 1 4)) else .error .nonzeroField
  | 3 => if w.extractLsb' 4 3 = 0#3 ∧ w.extractLsb' 11 10 = 0#10 then .ok (.vtag (w.extractLsb' 21 5) (w.extractLsb' 0 4)) else .error .nonzeroField
  | _ => .error .unassignedFunction

/-- Major 0x21, VARITH: the function value selects the row, and every other fixed bit is checked (R33, R36). -/
def decVarith (w : Insn) : Except DecodeError Instr :=
  match (w.extractLsb' 0 6).toNat with
  | 0 => .ok (.vadd (w.extractLsb' 21 5) (w.extractLsb' 16 5) (w.extractLsb' 11 5) (w.extractLsb' 7 4) (w.extractLsb' 6 1 == 1#1))
  | 1 => .ok (.vsub (w.extractLsb' 21 5) (w.extractLsb' 16 5) (w.extractLsb' 11 5) (w.extractLsb' 7 4) (w.extractLsb' 6 1 == 1#1))
  | 2 => .ok (.vrsub (w.extractLsb' 21 5) (w.extractLsb' 16 5) (w.extractLsb' 11 5) (w.extractLsb' 7 4) (w.extractLsb' 6 1 == 1#1))
  | 3 => .ok (.vaddw (w.extractLsb' 21 5) (w.extractLsb' 16 5) (w.extractLsb' 11 5) (w.extractLsb' 7 4) (w.extractLsb' 6 1 == 1#1))
  | 4 => .ok (.vsubw (w.extractLsb' 21 5) (w.extractLsb' 16 5) (w.extractLsb' 11 5) (w.extractLsb' 7 4) (w.extractLsb' 6 1 == 1#1))
  | 5 => .ok (.vmul (w.extractLsb' 21 5) (w.extractLsb' 16 5) (w.extractLsb' 11 5) (w.extractLsb' 7 4) (w.extractLsb' 6 1 == 1#1))
  | 6 => .ok (.vmulh (w.extractLsb' 21 5) (w.extractLsb' 16 5) (w.extractLsb' 11 5) (w.extractLsb' 7 4) (w.extractLsb' 6 1 == 1#1))
  | 7 => .ok (.vdiv (w.extractLsb' 21 5) (w.extractLsb' 16 5) (w.extractLsb' 11 5) (w.extractLsb' 7 4) (w.extractLsb' 6 1 == 1#1))
  | 8 => .ok (.vrem (w.extractLsb' 21 5) (w.extractLsb' 16 5) (w.extractLsb' 11 5) (w.extractLsb' 7 4) (w.extractLsb' 6 1 == 1#1))
  | 9 => .ok (.vmin (w.extractLsb' 21 5) (w.extractLsb' 16 5) (w.extractLsb' 11 5) (w.extractLsb' 7 4) (w.extractLsb' 6 1 == 1#1))
  | 10 => .ok (.vmax (w.extractLsb' 21 5) (w.extractLsb' 16 5) (w.extractLsb' 11 5) (w.extractLsb' 7 4) (w.extractLsb' 6 1 == 1#1))
  | 11 => if w.extractLsb' 6 1 = 0#1 ∧ w.extractLsb' 11 5 = 0#5 then .ok (.vabs (w.extractLsb' 21 5) (w.extractLsb' 16 5) (w.extractLsb' 7 4)) else .error .nonzeroField
  | 12 => if w.extractLsb' 6 1 = 0#1 ∧ w.extractLsb' 11 5 = 0#5 then .ok (.vneg (w.extractLsb' 21 5) (w.extractLsb' 16 5) (w.extractLsb' 7 4)) else .error .nonzeroField
  | 13 => .ok (.vand (w.extractLsb' 21 5) (w.extractLsb' 16 5) (w.extractLsb' 11 5) (w.extractLsb' 7 4) (w.extractLsb' 6 1 == 1#1))
  | 14 => .ok (.vor (w.extractLsb' 21 5) (w.extractLsb' 16 5) (w.extractLsb' 11 5) (w.extractLsb' 7 4) (w.extractLsb' 6 1 == 1#1))
  | 15 => .ok (.vxor (w.extractLsb' 21 5) (w.extractLsb' 16 5) (w.extractLsb' 11 5) (w.extractLsb' 7 4) (w.extractLsb' 6 1 == 1#1))
  | 16 => .ok (.vsll (w.extractLsb' 21 5) (w.extractLsb' 16 5) (w.extractLsb' 11 5) (w.extractLsb' 7 4) (w.extractLsb' 6 1 == 1#1))
  | 17 => .ok (.vsrl (w.extractLsb' 21 5) (w.extractLsb' 16 5) (w.extractLsb' 11 5) (w.extractLsb' 7 4) (w.extractLsb' 6 1 == 1#1))
  | 18 => .ok (.vsra (w.extractLsb' 21 5) (w.extractLsb' 16 5) (w.extractLsb' 11 5) (w.extractLsb' 7 4) (w.extractLsb' 6 1 == 1#1))
  | 19 => if w.extractLsb' 6 1 = 0#1 ∧ w.extractLsb' 11 5 = 0#5 then .ok (.vcvt (w.extractLsb' 21 5) (w.extractLsb' 16 5) (w.extractLsb' 7 4)) else .error .nonzeroField
  | _ => .error .unassignedFunction

/-- Major 0x22, VARITHI: the function value selects the row, and every other fixed bit is checked (R33, R36). -/
def decVarithi (w : Insn) : Except DecodeError Instr :=
  match (w.extractLsb' 0 7).toNat with
  | 0 => .ok (.vaddi (w.extractLsb' 21 5) (w.extractLsb' 16 5) (w.extractLsb' 11 5) (w.extractLsb' 7 4))
  | 1 => .ok (.vsubi (w.extractLsb' 21 5) (w.extractLsb' 16 5) (w.extractLsb' 11 5) (w.extractLsb' 7 4))
  | 2 => .ok (.vrsubi (w.extractLsb' 21 5) (w.extractLsb' 16 5) (w.extractLsb' 11 5) (w.extractLsb' 7 4))
  | 3 => .ok (.vaddwi (w.extractLsb' 21 5) (w.extractLsb' 16 5) (w.extractLsb' 11 5) (w.extractLsb' 7 4))
  | 4 => .ok (.vsubwi (w.extractLsb' 21 5) (w.extractLsb' 16 5) (w.extractLsb' 11 5) (w.extractLsb' 7 4))
  | 5 => .ok (.vmuli (w.extractLsb' 21 5) (w.extractLsb' 16 5) (w.extractLsb' 11 5) (w.extractLsb' 7 4))
  | 9 => .ok (.vmini (w.extractLsb' 21 5) (w.extractLsb' 16 5) (w.extractLsb' 11 5) (w.extractLsb' 7 4))
  | 10 => .ok (.vmaxi (w.extractLsb' 21 5) (w.extractLsb' 16 5) (w.extractLsb' 11 5) (w.extractLsb' 7 4))
  | 13 => .ok (.vandi (w.extractLsb' 21 5) (w.extractLsb' 16 5) (w.extractLsb' 11 5) (w.extractLsb' 7 4))
  | 14 => .ok (.vori (w.extractLsb' 21 5) (w.extractLsb' 16 5) (w.extractLsb' 11 5) (w.extractLsb' 7 4))
  | 15 => .ok (.vxori (w.extractLsb' 21 5) (w.extractLsb' 16 5) (w.extractLsb' 11 5) (w.extractLsb' 7 4))
  | 16 => .ok (.vslli (w.extractLsb' 21 5) (w.extractLsb' 16 5) (w.extractLsb' 11 5) (w.extractLsb' 7 4))
  | 17 => .ok (.vsrli (w.extractLsb' 21 5) (w.extractLsb' 16 5) (w.extractLsb' 11 5) (w.extractLsb' 7 4))
  | 18 => .ok (.vsrai (w.extractLsb' 21 5) (w.extractLsb' 16 5) (w.extractLsb' 11 5) (w.extractLsb' 7 4))
  | _ => .error .unassignedFunction

/-- Major 0x23, VCMP: the function value selects the row, and every other fixed bit is checked (R33, R36). -/
def decVcmp (w : Insn) : Except DecodeError Instr :=
  match (w.extractLsb' 0 6).toNat with
  | 0 => .ok (.vcmpeq (w.extractLsb' 21 5) (w.extractLsb' 16 5) (w.extractLsb' 11 5) (w.extractLsb' 7 4) (w.extractLsb' 6 1 == 1#1))
  | 1 => .ok (.vcmpne (w.extractLsb' 21 5) (w.extractLsb' 16 5) (w.extractLsb' 11 5) (w.extractLsb' 7 4) (w.extractLsb' 6 1 == 1#1))
  | 2 => .ok (.vcmplt (w.extractLsb' 21 5) (w.extractLsb' 16 5) (w.extractLsb' 11 5) (w.extractLsb' 7 4) (w.extractLsb' 6 1 == 1#1))
  | 3 => .ok (.vcmple (w.extractLsb' 21 5) (w.extractLsb' 16 5) (w.extractLsb' 11 5) (w.extractLsb' 7 4) (w.extractLsb' 6 1 == 1#1))
  | 4 => .ok (.vcmpgt (w.extractLsb' 21 5) (w.extractLsb' 16 5) (w.extractLsb' 11 5) (w.extractLsb' 7 4) (w.extractLsb' 6 1 == 1#1))
  | 5 => .ok (.vcmpge (w.extractLsb' 21 5) (w.extractLsb' 16 5) (w.extractLsb' 11 5) (w.extractLsb' 7 4) (w.extractLsb' 6 1 == 1#1))
  | 6 => .ok (.vcmpun (w.extractLsb' 21 5) (w.extractLsb' 16 5) (w.extractLsb' 11 5) (w.extractLsb' 7 4) (w.extractLsb' 6 1 == 1#1))
  | 8 => if w.extractLsb' 6 1 = 0#1 then .ok (.mand (w.extractLsb' 21 5) (w.extractLsb' 16 5) (w.extractLsb' 11 5) (w.extractLsb' 7 4)) else .error .nonzeroField
  | 9 => if w.extractLsb' 6 1 = 0#1 then .ok (.mor (w.extractLsb' 21 5) (w.extractLsb' 16 5) (w.extractLsb' 11 5) (w.extractLsb' 7 4)) else .error .nonzeroField
  | 10 => if w.extractLsb' 6 1 = 0#1 then .ok (.mxor (w.extractLsb' 21 5) (w.extractLsb' 16 5) (w.extractLsb' 11 5) (w.extractLsb' 7 4)) else .error .nonzeroField
  | 11 => if w.extractLsb' 6 1 = 0#1 then .ok (.mandn (w.extractLsb' 21 5) (w.extractLsb' 16 5) (w.extractLsb' 11 5) (w.extractLsb' 7 4)) else .error .nonzeroField
  | 12 => if w.extractLsb' 6 1 = 0#1 ∧ w.extractLsb' 11 5 = 0#5 then .ok (.mnot (w.extractLsb' 21 5) (w.extractLsb' 16 5) (w.extractLsb' 7 4)) else .error .nonzeroField
  | 13 => if w.extractLsb' 6 1 = 0#1 ∧ w.extractLsb' 11 5 = 0#5 then .ok (.msbf (w.extractLsb' 21 5) (w.extractLsb' 16 5) (w.extractLsb' 7 4)) else .error .nonzeroField
  | 14 => if w.extractLsb' 6 1 = 0#1 ∧ w.extractLsb' 11 5 = 0#5 then .ok (.msif (w.extractLsb' 21 5) (w.extractLsb' 16 5) (w.extractLsb' 7 4)) else .error .nonzeroField
  | 15 => if w.extractLsb' 6 1 = 0#1 ∧ w.extractLsb' 11 5 = 0#5 then .ok (.msof (w.extractLsb' 21 5) (w.extractLsb' 16 5) (w.extractLsb' 7 4)) else .error .nonzeroField
  | 16 => if w.extractLsb' 6 1 = 0#1 ∧ w.extractLsb' 11 5 = 0#5 then .ok (.viota (w.extractLsb' 21 5) (w.extractLsb' 16 5) (w.extractLsb' 7 4)) else .error .nonzeroField
  | 17 => if w.extractLsb' 6 1 = 0#1 ∧ w.extractLsb' 11 10 = 0#10 then .ok (.vid (w.extractLsb' 21 5) (w.extractLsb' 7 4)) else .error .nonzeroField
  | _ => .error .unassignedFunction

/-- Major 0x24, VPERM: the function value selects the row, and every other fixed bit is checked (R33, R36). -/
def decVperm (w : Insn) : Except DecodeError Instr :=
  match (w.extractLsb' 0 6).toNat with
  | 0 => if w.extractLsb' 6 1 = 0#1 then .ok (.vrgather (w.extractLsb' 21 5) (w.extractLsb' 16 5) (w.extractLsb' 11 5) (w.extractLsb' 7 4)) else .error .nonzeroField
  | 1 => if w.extractLsb' 6 1 = 0#1 then .ok (.vrgather2 (w.extractLsb' 21 5) (w.extractLsb' 16 5) (w.extractLsb' 11 5) (w.extractLsb' 7 4)) else .error .nonzeroField
  | 2 => if w.extractLsb' 6 1 = 1#1 then .ok (.vslideup (w.extractLsb' 21 5) (w.extractLsb' 16 5) (w.extractLsb' 11 5) (w.extractLsb' 7 4)) else .error .nonzeroField
  | 3 => if w.extractLsb' 6 1 = 1#1 then .ok (.vslidedown (w.extractLsb' 21 5) (w.extractLsb' 16 5) (w.extractLsb' 11 5) (w.extractLsb' 7 4)) else .error .nonzeroField
  | 4 => if w.extractLsb' 6 1 = 1#1 then .ok (.vslide1up (w.extractLsb' 21 5) (w.extractLsb' 16 5) (w.extractLsb' 11 5) (w.extractLsb' 7 4)) else .error .nonzeroField
  | 5 => if w.extractLsb' 6 1 = 1#1 then .ok (.vslide1down (w.extractLsb' 21 5) (w.extractLsb' 16 5) (w.extractLsb' 11 5) (w.extractLsb' 7 4)) else .error .nonzeroField
  | 6 => if w.extractLsb' 6 5 = 0#5 then .ok (.vcompress (w.extractLsb' 21 5) (w.extractLsb' 16 5) (w.extractLsb' 11 5)) else .error .nonzeroField
  | 7 => if w.extractLsb' 6 1 = 0#1 then .ok (.vpush (w.extractLsb' 21 5) (w.extractLsb' 16 5) (w.extractLsb' 11 5) (w.extractLsb' 7 4)) else .error .nonzeroField
  | _ => .error .unassignedFunction

/-- Major 0x25, VWIDE: the function value selects the row, and every other fixed bit is checked (R33, R36). -/
def decVwide (w : Insn) : Except DecodeError Instr :=
  match (w.extractLsb' 0 6).toNat with
  | 0 => .ok (.vwmul (w.extractLsb' 21 5) (w.extractLsb' 16 5) (w.extractLsb' 11 5) (w.extractLsb' 7 4) (w.extractLsb' 6 1 == 1#1))
  | 1 => .ok (.vwmacc (w.extractLsb' 21 5) (w.extractLsb' 16 5) (w.extractLsb' 11 5) (w.extractLsb' 7 4) (w.extractLsb' 6 1 == 1#1))
  | 2 => .ok (.vwadd (w.extractLsb' 21 5) (w.extractLsb' 16 5) (w.extractLsb' 11 5) (w.extractLsb' 7 4) (w.extractLsb' 6 1 == 1#1))
  | 3 => if w.extractLsb' 6 1 = 0#1 ∧ w.extractLsb' 11 5 = 0#5 then .ok (.vncvt (w.extractLsb' 21 5) (w.extractLsb' 16 5) (w.extractLsb' 7 4)) else .error .nonzeroField
  | 4 => .ok (.vnshr (w.extractLsb' 21 5) (w.extractLsb' 16 5) (w.extractLsb' 11 5) (w.extractLsb' 7 4) (w.extractLsb' 6 1 == 1#1))
  | _ => .error .unassignedFunction

/-- Major 0x26, VMOVX: the function value selects the row, and every other fixed bit is checked (R33, R36). -/
def decVmovx (w : Insn) : Except DecodeError Instr :=
  match (w.extractLsb' 0 6).toNat with
  | 0 => if w.extractLsb' 6 1 = 1#1 ∧ w.extractLsb' 16 5 = 0#5 then .ok (.vsplat (w.extractLsb' 21 5) (w.extractLsb' 11 5) (w.extractLsb' 7 4)) else .error .nonzeroField
  | 1 => if w.extractLsb' 6 1 = 1#1 then .ok (.vext (w.extractLsb' 21 5) (w.extractLsb' 16 5) (w.extractLsb' 11 5) (w.extractLsb' 7 4)) else .error .nonzeroField
  | 2 => if w.extractLsb' 6 5 = 1#5 then .ok (.vmvs (w.extractLsb' 21 5) (w.extractLsb' 16 5) (w.extractLsb' 11 5)) else .error .nonzeroField
  | 3 => if w.extractLsb' 6 10 = 0#10 then .ok (.mffs (w.extractLsb' 21 5) (w.extractLsb' 16 5)) else .error .nonzeroField
  | 4 => if w.extractLsb' 6 10 = 0#10 then .ok (.mpopc (w.extractLsb' 21 5) (w.extractLsb' 16 5)) else .error .nonzeroField
  | _ => .error .unassignedFunction

/-- Major 0x28, VFX: the function value selects the row, and every other fixed bit is checked (R33, R36). -/
def decVfx (w : Insn) : Except DecodeError Instr :=
  match (w.extractLsb' 0 6).toNat with
  | 0 => if w.extractLsb' 6 1 = 0#1 ∧ w.extractLsb' 11 5 = 0#5 then .ok (.vfsqrt (w.extractLsb' 21 5) (w.extractLsb' 16 5) (w.extractLsb' 7 4)) else .error .nonzeroField
  | 1 => if w.extractLsb' 6 1 = 0#1 ∧ w.extractLsb' 11 5 = 0#5 then .ok (.vfrec (w.extractLsb' 21 5) (w.extractLsb' 16 5) (w.extractLsb' 7 4)) else .error .nonzeroField
  | 2 => if w.extractLsb' 6 1 = 0#1 ∧ w.extractLsb' 11 5 = 0#5 then .ok (.vfrsqrt (w.extractLsb' 21 5) (w.extractLsb' 16 5) (w.extractLsb' 7 4)) else .error .nonzeroField
  | 3 => if w.extractLsb' 6 1 = 0#1 ∧ w.extractLsb' 11 5 = 0#5 then .ok (.vfclass (w.extractLsb' 21 5) (w.extractLsb' 16 5) (w.extractLsb' 7 4)) else .error .nonzeroField
  | 4 => .ok (.vfsgnj (w.extractLsb' 21 5) (w.extractLsb' 16 5) (w.extractLsb' 11 5) (w.extractLsb' 7 4) (w.extractLsb' 6 1 == 1#1))
  | 5 => .ok (.vfsgnjn (w.extractLsb' 21 5) (w.extractLsb' 16 5) (w.extractLsb' 11 5) (w.extractLsb' 7 4) (w.extractLsb' 6 1 == 1#1))
  | 6 => .ok (.vfsgnjx (w.extractLsb' 21 5) (w.extractLsb' 16 5) (w.extractLsb' 11 5) (w.extractLsb' 7 4) (w.extractLsb' 6 1 == 1#1))
  | _ => .error .unassignedFunction

/-- Major 0x29, VFMA: the function value selects the row, and every other fixed bit is checked (R33, R36). -/
def decVfma (w : Insn) : Except DecodeError Instr :=
  match (w.extractLsb' 0 3).toNat with
  | 0 => .ok (.vfmadd (w.extractLsb' 21 5) (w.extractLsb' 16 5) (w.extractLsb' 11 5) (w.extractLsb' 7 4) (w.extractLsb' 6 1 == 1#1) (w.extractLsb' 3 3))
  | 1 => .ok (.vfmsub (w.extractLsb' 21 5) (w.extractLsb' 16 5) (w.extractLsb' 11 5) (w.extractLsb' 7 4) (w.extractLsb' 6 1 == 1#1) (w.extractLsb' 3 3))
  | 2 => .ok (.vfrmsub (w.extractLsb' 21 5) (w.extractLsb' 16 5) (w.extractLsb' 11 5) (w.extractLsb' 7 4) (w.extractLsb' 6 1 == 1#1) (w.extractLsb' 3 3))
  | 3 => .ok (.vfnmadd (w.extractLsb' 21 5) (w.extractLsb' 16 5) (w.extractLsb' 11 5) (w.extractLsb' 7 4) (w.extractLsb' 6 1 == 1#1) (w.extractLsb' 3 3))
  | _ => .error .unassignedFunction

/-- Major 0x2A, VRED: the function value selects the row, and every other fixed bit is checked (R33, R36). -/
def decVred (w : Insn) : Except DecodeError Instr :=
  match (w.extractLsb' 0 6).toNat with
  | 0 => .ok (.vredsumo (w.extractLsb' 21 5) (w.extractLsb' 16 5) (w.extractLsb' 11 5) (w.extractLsb' 7 4) (w.extractLsb' 6 1 == 1#1))
  | 1 => .ok (.vredsumt (w.extractLsb' 21 5) (w.extractLsb' 16 5) (w.extractLsb' 11 5) (w.extractLsb' 7 4) (w.extractLsb' 6 1 == 1#1))
  | 2 => .ok (.vredmin (w.extractLsb' 21 5) (w.extractLsb' 16 5) (w.extractLsb' 11 5) (w.extractLsb' 7 4) (w.extractLsb' 6 1 == 1#1))
  | 3 => .ok (.vredmax (w.extractLsb' 21 5) (w.extractLsb' 16 5) (w.extractLsb' 11 5) (w.extractLsb' 7 4) (w.extractLsb' 6 1 == 1#1))
  | 4 => .ok (.vredand (w.extractLsb' 21 5) (w.extractLsb' 16 5) (w.extractLsb' 11 5) (w.extractLsb' 7 4) (w.extractLsb' 6 1 == 1#1))
  | 5 => .ok (.vredor (w.extractLsb' 21 5) (w.extractLsb' 16 5) (w.extractLsb' 11 5) (w.extractLsb' 7 4) (w.extractLsb' 6 1 == 1#1))
  | 6 => .ok (.vredxor (w.extractLsb' 21 5) (w.extractLsb' 16 5) (w.extractLsb' 11 5) (w.extractLsb' 7 4) (w.extractLsb' 6 1 == 1#1))
  | 8 => if w.extractLsb' 6 1 = 0#1 ∧ w.extractLsb' 11 5 = 0#5 then .ok (.vscansum (w.extractLsb' 21 5) (w.extractLsb' 16 5) (w.extractLsb' 7 4)) else .error .nonzeroField
  | 9 => if w.extractLsb' 6 1 = 0#1 ∧ w.extractLsb' 11 5 = 0#5 then .ok (.vscanmin (w.extractLsb' 21 5) (w.extractLsb' 16 5) (w.extractLsb' 7 4)) else .error .nonzeroField
  | 10 => if w.extractLsb' 6 1 = 0#1 ∧ w.extractLsb' 11 5 = 0#5 then .ok (.vscanmax (w.extractLsb' 21 5) (w.extractLsb' 16 5) (w.extractLsb' 7 4)) else .error .nonzeroField
  | _ => .error .unassignedFunction

/-- Major 0x30, VLD: the function value selects the row, and every other fixed bit is checked (R33, R36). -/
def decVld (w : Insn) : Except DecodeError Instr :=
  match (w.extractLsb' 3 2).toNat with
  | 0 => if w.extractLsb' 11 5 = 0#5 then .ok (.vld (w.extractLsb' 21 5) (w.extractLsb' 16 5) (w.extractLsb' 7 4) (w.extractLsb' 6 1 == 1#1) (w.extractLsb' 5 1 == 1#1) (w.extractLsb' 0 3)) else .error .nonzeroField
  | 1 => .ok (.vldStrided (w.extractLsb' 21 5) (w.extractLsb' 16 5) (w.extractLsb' 11 5) (w.extractLsb' 7 4) (w.extractLsb' 6 1 == 1#1) (w.extractLsb' 5 1 == 1#1) (w.extractLsb' 0 3))
  | 2 => .ok (.vldIndexed (w.extractLsb' 21 5) (w.extractLsb' 16 5) (w.extractLsb' 11 5) (w.extractLsb' 7 4) (w.extractLsb' 6 1 == 1#1) (w.extractLsb' 5 1 == 1#1) (w.extractLsb' 1 2) (w.extractLsb' 0 1 == 1#1))
  | 3 => if w.extractLsb' 11 5 = 0#5 then .ok (.vldFf (w.extractLsb' 21 5) (w.extractLsb' 16 5) (w.extractLsb' 7 4) (w.extractLsb' 6 1 == 1#1) (w.extractLsb' 5 1 == 1#1) (w.extractLsb' 0 3)) else .error .nonzeroField
  | _ => .error .unassignedFunction

/-- Major 0x31, VST: the function value selects the row, and every other fixed bit is checked (R33, R36). -/
def decVst (w : Insn) : Except DecodeError Instr :=
  match (w.extractLsb' 3 2).toNat with
  | 0 => if w.extractLsb' 11 5 = 0#5 then .ok (.vst (w.extractLsb' 21 5) (w.extractLsb' 16 5) (w.extractLsb' 7 4) (w.extractLsb' 6 1 == 1#1) (w.extractLsb' 5 1 == 1#1) (w.extractLsb' 0 3)) else .error .nonzeroField
  | 1 => .ok (.vstStrided (w.extractLsb' 21 5) (w.extractLsb' 16 5) (w.extractLsb' 11 5) (w.extractLsb' 7 4) (w.extractLsb' 6 1 == 1#1) (w.extractLsb' 5 1 == 1#1) (w.extractLsb' 0 3))
  | 2 => .ok (.vstIndexed (w.extractLsb' 21 5) (w.extractLsb' 16 5) (w.extractLsb' 11 5) (w.extractLsb' 7 4) (w.extractLsb' 6 1 == 1#1) (w.extractLsb' 5 1 == 1#1) (w.extractLsb' 1 2) (w.extractLsb' 0 1 == 1#1))
  | _ => .error .unassignedFunction

/-- Major 0x32, VAMO: the function value selects the row, and every other fixed bit is checked (R33, R36). -/
def decVamo (w : Insn) : Except DecodeError Instr :=
  match (w.extractLsb' 3 4).toNat with
  | 0 => .ok (.vamoadd (w.extractLsb' 21 5) (w.extractLsb' 16 5) (w.extractLsb' 11 5) (w.extractLsb' 7 4) (w.extractLsb' 1 2) (w.extractLsb' 0 1 == 1#1))
  | 1 => .ok (.vamoand (w.extractLsb' 21 5) (w.extractLsb' 16 5) (w.extractLsb' 11 5) (w.extractLsb' 7 4) (w.extractLsb' 1 2) (w.extractLsb' 0 1 == 1#1))
  | 2 => .ok (.vamoor (w.extractLsb' 21 5) (w.extractLsb' 16 5) (w.extractLsb' 11 5) (w.extractLsb' 7 4) (w.extractLsb' 1 2) (w.extractLsb' 0 1 == 1#1))
  | 3 => .ok (.vamoxor (w.extractLsb' 21 5) (w.extractLsb' 16 5) (w.extractLsb' 11 5) (w.extractLsb' 7 4) (w.extractLsb' 1 2) (w.extractLsb' 0 1 == 1#1))
  | 4 => .ok (.vamomin (w.extractLsb' 21 5) (w.extractLsb' 16 5) (w.extractLsb' 11 5) (w.extractLsb' 7 4) (w.extractLsb' 1 2) (w.extractLsb' 0 1 == 1#1))
  | 5 => .ok (.vamomax (w.extractLsb' 21 5) (w.extractLsb' 16 5) (w.extractLsb' 11 5) (w.extractLsb' 7 4) (w.extractLsb' 1 2) (w.extractLsb' 0 1 == 1#1))
  | 6 => .ok (.vamominn (w.extractLsb' 21 5) (w.extractLsb' 16 5) (w.extractLsb' 11 5) (w.extractLsb' 7 4) (w.extractLsb' 1 2) (w.extractLsb' 0 1 == 1#1))
  | 7 => .ok (.vamomaxn (w.extractLsb' 21 5) (w.extractLsb' 16 5) (w.extractLsb' 11 5) (w.extractLsb' 7 4) (w.extractLsb' 1 2) (w.extractLsb' 0 1 == 1#1))
  | 8 => .ok (.vamoswap (w.extractLsb' 21 5) (w.extractLsb' 16 5) (w.extractLsb' 11 5) (w.extractLsb' 7 4) (w.extractLsb' 1 2) (w.extractLsb' 0 1 == 1#1))
  | 9 => .ok (.vamocas (w.extractLsb' 21 5) (w.extractLsb' 16 5) (w.extractLsb' 11 5) (w.extractLsb' 7 4) (w.extractLsb' 1 2) (w.extractLsb' 0 1 == 1#1))
  | _ => .error .unassignedFunction

/-- Major 0x33, VLT: the function value selects the row, and every other fixed bit is checked (R33, R36). -/
def decVlt (w : Insn) : Except DecodeError Instr :=
  match (w.extractLsb' 3 2).toNat with
  | 0 => if w.extractLsb' 0 3 = 0#3 ∧ w.extractLsb' 5 2 = 0#2 then .ok (.vltl (w.extractLsb' 21 5) (w.extractLsb' 16 5) (w.extractLsb' 11 5) (w.extractLsb' 7 4)) else .error .nonzeroField
  | 1 => if w.extractLsb' 0 3 = 0#3 ∧ w.extractLsb' 5 2 = 0#2 then .ok (.vlts (w.extractLsb' 21 5) (w.extractLsb' 16 5) (w.extractLsb' 11 5) (w.extractLsb' 7 4)) else .error .nonzeroField
  | 2 => if w.extractLsb' 0 3 = 0#3 ∧ w.extractLsb' 5 6 = 0#6 then .ok (.tblb (w.extractLsb' 21 5) (w.extractLsb' 16 5) (w.extractLsb' 11 5)) else .error .nonzeroField
  | _ => .error .unassignedFunction

/-- Major 0x38, VPB: the function value selects the row, and every other fixed bit is checked (R33, R36). -/
def decVpb (w : Insn) : Except DecodeError Instr :=
  match (w.extractLsb' 24 2).toNat with
  | 0 => .ok (.vpf (w.extractLsb' 20 4) (w.extractLsb' 0 20))
  | 1 => .ok (.vpbr (w.extractLsb' 20 4) (w.extractLsb' 0 20))
  | 2 => if w.extractLsb' 20 4 = 0#4 then .ok (.vpj (w.extractLsb' 0 20)) else .error .nonzeroField
  | 3 => if w.extractLsb' 0 24 = 0#24 then .ok (.vpstop) else .error .nonzeroField
  | _ => .error .unassignedFunction

/-- Major 0x3A, CUR: the function value selects the row, and every other fixed bit is checked (R33, R36). -/
def decCur (w : Insn) : Except DecodeError Instr :=
  match (w.extractLsb' 9 3).toNat with
  | 0 => .ok (.cpy (w.extractLsb' 21 5) (w.extractLsb' 17 4) (w.extractLsb' 12 5) (w.extractLsb' 8 1 == 1#1) (w.extractLsb' 4 4) (w.extractLsb' 0 4))
  | 1 => .ok (.cpyg (w.extractLsb' 21 5) (w.extractLsb' 17 4) (w.extractLsb' 12 5) (w.extractLsb' 8 1 == 1#1) (w.extractLsb' 4 4) (w.extractLsb' 0 4))
  | 2 => .ok (.cpys (w.extractLsb' 21 5) (w.extractLsb' 17 4) (w.extractLsb' 12 5) (w.extractLsb' 8 1 == 1#1) (w.extractLsb' 4 4) (w.extractLsb' 0 4))
  | 3 => .ok (.cpymg (w.extractLsb' 21 5) (w.extractLsb' 17 4) (w.extractLsb' 12 5) (w.extractLsb' 8 1 == 1#1) (w.extractLsb' 4 4) (w.extractLsb' 0 4))
  | 4 => if w.extractLsb' 12 5 = 0#5 then .ok (.cwtld (w.extractLsb' 21 5) (w.extractLsb' 17 4) (w.extractLsb' 8 1 == 1#1) (w.extractLsb' 4 4) (w.extractLsb' 0 4)) else .error .nonzeroField
  | 5 => if w.extractLsb' 0 9 = 0#9 ∧ w.extractLsb' 12 9 = 0#9 then .ok (.csbar (w.extractLsb' 21 5)) else .error .nonzeroField
  | 6 => if w.extractLsb' 0 9 = 0#9 ∧ w.extractLsb' 12 5 = 0#5 ∧ w.extractLsb' 21 5 = 0#5 then .ok (.cresume (w.extractLsb' 17 4)) else .error .nonzeroField
  | _ => .error .unassignedFunction

/-- Major 0x3B, MAT: the function value selects the row, and every other fixed bit is checked (R33, R36). -/
def decMat (w : Insn) : Except DecodeError Instr :=
  match (w.extractLsb' 23 3).toNat with
  | 0 => if w.extractLsb' 0 2 = 0#2 then .ok (.mcfg (w.extractLsb' 18 5) (w.extractLsb' 13 5) (w.extractLsb' 8 5) (w.extractLsb' 6 2) (w.extractLsb' 2 4)) else .error .nonzeroField
  | 1 => if w.extractLsb' 0 21 = 0#21 then .ok (.mzero (w.extractLsb' 21 2)) else .error .nonzeroField
  | 2 => if w.extractLsb' 0 11 = 0#11 then .ok (.mma (w.extractLsb' 21 2) (w.extractLsb' 16 5) (w.extractLsb' 11 5)) else .error .nonzeroField
  | 3 => if w.extractLsb' 0 7 = 0#7 ∧ w.extractLsb' 21 2 = 0#2 then .ok (.mmav (w.extractLsb' 16 5) (w.extractLsb' 11 5) (w.extractLsb' 7 4)) else .error .nonzeroField
  | 4 => if w.extractLsb' 0 7 = 0#7 then .ok (.mrd (w.extractLsb' 21 2) (w.extractLsb' 16 5) (w.extractLsb' 11 5) (w.extractLsb' 7 4)) else .error .nonzeroField
  | 5 => if w.extractLsb' 0 13 = 0#13 then .ok (.mst (w.extractLsb' 21 2) (w.extractLsb' 16 5) (w.extractLsb' 13 3)) else .error .nonzeroField
  | _ => .error .unassignedFunction

/-- Major 0x3D, PIKE: the function value selects the row, and every other fixed bit is checked (R33, R36). -/
def decPike (w : Insn) : Except DecodeError Instr :=
  match (w.extractLsb' 23 3).toNat with
  | 0 => if w.extractLsb' 0 13 = 0#13 ∧ w.extractLsb' 18 5 = 0#5 then .ok (.pkcfg (w.extractLsb' 13 5)) else .error .nonzeroField
  | 1 => if w.extractLsb' 4 9 = 0#9 ∧ w.extractLsb' 18 5 = 0#5 then .ok (.pkload (w.extractLsb' 13 5) (w.extractLsb' 0 4)) else .error .nonzeroField
  | 2 => if w.extractLsb' 12 11 = 0#11 then .ok (.pkswap (w.extractLsb' 0 12)) else .error .nonzeroField
  | 3 => if w.extractLsb' 0 8 = 0#8 ∧ w.extractLsb' 18 5 = 0#5 then .ok (.pkfeed (w.extractLsb' 13 5) (w.extractLsb' 8 5)) else .error .nonzeroField
  | 4 => if w.extractLsb' 7 11 = 0#11 then .ok (.pkmiss (w.extractLsb' 18 5) (w.extractLsb' 0 7)) else .error .nonzeroField
  | 5 => if w.extractLsb' 7 1 = 1#1 then (if w.extractLsb' 0 7 = 0#7 ∧ w.extractLsb' 8 5 = 0#5 then .ok (.pkdrainClr (w.extractLsb' 18 5) (w.extractLsb' 13 5)) else .error .nonzeroField) else (if w.extractLsb' 0 7 = 0#7 ∧ w.extractLsb' 8 5 = 0#5 then .ok (.pkdrain (w.extractLsb' 18 5) (w.extractLsb' 13 5)) else .error .nonzeroField)
  | _ => .error .unassignedFunction

/-- Major 0x3E, XT: the function value selects the row, and every other fixed bit is checked (R33, R36). -/
def decXt (w : Insn) : Except DecodeError Instr :=
  match (w.extractLsb' 23 3).toNat with
  | 0 => if w.extractLsb' 0 23 = 0#23 then .ok (.xbegin) else .error .nonzeroField
  | 1 => if w.extractLsb' 0 13 = 0#13 then .ok (.xst (w.extractLsb' 18 5) (w.extractLsb' 13 5)) else .error .nonzeroField
  | 2 => if w.extractLsb' 0 18 = 0#18 then .ok (.xcommit (w.extractLsb' 18 5)) else .error .nonzeroField
  | 3 => if w.extractLsb' 0 23 = 0#23 then .ok (.xabort) else .error .nonzeroField
  | _ => .error .unassignedFunction

/-- The instruction whose fixed bits the word has, before the code limits of its fields are checked (R36). -/
def decodeFields (w : Insn) : Except DecodeError Instr :=
  match (w.extractLsb' 26 6).toNat with
  | 0x01 => decSalu w
  | 0x02 => .ok (.addi (w.extractLsb' 21 5) (w.extractLsb' 16 5) (w.extractLsb' 0 16))
  | 0x03 => .ok (.andi (w.extractLsb' 21 5) (w.extractLsb' 16 5) (w.extractLsb' 0 16))
  | 0x04 => .ok (.ori (w.extractLsb' 21 5) (w.extractLsb' 16 5) (w.extractLsb' 0 16))
  | 0x05 => .ok (.xori (w.extractLsb' 21 5) (w.extractLsb' 16 5) (w.extractLsb' 0 16))
  | 0x06 => .ok (.slti (w.extractLsb' 21 5) (w.extractLsb' 16 5) (w.extractLsb' 0 16))
  | 0x07 => .ok (.sltni (w.extractLsb' 21 5) (w.extractLsb' 16 5) (w.extractLsb' 0 16))
  | 0x08 => decShifti w
  | 0x09 => if w.extractLsb' 16 5 = 0#5 then .ok (.lih (w.extractLsb' 21 5) (w.extractLsb' 0 16)) else .error .nonzeroField
  | 0x0A => .ok (.lix (w.extractLsb' 21 5) (w.extractLsb' 16 5) (w.extractLsb' 0 16))
  | 0x0B => if w.extractLsb' 16 5 = 0#5 then .ok (.addpc (w.extractLsb' 21 5) (w.extractLsb' 0 16)) else .error .nonzeroField
  | 0x0C => decSld w
  | 0x0D => decSst w
  | 0x0E => decSamo w
  | 0x10 => .ok (.beq (w.extractLsb' 21 5) (w.extractLsb' 16 5) (w.extractLsb' 0 16))
  | 0x11 => .ok (.bne (w.extractLsb' 21 5) (w.extractLsb' 16 5) (w.extractLsb' 0 16))
  | 0x12 => .ok (.blt (w.extractLsb' 21 5) (w.extractLsb' 16 5) (w.extractLsb' 0 16))
  | 0x13 => .ok (.bge (w.extractLsb' 21 5) (w.extractLsb' 16 5) (w.extractLsb' 0 16))
  | 0x14 => .ok (.bltn (w.extractLsb' 21 5) (w.extractLsb' 16 5) (w.extractLsb' 0 16))
  | 0x15 => .ok (.bgen (w.extractLsb' 21 5) (w.extractLsb' 16 5) (w.extractLsb' 0 16))
  | 0x16 => .ok (.j (w.extractLsb' 0 26))
  | 0x17 => .ok (.call (w.extractLsb' 0 26))
  | 0x18 => decCtlr w
  | 0x1C => decSys w
  | 0x1D => decSync w
  | 0x20 => decVconf w
  | 0x21 => decVarith w
  | 0x22 => decVarithi w
  | 0x23 => decVcmp w
  | 0x24 => decVperm w
  | 0x25 => decVwide w
  | 0x26 => decVmovx w
  | 0x28 => decVfx w
  | 0x29 => decVfma w
  | 0x2A => decVred w
  | 0x30 => decVld w
  | 0x31 => decVst w
  | 0x32 => decVamo w
  | 0x33 => decVlt w
  | 0x38 => decVpb w
  | 0x3A => decCur w
  | 0x3B => decMat w
  | 0x3C => if w.extractLsb' 0 6 = 0#6 then .ok (.cwalk (w.extractLsb' 21 5) (w.extractLsb' 16 5) (w.extractLsb' 11 5) (w.extractLsb' 6 5)) else .error .nonzeroField
  | 0x3D => decPike w
  | 0x3E => decXt w
  | _ => .error .unassignedMajor

/-- The whole decoder: fixed bits, then the limits that WellFormed states (R37 steps 1, 3 and 4). -/
def decode (w : Insn) : Except DecodeError Instr :=
  match decodeFields w with
  | .error e => .error e
  | .ok i => if i.wellFormed then .ok i else .error .illegalCode

/-- The word that four bytes spell, the byte at the lowest address first (R31). -/
def wordOfBytes (b0 b1 b2 b3 : Byte) : Insn := b3 ++ b2 ++ b1 ++ b0

/-- The bytes of a word as memory holds them, lowest address first (R31). -/
def bytesOfWord (w : Insn) : List Byte :=
  [w.extractLsb' 0 8, w.extractLsb' 8 8, w.extractLsb' 16 8, w.extractLsb' 24 8]

/-- Decoding of a byte stream: the first instruction and the bytes after it. -/
def decodeBytes : List Byte → Except DecodeError (Instr × List Byte)
  | b0 :: b1 :: b2 :: b3 :: rest =>
    match decode (wordOfBytes b0 b1 b2 b3) with
    | .ok i => .ok (i, rest)
    | .error e => .error e
  | _ => .error .truncated

/-- The word of an instruction, from the formats of R32 and the function maps; events have none. -/
def encode (i : Instr) : Option Insn :=
  match i with
  | .add d a b => some (1#6 ++ d ++ a ++ b ++ 0#11)
  | .sub d a b => some (1#6 ++ d ++ a ++ b ++ 1#11)
  | .and d a b => some (1#6 ++ d ++ a ++ b ++ 2#11)
  | .or d a b => some (1#6 ++ d ++ a ++ b ++ 3#11)
  | .xor d a b => some (1#6 ++ d ++ a ++ b ++ 4#11)
  | .sll d a b => some (1#6 ++ d ++ a ++ b ++ 5#11)
  | .srl d a b => some (1#6 ++ d ++ a ++ b ++ 6#11)
  | .sra d a b => some (1#6 ++ d ++ a ++ b ++ 7#11)
  | .ror d a b => some (1#6 ++ d ++ a ++ b ++ 8#11)
  | .slt d a b => some (1#6 ++ d ++ a ++ b ++ 9#11)
  | .sltn d a b => some (1#6 ++ d ++ a ++ b ++ 10#11)
  | .mul d a b => some (1#6 ++ d ++ a ++ b ++ 11#11)
  | .mulh d a b => some (1#6 ++ d ++ a ++ b ++ 12#11)
  | .mulhn d a b => some (1#6 ++ d ++ a ++ b ++ 13#11)
  | .div d a b => some (1#6 ++ d ++ a ++ b ++ 14#11)
  | .divn d a b => some (1#6 ++ d ++ a ++ b ++ 15#11)
  | .rem d a b => some (1#6 ++ d ++ a ++ b ++ 16#11)
  | .remn d a b => some (1#6 ++ d ++ a ++ b ++ 17#11)
  | .min d a b => some (1#6 ++ d ++ a ++ b ++ 18#11)
  | .max d a b => some (1#6 ++ d ++ a ++ b ++ 19#11)
  | .minn d a b => some (1#6 ++ d ++ a ++ b ++ 20#11)
  | .maxn d a b => some (1#6 ++ d ++ a ++ b ++ 21#11)
  | .clz d a => some (1#6 ++ d ++ a ++ 22#16)
  | .ctz d a => some (1#6 ++ d ++ a ++ 23#16)
  | .spopc d a => some (1#6 ++ d ++ a ++ 24#16)
  | .sextb d a => some (1#6 ++ d ++ a ++ 25#16)
  | .sexth d a => some (1#6 ++ d ++ a ++ 26#16)
  | .sextw d a => some (1#6 ++ d ++ a ++ 27#16)
  | .addi d a i => some (2#6 ++ d ++ a ++ i)
  | .andi d a i => some (3#6 ++ d ++ a ++ i)
  | .ori d a i => some (4#6 ++ d ++ a ++ i)
  | .xori d a i => some (5#6 ++ d ++ a ++ i)
  | .slti d a i => some (6#6 ++ d ++ a ++ i)
  | .sltni d a i => some (7#6 ++ d ++ a ++ i)
  | .slli d a n => some (8#6 ++ d ++ a ++ 0#10 ++ n)
  | .srli d a n => some (8#6 ++ d ++ a ++ 1#10 ++ n)
  | .srai d a n => some (8#6 ++ d ++ a ++ 2#10 ++ n)
  | .rori d a n => some (8#6 ++ d ++ a ++ 3#10 ++ n)
  | .lih d i => some (9#6 ++ d ++ 0#5 ++ i)
  | .lix d a i => some (10#6 ++ d ++ a ++ i)
  | .addpc d i => some (11#6 ++ d ++ 0#5 ++ i)
  | .ldb d a o => some (12#6 ++ d ++ a ++ 0#4 ++ o)
  | .ldh d a o => some (12#6 ++ d ++ a ++ 1#4 ++ o)
  | .ldw d a o => some (12#6 ++ d ++ a ++ 2#4 ++ o)
  | .ldd d a o => some (12#6 ++ d ++ a ++ 3#4 ++ o)
  | .ldbn d a o => some (12#6 ++ d ++ a ++ 4#4 ++ o)
  | .ldhn d a o => some (12#6 ++ d ++ a ++ 5#4 ++ o)
  | .ldwn d a o => some (12#6 ++ d ++ a ++ 6#4 ++ o)
  | .stb d a o => some (13#6 ++ d ++ a ++ 0#4 ++ o)
  | .sth d a o => some (13#6 ++ d ++ a ++ 1#4 ++ o)
  | .stw d a o => some (13#6 ++ d ++ a ++ 2#4 ++ o)
  | .std d a o => some (13#6 ++ d ++ a ++ 3#4 ++ o)
  | .amoadd d a b s o w => some (14#6 ++ d ++ a ++ b ++ 0#4 ++ s ++ o ++ w)
  | .amoand d a b s o w => some (14#6 ++ d ++ a ++ b ++ 1#4 ++ s ++ o ++ w)
  | .amoor d a b s o w => some (14#6 ++ d ++ a ++ b ++ 2#4 ++ s ++ o ++ w)
  | .amoxor d a b s o w => some (14#6 ++ d ++ a ++ b ++ 3#4 ++ s ++ o ++ w)
  | .amomin d a b s o w => some (14#6 ++ d ++ a ++ b ++ 4#4 ++ s ++ o ++ w)
  | .amomax d a b s o w => some (14#6 ++ d ++ a ++ b ++ 5#4 ++ s ++ o ++ w)
  | .amominn d a b s o w => some (14#6 ++ d ++ a ++ b ++ 6#4 ++ s ++ o ++ w)
  | .amomaxn d a b s o w => some (14#6 ++ d ++ a ++ b ++ 7#4 ++ s ++ o ++ w)
  | .amoswap d a b s o w => some (14#6 ++ d ++ a ++ b ++ 8#4 ++ s ++ o ++ w)
  | .amocas d a b s o w => some (14#6 ++ d ++ a ++ b ++ 9#4 ++ s ++ o ++ w)
  | .beq a b o => some (16#6 ++ a ++ b ++ o)
  | .bne a b o => some (17#6 ++ a ++ b ++ o)
  | .blt a b o => some (18#6 ++ a ++ b ++ o)
  | .bge a b o => some (19#6 ++ a ++ b ++ o)
  | .bltn a b o => some (20#6 ++ a ++ b ++ o)
  | .bgen a b o => some (21#6 ++ a ++ b ++ o)
  | .j o => some (22#6 ++ o)
  | .call o => some (23#6 ++ o)
  | .jr a => some (24#6 ++ 0#5 ++ a ++ 0#16)
  | .callr a => some (24#6 ++ 0#5 ++ a ++ 1#16)
  | .ret => some (24#6 ++ 2#26)
  | .trap n => some (28#6 ++ 0#19 ++ n)
  | .eret => some (28#6 ++ 128#26)
  | .rdcfg d c => some (28#6 ++ d ++ 2#14 ++ c)
  | .wrcfg a c => some (28#6 ++ 0#5 ++ a ++ 3#9 ++ c)
  | .fence p q r t s => some (28#6 ++ 4#19 ++ BitVec.ofBool p ++ BitVec.ofBool q ++ BitVec.ofBool r ++ BitVec.ofBool t ++ s)
  | .brk n => some (28#6 ++ 5#19 ++ n)
  | .exit => some (28#6 ++ 768#26)
  | .yield => some (28#6 ++ 896#26)
  | .splice n => some (28#6 ++ n ++ 1024#18)
  | .launch a => some (28#6 ++ 0#5 ++ a ++ 1152#16)
  | .wsave a => some (28#6 ++ 0#5 ++ a ++ 1280#16)
  | .wload a => some (28#6 ++ 0#5 ++ a ++ 1408#16)
  | .snapr d a b => some (28#6 ++ d ++ a ++ b ++ 1536#11)
  | .snaprX d a b => some (28#6 ++ d ++ a ++ b ++ 1537#11)
  | .tlbinv a b => some (28#6 ++ 0#5 ++ a ++ b ++ 1664#11)
  | .pgpool d a b => some (28#6 ++ d ++ a ++ b ++ 1792#11)
  | .bar d n => some (29#6 ++ d ++ 0#17 ++ n)
  | .bara d n => some (29#6 ++ d ++ 8#17 ++ n)
  | .barw d a n => some (29#6 ++ d ++ a ++ 16#12 ++ n)
  | .barexp a n => some (29#6 ++ 0#5 ++ a ++ 24#12 ++ n)
  | .take d p => some (29#6 ++ d ++ 64#18 ++ p)
  | .lrel p => some (29#6 ++ 80#23 ++ p)
  | .waitc d a b => some (29#6 ++ d ++ a ++ b ++ 768#11)
  | .cadd d a b => some (29#6 ++ d ++ a ++ b ++ 896#11)
  | .setvl d a w q => some (32#6 ++ d ++ a ++ 0#9 ++ w ++ q ++ 0#3)
  | .setvli d n w q => some (32#6 ++ d ++ n ++ 1#4 ++ w ++ q ++ 0#3)
  | .setfib d a b w k => some (32#6 ++ d ++ a ++ b ++ 2#4 ++ w ++ k ++ 0#1)
  | .vtag d t => some (32#6 ++ d ++ 24#17 ++ t)
  | .vadd d a b m x => some (33#6 ++ d ++ a ++ b ++ m ++ BitVec.ofBool x ++ 0#6)
  | .vsub d a b m x => some (33#6 ++ d ++ a ++ b ++ m ++ BitVec.ofBool x ++ 1#6)
  | .vrsub d a b m x => some (33#6 ++ d ++ a ++ b ++ m ++ BitVec.ofBool x ++ 2#6)
  | .vaddw d a b m x => some (33#6 ++ d ++ a ++ b ++ m ++ BitVec.ofBool x ++ 3#6)
  | .vsubw d a b m x => some (33#6 ++ d ++ a ++ b ++ m ++ BitVec.ofBool x ++ 4#6)
  | .vmul d a b m x => some (33#6 ++ d ++ a ++ b ++ m ++ BitVec.ofBool x ++ 5#6)
  | .vmulh d a b m x => some (33#6 ++ d ++ a ++ b ++ m ++ BitVec.ofBool x ++ 6#6)
  | .vdiv d a b m x => some (33#6 ++ d ++ a ++ b ++ m ++ BitVec.ofBool x ++ 7#6)
  | .vrem d a b m x => some (33#6 ++ d ++ a ++ b ++ m ++ BitVec.ofBool x ++ 8#6)
  | .vmin d a b m x => some (33#6 ++ d ++ a ++ b ++ m ++ BitVec.ofBool x ++ 9#6)
  | .vmax d a b m x => some (33#6 ++ d ++ a ++ b ++ m ++ BitVec.ofBool x ++ 10#6)
  | .vabs d a m => some (33#6 ++ d ++ a ++ 0#5 ++ m ++ 11#7)
  | .vneg d a m => some (33#6 ++ d ++ a ++ 0#5 ++ m ++ 12#7)
  | .vand d a b m x => some (33#6 ++ d ++ a ++ b ++ m ++ BitVec.ofBool x ++ 13#6)
  | .vor d a b m x => some (33#6 ++ d ++ a ++ b ++ m ++ BitVec.ofBool x ++ 14#6)
  | .vxor d a b m x => some (33#6 ++ d ++ a ++ b ++ m ++ BitVec.ofBool x ++ 15#6)
  | .vsll d a b m x => some (33#6 ++ d ++ a ++ b ++ m ++ BitVec.ofBool x ++ 16#6)
  | .vsrl d a b m x => some (33#6 ++ d ++ a ++ b ++ m ++ BitVec.ofBool x ++ 17#6)
  | .vsra d a b m x => some (33#6 ++ d ++ a ++ b ++ m ++ BitVec.ofBool x ++ 18#6)
  | .vcvt d a m => some (33#6 ++ d ++ a ++ 0#5 ++ m ++ 19#7)
  | .vaddi d a i m => some (34#6 ++ d ++ a ++ i ++ m ++ 0#7)
  | .vsubi d a i m => some (34#6 ++ d ++ a ++ i ++ m ++ 1#7)
  | .vrsubi d a i m => some (34#6 ++ d ++ a ++ i ++ m ++ 2#7)
  | .vaddwi d a i m => some (34#6 ++ d ++ a ++ i ++ m ++ 3#7)
  | .vsubwi d a i m => some (34#6 ++ d ++ a ++ i ++ m ++ 4#7)
  | .vmuli d a i m => some (34#6 ++ d ++ a ++ i ++ m ++ 5#7)
  | .vmini d a i m => some (34#6 ++ d ++ a ++ i ++ m ++ 9#7)
  | .vmaxi d a i m => some (34#6 ++ d ++ a ++ i ++ m ++ 10#7)
  | .vandi d a i m => some (34#6 ++ d ++ a ++ i ++ m ++ 13#7)
  | .vori d a i m => some (34#6 ++ d ++ a ++ i ++ m ++ 14#7)
  | .vxori d a i m => some (34#6 ++ d ++ a ++ i ++ m ++ 15#7)
  | .vslli d a i m => some (34#6 ++ d ++ a ++ i ++ m ++ 16#7)
  | .vsrli d a i m => some (34#6 ++ d ++ a ++ i ++ m ++ 17#7)
  | .vsrai d a i m => some (34#6 ++ d ++ a ++ i ++ m ++ 18#7)
  | .vcmpeq d a b m x => some (35#6 ++ d ++ a ++ b ++ m ++ BitVec.ofBool x ++ 0#6)
  | .vcmpne d a b m x => some (35#6 ++ d ++ a ++ b ++ m ++ BitVec.ofBool x ++ 1#6)
  | .vcmplt d a b m x => some (35#6 ++ d ++ a ++ b ++ m ++ BitVec.ofBool x ++ 2#6)
  | .vcmple d a b m x => some (35#6 ++ d ++ a ++ b ++ m ++ BitVec.ofBool x ++ 3#6)
  | .vcmpgt d a b m x => some (35#6 ++ d ++ a ++ b ++ m ++ BitVec.ofBool x ++ 4#6)
  | .vcmpge d a b m x => some (35#6 ++ d ++ a ++ b ++ m ++ BitVec.ofBool x ++ 5#6)
  | .vcmpun d a b m x => some (35#6 ++ d ++ a ++ b ++ m ++ BitVec.ofBool x ++ 6#6)
  | .mand d a b m => some (35#6 ++ d ++ a ++ b ++ m ++ 8#7)
  | .mor d a b m => some (35#6 ++ d ++ a ++ b ++ m ++ 9#7)
  | .mxor d a b m => some (35#6 ++ d ++ a ++ b ++ m ++ 10#7)
  | .mandn d a b m => some (35#6 ++ d ++ a ++ b ++ m ++ 11#7)
  | .mnot d a m => some (35#6 ++ d ++ a ++ 0#5 ++ m ++ 12#7)
  | .msbf d a m => some (35#6 ++ d ++ a ++ 0#5 ++ m ++ 13#7)
  | .msif d a m => some (35#6 ++ d ++ a ++ 0#5 ++ m ++ 14#7)
  | .msof d a m => some (35#6 ++ d ++ a ++ 0#5 ++ m ++ 15#7)
  | .viota d a m => some (35#6 ++ d ++ a ++ 0#5 ++ m ++ 16#7)
  | .vid d m => some (35#6 ++ d ++ 0#10 ++ m ++ 17#7)
  | .vrgather d a b m => some (36#6 ++ d ++ a ++ b ++ m ++ 0#7)
  | .vrgather2 d a b m => some (36#6 ++ d ++ a ++ b ++ m ++ 1#7)
  | .vslideup d a b m => some (36#6 ++ d ++ a ++ b ++ m ++ 66#7)
  | .vslidedown d a b m => some (36#6 ++ d ++ a ++ b ++ m ++ 67#7)
  | .vslide1up d a b m => some (36#6 ++ d ++ a ++ b ++ m ++ 68#7)
  | .vslide1down d a b m => some (36#6 ++ d ++ a ++ b ++ m ++ 69#7)
  | .vcompress d a b => some (36#6 ++ d ++ a ++ b ++ 6#11)
  | .vpush d a b m => some (36#6 ++ d ++ a ++ b ++ m ++ 7#7)
  | .vwmul d a b m x => some (37#6 ++ d ++ a ++ b ++ m ++ BitVec.ofBool x ++ 0#6)
  | .vwmacc d a b m x => some (37#6 ++ d ++ a ++ b ++ m ++ BitVec.ofBool x ++ 1#6)
  | .vwadd d a b m x => some (37#6 ++ d ++ a ++ b ++ m ++ BitVec.ofBool x ++ 2#6)
  | .vncvt d a m => some (37#6 ++ d ++ a ++ 0#5 ++ m ++ 3#7)
  | .vnshr d a b m x => some (37#6 ++ d ++ a ++ b ++ m ++ BitVec.ofBool x ++ 4#6)
  | .vsplat d b m => some (38#6 ++ d ++ 0#5 ++ b ++ m ++ 64#7)
  | .vext d a b m => some (38#6 ++ d ++ a ++ b ++ m ++ 65#7)
  | .vmvs d a b => some (38#6 ++ d ++ a ++ b ++ 66#11)
  | .mffs d a => some (38#6 ++ d ++ a ++ 3#16)
  | .mpopc d a => some (38#6 ++ d ++ a ++ 4#16)
  | .vfsqrt d a m => some (40#6 ++ d ++ a ++ 0#5 ++ m ++ 0#7)
  | .vfrec d a m => some (40#6 ++ d ++ a ++ 0#5 ++ m ++ 1#7)
  | .vfrsqrt d a m => some (40#6 ++ d ++ a ++ 0#5 ++ m ++ 2#7)
  | .vfclass d a m => some (40#6 ++ d ++ a ++ 0#5 ++ m ++ 3#7)
  | .vfsgnj d a b m x => some (40#6 ++ d ++ a ++ b ++ m ++ BitVec.ofBool x ++ 4#6)
  | .vfsgnjn d a b m x => some (40#6 ++ d ++ a ++ b ++ m ++ BitVec.ofBool x ++ 5#6)
  | .vfsgnjx d a b m x => some (40#6 ++ d ++ a ++ b ++ m ++ BitVec.ofBool x ++ 6#6)
  | .vfmadd d a b m x r => some (41#6 ++ d ++ a ++ b ++ m ++ BitVec.ofBool x ++ r ++ 0#3)
  | .vfmsub d a b m x r => some (41#6 ++ d ++ a ++ b ++ m ++ BitVec.ofBool x ++ r ++ 1#3)
  | .vfrmsub d a b m x r => some (41#6 ++ d ++ a ++ b ++ m ++ BitVec.ofBool x ++ r ++ 2#3)
  | .vfnmadd d a b m x r => some (41#6 ++ d ++ a ++ b ++ m ++ BitVec.ofBool x ++ r ++ 3#3)
  | .vredsumo d a b m x => some (42#6 ++ d ++ a ++ b ++ m ++ BitVec.ofBool x ++ 0#6)
  | .vredsumt d a b m x => some (42#6 ++ d ++ a ++ b ++ m ++ BitVec.ofBool x ++ 1#6)
  | .vredmin d a b m x => some (42#6 ++ d ++ a ++ b ++ m ++ BitVec.ofBool x ++ 2#6)
  | .vredmax d a b m x => some (42#6 ++ d ++ a ++ b ++ m ++ BitVec.ofBool x ++ 3#6)
  | .vredand d a b m x => some (42#6 ++ d ++ a ++ b ++ m ++ BitVec.ofBool x ++ 4#6)
  | .vredor d a b m x => some (42#6 ++ d ++ a ++ b ++ m ++ BitVec.ofBool x ++ 5#6)
  | .vredxor d a b m x => some (42#6 ++ d ++ a ++ b ++ m ++ BitVec.ofBool x ++ 6#6)
  | .vscansum d a m => some (42#6 ++ d ++ a ++ 0#5 ++ m ++ 8#7)
  | .vscanmin d a m => some (42#6 ++ d ++ a ++ 0#5 ++ m ++ 9#7)
  | .vscanmax d a m => some (42#6 ++ d ++ a ++ 0#5 ++ m ++ 10#7)
  | .vld d a m o v f => some (48#6 ++ d ++ a ++ 0#5 ++ m ++ BitVec.ofBool o ++ BitVec.ofBool v ++ 0#2 ++ f)
  | .vldStrided d a b m o v f => some (48#6 ++ d ++ a ++ b ++ m ++ BitVec.ofBool o ++ BitVec.ofBool v ++ 1#2 ++ f)
  | .vldIndexed d a b m o v s w => some (48#6 ++ d ++ a ++ b ++ m ++ BitVec.ofBool o ++ BitVec.ofBool v ++ 2#2 ++ s ++ BitVec.ofBool w)
  | .vldFf d a m o v f => some (48#6 ++ d ++ a ++ 0#5 ++ m ++ BitVec.ofBool o ++ BitVec.ofBool v ++ 3#2 ++ f)
  | .vst d a m o v f => some (49#6 ++ d ++ a ++ 0#5 ++ m ++ BitVec.ofBool o ++ BitVec.ofBool v ++ 0#2 ++ f)
  | .vstStrided d a b m o v f => some (49#6 ++ d ++ a ++ b ++ m ++ BitVec.ofBool o ++ BitVec.ofBool v ++ 1#2 ++ f)
  | .vstIndexed d a b m o v s w => some (49#6 ++ d ++ a ++ b ++ m ++ BitVec.ofBool o ++ BitVec.ofBool v ++ 2#2 ++ s ++ BitVec.ofBool w)
  | .vamoadd d a b m s w => some (50#6 ++ d ++ a ++ b ++ m ++ 0#4 ++ s ++ BitVec.ofBool w)
  | .vamoand d a b m s w => some (50#6 ++ d ++ a ++ b ++ m ++ 1#4 ++ s ++ BitVec.ofBool w)
  | .vamoor d a b m s w => some (50#6 ++ d ++ a ++ b ++ m ++ 2#4 ++ s ++ BitVec.ofBool w)
  | .vamoxor d a b m s w => some (50#6 ++ d ++ a ++ b ++ m ++ 3#4 ++ s ++ BitVec.ofBool w)
  | .vamomin d a b m s w => some (50#6 ++ d ++ a ++ b ++ m ++ 4#4 ++ s ++ BitVec.ofBool w)
  | .vamomax d a b m s w => some (50#6 ++ d ++ a ++ b ++ m ++ 5#4 ++ s ++ BitVec.ofBool w)
  | .vamominn d a b m s w => some (50#6 ++ d ++ a ++ b ++ m ++ 6#4 ++ s ++ BitVec.ofBool w)
  | .vamomaxn d a b m s w => some (50#6 ++ d ++ a ++ b ++ m ++ 7#4 ++ s ++ BitVec.ofBool w)
  | .vamoswap d a b m s w => some (50#6 ++ d ++ a ++ b ++ m ++ 8#4 ++ s ++ BitVec.ofBool w)
  | .vamocas d a b m s w => some (50#6 ++ d ++ a ++ b ++ m ++ 9#4 ++ s ++ BitVec.ofBool w)
  | .vltl d a b m => some (51#6 ++ d ++ a ++ b ++ m ++ 0#7)
  | .vlts d a b m => some (51#6 ++ d ++ a ++ b ++ m ++ 8#7)
  | .tblb d a b => some (51#6 ++ d ++ a ++ b ++ 16#11)
  | .vpf k o => some (56#6 ++ 0#2 ++ k ++ o)
  | .vpbr k o => some (56#6 ++ 1#2 ++ k ++ o)
  | .vpj o => some (56#6 ++ 32#6 ++ o)
  | .vpstop => some (56#6 ++ 50331648#26)
  | .cpy g s h c n i => some (58#6 ++ g ++ s ++ h ++ 0#3 ++ BitVec.ofBool c ++ n ++ i)
  | .cpyg g s v c n i => some (58#6 ++ g ++ s ++ v ++ 1#3 ++ BitVec.ofBool c ++ n ++ i)
  | .cpys g s v c n i => some (58#6 ++ g ++ s ++ v ++ 2#3 ++ BitVec.ofBool c ++ n ++ i)
  | .cpymg g s h c n i => some (58#6 ++ g ++ s ++ h ++ 3#3 ++ BitVec.ofBool c ++ n ++ i)
  | .cwtld g s c n i => some (58#6 ++ g ++ s ++ 4#8 ++ BitVec.ofBool c ++ n ++ i)
  | .csbar g => some (58#6 ++ g ++ 2560#21)
  | .cresume s => some (58#6 ++ 0#5 ++ s ++ 3072#17)
  | .mcfg m n k a b => some (59#6 ++ 0#3 ++ m ++ n ++ k ++ a ++ b ++ 0#2)
  | .mzero c => some (59#6 ++ 1#3 ++ c ++ 0#21)
  | .mma c x y => some (59#6 ++ 2#3 ++ c ++ x ++ y ++ 0#11)
  | .mmav g h s => some (59#6 ++ 12#5 ++ g ++ h ++ s ++ 0#7)
  | .mrd c d q m => some (59#6 ++ 4#3 ++ c ++ d ++ q ++ m ++ 0#7)
  | .mst c x f => some (59#6 ++ 5#3 ++ c ++ x ++ f ++ 0#13)
  | .cwalk d c e p => some (60#6 ++ d ++ c ++ e ++ p ++ 0#6)
  | .pkcfg a => some (61#6 ++ 0#8 ++ a ++ 0#13)
  | .pkload a n => some (61#6 ++ 32#8 ++ a ++ 0#9 ++ n)
  | .pkswap m => some (61#6 ++ 4096#14 ++ m)
  | .pkfeed a b => some (61#6 ++ 96#8 ++ a ++ b ++ 0#8)
  | .pkmiss d n => some (61#6 ++ 4#3 ++ d ++ 0#11 ++ n)
  | .pkdrain d a => some (61#6 ++ 5#3 ++ d ++ a ++ 0#13)
  | .pkdrainClr d a => some (61#6 ++ 5#3 ++ d ++ a ++ 128#13)
  | .xbegin => some (62#6 ++ 0#26)
  | .xst d a => some (62#6 ++ 1#3 ++ d ++ a ++ 0#13)
  | .xcommit d => some (62#6 ++ 2#3 ++ d ++ 0#18)
  | .xabort => some (62#6 ++ 25165824#26)
  | .elementFire _ _ _ => none
  | .carryCopy _ _ => none
  | .retire _ => none
  | .registerFree _ _ _ => none
  | .branchResolve _ => none
  | .elementAccess _ _ _ => none
  | .dataLanding _ _ _ => none
  | .cowCopyDone _ => none
  | .baseDieAtomic _ _ _ _ _ => none
  | .lineWriteback _ => none
  | .lineDiscard _ => none
  | .linePrefetch _ => none
  | .dirtyLineTimeout _ => none
  | .cleanLineTimeout _ => none
  | .trapEntry _ => none
  | .vpCohortIssue _ => none
  | .grantWaitEnd _ => none
  | .quarterMoveDone => none
  | .engineFaultDelivery _ => none
  | .courierBeginPerforming _ => none
  | .courierElementTransfer _ _ => none
  | .commandComplete _ => none
  | .matrixQueueServe => none
  | .barrierWaitEnd _ => none
  | .waitcCounterRead _ => none
  | .turnpikeEntry => none
  | .turnpikePassEnd => none
  | .pkloadPerform => none
  | .pkcfgPerform => none
  | .postAreaTake _ => none
  | .launchListTake => none
  | .watchCounterRead _ => none
  | .partyPlace => none
  | .preemption _ => none
  | .partySaveDone _ => none
  | .partyEnd _ => none
  | .priorityAging _ => none
  | .purseInterval => none
  | .energyDebit _ _ => none
  | .droopDetect => none
  | .droopEnd => none
  | .clockStep => none
  | .coreGate => none
  | .wakeRequest => none
  | .wakeRampDone => none
  | .correctableError _ _ _ => none
  | .coreRetire => none
  | .linkShed _ => none
  | .linkWiden _ => none
  | .linkWidthChangeDone _ => none
  | .linkFault _ => none
  | .routeTimeout _ => none
  | .peerRequest _ _ _ => none
  | .peerReply _ _ => none
  | .xtTargetReply _ _ => none
  | .hostBarAccess _ _ _ _ => none
  | .hostAtomicop _ _ _ _ _ _ _ => none
  | .registerWrite _ _ _ => none
  | .reset => none
  | .info _ => none
  | .ctxnew _ => none
  | .ctxend _ => none
  | .ctxreport _ => none
  | .postreg _ => none
  | .postunreg _ => none
  | .prepol _ => none
  | .bkset _ => none
  | .fwinset _ => none
  | .linktest _ => none
  | .mlimset _ => none
  | .vecbind _ => none
  | .attest _ => none
  | .idkey _ => none
  | .speedtbl _ => none
  | .straggle _ => none
  | .vfmem _ => none
  | .chconfirm _ => none
  | .taskabort _ => none
  | .serviceWorkDone => none
  | .firstPartyBlocksPlacement _ => none
  | .linkGainsTraining _ => none
  | .pcieCompletion _ _ => none

/-- The instruction the decoder reads from a table row's bits: nbits bits of w, bits above them zero. -/
def decodeTableWord (nbits w : Nat) : Option Instr :=
  match decodeBytes (bytesOfWord (BitVec.ofNat 32 (w % 2 ^ nbits))) with
  | .ok (i, _) => some i
  | .error _ => none

end Sys2Proof
end

