-- ==== Sys2Proof/Config.lean ====
section
/-! DEFINITION. What an implementation fixes and what the spec leaves open: constants without a body. -/

namespace Sys2Proof.Config

/-- The n-th value the spec leaves open (assumption 10): nothing constrains it. The counter it is applied to
stands in the state. -/
opaque freeValue : Nat → BitVec 64

/-- The n-th choice the spec leaves open, for example whether a stale TLB entry is used (R366, assumption 11). -/
opaque freeChoice : Nat → Bool

/-- The bytes of the firmware image in each of the two slots that boot verification reads (R415, assumption 9). -/
opaque fwImage : Fin 2 → List Byte

/-- The fused minimum firmware version and the fused hash of the public key (R415, assumption 9). -/
opaque fusedVersion : BitVec 32
opaque fusedKeyHash : BitVec 256

/-- ML-DSA-44 verification of a signature over a digest under a public key, with an empty context string
(R415, assumption 9). -/
opaque mldsaVerify : List Byte → BitVec 256 → List Byte → Bool

/-- ML-DSA-44 signing under the module's identity key, and that key's public half (R415, R424, assumption 9). -/
opaque identitySign : BitVec 256 → List Byte
opaque identityKey : List Byte

/-- SHA3-256 (R415, R424, assumption 9), and the decode table that a verified firmware image holds (R52). -/
opaque sha3 : List Byte → BitVec 256
opaque decodeTable : List Byte → List Byte

/-- The firmware entry address of a context, which the firmware sets as it creates the context (R197, assumption 82). -/
opaque firmwareEntry : BitVec 12 → BitVec 64

/-- What a byte of a peer's memory or of the host holds where the model reads it without a request of its own, at a time that the first argument
tells apart (assumption 95). -/
opaque farByte : Nat → Nat → BitVec 8

/-- TESTMAX as fused in the module's other cores, by core number 50 × die + CIDX (R405, assumption 18). -/
opaque fusedTestmax : Nat → BitVec 6

/-- The links that the module's route tables take from this core to another module, for the route in use after so many faults of its links (R396,
assumption 16). -/
opaque routeUses : Nat → Nat → Fin 18 → Bool

/-- Offsets in BAR 0 of the MSI-X table and of the pending-bit array (R390, assumption 96). -/
opaque msixTable : Nat
opaque msixPending : Nat

end Sys2Proof.Config
end

