-- ==== Sys2Proof/Machine/State.lean ====
section
/-! DEFINITION. The state of one P3 core with its two thread slots, and of the parts of its die and module
that programs and the host meet, as plain data; the machine right after reset. -/

namespace Sys2Proof.Machine

/-! ## Registers and elements -/

/-- Privilege levels (R22, R197). -/
inductive Level where
  | user | supervisor | firmware
deriving DecidableEq, Repr

/-- Element-type tags (R17). -/
inductive Tag where
  | i8 | i16 | i32 | i64 | n8 | n16 | n32 | n64 | f16 | bf16 | f32 | f64 | e4m3 | e5m2
deriving DecidableEq, Repr

/-- The tag state and bits of one element (R19). -/
inductive Elem where
  | absent
  | present (bits : Word)
  | void
deriving DecidableEq, Repr

/-- The tag state and value of one predicate bit (R20). -/
inductive PBit where
  | absent
  | present (b : Bool)
  | void
deriving DecidableEq, Repr

/-- A physical vector register (R187): the log2 of its element width, and its elements by index. `cells` lists, in
ascending index, the elements that differ from `rest`; `lost` those whose data cannot be corrected (R225). -/
structure VReg where
  wlog  : Nat
  cells : List (Nat × Elem)
  rest  : Elem
  lost  : List Nat := []
deriving DecidableEq, Repr

/-- A physical predicate register (R20), held as VReg is. -/
structure PReg where
  cells : List (Nat × PBit)
  rest  : PBit
  lost  : List Nat := []
deriving DecidableEq, Repr

/-- A fault recorded against one element (R161). -/
structure ElemFault where
  elem  : Nat
  cause : BitVec 8
  addr  : Word
deriving DecidableEq, Repr

/-- Data that a read of an element has returned and that has not landed (R153); `lost` marks data that
cannot be corrected (R164). -/
structure Landing where
  elem : Nat
  bits : Word
  lost : Bool
deriving DecidableEq, Repr

/-- A rule as it stands in a thread's window (R178, R202): its instruction, what it captured at issue, the physical
registers it reads and writes, and how far it has come; `post` is the post number of a CWALK and `tiles` the scratchpad extents of its walk, each its
first offset and its length, which are fixed as it posts (R290, R294). -/
structure Rule where
  rid    : Nat
  instr  : Instr
  vl     : BitVec 16
  frm    : BitVec 3
  segsel : BitVec 4
  vle    : Nat
  msel   : BitVec 4
  opa    : Word
  opb    : Word
  td     : Tag
  ta     : Tag
  tb     : Tag
  d0     : Option (Fin 128)
  d1     : Option (Fin 128)
  a0     : Option (Fin 128)
  a1     : Option (Fin 128)
  b0     : Option (Fin 128)
  b1     : Option (Fin 128)
  x0     : Option (Fin 128)
  old0   : Option (Fin 128)
  old1   : Option (Fin 128)
  mp     : Option (Fin 48)
  sp     : Option (Fin 48)
  pd     : Option (Fin 48)
  pold   : Option (Fin 48)
  pa     : Option (Fin 48)
  pb     : Option (Fin 48)
  done   : BitVec 8192
  faults : List ElemFault
  flight : List Landing
  count  : Nat
  mark   : Bool
  post   : Nat := 0
  tiles  : List (Nat × Nat) := []
deriving DecidableEq, Repr

/-- The vector side of a thread (R14, R178, R187): name maps, tags, physical registers, free lists, window. -/
structure Vec where
  vmap   : Vector (Fin 128) 32
  vtag   : Vector Tag 32
  mmap   : Vector (Fin 48) 16
  vregs  : Vector VReg 128
  pregs  : Vector PReg 48
  vfree  : List (Fin 128)
  pfree  : List (Fin 48)
  window : List Rule
deriving DecidableEq, Repr

/-- The configuration registers of scope thread (R22, R24), but for VLMAX and STOREQ.MOVING, which are read
from the fields here and the core level. -/
structure Cfg where
  vl        : BitVec 16
  wlog      : BitVec 2
  lalive    : BitVec 8
  lmap      : BitVec 64
  vstat     : BitVec 3
  frm       : BitVec 3
  fflags    : BitVec 5
  segsel    : BitVec 4
  estart    : BitVec 16
  qcur      : BitVec 2
  qreq      : BitVec 2
  voidcnt   : BitVec 64
  ptidx     : BitVec 7
  pidx      : BitVec 32
  task      : BitVec 64
  trapcause : BitVec 8
  traprule  : BitVec 5
  trapelem  : BitVec 16
  trapaddr  : BitVec 56
  cestart   : BitVec 32
  cestream  : BitVec 4
  epc       : BitVec 56
  plev      : BitVec 2
  invp      : Bool
  preempt   : Bool
  engflt    : Bool
deriving DecidableEq, Repr

/-- One write-set value that a VP holds: a name and its last value (R227). -/
structure VpCell where
  isMask : Bool
  name   : Nat
  val    : Elem
deriving DecidableEq, Repr

/-- A block instruction that has issued for a VP and has not finished for it: the number of its block rule, the instruction, and whether it
has met a fault (R229, R247). -/
structure VpOp where
  gid    : Nat
  instr  : Instr
  failed : Bool := false
deriving DecidableEq, Repr

/-- One virtual processor (R222, R226): its element, PC, instruction count, written elements and issued instructions, oldest first. -/
structure Vp where
  idx   : Nat
  pc    : Word
  count : Nat
  cells : List VpCell
  ops   : List VpOp := []
deriving DecidableEq, Repr

/-- A VPF in progress (R226, R245): its rule, header, write-set, captured name map and running VPs. A VP is
waiting until its mask bit is present. -/
structure Vpf where
  rid    : Nat
  header : Word
  vset   : BitVec 32
  mset   : BitVec 16
  vmap   : Vector (Fin 128) 32
  vtag   : Vector Tag 32
  mmap   : Vector (Fin 48) 16
  vps    : List Vp
deriving DecidableEq, Repr

/-- A store staged by XST (R402): the virtual address, the physical address and the data. -/
structure Staged where
  pa   : Nat
  data : Word
deriving DecidableEq, Repr

/-- Where an open transaction stands (R401, R403). -/
inductive TxPhase where
  | staging
  | phase1
  | phase2
deriving DecidableEq, Repr

/-- An open cross-module transaction (R401 to R404): code 0 while it is live, else its abort code; the staged
stores in order; the targets whose reply is awaited; and the register of the XCOMMIT that has begun phase one. -/
structure Txn where
  code   : BitVec 8
  stores : List Staged
  phase  : TxPhase
  await  : List Nat
  dest   : BitVec 5 := 0
deriving DecidableEq, Repr

/-- What a thread above user level waits for when its instruction has taken a first step (R206, R418). -/
inductive Wait where
  /-- The firmware service function that a TRAP at supervisor level called. -/
  | service (n : Nat)
  /-- WSAVE has written its image and waits for the replies of the writes that went to a peer (R206). -/
  | saved
deriving DecidableEq, Repr

/-- The arrival of a BAR that has not returned (R253): the barrier, the phase, and the phase's report once it has completed. -/
structure Arrival where
  bar    : Fin 16
  phase  : BitVec 32
  report : Option Word
deriving DecidableEq, Repr

/-- What a trap records: its cause, window position (31 for none), element, address, the EPC, and whether a VP block raised it (R201). -/
structure TrapInfo where
  cause : BitVec 8
  rule  : BitVec 5
  elem  : BitVec 16
  addr  : Word
  epc   : Word
  inv   : Bool
deriving DecidableEq, Repr

/-- Where a byte lies: `tol` and `ptol` are bytes of a TOL page on a local frame and on a frame of a peer. -/
inductive Loc where
  | sp (off : Nat)
  | home (pa : Nat)
  | tol (frame off : Nat)
  | ptol (frame off : Nat)
  | view (pa : Nat)
  | peer (pa : Nat)
  | host (pa : Nat)
  | nowhere
deriving DecidableEq, Repr

/-- What an entry of the issue queue does when it performs (R346). A load and an atomic name the register that they write, and keep the data
that they found as they committed; a FENCE has its four sets and its scope. -/
inductive QOp where
  | store (bytes : List Byte)
  | load (d : BitVec 5) (sgn : Bool) (kept : List Byte)
  | amo (op : AmoOp) (wide inLine : Bool) (d : BitVec 5) (b cmp kept : Word)
  | fence (pr pw sr sw : Bool) (scope : Nat)
deriving DecidableEq, Repr

/-- A scalar access or FENCE that has committed and stands in the thread's issue queue (R346): its place in program order, its address, the places
of its bytes, whether the scalar cache holds its page and whether that is a DEV page, and what it does. -/
structure Queued where
  age    : Nat
  va     : Nat
  locs   : List Loc
  cached : Bool
  dev    : Bool
  op     : QOp
deriving DecidableEq, Repr

/-- What reads early: a scalar load, a VLD prepared with a destination register, or, once it has issued, the rule of that load (R179, R358). -/
inductive EarlyFor where
  | scalar
  | prep (p : Fin 128)
  | rule (rid : Nat)
deriving DecidableEq, Repr

/-- An aligned doubleword that the Porter has read early on an unconfirmed path, for a scalar load from the line store or for a vector load from the
home store (R179, R348, R358): its places and bytes, and the thread's count at the read. -/
structure Early where
  who   : EarlyFor
  locs  : List Loc
  bytes : List Byte
  born  : Nat
deriving DecidableEq, Repr

/-- Bits of a segment mask that a SETFIB carries and that its old register does not hold yet (R132): where it stands in program order, the new register
and the old one. -/
structure SegCarry where
  age  : Nat
  pd   : Fin 48
  pold : Fin 48
deriving DecidableEq, Repr

/-- One thread slot of the core with the thread it holds (R14, R223). While `held`, the window, maps and registers of `vec` are the
held image, and `vsw` is its VSW field (R201, R202). `copied` lists the leaves whose page has been copied for the scalar store that
the thread runs above user level (R372). `found` is the trap of the word at pc while the window drains for it (R198, R213); `queue` holds the
scalar accesses and FENCEs that have not performed (R346), `defer` says that the next one enters it, `early` what has been read ahead (R179,
R358), and `prep` the registers of the VLDs prepared on an unconfirmed path, the oldest first (R179). A handler's BAR has an arrival of its
own, `upArrived`. `vlSet` is the count of the latest word of the program that set VL other than by a trim (R8). `vpf` is the latest VPF, and `vpfDone`
holds earlier ones, whose VPs have all stopped and which still carry elements (R226, R245); `segCarry` holds what SETFIBs still carry (R132). -/
structure Thread where
  occupied : Bool
  party    : Nat
  ctx      : BitVec 12
  level    : Level
  pc       : Word
  sregs    : Vector Word 32
  upper    : Vector Word 3
  cfg      : Cfg
  vec      : Vec
  held     : Bool
  vsw      : Word
  granted  : Bool
  vpf      : Option Vpf
  vpfDone  : List Vpf
  segCarry : List SegCarry
  txn      : Option Txn
  wait     : Option Wait
  copied   : List Nat
  arrived  : Option Arrival
  upArrived : Option Arrival
  breaks   : Vector (Option (Word × BitVec 12)) 4
  version  : Word
  stalled  : Bool
  drain    : Bool
  found    : Option TrapInfo
  queue    : List Queued
  early    : List Early
  prep     : List (Fin 128)
  defer    : Bool
  vlSet    : Nat
  count    : Nat
deriving DecidableEq, Repr

/-! ## The core -/

/-- A line of the scalar cache (R343): 64 bytes at 64 × line, and one dirty bit per byte. -/
structure Line where
  line  : Nat
  data  : BitVec 512
  dirty : BitVec 64
deriving DecidableEq, Repr

/-- A cached translation (R365): context, virtual page of the leaf, level of the leaf, the leaf and its address. -/
structure TlbEntry where
  ctx   : BitVec 12
  vpage : Nat
  level : Nat
  pte   : Word
  addr  : Nat
deriving DecidableEq, Repr

/-- An instruction word that the Porter has fetched (R12, R205): context, virtual address and word. -/
structure HeldWord where
  ctx  : BitVec 12
  va   : Nat
  word : Insn
deriving DecidableEq, Repr

/-- The format of an accumulator (R21, R300). -/
inductive AccFmt where
  | unset | int32 | fp32
deriving DecidableEq, Repr

/-- A panel configuration (R298, R327): M, N, K and the format codes of A and B. -/
structure Panel where
  m  : Nat
  n  : Nat
  k  : Nat
  af : Nat
  bf : Nat
deriving DecidableEq, Repr

/-- What a Courier command does (R311 to R320, R332). CPYG and CPYS name the physical register of their row numbers, and keep its
contents once the posting thread has left. -/
inductive CmdKind where
  | cpy (da sa : Word) (n0 n1 n2 : Nat) (ds1 ss1 ds2 ss2 : Word)
  | cpyg (sp mb : Word) (rb n : Nat) (reg : Fin 128) (tag : Tag) (kept : Option VReg)
  | cpys (sp mb : Word) (rb n : Nat) (reg : Fin 128) (tag : Tag) (kept : Option VReg)
  | cpymg (da sa : Word) (nx ny nz : Nat) (op bnd sf df tbl : Nat)
  | cwtld (src : Word) (tbl : Nat)
  | csbar (mask : BitVec 16)
  | mmav (x b y : Word) (rows n k : Nat)
deriving DecidableEq, Repr

/-- Where a Courier command stands (R295); parked holds the cause, element and address of the fault, whether it has been
delivered, and whether the command waits only for its counter add (R297); a command that adds has freed its tiles. -/
inductive CmdState where
  | queued
  | posted
  | performing
  | parked (cause : BitVec 8) (elem : Nat) (addr : Word) (delivered counter : Bool)
  | adding
deriving DecidableEq, Repr

/-- An element of a Courier command that has passed its checks and whose reads have returned: its number, the address that it writes, its bytes and
their places (R208). -/
structure ReadyElem where
  elem  : Nat
  va    : Nat
  bytes : List Byte
  locs  : List Loc
deriving DecidableEq, Repr

/-- A Courier command in its slot (R295): post number, stream, poster, counter and contribution, the elements it has transferred, and those that
have passed their checks and wait, with their bytes and places, while a higher one has transferred (R208). -/
structure Cmd where
  seq     : Nat
  stream  : Nat
  slot    : Slot
  party   : Nat
  ptidx   : Nat
  ctx     : BitVec 12
  level   : Level
  kind    : CmdKind
  counter : Word
  inc     : Nat
  bar     : Option (Fin 16)
  st      : CmdState
  xfer    : List Nat
  ready   : List ReadyElem := []
deriving DecidableEq, Repr

/-- A fault at post: the command was not posted, and the engine fault waits for delivery (R309). -/
structure PostFault where
  slot   : Slot
  cause  : BitVec 8
  stream : Nat
  addr   : Word
deriving DecidableEq, Repr

/-- A command of the matrix queue (R285, R326). -/
inductive MatOp where
  | mzero (acc : Nat) (fmt : AccFmt)
  | mma (acc : Nat) (x y : Nat) (p : Panel)
  | mst (acc : Nat) (x : Nat) (fmt : Nat) (p : Panel) (accFmt : AccFmt)
  | mrd (acc row : Nat) (sl : Slot) (rid : Nat)
  | mmav (cmd : Nat)
deriving DecidableEq, Repr

/-- A command in the queue; `done` counts the K-groups that an MMA has summed, row by row (R67, R301); of an MRD it is 1 once its rule has
read its row (R259). `lost` says that an MMA has met data that cannot be corrected (R333). -/
structure MatCmd where
  seq   : Nat
  slot  : Slot
  party : Nat
  ptidx : Nat
  op    : MatOp
  done  : Nat := 0
  lost  : Bool := false
deriving DecidableEq, Repr

/-- A field of the record class (R375, R376). -/
structure PkField where
  off  : Nat
  wlog : Nat
  sgn  : Bool
  val  : Bool
deriving DecidableEq, Repr

/-- Table kinds of a stage (R377). -/
inductive PkKind where
  | none | exact | ternary | range
deriving DecidableEq, Repr

structure PkStage where
  kind : PkKind
  key  : Nat
  key2 : Nat
  two  : Bool
deriving DecidableEq, Repr

structure PkSpool where
  base  : Nat
  cap   : Nat
deriving DecidableEq, Repr

/-- The chain configuration that PKCFG reads (R376). -/
structure PkConf where
  rsz    : Nat
  ovf    : Nat
  fields : List PkField
  stages : List PkStage
  spools : List PkSpool
deriving DecidableEq, Repr

/-- One entry of a bank (R378): an exact entry uses `v`, a ternary one `v` and `m`, a range one all four. `lost` marks stored data that
cannot be corrected (R377). -/
structure PkEntry where
  v    : Word
  m    : Word
  v2   : Word
  m2   : Word
  act  : Nat
  lost : Bool
deriving DecidableEq, Repr

/-- A bank image (R378): actions of four micro-operation words, entries, and the miss action. -/
structure PkBank where
  acts    : List (List (BitVec 32))
  entries : List PkEntry
  miss    : Nat
deriving DecidableEq, Repr

/-- A PIKE command in post order (R373, R384); a feed holds how many of its records have entered. -/
inductive PikeOp where
  | cfg (c : PkConf)
  | load (stage : Nat) (b : PkBank)
  | swap (mask : BitVec 12)
  | feed (addr n next rsz : Nat) (spools : List PkSpool)
deriving DecidableEq, Repr

structure PikeCmd where
  seq   : Nat
  slot  : Slot
  party : Nat
  ptidx : Nat
  op    : PikeOp
deriving DecidableEq, Repr

/-- A record in the chain (R380): its bytes, pass, route, recirculation flag, whether a DROP took it, the feed it
came from, and the number of swaps before its entry (R373). -/
structure PkRec where
  bytes : List Byte
  pass  : Nat
  route : Nat
  rc    : Bool
  drop  : Bool
  feed  : Nat
  epoch : Nat
deriving DecidableEq, Repr

/-- The Turnpike (R375 to R388): `porter` is the configuration of the latest PKCFG in program order (R387). `swapped` holds, per
stage, the number of the epoch of its latest PKSWAP; `begun` the rows of 256 bytes of the scratchpad that each feed has begun to write (R289). -/
structure Pike where
  conf     : PkConf
  porter   : PkConf
  active   : List PkBank
  shadow   : List PkBank
  queue    : List PikeCmd
  chain    : List PkRec
  reentry  : List PkRec
  feeds    : List PikeCmd
  epoch    : Nat
  swapped  : List Nat
  spoolCnt : List Nat
  misses   : List Word
  drops    : Word
  overp    : Word
  full     : Word
  lost     : Word
  counters : List Word
  begun    : List (Nat × Nat) := []
deriving DecidableEq, Repr

/-- Gating of the core: running or within its hold, gated, or waiting in the in-rush arbiter for its ramp to end (R406, R407). -/
inductive Gate where
  | on | gated | queued
deriving DecidableEq, Repr

/-! ## Die and module -/

/-- The task record's fields, as the Innkeeper read them at dispatch (R262, R263). -/
structure TaskRec where
  bind     : Word
  dctr     : Word
  dinc     : Word
  ncore    : Nat
  two      : Bool
  lanes    : Nat
  prio     : Nat
  indirect : Bool
  accs     : Nat
  stages   : Nat
  walker   : Bool
  tiles    : Nat
  dies     : Nat
  engine   : Bool
  pcount   : Word
  save     : Word
  poolt    : Word
  argp     : Word
  stack    : Word
  tls      : Word
  stksz    : Nat
  tlssz    : Nat
  energy   : Nat
  savesz   : Nat
deriving DecidableEq, Repr

/-- A work pool of a task (R256, R265); members are (party, PTIDX). -/
structure Pool where
  remain   : Nat
  next     : Nat
  minchunk : Nat
  members  : List (Nat × Nat)
deriving DecidableEq, Repr

/-- A dispatched task (R269): its record, the pools, the parties not yet ended, and whether a fault has been reported (R283). -/
structure Task where
  key     : Nat
  ctx     : BitVec 12
  va      : Word
  fields  : TaskRec
  pools   : Vector Pool 8
  open_   : Nat
  faulted : Bool
  started : Bool
deriving DecidableEq, Repr

/-- A barrier object (R251): phase, arrivals, expectations, last report, and the contributions that have come while the party is parked
(R210). -/
structure Barrier where
  phase  : BitVec 32
  arr    : Nat
  exp    : Nat
  report : Word
  pend   : Nat := 0
deriving DecidableEq, Repr

/-- The saved engine state of a pre-empted engine party (R211, R274); `spBad` and `accBad` say what of it cannot be corrected. -/
structure SavedEngine where
  sp      : List Host.Cell
  acc     : List (Nat × BitVec 32)
  accFmt  : Vector AccFmt 4
  accSat  : Vector Bool 4
  cmds    : List Cmd
  faults  : List PostFault
  wt      : List Host.Cell
  matQ    : List MatCmd
  panels  : Vector Panel 2
  pike    : Pike
  spBad   : List Nat := []
  accBad  : List Nat := []
deriving DecidableEq, Repr

/-- The saved state of a pre-empted party on the core (R209, R211): its threads with their slots, lane tables, with what of them cannot be
corrected, and engine state; this core's position in the party, its threads on other cores (R276), and where its image stands (R281). -/
structure Saved where
  threads : List (Slot × Thread)
  tables  : List Host.Cell
  engine  : Option SavedEngine
  bad     : List Nat := []
  pos     : Nat := 0
  remote  : Nat := 0
  base    : Nat := 0
deriving DecidableEq, Repr

/-- A party that waits for placement: its task, its index, the number of its dispatch or of its last save, the age steps of R277, and
whether it blocks later parties (R269, R277, R281), and whether its purse holds it back until the next interval (R278). -/
structure WaitParty where
  key   : Nat
  task  : Nat
  pidx  : Nat
  stamp : Nat
  age   : Nat
  blocks : Bool
  held   : Bool := false
  barriers : Vector Barrier 16
  saved : Option Saved
deriving DecidableEq, Repr

/-- A placed party (R272): its task, index, barrier objects, the PTIDX of its threads on this core that have not exited, placement stamp,
whether a save of its state is running, this core's position in it, and how many of its threads on other cores have not exited (R276). -/
structure Party where
  key      : Nat
  task     : Nat
  pidx     : Nat
  barriers : Vector Barrier 16
  live     : List Nat
  stamp    : Nat
  saving   : Option Saved
  pos      : Nat := 0
  remote   : Nat := 0
deriving DecidableEq, Repr

/-- A registered post area (R266): its address, which a host call gives as a physical one (R419), the TRIG value at the last look, the last
record taken, and the addresses reported as unreadable. -/
structure PostArea where
  die  : Nat
  ctx  : BitVec 12
  addr : Word
  phys : Bool
  trig : Word
  last : Word
  owed : Nat
  bad  : List Word
deriving DecidableEq, Repr

/-- A record that waits on a counter (R268). -/
structure WaitRec where
  ctx   : BitVec 12
  va    : Word
  wctr  : Word
  wtgt  : Word
  stamp : Nat
deriving DecidableEq, Repr

/-- A watch entry: the physical address of its counter and the records that wait on it (R268). -/
structure Watch where
  pa   : Nat
  recs : List WaitRec
deriving DecidableEq, Repr

/-- A context (R360, R237, R420): its number, root table, supervisor entry and firmware entry (R197), and the rest. -/
structure Ctx where
  num    : BitVec 12
  root   : Nat
  entry  : Word
  fw     : Word
  priv   : Bool
  owner  : PcieFn
  budget : BitVec 32
  spent  : BitVec 32
  g      : BitVec 4
deriving DecidableEq, Repr

/-- The report of the trap that ended a context (R197, R420). -/
structure CtxReport where
  num   : BitVec 12
  owner : PcieFn
  cause : Word
  addr  : Word
  epc   : Word
deriving DecidableEq, Repr

/-- A format window (R304). -/
structure FWindow where
  en    : Bool
  kind  : Nat
  k     : Nat
  voff  : Nat
  vlen  : Nat
  sbase : Nat
  rown  : Nat
  scl   : Nat
  outl  : Nat
  offs  : Nat
deriving DecidableEq, Repr

/-- A page copy in progress (R372): the leaf's address and the new frame. -/
structure Cow where
  leaf  : Nat
  old   : Nat
  frame : Nat
  tol   : Bool
deriving DecidableEq, Repr

/-- A Parlum link (R395 to R399): carries traffic, has faulted and not trained again, width in lanes, the width it is changing to, armed test
fault (R374). -/
structure Link where
  up       : Bool
  down     : Bool
  width    : Nat
  changing : Option Nat
  armed    : Bool
deriving DecidableEq, Repr

/-- A write of the Innkeeper that waits for a frame: bytes to be stored, or an amount to be added to a counter (R340, R372, assumption 99). -/
inductive InnWrite where
  | put (bytes : List Byte)
  | add (inc : Nat)
deriving DecidableEq, Repr

/-- Such a write with its context and address. -/
structure Owed where
  ctx : BitVec 12
  va  : Nat
  w   : InnWrite
deriving DecidableEq, Repr

/-- Who sent a request to a peer or the host. -/
inductive ReqFor where
  /-- a scalar instruction of the slot waits for the reply -/
  | scalar (sl : Slot)
  /-- element e of rule rid of the slot waits for the reply -/
  | element (sl : Slot) (rid e : Nat)
  /-- element e of Courier command cmd waits for the reply; its counter add has the number after its last element -/
  | courier (cmd e : Nat)
  /-- a write that nothing waits for, until a release step at system scope -/
  | posted
  /-- a zero-length flush read to a PCIe link (R356) -/
  | flush
  /-- the fetch of an instruction word for a context -/
  | fetch (ctx : BitVec 12)
  /-- an atomic of a parked party's thread: of its scalar instruction, or of element e of rule rid (R209) -/
  | parked (key ptidx : Nat) (el : Option (Nat × Nat))
deriving DecidableEq, Repr

/-- Where a request stands. -/
inductive ReqStatus where
  | sent
  | answered (data : Word)
  | failed
deriving DecidableEq, Repr

/-- A request that has left the core for a peer module or the host (R346, R356, R357), with its waybill (R397); a request to the host goes to a
function of its link (R390). `locs` are the places of all bytes of the element that reads. -/
structure Req where
  id     : Nat
  fn     : Nat := 0
  who    : ReqFor
  pa     : Nat
  op     : BusOp
  status : ReqStatus
  waybill : BitVec 16 := 0
  locs   : List Loc := []
deriving DecidableEq, Repr

/-- Error counters of one die (R410). -/
structure DieErr where
  ce    : Word
  ue    : Word
  voids : Word
  dropw : Word
  lret  : Nat
  cret  : Nat
deriving DecidableEq, Repr

/-- The mailbox of a PCIe function (R423); `call` holds FN and the arguments as they stood when REQSEQ rose. -/
structure Mailbox where
  fn      : Word
  args    : Vector Word 6
  status  : Word
  vals    : Vector Word 3
  reqseq  : Word
  doneseq : Word
  call    : Option (Word × Vector Word 6) := none
deriving DecidableEq, Repr

/-- A PCIe function's registers and memory (R390, R392): WSEL, the mailbox, the range a VF's BAR 2 may reach, and the
device memory of BAR 4; the entries of its MSI-X table that have been written, by vector, and its pending-bit array (R390). -/
structure HostFn where
  wsel : BitVec 3
  mbox : Mailbox
  mem  : Option (Nat × Nat)
  page : Nat
  msix : List (Nat × BitVec 128) := []
  pba  : List Nat := []
deriving DecidableEq, Repr

/-- An interrupt binding (R393, R420). -/
structure Binding where
  event : Nat
  ctx   : BitVec 12
  f     : PcieFn
  vec   : Nat
deriving DecidableEq, Repr

/-- Asynchronous work of the firmware service (R422): when it ends it adds 1 to the counter at a physical address; an add that leaves for a peer or
the host has the waybill of a context and a function (R390, R397). -/
structure Work where
  counter : Option Nat
  waybill : BitVec 12 := 0
  fn      : Nat := 0
deriving DecidableEq, Repr

/-- One straggle entry (R288). -/
structure Straggle where
  count : BitVec 32
  lsum  : BitVec 64
deriving DecidableEq, Repr

/-- The whole machine. -/
structure State where
  /-- inputs from outside and choices of agents, in the order in which they take place; the model's own field -/
  agenda  : List Instr
  /-- how many free values have been used; the model's own field -/
  fresh   : Nat
  /-- the slot whose turn it is (R284) -/
  cur     : Slot
  threads : Vector Thread 2
  /-- the next number of a request, command, task or party; the model's own field -/
  seq     : Nat
  -- the core
  lcnt0   : BitVec 7
  lcnt1   : BitVec 7
  droop   : Bool
  testmax : BitVec 6
  clock   : BitVec 6
  cidx    : BitVec 6
  die     : BitVec 2
  module_ : BitVec 12
  qcore   : BitVec 2
  laneMarked  : BitVec 64
  /-- marked lanes that stay in service, each the only lane of its slot (R225) -/
  laneLast    : BitVec 64
  laneRetired : BitVec 64
  coreMarked  : Bool
  coreRetired : Bool
  gate    : Gate
  lines   : List Line
  tlb     : List TlbEntry
  words   : List HeldWord
  sp      : List Host.Cell
  tables  : List Host.Cell
  acc     : List (Nat × BitVec 32)
  accFmt  : Vector AccFmt 4
  accSat  : Vector Bool 4
  cmds    : List Cmd
  postFaults : List PostFault
  wt      : List Host.Cell
  matQ    : List MatCmd
  panels  : Vector Panel 2
  pike    : Pike
  -- memory and the module
  mem     : List Host.Cell
  poison  : List Nat
  spPoison : List Nat
  ltPoison : List Nat
  accPoison : List Nat
  pool    : List Nat
  cows    : List Cow
  fwins   : List FWindow
  reqs    : List Req
  links   : Vector Link 18
  /-- the Parlum links that have faulted since reset, the first first: from them the routes follow (R396) -/
  routeFaults : List (Fin 18)
  /-- transactions in phase two whose thread has been ended, with its context: phase two runs on (R403) -/
  orphans : List (BitVec 12 × Txn)
  -- Innkeeper
  areas   : List PostArea
  launches : List (BitVec 12 × Word)
  watches : List Watch
  unwatched : List WaitRec
  owed    : List Owed
  tasks   : List Task
  waiting : List WaitParty
  parties : List Party
  policy  : Vector Word 4
  straggle : List Straggle
  -- firmware service and host
  ready   : Bool
  replace : Bool
  linkdown : Bool
  ctxs    : List Ctx
  reports : List CtxReport
  mlim    : Nat
  chret   : Nat
  chMarked : Nat
  errs    : Vector DieErr 4
  hostfns : Vector HostFn 34
  binds   : List Binding
  raised  : List (PcieFn × Nat)
  works   : List Work
  /-- the decode table that the firmware has written, and the one that the core uses (R52) -/
  table   : List Byte
  tableUsed : List Byte
deriving DecidableEq, Repr

/-! ## Why a step can stop -/

/-- Faults of the model. -/
inductive Fault where
  /-- Raised by step when the agenda holds a term that is no instruction or event of the part, or an instruction word's
  term: the outside and the other agents have only events. Safe: no such input exists on the hardware. -/
  | notAnEvent
deriving DecidableEq, Repr

/-- Refusals of the model. -/
inductive Refusal where
  /-- Raised by an arm of exec whose instruction has no meaning yet. Safe: nothing is claimed of it. -/
  | notModelled (mnemonic : String)
deriving DecidableEq, Repr

/-! ## Reset -/

/-- A physical vector register of zeros (R18). -/
def VReg.zero (wlog : Nat) : VReg := { wlog := wlog, cells := [], rest := .present 0 }

/-- A physical predicate register of zeros (R18). -/
def PReg.zero : PReg := { cells := [], rest := .present false }

/-- The vector side at thread start (R18, assumption 4). -/
def Vec.start : Vec :=
  { vmap := Vector.ofFn (fun i => Fin.ofNat 128 i.val), vtag := Vector.replicate 32 .i64, mmap := Vector.ofFn (fun i => Fin.ofNat 48 i.val)
    vregs := Vector.replicate 128 (.zero 3), pregs := Vector.replicate 48 .zero
    vfree := (List.range 96).map (fun i => Fin.ofNat 128 (i + 32)), pfree := (List.range 32).map (fun i => Fin.ofNat 48 (i + 16))
    window := [] }

/-- The configuration registers at thread start (R24), before placement sets the identity registers. -/
def Cfg.start : Cfg :=
  { vl := 0, wlog := 0, lalive := 0, lmap := 0, vstat := 0, frm := 0, fflags := 0, segsel := 0, estart := 0
    qcur := 0, qreq := 0, voidcnt := 0, ptidx := 0, pidx := 0, task := 0, trapcause := 0, traprule := 0
    trapelem := 0, trapaddr := 0, cestart := 0, cestream := 0, epc := 0, plev := 0
    invp := false, preempt := false, engflt := false }

/-- A free slot; its registers hold the values of thread start (assumption 3). -/
def Thread.free : Thread :=
  { occupied := false, party := 0, ctx := 0, level := .user, pc := 0
    sregs := Vector.replicate 32 0, upper := Vector.replicate 3 0, cfg := .start, vec := .start
    held := false, vsw := 0, granted := false, vpf := none, vpfDone := [], segCarry := [], txn := none, wait := none, copied := [], arrived := none, upArrived := none
    breaks := Vector.replicate 4 none, version := 0, stalled := false, drain := false, found := none, queue := [], early := [], prep := []
    defer := false, vlSet := 0, count := 0 }

/-- A cleared bank (R378). -/
def PkBank.clear : PkBank := { acts := [], entries := [], miss := 0 }

/-- The chain configuration at placement (R375). -/
def PkConf.none : PkConf :=
  { rsz := 0, ovf := 0
    fields := List.replicate 16 { off := 0, wlog := 0, sgn := false, val := false }
    stages := List.replicate 12 { kind := .none, key := 0, key2 := 0, two := false }
    spools := List.replicate 8 { base := 0, cap := 0 } }

/-- The Turnpike at placement (R375). -/
def Pike.start : Pike :=
  { conf := .none, porter := .none, active := List.replicate 12 .clear, shadow := List.replicate 12 .clear
    queue := [], chain := [], reentry := [], feeds := [], epoch := 0, swapped := List.replicate 12 0
    spoolCnt := List.replicate 8 0, misses := List.replicate 12 0, drops := 0, overp := 0, full := 0, lost := 0
    counters := List.replicate 64 0 }

/-- The panel configuration at thread start (R327). -/
def Panel.start : Panel := { m := 256, n := 256, k := 256, af := 0, bf := 0 }

def Mailbox.reset : Mailbox :=
  { fn := 0, args := Vector.replicate 6 0, status := 0, vals := Vector.replicate 3 0, reqseq := 0, doneseq := 0 }

/-- The machine right after reset (R415): boot verification has not passed, no context exists and no party is placed. -/
def State.reset : State :=
  { agenda := [], fresh := 0, cur := 0, threads := Vector.replicate 2 .free, seq := 0
    lcnt0 := 0, lcnt1 := 0, droop := false, testmax := 32, clock := 32, cidx := 0, die := 0, module_ := 0
    qcore := 0, laneMarked := 0, laneLast := 0, laneRetired := 0, coreMarked := false, coreRetired := false, gate := .on
    lines := [], tlb := [], words := [], sp := [], tables := [], acc := []
    accFmt := Vector.replicate 4 .unset, accSat := Vector.replicate 4 false
    cmds := [], postFaults := [], wt := [], matQ := [], panels := Vector.replicate 2 .start, pike := .start
    mem := [], poison := [], spPoison := [], ltPoison := [], accPoison := [], pool := [], cows := []
    fwins := List.replicate 64 { en := false, kind := 0, k := 8, voff := 0, vlen := 0, sbase := 0, rown := 0
                                 scl := 0, outl := 0, offs := 0 }
    reqs := []
    links := Vector.replicate 18 { up := false, down := false, width := 8, changing := none, armed := false }, routeFaults := [], orphans := []
    areas := [], launches := [], watches := [], unwatched := [], owed := [], tasks := [], waiting := [], parties := []
    policy := Vector.replicate 4 0, straggle := List.replicate 200 { count := 0, lsum := 0 }
    ready := false, replace := false, linkdown := false, ctxs := [], reports := [], mlim := 3600
    chret := 0, chMarked := 0
    errs := Vector.replicate 4 { ce := 0, ue := 0, voids := 0, dropw := 0, lret := 0, cret := 0 }
    hostfns := Vector.replicate 34 { wsel := 0, mbox := .reset, mem := none, page := 0 }
    binds := [], raised := [], works := [], table := [], tableUsed := [] }

end Sys2Proof.Machine
end

