-- ==== Sys2Proof/Machine/Numeric.lean ====
section
/-! DEFINITION. Number formats, exact values, rounding and conversion (spec/04: R54 to R62, R71). A value is decoded to an
exact number, an operation is computed exactly, and the result is rounded once. -/

namespace Sys2Proof.Machine

/-! ## Formats -/

/-- The floating-point formats that have a tag (R54). -/
inductive Fmt where
  | f64 | f32 | f16 | bf16 | e4m3 | e5m2
deriving DecidableEq, Repr

/-- Width of the exponent field (R54). -/
def Fmt.ew : Fmt → Nat
  | .f64 => 11 | .f32 => 8 | .f16 => 5 | .bf16 => 8 | .e4m3 => 4 | .e5m2 => 5

/-- Width of the fraction field (R54). -/
def Fmt.fw : Fmt → Nat
  | .f64 => 52 | .f32 => 23 | .f16 => 10 | .bf16 => 7 | .e4m3 => 3 | .e5m2 => 2

/-- Width of the format in bits (R54). -/
def Fmt.bits (f : Fmt) : Nat := 1 + f.ew + f.fw

/-- Exponent bias (R54). -/
def Fmt.bias (f : Fmt) : Nat := 2 ^ (f.ew - 1) - 1

/-- Code of the largest finite value, without its sign (R54). -/
def Fmt.maxCode (f : Fmt) : Nat :=
  match f with
  | .e4m3 => 0x7E
  | _ => (2 ^ f.ew - 1) * 2 ^ f.fw - 1

/-- Code of +∞; E4M3 has none (R54). -/
def Fmt.infCode (f : Fmt) : Nat := (2 ^ f.ew - 1) * 2 ^ f.fw

/-- The canonical NaN (R56). -/
def Fmt.nanCode : Fmt → Nat
  | .f64 => 0x7FF8000000000000 | .f32 => 0x7FC00000 | .f16 => 0x7E00 | .bf16 => 0x7FC0 | .e4m3 => 0x7F | .e5m2 => 0x7E

/-- Exponent of the last bit of a subnormal (R54). -/
def Fmt.qmin (f : Fmt) : Int := 1 - (f.bias : Int) - (f.fw : Int)

/-- Bit pattern with the sign put in. -/
def Fmt.signed (f : Fmt) (neg : Bool) (code : Nat) : Nat := if neg then 2 ^ (f.ew + f.fw) + code else code

/-- A decoded value: a NaN, signalling or not, an infinity, or (−1)^neg × m × 2^e. -/
inductive FVal where
  | nan (sig : Bool)
  | inf (neg : Bool)
  | fin (neg : Bool) (m : Nat) (e : Int)
deriving DecidableEq, Repr

/-- The value of a bit pattern (R54). Every NaN of E4M3 and E5M2 is quiet (R120). -/
def Fmt.decode (f : Fmt) (b : Nat) : FVal :=
  let s := decide (b / 2 ^ (f.ew + f.fw) % 2 = 1)
  let e := b / 2 ^ f.fw % 2 ^ f.ew
  let x := b % 2 ^ f.fw
  let num := if e = 0 then FVal.fin s x f.qmin else .fin s (2 ^ f.fw + x) (f.qmin + (e : Int) - 1)
  match f with
  | .e4m3 => if e = 15 && x = 7 then .nan false else num
  | .e5m2 => if e = 31 then (if x = 0 then .inf s else .nan false) else num
  | _ => if e = 2 ^ f.ew - 1 then (if x = 0 then .inf s else .nan (decide (x < 2 ^ (f.fw - 1)))) else num

/-! ## Flags of one result -/

/-- FFLAGS bits (R24): NX, UF, OF, DZ, NV. -/
def fNX : BitVec 5 := 1#5
def fUF : BitVec 5 := 2#5
def fOF : BitVec 5 := 4#5
def fDZ : BitVec 5 := 8#5
def fNV : BitVec 5 := 16#5

/-- VSTAT bits (R24): COLL, RANGE, SAT. -/
def vCOLL : BitVec 3 := 1#3
def vRANGE : BitVec 3 := 2#3
def vSAT : BitVec 3 := 4#3

/-- A bit pattern and the FFLAGS and VSTAT bits its computation raises (R61). -/
structure Res where
  bits : Nat
  fl   : BitVec 5
  vs   : BitVec 3
deriving DecidableEq, Repr

/-- A pattern that raises nothing. -/
def Res.plain (bits : Nat) : Res := { bits := bits, fl := 0, vs := 0 }

/-! ## Rounding -/

/-- Chosen neighbour of (m + sticky) / 2^d under a rounding mode, and whether it is inexact (R59). -/
def roundShift (rm : Nat) (neg : Bool) (m d : Nat) (sticky : Bool) : Nat × Bool :=
  let q := m / 2 ^ d
  let r := m % 2 ^ d
  let inexact := decide (r ≠ 0) || sticky
  let up := match rm with
    | 0 => decide (2 * r > 2 ^ d) || (decide (2 * r = 2 ^ d) && (sticky || decide (q % 2 = 1)))
    | 1 => false
    | 2 => neg && inexact
    | 3 => !neg && inexact
    | _ => inexact && decide (q % 2 = 0)
  (if up then q + 1 else q, inexact)

/-- Number of bits of m; 0 for 0. -/
def bitLen (m : Nat) : Nat := if m = 0 then 0 else Nat.log2 m + 1

/-- Whether finite overflow gives the infinity (R59). -/
def overflowsToInf (rm : Nat) (neg : Bool) : Bool :=
  match rm with
  | 0 => true
  | 1 => false
  | 2 => neg
  | 3 => !neg
  | _ => false

/-- Scales m × 2^e (and a sticky rest) to a count of 2^q, under the rounding mode. -/
def roundAt (rm : Nat) (neg : Bool) (m : Nat) (e q : Int) (sticky : Bool) : Nat × Bool :=
  if e < q then roundShift rm neg m (q - e).toNat sticky
  else roundShift rm neg (m * 2 ^ (e - q).toNat) 0 sticky

/-- Rounds (−1)^neg × (m, sticky) × 2^e to the format (R57, R59, R61: tininess after rounding). -/
def Fmt.round (f : Fmt) (rm : Nat) (neg : Bool) (m : Nat) (e : Int) (sticky : Bool) : Res :=
  if m = 0 && !sticky then .plain (f.signed neg 0)
  else
    let top := e + (bitLen m : Int)
    let p : Int := (f.fw : Int) + 1
    let q := max (top - p) f.qmin
    let (x, inexact) := roundAt rm neg m e q sticky
    let code := ((q - f.qmin).toNat) * 2 ^ f.fw + x
    if code > f.maxCode then
      match f with
      | .e4m3 | .e5m2 => { bits := f.signed neg f.maxCode, fl := fOF ||| fNX, vs := 0 }
      | _ => { bits := f.signed neg (if overflowsToInf rm neg then f.infCode else f.maxCode), fl := fOF ||| fNX, vs := 0 }
    else
      let emin := f.qmin + (f.fw : Int)
      let tiny := decide (top ≤ emin) &&
        !(decide (top = emin) && decide ((roundAt rm neg m e (top - p) sticky).1 = 2 ^ (f.fw + 1)))
      { bits := f.signed neg code
        fl := (if inexact then fNX else 0) ||| (if inexact && tiny then fUF else 0), vs := 0 }

/-! ## Exact results before rounding -/

/-- An exact result: a NaN with or without NV, an infinity with or without DZ, or a number with a sticky rest. -/
inductive Exact where
  | nan (nv : Bool)
  | inf (neg : Bool) (dz : Bool)
  | num (neg : Bool) (m : Nat) (e : Int) (sticky : Bool)
deriving DecidableEq, Repr

/-- Rounds an exact result to a format (R56, R57, R59). -/
def Exact.round (x : Exact) (f : Fmt) (rm : Nat) : Res :=
  match x with
  | .nan nv => { bits := f.nanCode, fl := if nv then fNV else 0, vs := 0 }
  | .inf neg dz =>
    match f with
    | .e4m3 => { bits := f.nanCode, fl := fNV ||| (if dz then fDZ else 0), vs := 0 }
    | _ => { bits := f.signed neg f.infCode, fl := if dz then fDZ else 0, vs := 0 }
  | .num neg m e sticky => f.round rm neg m e sticky

/-- A decoded value as an exact result; a signalling NaN raises NV (R56). -/
def FVal.exact : FVal → Exact
  | .nan sig => .nan sig
  | .inf neg => .inf neg false
  | .fin neg m e => .num neg m e false

def FVal.neg : FVal → FVal
  | .nan sig => .nan sig
  | .inf n => .inf (!n)
  | .fin n m e => .fin (!n) m e

def FVal.isSig : FVal → Bool
  | .nan sig => sig
  | _ => false

def FVal.isNan : FVal → Bool
  | .nan _ => true
  | _ => false

def FVal.isNeg : FVal → Bool
  | .nan _ => false
  | .inf n => n
  | .fin n _ _ => n

/-- The signed count of 2^q that a finite value m × 2^e with e ≥ q is. -/
def scaled (neg : Bool) (m : Nat) (e q : Int) : Int :=
  let n : Int := (m : Int) * 2 ^ (e - q).toNat
  if neg then -n else n

/-- Sum of two finite values; an exact zero takes its sign by IEEE 754-2019 (−0 under rounding down). -/
def sumExact (rm : Nat) (n1 : Bool) (m1 : Nat) (e1 : Int) (n2 : Bool) (m2 : Nat) (e2 : Int) : Exact :=
  let q := min e1 e2
  let t := scaled n1 m1 e1 q + scaled n2 m2 e2 q
  if t = 0 then .num (if n1 = n2 then n1 else decide (rm = 2)) 0 0 false
  else .num (decide (t < 0)) t.natAbs q false

/-- a × b (IEEE 754-2019). -/
def mulExact (a b : FVal) : Exact :=
  if a.isNan || b.isNan then .nan (a.isSig || b.isSig)
  else match a, b with
    | .inf n, .inf k => .inf (n ^^ k) false
    | .inf n, .fin k m _ => if m = 0 then .nan true else .inf (n ^^ k) false
    | .fin n m _, .inf k => if m = 0 then .nan true else .inf (n ^^ k) false
    | .fin n m e, .fin k l g => .num (n ^^ k) (m * l) (e + g) false
    | _, _ => .nan false

/-- a + b. -/
def addExact (rm : Nat) (a b : FVal) : Exact :=
  if a.isNan || b.isNan then .nan (a.isSig || b.isSig)
  else match a, b with
    | .inf n, .inf k => if n = k then .inf n false else .nan true
    | .inf n, _ => .inf n false
    | _, .inf k => .inf k false
    | .fin n m e, .fin k l g => sumExact rm n m e k l g
    | _, _ => .nan false

/-- a × b + c, fused (R116): ∞ × 0 sets NV and gives a NaN even when c is a NaN. -/
def fmaExact (rm : Nat) (a b c : FVal) : Exact :=
  match mulExact a b with
  | .nan nv => .nan (nv || c.isSig)
  | .inf n _ =>
    match c with
    | .nan sig => .nan sig
    | .inf k => if n = k then .inf n false else .nan true
    | .fin _ _ _ => .inf n false
  | .num n m e _ =>
    match c with
    | .nan sig => .nan sig
    | .inf k => .inf k false
    | .fin k l g => sumExact rm n m e k l g

/-- a / b; a finite nonzero number over zero is an infinity with DZ. -/
def divExact (a b : FVal) : Exact :=
  if a.isNan || b.isNan then .nan (a.isSig || b.isSig)
  else match a, b with
    | .inf _, .inf _ => .nan true
    | .inf n, .fin k _ _ => .inf (n ^^ k) false
    | .fin n _ _, .inf k => .num (n ^^ k) 0 0 false
    | .fin n m e, .fin k l g =>
      if l = 0 then (if m = 0 then .nan true else .inf (n ^^ k) true)
      else
        let s := 70 + bitLen l
        .num (n ^^ k) (m * 2 ^ s / l) (e - g - (s : Int)) (decide (m * 2 ^ s % l ≠ 0))
    | _, _ => .nan false

/-- Integer square root, a bit at a time. -/
def isqrtFrom (n : Nat) : Nat → Nat → Nat
  | 0, r => r
  | k + 1, r =>
    let t := r + 2 ^ k
    isqrtFrom n k (if t * t ≤ n then t else r)

def isqrt (n : Nat) : Nat := isqrtFrom n (bitLen n / 2 + 1) 0

/-- Square root (R117). -/
def sqrtExact : FVal → Exact
  | .nan sig => .nan sig
  | .inf n => if n then .nan true else .inf false false
  | .fin n m e =>
    if m = 0 then .num n 0 0 false
    else if n then .nan true
    else
      let odd := decide (e % 2 ≠ 0)
      let m2 := (if odd then 2 * m else m) * 2 ^ 128
      let e2 := if odd then e - 1 else e
      let r := isqrt m2
      .num false r (e2 / 2 - 64) (decide (r * r ≠ m2))

/-! ## Order of values (R71, R135) -/

/-- Whether a < b for two values that are not NaN, with −0 below +0 when `signedZero`. -/
def FVal.lt (signedZero : Bool) (a b : FVal) : Bool :=
  match a, b with
  | .inf n, .inf k => n && !k
  | .inf n, .fin _ _ _ => n
  | .fin _ _ _, .inf k => !k
  | .fin n m e, .fin k l g =>
    let q := min e g
    let x := scaled n m e q
    let y := scaled k l g q
    decide (x < y) || (signedZero && decide (m = 0) && decide (l = 0) && n && !k)
  | _, _ => false

/-- Minimum (or maximum) of two values by R71. -/
def minmax (isMax : Bool) (a b : FVal) : Exact :=
  let sig := a.isSig || b.isSig
  match a.isNan, b.isNan with
  | true, true => .nan sig
  | true, false => b.exact
  | false, true => a.exact
  | false, false =>
    let takeB := if isMax then FVal.lt true a b else FVal.lt true b a
    (if takeB then b else a).exact

/-! ## Tags -/

/-- Log2 of the width in bytes (R17). -/
def Tag.wlog : Tag → Nat
  | .i8 | .n8 | .e4m3 | .e5m2 => 0
  | .i16 | .n16 | .f16 | .bf16 => 1
  | .i32 | .n32 | .f32 => 2
  | .i64 | .n64 | .f64 => 3

/-- Width in bytes (R17). -/
def Tag.bytes (t : Tag) : Nat := 2 ^ t.wlog

/-- Width in bits (R17). -/
def Tag.bits (t : Tag) : Nat := 8 * t.bytes

/-- The floating format of the tag, if it has one (R17). -/
def Tag.fmt : Tag → Option Fmt
  | .f16 => some .f16 | .bf16 => some .bf16 | .f32 => some .f32 | .f64 => some .f64
  | .e4m3 => some .e4m3 | .e5m2 => some .e5m2
  | _ => none

def Tag.isFloat (t : Tag) : Bool := t.fmt.isSome

/-- Signed integer tags (R17). -/
def Tag.isSigned : Tag → Bool
  | .i8 | .i16 | .i32 | .i64 => true
  | _ => false

/-- Tag codes (R17); 0xE and 0xF are not used. -/
def Tag.code : Tag → Nat
  | .i8 => 0 | .i16 => 1 | .i32 => 2 | .i64 => 3 | .n8 => 4 | .n16 => 5 | .n32 => 6 | .n64 => 7
  | .f16 => 8 | .bf16 => 9 | .f32 => 10 | .f64 => 11 | .e4m3 => 12 | .e5m2 => 13

def Tag.ofCode : Nat → Option Tag
  | 0 => some .i8 | 1 => some .i16 | 2 => some .i32 | 3 => some .i64
  | 4 => some .n8 | 5 => some .n16 | 6 => some .n32 | 7 => some .n64
  | 8 => some .f16 | 9 => some .bf16 | 10 => some .f32 | 11 => some .f64 | 12 => some .e4m3 | 13 => some .e5m2
  | _ => none

/-- Least and largest value of an integer tag (R58). -/
def Tag.lo (t : Tag) : Int := if t.isSigned then -(2 ^ (t.bits - 1) : Int) else 0
def Tag.hi (t : Tag) : Int := if t.isSigned then (2 ^ (t.bits - 1) : Int) - 1 else (2 ^ t.bits : Int) - 1

/-- The value of an element: an integer or a floating value. -/
inductive Val where
  | int (n : Int)
  | flt (v : FVal)
deriving DecidableEq, Repr

/-- The low bits of a pattern read as an integer of the tag's width and signedness. -/
def Tag.toInt (t : Tag) (b : Nat) : Int :=
  let x := b % 2 ^ t.bits
  if t.isSigned && decide (2 ^ (t.bits - 1) ≤ x) then (x : Int) - 2 ^ t.bits else x

/-- The value of a pattern in its tag (R17). -/
def Tag.value (t : Tag) (b : Nat) : Val :=
  match t.fmt with
  | some f => .flt (f.decode b)
  | none => .int (t.toInt b)

/-- The pattern of an integer modulo 2^n (two's complement). -/
def intBits (n : Nat) (x : Int) : Nat := (x % (2 ^ n : Int)).toNat

/-- Clamps an exact integer to the tag's range, setting SAT when it changes (R58). -/
def Tag.clamp (t : Tag) (x : Int) : Res :=
  if x < t.lo then { bits := intBits t.bits t.lo, fl := 0, vs := vSAT }
  else if t.hi < x then { bits := intBits t.bits t.hi, fl := 0, vs := vSAT }
  else .plain (intBits t.bits x)

/-- A value as an exact floating operand. -/
def Val.fval : Val → FVal
  | .int n => .fin (decide (n < 0)) n.natAbs 0
  | .flt v => v

/-- Rounds m × 2^e to an integer (R59). -/
def roundInt (rm : Nat) (neg : Bool) (m : Nat) (e : Int) (sticky : Bool) : Int × Bool :=
  let (x, inexact) := roundAt rm neg m e 0 sticky
  (if neg then -(x : Int) else x, inexact)

/-- Converts an exact result to the tag, rounding once (R57, R58, R60). -/
def Exact.toTag (x : Exact) (t : Tag) (rm : Nat) : Res :=
  match t.fmt with
  | some f => x.round f rm
  | none =>
    match x with
    | .nan _ => { bits := 0, fl := fNV, vs := 0 }
    | .inf neg dz =>
      { bits := intBits t.bits (if neg then t.lo else t.hi), fl := fNV ||| (if dz then fDZ else 0), vs := vSAT }
    | .num neg m e sticky =>
      let (n, inexact) := roundInt rm neg m e sticky
      let r := t.clamp n
      if r.vs = 0 then { r with fl := if inexact then fNX else 0 } else { r with fl := fNV }

/-- Converts a value to a tag by R60. -/
def Val.toTag (v : Val) (t : Tag) (rm : Nat) : Res :=
  match v with
  | .flt x => x.exact.toTag t rm
  | .int n =>
    match t.fmt with
    | none => t.clamp n
    | some f => f.round rm (decide (n < 0)) n.natAbs 0 false

/-- A value brought to the computing format, with the flags of the conversion (R60, R108). -/
def Val.toFmt (v : Val) (f : Fmt) (rm : Nat) : FVal × BitVec 5 :=
  match v with
  | .flt x => (x, 0)
  | .int n => let r := f.round rm (decide (n < 0)) n.natAbs 0 false; (f.decode r.bits, r.fl)

/-- Rounds an exact result to the computing format and converts it to vd's tag (R62.4). -/
def Exact.finish (x : Exact) (T : Fmt) (t : Tag) (rm : Nat) : Res :=
  let r := x.round T rm
  let r2 := (T.decode r.bits).exact.toTag t rm
  { r2 with fl := r.fl ||| r2.fl }

/-! ## Computing types (R62, R108) -/

def Tag.wide (t : Tag) : Bool := t = .f64 || t = .i64 || t = .n64

/-- The computing format of a list of source tags: none when every source is an integer (exact). -/
def computing (ts : List Tag) : Option Fmt :=
  if ts.all (fun t => !t.isFloat) then none
  else if ts.any Tag.wide then some .f64 else some .f32

/-- The invalid result (R109). -/
def invalidRes (t : Tag) : Res :=
  { bits := match t.fmt with | some f => f.nanCode | none => 0, fl := fNV, vs := 0 }

/-- Pattern extended to 64 bits: by sign for an I tag, with zeros otherwise (R113). -/
def Tag.extend (t : Tag) (b : Nat) : Nat := if t.isSigned then intBits 64 (t.toInt b) else b % 2 ^ t.bits

/-- Number of set bits among the low k bits of x. -/
def popcount : Nat → Nat → Nat
  | 0, _ => 0
  | k + 1, x => x % 2 + popcount k (x / 2)

/-- Rounds an FP32 pattern to BF16 for a TOL page and gives the stored high half (R75). -/
def tolRound (w : Nat) : Nat :=
  let neg := decide (w / 2 ^ 31 % 2 = 1)
  match Fmt.f32.decode w with
  | .nan _ => (w / 2 ^ 16) ||| 0x40
  | .inf _ => Fmt.bf16.signed neg Fmt.bf16.infCode
  | .fin _ m e => (Fmt.bf16.round 0 neg m e false).bits

end Sys2Proof.Machine
end

