-- ==== Sys2Proof/Machine/Elementwise.lean ====
section
/-! DEFINITION. What each vector arithmetic, compare and VFX function computes at one element, from the bit patterns and
tags of its operands (spec/06; spec/07 R135). -/

namespace Sys2Proof.Machine

/-- An operand of an element function: its bit pattern and tag. -/
structure Opd where
  bits : Nat
  tag  : Tag
deriving DecidableEq, Repr

def Opd.val (a : Opd) : Val := a.tag.value a.bits
def Opd.int (a : Opd) : Int := a.tag.toInt a.bits

/-- A function of one or two operands: destination tag, rounding mode, operands. A unary function ignores the second. -/
abbrev ElemFn := Tag → Nat → Opd → Opd → Res

/-- A fused function: destination tag, rounding mode, a, b and the addend. -/
abbrev FmaFn := Tag → Nat → Opd → Opd → Opd → Res

/-- Whether all tags are integer tags. -/
def ints (a b : Opd) : Bool := !a.tag.isFloat && !b.tag.isFloat

/-- A two-source operation in the computing type of R108, converted to vd's tag. -/
def arith2 (fi : Int → Int → Int) (ff : Nat → FVal → FVal → Exact) : ElemFn := fun td rm a b =>
  match computing [a.tag, b.tag] with
  | none => (Val.int (fi a.int b.int)).toTag td rm
  | some T =>
    let (x, f1) := a.val.toFmt T rm
    let (y, f2) := b.val.toFmt T rm
    let r := (ff rm x y).finish T td rm
    { r with fl := r.fl ||| f1 ||| f2 }

/-- A one-source operation in the computing type of va's tag. -/
def arith1 (fi : Int → Int) (ff : FVal → Exact) : ElemFn := fun td rm a _ =>
  arith2 (fun x _ => fi x) (fun _ x _ => ff x) td rm a a

/-- A wrapping operation: modulo 2^n between integers, else as the plain one (R112). -/
def wrap2 (fi : Int → Int → Int) (plain : ElemFn) : ElemFn := fun td rm a b =>
  if ints a b && !td.isFloat then .plain (intBits td.bits (fi a.int b.int)) else plain td rm a b

/-- A bitwise operation on patterns extended to 64 bits (R113). -/
def bits2 (f : Nat → Nat → Nat) : ElemFn := fun td _ a b =>
  .plain (f (a.tag.extend a.bits) (b.tag.extend b.bits) % 2 ^ td.bits)

/-- A shift at vd's width (R113). -/
def shift2 (f : Nat → Nat → Nat → Nat) : ElemFn := fun td _ a b =>
  let n := td.bits
  .plain (f n (a.tag.extend a.bits % 2 ^ n) (b.tag.extend b.bits % n) % 2 ^ n)

def fVadd : ElemFn := arith2 (· + ·) addExact
def fVsub : ElemFn := arith2 (· - ·) (fun rm a b => addExact rm a b.neg)
def fVrsub : ElemFn := arith2 (fun a b => b - a) (fun rm a b => addExact rm b a.neg)
def fVaddw : ElemFn := wrap2 (· + ·) fVadd
def fVsubw : ElemFn := wrap2 (· - ·) fVsub
def fVmul : ElemFn := arith2 (· * ·) (fun _ a b => mulExact a b)

/-- High half of the exact integer product (R112). -/
def fVmulh : ElemFn := fun td _ a b =>
  if ints a b && !td.isFloat then .plain (intBits td.bits (a.int * b.int / (2 ^ td.bits : Int))) else invalidRes td

/-- Division (R111). -/
def fVdiv : ElemFn := fun td rm a b =>
  if ints a b && decide (b.int = 0) then
    match td.fmt with
    | none =>
      { bits := intBits td.bits (if 0 < a.int then td.hi else if a.int < 0 then td.lo else 0), fl := 0, vs := vSAT }
    | some f => (if a.int = 0 then Exact.nan true else .inf (decide (a.int < 0)) true).round f rm
  else arith2 (fun x y => Int.tdiv x y) (fun _ x y => divExact x y) td rm a b

/-- Remainder; by zero it is the dividend converted without FFLAGS and without SAT (R111; assumption 76). -/
def fVrem : ElemFn := fun td rm a b =>
  if ints a b then
    let r := (Val.int (Int.tmod a.int b.int)).toTag td rm
    if b.int = 0 then .plain r.bits else r
  else invalidRes td

/-- The operand is a signalling NaN. -/
def Opd.isSig (a : Opd) : Bool :=
  match a.tag.fmt with
  | some f => (f.decode a.bits).isSig
  | none => false

/-- The smaller or the larger; a signalling NaN sets NV even beside a number (R71). -/
def pick2 (fi : Int → Int → Int) (isMax : Bool) : ElemFn := fun td rm a b =>
  let r := arith2 fi (fun _ a b => minmax isMax a b) td rm a b
  { r with fl := r.fl ||| (if a.isSig || b.isSig then fNV else 0) }

def fVmin : ElemFn := pick2 min false
def fVmax : ElemFn := pick2 max true

def fVabs : ElemFn :=
  arith1 (fun x => (x.natAbs : Int)) (fun x => (if x.isNeg then x.neg else x).exact)
def fVneg : ElemFn := arith1 (fun x => -x) (fun x => x.neg.exact)

def fVand : ElemFn := bits2 (· &&& ·)
def fVor : ElemFn := bits2 (· ||| ·)
def fVxor : ElemFn := bits2 (· ^^^ ·)
def fVsll : ElemFn := shift2 (fun _ x k => x * 2 ^ k)
def fVsrl : ElemFn := shift2 (fun _ x k => x / 2 ^ k)
def fVsra : ElemFn := shift2 (fun n x k => intBits n ((if 2 ^ (n - 1) ≤ x then (x : Int) - 2 ^ n else (x : Int)) / 2 ^ k))

/-- Direct conversion with one rounding (R114). -/
def fVcvt : ElemFn := fun td rm a _ => a.val.toTag td rm

/-! ## VFMA (R116) -/

/-- A fused operation on signed product and addend: v = ±(a × b) ± c of the exact operands, rounded once (R116). -/
def fma3 (negP negC : Bool) : FmaFn := fun td rm a b c =>
  match computing [a.tag, b.tag, c.tag] with
  | none =>
    let p := a.int * b.int
    (Val.int ((if negP then -p else p) + (if negC then -c.int else c.int))).toTag td rm
  | some T =>
    let x := a.val.fval
    let z := c.val.fval
    (fmaExact rm (if negP then x.neg else x) b.val.fval (if negC then z.neg else z)).finish T td rm

def fVfmadd : FmaFn := fma3 false false
def fVfmsub : FmaFn := fma3 false true
def fVfrmsub : FmaFn := fma3 true false
def fVfnmadd : FmaFn := fma3 true true

/-! ## VFX (R117 to R121) -/

/-- A unary floating function: F64 for F64, I64 and N64 sources, else F32 (R117). -/
def floatUnary (f : FVal → Exact) : ElemFn := fun td rm a _ =>
  let T : Fmt := if a.tag.wide then .f64 else .f32
  let (x, f1) := a.val.toFmt T rm
  let r := (f x).finish T td rm
  { r with fl := r.fl ||| f1 }

def fVfsqrt : ElemFn := floatUnary sqrtExact

/-- Entry i of the reciprocal table, f(i) + 128 (R118). -/
def recEntry (i : Nat) : Nat := (2 * 65536 + (257 + 2 * i)) / (2 * (257 + 2 * i))

/-- Reciprocal estimate (R118). -/
def recExact : FVal → Exact
  | .nan sig => .nan sig
  | .inf n => .num n 0 0 false
  | .fin n m e =>
    if m = 0 then .inf n true
    else
      let l := bitLen m - 1
      let i := m * 128 / 2 ^ l - 128
      .num n (recEntry i) (-(e + (l : Int)) - 8) false

def fVfrec : ElemFn := floatUnary recExact

/-- Entry of the reciprocal square root table, g(64p + j) + 128 (R119): the integer nearest to 256/√μ. -/
def rsqrtEntry (p j : Nat) : Nat := (isqrt (4 * 65536 * 128 / ((129 + 2 * j) * 2 ^ p)) + 1) / 2

/-- Reciprocal square root estimate (R119). -/
def rsqrtExact : FVal → Exact
  | .nan sig => .nan sig
  | .inf n => if n then .nan true else .num false 0 0 false
  | .fin n m e =>
    if m = 0 then .inf n true
    else if n then .nan true
    else
      let l := bitLen m - 1
      let x := e + (l : Int)
      let p := (x % 2).toNat
      let j := m * 64 / 2 ^ l - 64
      .num false (rsqrtEntry p j) (-((x - (p : Int)) / 2) - 8) false

def fVfrsqrt : ElemFn := floatUnary rsqrtExact

/-- Class bit of a pattern (R120). -/
def classBit (a : Opd) : Nat :=
  match a.tag.fmt with
  | none => if a.int = 0 then 0 else if 0 < a.int then 2 else 6
  | some f =>
    match f.decode a.bits with
    | .nan sig => if sig then 9 else 8
    | .inf n => if n then 7 else 3
    | .fin n m _ =>
      let k := if m = 0 then 0 else if m < 2 ^ f.fw then 1 else 2
      if n then 4 + k else k

def fVfclass : ElemFn := fun td rm a _ => (Val.int ((2 ^ classBit a : Nat) : Int)).toTag td rm

/-- Sign of an operand as sign injection reads it (R121). -/
def Opd.sign (b : Opd) : Bool :=
  match b.tag.fmt with
  | some f => decide (b.bits / 2 ^ (f.bits - 1) % 2 = 1)
  | none => b.tag.isSigned && decide (b.int < 0)

/-- Sign injection (R121). -/
def sgnj (f : Bool → Bool → Bool) : ElemFn := fun td _ a b =>
  match td.fmt with
  | none => invalidRes td
  | some q =>
    if a.tag = td then .plain (q.signed (f a.sign b.sign) (a.bits % 2 ^ (q.bits - 1))) else invalidRes td

def fVfsgnj : ElemFn := sgnj (fun _ y => y)
def fVfsgnjn : ElemFn := sgnj (fun _ y => !y)
def fVfsgnjx : ElemFn := sgnj (fun x y => x ^^ y)

/-! ## Narrowing shift (R124) -/

/-- clamp(round_FRM(h / 2^s)), an integer operation whose only flag is SAT. -/
def fVnshr : ElemFn := fun td rm h b =>
  if h.tag.isFloat || td.isFloat then invalidRes td
  else
    let s := b.bits % 64
    td.clamp (roundInt rm (decide (h.int < 0)) h.int.natAbs (-(s : Int)) false).1

/-! ## Compares (R135) -/

/-- A compare on exact values: the bit and the flags it raises. -/
structure CmpRes where
  bit : Bool
  fl  : BitVec 5
deriving DecidableEq, Repr

abbrev CmpFn := Opd → Opd → CmpRes

/-- A compare that yields `unord` on a NaN; `quietNv` compares also raise NV on a quiet NaN. -/
def compare2 (unord quietNv : Bool) (f : FVal → FVal → Bool) : CmpFn := fun a b =>
  let x := a.val.fval
  let y := b.val.fval
  let sig := x.isSig || y.isSig
  if x.isNan || y.isNan then { bit := unord, fl := if sig || quietNv then fNV else 0 }
  else { bit := f x y, fl := 0 }

def fVcmpeq : CmpFn := compare2 false false (fun x y => !FVal.lt false x y && !FVal.lt false y x)
def fVcmpne : CmpFn := compare2 true false (fun x y => FVal.lt false x y || FVal.lt false y x)
def fVcmplt : CmpFn := compare2 false true (fun x y => FVal.lt false x y)
def fVcmple : CmpFn := compare2 false true (fun x y => !FVal.lt false y x)
def fVcmpgt : CmpFn := compare2 false true (fun x y => FVal.lt false y x)
def fVcmpge : CmpFn := compare2 false true (fun x y => !FVal.lt false x y)
def fVcmpun : CmpFn := compare2 true false (fun _ _ => false)

end Sys2Proof.Machine
end

