-- ==== Sys2Proof/Machine/Cells.lean ====
section
/-! DEFINITION. Sparse lists in one canonical form, which every memory of the machine is held in, and little-endian
byte strings. -/

namespace Sys2Proof.Machine

/-- What a sparse list with default `d` holds at key `a`. -/
def Cells.get {α : Type} (d : α) : List (Nat × α) → Nat → α
  | [], _ => d
  | (k, v) :: r, a => if a = k then v else Cells.get d r a

/-- Puts an entry before the first larger key. -/
def Cells.insert {α : Type} : List (Nat × α) → Nat → α → List (Nat × α)
  | [], a, v => [(a, v)]
  | (k, w) :: r, a, v => if a < k then (a, v) :: (k, w) :: r else (k, w) :: Cells.insert r a v

/-- Writes `v` at key `a`, keeping keys ascending and holding no entry equal to the default. -/
def Cells.set {α : Type} [DecidableEq α] (d : α) (l : List (Nat × α)) (a : Nat) (v : α) : List (Nat × α) :=
  let rest := l.filter (fun c => c.1 != a)
  if v = d then rest else Cells.insert rest a v

/-- Keys are at least `lo` and ascending, and no entry equals the default. -/
def Cells.wfFrom {α : Type} [DecidableEq α] (d : α) : Nat → List (Nat × α) → Bool
  | _, [] => true
  | lo, (k, v) :: r => decide (lo ≤ k) && decide (v ≠ d) && Cells.wfFrom d (k + 1) r

/-- The canonical form of a sparse list. -/
def Cells.wf {α : Type} [DecidableEq α] (d : α) (l : List (Nat × α)) : Bool := Cells.wfFrom d 0 l

/-- What a byte of memory that nothing has written reads as (assumption 7). -/
def unwritten : Byte := 0

/-- The canonical form of a byte memory. -/
def Memory.wf (m : List Host.Cell) : Bool := Cells.wf unwritten m

/-- One byte of a byte memory. -/
def Memory.get (m : List Host.Cell) (a : Nat) : Byte := Cells.get unwritten m a

/-- Writes one byte of a byte memory. -/
def Memory.set (m : List Host.Cell) (a : Nat) (b : Byte) : List Host.Cell := Cells.set unwritten m a b

/-- Writes bytes at consecutive addresses. -/
def Memory.setList (m : List Host.Cell) (a : Nat) : List Byte → List Host.Cell
  | [] => m
  | b :: r => Memory.setList (Memory.set m a b) (a + 1) r

/-- Reads n bytes at consecutive addresses. -/
def Memory.getList (m : List Host.Cell) (a : Nat) : Nat → List Byte
  | 0 => []
  | n + 1 => Memory.get m a :: Memory.getList m (a + 1) n

/-- The number that bytes are in little-endian order (R31, R50). -/
def leNat : List Byte → Nat
  | [] => 0
  | b :: r => b.toNat + 256 * leNat r

/-- The n bytes of a number in little-endian order. -/
def leBytes : Nat → Nat → List Byte
  | 0, _ => []
  | n + 1, x => BitVec.ofNat 8 x :: leBytes n (x / 256)

/-- n zero bytes. -/
def zeros (n : Nat) : List Byte := List.replicate n 0

/-- Removes every entry whose key is in [lo, lo + n). -/
def Cells.clear {α : Type} (l : List (Nat × α)) (lo n : Nat) : List (Nat × α) :=
  l.filter (fun c => c.1 < lo || lo + n ≤ c.1)

/-- Replaces an element of a list by position. -/
def listSet {α : Type} : List α → Nat → α → List α
  | [], _, _ => []
  | _ :: r, 0, v => v :: r
  | x :: r, n + 1, v => x :: listSet r n v

/-- Element of a list by position, or a default. -/
def listGet {α : Type} (d : α) : List α → Nat → α
  | [], _ => d
  | x :: _, 0 => x
  | _ :: r, n + 1 => listGet d r n

end Sys2Proof.Machine
end

