-- ==== Sys2Proof/Machine/Mem.lean ====
section
/-! DEFINITION. The home store, the scalar cache, page tables, hardware copy-on-write, and single bytes of every kind of
memory (spec/20, spec/21; R28, R75, R304 to R306, R394). -/

namespace Sys2Proof.Machine

/-! ## The home store (R346) -/

/-- Physical addresses of a HOST page are kept apart from device addresses by this offset. -/
def hostBase : Nat := 2 ^ 52

/-- One byte of the home store. -/
def State.homeByte (s : State) (pa : Nat) : Byte := Memory.get s.mem pa

/-- n bytes of the home store as a number. -/
def State.homeNat (s : State) (pa n : Nat) : Nat := leNat (Memory.getList s.mem pa n)

/-- Writes bytes to the home store; data that could not be corrected is replaced. -/
def State.putHome (s : State) (pa : Nat) (bs : List Byte) : State :=
  { s with mem := Memory.setList s.mem pa bs
           poison := s.poison.filter (fun p => p < pa || pa + bs.length ≤ p) }

/-- Writes an n-byte number to the home store. -/
def State.putHomeNat (s : State) (pa n x : Nat) : State := s.putHome pa (leBytes n x)

/-- Any byte of the range holds data that cannot be corrected (R164). -/
def State.homeLost (s : State) (pa n : Nat) : Bool := s.poison.any (fun p => pa ≤ p && p < pa + n)

/-- First physical address of the view space (R304). -/
def viewBase : Nat := 0xF000000000000

/-- An address of the module's own global range as the local address it is (R394). -/
def State.canon (s : State) (pa : Nat) : Nat :=
  let b := (s.module_.toNat + 1) * 2 ^ 39
  if b ≤ pa && pa < b + 2 ^ 39 then pa - b else pa

/-- Local device memory (R342), without the ranges that retired channels have withdrawn (R413). -/
def State.isLocal (s : State) (pa : Nat) : Bool := pa < 2 ^ 39 - s.chret * 2 ^ 31

/-- The global ranges of the other modules (R394). -/
def isPeer (pa : Nat) : Bool := 2 ^ 39 ≤ pa && pa < 4097 * 2 ^ 39

/-- The module a global address belongs to (R394). -/
def peerOf (pa : Nat) : Nat := pa / 2 ^ 39 - 1

def isView (pa : Nat) : Bool := viewBase ≤ pa && pa < viewBase + 8 * 2 ^ 40

/-- The home stack of a byte: PA[13:11] in local device memory, and the stack that the address names in the view space (R304, R342). -/
def homeStack (pa : Nat) : Nat := if isView pa then (pa - viewBase) / 2 ^ 40 else pa / 2 ^ 11 % 8

/-- The channel of a local byte within its home stack: PA[18:14] (R342). -/
def homeChannel (pa : Nat) : Nat := pa / 2 ^ 14 % 32

/-- A byte at a physical address that hardware reads on its own, as a page walk or a view does: the module's own global range is local memory,
and what a peer holds is not the model's (R394, assumptions 95, 98). -/
def State.physByte (s : State) (pa : Nat) : Byte :=
  let a := s.canon pa
  if isPeer a then Config.farByte s.fresh a else s.homeByte a

/-- n such bytes as a number. -/
def State.physNat (s : State) (pa : Nat) : Nat → Nat
  | 0 => 0
  | n + 1 => (s.physByte pa).toNat + 256 * s.physNat (pa + 1) n

/-! ## The scalar cache (R343) -/

def State.findLine (s : State) (n : Nat) : Option Line := s.lines.find? (fun l => l.line == n)

/-- Byte i of a line. -/
def Line.byte (l : Line) (i : Nat) : Byte := l.data.extractLsb' (8 * i) 8

/-- Merges a byte into a line and marks it dirty. -/
def Line.put (l : Line) (i : Nat) (b : Byte) : Line :=
  { l with
    data := (l.data &&& ~~~((0xFF#512) <<< (8 * i))) ||| ((b.setWidth 512) <<< (8 * i))
    dirty := l.dirty ||| (1#64 <<< i) }

/-- Writes the dirty bytes of a line back to the home store (R348 step 2). -/
def State.flushBytes (s : State) (l : Line) : State :=
  (List.range 64).foldl (fun s i => if l.dirty.getLsbD i then s.putHome (64 * l.line + i) [l.byte i] else s) s

/-- Writes back the dirty bytes of line n and clears its dirty mask. -/
def State.flushLine (s : State) (n : Nat) : State :=
  match s.findLine n with
  | none => s
  | some l =>
    let s := s.flushBytes l
    { s with lines := s.lines.map (fun k => if k.line == n then { k with dirty := 0 } else k) }

/-- Discards line n. -/
def State.dropLine (s : State) (n : Nat) : State := { s with lines := s.lines.filter (fun l => l.line != n) }

/-- Lines that the scalar cache holds: 1 MiB − 256 KiB × Q (R233, R343). -/
def State.lineMax (s : State) : Nat := (2 ^ 20 - 2 ^ 18 * s.qcore.toNat) / 64

/-- Lines beyond the capacity leave, the first filled first, each written back as it leaves (R343, R348; assumption 81). -/
def State.fitLines (s : State) : State :=
  (s.lines.take (s.lines.length - s.lineMax)).foldl (fun s l => (s.flushLine l.line).dropLine l.line) s

/-- Fills line n from the home store if it is not held (R343). -/
def State.fillLine (s : State) (n : Nat) : State :=
  match s.findLine n with
  | some _ => s
  | none =>
    let l : Line := { line := n, data := BitVec.ofNat 512 (s.homeNat (64 * n) 64), dirty := 0 }
    State.fitLines { s with lines := s.lines ++ [l] }

/-- Recalls the sectors of a range: dirty bytes are written back and the lines dropped (R345). -/
def State.recall (s : State) (pa n : Nat) : State :=
  (List.range ((pa + n - 1) / 64 - pa / 64 + 1)).foldl (fun s i => (s.flushLine (pa / 64 + i)).dropLine (pa / 64 + i)) s

/-- A release step writes back every dirty byte of the core's scalar cache (R349). -/
def State.releaseLines (s : State) : State := (s.lines.map (·.line)).foldl State.flushLine s

/-- An acquire step writes back every dirty byte and discards every line (R349). -/
def State.acquireLines (s : State) : State := { s.releaseLines with lines := [] }

/-- Bytes of a cached page as the core's line holds them; the line is filled first. -/
def State.lineBytes (s : State) (pa n : Nat) : List Byte :=
  match s.findLine (pa / 64) with
  | some l => (List.range n).map (fun i => l.byte (pa % 64 + i))
  | none => Memory.getList s.mem pa n

/-- Whether a scalar read of a cached page meets data that cannot be corrected: a byte of the home store that no dirty
byte of the line covers. -/
def State.lineLost (s : State) (pa n : Nat) : Bool :=
  (List.range n).any (fun i => s.homeLost (pa + i) 1 &&
    !(match s.findLine (pa / 64) with | some l => l.dirty.getLsbD (pa % 64 + i) | none => false))

/-- Merges bytes of one line into the core's line. -/
def State.lineWrite (s : State) (pa : Nat) (bs : List Byte) : State :=
  let s := s.fillLine (pa / 64)
  { s with lines := s.lines.map (fun l =>
      if l.line == pa / 64 then
        ((List.range bs.length).zip bs).foldl (fun l p => l.put (pa % 64 + p.1) p.2) l
      else l) }

/-! ## Format windows (R304, R305) -/

/-- The enabled window of the view address and the view byte. -/
def State.findView (s : State) (pa : Nat) : Option (FWindow × Nat) :=
  let off := (pa - viewBase) % 2 ^ 40
  let slice := (s.fwins.drop (8 * homeStack pa)).take 8
  match slice.find? (fun w => w.en && w.voff ≤ off && off < w.voff + w.vlen) with
  | some w => some (w, off - w.voff)
  | none => none

/-- The 4-bit code of element j of an E2M1X tensor (R63). -/
def State.e2m1Code (s : State) (w : FWindow) (j : Nat) : Nat :=
  (s.physByte (w.sbase + j / 2)).toNat / (if j % 2 = 0 then 1 else 16) % 16

/-- Address of the outlier that an escape at element j reads (R64). -/
def State.outlierAddr (s : State) (w : FWindow) (j : Nat) : Nat :=
  let b := j / 256
  let before := ((List.range (j % 256)).filter (fun i => s.e2m1Code w (256 * b + i) = 8)).length
  w.outl + 2 * (s.physNat (w.offs + 4 * b) 4 + before)

/-- Twice the magnitude of an E2M1 code (R64). -/
def e2m1Mag (c : Nat) : Nat := listGet 0 [0, 1, 2, 3, 4, 6, 8, 12] (c % 8)

/-- Element j of an E2M1X view as BF16 bits (R64, R305). -/
def State.e2m1Bf16 (s : State) (w : FWindow) (j : Nat) : Nat :=
  let c := s.e2m1Code w j
  if c = 8 then s.physNat (s.outlierAddr w j) 2
  else
    let sc := s.physNat (w.scl + j / 32) 1
    if sc = 255 then Fmt.bf16.nanCode
    else (Fmt.bf16.round 0 (decide (8 ≤ c)) (e2m1Mag c) ((sc : Int) - 128) false).bits

/-- Element x of a BPN tensor read at k planes, as an unsigned 8-bit pattern (R65, R66). -/
def State.bpnByte (s : State) (w : FWindow) (x : Nat) : Nat :=
  let row := w.sbase + x / w.rown * w.rown
  let j := x % w.rown
  (List.range w.k).foldl (fun a p =>
    a + (s.physByte (row + p * (w.rown / 8) + j / 8)).toNat / 2 ^ (j % 8) % 2 * 2 ^ (7 - p)) 0

/-- One byte of a view range (R305). -/
def State.viewByte (s : State) (pa : Nat) : Byte :=
  match s.findView pa with
  | none => 0
  | some (w, x) =>
    if w.kind = 0 then (if w.rown = 0 then 0 else BitVec.ofNat 8 (s.bpnByte w x))
    else if w.rown ≤ x / 2 then 0
    else BitVec.ofNat 8 (s.e2m1Bf16 w (x / 2) / (if x % 2 = 0 then 1 else 256))

/-- The stored bytes that a byte of a view range is decoded from (R306). -/
def State.viewSources (s : State) (pa : Nat) : List Nat :=
  (match s.findView pa with
  | none => []
  | some (w, x) =>
    if w.kind = 0 then
      (if w.rown = 0 then []
       else (List.range w.k).map (fun p => w.sbase + x / w.rown * w.rown + p * (w.rown / 8) + x % w.rown / 8))
    else if w.rown ≤ x / 2 then []
    else
      let j := x / 2
      if s.e2m1Code w j = 8 then
        (List.range (j % 256 + 1)).map (fun i => w.sbase + (256 * (j / 256) + i) / 2) ++
          (List.range 4).map (fun i => w.offs + 4 * (j / 256) + i) ++ [s.outlierAddr w j, s.outlierAddr w j + 1]
      else [w.sbase + j / 2, w.scl + j / 32]).map s.canon

/-- The outlier that a view byte reads, where its physical address is not mapped: a translation fault at that address. Local memory, under either
of its names, counts as mapped, and nothing else does (R64, R394; assumption 98). -/
def State.viewFault (s : State) (pa : Nat) : Option Nat :=
  match s.findView pa with
  | none => none
  | some (w, x) =>
    if w.kind ≠ 0 && x / 2 < w.rown && s.e2m1Code w (x / 2) = 8 && !s.isLocal (s.canon (s.outlierAddr w (x / 2) + 1)) then
      some (s.outlierAddr w (x / 2))
    else none

/-! ## Page tables (R360 to R364) -/

def pteV (e : Word) : Bool := e.getLsbD 0
def pteT (e : Word) : Bool := e.getLsbD 1
def pteR (e : Word) : Bool := e.getLsbD 2
def pteW (e : Word) : Bool := e.getLsbD 3
def pteX (e : Word) : Bool := e.getLsbD 4
def pteU (e : Word) : Bool := e.getLsbD 5
def pteA (e : Word) : Bool := e.getLsbD 6
def pteD (e : Word) : Bool := e.getLsbD 7
def pteLock (e : Word) : Bool := e.getLsbD 8
def pteCow (e : Word) : Bool := e.getLsbD 9
def pteTol (e : Word) : Bool := e.getLsbD 10
def pteDev (e : Word) : Bool := e.getLsbD 11
def pteAddr (e : Word) : Nat := e.toNat / 2 ^ 13 % 2 ^ 39 * 2 ^ 13
def pteSync (e : Word) : Bool := e.getLsbD 52
def pteHscope (e : Word) : Nat := e.toNat / 2 ^ 53 % 4
def pteNospec (e : Word) : Bool := e.getLsbD 55
def pteHost (e : Word) : Bool := e.getLsbD 56

/-- Log2 of the page a leaf of the level maps (R360). -/
def pageLog (level : Nat) : Nat := 46 - 10 * level

/-- A leaf that R362 calls malformed. -/
def pteMalformed (level : Nat) (e : Word) : Bool :=
  decide (pteAddr e % 2 ^ (if pteTol e then 15 else pageLog level) ≠ 0) ||
  e.getLsbD 12 || decide (e.toNat / 2 ^ 57 ≠ 0) ||
  (pteTol e && (pteDev e || pteHost e || pteSync e || decide (level < 3))) ||
  (pteHost e && pteDev e) || (pteCow e && decide (level < 3))

/-- A leaf that translates an access: where the entry lies, the entry and its level. -/
structure Leaf where
  addr  : Nat
  e     : Word
  level : Nat
deriving DecidableEq, Repr

/-- Outcome of a page walk: a leaf or the cause of a fault (R361). -/
inductive Walk where
  | leaf (l : Leaf)
  | fault (c : BitVec 8)
deriving DecidableEq, Repr

/-- A page walk from level `level` with its table at `t`; `fuel` levels remain (R361). A table is read where its pointer says, under either
name of local memory (R394, assumption 98). -/
def State.walkFrom (s : State) (va : Nat) : Nat → Nat → Nat → Walk
  | 0, _, _ => .fault 0x19
  | fuel + 1, level, t =>
    let addr := s.canon (t + 8 * (va / 2 ^ (46 - 10 * level) % 1024))
    let e : Word := BitVec.ofNat 64 (s.physNat addr 8)
    if !pteV e then .fault 0x18
    else if pteT e && decide (level < 3) then s.walkFrom va fuel (level + 1) (pteAddr e)
    else if decide (level = 0) || pteT e || pteMalformed level e then .fault 0x19
    else .leaf { addr := addr, e := e, level := level }

/-- The context of a number (R360). -/
def State.ctxOf (s : State) (num : BitVec 12) : Option Ctx := s.ctxs.find? (fun c => c.num == num)

/-- A page walk in a context. -/
def State.walk (s : State) (ctx : BitVec 12) (va : Nat) : Walk :=
  match s.ctxOf ctx with
  | some c => s.walkFrom va 4 0 c.root
  | none => .fault 0x18

/-- Two entries map alike when they differ at most in A and D. -/
def sameLeaf (a b : Word) : Bool := (a ||| 0xC0#64) == (b ||| 0xC0#64)

/-- The held translation that covers an address (R365). -/
def State.tlbFind (s : State) (ctx : BitVec 12) (va : Nat) : Option TlbEntry :=
  s.tlb.find? (fun t => t.ctx == ctx && t.vpage == va / 2 ^ pageLog t.level)

/-- Removes the entries that a leaf gave. -/
def State.tlbDrop (s : State) (addr : Nat) : State := { s with tlb := s.tlb.filter (fun t => t.addr != addr) }

/-- Entries that the core's L1 TLB and its die's L2 TLB hold (R3, R365). -/
def tlbMax : Nat := 128 + 16384

/-- Holds a translation; beyond the capacity the oldest entry leaves (assumption 11). -/
def State.tlbPut (s : State) (ctx : BitVec 12) (va : Nat) (l : Leaf) : State :=
  let rest := s.tlb.filter (fun t => !(t.ctx == ctx && t.vpage == va / 2 ^ pageLog t.level))
  { s with tlb := rest.drop (rest.length + 1 - tlbMax) ++
      [{ ctx := ctx, vpage := va / 2 ^ pageLog l.level, level := l.level, pte := l.e, addr := l.addr }] }

/-- Translates an address to a leaf. When a held entry no longer agrees with the tables, either may be used (R366): a
free choice (assumption 11). -/
def State.lookup (s : State) (ctx : BitVec 12) (va : Nat) : State × Walk :=
  let w := s.walk ctx va
  match s.tlbFind ctx va with
  | none =>
    match w with
    | .leaf l => (s.tlbPut ctx va l, w)
    | .fault _ => (s, w)
  | some t =>
    let agree := match w with | .leaf l => l.addr == t.addr && sameLeaf l.e t.pte | .fault _ => false
    if agree then (s, w)
    else if Config.freeChoice s.fresh then
      ({ s with fresh := s.fresh + 1 }, .leaf { addr := t.addr, e := t.pte, level := t.level })
    else
      let s := { s.tlbDrop t.addr with fresh := s.fresh + 1 }
      match w with
      | .leaf l => (s.tlbPut ctx va l, w)
      | .fault _ => (s, w)

/-- Kinds of access that permissions distinguish (R363); `store` is a scalar store, `write` every other one. -/
inductive AccKind where
  | read | write | store | fetch
deriving DecidableEq, Repr

def AccKind.writes (k : AccKind) : Bool := k == .write || k == .store

/-- The leaf's permissions admit the access; a scalar store above user level may reach a COW page of code, and then performs in the
copy that it has made (R363, R372). -/
def permits (lvl : Level) (k : AccKind) (copied : Bool) (e : Word) : Bool :=
  (match k with
   | .read => pteR e
   | .fetch => pteX e
   | .write => pteW e
   | .store => pteW e || (decide (lvl ≠ .user) && pteX e && (pteCow e || copied))) &&
  (decide (lvl ≠ .user) || pteU e)

/-- Outcome of translating one access to one page. -/
inductive Xl where
  | ok (s : State) (l : Leaf)
  | fault (s : State) (c : BitVec 8)
  | wait (s : State)

/-- Translates and checks permissions; a page whose copy is in progress makes the access wait (R361, R363, R372). -/
def State.xlate (s : State) (ctx : BitVec 12) (lvl : Level) (k : AccKind) (copied : List Nat) (va : Nat) : Xl :=
  match s.lookup ctx va with
  | (s, .fault c) => .fault s c
  | (s, .leaf l) =>
    if pteLock l.e then .wait (s.tlbDrop l.addr)
    else if permits lvl k (copied.contains l.addr) l.e then .ok s l else .fault s 0x19

/-- Sets A, and D for a write, with an atomic OR on the entry (R364). -/
def State.touch (s : State) (l : Leaf) (write : Bool) : State :=
  let need : Word := (if pteA l.e then 0 else 0x40) ||| (if write && !pteD l.e then 0x80 else 0)
  if need = 0 then s
  else
    let s := s.recall l.addr 8
    let e := BitVec.ofNat 64 (s.homeNat l.addr 8) ||| need
    let s := s.putHomeNat l.addr 8 e.toNat
    { s with tlb := s.tlb.map (fun t => if t.addr == l.addr then { t with pte := t.pte ||| need } else t) }

/-- Outcome of a write that meets a COW leaf (R372). -/
inductive CowRes where
  | none
  | wait (s : State)
  | empty (s : State)

/-- Steps 1 to 3 of the hardware copy: a write to a COW page locks the entry, takes a frame and waits; with the pool empty it
faults (R372). -/
def State.cowStart (s : State) (l : Leaf) : CowRes :=
  if !pteCow l.e then .none
  else
    let s := s.recall l.addr 8
    let now : Word := BitVec.ofNat 64 (s.homeNat l.addr 8)
    let s := s.tlbDrop l.addr
    if pteLock now || !pteCow now then .wait s
    else match s.pool with
      | [] => .empty s
      | f :: rest =>
        let s := s.putHomeNat l.addr 8 (now ||| 0x100#64).toNat
        .wait { s with pool := rest
                       cows := s.cows ++ [{ leaf := l.addr, old := s.canon (pteAddr now) + (if pteHost now then hostBase else 0)
                                            frame := f, tol := pteTol now }] }

/-- Copies n bytes of a frame to a local one; those of a peer or of the host are not the model's (R372, assumption 95). -/
def State.copyFrame (s : State) (old frame n : Nat) : State :=
  if s.isLocal (old + n - 1) then s.putHome frame (Memory.getList s.mem old n)
  else (State.putHome { s with fresh := s.fresh + 1 } frame ((List.range n).map (fun i => Config.farByte s.fresh (old + i))))

/-- Steps 4 and 5: the page is copied and the entry rewritten in one store: it names the new frame, which is local memory (R372). -/
def State.cowFinish (s : State) (c : Cow) : State :=
  let n := if c.tol then 2 ^ 15 else 2 ^ 16
  let s := ((s.recall c.old n).recall c.frame n).recall c.leaf 8
  let s := s.copyFrame c.old c.frame n
  let now : Word := BitVec.ofNat 64 (s.homeNat c.leaf 8)
  let keep := now &&& ~~~(0x010FFFFFFFFFE300#64)
  let e := keep ||| BitVec.ofNat 64 (c.frame / 2 ^ 13 * 2 ^ 13) ||| 0xC0#64
  let s := s.putHomeNat c.leaf 8 e.toNat
  { s with cows := s.cows.filter (fun d => d.leaf != c.leaf) }

/-- The copy of a page taken in one step with the access that needs it; a copy in progress ends first (R372). -/
def State.copyNow (s : State) (l : Leaf) : State :=
  match s.cowStart l with
  | .wait s => (match s.cows.find? (fun c => c.leaf == l.addr) with | some c => s.cowFinish c | none => s)
  | _ => s

/-! ## Single bytes of every kind of memory -/

/-- The place of a virtual byte under its leaf (R361, R367, R394). -/
def State.locOf (s : State) (l : Leaf) (va : Nat) : Loc :=
  let pg := pageLog l.level
  let base := pteAddr l.e
  if pteTol l.e then
    let f := s.canon base
    if s.isLocal (f + 2 ^ 15 - 1) then .tol f (va % 2 ^ pg) else if isPeer f then .ptol f (va % 2 ^ pg) else .nowhere
  else if pteHost l.e then .host (hostBase + base / 2 ^ pg * 2 ^ pg + va % 2 ^ pg)
  else
    let pa := s.canon (base / 2 ^ pg * 2 ^ pg + va % 2 ^ pg)
    if s.isLocal pa then .home pa
    else if isPeer pa then .peer pa
    else if isView pa && (s.findView pa).isSome then .view pa
    else .nowhere

/-- Where a byte of a TOL page is stored in its frame; the two low bytes of a word are not (R367). -/
def tolByte (frame off : Nat) : Option Nat := if off % 4 < 2 then none else some (frame + off / 4 * 2 + (off % 4 - 2))

/-- A byte of the home store by its address on the fabric: what a peer holds is not the model's (assumption 95). -/
def State.fabricByte (s : State) (pa : Nat) : Byte := if isPeer pa || hostBase ≤ pa then Config.farByte s.fresh pa else s.homeByte pa

/-- The byte at a place, as the home store or the scratchpad holds it. -/
def State.locByte (s : State) : Loc → Byte
  | .sp off => Memory.get s.sp off
  | .home pa => s.homeByte pa
  | .tol frame off | .ptol frame off => match tolByte frame off with | some pa => s.fabricByte pa | none => 0
  | .view pa => s.viewByte pa
  | .peer pa => s.fabricByte pa
  | .host pa => s.fabricByte pa
  | .nowhere => 0

/-- Whether the byte at a place cannot be corrected (R164). -/
def State.locLost (s : State) : Loc → Bool
  | .sp off => s.spPoison.contains off
  | .home pa => s.poison.contains pa
  | .tol frame off | .ptol frame off => match tolByte frame off with | some pa => s.poison.contains pa | none => false
  | .view pa => (s.viewSources pa).any (fun a => s.poison.contains a)
  | .peer pa => s.poison.contains pa
  | .host pa => s.poison.contains pa
  | .nowhere => false

/-- The stored bytes behind a place, as numbers of their own for the scratchpad: two accesses meet where they share one. The low half of a word of a
TOL page is in no store, and stands for its whole word (R306, R367). -/
def State.units (s : State) : Loc → List Nat
  | .sp off => [2 ^ 61 + off]
  | .home pa | .peer pa | .host pa => [pa]
  | .tol f off | .ptol f off => [f + off / 4 * 2, f + off / 4 * 2 + 1]
  | .view pa => s.viewSources pa
  | .nowhere => []

/-- Two accesses share a stored byte, under whatever mapping (R83, R160). -/
def State.placesMeet (s : State) (a b : List Loc) : Bool :=
  a.any (fun x => b.any (fun y => (s.units x).any (fun u => (s.units y).contains u)))

/-- Writes one scratchpad byte. -/
def State.putSp (s : State) (off : Nat) (b : Byte) : State :=
  { s with sp := Memory.set s.sp off b, spPoison := s.spPoison.filter (fun p => p != off) }

/-- Writes scratchpad bytes. -/
def State.putSpList (s : State) (off : Nat) : List Byte → State
  | [] => s
  | b :: r => (s.putSp off b).putSpList (off + 1) r

/-- The high half of word j of a TOL frame after one store: its bytes merged and rounded (R75, R76). -/
def State.tolMerge (s : State) (frame j : Nat) (bs : List (Nat × Byte)) : Nat :=
  let old := (List.range 4).map (fun k => s.locByte (.tol frame (4 * j + k)))
  tolRound (leNat (bs.foldl (fun w p => listSet w p.1 p.2) old))

/-- One store's update of word j of a TOL frame: merge its bytes, round, and write the high half (R75, R76, R367). -/
def State.putTolWord (s : State) (frame j : Nat) (bs : List (Nat × Byte)) : State :=
  s.putHomeNat (frame + 2 * j) 2 (s.tolMerge frame j bs)

/-- The bytes of one store that fall in word j of a TOL frame. -/
def tolPart (frame j : Nat) (l : List (Loc × Byte)) : List (Nat × Byte) :=
  l.filterMap (fun p => match p.1 with
    | .tol f off | .ptol f off => if f = frame && off / 4 = j then some (off % 4, p.2) else none
    | _ => none)

/-- The TOL words that a store touches. -/
def tolWords (l : List (Loc × Byte)) : List (Nat × Nat) :=
  (l.filterMap (fun p => match p.1 with | .tol f off => some (f, off / 4) | _ => none)).dedup

/-- Writes a byte that lies outside TOL pages. -/
def State.putByte (s : State) (p : Loc × Byte) : State :=
  match p.1 with
  | .sp off => s.putSp off p.2
  | .home pa => s.putHome pa [p.2]
  | .peer pa => s.putHome pa [p.2]
  | .host pa => s.putHome pa [p.2]
  | _ => s

/-- Performs one store of bytes at their places; each TOL word is merged and rounded once (R76). -/
def State.putLocs (s : State) (l : List (Loc × Byte)) : State :=
  (tolWords l).foldl (fun s w => s.putTolWord w.1 w.2 (tolPart w.1 w.2 l)) (l.foldl State.putByte s)

/-- Recalls the sector of a byte that a scalar cache may hold, under whatever mapping; for a view byte, the sectors that it is decoded from
(R306, R345). -/
def State.recallLoc (s : State) : Loc → State
  | .home pa => s.recall pa 1
  | .tol frame off => s.recall (frame + off / 4 * 2) 1
  | .view pa => (s.viewSources pa).foldl (fun s a => s.recall a 1) s
  | _ => s

/-- The fault of an access to one byte at a place, by what lies there (R64, R155, R306, R394). -/
def State.byteFault (s : State) (write : Bool) (a : Nat) (x : Loc) : Option (BitVec 8 × Nat) :=
  match x with
  | .nowhere => some (0x10, a)
  | .view pa => if write then some (0x1A, a) else (s.viewFault pa).map (fun y => (0x18, y))
  | _ => none

/-- The first such fault of the bytes from address a on. -/
def State.bytesFault (s : State) (write : Bool) (a : Nat) (locs : List Loc) : Option (BitVec 8 × Nat) :=
  ((List.range locs.length).zip locs).findSome? (fun p => s.byteFault write (a + p.1) p.2)

/-! ## Bytes that a peer or the host holds (R346, R356, R357) -/

/-- The bus address of a byte that a peer or the host holds. -/
def Loc.remote? : Loc → Option Nat
  | .peer pa | .host pa => some pa
  | .ptol frame off => tolByte frame off
  | _ => none

/-- A place in a HOST page or in peer memory. -/
def Loc.far : Loc → Bool
  | .peer _ | .host _ | .ptol _ _ => true
  | _ => false

/-- Runs of consecutive bus addresses among the places of an access. -/
def remoteRuns (locs : List Loc) : List (Nat × Nat) :=
  (locs.foldl (fun a x =>
    match x.remote?, a with
    | some pa, (p, n) :: r => if p + n = pa then (p, n + 1) :: r else (pa, 1) :: (p, n) :: r
    | some pa, [] => [(pa, 1)]
    | none, a => a) []).reverse

/-- Bytes of an access: local ones as they lie, and those that a reply brings. -/
def State.gatherBytes (s : State) : List Loc → List Byte → List Byte
  | [], _ => []
  | x :: r, remote =>
    match x.remote? with
    | some _ => remote.headD 0 :: s.gatherBytes r remote.tail
    | none => s.locByte x :: s.gatherBytes r remote

/-- The writes that the remote part of a store sends: its bytes, or the rounded high half of each word of a TOL page, which the owner
merges (R75, R357, R367; assumption 93). -/
def State.remoteWrites (s : State) (locs : List Loc) (bs : List Byte) : List (Nat × List Byte) :=
  let ps := locs.zip bs
  let plain := (remoteRuns (locs.filter (fun x => match x with | .ptol _ _ => false | _ => true))).map (fun r =>
    (r.1, ps.filterMap (fun q => match q.1 with
      | .peer pa | .host pa => if r.1 ≤ pa && pa < r.1 + r.2 then some q.2 else none
      | _ => none)))
  let words := (locs.filterMap (fun x => match x with | .ptol f off => some (f, off / 4) | _ => none)).dedup
  plain ++ words.map (fun w => (w.1 + 2 * w.2, leBytes 2 (s.tolMerge w.1 w.2 (tolPart w.1 w.2 ps))))

/-- Adds a request that leaves the core in the name of a context, which its waybill names (R397); one to the host goes to function fn of its link. -/
def State.sendTo (s : State) (fn : Nat) (ctx : BitVec 12) (who : ReqFor) (pa : Nat) (op : BusOp) (st : ReqStatus) (locs : List Loc) : State :=
  { s with seq := s.seq + 1, reqs := s.reqs ++ [{ id := s.seq, fn := fn, who := who, pa := pa, op := op, status := st
                                                  waybill := ctx.setWidth 16, locs := locs }] }

/-- Adds a request for which the function does not matter. -/
def State.send (s : State) (ctx : BitVec 12) (who : ReqFor) (pa : Nat) (op : BusOp) (st : ReqStatus) : State := s.sendTo 0 ctx who pa op st []

/-- Sends the read of a remote run for an access whose bytes have their places at locs (R157). -/
def State.sendRead (s : State) (ctx : BitVec 12) (who : ReqFor) (locs : List Loc) (run : Nat × Nat) : State :=
  s.sendTo 0 ctx who run.1 (.read run.2) .sent locs

/-- The PCIe function of its link that carries a context's accesses to HOST pages: the one that owns the context (R390, R420;
assumption 84). -/
def State.hostFn (s : State) (ctx : BitVec 12) : Nat := match s.ctxOf ctx with | some c => c.owner.fn.val | none => 0

/-- Sends the remote writes of a store in the name of `who`; a write to the host performs as it is sent (R347, R356, R357). -/
def State.sendWrites (s : State) (ctx : BitVec 12) (who : ReqFor) (locs : List Loc) (bs : List Byte) : State :=
  (s.remoteWrites locs bs).foldl (fun s p =>
    if hostBase ≤ p.1 then (s.putHome p.1 p.2).sendTo (s.hostFn ctx) ctx .posted p.1 (.write p.2) (.answered 0) []
    else s.send ctx who p.1 (.write p.2) .sent) s

/-- Writes bytes as one store: those on the core and in local memory are written, remote ones are sent in the name of `who` (R76, R157,
R356, R357). -/
def State.writeBytes (s : State) (ctx : BitVec 12) (who : ReqFor) (locs : List Loc) (bs : List Byte) : State :=
  (s.putLocs ((locs.zip bs).filter (fun p => !p.1.far))).sendWrites ctx who locs bs

end Sys2Proof.Machine
end

