-- ==== Sys2Proof/Machine/Ranges.lean ====
section
/-! DEFINITION. The scratchpad window and the ranges of engine commands: what each command that is posted and not yet complete
reads and writes, and from it the owner of a tile (R28 to R30, R289 to R294). -/

namespace Sys2Proof.Machine

/-- First virtual address of the scratchpad window (R28). -/
def winBase : Nat := 0xFFFFFFFF000000

/-- A virtual address of the window (R28). -/
def inWindow (va : Nat) : Bool := winBase ≤ va && va < winBase + 2 ^ 24

/-- Bytes of the window that exist (R28). -/
def spSize : Nat := 0x180000

/-- A scratchpad extent: first offset and length in bytes. -/
abbrev Extent := Nat × Nat

/-- The part of n bytes at a virtual address that lies in the window, as an extent. -/
def winPart (va n : Nat) : List Extent :=
  let lo := max va winBase
  let hi := min (va + n) (winBase + 2 ^ 24)
  if lo < hi then [(lo - winBase, hi - lo)] else []

/-- A modulo-2^64 address. -/
def addr64 (x : Int) : Nat := (x % (2 ^ 64 : Int)).toNat

/-- Start of run e on a side of a CPY (R311). -/
def runStart (base : Word) (d1 d2 : Word) (n1 e : Nat) : Nat :=
  addr64 (base.toNat + (e % n1 : Nat) * d1.toInt + (e / n1 : Nat) * d2.toInt)

/-- The scratchpad extents of one side of a CPY. -/
def cpyExtents (base : Word) (n0 n1 n2 : Nat) (d1 d2 : Word) : List Extent :=
  (List.range (n1 * n2)).flatMap (fun e => winPart (runStart base d1 d2 n1 e) n0)

/-- Width in bytes of a panel format code (R327). -/
def panelWidth (code : Nat) : Nat := if code = 3 then 2 else 1

/-- Planes read under a BF code (R327): 8 for the formats that are no BPN. -/
def bpnPlanes (code : Nat) : Nat := code - 6

/-- Bytes of a grid (R315): its dimensions and the width of its format code. -/
def gridWidth (code : Nat) : Nat := if code = 0 then 8 else if code = 1 then 4 else 2

def gridBytes (nx ny nz code : Nat) : Nat := nx * ny * nz * gridWidth code

/-- Whether the destination grid of a CPYMG is the fine one (R315). -/
def mgFineDest (op : Nat) : Bool := 2 ≤ op

def mgDestBytes (nx ny nz op df : Nat) : Nat :=
  if mgFineDest op then gridBytes nx ny nz df else gridBytes (nx / 2) (ny / 2) (nz / 2) df

def mgSrcBytes (nx ny nz op sf : Nat) : Nat :=
  if mgFineDest op then gridBytes (nx / 2) (ny / 2) (nz / 2) sf else gridBytes nx ny nz sf

/-- Scratchpad extents of the source of a CPYMG. An inject reads the points (2x, 2y, 2z) alone; along a grid line they lie closer than the
rows of R30 (R294, R316). -/
def mgReads (sa nx ny nz op sf : Nat) : List Extent :=
  let whole := winPart sa (mgSrcBytes nx ny nz op sf)
  let w := gridWidth sf
  if op ≠ 1 || whole = [] then whole
  else (List.range (nz / 2)).flatMap (fun z => (List.range (ny / 2)).flatMap (fun y =>
    winPart (sa + (2 * z * ny + 2 * y) * nx * w) ((nx - 2) * w + w)))

/-- Scratchpad extents that a Courier command reads (R294). -/
def CmdKind.reads : CmdKind → List Extent
  | .cpy _ sa n0 n1 n2 _ ss1 _ ss2 => cpyExtents sa n0 n1 n2 ss1 ss2
  | .cpyg _ _ _ _ _ _ _ => []
  | .cpys sp _ rb n _ _ _ => winPart sp.toNat (n * rb)
  | .cpymg _ sa nx ny nz op _ sf _ _ => mgReads sa.toNat nx ny nz op sf
  | .cwtld src _ => winPart src.toNat 512
  | .csbar _ => []
  | .mmav x _ _ _ n _ => winPart x.toNat n

/-- Scratchpad extents that a Courier command writes (R294). -/
def CmdKind.writes : CmdKind → List Extent
  | .cpy da _ n0 n1 n2 ds1 _ ds2 _ => cpyExtents da n0 n1 n2 ds1 ds2
  | .cpyg sp _ rb n _ _ _ => winPart sp.toNat (n * rb)
  | .cpys _ _ _ _ _ _ _ => []
  | .cpymg da _ nx ny nz op _ _ df _ => winPart da.toNat (mgDestBytes nx ny nz op df)
  | .cwtld _ _ => []
  | .csbar _ => []
  | .mmav _ _ y rows _ _ => winPart y.toNat (4 * rows)

/-- Scratchpad extents that element e of a Courier command writes (R296, R311 to R318). -/
def CmdKind.elemWrites (k : CmdKind) (e : Nat) : List Extent :=
  match k with
  | .cpy da _ n0 n1 _ ds1 _ ds2 _ => winPart (runStart da ds1 ds2 n1 e) n0
  | .cpyg sp _ rb _ _ _ _ => winPart (sp.toNat + e * rb) rb
  | .cpymg da _ _ _ _ _ _ _ df _ => winPart (da.toNat + e * gridWidth df) (gridWidth df)
  | .mmav _ _ y _ _ _ => winPart (y.toNat + 4 * e) 4
  | _ => []

/-- Number of elements of a command (R297, R321). -/
def CmdKind.count : CmdKind → Nat
  | .cpy _ _ _ n1 n2 _ _ _ _ => n1 * n2
  | .cpyg _ _ _ n _ _ _ => n
  | .cpys _ _ _ n _ _ _ => n
  | .cpymg _ _ nx ny nz op _ _ _ _ => if mgFineDest op then nx * ny * nz else nx / 2 * (ny / 2) * (nz / 2)
  | .cwtld _ _ => 1
  | .csbar _ => 0
  | .mmav _ _ _ rows _ _ => rows

/-- K-groups of a panel (R67). -/
def Panel.groups (p : Panel) : Nat := (p.k + 15) / 16

/-- Scratchpad extents that K-group g of row m of an MMA reads (R67, R299). -/
def Panel.groupReads (p : Panel) (x y m g : Nat) : List Extent :=
  let n := min 16 (p.k - 16 * g)
  let wa := panelWidth p.af
  (x + (m * p.k + 16 * g) * wa, n * wa) ::
    (if p.bf < 8 then [(y + 16 * g * p.n * panelWidth p.bf, n * p.n * panelWidth p.bf)]
     else (List.range p.n).flatMap (fun c => (List.range (bpnPlanes p.bf)).map (fun q => (y + c * p.k + q * (p.k / 8) + 2 * g, 2))))

/-- Width in bytes of an MST format (R331). -/
def mstWidth (f : Nat) : Nat := listGet 1 [4, 2, 1, 1, 4, 2, 1] f

/-- Scratchpad extents that a matrix command reads (R299). -/
def MatOp.reads : MatOp → List Extent
  | .mma _ x y p =>
    (x, p.m * p.k * panelWidth p.af) ::
      (if p.bf < 8 then [(y, p.k * p.n * panelWidth p.bf)]
       else (List.range p.n).map (fun c => (y + c * p.k, bpnPlanes p.bf * p.k / 8)))
  | _ => []

/-- Scratchpad extents that a matrix command writes (R299). -/
def MatOp.writes : MatOp → List Extent
  | .mst _ x f p _ => [(x, p.m * p.n * mstWidth f)]
  | _ => []

/-- Size of a record of the class (R375). -/
def recSize (rsz : Nat) : Nat := 16 * (rsz + 1)

def spoolExtents (rsz : Nat) (spools : List PkSpool) : List Extent :=
  spools.map (fun q => (q.base, q.cap * recSize rsz))

def PikeOp.reads : PikeOp → List Extent
  | .feed a n _ rsz _ => [(a, n * recSize rsz)]
  | _ => []

def PikeOp.writes : PikeOp → List Extent
  | .feed _ _ _ rsz spools => spoolExtents rsz spools
  | _ => []

/-- The rows of 256 bytes that an extent touches include the row (R30, R293). -/
def Extent.hitsRow (x : Extent) (row : Nat) : Bool := 0 < x.2 && x.1 / 256 ≤ row && row ≤ (x.1 + x.2 - 1) / 256

/-- The extent touches the tile (R30). -/
def Extent.hitsTile (x : Extent) (t : Nat) : Bool := 0 < x.2 && x.1 / 4096 ≤ t && t ≤ (x.1 + x.2 - 1) / 4096

/-- Two extents touch a common row (R293). -/
def Extent.shareRow (x y : Extent) : Bool :=
  0 < x.2 && 0 < y.2 && x.1 / 256 ≤ (y.1 + y.2 - 1) / 256 && y.1 / 256 ≤ (x.1 + x.2 - 1) / 256

def shareRows (a b : List Extent) : Bool := a.any (fun x => b.any (fun y => Extent.shareRow x y))

/-- The command has freed its tiles and waits for its counter add (R292, R297). -/
def Cmd.freed (c : Cmd) : Bool :=
  match c.st with
  | .adding => true
  | .parked _ _ _ _ counter => counter
  | _ => false

/-- Scratchpad extents that a Courier command has still to write. -/
def Cmd.left (c : Cmd) : List Extent :=
  if c.kind.writes = [] || c.freed then []
  else
    let done := c.xfer.foldl (fun (a : Array Bool) e => a.setIfInBounds e true) (Array.replicate c.kind.count false)
    ((List.range c.kind.count).filter (fun e => !(done[e]?.getD true))).flatMap c.kind.elemWrites

/-- The place of a virtual byte of a thread's context. -/
def State.placeOf (s : State) (ctx : BitVec 12) (a : Nat) : Option Loc :=
  if inWindow a then some (.sp (a - winBase))
  else match s.walk ctx a with
    | .leaf l => some (s.locOf l a)
    | .fault _ => none

/-- Eight bytes at a virtual address as they stand. -/
def State.peek (s : State) (ctx : BitVec 12) (a : Nat) : Nat :=
  leNat ((List.range 8).map (fun i => match s.placeOf ctx (a + i) with | some l => s.locByte l | none => 0))

/-- Scratchpad extents that the walk of a CWALK with its descriptor at d reads: the descriptor, and the levels that it names as the command posts
(R294, R335; assumption 83). -/
def State.walkReads (s : State) (ctx : BitVec 12) (d : Nat) : List Extent :=
  let l := s.peek ctx d % 8
  let levels := if 2 ≤ l && l ≤ 4 then l else 0
  winPart d (8 + 8 * levels) ++
  (List.range levels).flatMap (fun l => winPart (s.peek ctx (d + 8 + 8 * l)) (8 * 64 ^ l))

/-- An engine command that is posted and not complete: its post number, the scratchpad extents that it reads and writes, and whether it has
freed its tiles (R289, R292, R293). -/
structure Posted where
  seq    : Nat
  reads  : List Extent
  writes : List Extent
  freed  : Bool

/-- The walks under way of a slot's thread, in their place in the post order (R290). -/
def Thread.walks (t : Thread) : List Posted :=
  if !t.occupied || t.held then []
  else t.vec.window.filterMap (fun r => match r.instr with
    | .cwalk _ _ _ _ => if r.mark then some { seq := r.post, reads := r.tiles, writes := [], freed := false } else none
    | _ => none)

/-- Every engine command that is posted and not complete (R290, R293). -/
def State.posted (s : State) : List Posted :=
  s.cmds.map (fun c => { seq := c.seq, reads := c.kind.reads, writes := c.kind.writes, freed := c.freed }) ++
  s.matQ.map (fun c => { seq := c.seq, reads := c.op.reads, writes := c.op.writes, freed := false }) ++
  (s.pike.queue ++ s.pike.feeds).map (fun c => { seq := c.seq, reads := c.op.reads, writes := c.op.writes, freed := false }) ++
  s.threads.toList.flatMap Thread.walks

/-- Post number of every such command with the scratchpad extents that it has still to write. -/
def State.unlanded (s : State) : List (Nat × List Extent) :=
  s.cmds.map (fun c => (c.seq, c.left)) ++ s.matQ.map (fun c => (c.seq, c.op.writes)) ++
  (s.pike.queue ++ s.pike.feeds).map (fun c => (c.seq, c.op.writes))

/-- Number of commands whose range touches the tile (R289). -/
def State.tileUses (s : State) (t : Nat) : Nat :=
  (s.posted.filter (fun p => !p.freed && (p.reads ++ p.writes).any (fun x => Extent.hitsTile x t))).length

/-- The tile's OWNER is ENGINE (R289). -/
def State.tileBusy (s : State) (t : Nat) : Bool := 0 < s.tileUses t

/-- Some tile of n bytes at a scratchpad offset is owned by ENGINE (R291). -/
def State.spBusy (s : State) (off n : Nat) : Bool :=
  s.tileBusy (off / 4096) || s.tileBusy ((off + n - 1) / 4096)

/-- The range checker: a read of r waits for the rows that an earlier command has still to write, and a write of w for every earlier
command, not complete, that reads or writes its rows (R293). -/
def State.rangeHeld (s : State) (seq : Nat) (r w : List Extent) : Bool :=
  (w != [] && s.posted.any (fun p => p.seq < seq && (shareRows p.writes w || shareRows p.reads w))) ||
  (r != [] && s.unlanded.any (fun p => p.1 < seq && shareRows p.2 r))

/-- The Turnpike has still to fill a row of one of its spools. -/
def Pike.rowOpen (k : Pike) (row : Nat) : Bool :=
  ((List.range 8).zip k.conf.spools).any (fun q =>
    let size := recSize k.conf.rsz
    let x : Extent := (q.2.base, q.2.cap * size)
    x.hitsRow row && decide (q.2.base + (k.spoolCnt[q.1]?.getD 0) * size < min (256 * row + 256) (x.1 + x.2)))

/-- The rows of a tile that a command has begun to write and has not finished (R289). A Courier command has begun a row once an element
that writes it has transferred, a feed once it has spooled a record there, and it finishes the row as the spool fills it, or as it completes. -/
def State.landing (s : State) (row : Nat) : Bool :=
  s.cmds.any (fun c => !c.freed && c.left.any (fun x => Extent.hitsRow x row) &&
    (c.xfer.flatMap c.kind.elemWrites).any (fun x => Extent.hitsRow x row)) ||
  (s.pike.queue ++ s.pike.feeds).any (fun c => s.pike.begun.contains (c.seq, row)) && s.pike.rowOpen row

/-- The state word of a tile (R289). -/
def State.tileWord (s : State) (t : Nat) : Nat :=
  let uses := s.tileUses t
  (if 0 < uses then 1 else 0) + 2 * (uses % 2 ^ 11) +
  ((List.range 16).map (fun n => if s.landing (16 * t + n) then 0 else 2 ^ (12 + n))).sum

end Sys2Proof.Machine
end

