-- ==== Sys2Proof/Machine/Party.lean ====
section
/-! DEFINITION. What the Innkeeper keeps for parties and tasks and what threads reach of it: barriers, pools, task record
status, interrupts, lane counts and the leaving of a thread (spec/13, spec/14, spec/16, spec/24 R393). -/

namespace Sys2Proof.Machine

/-! ## Threads of the core -/

/-- The thread in a slot. -/
def State.th (s : State) (sl : Slot) : Thread := s.threads.get sl

/-- Replaces the thread of a slot. -/
def State.setTh (s : State) (sl : Slot) (t : Thread) : State := { s with threads := s.threads.set sl t }

/-- The other slot. -/
def other (sl : Slot) : Slot := if sl = 0 then 1 else 0

/-- The core's grant factor: the least G among the contexts that have a thread on the core (R237); 8 with none. -/
def State.gfact (s : State) : Nat :=
  s.threads.toList.foldl (fun g t =>
    if t.occupied then (match s.ctxOf t.ctx with | some c => min g c.g.toNat | none => g) else g) 8

/-- CORESPEED.EFF (R24). -/
def State.eff (s : State) : Nat :=
  let e := s.testmax.toNat * s.gfact / 8
  if s.droop then e / 2 else e

/-- One more uncorrectable error on the core's die (R410). -/
def State.addUe (s : State) : State :=
  { s with errs := s.errs.set s.die.toFin { (s.errs.get s.die.toFin) with
      ue := if (s.errs.get s.die.toFin).ue = BitVec.allOnes 64 then BitVec.allOnes 64 else (s.errs.get s.die.toFin).ue + 1 } }

/-- Saturating increment of a 64-bit count. -/
def satInc (w : Word) : Word := if w = BitVec.allOnes 64 then w else w + 1

/-! ## Parties and tasks -/

def State.partyOf (s : State) (key : Nat) : Option Party := s.parties.find? (fun p => p.key == key)

def State.taskOf (s : State) (key : Nat) : Option Task := s.tasks.find? (fun t => t.key == key)

/-- The task of a thread's party. -/
def State.myTask (s : State) (t : Thread) : Option Task :=
  match s.partyOf t.party with
  | some p => s.taskOf p.task
  | none => none

def State.setParty (s : State) (p : Party) : State :=
  { s with parties := s.parties.map (fun q => if q.key == p.key then p else q) }

def State.setTask (s : State) (t : Task) : State :=
  { s with tasks := s.tasks.map (fun q => if q.key == t.key then t else q) }

/-- What the task record reserves for the thread's party on the core (R273). -/
def State.tilesOf (s : State) (t : Thread) : Nat := match s.myTask t with | some k => k.fields.tiles | none => 0
def State.accsOf (s : State) (t : Thread) : Nat := match s.myTask t with | some k => k.fields.accs | none => 0
def State.stagesOf (s : State) (t : Thread) : Nat := match s.myTask t with | some k => k.fields.stages | none => 0
def State.walkerOf (s : State) (t : Thread) : Bool := match s.myTask t with | some k => k.fields.walker | none => false

/-- An engine party (R274). -/
def TaskRec.isEngine (f : TaskRec) : Bool :=
  0 < f.tiles || 0 < f.accs || 0 < f.stages || f.walker || f.engine

/-- The party has been placed on other cores than this one: its place in it is beyond its cores (assumption 88). -/
def Party.away (p : Party) (f : TaskRec) : Bool := decide (max 1 f.ncore ≤ p.pos)

def State.engineOf (s : State) (t : Thread) : Bool := match s.myTask t with | some k => k.fields.isEngine | none => false

/-- A change to the saved threads of pre-empted parties. -/
def Saved.mapThreads (v : Saved) (f : Thread → Thread) : Saved := { v with threads := v.threads.map (fun p => (p.1, f p.2)) }

def State.mapSaved (s : State) (f : Thread → Thread) : State :=
  { s with waiting := s.waiting.map (fun w => { w with saved := w.saved.map (fun v => v.mapThreads f) })
           parties := s.parties.map (fun p => { p with saving := p.saving.map (fun v => v.mapThreads f) }) }

/-- The threads that are saved with a party. -/
def State.savedThreads (s : State) : List Thread :=
  (s.waiting.filterMap (·.saved) ++ s.parties.filterMap (·.saving)).flatMap (fun v => v.threads.map (·.2))

/-! ## Functions and interrupts (R390, R393) -/

/-- The function that a place of the module's list of 34 belongs to. -/
def fnIndex (f : PcieFn) : Fin 34 := ⟨17 * f.link.val + f.fn.val, by have := f.link.isLt; have := f.fn.isLt; omega⟩

def State.fnOf (s : State) (f : PcieFn) : HostFn := s.hostfns.get (fnIndex f)

def State.setFn (s : State) (f : PcieFn) (h : HostFn) : State := { s with hostfns := s.hostfns.set (fnIndex f).val h }

/-- The entry of a vector in a function's MSI-X table; bit 96 masks the vector, and an entry that has not been written is masked (assumption 96). -/
def HostFn.msixEntry (h : HostFn) (vec : Nat) : BitVec 128 := ((h.msix.find? (fun p => p.1 == vec)).map (·.2)).getD (1#128 <<< 96)

/-- A vector of a function is raised; while it is masked its pending bit shows it (assumption 96). -/
def State.raiseVector (s : State) (v : PcieFn × Nat) : State :=
  let h := s.fnOf v.1
  let t := { s with raised := s.raised ++ [v] }
  if (h.msixEntry v.2).getLsbD 96 && !h.pba.contains v.2 then t.setFn v.1 { h with pba := h.pba ++ [v.2] } else t

/-- Raises the vectors bound to an event; an event without one shows only in its status field. -/
def State.raiseEvent (s : State) (event : Nat) (ctx : BitVec 12) : State :=
  ((s.binds.filter (fun b => b.event == event && (event != 0 || b.ctx == ctx))).map (fun b => (b.f, b.vec))).foldl State.raiseVector s

/-! ## Purses (R237, R397, R409) -/

/-- G for a budget and what is spent of it (R237). -/
def grantFactor (budget spent : Nat) : BitVec 4 :=
  if budget = 0 || 8 * spent < 7 * budget then 8
  else if spent < budget then 6
  else if 4 * spent < 5 * budget then 3
  else 1

def State.setCtx (s : State) (c : Ctx) : State :=
  { s with ctxs := s.ctxs.map (fun x => if x.num == c.num then c else x) }

/-- ENERGY_DEBIT: energy is debited to a purse, and G follows SPENT (R237, R409). SPENT stays at its greatest value (assumption 50). -/
def State.energyDebit (s : State) (ctx : BitVec 12) (uj : BitVec 32) : Option State :=
  (s.ctxOf ctx).map (fun c =>
    let n := min (2 ^ 32 - 1) (c.spent.toNat + uj.toNat)
    s.setCtx { c with spent := BitVec.ofNat 32 n, g := grantFactor c.budget.toNat n })

/-- The energy that a target has spent on a request comes with its reply: a free value, debited to the context that the waybill names (R397, R409). -/
def State.billReply (s : State) (ctx : BitVec 12) : State :=
  let t : State := { s with fresh := s.fresh + 1 }
  (t.energyDebit ctx ((Config.freeValue s.fresh).setWidth 32)).getD t

/-! ## The flits of transactions (R374, R396, R400 to R404) -/

/-- The module that owns a physical address (R394). -/
def State.ownerOf (s : State) (pa : Nat) : Nat := if isPeer pa then peerOf pa else s.module_.toNat

/-- The other modules that hold a staged store, each once. -/
def State.targets (s : State) (x : Txn) : List Nat :=
  ((x.stores.map (fun w => s.ownerOf w.pa)).filter (fun m => m != s.module_.toNat)).dedup

/-- How often the route to a module has changed: it changes as a link that it uses faults (R396, R399). -/
def State.routeNo (s : State) (m : Nat) : Nat := s.routeFaults.foldl (fun g k => if Config.routeUses g m k then g + 1 else g) 0

/-- The route to a module crosses the link, which carries traffic (R396, R399, assumption 16). -/
def State.routeCrosses (s : State) (m : Nat) (k : Fin 18) : Bool := (s.links.get k).up && Config.routeUses (s.routeNo m) m k

/-- A flit of a transaction goes to each of the targets: an armed test fault on a link of a route is used up, and the flag says whether
one was met (R374). -/
def State.sendFlits (s : State) (ms : List Nat) : State × Bool :=
  let hit (k : Fin 18) : Bool := (s.links.get k).armed && ms.any (fun m => s.routeCrosses m k)
  ({ s with links := Vector.ofFn (fun k => if hit k then { (s.links.get k) with armed := false } else s.links.get k) },
   (List.finRange 18).any hit)

/-- The discards of a transaction go to its targets (R374, R401, R403, R404). -/
def State.discard (s : State) (x : Option Txn) : State :=
  match x with | some x => if x.phase = .phase2 then s else (s.sendFlits (s.targets x)).1 | none => s

/-! ## The Innkeeper's own accesses -/

/-- The place of a virtual byte of a posting context that is read or written, or the cause a scalar access there would raise (R64, R263, R271,
R363). A page whose copy is in progress reads the same in its old frame as in its new one (R372). -/
def State.innLoc (s : State) (ctx : BitVec 12) (write : Bool) (va : Nat) : Except (BitVec 8) Loc :=
  if 2 ^ 56 ≤ va then .error 0x10
  else if inWindow va then .error 0x12
  else match s.walk ctx va with
    | .fault c => .error c
    | .leaf l =>
      if !(if write then pteW l.e else pteR l.e) then .error 0x19
      else match s.byteFault write va (s.locOf l va) with
        | some (c, _) => .error c
        | none => .ok (s.locOf l va)

/-- n bytes at a virtual address of a context as a number, read at the home store. -/
def State.innRead (s : State) (ctx : BitVec 12) (va : Nat) : Nat → Except (BitVec 8) Nat
  | 0 => .ok 0
  | n + 1 =>
    match s.innLoc ctx false va with
    | .error c => .error c
    | .ok x =>
      match s.innRead ctx (va + 1) n with
      | .error c => .error c
      | .ok r => .ok ((s.locByte x).toNat + 256 * r)

/-- The leaf of a page that the Innkeeper may read or write (R363). -/
def State.innLeaf (s : State) (ctx : BitVec 12) (write : Bool) (va : Nat) : Option Leaf :=
  if 2 ^ 56 ≤ va || inWindow va then none
  else match s.walk ctx va with
    | .fault _ => none
    | .leaf l => if (if write then pteW l.e else pteR l.e) then some l else none

/-- Makes the page of an address ready for a write: a copy in progress ends, and a copy-on-write page is copied first (R340, R372). -/
def State.innCow (s : State) (ctx : BitVec 12) (va : Nat) : State :=
  match s.innLeaf ctx true va with
  | none => s
  | some l =>
    let s := match s.cows.find? (fun c => c.leaf == l.addr) with | some c => s.cowFinish c | none => s
    match s.innLeaf ctx true va with
    | none => s
    | some l => s.copyNow l

/-- The page of an address is still to be copied: the pool had no frame for it (R372). -/
def State.innHeld (s : State) (ctx : BitVec 12) (va : Nat) : Bool :=
  match s.innLeaf ctx true va with | some l => pteCow l.e | none => false

/-- The first byte of each page that n bytes at an address touch. -/
def pagesOf (va n : Nat) : List Nat :=
  (List.range ((va + n - 1) / 2 ^ 16 + 1 - va / 2 ^ 16)).map (fun k => if k = 0 then va else (va / 2 ^ 16 + k) * 2 ^ 16)

/-- Marks the leaves of n bytes that the Innkeeper reads or writes as used (R364). -/
def State.innSeen (s : State) (ctx : BitVec 12) (write : Bool) (va n : Nat) : State :=
  (if n = 0 then [] else pagesOf va n).foldl (fun s a => match s.innLeaf ctx write a with | some l => s.touch l write | none => s) s

/-- The places of n bytes that the Innkeeper writes, with what stands at each position; a byte that does not translate has none. -/
def State.innPlaces (s : State) (ctx : BitVec 12) (va : Nat) (bs : List Byte) : List (Loc × Byte) :=
  ((List.range bs.length).zip bs).filterMap (fun p => match s.innLoc ctx true (va + p.1) with | .ok x => some (x, p.2) | .error _ => none)

/-- Writes bytes at a virtual address of a context as one store, at the home store after a recall, or at the peer or host that holds them; a
byte that does not translate is not written (R76, R345, R357, R363). A write to a copy-on-write page for which the pool has no frame is owed
until it is refilled (R340, R372, assumption 99). -/
def State.innPut (s : State) (ctx : BitVec 12) (va : Nat) (bs : List Byte) : State :=
  let pages := if bs = [] then [] else pagesOf va bs.length
  let s := pages.foldl (fun s a => s.innCow ctx a) s
  if pages.any (s.innHeld ctx) then { s with owed := s.owed ++ [{ ctx := ctx, va := va, w := .put bs }] }
  else
    let s := s.innSeen ctx true va bs.length
    let ps := s.innPlaces ctx va bs
    ((ps.map (·.1)).foldl State.recallLoc s).writeBytes ctx .posted (ps.map (·.1)) (ps.map (·.2))

/-- Adds to a 64-bit counter of a context: at the home store after a recall, or by an atomic that leaves for the peer, or the host, that holds
it. A FetchAdd passes no posted write before it (R282, R297, R350, R353, R356). -/
def State.innAdd (s : State) (ctx : BitVec 12) (va : Nat) (inc : Nat) : State :=
  let s := (pagesOf va 8).foldl (fun s a => s.innCow ctx a) s
  if (pagesOf va 8).any (s.innHeld ctx) then { s with owed := s.owed ++ [{ ctx := ctx, va := va, w := .add inc }] }
  else
    let s := s.innSeen ctx true va 8
    match s.innLoc ctx true va with
    | .error _ => s
    | .ok (.host pa) => s.sendTo (s.hostFn ctx) ctx .posted pa (.atomic .add true (BitVec.ofNat 64 inc) 0) .sent []
    | .ok (.peer pa) => s.send ctx .posted pa (.atomic .add true (BitVec.ofNat 64 inc) 0) .sent
    | .ok _ =>
      let locs := (s.innPlaces ctx va (zeros 8)).map (·.1)
      let s := locs.foldl State.recallLoc s
      if locs.length ≠ 8 then s
      else s.writeBytes ctx .posted locs (leBytes 8 (leNat (locs.map s.locByte) + inc))

/-- What the Innkeeper owes is written once the pool has frames again, in order (R372, assumption 99). -/
def State.payOwed (s : State) : State :=
  s.owed.foldl (fun s o => match o.w with | .put bs => s.innPut o.ctx o.va bs | .add n => s.innAdd o.ctx o.va n) { s with owed := [] }

/-- Writes the STATE byte of a task record (R262, R263). -/
def State.putTaskState (s : State) (ctx : BitVec 12) (va : Word) (st : Nat) : State :=
  s.innPut ctx (va.toNat + 0x78) (leBytes 1 st)

/-- Writes FCAUSE, FTHR and FPARTY of a task record (R262). -/
def State.putTaskFault (s : State) (ctx : BitVec 12) (va : Word) (cause : BitVec 8) (thr pidx : Nat) : State :=
  s.innPut ctx (va.toNat + 0x79) (leBytes 1 cause.toNat ++ leBytes 1 thr ++ leBytes 4 pidx)

/-- The task and index of a party, placed or waiting (R272, R281). -/
def State.partyIds (s : State) (pkey : Nat) : Option (Nat × Nat) :=
  ((s.partyOf pkey).map (fun p => (p.task, p.pidx))) <|> ((s.waiting.find? (fun w => w.key == pkey)).map (fun w => (w.task, w.pidx)))

/-- Reports a fault in the task record; a later fault does not overwrite the first report (R283). -/
def State.reportFault (s : State) (pkey ptidx : Nat) (cause : BitVec 8) : State :=
  match s.partyIds pkey with
  | none => s
  | some (task, pidx) =>
    match s.taskOf task with
    | none => s
    | some k =>
      if k.faulted then s
      else
        let s := s.putTaskFault k.ctx k.va cause ptidx pidx
        let s := s.putTaskState k.ctx k.va 6
        (s.setTask { k with faulted := true }).raiseEvent 0 k.ctx

/-! ## Barriers (R251 to R254) -/

/-- LAST of a phase that an engine contribution completed. -/
def byContribution : Nat := 0xFFFF

/-- LAST of a phase that an exit completed. -/
def byExit : Nat := 0xFFFE

/-- Number of this core among the 200 of the module: 50 × die + CIDX (R288, R405). -/
def State.coreNo (s : State) : Nat := 50 * s.die.toNat + s.cidx.toNat

/-- Adds to the straggle entry of a core (R254, R288). -/
def State.straggleAdd (s : State) (core : Nat) (late : BitVec 32) : State :=
  let e := listGet { count := 0, lsum := 0 } s.straggle core
  let sum := e.lsum.toNat + late.toNat
  let e' : Straggle :=
    { count := if e.count = BitVec.allOnes 32 then e.count else e.count + 1
      lsum := if sum < 2 ^ 64 then BitVec.ofNat 64 sum else BitVec.allOnes 64 }
  { s with straggle := listSet s.straggle core e' }

/-- An arrival in a phase takes the phase's report. -/
def takeReport (a : Option Arrival) (n : Fin 16) (phase : BitVec 32) (report : Word) : Option Arrival :=
  if a == some { bar := n, phase := phase, report := none } then some { bar := n, phase := phase, report := some report } else a

/-- Completes the current phase of a barrier: the report is recorded and the next phase begins; where a thread of this core is the last, its
entry counts it (R252, R254). LATE is time
the model does not hold: 0 when the phase's first arrival comes as it completes, else a free value (assumption 10). -/
def State.completePhase (s : State) (p : Party) (n : Fin 16) (b : Barrier) (last : Nat) (first : Bool) : State :=
  let late : BitVec 32 := if first then 0 else (Config.freeValue s.fresh).setWidth 32
  let s := if first then s else { s with fresh := s.fresh + 1 }
  let b' : Barrier := { b with phase := b.phase + 1, arr := 0, exp := 0,
                               report := BitVec.ofNat 64 (last + 2 ^ 16 * late.toNat) }
  let s := s.setParty { p with barriers := p.barriers.set n b' }
  let s := { s with threads := s.threads.map (fun t =>
    if t.party == p.key then
      { t with arrived := takeReport t.arrived n b.phase b'.report, upArrived := takeReport t.upArrived n b.phase b'.report } else t) }
  if p.live.contains last then s.straggleAdd s.coreNo late else s

def Barrier.zero : Barrier := { phase := 0, arr := 0, exp := 0, report := 0 }

/-- T: the party's threads, on this core and on others, that have not exited (R251). -/
def Party.threads (p : Party) : Nat := p.live.length + p.remote

/-- One arrival at barrier n of a placed party; the arrival that makes ARR = T + EXP completes the phase (R251, R252). Arrivals of a party's
threads on other cores are not held: with such threads an arrival is the last by a free choice (assumption 88). -/
def State.arrive (s : State) (p : Party) (n : Fin 16) (last : Nat) (first : Bool) : State :=
  let b := p.barriers.get n
  let b := { b with arr := b.arr + 1 }
  if p.remote = 0 then
    (if b.arr = p.threads + b.exp then s.completePhase p n b last first
     else s.setParty { p with barriers := p.barriers.set n b })
  else
    let s' : State := { s with fresh := s.fresh + 1 }
    if Config.freeChoice s.fresh then s'.completePhase p n b last false else s'.setParty { p with barriers := p.barriers.set n b }

/-- The threads of a party on other cores have brought a barrier to its completion: LAST, LATE and the core that counts it are free values
(R252, R254; assumption 88). -/
def State.remotePhase (s : State) (p : Party) (n : Fin 16) : State :=
  let v (k : Nat) : Nat := (Config.freeValue (s.fresh + k)).toNat
  let last := v 0 % 2 ^ 16
  let s := State.completePhase { s with fresh := s.fresh + 2 } p n (p.barriers.get n) last false
  if last = byContribution || last = byExit || p.live.contains last then s
  else s.straggleAdd (v 1 % 200) ((Config.freeValue (s.fresh - 1)).setWidth 32)

/-- Notes a contribution to a parked party's barrier (R210). -/
def notePend (bs : Vector Barrier 16) (n : Fin 16) : Vector Barrier 16 := bs.set n { bs.get n with pend := (bs.get n).pend + 1 }

/-- One arrival at barrier n of a party; one that comes while the party is parked, or its state is being saved, counts when it resumes
(R210, R252). -/
def State.barArrive (s : State) (pkey : Nat) (n : Fin 16) (last : Nat) : State :=
  match s.partyOf pkey with
  | none => { s with waiting := s.waiting.map (fun w => if w.key == pkey then { w with barriers := notePend w.barriers n } else w) }
  | some p =>
    if p.saving.isSome then s.setParty { p with barriers := notePend p.barriers n }
    else s.arrive p n last (decide ((p.barriers.get n).arr = 0))

/-- Adds expectations to the current phase of barrier n (R253). -/
def State.barExpect (s : State) (pkey : Nat) (n : Fin 16) (c : Nat) : State :=
  match s.partyOf pkey with
  | none => s
  | some p =>
    let b := p.barriers.get n
    s.setParty { p with barriers := p.barriers.set n { b with exp := b.exp + c } }

/-- Barrier n of a party. -/
def State.barOf (s : State) (pkey : Nat) (n : Fin 16) : Barrier :=
  match s.partyOf pkey with
  | none => .zero
  | some p => p.barriers.get n

/-- After a thread has left, each barrier whose arrivals now make T + EXP completes its phase (R252). -/
def State.barExits (s : State) (pkey : Nat) : State :=
  (List.finRange 16).foldl (fun s n =>
    match s.partyOf pkey with
    | none => s
    | some p =>
      let b := p.barriers.get n
      if 0 < b.arr && p.remote = 0 && b.arr = p.threads + b.exp && p.saving.isNone then s.completePhase p n b byExit false else s) s

/-! ## Work pools (R256, R257) -/

/-- Removes a thread from the members of every pool of its task. -/
def State.poolsExit (s : State) (pkey ptidx : Nat) : State :=
  { s with tasks := s.tasks.map (fun k =>
      { k with pools := k.pools.map (fun p => { p with members := p.members.filter (fun m => m != (pkey, ptidx)) }) }) }

/-! ## Lanes (R26, R221, R224, R225) -/

/-- Lanes that R26 counts as not retired. -/
def State.goodLanes (s : State) : BitVec 64 := ~~~(s.laneMarked ||| s.laneRetired)

/-- Number of set bits of a lane mask. -/
def laneCount (m : BitVec 64) : Nat := popcount 64 m.toNat

/-- The lanes of a mask from the skip-th set bit on, n of them (R26). -/
def pickLanes (m : BitVec 64) (skip n : Nat) : BitVec 64 :=
  ((List.range 64).foldl (fun (a : Nat × BitVec 64) i =>
    if m.getLsbD i then (a.1 + 1, if skip ≤ a.1 && a.1 < skip + n then a.2 ||| (1#64 <<< i) else a.2) else a) (0, 0#64)).2

/-- The lanes that LPART gives a slot (R26). -/
def State.lanesFor (s : State) (sl : Slot) : BitVec 64 :=
  if sl = 0 then pickLanes s.goodLanes 0 s.lcnt0.toNat else pickLanes s.goodLanes s.lcnt0.toNat s.lcnt1.toNat

/-- LMAP(j): the lane number of the j-th set bit (R26). -/
def laneAt (m : BitVec 64) (j : Nat) : Nat := listGet 0 ((List.range 64).filter (fun i => m.getLsbD i)) j

/-- The place of a byte of a lane's table, which belongs to the lane and to the thread that holds it (R12, R170, R172): a lane that one slot
is still to give up to the other has a table for each (R220, assumption 90). -/
def tableAddr (sl : Slot) (lane off : Nat) : Nat := (64 * sl.val + lane) * 8192 + off

/-- The tables of a slot in a set of lanes become zero. -/
def State.clearTables (s : State) (sl : Slot) (m : BitVec 64) : State :=
  { s with tables := (List.range 64).foldl (fun t i =>
             if m.getLsbD i then Cells.clear t (tableAddr sl i 0) 8192 else t) s.tables
           ltPoison := s.ltPoison.filter (fun p => !(List.range 64).any (fun i =>
             m.getLsbD i && decide (tableAddr sl i 0 ≤ p ∧ p < tableAddr sl (i + 1) 0))) }

/-- The greatest level that a thread of the core holds or asks for (R235). -/
def State.qNeed (s : State) : BitVec 2 :=
  s.threads.toList.foldl (fun q t =>
    if t.occupied then
      (if q < t.cfg.qcur then (if t.cfg.qcur < t.cfg.qreq then t.cfg.qreq else t.cfg.qcur)
       else if q < t.cfg.qreq then t.cfg.qreq else q)
    else q) 0

/-- Q falls at once to what the threads of the core need (R235). -/
def State.dropQ (s : State) : State := if s.qNeed < s.qcore then { s with qcore := s.qNeed } else s

/-- A part has been retired: REPLACE becomes 1 and raises its vector once (R414). -/
def State.noteRetired (s : State) : State := if s.replace then s else { s with replace := true }.raiseEvent 1 0

/-- A marked lane is retired once no slot holds it (R225, R411). -/
def State.settleLanes (s : State) : State :=
  let heldMask := s.threads.toList.foldl (fun m t => if t.occupied then m ||| t.cfg.lmap else m) 0#64
  let done := s.laneMarked &&& ~~~heldMask
  if done = 0 then s
  else
    let d := s.die.toFin
    { s with laneMarked := s.laneMarked &&& heldMask
             laneRetired := s.laneRetired ||| done
             errs := s.errs.set d { (s.errs.get d) with lret := (s.errs.get d).lret + laneCount done } }.noteRetired

/-- Commands of a slot keep the row numbers of a register that the slot is about to lose (R314). -/
def Cmd.keepIndex (c : Cmd) (sl : Slot) (v : Vec) : Cmd :=
  if c.slot ≠ sl then c
  else match c.kind with
    | .cpyg sp mb rb n p tag none => { c with kind := .cpyg sp mb rb n p tag (some (v.vregs.get p)) }
    | .cpys sp mb rb n p tag none => { c with kind := .cpys sp mb rb n p tag (some (v.vregs.get p)) }
    | _ => c

/-- Nothing reads the row of an MRD whose thread has left. -/
def MatCmd.dropMrd (c : MatCmd) (sl : Slot) : MatCmd :=
  match c.op with | .mrd _ _ k _ => if k = sl then { c with done := 1 } else c | _ => c

/-- A slot's thread leaves by exit or pre-emption: the slot is freed, LPART gives the other slot every lane that is not retired,
and Q falls to what remains (R221, R235); a lane that was marked while it was the slot's only one can now be retired (R225). -/
def State.freeSlot (s : State) (sl : Slot) : State :=
  let t := s.th sl
  let s := (s.clearTables sl (BitVec.allOnes 64)).discard t.txn
  let s := { s with cmds := s.cmds.map (fun (c : Cmd) => c.keepIndex sl t.vec), matQ := s.matQ.map (fun (c : MatCmd) => c.dropMrd sl)
                    laneMarked := s.laneMarked ||| (s.laneLast &&& t.cfg.lmap), laneLast := s.laneLast &&& ~~~t.cfg.lmap }
  let s := s.setTh sl .free
  let s := { s with coreMarked := s.coreMarked || (s.laneMarked != 0 && laneCount s.goodLanes < 8) }
  let n : BitVec 7 := BitVec.ofNat 7 (laneCount s.goodLanes)
  let s := if sl = 0 then { s with lcnt0 := 0, lcnt1 := n } else { s with lcnt0 := n, lcnt1 := 0 }
  let s := { s with reqs := s.reqs.filter (fun r => match r.who with
    | .scalar k => k != sl | .element k _ _ => k != sl | _ => true) }
  s.dropQ.settleLanes

/-- The fault of a parked command of a thread that has not been delivered (R208). -/
def Cmd.undelivered (c : Cmd) (sl : Slot) (t : Thread) : Option (BitVec 8) :=
  match c.st with
  | .parked cause _ _ false _ => if c.slot == sl && c.party == t.party && c.ptidx == t.cfg.ptidx.toNat then some cause else none
  | _ => none

/-- Engine faults that wait for delivery to a thread which leaves, of its posts and of its parked commands, are reported in the task record
(R208, R283). -/
def State.reportPost (s : State) (sl : Slot) : State :=
  let t := s.th sl
  let causes := (s.postFaults.filter (fun f => f.slot == sl)).map (·.cause) ++ s.cmds.filterMap (fun c => c.undelivered sl t)
  let s' := causes.foldl (fun (s : State) c => s.reportFault t.party t.cfg.ptidx.toNat (0x40 + c)) s
  { s' with
    postFaults := s'.postFaults.filter (fun f => f.slot != sl)
    cmds := s'.cmds.map (fun c => if (c.undelivered sl t).isNone then c
      else match c.st with | .parked cause e a _ ctr => { c with st := .parked cause e a true ctr } | _ => c) }

/-- A thread ends: it counts as exited for barriers and pools, and its slot is freed (R97, R252, R256, R283). -/
def State.leave (s : State) (sl : Slot) : State :=
  let s := s.reportPost sl
  let t := s.th sl
  let p := t.party
  let i := t.cfg.ptidx.toNat
  let s := match s.partyOf p with
    | some q => s.setParty { q with live := q.live.filter (fun k => k != i) }
    | none => s
  ((s.barExits p).poolsExit p i).freeSlot sl

end Sys2Proof.Machine
end

