-- ==== Sys2Proof/Machine/Innkeeper.lean ====
section
/-! DEFINITION. The Innkeeper's side of tasks: post areas, the launch list, watch entries, dispatch and completion (spec/16 R262 to R271,
R282). -/

namespace Sys2Proof.Machine

/-! ## Task records (R262) -/

/-- The doubleword of a record at an offset; a record that cannot be read gives none. -/
def State.recWord (s : State) (ctx : BitVec 12) (va : Word) (off : Nat) : Option Word :=
  match s.innRead ctx (va.toNat + off) 8 with
  | .ok x => some (BitVec.ofNat 64 x)
  | .error _ => none

def State.recNat (s : State) (ctx : BitVec 12) (va : Word) (off : Nat) : Nat := ((s.recWord ctx va off).getD 0).toNat

/-- Bits lo to lo + n − 1 of a number. -/
def fieldOf (x lo n : Nat) : Nat := x / 2 ^ lo % 2 ^ n

/-- The record's fields (R262). -/
def State.readTask (s : State) (ctx : BitVec 12) (va : Word) : TaskRec :=
  let w (off : Nat) : Word := (s.recWord ctx va off).getD 0
  let p := (w 0x30).toNat
  { bind := w 0x08, dctr := w 0x20, dinc := w 0x28
    ncore := fieldOf p 0 6, two := fieldOf p 6 1 = 1, lanes := fieldOf p 7 7, prio := fieldOf p 14 2
    indirect := fieldOf p 16 1 = 1, accs := fieldOf p 17 3, stages := fieldOf p 20 4, walker := fieldOf p 24 1 = 1
    tiles := fieldOf p 25 9, dies := fieldOf p 34 4, engine := fieldOf p 38 1 = 1
    pcount := w 0x38, save := w 0x40, poolt := w 0x48, argp := w 0x50, stack := w 0x58, tls := w 0x60
    stksz := (w 0x68).toNat % 2 ^ 32, tlssz := (w 0x68).toNat / 2 ^ 32
    energy := (w 0x70).toNat % 2 ^ 32, savesz := (w 0x70).toNat / 2 ^ 32 }

/-- What an address of a record at its alignment gives: the cause of a scalar access that would fault, or its place. -/
def State.addrCheck (s : State) (ctx : BitVec 12) (a : Word) (align : Nat) : Except (BitVec 8) Loc :=
  if 2 ^ 56 ≤ a.toNat then .error 0x10
  else if a.toNat % align ≠ 0 then .error 0x11
  else s.innLoc ctx false a.toNat

/-- The fields of a record that is not malformed are in range, and what is marked zero is zero (R262, R271). -/
def TaskRec.inRange (f : TaskRec) (w30 w38 w78 : Word) : Bool :=
  1 ≤ f.ncore && f.ncore ≤ 48 && 1 ≤ f.lanes && f.lanes ≤ (if f.two then 32 else 64) && f.accs ≤ 4 && f.stages ≤ 12 &&
  f.tiles ≤ 384 && w30.toNat / 2 ^ 39 = 0 && w78.toNat / 2 ^ 56 = 0 && f.stksz % 16 = 0 && (f.indirect || w38.toNat / 2 ^ 32 = 0)

/-- An address field: its value, its alignment, whether a value of 0 stands for none, and whether it may not be far. -/
structure AddrField where
  a     : Word
  align : Nat
  opt   : Bool
  near  : Bool

/-- The address fields of a record, in its order; PCOUNT is one where the count is indirect (R262). R262 states no alignment of DCTR and ARGP; they
are doublewords, and 8 is taken for them (assumption 100). -/
def TaskRec.addrs (f : TaskRec) (wctr : Word) : List AddrField :=
  [{ a := f.bind, align := 8, opt := false, near := false }, { a := wctr, align := 8, opt := true, near := true },
   { a := f.dctr, align := 8, opt := true, near := false }] ++
  (if f.indirect then [{ a := f.pcount, align := 4, opt := false, near := true }] else []) ++
  [{ a := f.save, align := 4096, opt := true, near := false }, { a := f.poolt, align := 8, opt := true, near := false },
   { a := f.argp, align := 8, opt := true, near := false }, { a := f.stack, align := 16, opt := false, near := false },
   { a := f.tls, align := 1, opt := false, near := false }]

/-- The cause of an address field's fault (R271). -/
def State.addrFault (s : State) (ctx : BitVec 12) (x : AddrField) : Option (BitVec 8) :=
  if x.opt && x.a = 0 then none
  else match s.addrCheck ctx x.a x.align with
    | .error c => some c
    | .ok l => if x.near && l.far then some 0x1A else none

/-- The cause for which a record is malformed; WCTR was read as the record was taken (R263, R271). -/
def State.malformed (s : State) (ctx : BitVec 12) (va : Word) (f : TaskRec) (wctr : Word) : Option (BitVec 8) :=
  let w (off : Nat) : Word := (s.recWord ctx va off).getD 0
  if !f.inRange (w 0x30) (w 0x38) (w 0x78) then some 0x04 else (f.addrs wctr).findSome? (s.addrFault ctx)

/-- The die may be used by the task; none named stands for the dispatching die (R262). -/
def TaskRec.onDie (f : TaskRec) (home d : Nat) : Bool := if f.dies = 0 then d = home else f.dies / 2 ^ d % 2 = 1

/-- No die that the record names has enough cores that are not retired (R271, R412). -/
def State.unplaceable (s : State) (f : TaskRec) : Bool :=
  (List.finRange 4).all (fun d => !f.onDie s.die.toNat d.val || 48 - (s.errs.get d).cret < f.ncore)

/-! ## Completion (R282) -/

/-- STATE 4, then the completion counter (R282). -/
def State.completeTask (s : State) (ctx : BitVec 12) (va : Word) (f : TaskRec) : State :=
  let s := s.putTaskState ctx va 4
  if f.dctr = 0 then s else s.innAdd ctx f.dctr.toNat f.dinc.toNat

/-! ## Dispatch (R269 to R271) -/

/-- A refused record: STATE with FCAUSE, and the task-fault interrupt (R271). -/
def State.refuseTask (s : State) (ctx : BitVec 12) (va : Word) (st : Nat) (cause : BitVec 8) : State :=
  ((s.putTaskFault ctx va cause 0 0).putTaskState ctx va st).raiseEvent 0 ctx

/-- The pools of a task at dispatch (R265). -/
def State.readPools (s : State) (ctx : BitVec 12) (f : TaskRec) : Vector Pool 8 :=
  Vector.ofFn (fun p : Fin 8 =>
    let w := if f.poolt = 0 then 0 else s.recNat ctx f.poolt (8 * p.val)
    let chunk := w / 2 ^ 32
    { remain := if chunk = 0 then 0 else w % 2 ^ 32, next := 0, minchunk := chunk, members := [] })

/-- Dispatch of a task whose record named the wait counter wctr when it was taken (R263, R269). -/
def State.dispatch (s : State) (ctx : BitVec 12) (va wctr : Word) : State :=
  let f := s.readTask ctx va
  match s.malformed ctx va f wctr with
  | some c => s.refuseTask ctx va 5 c
  | none =>
    if s.unplaceable f then s.refuseTask ctx va 8 0x04
    else
      let s := s.putTaskState ctx va 2
      let s := if f.indirect then s.innSeen ctx false f.pcount.toNat 4 else s
      let s := if f.poolt = 0 then s else s.innSeen ctx false f.poolt.toNat 64
      let n := if f.indirect then (match s.innRead ctx f.pcount.toNat 4 with | .ok x => x | .error _ => 0) else f.pcount.toNat
      if n = 0 then s.completeTask ctx va f
      else
        let k := s.seq
        let task : Task := { key := k, ctx := ctx, va := va, fields := f, pools := s.readPools ctx f, open_ := n
                             faulted := false, started := false }
        let ws := (List.range n).map (fun i =>
          ({ key := k + 1 + i, task := k, pidx := i, stamp := k, age := 0, blocks := false
             barriers := Vector.replicate 16 .zero, saved := none } : WaitParty))
        { s with seq := k + 1 + n, tasks := s.tasks ++ [task], waiting := s.waiting ++ ws }

/-! ## Watch entries (R268) -/

/-- A number for the counter that a place holds. -/
def Loc.key : Loc → Nat
  | .sp off => off
  | .home pa => pa
  | .tol f off | .ptol f off => f + off
  | .view pa => pa
  | .peer pa => pa
  | .host pa => pa
  | .nowhere => 0

/-- Entries in use on this die: post areas hold one each. -/
def State.watchUsed (s : State) : Nat := s.watches.length + (s.areas.filter (fun a => a.die == s.die.toNat)).length

/-- Adds a record to an entry in ascending WTGT, after its equals. -/
def insertRec (r : WaitRec) : List WaitRec → List WaitRec
  | [] => [r]
  | x :: l => if r.wtgt.toNat < x.wtgt.toNat then r :: x :: l else x :: insertRec r l

/-- Takes an entry for the record's counter, its own or a shared one; false when none is free. -/
def State.joinWatch (s : State) (pa : Nat) (r : WaitRec) : State × Bool :=
  if s.watches.any (fun w => w.pa == pa) then
    ({ s with watches := s.watches.map (fun w => if w.pa == pa then { w with recs := insertRec r w.recs } else w) }, true)
  else if s.watchUsed < 64 then ({ s with watches := s.watches ++ [{ pa := pa, recs := [r] }] }, true)
  else (s, false)

/-- The counter that a waiting record names. -/
def State.counterKey (s : State) (r : WaitRec) : Option Nat :=
  match s.innLoc r.ctx false r.wctr.toNat with
  | .ok l => some l.key
  | .error _ => none

/-- Reads the counter of an entry and dispatches every record whose target is met; an empty entry is freed (R268). -/
def State.readWatch (s : State) (pa : Nat) : State :=
  match s.watches.find? (fun w => w.pa == pa) with
  | none => s
  | some w =>
    let s := match w.recs with | r :: _ => s.innSeen r.ctx false r.wctr.toNat 8 | [] => s
    let v := match w.recs with
      | r :: _ => (match s.innRead r.ctx r.wctr.toNat 8 with | .ok x => some x | .error _ => none)
      | [] => none
    match v with
    | none => s
    | some x =>
      let met := w.recs.filter (fun r => r.wtgt.toNat ≤ x)
      let rest := w.recs.filter (fun r => x < r.wtgt.toNat)
      let s := { s with watches := (s.watches.map (fun u => if u.pa == pa then { u with recs := rest } else u)).filter (fun u => u.recs != []) }
      met.foldl (fun s r => s.dispatch r.ctx r.va r.wctr) s

/-- The first record that waits unwatched and can gain an entry gains it, with a first read of its counter. -/
def State.promoteFirst (s : State) : Option State :=
  s.unwatched.findSome? (fun r =>
    match s.counterKey r with
    | none => none
    | some pa =>
      match s.joinWatch pa r with
      | (s, true) => some ({ s with unwatched := s.unwatched.filter (fun q => q.stamp != r.stamp) }.readWatch pa)
      | (_, false) => none)

/-- Up to n records that wait unwatched gain entries. -/
def State.promoteUpTo (s : State) : Nat → State
  | 0 => s
  | n + 1 => match s.promoteFirst with | some s' => s'.promoteUpTo n | none => s

/-- Records that wait unwatched gain entries as they free, in the order they were taken (R268). -/
def State.promote (s : State) : State := s.promoteUpTo s.unwatched.length

/-- The Innkeeper takes a record: it is dispatched, or waits for its counter (R268). -/
def State.takeRecord (s : State) (ctx : BitVec 12) (va : Word) : State :=
  let s := s.innSeen ctx false va.toNat 128
  let wctr := (s.recWord ctx va 0x10).getD 0
  let wtgt := (s.recWord ctx va 0x18).getD 0
  if wctr = 0 then s.dispatch ctx va wctr
  else match s.addrCheck ctx wctr 8 with
    | .error _ => s.dispatch ctx va wctr
    | .ok l =>
      if l.far then s.dispatch ctx va wctr
      else
        let s := s.putTaskState ctx va 1
        let r : WaitRec := { ctx := ctx, va := va, wctr := wctr, wtgt := wtgt, stamp := s.seq }
        let s := { s with seq := s.seq + 1 }
        match s.joinWatch l.key r with
        | (s, true) => (s.readWatch l.key).promote
        | (s, false) => { s with unwatched := s.unwatched ++ [r] }

/-- WATCH_COUNTER_READ (R268). -/
def State.watchCounterRead (s : State) (entry : Nat) : Option State :=
  match s.watches[entry]? with
  | some w => some (s.readWatch w.pa).promote
  | none => none

/-! ## Post areas and the launch list (R266, R267) -/

/-- A doubleword of a post area. -/
def State.areaWord (s : State) (a : PostArea) (off : Nat) : Option Word :=
  if a.phys then some (BitVec.ofNat 64 (s.homeNat (a.addr.toNat + off) 8)) else s.recWord a.ctx a.addr off

/-- A record can be read at the address (R266). -/
def State.recordAt (s : State) (ctx : BitVec 12) (a : Word) : Bool :=
  a.toNat % 128 = 0 && (match s.innLoc ctx false a.toNat with | .ok l => !l.far | .error _ => false)

def State.setArea (s : State) (k : Nat) (a : PostArea) : State := { s with areas := listSet s.areas k a }

/-- Takes up to n records from an area: from FIRST or the LINK of the last record, until a LINK of 0 or an address at which no record can
be read (R266). -/
def State.takeFrom (s : State) (k : Nat) (a : PostArea) : Nat → State
  | 0 => s.setArea k a
  | n + 1 =>
    let next := (if a.last = 0 then s.areaWord a 8 else s.recWord a.ctx a.last 0).getD 0
    if next = 0 then s.setArea k a
    else if !s.recordAt a.ctx next then
      let s := if a.bad.contains next then s else s.raiseEvent 0 a.ctx
      s.setArea k { a with bad := if a.bad.contains next then a.bad else next :: a.bad }
    else (s.takeRecord a.ctx next).takeFrom k { a with last := next, owed := a.owed - 1 } n

/-- POST_AREA_TAKE: TRIG has risen (R266). -/
def State.postAreaTake (s : State) (k : Nat) : Option State :=
  match s.areas[k]? with
  | none => none
  | some a =>
    match s.areaWord a 0 with
    | none => none
    | some trig =>
      if trig = a.trig || a.die ≠ s.die.toNat then none
      else
        let a := { a with trig := trig, owed := a.owed + (trig - a.trig).toNat }
        some ((if a.phys then s else s.innSeen a.ctx false a.addr.toNat 16).takeFrom k a a.owed)

/-- LAUNCH_LIST_TAKE (R267). -/
def State.launchListTake (s : State) : Option State :=
  match s.launches with
  | [] => none
  | (ctx, va) :: rest => some ({ s with launches := rest }.takeRecord ctx va)

end Sys2Proof.Machine
end

