-- ==== Sys2Proof/Machine/Ops.lean ====
section
/-! DEFINITION. The named operations over a thread's registers and memory that every meaning is written from: scalar registers,
configuration registers, committing and waiting, scalar accesses and remote requests, the release and acquire steps, and
taking and returning from an exception. -/

namespace Sys2Proof.Machine

/-- The outcome of one step. -/
abbrev Out := Host.Outcome State Fault Refusal

/-! ## Scalar registers (R15, R197) -/

/-- Reads an s register: s0 is zero; above user level s29 to s31 are the upper copies. -/
def Thread.rd (t : Thread) (r : BitVec 5) : Word :=
  if r = 0 then 0
  else if h : 29 ≤ r.toNat then
    (if t.level = .user then t.sregs.get r.toFin else t.upper.get ⟨r.toNat - 29, by have := r.isLt; omega⟩)
  else t.sregs.get r.toFin

/-- Writes an s register; a write to s0 is discarded. -/
def Thread.wr (t : Thread) (r : BitVec 5) (v : Word) : Thread :=
  if r = 0 then t
  else if h : 29 ≤ r.toNat then
    (if t.level = .user then { t with sregs := t.sregs.set r.toFin v }
     else { t with upper := t.upper.set (r.toNat - 29) v (by have := r.isLt; omega) })
  else { t with sregs := t.sregs.set r.toFin v }

/-- The thread whose turn it is. -/
def State.me (s : State) : Thread := s.th s.cur

/-- Replaces the thread whose turn it is. -/
def State.setMe (s : State) (t : Thread) : State := s.setTh s.cur t

/-! ## Committing and waiting -/

/-- The replies that a slot's scalar instruction has waited for are used up. -/
def State.dropScalar (s : State) (sl : Slot) : State :=
  { s with reqs := s.reqs.filter (fun r => !(r.who == .scalar sl)) }

/-- The state once the instruction has committed and the thread goes on at `pc`; it counts toward the lead unless a handler runs
it (R191). -/
def State.committed (s : State) (t : Thread) (pc : Word) : State :=
  (s.dropScalar s.cur).setMe { t with pc := pc, stalled := false, drain := false, found := none, wait := none, copied := [], defer := false
                                      arrived := if t.held then t.arrived else none
                                      upArrived := none
                                      count := if t.held then t.count else t.count + 1 }

/-- The instruction commits and the thread goes on at `pc`. -/
def State.commitAt (s : State) (t : Thread) (pc : Word) : Out := .next (s.committed t pc)

/-- The instruction commits and the thread goes on at the next word. -/
def State.commit (s : State) (t : Thread) : Out := s.commitAt t (t.pc + 4)

/-- The thread whose turn it is waits. -/
def State.stalledMe (s : State) : State := s.setMe { s.me with stalled := true }

/-- The instruction waits: it does not commit, and its word runs again once something has happened. -/
def State.stall (s : State) : Out := .next s.stalledMe

/-! ## Capacity (R25) and configuration registers (R22 to R24) -/

/-- VLMAX(w) for w = 2^wlog, under the grant in force (R25). -/
def Thread.vlmax (t : Thread) (wlog : Nat) : Nat :=
  t.cfg.lalive.toNat * 32 * (1 + t.cfg.qcur.toNat) / 2 ^ wlog

/-- Level a number needs to be read (R22). -/
def cfgReadS (n : Nat) : Bool := (0x12 ≤ n && n ≤ 0x15) || n = 0x17 || n = 0x18

/-- Level a number needs to be written (R22). -/
def cfgWriteS (n : Nat) : Bool := n = 0x0B || 0x11 ≤ n

/-- Numbers whose access is a resync (R23). -/
def cfgResync (n : Nat) : Bool := n = 0x02 || n = 0x04 || n = 0x11

/-- The vector-state word (R89). -/
def Cfg.vsw (c : Cfg) : Word :=
  BitVec.ofNat 64 (c.vl.toNat + 2 ^ 16 * c.segsel.toNat + 2 ^ 20 * c.frm.toNat)

/-- VL, SEGSEL and FRM taken from a vector-state word (R89, R205). -/
def Cfg.unVsw (c : Cfg) (w : Word) : Cfg :=
  { c with vl := w.setWidth 16, segsel := (w >>> 16).setWidth 4, frm := (w >>> 20).setWidth 3 }

/-- The value a configuration register reads as (R24); VL, SEGSEL and FRM of a held image are read from it (R201). -/
def State.cfgRead (s : State) (sl : Slot) (n : Nat) : Word :=
  let t := s.th sl
  let c := if t.held then t.cfg.unVsw t.vsw else t.cfg
  let w (k : Nat) : Word := BitVec.ofNat 64 k
  match n with
  | 0x00 => c.vl.setWidth 64
  | 0x01 => w (t.vlmax c.wlog.toNat % 2 ^ 16 + 2 ^ 16 * c.wlog.toNat + 2 ^ 19 * c.lalive.toNat)
  | 0x02 => c.vstat.setWidth 64
  | 0x03 => c.frm.setWidth 64
  | 0x04 => c.fflags.setWidth 64
  | 0x05 => c.segsel.setWidth 64
  | 0x06 => c.estart.setWidth 64
  | 0x07 => w (s.lcnt0.toNat + 2 ^ 8 * s.lcnt1.toNat)
  | 0x08 => c.lmap
  | 0x09 => w (c.qcur.toNat + 4 * c.qreq.toNat + (if s.qcore < c.qreq then 16 else 0))
  | 0x0A => w (s.gfact + (if s.droop then 16 else 0))
  | 0x0B => match s.ctxOf t.ctx with
            | some x => w (x.budget.toNat + 2 ^ 32 * x.spent.toNat)
            | none => 0
  | 0x0C => w (s.testmax.toNat + 2 ^ 8 * s.eff)
  | 0x0D => w (s.cidx.toNat + 2 ^ 6 * s.die.toNat + 2 ^ 8 * s.module_.toNat)
  | 0x0E => w (c.ptidx.toNat + 2 ^ 8 * sl.val)
  | 0x0F => c.pidx.setWidth 64
  | 0x10 => c.task
  | 0x11 => c.voidcnt
  | 0x12 => c.trapcause.setWidth 64
  | 0x13 => c.traprule.setWidth 64
  | 0x14 => c.trapelem.setWidth 64
  | 0x15 => c.trapaddr.setWidth 64
  | 0x16 => w (c.cestart.toNat + 2 ^ 32 * c.cestream.toNat)
  | 0x17 => c.epc.setWidth 64
  | 0x18 => w (c.plev.toNat + (if c.invp then 4 else 0) + (if c.preempt then 8 else 0) + (if c.engflt then 16 else 0))
  | _ => 0

/-- EPC holds a 56-bit address whose bits [1:0] are zero (R24). -/
def epcOf (v : Word) : BitVec 56 := v.setWidth 56 &&& ~~~(3#56)

/-- Writes a thread register of R24; PURSE, FRM's limit and the levels are the instruction's. -/
def Cfg.write (c : Cfg) (n : Nat) (v : Word) : Cfg :=
  match n with
  | 0x02 => { c with vstat := c.vstat &&& ~~~(v.setWidth 3) }
  | 0x03 => { c with frm := v.setWidth 3 }
  | 0x04 => { c with fflags := v.setWidth 5 }
  | 0x05 => { c with segsel := v.setWidth 4 }
  | 0x06 => { c with estart := v.setWidth 16 }
  | 0x11 => { c with voidcnt := v }
  | 0x12 => { c with trapcause := v.setWidth 8 }
  | 0x13 => { c with traprule := v.setWidth 5 }
  | 0x14 => { c with trapelem := v.setWidth 16 }
  | 0x15 => { c with trapaddr := v.setWidth 56 }
  | 0x16 => { c with cestart := v.setWidth 32, cestream := (v >>> 32).setWidth 4 }
  | 0x17 => { c with epc := epcOf v }
  | 0x18 => { c with plev := v.setWidth 2, invp := v.getLsbD 2, preempt := v.getLsbD 3, engflt := v.getLsbD 4 }
  | _ => c

/-! ## Remote requests (R346, R356, R357, R394) -/

/-- The request of a thread's scalar instruction for a remote address. -/
def State.scalarReq (s : State) (sl : Slot) (pa : Nat) : Option Req :=
  s.reqs.find? (fun r => r.who == .scalar sl && r.pa == pa)

/-- A scalar atomic of the slot has left the core, or its XCOMMIT has begun phase one, and the instruction has not committed: it commits before any
trap is taken, so that it performs once (R199, R347, R403). -/
def State.atomicSent (s : State) (sl : Slot) : Bool :=
  s.reqs.any (fun r => r.who == .scalar sl && (match r.op with | .atomic _ _ _ _ => true | _ => false)) ||
  (match (s.th sl).txn with | some x => x.phase != .staging | none => false)

def State.dropReq (s : State) (id : Nat) : State := { s with reqs := s.reqs.filter (fun r => r.id != id) }

/-- A HOST write has been sent and no flush read for it yet. -/
def Req.hostPosted (r : Req) : Bool :=
  r.who == .posted && hostBase ≤ r.pa && (match r.op with | .write _ => true | _ => false)

/-- Still without an answer. -/
def Req.open_ (r : Req) : Bool := r.status == .sent

/-- The PCIe link a HOST address names (R361). -/
def hostLink (pa : Nat) : Nat := (pa - hostBase) / 2 ^ 51

/-- A write or a flush read, whatever unit of the core sent it; a posted atomic is the add of a completion counter. -/
def Req.released (r : Req) : Bool :=
  r.who == .posted || r.who == .flush || (match r.op with | .write _ => true | _ => false)

/-- A release step at system scope: lines are written back, a flush read goes to each PCIe function that took a write, and the reply of
every peer write of the core, its Courier's too, is awaited; the flag says whether it has completed (R349, R356, R357). -/
def State.sysReleaseFor (s : State) (ctx : BitVec 12) : State × Bool :=
  let s := s.releaseLines
  let hosts := s.reqs.filter Req.hostPosted
  if hosts ≠ [] then
    let rest := { s with reqs := s.reqs.filter (fun r => !r.hostPosted) }
    ((hosts.map (fun r => (hostLink r.pa, r.fn))).dedup.foldl (fun s l =>
      s.sendTo l.2 ctx .flush (hostBase + l.1 * 2 ^ 51) (.read 0) .sent []) rest, false)
  else if s.reqs.any (fun r => r.released && r.open_) then (s, false)
  else ({ s with reqs := s.reqs.filter (fun r => !(r.who == .posted || r.who == .flush)) }, true)

/-- A release step at system scope of the thread whose turn it is. -/
def State.sysRelease (s : State) : State × Bool := s.sysReleaseFor s.me.ctx

/-! ## Scalar accesses (R82, R83, R343) -/

/-- Outcome of checking a scalar access: the places of its bytes and its leaf, a trap, or a wait. -/
inductive Acc where
  | ok (s : State) (locs : List Loc) (leaf : Option Leaf)
  | trap (s : State) (cause : BitVec 8) (addr : Nat)
  | wait (s : State)

/-- A thread's own window access (R29, R273, R291). -/
def State.winCheck (s : State) (t : Thread) (va n : Nat) : Acc :=
  let off := va - winBase
  if spSize < off + n || s.tilesOf t * 4096 < off + n then .trap s 0x12 va
  else if s.spBusy off n then .wait s
  else .ok s ((List.range n).map (fun i => .sp (off + i))) none

/-- The checks of R82 on an n-byte scalar access, in their order; n is a power of two. -/
def State.scalarCheck (s : State) (t : Thread) (k : AccKind) (va : Word) (n : Nat) : Acc :=
  let a := va.toNat
  if 2 ^ 56 ≤ a then .trap s 0x10 a
  else if a % n ≠ 0 then .trap s 0x11 a
  else if inWindow a then s.winCheck t a n
  else match s.xlate t.ctx t.level k t.copied a with
    | .fault s c => .trap s c a
    | .wait s => .wait s
    | .ok s l =>
      let locs := (List.range n).map (fun i => s.locOf l (a + i))
      match s.bytesFault k.writes a locs with
      | some (c, x) => .trap s c x
      | none => .ok s locs (some l)

/-- A scalar cache may hold the page (R343). -/
def cacheable (l : Leaf) (x : Loc) : Bool :=
  match x with
  | .home _ => !(pteDev l.e || pteTol l.e || pteHost l.e || (pteSync l.e && 1 ≤ pteHscope l.e))
  | _ => false

/-- First place of an access. -/
def firstLoc (l : List Loc) : Loc := l.headD .nowhere

/-- Outcome of a scalar access. -/
inductive Access where
  | done (s : State) (v : Word)
  | trap (s : State) (cause : BitVec 8) (addr : Nat)
  | wait (s : State)

/-- A little-endian number as a word. -/
def wordOf (bs : List Byte) : Word := BitVec.ofNat 64 (leNat bs)

/-- A scalar access that a peer or the host answers: it is sent once and waits for its reply, which stays until the
instruction commits (R347). -/
def State.remote (s : State) (sl : Slot) (pa : Nat) (op : BusOp) (va : Nat) : Access :=
  match s.scalarReq sl pa with
  | none => .wait (s.send (s.th sl).ctx (.scalar sl) pa op .sent)
  | some r =>
    match r.status with
    | .sent => .wait s
    | .answered d => .done s d
    | .failed => .trap s 0x28 va

/-- The page of a leaf may be in the scalar cache. -/
def State.isCached (leaf : Option Leaf) (x : Loc) : Bool := match leaf with | some l => cacheable l x | none => false

/-- A scalar load of checked places, zero-extended, that performs now (R81, R83, R347). -/
def State.readNow (s : State) (sl : Slot) (locs : List Loc) (leaf : Option Leaf) (va : Word) : Access :=
  let s := match leaf with | some l => s.touch l false | none => s
  match remoteRuns locs, firstLoc locs with
  | (pa, k) :: _, _ =>
    (match s.remote sl pa (.read k) va.toNat with
     | .done s d => .done s (wordOf (s.gatherBytes locs (leBytes k d.toNat)))
     | r => r)
  | [], .home pa =>
    if State.isCached leaf (.home pa) then
      let s := s.fillLine (pa / 64)
      if s.lineLost pa locs.length then .trap s 0x28 va.toNat else .done s (wordOf (s.lineBytes pa locs.length))
    else if locs.any s.locLost then .trap s 0x28 va.toNat else .done s (wordOf (locs.map s.locByte))
  | [], _ => if locs.any s.locLost then .trap s 0x28 va.toNat else .done s (wordOf (locs.map s.locByte))

/-! ### Order behind the issue queue (R83, R96, R160, R343, R346, R350) -/

def QOp.reads : QOp → Bool
  | .load _ _ _ | .amo _ _ _ _ _ _ _ => true
  | _ => false

def QOp.writes : QOp → Bool
  | .store _ | .amo _ _ _ _ _ _ _ => true
  | _ => false

/-- A FENCE with a predecessor set follows an entry: one of the set, or another FENCE (R96). -/
def QOp.beforeFence (x : QOp) (pr pw : Bool) : Bool :=
  match x with | .fence _ _ _ _ _ => true | _ => (pr && x.reads) || (pw && x.writes)

/-- An access with these places performs only after queue entry q: a write is involved and they share a byte, both are to DEV pages, or q is a FENCE
whose successor set holds it. -/
def State.follows (s : State) (q : Queued) (locs : List Loc) (reads writes dev : Bool) : Bool :=
  match q.op with
  | .fence _ _ sr sw _ => (sr && reads) || (sw && writes)
  | _ => (q.dev && dev) || ((q.op.writes || writes) && s.placesMeet q.locs locs)

/-- Some entry of the thread's issue queue holds back a scalar access. -/
def State.queueHolds (s : State) (t : Thread) (locs : List Loc) (reads writes dev : Bool) : Bool :=
  t.queue.any (fun q => s.follows q locs reads writes dev)

/-- Some entry older than a rule holds back an access of one of its elements: any that shares a byte with it, or a FENCE (R96, R160). -/
def State.queueHoldsElem (s : State) (t : Thread) (age : Nat) (locs : List Loc) (reads writes : Bool) : Bool :=
  t.queue.any (fun q => decide (q.age ≤ age) &&
    (match q.op with
     | .fence _ _ sr sw _ => (sr && reads) || (sw && writes)
     | _ => s.placesMeet q.locs locs))

/-- The page of a leaf is a DEV page. -/
def State.devLeaf (leaf : Option Leaf) : Bool := match leaf with | some l => pteDev l.e | none => false

/-! ### What has been read early (R179, R193, R348, R351, R358) -/

/-- The byte that has been read early at a place. -/
def Early.byteAt (e : Early) (x : Loc) : Option Byte := ((e.locs.zip e.bytes).find? (fun p => p.1 == x)).map (·.2)

/-- What has been read early for what reads now of the bytes at some places; a word of a program lies at most 64 ahead of a word that has not
committed (R191). -/
def Thread.earlyAt (t : Thread) (who : EarlyFor) (locs : List Loc) : Option (List Byte) :=
  let es := t.early.filter (fun e => e.who == who && t.count ≤ e.born + 64)
  if es = [] then none
  else locs.foldr (fun x a => match es.findSome? (fun e => e.byteAt x), a with | some b, some l => some (b :: l) | _, _ => none) (some [])

/-- An access of the slot's thread to some places is the latest that it may read there: it forgets what it has read early of them (R351). -/
def State.dropEarly (s : State) (sl : Slot) (locs : List Loc) : State :=
  if (s.th sl).early = [] then s
  else s.setTh sl { (s.th sl) with early := (s.th sl).early.filter (fun e => !s.placesMeet e.locs locs) }

/-- The thread without what it has read early. -/
def State.forgetEarly (s : State) (sl : Slot) : State := if (s.th sl).early = [] then s else s.setTh sl { (s.th sl) with early := [] }

/-- An unconfirmed path takes a register for a VLD on it (R179). -/
def Thread.prepare (t : Thread) : Option Thread :=
  match t.vec.vfree with
  | [] => none
  | p :: rest => if !t.occupied || t.held then none else some { t with vec := { t.vec with vfree := rest }, prep := t.prep ++ [p] }

/-- The unconfirmed path is squashed: the registers of the VLDs prepared on it return to the pool, and nothing of it is kept (R179, R358). -/
def Thread.squash (t : Thread) : Thread :=
  if t.prep = [] && t.early = [] then t
  else
    { t with
      vec := { t.vec with vfree := t.vec.vfree ++ t.prep }, prep := []
      early := t.early.filter (fun e => match e.who with | .rule _ => true | _ => false) }

/-- Reads a doubleword early, for a scalar load or, with `vec`, for the VLD prepared last: from a page whose entry is present and permits it, and
that is neither DEV, SYNC, NOSPEC nor HOST, in local memory, and past no entry of the issue queue that it must follow. It fills the TLB, and sets
no accessed bit (R10, R165, R179, R350, R358, R359). -/
def State.readEarly (s : State) (sl : Slot) (vec : Bool) (a : Nat) : Option State :=
  let t := s.th sl
  let who : Option EarlyFor := if vec then t.prep.getLast?.map .prep else some .scalar
  match who, s.walk t.ctx a with
  | some who, .leaf l =>
    let locs := (List.range 8).map (fun i => s.locOf l (a + i))
    let ok (x : Loc) : Bool := match x with | .home _ => true | .tol _ _ | .view _ => vec | _ => false
    if !t.occupied || t.held || 2 ^ 56 ≤ a + 7 || a % 8 ≠ 0 || inWindow a then none
    else if pteLock l.e || pteDev l.e || pteSync l.e || pteNospec l.e || pteHost l.e || !permits t.level .read false l.e || !locs.all ok then none
    else if s.queueHoldsElem t t.count locs true false then none
    else
      let s := if (s.tlbFind t.ctx a).isNone then s.tlbPut t.ctx a l else s
      let s := if vec then locs.foldl State.recallLoc s else match firstLoc locs with | .home pa => s.fillLine (pa / 64) | _ => s
      if locs.any s.locLost then none
      else
        let bytes := match vec, firstLoc locs with | false, .home pa => s.lineBytes pa 8 | _, _ => locs.map s.locByte
        let e : Early := { who := who, locs := locs, bytes := bytes, born := t.count }
        some (s.setTh sl { t with early := e :: t.early.filter (fun e => !(e.who == who && e.locs == locs)) })
  | _, _ => none

/-- A scalar load of n bytes (R81 to R83), behind the entries of the issue queue that it must follow: it performs now, or takes what was read early,
a free choice (R348 step 1, assumption 20). -/
def State.load (s : State) (sl : Slot) (t : Thread) (va : Word) (n : Nat) : Access :=
  match s.scalarCheck t .read va n with
  | .trap s c a => .trap s c a
  | .wait s => .wait s
  | .ok s locs leaf =>
    if s.queueHolds t locs true false (State.devLeaf leaf) then .wait s
    else match t.earlyAt .scalar locs with
      | none =>
        (match s.readNow sl locs leaf va with
         | .done s v => .done (s.dropEarly sl locs) v
         | r => r)
      | some bs =>
        let s' : State := { s with fresh := s.fresh + 1 }
        match s'.readNow sl locs leaf va with
        | .done s' v => .done (s'.dropEarly sl locs) (if Config.freeChoice s.fresh then wordOf bs else v)
        | r => r

/-! ### Stores -/

/-- Performs the bytes of a checked scalar store of a context. -/
def State.storeLocs (s : State) (ctx : BitVec 12) (locs : List Loc) (cached : Bool) (bs : List Byte) : State :=
  match firstLoc locs with
  | .peer _ | .host _ | .ptol _ _ => s.writeBytes ctx .posted locs bs
  | .home pa => if cached then s.lineWrite pa bs else s.putLocs (locs.zip bs)
  | _ => s.putLocs (locs.zip bs)

/-- A page has been copied for the store of the thread whose turn it is (R372). -/
def State.noteCopy (s : State) (leaf : Nat) : State :=
  if s.me.level = .user then s else s.setMe { s.me with copied := leaf :: s.me.copied }

/-- Checks an n-byte scalar store up to the hardware copy of its page (R82, R372). -/
def State.storeCheck (s : State) (t : Thread) (va : Word) (n : Nat) : Acc :=
  match s.scalarCheck t .store va n with
  | .ok s locs (some l) =>
    match s.cowStart l with
    | .none => .ok s locs (some l)
    | .wait s' => .wait (if s'.cows.length = s.cows.length then s' else s'.noteCopy l.addr)
    | .empty s => .trap s 0x1C va.toNat
  | r => r

/-- A scalar store of the low n bytes of v, performed now (R81 to R83). -/
def State.store (s : State) (t : Thread) (va : Word) (n : Nat) (v : Word) : Access :=
  match s.storeCheck t va n with
  | .trap s c a => .trap s c a
  | .wait s => .wait s
  | .ok s locs leaf =>
    let s := match leaf with | some l => s.touch l true | none => s
    .done (s.storeLocs t.ctx locs (State.isCached leaf (firstLoc locs)) (leBytes n v.toNat)) 0

/-! ## Atomic operations (R84) -/

/-- The new value of an atomic; `wide` is the 64-bit width. -/
def amoNew (op : AmoOp) (wide : Bool) (old b cmp : Word) : Word :=
  let cut (x : Word) : Word := if wide then x else (x.setWidth 32).setWidth 64
  let sgn (x : Word) : Int := if wide then x.toInt else (x.setWidth 32).toInt
  let o := cut old
  let v := cut b
  cut (match op with
    | .add => o + v
    | .and => o &&& v
    | .or => o ||| v
    | .xor => o ^^^ v
    | .min => if sgn o ≤ sgn v then o else v
    | .max => if sgn v ≤ sgn o then o else v
    | .minn => if o.toNat ≤ v.toNat then o else v
    | .maxn => if v.toNat ≤ o.toNat then o else v
    | .swap => v
    | .cas => if o = cut cmp then v else o)

/-- A base-die atomic at the home store: the sector is recalled, and read and write are one step; none when the word's data
cannot be corrected (R353). -/
def State.homeAtomic (s : State) (op : AmoOp) (wide : Bool) (pa : Nat) (b cmp : Word) : State × Option Word :=
  let n := if wide then 8 else 4
  let s := s.recall pa n
  if s.homeLost pa n then (s, none)
  else
    let old : Word := BitVec.ofNat 64 (s.homeNat pa n)
    (s.putHomeNat pa n (amoNew op wide old b cmp).toNat, some old)

/-- Operations that PCIe carries (R85). -/
def amoPcie : AmoOp → Bool
  | .add | .swap | .cas => true
  | _ => false

/-- An atomic in the core's own line (R354). -/
def State.lineAtomic (s : State) (op : AmoOp) (wide : Bool) (pa : Nat) (b cmp : Word) : State × Option Word :=
  let n := if wide then 8 else 4
  let s := s.fillLine (pa / 64)
  if s.lineLost pa n then (s, none)
  else
    let old := wordOf (s.lineBytes pa n)
    (s.lineWrite pa (leBytes n (amoNew op wide old b cmp).toNat), some old)

/-- The old value an atomic returns in d (R84). -/
def amoResult (wide : Bool) (v : Word) : Word := if wide then v else (v.setWidth 32).signExtend 64

/-! ### The issue queue (R346, R348) -/

/-- The value that a load of n bytes gives its register: sign-extended or not (R81). -/
def loadValue (sgn : Bool) (n : Nat) (v : Word) : Word :=
  match n with
  | 1 => if sgn then (v.setWidth 8).signExtend 64 else (v.setWidth 8).setWidth 64
  | 2 => if sgn then (v.setWidth 16).signExtend 64 else (v.setWidth 16).setWidth 64
  | 4 => if sgn then (v.setWidth 32).signExtend 64 else (v.setWidth 32).setWidth 64
  | _ => v

/-- The register that a queue entry is still to write. -/
def QOp.dest : QOp → Option (BitVec 5)
  | .load d _ _ => some d
  | .amo _ _ _ d _ _ _ => some d
  | _ => none

/-- Registers that the thread's issue queue is still to write. -/
def Thread.pending (t : Thread) : List (BitVec 5) := t.queue.filterMap (fun q => q.op.dest.filter (· != 0))

/-- Bytes of places in local memory, as the core's line or the home store holds them, and whether one of them cannot be corrected. -/
def State.localBytes (s : State) (cached : Bool) (locs : List Loc) : List Byte × Bool :=
  match cached, firstLoc locs with
  | true, .home pa => (s.lineBytes pa locs.length, s.lineLost pa locs.length)
  | _, _ => (locs.map s.locByte, locs.any s.locLost)

/-- A place in local memory. -/
def Loc.isLocal : Loc → Bool
  | .home _ | .tol _ _ | .view _ => true
  | _ => false

/-- A load or atomic at these places can stand in the issue queue: they are in local memory, where no reply can fail, and the data can be corrected
as it commits (assumption 101). -/
def State.defers (s : State) (cached : Bool) (locs : List Loc) : Bool := locs.all Loc.isLocal && !(s.localBytes cached locs).2

/-- An entry at the tail of the issue queue of the thread whose turn it is. -/
def State.enqueue (s : State) (va : Nat) (locs : List Loc) (leaf : Option Leaf) (op : QOp) : State :=
  let t := s.me
  s.setMe { t with queue := t.queue ++ [{ age := t.count, va := va, locs := locs, cached := State.isCached leaf (firstLoc locs)
                                          dev := State.devLeaf leaf, op := op }] }

/-- Entry q performs only after an older entry p: a FENCE after its predecessor set and after another FENCE, an access as R350 says. -/
def State.entryFollows (s : State) (p q : Queued) : Bool :=
  match q.op with
  | .fence pr pw _ _ _ => p.op.beforeFence pr pw
  | x => s.follows p q.locs x.reads x.writes q.dev

/-- A queue entry performs (R83, R84, R96, R348, R349). A load or atomic whose data cannot be corrected any more gives what it found as it committed
(assumption 101). -/
def State.performQueued (s : State) (sl : Slot) (q : Queued) : State :=
  let t := s.th sl
  match q.op with
  | .store bs => s.storeLocs t.ctx q.locs q.cached bs
  | .load d sgn kept =>
    let s := match q.cached, firstLoc q.locs with | true, .home pa => s.fillLine (pa / 64) | _, _ => s
    let (bs, lost) := s.localBytes q.cached q.locs
    let s := s.dropEarly sl q.locs
    s.setTh sl ((s.th sl).wr d (loadValue sgn q.locs.length (wordOf (if lost then kept else bs))))
  | .amo op wide inLine d b cmp kept =>
    (match firstLoc q.locs with
     | .home pa =>
       let (s, r) := if inLine then s.lineAtomic op wide pa b cmp else s.homeAtomic op wide pa b cmp
       let s := match r with | some _ => s | none => s.putHomeNat pa (if wide then 8 else 4) (amoNew op wide kept b cmp).toNat
       let s := s.dropEarly sl q.locs
       s.setTh sl ((s.th sl).wr d (amoResult wide (r.getD kept)))
     | _ => s)
  | .fence _ _ sr _ scope =>
    let s := if 2 ≤ scope then (if sr then s.acquireLines else s.releaseLines) else s
    if sr then s.forgetEarly sl else s

/-- Entry k of the slot's issue queue performs, unless an older one holds it back (R348 step 1, R350). -/
def State.queueEvent (s : State) (sl : Slot) (k : Nat) : Option State :=
  let t := s.th sl
  match t.queue[k]? with
  | none => none
  | some q =>
    if (t.queue.take k).any (fun p => s.entryFollows p q) then none
    else
      let s := s.performQueued sl q
      some (s.setTh sl { (s.th sl) with queue := t.queue.eraseIdx k })

/-- The oldest entry that can perform does. -/
def State.queueNext (s : State) (sl : Slot) : Option State := (List.range (s.th sl).queue.length).findSome? (s.queueEvent sl)

/-- Every entry of the slot's issue queue that can perform does, the oldest first. -/
def State.drainQueue (s : State) (sl : Slot) : State :=
  (List.range (s.th sl).queue.length).foldl (fun s _ => (s.queueNext sl).getD s) s

/-- An acquire step of the slot's thread, which forgets what it has read early (R349). -/
def State.acquireStep (s : State) (sl : Slot) : State :=
  s.acquireLines.forgetEarly sl

/-! ## Instruction fetch (R12, R31, R205, R363) -/

/-- Discards the words that have been fetched for a context, and what is being fetched for it (R205). -/
def State.dropWords (s : State) (ctx : BitVec 12) : State :=
  { s with words := s.words.filter (fun h => h.ctx != ctx), reqs := s.reqs.filter (fun q => !(q.who == .fetch ctx)) }

/-- The word is held from an address. -/
def HeldWord.at (h : HeldWord) (ctx : BitVec 12) (va : Nat) : Bool := h.ctx == ctx && h.va == va

/-- Holds a word in the place of an earlier one. -/
def State.putWord (s : State) (ctx : BitVec 12) (va : Nat) (w : Insn) : State :=
  { s with words := s.words.filter (fun h => !h.at ctx va) ++ [{ ctx := ctx, va := va, word := w }] }

/-- The word that a fetch gives, and holds: the word in memory, or, where a word fetched before from the address differs, either of the
two: a free choice (assumption 23). -/
def State.holdWord (s : State) (ctx : BitVec 12) (va : Nat) (w : Insn) : State × Insn :=
  match s.words.find? (fun h => h.at ctx va) with
  | none => (s.putWord ctx va w, w)
  | some h =>
    if h.word = w then (s, w)
    else if Config.freeChoice s.fresh then ({ s with fresh := s.fresh + 1 }, h.word)
    else (({ s with fresh := s.fresh + 1 } : State).putWord ctx va w, w)

/-- Outcome of a fetch. -/
inductive Fetched where
  | word (s : State) (w : Insn)
  | trap (s : State) (cause : BitVec 8) (addr : Nat)
  | wait (s : State)

/-- The word of four places, once it can be corrected (R196). -/
def State.fetchWord (s : State) (ctx : BitVec 12) (a : Nat) (locs : List Loc) : Fetched :=
  if locs.any s.locLost then .trap s 0x29 a
  else
    let r := s.holdWord ctx a (BitVec.ofNat 32 (leNat (locs.map s.locByte)))
    .word r.1 r.2

/-- The word at a peer's or the host's address, of which n bytes are stored, the high ones: it is asked for once and waits for its reply; a
word held from there may be used in its place (R357, R367, R394, assumption 23). -/
def State.fetchRemote (s : State) (ctx : BitVec 12) (a pa n : Nat) : Fetched :=
  match s.reqs.find? (fun q => q.who == .fetch ctx && q.pa == pa) with
  | some q =>
    (match q.status with
     | .sent => .wait s
     | .answered d =>
       let w : Insn := d.setWidth 32 <<< (32 - 8 * n)
       .word ((s.dropReq q.id).putWord ctx a w) w
     | .failed => .trap (s.dropReq q.id) 0x29 a)
  | none =>
    match s.words.find? (fun h => h.at ctx a) with
    | none => .wait (s.send ctx (.fetch ctx) pa (.read n) .sent)
    | some h =>
      let s' : State := { s with fresh := s.fresh + 1 }
      if Config.freeChoice s.fresh then .word s' h.word else .wait (s'.send ctx (.fetch ctx) pa (.read n) .sent)

/-- Fetches the word at an address for a thread: execute permission, and user permission at user level (R363). -/
def State.fetch (s : State) (t : Thread) (va : Word) : Fetched :=
  let a := va.toNat
  if 2 ^ 56 ≤ a then .trap s 0x10 a
  else if inWindow a then
    match s.winCheck t a 4 with
    | .trap s c x => .trap s c x
    | .wait s => .wait s
    | .ok s locs _ => s.fetchWord t.ctx a locs
  else match s.xlate t.ctx t.level .fetch [] a with
    | .fault s c => .trap s c a
    | .wait s => .wait s
    | .ok s l =>
      let locs := (List.range 4).map (fun i => s.locOf l (a + i))
      let s' := s.touch l false
      match s.bytesFault false a locs, firstLoc locs with
      | some (c, x), _ => .trap s c x
      | none, .peer pa | none, .host pa => s'.fetchRemote t.ctx a pa 4
      | none, .ptol f off => s'.fetchRemote t.ctx a (f + off / 2) 2
      | none, _ => s'.fetchWord t.ctx a locs

/-! ## Exceptions (R196 to R201, R283) -/

/-- A trap of the word at an address (R37): TRAPRULE is 31, TRAPELEM 0. -/
def wordInfo (cause : BitVec 8) (addr epc : Word) : TrapInfo :=
  { cause := cause, rule := 31, elem := 0, addr := addr, epc := epc, inv := false }

/-- The ORD bit of a memory rule (R158). -/
def ordBit : Instr → Bool
  | .vld _ _ _ o _ _ => o
  | .vldStrided _ _ _ _ o _ _ => o
  | .vldIndexed _ _ _ _ o _ _ _ => o
  | .vldFf _ _ _ o _ _ => o
  | .vst _ _ _ o _ _ => o
  | .vstStrided _ _ _ _ o _ _ => o
  | .vstIndexed _ _ _ _ o _ _ _ => o
  | _ => false

/-- Element i of an ORD = 1 memory rule counts as done: it is done, inactive, dropped or scope-missed, and it counts so while only its carry is still
to come (R158, R175, R185, assumption 105). -/
def Rule.settled (r : Rule) (v : Vec) (i : Nat) : Bool :=
  let bit (p : Option (Fin 48)) : PBit := match p with | some p => Cells.get (v.pregs.get p).rest (v.pregs.get p).cells i | none => .absent
  let void (p : Option (Fin 128)) : Bool :=
    match p with | some p => Cells.get (v.vregs.get p).rest (v.vregs.get p).cells i == .void | none => false
  r.done.getLsbD i ||
  (decide (i < r.vle) && (bit r.mp == .present false || bit r.mp == .void || bit r.pd == .present true || void r.b0 || void r.x0))

/-- Elements of a memory rule: those below its length, and every position of the registers that it allocated (R185). -/
def Rule.extent (r : Rule) (t : Thread) : Nat :=
  max r.vle (max (if r.d0.isSome then t.vlmax r.td.wlog else 0) (if r.pd.isSome then t.vlmax 0 else 0))

/-- ESTART at trap entry: the lowest element not done of the oldest ORD = 1 memory rule that is not complete (R175). -/
def Thread.estart (t : Thread) : Option Nat :=
  t.vec.window.findSome? (fun r =>
    if ordBit r.instr then (List.range (r.extent t)).find? (fun i => !r.settled t.vec i) else none)

/-- Some engine fault of the slot's thread waits for delivery (R208). -/
def Cmd.pendingFault (c : Cmd) (t : Thread) (sl : Slot) : Bool :=
  match c.st with
  | .parked _ _ _ delivered _ => !delivered && c.slot == sl && c.party == t.party && c.ptidx == t.cfg.ptidx.toNat
  | _ => false

def State.engPending (s : State) (sl : Slot) : Bool :=
  s.postFaults.any (fun f => f.slot == sl) || s.cmds.any (fun c => c.pendingFault (s.th sl) sl)

/-- Each VP that has not stopped is rolled back to the block's first instruction (R247). -/
def Vpf.rollback (v : Vpf) : Vpf :=
  { v with vps := v.vps.map (fun p => { p with pc := v.header + 8, count := 0, cells := [], ops := [] }) }

/-- Level numbers of ESTATUS.PLEV (R24). -/
def Level.num : Level → BitVec 2
  | .user => 0
  | .supervisor => 1
  | .firmware => 2

/-- The trap registers as trap entry writes them (R201). -/
def Cfg.trapped (c : Cfg) (i : TrapInfo) (lvl : Level) (estart : Option Nat) (eng : Bool) : Cfg :=
  { c with
    trapcause := i.cause, traprule := i.rule, trapelem := i.elem, trapaddr := i.addr.setWidth 56
    epc := epcOf i.epc, plev := lvl.num, invp := i.inv, engflt := eng
    estart := match estart with | some e => BitVec.ofNat 16 e | none => c.estart }

/-- Number under which the VPs send the requests of a block rule. -/
def vpRid (gid : Nat) : Nat := 2 ^ 64 + gid

/-- Replies to the VPs of a slot are forgotten when they are rolled back (R247). -/
def State.dropVpReqs (s : State) (sl : Slot) : State :=
  { s with reqs := s.reqs.filter (fun r => match r.who with | .element k rid _ => !(k == sl && 2 ^ 64 ≤ rid) | _ => true) }

/-- Entry into the context's supervisor: trap registers, held image, level and pc (R197, R201). -/
def State.enterSupervisor (s : State) (sl : Slot) (i : TrapInfo) (entry : Word) : State :=
  let t := (s.th sl).squash
  (s.dropVpReqs sl).setTh sl
    { t with
      cfg := t.cfg.trapped i t.level t.estart (s.engPending sl)
      held := true, vsw := t.cfg.vsw, level := .supervisor, pc := entry, stalled := false, drain := false, found := none, wait := none
      early := [], vpf := t.vpf.map Vpf.rollback }

/-- The firmware ends the thread and reports the trap in the task record (R197, R283). -/
def State.endThread (s : State) (sl : Slot) (cause : BitVec 8) : State :=
  let t := s.th sl
  (s.reportFault t.party t.cfg.ptidx.toNat cause).leave sl

/-- A command with a source or destination in saved core state (R209). -/
def CmdKind.onCore (k : CmdKind) : Bool :=
  match k with
  | .cpy _ _ _ _ _ _ _ _ _ => (k.reads ++ k.writes) != []
  | .cpymg _ _ _ _ _ _ _ _ _ _ => (k.reads ++ k.writes) != []
  | .csbar _ => false
  | _ => true

/-- The command has met a fault. -/
def Cmd.isParked (c : Cmd) : Bool := match c.st with | .parked _ _ _ _ _ => true | _ => false

/-- The command stands on the stream; a CSBAR stands on none. -/
def Cmd.onStream (c : Cmd) (k : Nat) : Bool := match c.kind with | .csbar _ => false | _ => c.stream == k

/-- The weight table that a CPYMG reads: none for inject (R319). -/
def Cmd.readsTable (c : Cmd) (k : Nat) : Bool := match c.kind with | .cpymg _ _ _ _ _ op _ _ _ t => op != 1 && t == k | _ => false

def Cmd.loadsTable (c : Cmd) (k : Nat) : Bool := match c.kind with | .cwtld _ t => t == k | _ => false

/-- One of two commands loads the weight table that the other reads. -/
def Cmd.sharesTable (c d : Cmd) : Bool :=
  (List.range 8).any (fun k => (c.readsTable k && d.loadsTable k) || (c.loadsTable k && d.readsTable k))

/-- Copies between memory locations run on; every other command, and what waits behind one on its stream, at a CSBAR or for a weight table, parks
(R209, R319). -/
def splitCmds (l : List Cmd) : List Cmd × List Cmd :=
  l.foldl (fun (a : List Cmd × List Cmd) c =>
    let behind := a.2.any (fun d => c.sharesTable d || (match c.kind, d.kind with
      | .csbar m, _ => (List.range 16).any (fun k => m.getLsbD k && d.onStream k)
      | _, .csbar m => m.getLsbD c.stream
      | _, _ => d.stream == c.stream))
    if c.kind.onCore || behind then (a.1, a.2 ++ [c]) else (a.1 ++ [c], a.2)) ([], [])

/-- What has left the core for a thread that is pre-empted: writes go on as posted ones, and an atomic's answer is kept for the thread (R209). An
atomic of a VP is performed, and its result forgotten (R247). -/
def State.parkReqs (s : State) (sl : Slot) : State :=
  let t := s.th sl
  let i := t.cfg.ptidx.toNat
  let park (q : Req) : Option Req :=
    match q.who, q.op with
    | .scalar k, .atomic _ _ _ _ => some (if k = sl then { q with who := .parked t.party i none } else q)
    | .element k rid e, .atomic _ _ _ _ =>
      some (if k ≠ sl then q else if 2 ^ 64 ≤ rid then { q with who := .posted } else { q with who := .parked t.party i (some (rid, e)) })
    | .element k _ _, .write _ => if k ≠ sl then some q else if q.open_ then some { q with who := .posted } else none
    | _, _ => some q
  { s with reqs := s.reqs.filterMap park }

/-- Phase two of a thread's transaction, which runs on when the thread is ended (R403, R404). -/
def Thread.orphan (t : Thread) : List (BitVec 12 × Txn) :=
  match t.txn with | some x => if x.phase = .phase2 && x.await != [] then [(t.ctx, x)] else [] | none => []

/-- Ends a task: its parties stop as in a pre-emption that saves nothing: what has left the core goes on, a release step runs, copies between
memory locations run on, every other engine command and every parked one is dropped. STATE becomes 7 (R209, R283, R420). -/
def State.abortTask (s : State) (k : Task) : State :=
  let keys := (s.parties.filter (fun p => p.task == k.key)).map (·.key) ++
    (s.waiting.filter (fun w => w.task == k.key)).map (·.key)
  let engine := s.parties.any (fun p => keys.contains p.key && !p.away k.fields) && k.fields.isEngine
  let ended := (s.threads.toList.filter (·.occupied) ++ s.savedThreads).filter (fun t => keys.contains t.party)
  let s := { s with orphans := s.orphans ++ ended.flatMap Thread.orphan }
  let s := [0, 1].foldl (fun (s : State) (sl : Slot) =>
    if (s.th sl).occupied && keys.contains (s.th sl).party then
      State.freeSlot { ((s.parkReqs sl).drainQueue sl).releaseLines with postFaults := s.postFaults.filter (fun f => f.slot != sl) } sl
    else s) s
  let s := s.putTaskState k.ctx k.va 7
  let mine := s.cmds.filter (fun c => keys.contains c.party)
  let on := ((splitCmds mine).1.filter (fun c => !c.isParked)).map (·.seq)
  { s with
    parties := s.parties.filter (fun p => p.task != k.key)
    waiting := s.waiting.filter (fun w => w.task != k.key)
    tasks := s.tasks.filter (fun t => t.key != k.key)
    cmds := s.cmds.filter (fun c => !keys.contains c.party || on.contains c.seq)
    reqs := s.reqs.map (fun q => match q.who with | .parked p _ _ => if keys.contains p then { q with who := .posted } else q | _ => q)
    matQ := s.matQ.filter (fun c => !keys.contains c.party)
    pike := if engine then .start else s.pike }

/-- Ends a context as CTXEND does (R420): every task of it is stopped, records not complete get STATE 7, and its TLB entries, post
areas and number are removed; watch entries that it frees go to records that wait for one (R268). -/
def State.endCtx (s : State) (ctx : BitVec 12) : State :=
  let s := (s.tasks.filter (fun k => k.ctx == ctx)).foldl State.abortTask s
  let recs := (s.launches.filter (fun l => l.1 == ctx)).map (·.2) ++
    ((s.watches.flatMap (·.recs)) ++ s.unwatched).filterMap (fun r => if r.ctx == ctx then some r.va else none)
  let s := recs.foldl (fun s va => s.putTaskState ctx va 7) s
  State.promote { s with
    launches := s.launches.filter (fun l => l.1 != ctx)
    watches := (s.watches.map (fun w => { w with recs := w.recs.filter (fun r => r.ctx != ctx) })).filter (fun w => w.recs != [])
    unwatched := s.unwatched.filter (fun r => r.ctx != ctx)
    tlb := s.tlb.filter (fun t => t.ctx != ctx)
    areas := s.areas.filter (fun a => a.ctx != ctx)
    binds := s.binds.filter (fun b => b.event != 0 || b.ctx != ctx)
    ctxs := s.ctxs.filter (fun c => c.num != ctx) }

/-- Takes a trap of the thread in a slot (R197, R201). At user level it enters the context's supervisor, or, in a context without
a supervisor entry, the firmware ends the thread; at supervisor level the firmware ends the thread; at firmware level
the trap ends the context and is kept for CTXREPORT. -/
def State.takeTrap (s : State) (sl : Slot) (i : TrapInfo) : State :=
  let t := s.th sl
  let s := ((if i.cause = 0x28 || i.cause = 0x29 then s.addUe else s).dropScalar sl).drainQueue sl
  match t.level with
  | .user =>
    match s.ctxOf t.ctx with
    | some c => if c.entry = 0 then s.endThread sl i.cause else s.enterSupervisor sl i c.entry
    | none => s.endThread sl i.cause
  | .supervisor => s.endThread sl i.cause
  | .firmware =>
    let r : CtxReport :=
      { num := t.ctx, owner := (match s.ctxOf t.ctx with | some c => c.owner | none => ⟨0, 0⟩), cause := i.cause.setWidth 64
        addr := (i.addr.setWidth 56).setWidth 64, epc := (epcOf i.epc).setWidth 64 }
    let s := s.endCtx t.ctx
    { s with reports := s.reports.filter (fun q => q.num != t.ctx) ++ [r] }

/-- A fault-only-first load (R8). -/
def isFf : Instr → Bool
  | .vldFf _ _ _ _ _ _ => true
  | _ => false

/-- A window as it is reinstalled: its rules keep what they captured, with every recorded fault cleared, and a fault-only-first load that faulted
is trimmed anew (R8, R198, R205). -/
def Vec.anew (v : Vec) : Vec :=
  { v with window := v.window.map (fun r => { r with faults := [], mark := r.mark || (r.faults != [] && isFf r.instr) }) }

/-- The return from a trap to the level of ESTATUS.PLEV at EPC; a return to user level reinstalls the held image, whose rules keep
what they captured, with every recorded fault cleared, and the image's VL, SEGSEL and FRM; a fault-only-first load that faulted is trimmed
anew (R8, R205). -/
def Thread.eret (t : Thread) : Thread :=
  let pc : Word := t.cfg.epc.setWidth 64
  let t := { t with early := [] }
  let c := { t.cfg with preempt := false }
  if t.cfg.plev = 0 then
    { t with cfg := c.unVsw t.vsw, held := false, level := .user, pc := pc, vec := t.vec.anew }
  else { t with cfg := c, level := if t.cfg.plev = 1 then .supervisor else .firmware, pc := pc }

end Sys2Proof.Machine
end

