-- ==== Sys2Proof/Machine/Flags.lean ====
section
/-! DEFINITION. The sticky status of a thread: FFLAGS, VSTAT and VOIDCNT, and the counting of VOID elements (R24, R61,
R218). -/

namespace Sys2Proof.Machine

/-- ORs exception flags and status bits into a thread (R61). -/
def Thread.raise (t : Thread) (fl : BitVec 5) (vs : BitVec 3) : Thread :=
  { t with cfg := { t.cfg with fflags := t.cfg.fflags ||| fl, vstat := t.cfg.vstat ||| vs } }

/-- ORs flags into the thread of a slot. -/
def State.raise (s : State) (sl : Slot) (fl : BitVec 5) (vs : BitVec 3) : State := s.setTh sl ((s.th sl).raise fl vs)

/-- Counts one VOID origin: VOIDCNT of the thread, saturating, and the die's counters (R218, R410). -/
def State.countVoid (s : State) (sl : Slot) : State :=
  let t := s.th sl
  let s := s.setTh sl { t with cfg := { t.cfg with voidcnt := satInc t.cfg.voidcnt } }
  let d := s.die.toFin
  let e := s.errs.get d
  { s with errs := s.errs.set d { e with voids := satInc e.voids, ue := satInc e.ue } }

/-- One write dropped for want of a route (R399, R410). -/
def State.countDropped (s : State) : State :=
  let d := s.die.toFin
  let e := s.errs.get d
  { s with errs := s.errs.set d { e with dropw := satInc e.dropw } }

end Sys2Proof.Machine
end

