-- ==== Sys2Proof/Machine/Operands.lean ====
section
/-! DEFINITION. The operand forms of vector instructions: for each vector rule, where its destination and sources lie, which mask
governs it, what it counts toward its effective length, and which function fires at an element (spec/06 to spec/08). -/

namespace Sys2Proof.Machine

/-- A source of a rule: a v register, a pair, an m register, an s register, or an immediate pattern with its tag. -/
inductive Src where
  | none
  | v (r : BitVec 5)
  | pair (r : BitVec 5)
  | m (r : Nat)
  | s (r : BitVec 5)
  | imm (bits : Nat) (t : Tag)
deriving DecidableEq, Repr

/-- A destination of a rule: `pair` is one group (R122), `two` are two registers counted alone (R336). -/
inductive Dst where
  | none
  | v (r : BitVec 5)
  | pair (r : BitVec 5)
  | two (r : BitVec 5)
  | m (r : Nat)
deriving DecidableEq, Repr

/-- Combining operations of reductions and scans (R146). -/
inductive RedOp where
  | sumO | sumT | min | max | and | or | xor
deriving DecidableEq, Repr

/-- What a memory rule does at an element. -/
inductive MemDir where
  | load | store | laneLoad | laneStore
  | amo (op : AmoOp)
deriving DecidableEq, Repr

/-- Addressing of a memory rule (R150, R152); an indexed one has its scope code and index width. -/
inductive MemMode where
  | unit | strided | faultFirst
  | indexed (scope : Nat) (wide : Bool)
deriving DecidableEq, Repr

structure MemSpec where
  dir  : MemDir
  mode : MemMode
  fmt  : Nat
  ord  : Bool
  ovt  : Bool
deriving DecidableEq, Repr

/-- The function of a rule. -/
inductive Kind where
  | ew (f : ElemFn)
  | fma (f : FmaFn) (rm : Nat)
  | cmp (f : CmpFn)
  | mask2 (f : Bool → Bool → Bool)
  | first (row : Bool × Bool × Bool × Bool)
  | iota
  | vid
  | gather
  | slide (k : Nat)
  | compress
  | push
  | splat
  | ext
  | reduce (op : RedOp)
  | scan (op : RedOp)
  | mem (m : MemSpec)
  | tblb (d : BitVec 5)
  | mrd (acc : Nat)
  | cwalk (desc : BitVec 5)
  | vpf

/-- The operand form of a rule. `x` is a third vector source; `elemD`, `elemA` and `elemB` say which registers count toward VLe
(R131). -/
structure RuleSpec where
  dst   : Dst := .none
  m0    : Bool := false
  a     : Src := .none
  b     : Src := .none
  x     : Src := .none
  mask  : BitVec 4
  seg   : Bool := false
  elemD : Bool := true
  elemA : Bool := true
  elemB : Bool := true
  kind  : Kind

/-- Second operand: a v register, or the s register of the same field when funct7[6] = 1 (R105). -/
def vOrS (x : Bool) (b : BitVec 5) : Src := if x then .s b else .v b

/-- The signed imm5 with tag I8 (R105). -/
def immS (i : BitVec 5) : Src := .imm (intBits 8 i.toInt) .i8

/-- The unsigned imm5 of the shift functions (R105). -/
def immN (i : BitVec 5) : Src := .imm i.toNat .n8

/-- An element-wise rule on a v destination. -/
def ew (d a : BitVec 5) (b : Src) (m : BitVec 4) (f : ElemFn) : RuleSpec :=
  { dst := .v d, a := .v a, b := b, mask := m, kind := .ew f }

/-- The operand form of each vector rule; none for what is no such rule (R178, R188). A source that is read at another index than the
element's, as va of VRGATHER, the slides and VEXT, is taken as not read element-wise and does not count toward VLe; va of VCOMPRESS and VPUSH,
whose elements are those moved, counts (R131; assumption 80). -/
def ruleSpec : Instr → Option RuleSpec
  | .vadd d a b m x => some (ew d a (vOrS x b) m fVadd)
  | .vsub d a b m x => some (ew d a (vOrS x b) m fVsub)
  | .vrsub d a b m x => some (ew d a (vOrS x b) m fVrsub)
  | .vaddw d a b m x => some (ew d a (vOrS x b) m fVaddw)
  | .vsubw d a b m x => some (ew d a (vOrS x b) m fVsubw)
  | .vmul d a b m x => some (ew d a (vOrS x b) m fVmul)
  | .vmulh d a b m x => some (ew d a (vOrS x b) m fVmulh)
  | .vdiv d a b m x => some (ew d a (vOrS x b) m fVdiv)
  | .vrem d a b m x => some (ew d a (vOrS x b) m fVrem)
  | .vmin d a b m x => some (ew d a (vOrS x b) m fVmin)
  | .vmax d a b m x => some (ew d a (vOrS x b) m fVmax)
  | .vand d a b m x => some (ew d a (vOrS x b) m fVand)
  | .vor d a b m x => some (ew d a (vOrS x b) m fVor)
  | .vxor d a b m x => some (ew d a (vOrS x b) m fVxor)
  | .vsll d a b m x => some (ew d a (vOrS x b) m fVsll)
  | .vsrl d a b m x => some (ew d a (vOrS x b) m fVsrl)
  | .vsra d a b m x => some (ew d a (vOrS x b) m fVsra)
  | .vfsgnj d a b m x => some (ew d a (vOrS x b) m fVfsgnj)
  | .vfsgnjn d a b m x => some (ew d a (vOrS x b) m fVfsgnjn)
  | .vfsgnjx d a b m x => some (ew d a (vOrS x b) m fVfsgnjx)
  | .vabs d a m => some (ew d a .none m fVabs)
  | .vneg d a m => some (ew d a .none m fVneg)
  | .vcvt d a m => some (ew d a .none m fVcvt)
  | .vfsqrt d a m => some (ew d a .none m fVfsqrt)
  | .vfrec d a m => some (ew d a .none m fVfrec)
  | .vfrsqrt d a m => some (ew d a .none m fVfrsqrt)
  | .vfclass d a m => some (ew d a .none m fVfclass)
  | .vaddi d a i m => some (ew d a (immS i) m fVadd)
  | .vsubi d a i m => some (ew d a (immS i) m fVsub)
  | .vrsubi d a i m => some (ew d a (immS i) m fVrsub)
  | .vaddwi d a i m => some (ew d a (immS i) m fVaddw)
  | .vsubwi d a i m => some (ew d a (immS i) m fVsubw)
  | .vmuli d a i m => some (ew d a (immS i) m fVmul)
  | .vmini d a i m => some (ew d a (immS i) m fVmin)
  | .vmaxi d a i m => some (ew d a (immS i) m fVmax)
  | .vandi d a i m => some (ew d a (immS i) m fVand)
  | .vori d a i m => some (ew d a (immS i) m fVor)
  | .vxori d a i m => some (ew d a (immS i) m fVxor)
  | .vslli d a i m => some (ew d a (immN i) m fVsll)
  | .vsrli d a i m => some (ew d a (immN i) m fVsrl)
  | .vsrai d a i m => some (ew d a (immN i) m fVsra)
  | .vcmpeq d a b m x => some { dst := .m d.toNat, a := .v a, b := vOrS x b, mask := m, kind := .cmp fVcmpeq }
  | .vcmpne d a b m x => some { dst := .m d.toNat, a := .v a, b := vOrS x b, mask := m, kind := .cmp fVcmpne }
  | .vcmplt d a b m x => some { dst := .m d.toNat, a := .v a, b := vOrS x b, mask := m, kind := .cmp fVcmplt }
  | .vcmple d a b m x => some { dst := .m d.toNat, a := .v a, b := vOrS x b, mask := m, kind := .cmp fVcmple }
  | .vcmpgt d a b m x => some { dst := .m d.toNat, a := .v a, b := vOrS x b, mask := m, kind := .cmp fVcmpgt }
  | .vcmpge d a b m x => some { dst := .m d.toNat, a := .v a, b := vOrS x b, mask := m, kind := .cmp fVcmpge }
  | .vcmpun d a b m x => some { dst := .m d.toNat, a := .v a, b := vOrS x b, mask := m, kind := .cmp fVcmpun }
  | .mand d a b m => some { dst := .m d.toNat, a := .m a.toNat, b := .m b.toNat, mask := m, kind := .mask2 (fun x y => x && y) }
  | .mor d a b m => some { dst := .m d.toNat, a := .m a.toNat, b := .m b.toNat, mask := m, kind := .mask2 (fun x y => x || y) }
  | .mxor d a b m => some { dst := .m d.toNat, a := .m a.toNat, b := .m b.toNat, mask := m, kind := .mask2 (fun x y => x ^^ y) }
  | .mandn d a b m => some { dst := .m d.toNat, a := .m a.toNat, b := .m b.toNat, mask := m, kind := .mask2 (fun x y => x && !y) }
  | .mnot d a m => some { dst := .m d.toNat, a := .m a.toNat, mask := m, kind := .mask2 (fun x _ => !x) }
  | .msbf d a m => some { dst := .m d.toNat, a := .m a.toNat, mask := m, kind := .first (true, false, false, true) }
  | .msif d a m => some { dst := .m d.toNat, a := .m a.toNat, mask := m, kind := .first (true, true, false, true) }
  | .msof d a m => some { dst := .m d.toNat, a := .m a.toNat, mask := m, kind := .first (false, true, false, false) }
  | .viota d a m => some { dst := .v d, a := .m a.toNat, mask := m, kind := .iota }
  | .vid d m => some { dst := .v d, mask := m, kind := .vid }
  | .vrgather d a b m => some { dst := .v d, a := .v a, b := .v b, mask := m, elemA := false, kind := .gather }
  | .vrgather2 d a b m => some { dst := .v d, a := .pair a, b := .v b, mask := m, elemA := false, kind := .gather }
  | .vslideup d a b m => some { dst := .v d, a := .v a, b := .s b, mask := m, elemA := false, kind := .slide 0 }
  | .vslidedown d a b m => some { dst := .v d, a := .v a, b := .s b, mask := m, elemA := false, kind := .slide 1 }
  | .vslide1up d a b m => some { dst := .v d, a := .v a, b := .s b, mask := m, elemA := false, kind := .slide 2 }
  | .vslide1down d a b m => some { dst := .v d, a := .v a, b := .s b, mask := m, elemA := false, kind := .slide 3 }
  | .vcompress d a b => some { dst := .v d, a := .v a, b := .m b.toNat, mask := 0, kind := .compress }
  | .vpush d a b m => some { dst := .v d, a := .v a, b := .v b, mask := m, kind := .push }
  | .vwmul d a b m x => some { dst := .pair d, a := .v a, b := vOrS x b, mask := m, kind := .ew fVmul }
  | .vwadd d a b m x => some { dst := .pair d, a := .v a, b := vOrS x b, mask := m, kind := .ew fVadd }
  | .vwmacc d a b m x => some { dst := .pair d, a := .v a, b := vOrS x b, mask := m, kind := .fma fVfmadd 7 }
  | .vncvt d a m => some { dst := .v d, a := .pair a, mask := m, kind := .ew fVcvt }
  | .vnshr d a b m x => some { dst := .v d, a := .pair a, b := vOrS x b, mask := m, kind := .ew fVnshr }
  | .vsplat d b m => some { dst := .v d, b := .s b, mask := m, kind := .splat }
  | .vext d a b m => some { dst := .v d, a := .v a, b := .s b, mask := m, elemA := false, kind := .ext }
  | .vfmadd d a b m x r => some { dst := .v d, a := .v a, b := vOrS x b, mask := m, kind := .fma fVfmadd r.toNat }
  | .vfmsub d a b m x r => some { dst := .v d, a := .v a, b := vOrS x b, mask := m, kind := .fma fVfmsub r.toNat }
  | .vfrmsub d a b m x r => some { dst := .v d, a := .v a, b := vOrS x b, mask := m, kind := .fma fVfrmsub r.toNat }
  | .vfnmadd d a b m x r => some { dst := .v d, a := .v a, b := vOrS x b, mask := m, kind := .fma fVfnmadd r.toNat }
  | .vredsumo d a b m x => some { dst := .v d, a := .v a, b := vOrS x b, mask := m, seg := true, elemD := false, elemB := false, kind := .reduce .sumO }
  | .vredsumt d a b m x => some { dst := .v d, a := .v a, b := vOrS x b, mask := m, seg := true, elemD := false, elemB := false, kind := .reduce .sumT }
  | .vredmin d a b m x => some { dst := .v d, a := .v a, b := vOrS x b, mask := m, seg := true, elemD := false, elemB := false, kind := .reduce .min }
  | .vredmax d a b m x => some { dst := .v d, a := .v a, b := vOrS x b, mask := m, seg := true, elemD := false, elemB := false, kind := .reduce .max }
  | .vredand d a b m x => some { dst := .v d, a := .v a, b := vOrS x b, mask := m, seg := true, elemD := false, elemB := false, kind := .reduce .and }
  | .vredor d a b m x => some { dst := .v d, a := .v a, b := vOrS x b, mask := m, seg := true, elemD := false, elemB := false, kind := .reduce .or }
  | .vredxor d a b m x => some { dst := .v d, a := .v a, b := vOrS x b, mask := m, seg := true, elemD := false, elemB := false, kind := .reduce .xor }
  | .vscansum d a m => some { dst := .v d, a := .v a, mask := m, seg := true, kind := .scan .sumO }
  | .vscanmin d a m => some { dst := .v d, a := .v a, mask := m, seg := true, kind := .scan .min }
  | .vscanmax d a m => some { dst := .v d, a := .v a, mask := m, seg := true, kind := .scan .max }
  | .vld d a m o v f => some { dst := .v d, a := .s a, mask := m, kind := .mem { dir := .load, mode := .unit, fmt := f.toNat, ord := o, ovt := v } }
  | .vldStrided d a b m o v f => some { dst := .v d, a := .s a, b := .s b, mask := m, kind := .mem { dir := .load, mode := .strided, fmt := f.toNat, ord := o, ovt := v } }
  | .vldIndexed d a b m o v s w => some { dst := .v d, m0 := true, a := .s a, b := .v b, mask := m, kind := .mem { dir := .load, mode := .indexed s.toNat w, fmt := 0, ord := o, ovt := v } }
  | .vldFf d a m o v f => some { dst := .v d, a := .s a, mask := m, kind := .mem { dir := .load, mode := .faultFirst, fmt := f.toNat, ord := o, ovt := v } }
  | .vst d a m o v f => some { x := .v d, a := .s a, mask := m, kind := .mem { dir := .store, mode := .unit, fmt := f.toNat, ord := o, ovt := v } }
  | .vstStrided d a b m o v f => some { x := .v d, a := .s a, b := .s b, mask := m, kind := .mem { dir := .store, mode := .strided, fmt := f.toNat, ord := o, ovt := v } }
  | .vstIndexed d a b m o v s w => some { x := .v d, m0 := true, a := .s a, b := .v b, mask := m, kind := .mem { dir := .store, mode := .indexed s.toNat w, fmt := 0, ord := o, ovt := v } }
  | .vamoadd d a b m s w => some { dst := .v d, m0 := true, a := .s a, b := .v b, mask := m, kind := .mem { dir := .amo .add, mode := .indexed s.toNat w, fmt := 0, ord := false, ovt := false } }
  | .vamoand d a b m s w => some { dst := .v d, m0 := true, a := .s a, b := .v b, mask := m, kind := .mem { dir := .amo .and, mode := .indexed s.toNat w, fmt := 0, ord := false, ovt := false } }
  | .vamoor d a b m s w => some { dst := .v d, m0 := true, a := .s a, b := .v b, mask := m, kind := .mem { dir := .amo .or, mode := .indexed s.toNat w, fmt := 0, ord := false, ovt := false } }
  | .vamoxor d a b m s w => some { dst := .v d, m0 := true, a := .s a, b := .v b, mask := m, kind := .mem { dir := .amo .xor, mode := .indexed s.toNat w, fmt := 0, ord := false, ovt := false } }
  | .vamomin d a b m s w => some { dst := .v d, m0 := true, a := .s a, b := .v b, mask := m, kind := .mem { dir := .amo .min, mode := .indexed s.toNat w, fmt := 0, ord := false, ovt := false } }
  | .vamomax d a b m s w => some { dst := .v d, m0 := true, a := .s a, b := .v b, mask := m, kind := .mem { dir := .amo .max, mode := .indexed s.toNat w, fmt := 0, ord := false, ovt := false } }
  | .vamominn d a b m s w => some { dst := .v d, m0 := true, a := .s a, b := .v b, mask := m, kind := .mem { dir := .amo .minn, mode := .indexed s.toNat w, fmt := 0, ord := false, ovt := false } }
  | .vamomaxn d a b m s w => some { dst := .v d, m0 := true, a := .s a, b := .v b, mask := m, kind := .mem { dir := .amo .maxn, mode := .indexed s.toNat w, fmt := 0, ord := false, ovt := false } }
  | .vamoswap d a b m s w => some { dst := .v d, m0 := true, a := .s a, b := .v b, mask := m, kind := .mem { dir := .amo .swap, mode := .indexed s.toNat w, fmt := 0, ord := false, ovt := false } }
  | .vamocas d a b m s w => some { dst := .v d, m0 := true, x := .v (d + 1), a := .s a, b := .v b, mask := m, kind := .mem { dir := .amo .cas, mode := .indexed s.toNat w, fmt := 0, ord := false, ovt := false } }
  | .vltl d a b m => some { dst := .v d, a := .s a, b := .v b, mask := m, kind := .mem { dir := .laneLoad, mode := .indexed 0 true, fmt := 0, ord := false, ovt := false } }
  | .vlts d a b m => some { x := .v d, a := .s a, b := .v b, mask := m, kind := .mem { dir := .laneStore, mode := .indexed 0 true, fmt := 0, ord := false, ovt := false } }
  | .tblb d a b => some { a := .s a, b := .s b, mask := 0, kind := .tblb d }
  | .mrd c d q m => some { dst := .v d, a := .s q, mask := m, kind := .mrd c.toNat }
  | .cwalk d c e p => some { dst := .two d, a := .s c, b := .s e, mask := 0, kind := .cwalk p }
  | .vpf k _ => some { mask := k, kind := .vpf }
  | _ => none

end Sys2Proof.Machine
end

