-- ==== Sys2Proof/Machine/Window.lean ====
section
/-! DEFINITION. Registers with presence, and what a rule's element becomes when it fires: the firing condition and value of every
register rule (spec/06, spec/07, spec/10). -/

namespace Sys2Proof.Machine

/-! ## Physical registers (R181, R187) -/

def VReg.get (r : VReg) (i : Nat) : Elem := Cells.get r.rest r.cells i
def VReg.put (r : VReg) (i : Nat) (e : Elem) : VReg :=
  { r with cells := Cells.set r.rest r.cells i e, lost := r.lost.filter (fun j => j != i) }
def PReg.get (r : PReg) (i : Nat) : PBit := Cells.get r.rest r.cells i
def PReg.put (r : PReg) (i : Nat) (b : PBit) : PReg :=
  { r with cells := Cells.set r.rest r.cells i b, lost := r.lost.filter (fun j => j != i) }

/-- A freshly allocated register: every element ABSENT (R181). -/
def VReg.fresh (wlog : Nat) : VReg := { wlog := wlog, cells := [], rest := .absent }
def PReg.fresh : PReg := { cells := [], rest := .absent }

/-- No element below cap is ABSENT. -/
def VReg.full (r : VReg) (cap : Nat) : Bool :=
  if r.rest = .absent then decide ((r.cells.filter (fun c => c.1 < cap)).length = cap)
  else r.cells.all (fun c => cap ≤ c.1 || c.2 ≠ .absent)

def PReg.full (r : PReg) (cap : Nat) : Bool :=
  if r.rest = .absent then decide ((r.cells.filter (fun c => c.1 < cap)).length = cap)
  else r.cells.all (fun c => cap ≤ c.1 || c.2 ≠ .absent)

def Vec.vreg (v : Vec) (p : Fin 128) : VReg := v.vregs.get p
def Vec.preg (v : Vec) (p : Fin 48) : PReg := v.pregs.get p
def Vec.setVreg (v : Vec) (p : Fin 128) (r : VReg) : Vec := { v with vregs := v.vregs.set p.val r }
def Vec.setPreg (v : Vec) (p : Fin 48) (r : PReg) : Vec := { v with pregs := v.pregs.set p.val r }

/-- Element i of an optional register; none reads VOID. -/
def Vec.elem (v : Vec) (p : Option (Fin 128)) (i : Nat) : Elem := match p with | some p => (v.vreg p).get i | none => .void
def Vec.bit (v : Vec) (p : Option (Fin 48)) (i : Nat) : PBit := match p with | some p => (v.preg p).get i | none => .void

/-- Replaces a rule of the window by its number. -/
def Vec.setRule (v : Vec) (r : Rule) : Vec :=
  { v with window := v.window.map (fun q => if q.rid == r.rid then r else q) }

/-- The physical register that a v or m name maps. -/
def Vec.vphys (v : Vec) (r : BitVec 5) : Fin 128 := v.vmap.get r.toFin
def Vec.mphys (v : Vec) (r : Nat) : Fin 48 := v.mmap[r]?.getD 0
def Vec.tag (v : Vec) (r : BitVec 5) : Tag := v.vtag.get r.toFin

/-! ## What a firing gives -/

/-- What element i of a rule becomes: it waits, is carried, gets a value, becomes VOID, or gets a mask bit, with the status bits
that it raises (R104, R182). -/
inductive Act where
  | wait
  | carry (vs : BitVec 3)
  | val (r : Res)
  | void (vs : BitVec 3)
  | bit (b : Bool) (fl : BitVec 5)
deriving DecidableEq, Repr

/-- The governing mask at an element (R20, R104). -/
inductive Gov where
  | wait | void | off | on
deriving DecidableEq, Repr

def gov (v : Vec) (r : Rule) (i : Nat) : Gov :=
  match r.mp with
  | none => .on
  | some p =>
    match (v.preg p).get i with
    | .absent => .wait
    | .void => .void
    | .present b => if b then .on else .off

/-- R104 around the active case of an element below VLe. -/
def governed (v : Vec) (r : Rule) (i : Nat) (active : Act) : Act :=
  if r.vle ≤ i then .carry 0
  else match gov v r i with
    | .wait => .wait
    | .void => .void 0
    | .off => .carry 0
    | .on => active

/-- An operand of an element: not yet present, VOID, unreadable in a group (R122), or a value. -/
inductive ElOp where
  | wait | void | bad
  | opd (o : Opd)
deriving DecidableEq, Repr

def ElOp.ofElem (e : Elem) (t : Tag) : ElOp :=
  match e with
  | .absent => .wait
  | .void => .void
  | .present b => .opd { bits := b.toNat, tag := t }

/-- Group element j of a pair whose first register has capacity c and width wlog; a group ends at element 2c (R122, R228). -/
def groupElem (v : Vec) (p0 p1 : Option (Fin 128)) (wlog c j : Nat) (t : Tag) : ElOp :=
  if j < c then .ofElem (v.elem p0 j) t
  else if 2 * c ≤ j then .void
  else match p1 with
    | some p => if (v.vreg p).wlog = wlog then .ofElem ((v.vreg p).get (j - c)) t else .bad
    | none => .bad

/-- Source a at element i. -/
def readA (t : Thread) (r : Rule) (sp : RuleSpec) (i : Nat) : ElOp :=
  match sp.a with
  | .pair _ => groupElem t.vec r.a0 r.a1 r.ta.wlog (t.vlmax r.ta.wlog) i r.ta
  | .v _ => .ofElem (t.vec.elem r.a0 i) r.ta
  | .s _ => .opd { bits := r.opa.toNat, tag := r.ta }
  | _ => .opd { bits := 0, tag := r.ta }

/-- Source b at element i; a scalar is taken in va's tag (R105). -/
def readB (t : Thread) (r : Rule) (sp : RuleSpec) (i : Nat) : ElOp :=
  match sp.b with
  | .v _ => .ofElem (t.vec.elem r.b0 i) r.tb
  | .s _ => .opd { bits := r.opb.toNat % 2 ^ r.tb.bits, tag := r.tb }
  | .imm b g => .opd { bits := b, tag := g }
  | _ => .opd { bits := 0, tag := r.tb }

/-- The old destination at element i. -/
def readOld (t : Thread) (r : Rule) (sp : RuleSpec) (i : Nat) : ElOp :=
  match sp.dst with
  | .pair _ => groupElem t.vec r.old0 r.old1 r.td.wlog (t.vlmax r.td.wlog) i r.td
  | _ => .ofElem (t.vec.elem r.old0 i) r.td

/-- Waits for every operand, then VOID if one is VOID, the invalid result if one is unreadable, else the function. -/
def combine (td : Tag) (l : List ElOp) (f : List Opd → Act) : Act :=
  if l.contains .wait then .wait
  else if l.contains .void then .void 0
  else if l.contains .bad then .val (invalidRes td)
  else f (l.filterMap (fun o => match o with | .opd x => some x | _ => none))

/-- Rounding mode of a rule: its static field, or the captured FRM (R59, R116). -/
def Rule.rm (r : Rule) : Nat := r.frm.toNat

/-- Index of an operand read unsigned; a floating index counts as beyond every capacity (R140). -/
def indexOf (o : Opd) (beyond : Nat) : Nat := if o.tag.isFloat then beyond else o.bits % 2 ^ o.tag.bits

/-- A moved element: the pattern as it stands; between unequal widths the invalid result, where the source element is neither ABSENT nor
VOID (R109, R139). -/
def moved (td ta : Tag) (e : ElOp) : Act :=
  match e with
  | .wait => .wait
  | .void => .void 0
  | .bad => .val (invalidRes td)
  | .opd o => if td.wlog = ta.wlog then .val (.plain o.bits) else .val (invalidRes td)

/-- An element whose source index lies beyond the source: zero with a status bit; between unequal widths the invalid result alone
(R109, R139, R140; assumption 77). -/
def beyond (td ta : Tag) (vs : BitVec 3) : Act :=
  if td.wlog = ta.wlog then .val { bits := 0, fl := 0, vs := vs } else .val (invalidRes td)

/-! ## Mask scans (R136, R137) -/

/-- State of the scan of ma up to an index: a bit it needs is ABSENT, nothing found, or found at f, VOID or not. -/
inductive Found where
  | wait
  | none
  | at (f : Nat) (void : Bool)
deriving DecidableEq, Repr

/-- The lowest index at or below i that R136 looks for. -/
def firstSet (v : Vec) (r : Rule) (i : Nat) : Found :=
  (List.range (i + 1)).foldl (fun a j =>
    match a with
    | .wait => .wait
    | .none =>
      match gov v r j, v.bit r.pa j with
      | .wait, _ => .wait
      | _, .absent => .wait
      | .void, _ => .at j true
      | .off, _ => .none
      | .on, .void => .at j true
      | .on, .present b => if b then .at j false else .none
    | .at f w =>
      match gov v r j, v.bit r.pa j with
      | .wait, _ => .wait
      | _, .absent => .wait
      | _, _ => .at f w) .none

/-- The count of set active bits below i (R137); none while a bit it needs is ABSENT, `some none` when a bit is VOID. -/
def countSet (v : Vec) (r : Rule) : Nat → Option (Option Nat)
  | 0 => some (some 0)
  | j + 1 =>
    match countSet v r j, gov v r j with
    | none, _ => none
    | _, .wait => none
    | some _, .void => some none
    | some x, .off => some x
    | some x, .on =>
      match v.bit r.pa j with
      | .absent => none
      | .void => some none
      | .present b => some (x.map (fun n => if b then n + 1 else n))

/-! ## Compress and push (R142, R143) -/

/-- The index of the k-th set bit of mb below VLe: `none` while a bit it needs is ABSENT, `some none` when there is none. -/
def nthSet (v : Vec) (r : Rule) (k : Nat) : Nat → Nat → Option (Option Nat)
  | 0, _ => some none
  | n + 1, seen =>
    match v.bit r.pb (r.vle - (n + 1)) with
    | .absent => none
    | .present true => if seen = k then some (some (r.vle - (n + 1))) else nthSet v r k n (seen + 1)
    | _ => nthSet v r k n seen

/-- How far the pushes below n go: targets with their source and whether the push is void, and the RANGE and COLL bits; none
while an element they need is ABSENT. -/
def pushes (t : Thread) (r : Rule) : Nat → Option (List (Nat × Nat × Bool) × BitVec 3)
  | 0 => some ([], 0)
  | i + 1 =>
    match pushes t r i with
    | none => none
    | some (ws, vs) =>
      match gov t.vec r i with
      | .wait => none
      | .off => some (ws, vs)
      | g =>
        match ElOp.ofElem (t.vec.elem r.b0 i) r.tb with
        | .wait => none
        | .opd o =>
          let j := indexOf o r.vle
          if r.vle ≤ j then some (ws, vs ||| vRANGE)
          else
            let hit := ws.any (fun w => w.1 == j)
            some ((j, i, g == .void) :: ws.filter (fun w => w.1 != j), if hit then vs ||| vCOLL else vs)
        | _ => some (ws, vs)

/-! ## Reductions and scans (R69 to R72, R146 to R148) -/

/-- Element j of a reduction's input: not yet present, the identity, or a value. -/
def redInput (t : Thread) (r : Rule) (j : Nat) : ElOp :=
  match gov t.vec r j with
  | .wait => .wait
  | .on =>
    match ElOp.ofElem (t.vec.elem r.a0 j) r.ta with
    | .wait => .wait
    | .opd o => .opd o
    | _ => .void
  | _ => .void

/-- Whether a segment starts at j, or none while the bit is ABSENT; a VOID bit counts as 0 (R147). -/
def segStart (v : Vec) (r : Rule) (j : Nat) : Option Bool :=
  if j = 0 then some true
  else match r.sp with
    | none => some false
    | some p =>
      match (v.preg p).get j with
      | .absent => none
      | .present b => some b
      | .void => some false

/-- First and last element of segment t, or how many segments there are. -/
inductive SegRes where
  | wait
  | seg (b e : Nat)
  | past (n : Nat)
deriving DecidableEq, Repr

/-- Scans for segment t from index j, with n starts seen before j and the start of the wanted one. -/
def findSeg (v : Vec) (r : Rule) (t : Nat) : Nat → Nat → Nat → Option Nat → SegRes
  | 0, _, n, some b => if n = 0 then .wait else .seg b (r.vle - 1)
  | 0, _, n, none => .past n
  | k + 1, j, n, cur =>
    match segStart v r j with
    | none => .wait
    | some false => findSeg v r t k (j + 1) n cur
    | some true =>
      match cur with
      | some b => .seg b (j - 1)
      | none => findSeg v r t k (j + 1) (n + 1) (if n = t then some j else none)

/-- The number of segments, when every segment bit below VLe is known. -/
def segCount (v : Vec) (r : Rule) : Option Nat :=
  (List.range r.vle).foldl (fun a j =>
    match a, segStart v r j with
    | some n, some b => some (if b then n + 1 else n)
    | _, _ => none) (some 0)

/-- A running value: none for an identity that is no value, an exact integer, or a value of the computing format. -/
inductive RedVal where
  | ident
  | int (n : Int)
  | flt (x : FVal)
  | pat (n : Nat)
deriving DecidableEq, Repr

/-- A value with the flags of its forming. -/
structure Run where
  v  : RedVal
  fl : BitVec 5
deriving DecidableEq, Repr

/-- One operand entering a reduction of computing format T (none: exact integers); min and max keep the exact value. -/
def redOf (op : RedOp) (T : Option Fmt) (rm : Nat) (o : Opd) : Run :=
  match op with
  | .and | .or | .xor => { v := .pat (o.tag.extend o.bits), fl := 0 }
  | .min | .max =>
    match T with
    | none => { v := .int o.int, fl := 0 }
    | some _ => { v := .flt o.val.fval, fl := 0 }
  | _ =>
    match T with
    | none => { v := .int o.int, fl := 0 }
    | some f => let (x, fl) := o.val.toFmt f rm; { v := .flt x, fl := fl }

/-- The identity of a reduction (R69). -/
def redIdent (op : RedOp) (T : Option Fmt) : Run :=
  match op with
  | .and => { v := .pat (2 ^ 64 - 1), fl := 0 }
  | .or | .xor => { v := .pat 0, fl := 0 }
  | .min => match T with | none => { v := .ident, fl := 0 } | some _ => { v := .flt (.inf false), fl := 0 }
  | .max => match T with | none => { v := .ident, fl := 0 } | some _ => { v := .flt (.inf true), fl := 0 }
  | _ => match T with | none => { v := .int 0, fl := 0 } | some _ => { v := .flt (.fin true 0 0), fl := 0 }

/-- x ⊕ y, a floating sum rounded to T (R70, R71). -/
def redStep (op : RedOp) (T : Option Fmt) (rm : Nat) (x y : Run) : Run :=
  let fl := x.fl ||| y.fl
  match x.v, y.v with
  | .ident, v => { v := v, fl := fl }
  | v, .ident => { v := v, fl := fl }
  | .int a, .int b =>
    { v := .int (match op with | .min => min a b | .max => max a b | _ => a + b), fl := fl }
  | .pat a, .pat b =>
    { v := .pat (match op with | .and => a &&& b | .or => a ||| b | _ => a ^^^ b), fl := fl }
  | .flt a, .flt b =>
    match op, T with
    | .min, _ =>
      { v := .flt (match minmax false a b with | .nan _ => .nan false | .inf n _ => .inf n | .num n m e _ => .fin n m e)
        fl := fl ||| (if a.isSig || b.isSig then fNV else 0) }
    | .max, _ =>
      { v := .flt (match minmax true a b with | .nan _ => .nan false | .inf n _ => .inf n | .num n m e _ => .fin n m e)
        fl := fl ||| (if a.isSig || b.isSig then fNV else 0) }
    | _, some f =>
      let q := (addExact rm a b).round f rm
      { v := .flt (f.decode q.bits), fl := fl ||| q.fl }
    | _, none => { v := .flt a, fl := fl }
  | v, _ => { v := v, fl := fl }

/-- The ordered form (R70). -/
def redOrdered (op : RedOp) (T : Option Fmt) (rm : Nat) : List Run → Run
  | [] => redIdent op T
  | x :: r => r.foldl (redStep op T rm) x

/-- One level of the tree form: neighbours combined. -/
def redPairs (op : RedOp) (T : Option Fmt) (rm : Nat) : List Run → List Run
  | x :: y :: r => redStep op T rm x y :: redPairs op T rm r
  | l => l

/-- Levels of the tree form. -/
def redTree (op : RedOp) (T : Option Fmt) (rm : Nat) : Nat → List Run → Run
  | 0, l => l.headD (redIdent op T)
  | k + 1, l => redTree op T rm k (redPairs op T rm l)

/-- Smallest k with n ≤ 2^k. -/
def log2Up (n : Nat) : Nat := if n ≤ 1 then 0 else Nat.log2 (n - 1) + 1

/-- A reduction in its form; the tree pads with the identity to a power of two. -/
def redList (op : RedOp) (T : Option Fmt) (rm : Nat) (l : List Run) : Run :=
  match op with
  | .sumT =>
    let k := log2Up l.length
    redTree op T rm k (l ++ List.replicate (2 ^ k - l.length) (redIdent op T))
  | _ => redOrdered op T rm l

/-- A result converted to vd's tag: through T when it is floating (R147, R69 for an identity alone). The largest and smallest value of
a floating tag are taken as the infinities, and as ±448 in E4M3 (assumption 78). -/
def redOut (op : RedOp) (T : Option Fmt) (rm : Nat) (td : Tag) (x : Run) : Res :=
  match x.v with
  | .ident =>
    match td.fmt with
    | none => .plain (intBits td.bits (if op = .min then td.hi else td.lo))
    | some f => .plain (f.signed (decide (op = .max)) (if f = .e4m3 then f.maxCode else f.infCode))
  | .int n => let r := (Val.int n).toTag td rm; { r with fl := r.fl ||| x.fl }
  | .pat n => .plain (n % 2 ^ td.bits)
  | .flt v =>
    match T with
    | some f => let r := v.exact.finish f td rm; { r with fl := r.fl ||| x.fl }
    | none => let r := v.exact.toTag td rm; { r with fl := r.fl ||| x.fl }

/-- Operand list as runs, with VOID and inactive ones as the identity; none while one is ABSENT. -/
def redRuns (op : RedOp) (T : Option Fmt) (rm : Nat) (l : List ElOp) : Option (List Run) :=
  if l.contains .wait then none
  else some (l.map (fun o => match o with | .opd x => redOf op T rm x | _ => redIdent op T))

/-- Segments whose result a reduction can write: those below vd's capacity, and below vb's where the start is a vector (R147). -/
def redCap (t : Thread) (r : Rule) (sp : RuleSpec) : Nat :=
  match sp.b with
  | .v _ => min (t.vlmax r.td.wlog) (t.vlmax r.tb.wlog)
  | _ => t.vlmax r.td.wlog

/-- Element i of a reduction's destination: the result of segment i, once every element of the segment is there, active or not; or the old element
where there is none (R147). -/
def evalReduce (t : Thread) (r : Rule) (sp : RuleSpec) (op : RedOp) (i : Nat) : Act :=
  if redCap t r sp ≤ i then .carry 0
  else match findSeg t.vec r i r.vle 0 0 none with
    | .wait => .wait
    | .past _ => .carry 0
    | .seg b e =>
      let T := computing [r.ta, r.tb]
      if (List.range (e + 1 - b)).any (fun k => t.vec.elem r.a0 (b + k) == .absent) then .wait
      else match redRuns op T r.rm ((List.range (e + 1 - b)).map (fun k => redInput t r (b + k))), readB t r sp i with
      | none, _ => .wait
      | _, .wait => .wait
      | some _, .void => .void 0
      | some l, .opd o => .val (redOut op T r.rm r.td (redStep op T r.rm (redOf op T r.rm o) (redList op T r.rm l)))
      | some _, .bad => .val (invalidRes r.td)

/-- The first element of i's segment. -/
def segBegin (v : Vec) (r : Rule) : Nat → Option Nat
  | 0 => some 0
  | j + 1 =>
    match segStart v r (j + 1) with
    | none => none
    | some true => some (j + 1)
    | some false => segBegin v r j

/-- Element i of a scan (R148). -/
def evalScan (t : Thread) (r : Rule) (op : RedOp) (i : Nat) : Act :=
  governed t.vec r i
    (match segBegin t.vec r i with
     | none => .wait
     | some b =>
       let T := computing [r.ta, r.ta]
       let ins := (List.range (i + 1 - b)).map (fun k => redInput t r (b + k))
       match redRuns op T r.rm ins with
       | none => .wait
       | some l =>
         let none_ := ins.all (fun o => o == .void)
         let x := redOrdered op T r.rm l
         if none_ && (op = .min || op = .max) then .val (redOut op T r.rm r.td { v := .ident, fl := 0 })
         else .val (redOut op T r.rm r.td x))

/-! ## Register rules -/

/-- Value of element i of a register rule, or that it waits or is carried (R104, R182). A VPUSH or VCOMPRESS between unequal widths gives the
invalid result to the elements that it moves, and carries the others (assumption 77). -/
def evalAt (t : Thread) (r : Rule) (sp : RuleSpec) (i : Nat) : Act :=
  let v := t.vec
  match sp.kind with
  | .ew f =>
    governed v r i (combine r.td [readA t r sp i, readB t r sp i] (fun l =>
      match l with
      | [a, b] => .val (f r.td r.rm a b)
      | _ => .wait))
  | .fma f rm =>
    governed v r i (combine r.td [readA t r sp i, readB t r sp i, readOld t r sp i] (fun l =>
      match l with
      | [a, b, c] => .val (f r.td (if rm = 7 then r.rm else rm) a b c)
      | _ => .wait))
  | .cmp f =>
    governed v r i (combine r.ta [readA t r sp i, readB t r sp i] (fun l =>
      match l with
      | [a, b] => let q := f a b; .bit q.bit q.fl
      | _ => .wait))
  | .mask2 f =>
    governed v r i
      (match v.bit r.pa i, (match sp.b with | .m _ => v.bit r.pb i | _ => .present false) with
       | .absent, _ => .wait
       | _, .absent => .wait
       | .present x, .present y => .bit (f x y) 0
       | _, _ => .void 0)
  | .first row =>
    governed v r i
      (match firstSet v r i with
       | .wait => .wait
       | .none => .bit row.1 0
       | .at f void => if void then .void 0 else .bit (if f = i then row.2.1 else row.2.2.1) 0)
  | .iota =>
    governed v r i
      (match countSet v r i with
       | none => .wait
       | some none => .void 0
       | some (some n) => .val ((Val.int n).toTag r.td r.rm))
  | .vid => governed v r i (.val ((Val.int i).toTag r.td r.rm))
  | .gather =>
    governed v r i
      (match ElOp.ofElem (v.elem r.b0 i) r.tb with
       | .opd o =>
         let c := t.vlmax r.ta.wlog
         let cap := match sp.a with | .pair _ => 2 * c | _ => c
         let j := indexOf o cap
         if cap ≤ j then beyond r.td r.ta vRANGE
         else moved r.td r.ta (groupElem v r.a0 r.a1 r.ta.wlog c j r.ta)
       | .void => .void 0
       | _ => .wait)
  | .slide k =>
    governed v r i
      (let s := r.opb.toNat
       let c := t.vlmax r.ta.wlog
       let src (j : Nat) : Act := if j < c then moved r.td r.ta (.ofElem (v.elem r.a0 j) r.ta) else beyond r.td r.ta 0
       let scalar : Act := moved r.td r.ta (.opd { bits := s % 2 ^ r.ta.bits, tag := r.ta })
       match k with
       | 0 => if s ≤ i then src (i - s) else if r.td.wlog = r.ta.wlog then .carry 0 else .val (invalidRes r.td)
       | 1 => src (i + s)
       | 2 => if i = 0 then scalar else src (i - 1)
       | _ => if i + 1 = r.vle then scalar else src (i + 1))
  | .compress =>
    if r.vle ≤ i then .carry 0
    else match nthSet v r i r.vle 0 with
      | none => .wait
      | some none => .carry 0
      | some (some j) => moved r.td r.ta (.ofElem (v.elem r.a0 j) r.ta)
  | .push =>
    if r.vle ≤ i then .carry 0
    else match pushes t r r.vle with
      | none => .wait
      | some (ws, vs) =>
        match ws.find? (fun w => w.1 == i) with
        | none => .carry vs
        | some (_, j, void) =>
          if void then .void vs
          else match moved r.td r.ta (.ofElem (v.elem r.a0 j) r.ta) with
            | .val q => .val { q with vs := q.vs ||| vs }
            | .void _ => .void vs
            | a => a
  | .splat => governed v r i (.val (.plain (r.opb.toNat % 2 ^ r.td.bits)))
  | .ext =>
    governed v r i
      (if t.vlmax r.ta.wlog ≤ r.opb.toNat then beyond r.td r.ta vRANGE
       else moved r.td r.ta (.ofElem (v.elem r.a0 r.opb.toNat) r.ta))
  | .reduce op => evalReduce t r sp op i
  | .scan op => evalScan t r op i
  | .mem _ => if r.vle ≤ i then .carry 0 else match gov v r i with
      | .wait => .wait
      | .void => .void 0
      | .off => .carry 0
      | .on => .wait
  | .tblb _ => .wait
  | .mrd _ => .wait
  | .cwalk _ => .wait
  | .vpf => .wait

end Sys2Proof.Machine
end

