-- ==== Sys2Proof/Machine/Fire.lean ====
section
/-! DEFINITION. Firing: which element of a rule is ready, in which lane and class it fires, and what a firing, a carry, a
retirement and a release change (spec/10 R182 to R189; spec/08 R151 to R154, R163, R167). -/

namespace Sys2Proof.Machine

/-! ## The form and size of a rule -/

/-- The operand form of a rule in a window. A VTAG that stands there while a VPF runs has none: it is complete as it is issued (R248). A
SETFIB only carries bits of its mask (R132, assumption 91). -/
def Rule.spec (r : Rule) : RuleSpec :=
  (ruleSpec r.instr).getD (match r.instr with | .setfib _ _ _ _ k => { mask := 0, dst := .m k.toNat, kind := .vid } | _ => { mask := 0, kind := .vpf })

/-- The memory form of a rule, if it is a memory rule. -/
def RuleSpec.mem? (sp : RuleSpec) : Option MemSpec := match sp.kind with | .mem m => some m | _ => none

/-- How many elements the rule has: every position of the registers it allocated, and every element of its length (R185). -/
def Rule.size (r : Rule) (sp : RuleSpec) (t : Thread) : Nat :=
  let d := match sp.dst with
    | .none => 0
    | .v _ => t.vlmax r.td.wlog
    | .pair _ => 2 * t.vlmax r.td.wlog
    | .two _ => max (t.vlmax r.td.wlog) (t.vlmax r.ta.wlog)
    | .m _ => t.vlmax 0
  max (max d (if sp.m0 then t.vlmax 0 else 0)) r.vle

def Rule.isDone (r : Rule) (i : Nat) : Bool := r.done.getLsbD i

def Rule.setDone (r : Rule) (i : Nat) : Rule := { r with done := r.done ||| (1#8192 <<< i) }

/-- The v and m names of a write-set (R243), ascending. -/
def vsetNames (f : Vpf) : List (Fin 32) := (List.finRange 32).filter (fun n => f.vset.getLsbD n.val)
def msetNames (f : Vpf) : List (Fin 16) := (List.finRange 16).filter (fun n => f.mset.getLsbD n.val)

/-- Some VP of the thread has not stopped. -/
def Thread.vpActive (t : Thread) : Bool := match t.vpf with | some f => f.vps != [] | none => false

/-- The VPF of a rule, while it stands in the window. -/
def Thread.vpfOf (t : Thread) (rid : Nat) : Option Vpf := (t.vpf.toList ++ t.vpfDone).find? (fun f => f.rid == rid)

/-- Every element of the write-set registers of a VPF is there (R245). -/
def Vpf.full (f : Vpf) (t : Thread) : Bool :=
  (vsetNames f).all (fun n => (t.vec.vreg (f.vmap.get n)).full (t.vlmax (f.vtag.get n).wlog)) &&
  (msetNames f).all (fun n => (t.vec.preg (f.mmap.get n)).full (t.vlmax 0))

/-- A segmented reduction has not yet settled whether it drops a segment (R147). Its `count` says that it has. -/
def Rule.rangeOpen (r : Rule) (sp : RuleSpec) : Bool :=
  match sp.kind with
  | .reduce _ => r.sp.isSome && r.count == 0
  | _ => false

/-- Every element of the rule is done, no fault or returned data is left, and no status bit is still to be raised (R185, R245). The `count` of a
VPF's rule says that its write-set is known to be whole. -/
def Rule.complete (r : Rule) (sp : RuleSpec) (t : Thread) : Bool :=
  let all : BitVec 8192 := BitVec.ofNat 8192 (2 ^ r.size sp t - 1)
  decide (r.done &&& all = all) && r.faults == [] && r.flight == [] && !r.mark && !r.rangeOpen sp &&
  (match sp.kind, t.vpfOf r.rid with | .vpf, some f => f.vps == [] && (r.count == 1 || f.full t) | _, _ => true)

/-- Whether the computing type of the rule's function is floating, or the function is a float function (R107, R184). -/
def Rule.floats (r : Rule) : Bool :=
  match r.instr with
  | .vand _ _ _ _ _ | .vor _ _ _ _ _ | .vxor _ _ _ _ _ | .vsll _ _ _ _ _ | .vsrl _ _ _ _ _ | .vsra _ _ _ _ _ => false
  | .vandi _ _ _ _ | .vori _ _ _ _ | .vxori _ _ _ _ | .vslli _ _ _ _ | .vsrli _ _ _ _ | .vsrai _ _ _ _ => false
  | .vfclass _ _ _ | .vfsgnj _ _ _ _ _ | .vfsgnjn _ _ _ _ _ | .vfsgnjx _ _ _ _ _ => false
  | .vnshr _ _ _ _ _ => false
  | .vfsqrt _ _ _ | .vfrec _ _ _ | .vfrsqrt _ _ _ => true
  | .vcvt _ _ _ | .vncvt _ _ _ => r.ta.isFloat || r.td.isFloat
  | .vfmadd _ _ _ _ _ _ | .vfmsub _ _ _ _ _ _ | .vfrmsub _ _ _ _ _ _ | .vfnmadd _ _ _ _ _ _ | .vwmacc _ _ _ _ _ =>
    (computing [r.ta, r.tb, r.td]).isSome
  | _ => (computing [r.ta, r.tb]).isSome

/-- The combining operation is a sum. -/
def RedOp.isSum (op : RedOp) : Bool := op = .sumO || op = .sumT

/-- The functional class a rule fires in; classes affect timing only (R107, R147, R184). -/
def Rule.cls (r : Rule) (sp : RuleSpec) : FClass :=
  match sp.kind with
  | .ew _ | .fma _ _ => if r.floats then .floating else .integerMask
  | .reduce op | .scan op => if op.isSum && r.floats then .floating else .integerMask
  | .cmp _ | .mask2 _ | .first _ | .iota | .vid => .integerMask
  | .gather | .slide _ | .compress | .push | .splat | .ext => .permute
  | .mem _ | .tblb _ | .mrd _ | .cwalk _ | .vpf => .memoryReturn

/-- Elements of the rule in a lane the thread holds, ascending (R26). -/
def laneElems (t : Thread) (lane n : Nat) : List Nat :=
  let m := t.cfg.lmap
  if m.getLsbD lane then
    let l := laneCount m
    let k := popcount lane m.toNat
    ((List.range (n / l + 1)).map (fun j => k + l * j)).filter (· < n)
  else []

/-! ## Elements of memory rules -/

/-- Memory format of a rule's elements (R151). -/
def memTag (fmt : Nat) (td : Tag) : Tag := listGet td [td, .bf16, .f32, .e4m3, .e5m2, .i8, .n8, .i16] fmt

/-- Width in memory of a rule's elements (R151). -/
def memWidth (r : Rule) (m : MemSpec) : Nat := (memTag m.fmt r.td).bytes

/-- off(i) of an index element (R152). -/
def indexOff (t : Tag) (bits : Nat) (wide : Bool) : Word :=
  let v : Int := if t.isFloat then ((bits % 2 ^ t.bits : Nat) : Int) else t.toInt bits
  let w := BitVec.ofInt 64 v
  if wide then w else (w.setWidth 32).signExtend 64

/-- What a memory rule does at an active element: an operand is ABSENT, the element is dropped for a VOID operand, it takes the
invalid result, or it accesses an address (R153, R154, R163, R167, R170). -/
inductive MemEl where
  | wait | drop | invalid
  | access (va : Word)
deriving DecidableEq, Repr

/-- Tags a VAMO works on (R167). -/
def amoTag (t : Tag) : Bool := t = .i32 || t = .n32 || t = .i64 || t = .n64

/-- Elements an active element of a memory rule reads besides its mask bit and index. -/
def memData (v : Vec) (r : Rule) (m : MemSpec) (i : Nat) : List Elem :=
  match m.dir with
  | .load | .laneLoad => []
  | .store | .laneStore => [v.elem r.x0 i]
  | .amo op => v.elem r.old0 i :: (if op = .cas then [v.elem r.x0 i] else [])

/-- The address of element i, once its index is there (R152). -/
def memAddr (v : Vec) (r : Rule) (m : MemSpec) (i : Nat) : Option Word :=
  match m.mode with
  | .indexed _ wide => match v.elem r.b0 i with | .present b => some (r.opa + indexOff r.tb b.toNat wide) | _ => none
  | .strided => some (r.opa + BitVec.ofNat 64 i * r.opb)
  | _ => some (r.opa + BitVec.ofNat 64 (i * memWidth r m))

/-- A VAMO on a tag that R167 does not list. -/
def MemSpec.badTag (m : MemSpec) (r : Rule) : Bool := match m.dir with | .amo _ => !amoTag r.td | _ => false

def memEl (v : Vec) (r : Rule) (m : MemSpec) (i : Nat) : MemEl :=
  let data := memData v r m i
  let idx := match m.mode with | .indexed _ _ => [v.elem r.b0 i] | _ => []
  if m.badTag r then .invalid
  else if (idx ++ data).contains .absent then .wait
  else if (idx ++ data).contains .void then .drop
  else match memAddr v r m i with
    | some a => .access a
    | none => .wait

/-- The element still has an access to perform, or may have one (R158, R160). -/
def memPending (v : Vec) (r : Rule) (m : MemSpec) (i : Nat) : Bool :=
  if r.vle ≤ i || r.isDone i || r.flight.any (fun f => f.elem == i) then false
  else match gov v r i with
    | .wait => true
    | .void | .off => false
    | .on =>
      match memEl v r m i with
      | .wait => true
      | .drop | .invalid => false
      | .access _ => v.bit r.pd i ≠ .present true

/-- What becomes of an element of a memory rule without an access of its own now: VOID drops, invalid results, returned data
and carried elements (R153, R154, R163, R167). A VAMO on an unlisted tag gives the invalid result before it looks at its mask bit for VOID
(assumption 104). -/
def memAct (v : Vec) (r : Rule) (m : MemSpec) (i : Nat) : Act :=
  if r.vle ≤ i then .carry 0
  else match gov v r i with
    | .wait => .wait
    | .void => if m.badTag r then .val (invalidRes r.td) else .void 0
    | .off => .carry 0
    | .on =>
      match r.flight.find? (fun f => f.elem == i) with
      | some f => if f.lost then .void 0 else
          (match m.dir with
           | .load => let g := memTag m.fmt r.td
                      if g = r.td then .val (.plain (f.bits.toNat % 2 ^ r.td.bits))
                      else .val ((g.value f.bits.toNat).toTag r.td r.rm)
           | _ => .val (.plain (f.bits.toNat % 2 ^ r.td.bits)))
      | none =>
        match memEl v r m i with
        | .wait => .wait
        | .drop => .void 0
        | .invalid => .val (invalidRes r.td)
        | .access _ => if v.bit r.pd i = .present true then .carry 0 else .wait

/-! ## The accumulators (R21, R330) -/

/-- Element (row, column) of an accumulator. -/
def State.accGet (s : State) (a row col : Nat) : BitVec 32 := Cells.get 0 s.acc (a * 65536 + row * 256 + col)

def State.accLost (s : State) (a row col : Nat) : Bool := s.accPoison.contains (a * 65536 + row * 256 + col)

/-- The command writes the accumulator. -/
def MatOp.writesAcc (o : MatOp) (a : Nat) : Bool :=
  match o with
  | .mzero c _ => c == a
  | .mma c _ _ _ => c == a
  | _ => false

def MatCmd.isMrd (c : MatCmd) (sl : Slot) (rid : Nat) : Bool :=
  match c.op with | .mrd _ _ k r => k == sl && r == rid | _ => false

/-- An MST may set the accumulator's sticky saturation bit, which the status row shows (R331). -/
def MatOp.storesAcc (o : MatOp) (a : Nat) : Bool := match o with | .mst c _ _ _ _ => c == a | _ => false

/-- The command has still to write row q of the accumulator: an MMA writes the rows of its panel, one after another (R301). -/
def MatCmd.writesRow (c : MatCmd) (a q : Nat) : Bool :=
  match c.op with
  | .mzero b _ => b == a
  | .mma b _ _ p => b == a && decide (q < p.m) && decide (c.done < (q + 1) * p.groups)
  | _ => false

/-- The row an MRD reads is released for it: every earlier command that writes the row has written it. The status row is released once every
earlier command that writes the accumulator, or may set its saturation bit, is complete (R301, R330). -/
def State.mrdReady (s : State) (sl : Slot) (rid a q : Nat) : Bool :=
  !((s.matQ.takeWhile (fun c => !c.isMrd sl rid)).any (fun c =>
      if q = 256 then c.op.writesAcc a || c.op.storesAcc a else c.writesRow a q))

/-- Code of an accumulator format, which an MRD rule captures in its count (R300). -/
def AccFmt.code : AccFmt → Nat
  | .unset => 0
  | .int32 => 1
  | .fp32 => 2

/-- Element j of row q of an accumulator, or of its status row (R330). -/
def mrdAct (s : State) (r : Rule) (a j : Nat) : Act :=
  let q := r.opa.toNat
  if q = 256 then
    .val ((Val.int (if j = 0 then (if (s.accSat[a]?).getD false then 1 else 0)
                    else if j = 1 then (if r.count = AccFmt.code .fp32 then 1 else 0) else 0)).toTag r.td r.rm)
  else if s.accLost a q j then .void 0
  else
    let b := (s.accGet a q j).toNat
    .val (((if r.count = AccFmt.code .fp32 then Tag.f32 else .i32).value b).toTag r.td r.rm)

/-! ## What an element becomes -/

/-- What element i of a rule of the slot becomes now (R182). -/
def State.act (s : State) (sl : Slot) (r : Rule) (sp : RuleSpec) (i : Nat) : Act :=
  let t := s.th sl
  match sp.kind with
  | .mem m => memAct t.vec r m i
  | .mrd a => governed t.vec r i (if s.mrdReady sl r.rid a r.opa.toNat then mrdAct s r a i else .wait)
  | .tblb _ => .wait
  | .cwalk _ => if r.mark then .wait else if r.vle ≤ i then .carry 0 else .wait
  | .vpf => .wait
  | _ => evalAt t r sp i

/-- Element i of the registers that the rule carries from, each with its destination, capacity and position. -/
structure CarrySrc where
  dst : Option (Fin 128)
  src : Option (Fin 128)
  pos : Nat

def vCarry (r : Rule) (sp : RuleSpec) (t : Thread) (i : Nat) : List CarrySrc :=
  let c := t.vlmax r.td.wlog
  match sp.dst with
  | .v _ => if i < c then [{ dst := r.d0, src := r.old0, pos := i }] else []
  | .pair _ => if i < c then [{ dst := r.d0, src := r.old0, pos := i }]
               else if i < 2 * c then [{ dst := r.d1, src := r.old1, pos := i - c }] else []
  | .two _ => (if i < c then [{ dst := r.d0, src := r.old0, pos := i }] else []) ++
              (if i < t.vlmax r.ta.wlog then [{ dst := r.d1, src := r.old1, pos := i }] else [])
  | _ => []

/-- An old element as the carry copies it: an old register of another width gives PRESENT zero beyond reinterpretation (R122,
R133); the first destination has the width of its own old register. -/
def oldElem (v : Vec) (c : CarrySrc) : Elem :=
  match c.src, c.dst with
  | some p, some d => if (v.vreg p).wlog = (v.vreg d).wlog then (v.vreg p).get c.pos else .present 0
  | _, _ => .present 0

def Vec.putV (v : Vec) (p : Option (Fin 128)) (i : Nat) (e : Elem) : Vec :=
  match p with | some p => v.setVreg p ((v.vreg p).put i e) | none => v

def Vec.putP (v : Vec) (p : Option (Fin 48)) (i : Nat) (b : PBit) : Vec :=
  match p with | some p => v.setPreg p ((v.preg p).put i b) | none => v

/-- The carry of a v element is still to be made, and its old element is there. -/
def CarrySrc.open_ (c : CarrySrc) (v : Vec) : Bool := v.elem c.dst c.pos == .absent
def CarrySrc.ready (c : CarrySrc) (v : Vec) : Bool := c.open_ v && oldElem v c != .absent

/-- The same for the predicate bit of element i. -/
def pCarryOpen (v : Vec) (r : Rule) (t : Thread) (i : Nat) : Bool := r.pd.isSome && i < t.vlmax 0 && v.bit r.pd i == .absent
def pCarryReady (v : Vec) (r : Rule) (t : Thread) (i : Nat) : Bool := pCarryOpen v r t i && v.bit r.pold i != .absent

/-- Some carry of element i of a rule is still to be made (R104, R185). -/
def carryOpen (v : Vec) (r : Rule) (sp : RuleSpec) (t : Thread) (i : Nat) : Bool :=
  (vCarry r sp t i).any (fun c => c.open_ v) || pCarryOpen v r t i

/-- A carry of element i can be made now, or none is left; each register's carry waits for its own old element alone (R182, R183). -/
def carryReady (r : Rule) (sp : RuleSpec) (t : Thread) (i : Nat) : Bool :=
  (vCarry r sp t i).any (fun c => c.ready t.vec) || pCarryReady t.vec r t i || !carryOpen t.vec r sp t i

/-- Copies the old element i into each register of the rule where it is there and not yet copied (R104). -/
def carryElem (v : Vec) (r : Rule) (sp : RuleSpec) (t : Thread) (i : Nat) : Vec :=
  let v := (vCarry r sp t i).foldl (fun v c => if c.ready v then v.putV c.dst c.pos (oldElem v c) else v) v
  if pCarryReady v r t i then v.putP r.pd i (v.bit r.pold i) else v

/-- Writes element i of the rule's vector destination. -/
def writeElem (v : Vec) (r : Rule) (sp : RuleSpec) (t : Thread) (i : Nat) (e : Elem) : Vec :=
  (vCarry r sp t i).foldl (fun v c => v.putV c.dst c.pos e) v

/-- Sets element i of a rule to what it becomes (R104, R154, R163, R181). -/
def Thread.fireElem (t : Thread) (r : Rule) (sp : RuleSpec) (i : Nat) (a : Act) : Thread :=
  let isM := match sp.dst with | .m _ => true | _ => false
  let fin (v : Vec) (fl : BitVec 5) (vs : BitVec 3) : Thread :=
    let r := { r.setDone i with flight := r.flight.filter (fun f => f.elem != i) }
    ({ t with vec := v.setRule r }).raise fl vs
  let landed := r.flight.any (fun f => f.elem == i)
  let setM0 (v : Vec) (b : PBit) : Vec := if sp.m0 && v.bit r.pd i = .absent then v.putP r.pd i b else v
  match a with
  | .wait => t
  | .carry vs =>
    let v := carryElem t.vec r sp t i
    if carryOpen v r sp t i then ({ t with vec := v }).raise 0 vs else fin v 0 vs
  | .val q => fin (setM0 (writeElem t.vec r sp t i (.present (BitVec.ofNat 64 q.bits))) (.present false)) q.fl q.vs
  | .bit b fl => fin (t.vec.putP r.pd i (.present b)) fl 0
  | .void vs =>
    if isM then fin (t.vec.putP r.pd i .void) 0 vs
    else fin (setM0 (writeElem t.vec r sp t i .void) (if landed then .present false else .void)) 0 vs

/-- The element is an origin of VOID when it becomes VOID for data that cannot be corrected (R218). -/
def originVoid (r : Rule) (sp : RuleSpec) (i : Nat) : Bool :=
  match sp.kind with
  | .mem _ => r.flight.any (fun f => f.elem == i && f.lost)
  | _ => false

/-- Fires or carries element i of the rule with number rid of a slot. -/
def State.fire (s : State) (sl : Slot) (rid : Nat) (i : Nat) (a : Act) : State :=
  let t := s.th sl
  match t.vec.window.find? (fun r => r.rid == rid) with
  | none => s
  | some r =>
    let sp := r.spec
    let mrdVoid := match sp.kind, a with | .mrd _, .void _ => gov t.vec r i == .on | _, _ => false
    let s1 := s.setTh sl (t.fireElem r sp i a)
    if originVoid r sp i || mrdVoid then s1.countVoid sl else s1

/-- No rule of the thread fires: the slot is free, or the window is held as a trap's image (R201). -/
def Thread.frozen (t : Thread) : Bool := !t.occupied || t.held

/-- The ready, unfired elements of a rule in a lane, with what they become. -/
def State.readyIn (s : State) (sl : Slot) (r : Rule) (lane : Nat) : List (Nat × Act) :=
  let t := s.th sl
  let sp := r.spec
  (laneElems t lane (r.size sp t)).filterMap (fun i =>
    if r.isDone i then none
    else match s.act sl r sp i with
      | .wait => none
      | .carry _ => none
      | a => some (i, a))

/-- Bytes that an element of the rule's destination counts in a firing and on the carry path; a predicate bit, to which R183 gives no width
in bytes, counts as one (assumption 79). -/
def Rule.fireWidth (r : Rule) : Nat := match r.spec.dst with | .m _ | .none => 1 | _ => r.td.bytes

/-- Bytes of returned data that an element of the rule lands (R151, R183, R330). -/
def Rule.landWidth (r : Rule) : Nat :=
  match r.spec.kind with
  | .mem m => (match m.dir with | .load => memWidth r m | .store | .laneStore => 1 | _ => r.td.bytes)
  | .mrd _ => 4
  | _ => 1

/-- ELEMENT_FIRE: the oldest rule of a class with a ready element in the lane fires its lowest ready elements, up to 16 / w of
them, and up to 16 bytes of returned data (R183). -/
def State.elementFire (s : State) (sl : Slot) (lane : Fin 64) (cls : FClass) : Option State :=
  let t := s.th sl
  if t.frozen then none
  else
    let ready := fun (r : Rule) =>
      if r.cls r.spec = cls then (match s.readyIn sl r lane with | [] => none | l => some (r, l)) else none
    match t.vec.window.findSome? ready with
    | none => none
    | some (r, l) => some ((l.take (16 / max r.fireWidth r.landWidth)).foldl (fun s p => s.fire sl r.rid p.1 p.2) s)

/-- The ready carried elements of a rule in a lane. -/
def State.carryIn (s : State) (sl : Slot) (r : Rule) (lane : Nat) : List (Nat × Act) :=
  let t := s.th sl
  let sp := r.spec
  (laneElems t lane (r.size sp t)).filterMap (fun i =>
    if r.isDone i then none
    else match s.act sl r sp i with
      | .carry vs => if carryReady r sp t i then some (i, .carry vs) else none
      | _ => none)

/-- The registers that the names of a VPF's write-set mapped before it, ascending, and those they map in it (R248). -/
def vpfVPairs (f : Vpf) (r : Rule) : List (Option (Fin 128) × Fin 128) :=
  [r.d0, r.d1, r.a0, r.a1, r.b0, r.b1, r.x0, r.old0].zip ((vsetNames f).map f.vmap.get)
def vpfMPairs (f : Vpf) (r : Rule) : List (Option (Fin 48) × Fin 48) :=
  [r.mp, r.sp, r.pd, r.pold].zip ((msetNames f).map f.mmap.get)

/-- Makes element i of every write-set register VOID (R245). -/
def vpfVoid (v : Vec) (f : Vpf) (r : Rule) (i : Nat) : Vec :=
  let v := (vpfVPairs f r).foldl (fun v q => v.putV (some q.2) i .void) v
  (vpfMPairs f r).foldl (fun v q => v.putP (some q.2) i .void) v

/-- The governing mask of a VPF, which its rule entry keeps in PA (R248). -/
def vpfGov (v : Vec) (r : Rule) (i : Nat) : Gov := gov v { r with mp := r.pa } i

/-- Elements of the running VPF in a lane that have no VP to run are done: those whose mask bit is clear, and those where it is VOID, which become VOID
(R227, R245). -/
def Thread.vpfSettle (t : Thread) (f : Vpf) (r : Rule) (lane : Nat) : Option Thread :=
  let off := (laneElems t lane r.vle).filter (fun i => !r.isDone i && (vpfGov t.vec r i == .off || vpfGov t.vec r i == .void))
  if off = [] then none
  else
    let v := off.foldl (fun v i => if vpfGov t.vec r i = .void then vpfVoid v f r i else v) t.vec
    some { t with vec := v.setRule (off.foldl Rule.setDone r)
                  vpf := t.vpf.map (fun g => if g.rid = f.rid then { g with vps := g.vps.filter (fun p => !off.contains p.idx) } else g) }

/-- Element i of a VPF has no VP, or its VP has stopped: what the write-set does not hold there yet is carried (R227, R245). -/
def Rule.vpfCarries (r : Rule) (i : Nat) : Bool := decide (r.vle ≤ i) || r.isDone i

/-- A ready carry of one element: how many bytes it counts on the carry path, and the vector side with it made. -/
abbrev CarryStep := Nat × (Vec → Vec)

/-- The old elements of a VPF's write-set that a lane can copy (R183, R245). -/
def vpfCarryIn (t : Thread) (f : Vpf) (r : Rule) (lane : Nat) : List CarryStep :=
  let v := t.vec
  (vpfVPairs f r).flatMap (fun q =>
    let w := (v.vreg q.2).wlog
    (laneElems t lane (t.vlmax w)).filterMap (fun i =>
      if r.vpfCarries i && (v.vreg q.2).get i == .absent && v.elem q.1 i != .absent then
        some (2 ^ w, fun u => u.putV (some q.2) i (v.elem q.1 i)) else none)) ++
  (vpfMPairs f r).flatMap (fun q => (laneElems t lane (t.vlmax 0)).filterMap (fun i =>
      if r.vpfCarries i && (v.preg q.2).get i == .absent && v.bit q.1 i != .absent then
        some (1, fun u => u.putP (some q.2) i (v.bit q.1 i)) else none))

/-- The old bits of a SETFIB's mask that a lane can copy (R132, R183). -/
def segCarryIn (t : Thread) (c : SegCarry) (lane : Nat) : List CarryStep :=
  (laneElems t lane (t.vlmax 0)).filterMap (fun i =>
    if (t.vec.preg c.pd).get i == .absent && (t.vec.preg c.pold).get i != .absent then
      some (1, fun u => u.putP (some c.pd) i ((t.vec.preg c.pold).get i)) else none)

/-- Makes ready carries up to a number of bytes. -/
def takeCarries : Nat → List CarryStep → Vec → Vec
  | _, [], v => v
  | n, c :: r, v => if c.1 ≤ n then takeCarries (n - c.1) r (c.2 v) else v

/-- A SETFIB's carries end once its mask is whole. -/
def Thread.dropSegs (t : Thread) : Thread := { t with segCarry := t.segCarry.filter (fun c => !(t.vec.preg c.pd).full (t.vlmax 0)) }

/-- Whether a segmented reduction drops a segment, once every segment bit is known; none where that is settled or not yet known (R147). -/
def Rule.dropped (r : Rule) (t : Thread) : Option Bool :=
  if r.rangeOpen r.spec then (segCount t.vec r).map (fun n => decide (redCap t r r.spec < n)) else none

/-- Raises RANGE for a reduction that drops a segment. -/
def Thread.settleRange (t : Thread) (r : Rule) : Thread :=
  match r.dropped t with
  | none => t
  | some d => ({ t with vec := t.vec.setRule { r with count := 1 } }).raise 0 (if d then vRANGE else 0)

/-- A lane's carry path copies what it can of one rule, up to 16 bytes (R183). -/
def State.carryRule (s : State) (sl : Slot) (lane : Nat) (r : Rule) : Option State :=
  let t := s.th sl
  match r.spec.kind, t.vpfOf r.rid with
  | .vpf, some f =>
    let settled := t.vpfSettle f r lane
    let u := settled.getD t
    let r := (u.vec.window.find? (fun q => q.rid == r.rid)).getD r
    let l := vpfCarryIn u f r lane
    if l.isEmpty then settled.map (s.setTh sl) else some (s.setTh sl { u with vec := takeCarries 16 l u.vec })
  | _, _ =>
    match s.carryIn sl r lane with
    | [] => none
    | l => some ((l.take (16 / r.fireWidth)).foldl (fun s p => s.fire sl r.rid p.1 p.2) s)

/-- The same of the mask of a SETFIB. -/
def State.carrySeg (s : State) (sl : Slot) (lane : Nat) (c : SegCarry) : Option State :=
  let t := s.th sl
  let l := segCarryIn t c lane
  if l.isEmpty then none else some (s.setTh sl (Thread.dropSegs { t with vec := takeCarries 16 l t.vec }))

/-- Places in program order at which a thread carries: those of its rules, and those of SETFIBs. -/
def Thread.carryAges (t : Thread) : List Nat :=
  (t.segCarry.map (·.age)).foldl (fun l a => l.takeWhile (· < a) ++ a :: l.dropWhile (· < a)) (t.vec.window.map (·.rid))

/-- CARRY_COPY: a lane's carry path copies ready carried elements, oldest rule first, up to 16 bytes (R183). With none to copy, reductions
whose segments are all known settle their RANGE bit. -/
def State.carryCopy (s : State) (sl : Slot) (lane : Fin 64) : Option State :=
  let t := s.th sl
  if t.frozen then none
  else
    match t.carryAges.findSome? (fun a =>
      match t.segCarry.find? (fun c => c.age == a), t.vec.window.find? (fun r => r.rid == a) with
      | some c, _ => s.carrySeg sl lane c
      | none, some r => s.carryRule sl lane r
      | none, none => none) with
    | some s' => some s'
    | none => if t.vec.window.any (fun r => (r.dropped t).isSome) then some (s.setTh sl (t.vec.window.foldl Thread.settleRange t)) else none

/-- DATA_LANDING: returned data of one element lands (R153). -/
def State.dataLanding (s : State) (sl : Slot) (pos e : Nat) : Option State :=
  let t := s.th sl
  match t.vec.window[pos]? with
  | none => none
  | some r =>
    if t.frozen || !r.flight.any (fun f => f.elem == e) then none
    else match s.act sl r r.spec e with
      | .val q => some (s.fire sl r.rid e (.val q))
      | .void vs => some (s.fire sl r.rid e (.void vs))
      | _ => none

/-! ## Retirement and release (R186, R189) -/

/-- The queued commands of the MRD rules among some of a slot's rules have been read (R259, R301). -/
def State.mrdRead (s : State) (sl : Slot) (l : List Rule) : State :=
  { s with matQ := s.matQ.map (fun c => if l.any (fun r => c.isMrd sl r.rid) then { c with done := 1 } else c) }

/-- RETIRE: up to four complete rules leave the head of the window, in issue order. -/
def State.retire (s : State) (sl : Slot) : Option State :=
  let t := s.th sl
  if t.frozen then none
  else
    let n := ((t.vec.window.take 4).takeWhile (fun r => r.complete r.spec t)).length
    if n = 0 then none
    else
      let rest := t.vec.window.drop n
      let keep (f : Vpf) : Bool := rest.any (fun r => r.rid == f.rid)
      some ((s.mrdRead sl (t.vec.window.take n)).setTh sl
        { t with vec := { t.vec with window := rest }, vpf := t.vpf.filter keep, vpfDone := t.vpfDone.filter keep })

/-- Physical vector registers that a rule reads or carries from. -/
def Rule.vrefs (r : Rule) : List (Fin 128) :=
  [r.d0, r.d1, r.a0, r.a1, r.b0, r.b1, r.x0, r.old0, r.old1].filterMap id

def Rule.prefs (r : Rule) : List (Fin 48) := [r.mp, r.sp, r.pd, r.pold, r.pa, r.pb].filterMap id

/-- Vector registers whose index elements a posted CPYG or CPYS of the slot still reads (R314). -/
def Cmd.indexReg (c : Cmd) : List (Fin 128) :=
  match c.kind with
  | .cpyg _ _ _ _ p _ none => [p]
  | .cpys _ _ _ _ p _ none => [p]
  | _ => []

/-- The function of the rule reads the old destination as an operand. -/
def RuleSpec.readsOld (sp : RuleSpec) : Bool :=
  match sp.kind with
  | .fma _ _ => true
  | .mem m => (match m.dir with | .amo _ => true | _ => false)
  | _ => false

/-- Some element that reads the mask of the rule has not fired: one below its length, or any where the elements are segments. -/
def Rule.readsOpen (r : Rule) (t : Thread) : Bool :=
  (List.range (match r.spec.kind with | .reduce _ => r.size r.spec t | _ => r.vle)).any (fun i => !r.isDone i)

/-- An element of the rule whose mask bit is clear or VOID reads nothing else (R104). -/
def RuleSpec.masked (sp : RuleSpec) : Bool :=
  match sp.kind with
  | .compress | .push | .reduce _ | .mrd _ | .tblb _ | .cwalk _ | .vpf => false
  | _ => true

/-- Some element that reads the other sources of the rule has not fired (R189). -/
def Rule.dataOpen (r : Rule) (t : Thread) : Bool :=
  if r.spec.masked then (List.range r.vle).any (fun i => !r.isDone i && gov t.vec r i != .off && gov t.vec r i != .void) else r.readsOpen t

/-- A VPF still reads, carries or writes an element of vector register P: its VPs read the map that it captured, and each write-set register carries
from the one that its name mapped before (R228, R245). -/
def Rule.vpfNeedsV (r : Rule) (t : Thread) (f : Vpf) (p : Fin 128) : Bool :=
  (f.vps != [] && f.vmap.toList.contains p) ||
  (vpfVPairs f r).any (fun q => q.2 == p || (q.1 == some p && !(t.vec.vreg q.2).full (t.vlmax (t.vec.vreg q.2).wlog)))

/-- The rule still reads or carries an element of vector register P, or still writes one (R189, assumption 65). -/
def Rule.needsV (r : Rule) (t : Thread) (p : Fin 128) : Bool :=
  let sp := r.spec
  let is (x : Option (Fin 128)) : Bool := x == some p
  !r.complete sp t &&
  (match sp.kind, t.vpfOf r.rid with
   | .vpf, some f => r.vpfNeedsV t f p
   | _, _ =>
     is r.d0 || is r.d1 || (([r.a0, r.a1, r.b0, r.b1, r.x0].any is || (sp.readsOld && (is r.old0 || is r.old1))) && r.dataOpen t) ||
     ((is r.old0 || is r.old1) &&
       (List.range (r.size sp t)).any (fun i => !r.isDone i && (vCarry r sp t i).any (fun c => c.src == some p && c.open_ t.vec))))

/-- The same of a VPF and a predicate register; its mask is read until every VP has stopped. -/
def Rule.vpfNeedsP (r : Rule) (t : Thread) (f : Vpf) (p : Fin 48) : Bool :=
  (f.vps != [] && (f.mmap.toList.contains p || r.pa == some p)) ||
  (vpfMPairs f r).any (fun q => q.2 == p || (q.1 == some p && !(t.vec.preg q.2).full (t.vlmax 0)))

/-- The same of a rule and a predicate register; a segment mask is also read until the rule has settled which segments it drops (R147). -/
def Rule.needsP (r : Rule) (t : Thread) (p : Fin 48) : Bool :=
  let sp := r.spec
  let is (x : Option (Fin 48)) : Bool := x == some p
  !r.complete sp t &&
  (match sp.kind, t.vpfOf r.rid with
   | .vpf, some f => r.vpfNeedsP t f p
   | _, _ =>
     is r.pd || (([r.mp, r.sp].any is) && r.readsOpen t) || (is r.sp && r.rangeOpen sp) || ([r.pa, r.pb].any is && r.dataOpen t) ||
     (is r.pold && (List.range (r.size sp t)).any (fun i => !r.isDone i && pCarryOpen t.vec r t i)))

/-- The register is still in use: mapped by a name, still read, carried or written by a rule, named by the held image, captured by a command,
taken for a prepared load, or already free (R179, R189). -/
def State.vregUsed (s : State) (sl : Slot) (p : Fin 128) : Bool :=
  let t := s.th sl
  t.vec.vfree.contains p || t.vec.vmap.toList.contains p || t.prep.contains p ||
  t.vec.window.any (fun r => (t.held && r.vrefs.contains p) || r.needsV t p) ||
  s.cmds.any (fun c => c.slot == sl && c.indexReg.contains p)

/-- The same of a predicate register, which a SETFIB may still carry to or from. -/
def State.pregUsed (s : State) (sl : Slot) (p : Fin 48) : Bool :=
  let t := s.th sl
  t.vec.pfree.contains p || t.vec.mmap.toList.contains p || t.segCarry.any (fun c => c.pd == p || c.pold == p) ||
  t.vec.window.any (fun r => (t.held && r.prefs.contains p) || r.needsP t p)

/-- A rule without its references to a register that has been freed: it needs none of them, and an image does not name the register for it
(R202, R203). -/
def Rule.forgetV (p : Fin 128) (r : Rule) : Rule :=
  let f (x : Option (Fin 128)) : Option (Fin 128) := if x = some p then none else x
  { r with d0 := f r.d0, d1 := f r.d1, a0 := f r.a0, a1 := f r.a1, b0 := f r.b0, b1 := f r.b1, x0 := f r.x0, old0 := f r.old0, old1 := f r.old1 }

def Rule.forgetP (p : Fin 48) (r : Rule) : Rule :=
  let f (x : Option (Fin 48)) : Option (Fin 48) := if x = some p then none else x
  { r with mp := f r.mp, sp := f r.sp, pd := f r.pd, pold := f r.pold, pa := f r.pa, pb := f r.pb }

/-- Inserts a number into an ascending list. -/
def insertNat : List Nat → Nat → List Nat
  | [], p => [p]
  | q :: r, p => if p < q then p :: q :: r else q :: insertNat r p

/-- Inserts a register number into an ascending free list. -/
def freeInsert {n : Nat} : List (Fin n) → Fin n → List (Fin n)
  | [], p => [p]
  | q :: r, p => if p < q then p :: q :: r else q :: freeInsert r p

/-- REGISTER_FREE: a register that nothing reads, carries or images returns to the pool (R189). -/
def State.registerFree (s : State) (sl : Slot) (pred : Bool) (p : Nat) : Option State :=
  let t := s.th sl
  if !t.occupied then none
  else if pred then
    (if h : p < 48 then
      (if s.pregUsed sl ⟨p, h⟩ then none
       else some (s.setTh sl { t with vec := { t.vec with pfree := freeInsert t.vec.pfree ⟨p, h⟩, window := t.vec.window.map (Rule.forgetP ⟨p, h⟩) } }))
     else none)
  else
    (if h : p < 128 then
      (if s.vregUsed sl ⟨p, h⟩ then none
       else some (s.setTh sl { t with vec := { t.vec with vfree := freeInsert t.vec.vfree ⟨p, h⟩, window := t.vec.window.map (Rule.forgetV ⟨p, h⟩) } }))
     else none)

end Sys2Proof.Machine
end

