-- ==== Sys2Proof/Machine/Access.lean ====
section
/-! DEFINITION. Element accesses of vector memory rules: their checks, their order, their performing at the home store, a lane table, a
peer or the host; TBLB and the coordinate walk (spec/08 R154 to R173; spec/18 R335 to R337). -/

namespace Sys2Proof.Machine

/-! ## Checks on one element (R155, R163) -/

/-- Outcome of the checks on n bytes; each leaf with the first of the bytes that it translates. -/
inductive ElAcc where
  | ok (s : State) (locs : List Loc) (leaves : List (Leaf × Nat))
  | miss (s : State)
  | fault (cause : BitVec 8) (addr : Nat)
  | wait

/-- What the checks depend on: whether the access writes, an atomic's operation, the scope of an indexed access, and whether only faults are
looked for, so that a tile that the engines own holds nothing back (R8). -/
structure ElKind where
  write : Bool
  amo   : Option AmoOp
  scope : Option Nat
  probe : Bool := false
deriving DecidableEq, Repr

/-- The memory-kind attributes that both pages of an element must share (R155 step 4). -/
def kindKey (e : Word) (x : Loc) : List Nat :=
  let b (c : Bool) : Nat := if c then 1 else 0
  [b (pteTol e), b (pteDev e), b (pteNospec e), b (pteSync e), if pteSync e then pteHscope e else 0, b (pteHost e),
   match x with
   | .peer pa | .ptol pa _ => 2 + peerOf pa
   | .view _ => 1
   | _ => 0]

/-- The page carries SYNC with a home scope wider than the access's (R163). -/
def wider (k : ElKind) (e : Word) : Bool :=
  match k.scope with | some sc => pteSync e && decide (sc < pteHscope e) | none => false

/-- R155 step 3 on the part of an element in one page: n bytes from a on. -/
def State.checkPage (s : State) (t : Thread) (k : ElKind) (a n : Nat) : State × Option Leaf × Option (BitVec 8 × Nat) :=
  match s.xlate t.ctx t.level (if k.write then .write else .read) [] a with
  | .wait s => (s, none, none)
  | .fault s c =>
    -- a scope-miss raises no fault (R163)
    (match s.walk t.ctx a with
     | .leaf l => if wider k l.e then (s, some l, none) else (s, none, some (c, a))
     | .fault _ => (s, none, some (c, a)))
  | .ok s l =>
    let bad (c : BitVec 8) (p : Nat) := (s, none, some (c, p))
    if wider k l.e then (s, some l, none)
    else if pteDev l.e || (k.scope = none && pteSync l.e && pteHscope l.e = 3) || (pteTol l.e && k.amo.isSome) ||
        (pteHost l.e && (match k.amo with | some o => !amoPcie o | none => false)) then bad 0x1A a
    else match s.bytesFault k.write a ((List.range n).map (fun i => s.locOf l (a + i))) with
      | some (c, y) => bad c y
      | none => (s, some l, none)

/-- The first byte of n from va that a predicate holds of. -/
def firstByte (va n : Nat) (p : Nat → Bool) : Option Nat :=
  ((List.range n).map (fun i => (va + i) % 2 ^ 64)).find? p

/-- The checks of R155 on n bytes at va, in their order, up to hardware copies. -/
def State.checkElem (s : State) (t : Thread) (k : ElKind) (va n : Nat) : ElAcc :=
  match firstByte va n (fun a => 2 ^ 56 ≤ a) with
  | some a => .fault 0x10 a
  | none =>
    match firstByte va n (fun a => inWindow a && (spSize ≤ a - winBase || s.tilesOf t * 4096 ≤ a - winBase)),
        firstByte va n (fun a => inWindow a && k.amo.isSome) with
    | some a, _ => .fault 0x12 a
    | none, some a => .fault 0x1A a
    | none, none =>
      if !k.probe && (firstByte va n (fun a => inWindow a && s.tileBusy ((a - winBase) / 4096))).isSome then .wait
      else
        match firstByte va n (fun a => !inWindow a) with
        | none => .ok s ((List.range n).map (fun i => .sp (va + i - winBase))) []
        | some a0 =>
          let part (x : Nat) : Nat := ((List.range n).filter (fun i => !inWindow (va + i) && (va + i) / 2 ^ 16 = x / 2 ^ 16)).length
          match s.checkPage t k a0 (part a0) with
          | (_, none, none) => .wait
          | (_, _, some (c, a)) => .fault c a
          | (s, some l0, none) =>
            match firstByte va n (fun a => !inWindow a && a / 2 ^ 16 ≠ a0 / 2 ^ 16) with
            | none =>
              if wider k l0.e then .miss s
              else .ok s ((List.range n).map (fun i => if inWindow (va + i) then .sp (va + i - winBase) else s.locOf l0 (va + i))) [(l0, a0)]
            | some a1 =>
              match s.checkPage t k a1 (part a1) with
              | (_, none, none) => .wait
              | (_, _, some (c, a)) => .fault c a
              | (s, some l1, none) =>
                if kindKey l0.e (s.locOf l0 a0) ≠ kindKey l1.e (s.locOf l1 a1) then .fault 0x1B va
                else if wider k l0.e then .miss s
                else .ok s ((List.range n).map (fun i =>
                  let a := va + i
                  if inWindow a then .sp (a - winBase)
                  else if a / 2 ^ 16 = a0 / 2 ^ 16 then s.locOf l0 a else s.locOf l1 a)) [(l0, a0), (l1, a1)]

/-! ## Remote bytes (R157, R346, R357) -/

/-- The operation is a write. -/
def opIsWrite : BusOp → Bool
  | .write _ => true
  | _ => false

/-- The read of n bytes, or the atomic, that has been sent to a remote address for an element. -/
def State.reqFor (s : State) (who : ReqFor) (pa n : Nat) : Option Req :=
  s.reqs.find? (fun q => q.who == who && q.pa == pa &&
    (match q.op with | .write _ => false | .read k => k == n | .atomic _ _ _ _ => true))

/-- The request of a rule's element for a remote run. -/
def State.elemReq (s : State) (sl : Slot) (rid e pa n : Nat) : Option Req := s.reqFor (.element sl rid e) pa n

/-- An earlier posted write to overlapping remote bytes has no answer yet (R160). -/
def State.postedOverlap (s : State) (pa n : Nat) : Bool :=
  s.reqs.any (fun q => q.who == .posted && q.open_ &&
    (match q.op with | .write bs => decide (q.pa < pa + n ∧ pa < q.pa + bs.length) | _ => false))

/-- Outcome of reading remote bytes. -/
inductive Remote where
  | data (s : State) (bytes : List Byte) (lost : Bool)
  | sent (s : State)
  | wait

/-- Reads every remote run of an element: each is asked for once, and the bytes are there when every reply has come. -/
def State.remoteRead (s : State) (ctx : BitVec 12) (who : ReqFor) (runs : List (Nat × Nat)) : Remote :=
  if runs.any (fun p => s.postedOverlap p.1 p.2) then .wait
  else
    let need := (runs.filter (fun p => (s.reqFor who p.1 p.2).isNone)).dedup
    if need ≠ [] then
      .sent (need.foldl (fun s p => s.sendRead ctx who [] p) s)
    else
      let got := runs.filterMap (fun p => (s.reqFor who p.1 p.2).map (fun q => (q, p.2)))
      if got.any (fun g => g.1.open_) then .wait
      else
        let bytes := got.flatMap (fun g => match g.1.status with
          | .answered d => leBytes g.2 d.toNat
          | _ => List.replicate g.2 0)
        let lost := got.any (fun g => g.1.status == .failed)
        .data { s with reqs := s.reqs.filter (fun q => !(q.who == who && !opIsWrite q.op)) } bytes lost

/-! ## Performing an element -/

/-- The first hardware copy that the pages of a write need; `empty` gives the first byte of the page that found no frame (R196, R372). -/
inductive CowAll where
  | none | wait | started (s : State)
  | empty (a : Nat)

def State.cowAll (s : State) : List (Leaf × Nat) → CowAll
  | [] => .none
  | (l, a) :: r =>
    match s.cowStart l with
    | .none => s.cowAll r
    | .wait s' => if s'.cows.length = s.cows.length then .wait else .started s'
    | .empty _ => .empty a

/-- The leaves of an access are marked as used (R364). -/
def State.touchAll (s : State) (leaves : List (Leaf × Nat)) (write : Bool) : State := leaves.foldl (fun s l => s.touch l.1 write) s

/-- The bytes of an element, read where they lie; a dirty line of the scalar cache is recalled first (R157, R345). -/
def State.recallAll (s : State) (locs : List Loc) : State := locs.foldl State.recallLoc s

/-! ## Order among elements (R154, R158, R160, R173) -/

def MemSpec.writes (m : MemSpec) : Bool := match m.dir with | .load | .laneLoad => false | _ => true

def MemSpec.lane (m : MemSpec) : Bool := match m.dir with | .laneLoad | .laneStore => true | _ => false

/-- Element j of the rule is still to be performed. -/
def State.unperformed (s : State) (sl : Slot) (r : Rule) (m : MemSpec) (j : Nat) : Bool :=
  memPending (s.th sl).vec r m j || s.reqs.any (fun q => q.who == .element sl r.rid j)

/-- Width in bytes of an element access. -/
def elWidth (r : Rule) (m : MemSpec) : Nat := if m.lane then r.td.bytes else memWidth r m

/-- The lane of an element's table, for lane-table rules. -/
def elLane (t : Thread) (i : Nat) : Nat := laneAt t.cfg.lmap (i % max (laneCount t.cfg.lmap) 1)

/-- n bytes at a share one with w bytes at b. -/
def spansMeet (a n b w : Nat) : Bool := decide (a < b + w ∧ b < a + n)

/-- n bytes at a and w bytes at b lie in two mappings and share a byte of memory (R160). Bytes at one place have one offset in their pages. -/
def State.aliases (s : State) (t : Thread) (a n b w : Nat) : Bool :=
  (decide ((a + 2 ^ 16 - b % 2 ^ 16) % 2 ^ 16 < w) || decide ((b + 2 ^ 16 - a % 2 ^ 16) % 2 ^ 16 < n)) &&
  ((List.range n).flatMap (fun i => (List.range w).map (fun j => (a + i, b + j)))).any (fun p =>
    p.1 % 2 ^ 16 == p.2 % 2 ^ 16 && p.1 != p.2 && (s.placeOf t.ctx p.1).isSome && s.placeOf t.ctx p.1 == s.placeOf t.ctx p.2)

/-- Element j of memory rule q may touch the bytes of element i of another access at va, n bytes; lane-table accesses meet in one lane. -/
def State.mayTouch (s : State) (t : Thread) (q : Rule) (m : MemSpec) (j : Nat) (i : Nat) (va : Word) (n : Nat) : Bool :=
  match memAddr t.vec q m j with
  | some vb =>
    if m.lane then elLane t i == elLane t j && spansMeet va.toNat n vb.toNat (elWidth q m)
    else spansMeet va.toNat n vb.toNat (elWidth q m) || s.aliases t va.toNat n vb.toNat (elWidth q m)
  | none => true

/-- An earlier rule still has an element to perform that this one must follow (R160, R173, R180). -/
def State.earlierHolds (s : State) (sl : Slot) (r : Rule) (m : MemSpec) (i : Nat) (va : Word) : Bool :=
  let t := s.th sl
  let n := elWidth r m
  (t.vec.window.takeWhile (fun q => q.rid != r.rid)).any (fun q =>
    match q.spec.kind with
    | .mem k =>
      k.lane == m.lane && (k.writes || m.writes) &&
      (List.range q.vle).any (fun j => s.unperformed sl q k j && s.mayTouch t q k j i va n)
    | .tblb _ =>
      !q.isDone 0 && (if m.lane then spansMeet va.toNat n q.count q.opb.toNat else m.writes && spansMeet va.toNat n q.opa.toNat q.opb.toNat)
    | _ => false)

/-- A lower element of the same rule must be performed first: always under ORD = 1, and where both write the same bytes
(R154, R158, R167); element 0 of a fault-only-first load goes first (R11). -/
def State.lowerHolds (s : State) (sl : Slot) (r : Rule) (m : MemSpec) (i : Nat) (va : Word) : Bool :=
  let t := s.th sl
  let n := elWidth r m
  (List.range i).any (fun j => s.unperformed sl r m j &&
    (m.ord || (m.mode = .faultFirst && j = 0) || (m.writes && s.mayTouch t r m j i va n)))

/-! ## ELEMENT_ACCESS -/

/-- Records a fault of an element (R161, R198). -/
def Rule.addFault (r : Rule) (e : Nat) (c : BitVec 8) (a : Nat) : Rule :=
  { r with faults := r.faults ++ [{ elem := e, cause := c, addr := BitVec.ofNat 64 a }] }

def State.setRule (s : State) (sl : Slot) (r : Rule) : State :=
  let t := s.th sl
  s.setTh sl { t with vec := t.vec.setRule r }

/-- Trims a fault-only-first load at element e: elements from e on become tail elements, and VL falls to e, unless a later word of the program has
set it; of two loads that are trimmed the lower length stands (R8, assumption 102). -/
def Thread.trim (t : Thread) (r : Rule) (e : Nat) : Thread :=
  let v := BitVec.ofNat 16 e
  { t with cfg := if t.vlSet ≤ r.rid && decide (e < t.cfg.vl.toNat) then { t.cfg with vl := v } else t.cfg
           vec := t.vec.setRule { r with vle := e, vl := v } }

/-- Trims a fault-only-first load of the slot's thread at element e (R8). -/
def State.trim (s : State) (sl : Slot) (r : Rule) (e : Nat) : State := s.setTh sl ((s.th sl).trim r e)

/-- The kind of check a memory rule's elements take (R155, R163). -/
def MemSpec.elKind (m : MemSpec) : ElKind :=
  { write := m.writes
    amo := match m.dir with | .amo o => some o | _ => none
    scope := match m.mode with | .indexed sc _ => some sc | _ => none }

/-- Marks the m0 bit of an element whose checks are settled (R163). -/
def State.settleM0 (s : State) (sl : Slot) (r : Rule) (i : Nat) (b : Bool) : State :=
  let t := s.th sl
  if r.spec.m0 && t.vec.bit r.pd i = .absent then s.setTh sl { t with vec := t.vec.putP r.pd i (.present b) } else s

/-- Returned data of an element waits to land. -/
def State.addFlight (s : State) (sl : Slot) (r : Rule) (i : Nat) (bits : Nat) (lost : Bool) : State :=
  s.setRule sl { r with flight := r.flight ++ [{ elem := i, bits := BitVec.ofNat 64 bits, lost := lost }] }

/-- The element is done: it has performed its write. -/
def State.storeDone (s : State) (sl : Slot) (r : Rule) (i : Nat) (fl : BitVec 5) (vs : BitVec 3) : State :=
  ((s.setRule sl (r.setDone i)).raise sl fl vs)

/-- The pattern that a store element writes (R151, R154). -/
def storeRes (v : Vec) (r : Rule) (m : MemSpec) (i : Nat) : Res :=
  match v.elem r.x0 i with
  | .present b =>
    let g := memTag m.fmt r.td
    if g = r.td then .plain (b.toNat % 2 ^ g.bits) else (r.td.value b.toNat).toTag g r.rm
  | _ => .plain 0

/-- The bits of an element, extended by its tag to 64. -/
def elemWord (e : Elem) (t : Tag) : Word :=
  match e with | .present b => BitVec.ofNat 64 (t.extend b.toNat) | _ => 0

/-- The bytes of a vector load from local memory: as they lie now, or as they were read early for the load, a free choice (R179, R348,
assumption 20). -/
def State.loadBytes (s : State) (sl : Slot) (r : Rule) (locs : List Loc) : State × List Byte :=
  match (s.th sl).earlyAt (.rule r.rid) locs with
  | none => (s, locs.map s.locByte)
  | some bs => ({ s with fresh := s.fresh + 1 }, if Config.freeChoice s.fresh then bs else locs.map s.locByte)

/-- Performs element i at va once its checks have passed. One that a peer or the host answers is sent, and is done or has its data once
every reply has come (R154, R347). -/
def State.performElem (s : State) (sl : Slot) (r : Rule) (m : MemSpec) (i : Nat) (locs : List Loc) (leaves : List (Leaf × Nat)) :
    Option State :=
  let t := s.th sl
  let who : ReqFor := .element sl r.rid i
  let runs := remoteRuns locs
  let s := (s.touchAll leaves m.writes).settleM0 sl r i false
  if runs.any (fun p => s.postedOverlap p.1 p.2) then none
  else match m.dir with
    | .store =>
      let s := s.dropEarly sl locs
      let q := storeRes t.vec r m i
      let s' := (s.recallAll locs).writeBytes t.ctx who locs (leBytes (memWidth r m) q.bits)
      some (if s'.reqs.any (fun x => x.who == who) then s' else s'.storeDone sl r i q.fl q.vs)
    | .amo op =>
      let s := s.dropEarly sl locs
      let wide := r.td.bytes == 8
      let old := elemWord (t.vec.elem r.old0 i) r.td
      let b := if op = .cas then elemWord (t.vec.elem r.x0 i) r.ta else old
      (match runs, firstLoc locs with
       | (pa, _) :: _, _ => some (s.send t.ctx who pa (.atomic op wide b old) .sent)
       | [], .home pa =>
         let (s, res) := s.homeAtomic op wide pa b old
         some (s.addFlight sl r i ((res.getD 0).toNat) res.isNone)
       | _, _ => none)
    | _ =>
      if runs = [] then
        let (s, bytes) := (s.recallAll locs).loadBytes sl r locs
        some ((s.dropEarly sl locs).addFlight sl r i (leNat bytes) (locs.any s.locLost))
      else some (runs.foldl (fun s p => s.sendRead t.ctx who locs p) s)

/-- The bytes that the answered reads of an element have brought, in the order of their addresses. -/
def replyBytes (rs : List Req) : List Byte :=
  rs.flatMap (fun q => match q.op, q.status with
    | .read n, .answered d => leBytes n d.toNat
    | .read n, _ => zeros n
    | _, _ => [])

/-- An element whose requests have left the core goes on once every one of them is answered: it is not checked again (R154, R167, R176). -/
def State.elementReply (s : State) (sl : Slot) (r : Rule) (m : MemSpec) (i : Nat) : Option State :=
  let t := s.th sl
  let who : ReqFor := .element sl r.rid i
  let mine := s.reqs.filter (fun q => q.who == who)
  let rest : State := { s with reqs := s.reqs.filter (fun q => !(q.who == who)) }
  let lost := mine.any (fun q => q.status == .failed)
  if mine.any Req.open_ then none
  else match m.dir with
    | .store => let q := storeRes t.vec r m i
                some (rest.storeDone sl r i q.fl q.vs)
    | .amo _ => some (rest.addFlight sl r i (match mine with | q :: _ => (match q.status with | .answered d => d.toNat | _ => 0) | [] => 0) lost)
    | _ =>
      let locs := (mine.head?.map (·.locs)).getD []
      some (rest.addFlight sl r i (leNat (s.gatherBytes locs (replyBytes mine)))
        (lost || locs.any (fun x => !x.far && s.locLost x)))

/-- The state of a rule after settleM0 and touches is re-read from the window by number. -/
def State.ruleOf (s : State) (sl : Slot) (rid : Nat) : Option Rule := (s.th sl).vec.window.find? (fun r => r.rid == rid)

/-- Address of element i, when it is active and its access can be made now. -/
def State.accessible (s : State) (sl : Slot) (r : Rule) (m : MemSpec) (i : Nat) : Option Word :=
  let t := s.th sl
  if r.mark || r.vle ≤ i || r.isDone i || r.flight.any (fun f => f.elem == i) || r.faults.any (fun f => f.elem == i) then none
  else if gov t.vec r i ≠ .on || t.vec.bit r.pd i = .present true then none
  else match memEl t.vec r m i with
    | .access va =>
      if s.earlierHolds sl r m i va || s.lowerHolds sl r m i va then none else some va
    | _ => none

/-- A fault found at element i: a fault-only-first load traps at element 0 only, with the address of its first byte, and is trimmed above
it (R8, R11, R161). -/
def State.elemFault (s : State) (sl : Slot) (r : Rule) (m : MemSpec) (i : Nat) (va : Word) (c : BitVec 8) (a : Nat) : State :=
  if m.mode = .faultFirst then (if i = 0 then s.setRule sl (r.addFault i c va.toNat) else s.trim sl r i)
  else s.setRule sl (r.addFault i c a)

/-- Where a rule stands in program order; a block rule stands where its VPF does (R231). -/
def Thread.ruleAge (t : Thread) (r : Rule) : Nat :=
  if 2 ^ 64 ≤ r.rid then (match t.vpf with | some f => f.rid | none => r.rid) else r.rid

/-- Checks and performs element i of a rule on memory, behind the earlier scalar accesses that stand in the issue queue (R155, R160). -/
def State.memAccess (s : State) (sl : Slot) (r : Rule) (m : MemSpec) (i : Nat) (va : Word) : Option State :=
  match s.checkElem (s.th sl) m.elKind va.toNat (memWidth r m) with
  | .wait => none
  | .fault c a => some (s.elemFault sl r m i va c a)
  | .miss s => some (s.settleM0 sl r i true)
  | .ok s locs leaves =>
    if s.queueHoldsElem (s.th sl) ((s.th sl).ruleAge r) locs (!m.writes || m.elKind.amo.isSome) m.writes then none
    else if m.elKind.amo.isSome && decide (va.toNat % r.td.bytes ≠ 0) then some (s.elemFault sl r m i va 0x11 va.toNat)
    else if m.writes then
      match s.cowAll leaves with
      | .wait => none
      | .started s => some s
      | .empty a => some (s.elemFault sl r m i va 0x1C a)
      | .none => s.performElem sl r m i locs leaves
    else s.performElem sl r m i locs leaves

/-- Checks and performs element i of VLTL or VLTS (R170). -/
def State.laneAccess (s : State) (sl : Slot) (r : Rule) (m : MemSpec) (i : Nat) (o : Word) : State :=
  let t := s.th sl
  let w := r.td.bytes
  if o.toNat % w ≠ 0 || 8192 - w < o.toNat then s.setRule sl (r.addFault i 0x13 o.toNat)
  else
    let a := tableAddr sl (elLane t i) o.toNat
    match m.dir with
    | .laneStore =>
      let q := storeRes t.vec r m i
      let s := s.storeDone sl r i 0 0
      { s with tables := Memory.setList s.tables a (leBytes w q.bits)
               ltPoison := s.ltPoison.filter (fun p => p < a || a + w ≤ p) }
    | _ => s.addFlight sl r i (leNat (Memory.getList s.tables a w)) (s.ltPoison.any (fun p => a ≤ p && p < a + w))

/-! ## TBLB (R171) -/

/-- Copies the scratchpad bytes into the table of every held lane, after the older accesses that still have a byte in common with it to
perform (R160, R173, R180). -/
def State.tblbAccess (s : State) (sl : Slot) (r : Rule) : Option State :=
  let t := s.th sl
  let n := r.opb.toNat
  let off := r.opa.toNat - winBase
  let busy := 0 < n && (List.range ((off + n - 1) / 4096 - off / 4096 + 1)).any (fun k => s.tileBusy (off / 4096 + k))
  let before := t.vec.window.takeWhile (fun q => q.rid != r.rid)
  let meets (q : Rule) (k : MemSpec) (j : Nat) : Bool :=
    if k.lane then (match memAddr t.vec q k j with | some o => spansMeet r.count n o.toNat (elWidth q k) | none => true)
    else k.writes && s.mayTouch t q k j 0 r.opa n
  let held := (t.queue ≠ [] && s.queueHoldsElem t r.rid ((List.range n).map (fun i => .sp (off + i))) true false) || before.any (fun q =>
    match q.spec.kind with
    | .mem k => (List.range q.vle).any (fun j => s.unperformed sl q k j && meets q k j)
    | .tblb _ => !q.isDone 0 && spansMeet r.count n q.count q.opb.toNat
    | _ => false)
  if r.isDone 0 || r.faults ≠ [] || held || busy then none
  else if s.tilesOf t * 4096 < off + n && 0 < n then
    some (s.setRule sl (r.addFault 0 0x12 (winBase + max off (s.tilesOf t * 4096))))
  else
    let bs := Memory.getList s.sp off n
    let s := s.setRule sl (r.setDone 0)
    let lanes := (List.range 64).filter (fun k => t.cfg.lmap.getLsbD k)
    let lost := (List.range n).filter (fun k => s.spPoison.contains (off + k))
    some (lanes.foldl (fun s k =>
      let a := tableAddr sl k r.count
      { s with tables := Memory.setList s.tables a bs
               ltPoison := s.ltPoison.filter (fun p => p < a || a + n ≤ p) ++ lost.map (· + a) }) s)

/-! ## CWALK (R335 to R337) -/

/-- Why a walk has stopped. -/
inductive WalkEnd where
  | go | full
  | fault (c : BitVec 8) (a : Nat)
  | wait
  | sent
deriving DecidableEq, Repr

/-- A walk under way: the positions found, last first. -/
structure WalkSt where
  s     : State
  found : List Nat
  fin   : WalkEnd

/-- Reads one 8-byte word of the descriptor or a level at device scope, under R310; a level word that cannot be corrected
reads as clear and is counted, and so is a word of the descriptor, of which R336 says nothing (assumption 103). A word in the scratchpad waits for the rows that earlier commands have still to write, and not for the walk's
own hold on its tile (R291, R293). -/
def State.walkRead (s : State) (sl : Slot) (r : Rule) (va : Nat) : State × WalkEnd × Word :=
  let rid := r.rid
  if s.rangeHeld r.post (winPart va 8) [] then (s, .wait, 0)
  else match s.checkElem (s.th sl) { write := false, amo := none, scope := none, probe := true } va 8 with
  | .wait => (s, .wait, 0)
  | .fault c a => (s, .fault c a, 0)
  | .miss s => (s, .wait, 0)
  | .ok s locs leaves =>
    let s := s.touchAll leaves false
    let runs := remoteRuns locs
    if runs = [] then
      let s := s.recallAll locs
      if locs.any s.locLost then (s.addUe, .go, 0) else (s, .go, wordOf (locs.map s.locByte))
    else
      let pa := (runs.headD (0, 0)).1
      match s.elemReq sl rid 0 pa (runs.headD (0, 0)).2 with
      | none => (s.sendRead (s.th sl).ctx (.element sl rid 0) [] (runs.headD (0, 0)), .sent, 0)
      | some q =>
        match q.status with
        | .sent => (s, .wait, 0)
        | .answered d => (s, .go, wordOf (s.gatherBytes locs (leBytes 8 d.toNat)))
        | .failed => (s.addUe, .go, 0)

/-- Walks the words below word w of a level with `d` levels under it, between positions c and e, up to nmax positions. -/
def walkWord (sl : Slot) (r : Rule) (bases : List Nat) (c e nmax : Nat) : Nat → Nat → WalkSt → WalkSt
  | d, w, st =>
    if st.fin ≠ .go then st
    else
      let level := bases.length - 1 - d
      let (s, f, word) := st.s.walkRead sl r (listGet 0 bases level + 8 * w)
      if f ≠ .go then { st with s := s, fin := f }
      else
        match d with
        | 0 =>
          (List.range 64).foldl (fun st b =>
            let p := 64 * w + b
            if st.fin = .go && word.getLsbD b && c ≤ p && p < e then
              { st with found := p :: st.found, fin := if st.found.length + 1 = nmax then .full else .go }
            else st) { st with s := s }
        | d' + 1 =>
          (List.range 64).foldl (fun st b =>
            let k := 64 * w + b
            let span := 64 ^ (d' + 1)
            if word.getLsbD b && c < (k + 1) * span && k * span < e then walkWord sl r bases c e nmax d' k st
            else st) { st with s := s }

/-- The registers of a CWALK. -/
def cwalkRegs : Instr → BitVec 5 × BitVec 5
  | .cwalk _ c _ p => (c, p)
  | _ => (0, 0)

/-- The descriptor breaks R335. -/
def badDescriptor (d : Word) (bases : List Nat) : Bool :=
  let l := d.toNat % 8
  decide (l < 2 ∨ 4 < l ∨ d.toNat / 8 % 32 ≠ 0 ∨ d.toNat / 256 % 2 ^ 24 = 0 ∨ d.toNat / 2 ^ 32 ≠ 0) ||
  bases.any (fun b => b % 8 ≠ 0)

/-- Ends a walk: the coordinates, the cursor and VL, unless a later word has set it, are written, and the Porter goes on (R193, R336). -/
def State.walkDone (s : State) (sl : Slot) (r : Rule) (width : Nat) (ps : List Nat) (cur : Word) : State :=
  let t := s.th sl
  let put := fun (t : Thread) (p : Option (Fin 128)) (g : Tag) (i x : Nat) =>
    let q := (Val.int (x : Int)).toTag g r.rm
    ({ t with vec := t.vec.putV p i (.present (BitVec.ofNat 64 q.bits)) }).raise q.fl q.vs
  let t := ((List.range ps.length).zip ps).foldl (fun t q =>
    put (put t r.d0 r.td q.1 (q.2 / width)) r.d1 r.ta q.1 (q.2 % width)) t
  let r := { (List.range ps.length).foldl Rule.setDone r with mark := false, vle := ps.length }
  let t := { t with cfg := if t.vlSet ≤ r.rid then { t.cfg with vl := BitVec.ofNat 16 ps.length } else t.cfg, vec := t.vec.setRule r }
  let s := s.setTh sl (t.wr (cwalkRegs r.instr).1 cur)
  { s with reqs := s.reqs.filter (fun q => !(q.who == .element sl r.rid 0)) }

/-- The coordinate walk of a CWALK rule (R336, R337). `count` holds the captured s(D). The words of the descriptor are read before any of them is
checked, so that a fault of a read comes first (assumption 103); a walk that stops to ask a peer or the host counts what it has found lost only
once it goes on to its end. -/
def State.cwalkAccess (s : State) (sl : Slot) (r : Rule) : Option State :=
  let t := s.th sl
  let older := t.vec.window.takeWhile (fun q => q.rid != r.rid)
  let busy := older.any (fun q => match q.spec.kind with
    | .mem k => (List.range q.vle).any (fun j => s.unperformed sl q k j)
    | .tblb _ => !q.complete q.spec t
    | _ => false)
  let nmax := min r.vl.toNat (min (t.vlmax r.td.wlog) (t.vlmax r.ta.wlog))
  let errs := s.errs
  if !r.mark || r.faults ≠ [] || busy then none
  else if nmax = 0 then some (s.walkDone sl r 1 [] r.opa)
  else if r.count % 8 ≠ 0 then some (s.setRule sl (r.addFault 0 0x04 r.count))
  else
    match s.walkRead sl r r.count with
    | (_, .wait, _) => none
    | (u, .sent, _) => some { u with errs := s.errs }
    | (s, .fault c a, _) => some (s.setRule sl (r.addFault 0 c a))
    | (s1, _, d) =>
      let levels := d.toNat % 8
      let (s, fin, bases) := (List.range (if levels ≤ 4 then levels else 0)).foldl
        (fun (a : State × WalkEnd × List Nat) l =>
          if a.2.1 ≠ .go then a
          else
            let (s, f, w) := a.1.walkRead sl r (r.count + 8 + 8 * l)
            (s, f, a.2.2 ++ [w.toNat])) (s1, .go, [])
      match fin with
      | .wait => none
      | .sent => some { s with errs := errs }
      | .fault c a => some (s.setRule sl (r.addFault 0 c a))
      | _ =>
        if badDescriptor d bases then some (s.setRule sl (r.addFault 0 0x04 r.count))
        else
          let c := r.opa.toNat
          let e := min r.opb.toNat (64 ^ levels)
          let width := d.toNat / 256 % 2 ^ 24
          if e ≤ c then some (s.walkDone sl r width [] r.opa)
          else
            let w := walkWord sl r bases c e nmax (levels - 1) 0 { s := s, found := [], fin := .go }
            match w.fin with
            | .wait => none
            | .sent => some { w.s with errs := errs }
            | .fault c a => some (w.s.setRule sl (r.addFault 0 c a))
            | .full => some (w.s.walkDone sl r width w.found.reverse (BitVec.ofNat 64 (w.found.headD 0 + 1)))
            | .go => some (w.s.walkDone sl r width w.found.reverse (BitVec.ofNat 64 e))

/-- Steps of the Porter's accesses that ELEMENT_ACCESS stands for at a position beyond the window (assumption 20): at 24 the thread's next scalar
access enters the issue queue, or entry e − 1 of the queue performs (R346, R348); at 25 an unconfirmed path prepares a VLD, or is squashed (R179,
R193); beyond, it reads a doubleword early (R358). -/
def State.porterAccess (s : State) (sl : Slot) (pos e : Nat) : Option State :=
  let t := s.th sl
  if !t.occupied then none
  else match pos, e with
    | 24, 0 => some (s.setTh sl { t with defer := true })
    | 24, k + 1 => s.queueEvent sl k
    | 25, 0 => t.prepare.map (s.setTh sl)
    | 25, _ => some (s.setTh sl t.squash)
    | _, _ => s.readEarly sl ((pos - 26) % 2 == 1) (8 * ((pos - 26) / 2 * 8192 + e))

/-- ELEMENT_ACCESS: a ready vector memory element is checked and performed. A position beyond the window names no rule, and stands for a step of
the Porter's own accesses. -/
def State.elementAccess (s : State) (sl : Slot) (pos e : Nat) : Option State :=
  let t := s.th sl
  if 24 ≤ pos then s.porterAccess sl pos e
  else if t.frozen then none
  else match t.vec.window[pos]? with
    | none => none
    | some r =>
      match r.spec.kind with
      | .mem m =>
        if s.reqs.any (fun q => q.who == ReqFor.element sl r.rid e) then s.elementReply sl r m e
        else (match s.accessible sl r m e with
         | none => none
         | some va => if m.lane then some (s.laneAccess sl r m e va) else s.memAccess sl r m e va)
      | .tblb _ => if e = 0 then s.tblbAccess sl r else none
      | .cwalk _ => if e = 0 then s.cwalkAccess sl r else none
      | _ => none

end Sys2Proof.Machine
end

