-- ==== Sys2Proof/Machine/Issue.lean ====
section
/-! DEFINITION. Issue of rules: effective length, renaming, the capture of operands, and the trim of a fault-only-first load (spec/10 R178,
R188; spec/07 R131; spec/01 R8). -/

namespace Sys2Proof.Machine

/-! ## Issue (R104, R131, R178, R188) -/

/-- Capacities that enter a rule's effective length (R131). -/
def RuleSpec.caps (sp : RuleSpec) (t : Thread) : List Nat :=
  let cap (r : BitVec 5) : Nat := t.vlmax (t.vec.tag r).wlog
  let src (x : Src) : List Nat :=
    match x with
    | .v r => [cap r]
    | .pair r => [2 * cap r]
    | .m _ => [t.vlmax 0]
    | _ => []
  (if sp.elemD then
    (match sp.dst with
     | .v r => [cap r]
     | .pair r => [2 * cap r]
     | .m _ => [t.vlmax 0]
     | _ => []) else []) ++
  (if sp.elemA then src sp.a else []) ++ (if sp.elemB then src sp.b else []) ++ src sp.x

/-- VLe (R131); an MRD stops at 256 elements (R330), and TBLB and CWALK have one access. -/
def RuleSpec.vle (sp : RuleSpec) (t : Thread) : Nat :=
  let n := (sp.caps t).foldl min t.cfg.vl.toNat
  match sp.kind with
  | .mrd _ => min n 256
  | .tblb _ => 1
  | .cwalk _ => 0
  | _ => n

/-- The registers of a destination group, or of a source (R43, R122). -/
def groupRegs (r : BitVec 5) : List (BitVec 5) := [r, r + 1]

def Src.regs : Src → List (BitVec 5)
  | .v r => [r]
  | .pair r => groupRegs r
  | _ => []

/-- A source names a register of the destination group, or vd one of the source group of VNCVT or VNSHR (R43, R125, R166). -/
def RuleSpec.overlaps (sp : RuleSpec) : Bool :=
  match sp.dst with
  | .pair d => (sp.a.regs ++ sp.b.regs).any (fun r => (groupRegs d).contains r)
  | .v d =>
    (match sp.kind with
     | .mem m => (match m.dir with | .amo .cas => (sp.a.regs ++ sp.b.regs).any (fun r => (groupRegs d).contains r) | _ => false)
     | .ew _ => (match sp.a with | .pair r => (groupRegs r).contains d | _ => false)
     | _ => false)
  | _ => false

/-- Registers a rule allocates (R188): vector names and predicate names. -/
def RuleSpec.vdests (sp : RuleSpec) : List (BitVec 5) :=
  match sp.dst with
  | .v d => [d]
  | .pair d => groupRegs d
  | .two d => groupRegs d
  | _ => []

def RuleSpec.pdests (sp : RuleSpec) : List Nat :=
  (match sp.dst with | .m d => [d] | _ => []) ++ (if sp.m0 then [0] else [])

/-- Remaps a vector name to the lowest free register, which starts ABSENT (R181, R187); the tag is given. -/
def Vec.renameV (v : Vec) (r : BitVec 5) (t : Tag) : Vec :=
  match v.vfree with
  | [] => v
  | p :: rest =>
    { v with vmap := v.vmap.set r.toFin p, vtag := v.vtag.set r.toFin t, vfree := rest
             vregs := v.vregs.set p.val (.fresh t.wlog) }

def Vec.renameP (v : Vec) (r : Nat) : Vec :=
  match v.pfree with
  | [] => v
  | p :: rest => { v with mmap := v.mmap.setIfInBounds r p, pfree := rest, pregs := v.pregs.set p.val .fresh }

/-- The rule as it issues under a thread's maps, before its destinations are renamed (R23, R104, R177). -/
def Thread.rule (t : Thread) (i : Instr) (sp : RuleSpec) : Rule :=
  let v := t.vec
  let phys (x : Src) : Option (Fin 128) := match x with | .v r | .pair r => some (v.vphys r) | _ => none
  let phys1 (x : Src) : Option (Fin 128) := match x with | .pair r => some (v.vphys (r + 1)) | _ => none
  let pphys (x : Src) : Option (Fin 48) := match x with | .m r => some (v.mphys r) | _ => none
  let ta : Tag := match sp.a with
    | .v r | .pair r => v.tag r
    | _ => match sp.dst, sp.x with
      | .two r, _ => v.tag (r + 1)
      | _, .v r => v.tag r
      | _, _ => .i64
  let td : Tag := match sp.dst, sp.x with
    | .v r, _ | .pair r, _ | .two r, _ => v.tag r
    | _, .v r => v.tag r
    | _, _ => .i64
  let tb : Tag := match sp.b with
    | .v r | .pair r => v.tag r
    | .imm _ g => g
    | _ => ta
  let scalar (x : Src) : Word := match x with | .s r => t.rd r | _ => 0
  let old (k : Nat) : Option (Fin 128) := (sp.vdests[k]?).map v.vphys
  let mark := match sp.kind with
    | .compress | .cwalk _ => true
    | .mem m => m.mode = .faultFirst && sp.mask ≠ 0
    | _ => false
  let third : Nat := match sp.kind with | .tblb d => (t.rd d).toNat | .cwalk d => (t.rd d).toNat | _ => 0
  { rid := t.count, instr := i, vl := t.cfg.vl, frm := t.cfg.frm, segsel := t.cfg.segsel, vle := sp.vle t
    msel := sp.mask, opa := scalar sp.a, opb := scalar sp.b, td := td, ta := ta, tb := tb
    d0 := none, d1 := none, a0 := phys sp.a, a1 := phys1 sp.a, b0 := phys sp.b, b1 := phys1 sp.b, x0 := phys sp.x
    old0 := old 0, old1 := old 1
    mp := if sp.mask = 0 then none else some (v.mphys sp.mask.toNat)
    sp := if sp.seg && t.cfg.segsel ≠ 0 then some (v.mphys t.cfg.segsel.toNat) else none
    pd := none, pold := (sp.pdests[0]?).map v.mphys, pa := pphys sp.a, pb := pphys sp.b
    done := 0, faults := [], flight := [], count := third, mark := mark }

/-- Tags of the names a rule renames: the second register of a widening group takes the tag of the first (R122). -/
def RuleSpec.destTags (sp : RuleSpec) (v : Vec) : List (BitVec 5 × Tag) :=
  match sp.dst with
  | .v d => [(d, v.tag d)]
  | .pair d => [(d, v.tag d), (d + 1, v.tag d)]
  | .two d => [(d, v.tag d), (d + 1, v.tag (d + 1))]
  | _ => []

/-- The block rules of a VPF that are not complete: each issued for a cohort, and stands in the window until it has finished for every VP of
it (R229). -/
def Vpf.gids (f : Vpf) : List Nat := ((f.vps.flatMap (fun p => p.ops)).map (fun o => o.gid)).dedup

/-- Window entries in use, block rules among them (R229). -/
def Thread.entries (t : Thread) : Nat := t.vec.window.length + (match t.vpf with | some f => f.gids.length | none => 0)

/-- The Porter may issue a rule: an entry is free, and four are while VPs are active (R178, R229). -/
def Thread.entryFree (t : Thread) : Bool :=
  match t.vpf with
  | some f => if f.vps = [] then t.entries < 24 else t.entries ≤ 20
  | none => t.entries < 24

/-- The pool holds the registers that a rule allocates (R178). -/
def Thread.poolHas (t : Thread) (nv np : Nat) : Bool := nv ≤ t.vec.vfree.length && np ≤ t.vec.pfree.length

/-- The rule is a VLD, which may have been prepared (R179). -/
def RuleSpec.isVld (sp : RuleSpec) : Bool :=
  match sp.kind with | .mem m => (match m.dir with | .load => true | _ => false) | _ => false

/-- A VLD that was prepared on the path which led to it takes its register back, to be allocated next, and what was read early for it (R179). -/
def Thread.prepared (t : Thread) (sp : RuleSpec) : Thread :=
  match t.prep with
  | [] => t
  | p :: rest =>
    if !sp.isVld then t
    else
      { t with
        vec := { t.vec with vfree := p :: t.vec.vfree }, prep := rest
        early := t.early.map (fun e => if e.who = .prep p then { e with who := .rule t.count } else e) }

/-- The rule sets VL as it ends, so that an older rule's trim no longer does (R8, R142, R336). -/
def RuleSpec.setsVl (sp : RuleSpec) : Bool := match sp.kind with | .compress | .cwalk _ => true | _ => false

/-- Issues a rule: sources are mapped, destinations renamed, and the rule enters the window at the tail (R178). -/
def Thread.issue (t : Thread) (i : Instr) (sp : RuleSpec) : Thread :=
  let t := t.prepared sp
  let r := t.rule i sp
  let v := (sp.destTags t.vec).foldl (fun v q => v.renameV q.1 q.2) t.vec
  let v := sp.pdests.foldl Vec.renameP v
  let dst (k : Nat) : Option (Fin 128) := (sp.vdests[k]?).map v.vphys
  let r := { r with d0 := dst 0, d1 := dst 1, pd := (sp.pdests[0]?).map v.mphys }
  { t with vec := { v with window := v.window ++ [r] }, vlSet := if sp.setsVl then t.count else t.vlSet }

/-- What the checks on the elements of a fault-only-first load give (R8): one must wait first, none fails, or the lowest that fails. -/
inductive Trim where
  | wait
  | none
  | at (e : Nat)

/-- The lowest active element of a fault-only-first load that would fault, found from translation alone (R8). -/
def State.ffTrim (s : State) (t : Thread) (r : Rule) (m : MemSpec) (active : Nat → Bool) : Trim :=
  let w := memWidth r m
  let k : ElKind := { m.elKind with probe := true }
  match (List.range r.vle).findSome? (fun e =>
    if active e then
      (match s.checkElem t k (r.opa + BitVec.ofNat 64 (e * w)).toNat w with
       | .fault _ _ => some (some e)
       | .wait => some Option.none
       | _ => Option.none)
    else Option.none) with
  | some (some e) => .at e
  | some Option.none => .wait
  | Option.none => .none

/-- A fault-only-first load whose lowest failing element is known is trimmed there when it is above 0 (R8, R11). -/
def Thread.trimAt (t : Thread) (r : Rule) (x : Trim) : Thread :=
  match x with
  | .at (e + 1) => t.trim r (e + 1)
  | _ => { t with vec := t.vec.setRule r }

/-- The rule that entered the window last. -/
def Thread.lastRule (t : Thread) : Option Rule := t.vec.window.getLast?

/-- A fault-only-first load without a mask trims VL as it issues, once every check that comes first can be made (R8). -/
def State.issueTrim (s : State) (t : Thread) : Option Thread :=
  match t.lastRule with
  | none => some t
  | some r =>
    match r.spec.kind with
    | .mem m =>
      if m.mode = .faultFirst && r.msel = 0 then
        (match s.ffTrim t r m (fun _ => true) with
         | .wait => none
         | x => some (t.trimAt r x))
      else some t
    | _ => some t

end Sys2Proof.Machine
end

