-- ==== Sys2Proof/Machine/Vp.lean ====
section
/-! DEFINITION. Virtual processors: the header and start of a VPF, the issue of a cohort's next instruction, and the firing of block rules
(spec/13 R226 to R232; spec/14 R243 to R247; spec/03 R41). A block rule is computed for one VP at a time by the same functions as outside a
block, on a thread whose registers hold what that VP reads. -/

namespace Sys2Proof.Machine

/-- The number of the thread's breakpoint at an address (R216). -/
def Thread.breakAt (t : Thread) (pc : Word) : Option Nat :=
  (List.range 4).find? (fun k => t.breaks[k]?.getD none == some (pc, t.ctx))

/-! ## VPF (R243, R245) -/

/-- Address a PC-relative word offset names. -/
def relTarget {n : Nat} (pc : Word) (o : BitVec n) : Word := pc + (o.signExtend 64) * 4

/-- Outcome of reading the header of a block. -/
inductive Header where
  | ok (s : State) (vset : BitVec 32) (hi : BitVec 32)
  | trap (s : State) (cause : BitVec 8) (addr : Nat)
  | wait (s : State)

/-- Reads the header as an instruction fetch (R243). -/
def State.readHeader (s : State) (t : Thread) (a : Word) : Header :=
  match s.fetch t a with
  | .trap s c x => .trap s c x
  | .wait s => .wait s
  | .word s lo =>
    match s.fetch t (a + 4) with
    | .trap s c x => .trap s c x
    | .wait s => .wait s
    | .word s hi => .ok s lo hi

/-- The header is legal (R243). -/
def headerOk (vset hi : BitVec 32) : Bool :=
  hi.extractLsb' 16 16 = 0 && popcount 32 vset.toNat ≤ 8 && popcount 16 hi.toNat ≤ 4

/-- Effective length of a VPF: its write-set registers and its mask count (R131, R245). -/
def Thread.vpfLength (t : Thread) (vl : Nat) (k : BitVec 4) (vset : BitVec 32) (mset : BitVec 16) : Nat :=
  let vs := (List.finRange 32).filter (fun n => vset.getLsbD n.val)
  let caps := vs.map (fun n => t.vlmax (t.vec.vtag.get n).wlog) ++
    (if mset = 0 && k = 0 then [] else [t.vlmax 0])
  caps.foldl min vl

/-- Starts a VPF: the write-set is renamed, and one VP stands at each element below VLe; an earlier VPF, whose VPs have stopped, may still carry (R226,
R227, R245). -/
def Thread.startVpf (t : Thread) (i : Instr) (k : BitVec 4) (header : Word) (vset : BitVec 32) (mset : BitVec 16) : Thread :=
  let vs := (List.finRange 32).filter (fun n => vset.getLsbD n.val)
  let ms := (List.finRange 16).filter (fun n => mset.getLsbD n.val)
  let vle := t.vpfLength t.cfg.vl.toNat k vset mset
  let oldV (j : Nat) : Option (Fin 128) := (vs[j]?).map t.vec.vmap.get
  let oldM (j : Nat) : Option (Fin 48) := (ms[j]?).map t.vec.mmap.get
  let r : Rule :=
    { rid := t.count, instr := i, vl := t.cfg.vl, frm := t.cfg.frm, segsel := t.cfg.segsel, vle := vle, msel := k
      opa := header, opb := 0, td := .i64, ta := .i64, tb := .i64
      d0 := oldV 0, d1 := oldV 1, a0 := oldV 2, a1 := oldV 3, b0 := oldV 4, b1 := oldV 5, x0 := oldV 6, old0 := oldV 7
      old1 := none, mp := oldM 0, sp := oldM 1, pd := oldM 2, pold := oldM 3
      pa := if k = 0 then none else some (t.vec.mphys k.toNat), pb := none
      done := 0, faults := [], flight := [], count := 0, mark := false }
  let v := vs.foldl (fun v n => v.renameV (BitVec.ofFin n) (v.vtag.get n)) t.vec
  let v := ms.foldl (fun v n => v.renameP n.val) v
  let f : Vpf := { rid := t.count, header := header, vset := vset, mset := mset, vmap := v.vmap, vtag := v.vtag, mmap := v.mmap
                   vps := (List.range vle).map (fun e => { idx := e, pc := header + 8, count := 0, cells := [] }) }
  { t with vec := { v with window := v.window ++ [r] }, vpf := some f, vpfDone := t.vpfDone ++ t.vpf.toList }

/-! ## What a VP reads (R227, R228) -/

def Vp.cell (p : Vp) (isMask : Bool) (n : Nat) : Option Elem :=
  (p.cells.find? (fun c => c.isMask == isMask && c.name == n)).map (fun c => c.val)

def Vp.put (p : Vp) (isMask : Bool) (n : Nat) (e : Elem) : Vp :=
  { p with cells := p.cells.filter (fun c => !(c.isMask == isMask && c.name == n)) ++ [{ isMask := isMask, name := n, val := e }] }

def PBit.elem : PBit → Elem
  | .absent => .absent
  | .void => .void
  | .present b => .present (if b then 1 else 0)

def Elem.pbit : Elem → PBit
  | .absent => .absent
  | .void => .void
  | .present b => .present (decide (b ≠ 0))

/-- The vector register a VP reads under a name, at its own element. A read at or beyond the register's capacity is VOID; the position
of a second group register is kept for a pair, up to the end of the group. -/
def vpReg (t : Thread) (f : Vpf) (p : Vp) (n : Fin 32) : VReg :=
  let g := f.vtag.get n
  let cap := t.vlmax g.wlog
  let cells := if f.vset.getLsbD n.val then [(p.idx, (p.cell false n.val).getD .void)]
    else
      let r := t.vec.vreg (f.vmap.get n)
      if p.idx < cap then [(p.idx, r.get p.idx)] else if p.idx < 2 * cap then [(p.idx - cap, r.get (p.idx - cap))] else []
  { wlog := g.wlog, cells := cells, rest := .void }

def vpPreg (t : Thread) (f : Vpf) (p : Vp) (n : Fin 16) : PReg :=
  let b : PBit := if f.mset.getLsbD n.val then ((p.cell true n.val).getD .void).pbit
    else if p.idx < t.vlmax 0 then (t.vec.preg (f.mmap.get n)).get p.idx else .void
  { cells := [(p.idx, b)], rest := .void }

/-- A thread whose registers are what VP p reads, with free registers for one instruction's results. -/
def Thread.asVp (t : Thread) (f : Vpf) (r : Rule) (p : Vp) : Thread :=
  { t with
    vpf := none, vpfDone := [], segCarry := [], prep := []
    cfg := { t.cfg with frm := r.frm, segsel := 0, vl := r.vl }
    vec := { vmap := Vector.ofFn (fun n => Fin.ofNat 128 n.val), vtag := f.vtag, mmap := Vector.ofFn (fun n => Fin.ofNat 48 n.val)
             vregs := Vector.ofFn (fun n => if h : n.val < 32 then vpReg t f p ⟨n.val, h⟩ else .fresh 0)
             pregs := Vector.ofFn (fun n => if h : n.val < 16 then vpPreg t f p ⟨n.val, h⟩ else .fresh)
             vfree := [32, 33], pfree := [16, 17], window := [] } }

/-! ## Which words a block may hold (R41) -/

/-- The scalar form of a second operand is illegal inside a block. -/
def blockLegal : Instr → Bool
  | .vpbr _ _ | .vpj _ | .vpstop => true
  | .vpf _ _ => false
  | i =>
    match ruleSpec i with
    | none => false
    | some sp =>
      let noScalar := match sp.b with | .s _ => false | _ => true
      match sp.kind with
      | .ew _ | .fma _ _ | .cmp _ => noScalar
      | .mem m =>
        (match m.dir, m.mode with
         | .laneLoad, _ => false
         | .laneStore, _ => false
         | _, .unit => true
         | _, .indexed _ _ => true
         | _, _ => false)
      | _ => false

/-- Every destination lies in the write-set (R228). -/
def inWriteSet (f : Vpf) (sp : RuleSpec) : Bool :=
  sp.vdests.all (fun d => f.vset.getLsbD d.toNat) && sp.pdests.all (fun n => f.mset.getLsbD n)

/-- The form as a block reads it: the base of an access is a v register (R41). -/
def RuleSpec.inBlock (sp : RuleSpec) : RuleSpec :=
  match sp.kind, sp.a with
  | .mem _, .s a => { sp with a := .v a }
  | _, _ => sp

/-- The v names and the m names that a block rule reads. -/
def RuleSpec.vreads (sp : RuleSpec) : List (BitVec 5) := sp.inBlock.a.regs ++ sp.b.regs ++ sp.x.regs
def RuleSpec.preads (sp : RuleSpec) : List Nat :=
  (if sp.mask = 0 then [] else [sp.mask.toNat]) ++ [sp.a, sp.b].filterMap (fun x => match x with | .m n => some n | _ => none)

/-- The second of two rules of a VP reads or writes what the first writes, or writes what the first reads: it fires after it (R227). -/
def RuleSpec.before (x y : RuleSpec) : Bool :=
  let v := y.vreads ++ y.vdests
  let p := y.preads ++ y.pdests
  x.vdests.any v.contains || x.pdests.any p.contains || x.vreads.any y.vdests.contains || x.preads.any y.pdests.contains

/-! ## One VP -/

/-- Replaces a VP of the slot's VPF. -/
def Thread.setVp (t : Thread) (p : Vp) : Thread :=
  { t with vpf := t.vpf.map (fun f => { f with vps := f.vps.map (fun q => if q.idx == p.idx then p else q) }) }

/-- A VP goes on at an address, and the instruction counts (R232). -/
def Vp.goTo (p : Vp) (pc : Word) : Vp := { p with pc := pc, count := p.count + 1 }

/-- VPSTOP: the write-set elements the VP wrote become final, and element i of the VPF is done (R227, R246). -/
def Thread.vpStop (t : Thread) (f : Vpf) (r : Rule) (p : Vp) : Thread :=
  let v := (vsetNames f).foldl (fun v n => match p.cell false n.val with
    | some e => v.putV (some (f.vmap.get n)) p.idx e | none => v) t.vec
  let v := (msetNames f).foldl (fun v n => match p.cell true n.val with
    | some e => v.putP (some (f.mmap.get n)) p.idx e.pbit | none => v) v
  { t with vec := v.setRule (r.setDone p.idx), vpf := some { f with vps := f.vps.filter (fun q => q.idx != p.idx) } }

/-- The VP without one of its block rules. -/
def Vp.drop (p : Vp) (gid : Nat) : Vp := { p with ops := p.ops.filter (fun o => o.gid != gid) }

/-- The results that a block rule left on its VP's own thread are taken into the VP, and the rule leaves its VP. Flags, status bits and counts
go to the thread, where they stay when the VP is rolled back, and what has been read early with them (assumption 86). `access` says that an
access has performed, which leaves its m0 bit clear (R163). -/
def State.vpTake (s : State) (sl : Slot) (t : Thread) (p : Vp) (o : VpOp) (r : Rule) (sp : RuleSpec) (access : Bool) : State :=
  let u := s.th sl
  let pv := ((List.range sp.vdests.length).zip sp.vdests).foldl (fun (p : Vp) q =>
    match u.vec.elem (if q.1 = 0 then r.d0 else r.d1) p.idx with
    | .absent => p
    | e => p.put false q.2.toNat e) p
  let pm := sp.pdests.foldl (fun (p : Vp) n =>
    match u.vec.bit r.pd p.idx with
    | .absent => if access then p.put true n (.present 0) else p
    | b => p.put true n b.elem) pv
  let t := { t with early := u.early, cfg := { t.cfg with fflags := u.cfg.fflags, vstat := u.cfg.vstat, voidcnt := u.cfg.voidcnt } }
  s.setTh sl (t.setVp (pm.drop o.gid))

/-- The base that element i takes its address from: element i of the v register of the base field, as R152 reads an index (R41). A rule without
one needs none. -/
def vpBase (t : Thread) (sp : RuleSpec) (i : Nat) : Elem × Tag :=
  match sp.kind, sp.a with
  | .mem _, .s a => (t.vec.elem (some (t.vec.vphys a)) i, t.vec.tag a)
  | _, _ => (.present 0, .i64)

/-- A block rule at one VP: the thread that the VP reads, the rule there, and the element that it takes its base from. -/
structure VpView where
  u    : Thread
  r    : Rule
  base : Elem

/-- Block rule o as VP p sees it; the elements below the VP's own are other VPs', and count as done. -/
def Thread.vpView (t : Thread) (f : Vpf) (vr : Rule) (p : Vp) (o : VpOp) (sp : RuleSpec) : Option VpView :=
  let u0 := t.asVp f vr p
  let u := u0.issue o.instr sp
  u.lastRule.map (fun r0 =>
    let (base, bt) := vpBase u0 sp p.idx
    let off : Nat := match sp.kind with | .mem m => (match m.mode with | .unit => p.idx * memWidth r0 m | _ => 0) | _ => 0
    let opa : Word := match base with
      | .present b => indexOff bt b.toNat true - BitVec.ofNat 64 off
      | _ => 0
    let r := { r0 with rid := vpRid o.gid, vle := p.idx + 1, opa := opa, mark := false, done := BitVec.ofNat 8192 (2 ^ p.idx - 1) }
    { u := { u with vec := { u.vec with window := [r] } }, r := r, base := base })

/-- Rule o of the VP can fire: it has met no fault, and no earlier rule of the VP must fire before it. -/
def Vp.free (p : Vp) (o : VpOp) (sp : RuleSpec) : Bool :=
  !o.failed && !p.ops.any (fun x => x.gid < o.gid && (match ruleSpec x.instr with | some q => q.before sp | none => false))

/-! ## Order among the accesses of a block (R154, R158, R160, R167, R229) -/

/-- Block rule x of VP q has an access to perform that may touch n bytes at va, which VP i accesses. -/
def State.vpMeets (s : State) (t : Thread) (f : Vpf) (vr : Rule) (q : Vp) (x : VpOp) (sp : RuleSpec) (k : MemSpec) (i : Nat) (va : Word) (n : Nat) :
    Bool :=
  match t.vpView f vr q x sp with
  | none => true
  | some w =>
    !q.free { x with failed := false } sp || w.base == .absent ||
    (w.base != .void && memPending w.u.vec w.r k q.idx && s.mayTouch w.u w.r k q.idx i va n)

/-- An access of VP p under rule o follows one of an earlier block rule to a byte that either writes, and one of its own rule at a lower
element where the rule is ordered or writes the byte. -/
def State.vpHolds (s : State) (t : Thread) (f : Vpf) (vr : Rule) (p : Vp) (o : VpOp) (m : MemSpec) (va : Word) (n : Nat) : Bool :=
  f.vps.any (fun q => q.ops.any (fun x =>
    (x.gid < o.gid || (x.gid == o.gid && q.idx < p.idx)) &&
    (match ruleSpec x.instr with
     | none => false
     | some sp =>
       match sp.kind with
       | .mem k => (x.gid == o.gid && m.ord) || ((k.writes || m.writes) && s.vpMeets t f vr q x sp k p.idx va n)
       | _ => false)))

/-! ## Firing of block rules -/

/-- Rule o of VP p meets a fault, recorded against its VPF; the VP's oldest rule with a fault gives it (R198, R247). -/
def State.vpFault (s : State) (sl : Slot) (vr : Rule) (p : Vp) (o : VpOp) (c : BitVec 8) (a : Nat) : State :=
  let s := s.setTh sl ((s.th sl).setVp { p with ops := p.ops.map (fun x => if x.gid = o.gid then { x with failed := true } else x) })
  if p.ops.any (fun x => x.failed && x.gid < o.gid) then s
  else s.setRule sl ({ vr with faults := vr.faults.filter (fun x => x.elem != p.idx) }.addFault p.idx c a)

/-- Rule o of VP p fires or performs its access, if it can. -/
def State.vpRule (s : State) (sl : Slot) (f : Vpf) (vr : Rule) (p : Vp) (o : VpOp) (sp : RuleSpec) : Option State :=
  let t := s.th sl
  let e := p.idx
  if !p.free o sp then none
  else match t.vpView f vr p o sp with
  | none => none
  | some w =>
    let s1 := s.setTh sl w.u
    let finish (s : State) (r : Rule) (access : Bool) : Option State := some (s.vpTake sl t p o r sp access)
    if gov w.u.vec w.r e = .on && w.base = .absent then none
    else if gov w.u.vec w.r e = .on && w.base = .void then finish (s1.fire sl w.r.rid e (.void 0)) w.r false
    else
      match s1.act sl w.r sp e, sp.kind with
      | .carry _, _ => finish s1 w.r false
      | .wait, .mem m =>
        let blocked := match memEl w.u.vec w.r m e with
          | .access va => s.earlierHolds sl { w.r with rid := vr.rid } m e va || s.vpHolds t f vr p o m va (memWidth w.r m)
          | _ => true
        if blocked then none
        else match s1.elementAccess sl 0 e with
          | none => none
          | some s2 =>
            match (s2.th sl).vec.window with
            | [r2] =>
              (match r2.faults with
               | x :: _ => some ((s2.setTh sl t).vpFault sl vr p o x.cause x.addr.toNat)
               | [] =>
                 if r2.isDone e then finish s2 r2 true
                 else match s2.act sl r2 sp e with
                   | .wait => some (s2.setTh sl { t with early := (s2.th sl).early })
                   | .carry _ => finish s2 r2 true
                   | a => finish (s2.fire sl r2.rid e a) r2 true)
            | _ => none
      | .wait, _ => none
      | a, _ => finish (s1.fire sl w.r.rid e a) w.r false

/-- Block rule gid fires at VP i, if it can. -/
def State.vpRun (s : State) (sl : Slot) (i gid : Nat) : Option State :=
  let t := s.th sl
  match t.vpf with
  | none => none
  | some f =>
    match f.vps.find? (fun p => p.idx == i), t.vec.window.find? (fun r => r.rid == f.rid) with
    | some p, some vr =>
      (match p.ops.find? (fun o => o.gid == gid) with
       | none => none
       | some o =>
         match ruleSpec o.instr with
         | none => none
         | some sp => s.vpRule sl f vr p o sp)
    | _, _ => none

/-- Every block rule of the slot fires at every VP at which it can, oldest rule first; none if none can (R229). -/
def State.vpExec (s : State) (sl : Slot) : Option State :=
  match (s.th sl).vpf with
  | none => none
  | some f =>
    f.gids.foldl (fun (a : Option State) g =>
      f.vps.foldl (fun (a : Option State) p =>
        match (a.getD s).vpRun sl p.idx g with
        | some s' => some s'
        | none => a) a) none

/-! ## VP_COHORT_ISSUE (R216, R228, R230, R232, R246) -/

/-- Each of some VPs is stopped by a fault at a word; it stays the VP's only one. -/
def State.wordFault (s : State) (sl : Slot) (vr : Rule) (ps : List Vp) (c : BitVec 8) (a : Nat) : Option State :=
  some (s.setRule sl (ps.foldl (fun r p => r.addFault p.idx c a) vr))

/-- Every VP of a list that takes a step takes it; none if none does. -/
def State.vpsGo (s : State) (sl : Slot) (ps : List Vp) (f : Vp → Option Vp) : Option State :=
  match ps.filterMap f with
  | [] => none
  | l => some (s.setTh sl (l.foldl Thread.setVp (s.th sl)))

/-- Bit k of the VP, once no rule of it that writes the bit is still to fire (R227, R246). -/
def Thread.vpBit (t : Thread) (f : Vpf) (p : Vp) (k : BitVec 4) : PBit :=
  if p.ops.any (fun o => match ruleSpec o.instr with | some sp => sp.pdests.contains k.toNat | none => false) then .absent
  else (vpPreg t f p k.toFin).get p.idx

/-- An instruction issues for the VPs of a cohort: VPBR for each whose bit is there, VPSTOP for each whose rules have all fired, a rule for all
once it has an entry (R229, R246). -/
def State.cohortInstr (s : State) (sl : Slot) (f : Vpf) (vr : Rule) (ps : List Vp) (pc : Word) (i : Instr) : Option State :=
  let t := s.th sl
  match i with
  | .vpbr k o =>
    s.vpsGo sl ps (fun p =>
      match t.vpBit f p k with
      | .absent => none
      | b => some (p.goTo (if b = .present true then relTarget pc o else pc + 4)))
  | .vpj o => s.vpsGo sl ps (fun p => some (p.goTo (relTarget pc o)))
  | .vpstop =>
    (match ps.filter (fun p => p.ops = []) with
     | [] => none
     | l => some (s.setTh sl (l.foldl (fun t p =>
         match t.vpf, t.vec.window.find? (fun r => r.rid == f.rid) with
         | some f, some r => t.vpStop f r p
         | _, _ => t) t)))
  | _ =>
    match ruleSpec i with
    | none => none
    | some sp =>
      if !inWriteSet f sp then s.wordFault sl vr ps 0x01 pc.toNat
      else if sp.inBlock.overlaps then s.wordFault sl vr ps 0x03 pc.toNat
      else if 24 ≤ t.entries then none
      else
        State.vpsGo { s with seq := s.seq + 1 } sl ps (fun p => some { p.goTo (pc + 4) with ops := p.ops ++ [{ gid := s.seq, instr := i }] })

/-- The VPs that stand at an address go on: those that have started and have met no fault (R230, R245). -/
def State.cohortStep (s : State) (sl : Slot) (pc : Word) : Option State :=
  let t := s.th sl
  match t.vpf with
  | none => none
  | some f =>
    match t.vec.window.find? (fun r => r.rid == f.rid) with
    | none => none
    | some r =>
      let ps := f.vps.filter (fun p => p.pc == pc && vpfGov t.vec r p.idx == .on && !r.faults.any (fun x => x.elem == p.idx))
      let late := ps.filter (fun p => 4096 ≤ p.count)
      if ps = [] then none
      else if late ≠ [] then s.wordFault sl r late 0x20 pc.toNat
      else if (t.breakAt pc).isSome then s.wordFault sl r ps 0x0A pc.toNat
      else match s.fetch t pc with
        | .wait s' => if s'.seq = s.seq then none else some s'
        | .trap s c a => s.wordFault sl r ps c a
        | .word s w =>
          match decode w with
          | .error _ => s.wordFault sl r ps 0x01 pc.toNat
          | .ok i => if blockLegal i then s.cohortInstr sl f r ps pc i else s.wordFault sl r ps 0x01 pc.toNat

/-- PCs at which VPs stand, ascending. -/
def cohortPcs (f : Vpf) : List Nat := ((f.vps.map (fun p => p.pc.toNat)).dedup).foldl insertNat []

end Sys2Proof.Machine
end

