-- ==== Sys2Proof/Machine/Traps.lean ====
section
/-! DEFINITION. The events of a slot's own window, its quiescence, the traps of words and rules, and what the Porter does with the rule of a
vector instruction, with a VPF and with a resync (spec/10 R189 to R193; spec/11 R196 to R201; spec/01 R8; spec/14 R245). -/

namespace Sys2Proof.Machine

/-! ## The slot's own window -/


/-- The first result of a list of steps that some input allows. -/
def firstStep {α : Type} (l : List α) (f : α → Option State) : Option State := l.findSome? f

/-- Takes the steps of a list that can happen, one after another; none when none can. -/
def sweep {α : Type} (l : List α) (f : State → α → Option State) (s : State) : Option State :=
  l.foldl (fun (a : Option State) x =>
    match f (a.getD s) x with
    | some s' => some s'
    | none => a) none

/-- Element e of the rule at a position lands, or performs its access. -/
def State.ruleEvent (s : State) (sl : Slot) (p e : Nat) : Option State :=
  match (s.th sl).vec.window[p]? with
  | none => none
  | some r => if r.flight.any (fun f => f.elem == e) then s.dataLanding sl p e else s.elementAccess sl p e

/-- Elements of a rule that access memory. -/
def Rule.accesses (r : Rule) : Nat :=
  match r.spec.kind with
  | .mem _ => r.vle
  | .tblb _ => 1
  | .cwalk _ => 1
  | _ => 0

/-- The next events of the slot's own window, if any can happen: rules retire; else data lands and accesses perform, oldest rule first; else
elements fire and are carried, lane by lane; else block rules fire. -/
def State.windowEvent (s : State) (sl : Slot) : Option State :=
  let t := s.th sl
  if t.frozen || (t.vec.window == [] && t.segCarry == []) then none
  else
    let lanes := (List.finRange 64).filter (fun k => t.cfg.lmap.getLsbD k.val)
    (s.retire sl) <|>
    (sweep ((List.range t.vec.window.length).zip t.vec.window)
      (fun s q => sweep (List.range q.2.accesses) (fun s e => s.ruleEvent sl q.1 e) s) s) <|>
    (sweep lanes (fun s k => sweep [.integerMask, .floating, .permute, .memoryReturn] (fun s c => s.elementFire sl k c) s) s) <|>
    (sweep lanes (fun s k => s.carryCopy sl k) s) <|>
    (s.vpExec sl)

/-- What can still happen in a slot's window does, as its thread stops (R209). -/
def State.settleWindow (s : State) (sl : Slot) : Nat → State
  | 0 => s
  | n + 1 => match s.windowEvent sl with | some s => s.settleWindow sl n | none => s

/-- The same for the slots whose threads a test picks. -/
def State.settleSlots (s : State) (p : Thread → Bool) : State :=
  [0, 1].foldl (fun (s : State) (sl : Slot) => if (s.th sl).occupied && p (s.th sl) then s.settleWindow sl 65536 else s) s

/-- A trap at firmware level ends the context, whose threads stop as in a pre-emption (R197, R209, R420). -/
def State.settleFor (s : State) (t : Thread) : State :=
  if t.level = .firmware then s.settleSlots (fun u => u.ctx == t.ctx) else s

/-! ## Resyncs that a rule resolves (R192, R193) -/

/-- BRANCH_RESOLVE: the value a marked rule holds the Porter for becomes final: VL of a VCOMPRESS (R142), or the trim of a
fault-only-first load that is masked, or that runs on after a trap at its element 0 (R8, R205). -/
def State.branchResolve (s : State) (sl : Slot) : Option State :=
  let t := s.th sl
  if t.frozen then none
  else t.vec.window.findSome? (fun r =>
      if !r.mark then none
      else match r.spec.kind with
      | .compress =>
        let bits := (List.range r.vle).map (fun j => t.vec.bit r.pb j)
        if bits.contains .absent then none
        else
          let n := (bits.filter (fun b => b == .present true)).length
          some (s.setTh sl { t with cfg := if t.vlSet ≤ r.rid then { t.cfg with vl := BitVec.ofNat 16 n } else t.cfg
                                    vec := t.vec.setRule { r with mark := false } })
      | .mem m =>
        if (List.range r.vle).any (fun j => gov t.vec r j == .wait) then none
        else
          (match s.ffTrim t r m (fun j => gov t.vec r j == .on && !r.isDone j) with
           | .wait => none
           | x => some (s.setTh sl (t.trimAt { r with mark := false } x)))
      | _ => none)

/-- A resync's value is outstanding (R193). -/
def Thread.marked (t : Thread) : Bool := !t.held && t.vec.window.any (fun r => r.mark)

/-- Every s register. -/
def allRegs : List (BitVec 5) := (List.range 32).map (BitVec.ofNat 5)

/-- The s registers that a word reads or writes, where neither its result nor its issue needs VL or an element (R193); of a word that reads a group
of them, all. -/
def scalarRegs : Instr → Option (List (BitVec 5))
  | .add d a b | .sub d a b | .and d a b | .or d a b | .xor d a b | .sll d a b | .srl d a b | .sra d a b | .ror d a b | .slt d a b
  | .sltn d a b | .mul d a b | .mulh d a b | .mulhn d a b | .div d a b | .divn d a b | .rem d a b | .remn d a b | .min d a b | .max d a b
  | .minn d a b | .maxn d a b | .amoadd d a b _ _ _ | .amoand d a b _ _ _ | .amoor d a b _ _ _ | .amoxor d a b _ _ _ | .amomin d a b _ _ _
  | .amomax d a b _ _ _ | .amominn d a b _ _ _ | .amomaxn d a b _ _ _ | .amoswap d a b _ _ _ | .amocas d a b _ _ _ => some [d, a, b]
  | .clz d a | .ctz d a | .spopc d a | .sextb d a | .sexth d a | .sextw d a | .addi d a _ | .andi d a _ | .ori d a _ | .xori d a _
  | .slti d a _ | .sltni d a _ | .slli d a _ | .srli d a _ | .srai d a _ | .rori d a _ | .lix d a _ | .ldb d a _ | .ldh d a _ | .ldw d a _
  | .ldd d a _ | .ldbn d a _ | .ldhn d a _ | .ldwn d a _ | .stb d a _ | .sth d a _ | .stw d a _ | .std d a _ | .beq d a _ | .bne d a _
  | .blt d a _ | .bge d a _ | .bltn d a _ | .bgen d a _ => some [d, a]
  | .lih d _ | .addpc d _ | .jr d | .wrcfg d _ | .launch d | .bara d _ | .bar d _ | .barexp d _ | .take d _ | .setvli d _ _ _ | .pkcfg d
  | .pkload d _ | .pkmiss d _ | .xcommit d => some [d]
  | .barw d a _ | .setvl d a _ _ | .pkfeed d a | .pkdrain d a | .pkdrainClr d a | .xst d a => some [d, a]
  | .waitc d a b | .cadd d a b | .setfib d a b _ _ | .mcfg d a b _ _ => some [d, a, b]
  | .rdcfg d c => if c = 0#7 then none else some [d]
  | .ret => some [31]
  | .cpy .. | .cpymg .. | .cwtld .. | .csbar _ | .mma .. | .mmav .. | .mst .. => some allRegs
  | .j _ | .fence .. | .yield | .lrel _ | .vtag .. | .cresume _ | .mzero _ | .pkswap _ | .xbegin | .xabort => some []
  | _ => none

/-- The s registers that a word reads or writes, where it needs VL besides: rules, moves to scalars, calls and the commands that take a row-number
vector. -/
def vlRegs (i : Instr) : Option (List (BitVec 5)) :=
  match i with
  | .vmvs d _ b => some [d, b]
  | .mffs d _ | .mpopc d _ | .rdcfg d _ => some [d]
  | .call _ | .callr _ | .cpyg .. | .cpys .. => some allRegs
  | .cwalk d c e p => some [d, c, e, p]
  | .vpf _ _ => some []
  | _ => (ruleSpec i).map (fun sp =>
      [sp.a, sp.b].filterMap (fun x => match x with | .s r => some r | _ => none) ++ (match sp.kind with | .tblb d => [d] | _ => []))

/-- A word that names these s registers needs none of what a marked rule is still to set: a CWALK sets s(C) and VL, and a later grant has set VL
meanwhile; the others hold back every word that needs VL (R8, R142, R193, R336). -/
def Thread.passesRule (t : Thread) (l : List (BitVec 5)) (vl : Bool) (r : Rule) : Bool :=
  match r.instr with
  | .cwalk _ c _ _ => !l.contains c && (!vl || decide (r.rid < t.vlSet))
  | _ => !vl

/-- The Porter goes on with the words that need neither the value of a resync which is outstanding nor a register which its issue queue is still to
write (R178, R193, R346, assumption 20). -/
def Thread.passes (t : Thread) (i : Instr) : Bool :=
  (!t.marked && t.pending.isEmpty) ||
  (match scalarRegs i, vlRegs i with
   | some l, _ => !t.pending.any l.contains && (!t.marked || t.vec.window.all (fun r => !r.mark || t.passesRule l false r))
   | none, some l => !t.pending.any l.contains && (!t.marked || t.vec.window.all (fun r => !r.mark || t.passesRule l true r))
   | none, none => false)

/-- The Porter's lead has reached 64; the oldest rule is itself one of the 64 (R191, assumption 73). -/
def Thread.leadFull (t : Thread) : Bool :=
  !t.held && (match t.vec.window with | r :: _ => decide (64 ≤ t.count - r.rid) | [] => false)

/-- A fault stands against the rule at the head of the window (R198 step 1). -/
def Thread.headFault (t : Thread) : Bool :=
  !t.held && (match t.vec.window with | r :: _ => r.faults != [] | [] => false)

/-! ## Quiescence and the reported fault (R198) -/

/-- An element access of a rule in the window waits only for a page copy, or for the LOCK of its page's entry: it can still perform (R198, R340). -/
def State.lockWait (s : State) (sl : Slot) : Bool :=
  let t := s.th sl
  t.vec.window.any (fun r => match r.spec.kind with
    | .mem m => !m.lane && (List.range r.vle).any (fun i => match s.accessible sl r m i with
      | none => false
      | some va =>
        (match s.checkElem t { m.elKind with probe := true } va.toNat (memWidth r m) with
         | .wait => true
         | .ok s' _ leaves => m.writes && (match s'.cowAll leaves with | .wait => true | _ => false)
         | _ => false))
    | _ => false) ||
  (s.cows != [] && (t.vpActive || t.marked))

/-- No element of the slot's rules can fire, no access can still perform, no resync can be resolved, and no reply is awaited (R198). -/
def State.quiet (s : State) (sl : Slot) : Bool :=
  (s.windowEvent sl).isNone && (s.branchResolve sl).isNone && (s.th sl).queue == [] && ((s.th sl).frozen || !s.lockWait sl) &&
  !s.reqs.any (fun q => match q.who with | .element k _ _ => k == sl && q.open_ | _ => false)

/-- The lowest faulting element of a rule (R161). -/
def lowestFault : List ElemFault → Option ElemFault
  | [] => none
  | f :: r =>
    match lowestFault r with
    | none => some f
    | some g => some (if g.elem < f.elem then g else f)

/-- A fault of a VP at a word that it was about to execute (R216, R228, R232). -/
def ElemFault.atWord (f : ElemFault) : Bool := f.cause = 0x01 || f.cause = 0x03 || f.cause = 0x0A || f.cause = 0x20

/-- The fault that a rule reports: its lowest element's; of a VPF one of a block rule before one at a word, which is younger (R37, R161, R247). -/
def Rule.reported (r : Rule) : Option ElemFault :=
  lowestFault (r.faults.filter (fun f => !f.atWord)) <|> lowestFault r.faults

/-- The oldest rule with a fault, with its window position and the fault that it reports (R198 step 4). -/
def Vec.oldestFault (v : Vec) : Option (Nat × Rule × ElemFault) :=
  ((List.range v.window.length).zip v.window).findSome? (fun p => p.2.reported.map (fun f => (p.1, p.2, f)))

/-- The trap record of a rule's fault. A fault of a VP is reported with the VPF's position and its element (R247); a runaway
has no position (R232); a word of a block that R37 refuses is reported at the word (R37, R228), and so is one at a breakpoint (R216). -/
def faultInfo (t : Thread) (pos : Nat) (r : Rule) (f : ElemFault) : TrapInfo :=
  let i : TrapInfo := { cause := f.cause, rule := BitVec.ofNat 5 pos, elem := BitVec.ofNat 16 f.elem, addr := f.addr, epc := t.pc, inv := false }
  match r.instr with
  | .vpf _ _ =>
    if f.cause = 0x01 || f.cause = 0x03 then { i with rule := 31, elem := 0, epc := f.addr, inv := true }
    else if f.cause = 0x0A then { i with rule := 31, elem := BitVec.ofNat 16 ((t.breakAt f.addr).getD 0), epc := f.addr, inv := true }
    else if f.cause = 0x20 then { i with rule := 31, inv := true }
    else { i with inv := true }
  | _ => i

/-- A word traps: the window drains first, and an older rule's fault is reported instead (R37, R198). -/
def State.trapWord (s : State) (i : TrapInfo) : Out :=
  let t := s.me
  if t.level ≠ .user || t.vec.window == [] then .next ((s.settleFor t).takeTrap s.cur i)
  else if t.drain && s.quiet s.cur then
    match t.vec.oldestFault with
    | some (pos, r, f) => .next (s.takeTrap s.cur (faultInfo t pos r f))
    | none => .next (s.takeTrap s.cur i)
  else .next (s.setMe { t with stalled := true, drain := true, found := some i })

/-- A word traps with a cause at an address, with EPC at the word (R37, R82). -/
def State.wordTrap (s : State) (cause : BitVec 8) (addr : Nat) : Out :=
  s.trapWord (wordInfo cause (BitVec.ofNat 64 addr) s.me.pc)

/-- The illegal-instruction trap of the word at pc. -/
def State.illegal (s : State) : Out := s.wordTrap 0x01 s.me.pc.toNat

/-- TRAP_ENTRY: the fault of the rule at the head of the window is taken once the window is quiescent (R198, R201). -/
def State.trapEntry (s : State) (sl : Slot) : Option State :=
  let t := s.th sl
  if t.frozen || !s.quiet sl || s.atomicSent sl then none
  else match t.vec.oldestFault with
    | some (0, r, f) => some (s.takeTrap sl (faultInfo t 0 r f))
    | _ => none

/-! ## Issue by the Porter -/

/-- The word waits for registers of the pool, and an unconfirmed path gives up those that it has taken (R178, R179). -/
def State.stallPool (s : State) : Out := (s.setMe s.me.squash).stall

/-- The Porter issues the rule of a vector instruction (R178, R201): above user level it is illegal, an overlap traps, and
it waits for a window entry and registers, and for the trim of a fault-only-first load. -/
def State.issueRule (s : State) (i : Instr) : Out :=
  match ruleSpec i with
  | none => s.illegal
  | some sp =>
    let t := s.me
    if t.level ≠ .user then s.illegal
    else if sp.overlaps then s.wordTrap 0x03 t.pc.toNat
    else if !t.entryFree then s.stall
    else if !(t.prepared sp).poolHas sp.vdests.length sp.pdests.length then s.stallPool
    else match s.issueTrim (t.issue i sp) with
    | none => s.stall
    | some t => s.commit t

/-- VPF: reads the header, waits until the VPs of an earlier VPF have stopped and for a window entry and registers, and starts its own (R226, R243,
R245). -/
def State.vpf (s : State) (i : Instr) (k : BitVec 4) (o : BitVec 20) : Out :=
  let t := s.me
  if t.level ≠ .user then s.illegal
  else
    let a := relTarget t.pc o
    match s.readHeader t a with
    | .trap s c x => s.wordTrap c x
    | .wait s => s.stall
    | .ok s vset hi =>
      if !headerOk vset hi then s.illegal
      else if t.vpActive || !t.entryFree then s.stall
      else if !t.poolHas (popcount 32 vset.toNat) (popcount 16 hi.toNat) then s.stallPool
      else s.commit (t.startVpf i k a vset (hi.setWidth 16))

/-- VP_COHORT_ISSUE: the cohort with the lowest PC that can go on issues its next instruction, while the thread issues (R198, R230). -/
def State.vpCohortIssue (s : State) (sl : Slot) : Option State :=
  let t := s.th sl
  if t.frozen || t.drain || t.headFault then none
  else match t.vpf with
    | none => none
    | some f => firstStep (cohortPcs f) (fun pc => s.cohortStep sl (BitVec.ofNat 64 pc))

end Sys2Proof.Machine
end

