-- ==== Sys2Proof/Machine/Scalar.lean ====
section
/-! DEFINITION. Scalar arithmetic and branches (spec/05 R77 to R80, R87, R88, R91). -/

namespace Sys2Proof.Machine

/-- Writes a function of two s registers to d and goes on. -/
def State.alu2 (s : State) (d a b : BitVec 5) (f : Word → Word → Word) : Out :=
  s.commit (s.me.wr d (f (s.me.rd a) (s.me.rd b)))

/-- Writes a function of one s register to d and goes on. -/
def State.alu1 (s : State) (d a : BitVec 5) (f : Word → Word) : Out := s.commit (s.me.wr d (f (s.me.rd a)))

/-- 1 for true (R77). -/
def flag (b : Bool) : Word := if b then 1 else 0

/-- Signed quotient, rounded toward zero (R78). -/
def sdivW (a b : Word) : Word := if b = 0 then BitVec.allOnes 64 else BitVec.ofInt 64 (Int.tdiv a.toInt b.toInt)

/-- Signed remainder, with the sign of a (R78). -/
def sremW (a b : Word) : Word := if b = 0 then a else BitVec.ofInt 64 (Int.tmod a.toInt b.toInt)

/-- Unsigned quotient and remainder (R78). -/
def udivW (a b : Word) : Word := if b = 0 then BitVec.allOnes 64 else BitVec.ofNat 64 (a.toNat / b.toNat)
def uremW (a b : Word) : Word := if b = 0 then a else BitVec.ofNat 64 (a.toNat % b.toNat)

/-- Count of leading zero bits; 64 for 0 (R77). -/
def clzW (a : Word) : Word := BitVec.ofNat 64 (64 - bitLen a.toNat)

/-- Lowest set bit among the low k bits from bit i on, or k + i when there is none. -/
def lowBit (a : Word) : Nat → Nat → Nat
  | 0, i => i
  | k + 1, i => if a.getLsbD i then i else lowBit a k (i + 1)

/-- Count of trailing zero bits; 64 for 0 (R77). -/
def ctzW (a : Word) : Word := BitVec.ofNat 64 (lowBit a 64 0)

def execAdd (d a b : BitVec 5) (s : State) : Out := s.alu2 d a b (· + ·)
def execSub (d a b : BitVec 5) (s : State) : Out := s.alu2 d a b (· - ·)
def execAnd (d a b : BitVec 5) (s : State) : Out := s.alu2 d a b (· &&& ·)
def execOr (d a b : BitVec 5) (s : State) : Out := s.alu2 d a b (· ||| ·)
def execXor (d a b : BitVec 5) (s : State) : Out := s.alu2 d a b (· ^^^ ·)
def execSll (d a b : BitVec 5) (s : State) : Out := s.alu2 d a b (fun x y => x <<< (y.toNat % 64))
def execSrl (d a b : BitVec 5) (s : State) : Out := s.alu2 d a b (fun x y => x >>> (y.toNat % 64))
def execSra (d a b : BitVec 5) (s : State) : Out := s.alu2 d a b (fun x y => x.sshiftRight (y.toNat % 64))
def execRor (d a b : BitVec 5) (s : State) : Out := s.alu2 d a b (fun x y => x.rotateRight (y.toNat % 64))
def execSlt (d a b : BitVec 5) (s : State) : Out := s.alu2 d a b (fun x y => flag (decide (x.toInt < y.toInt)))
def execSltn (d a b : BitVec 5) (s : State) : Out := s.alu2 d a b (fun x y => flag (decide (x.toNat < y.toNat)))
def execMul (d a b : BitVec 5) (s : State) : Out := s.alu2 d a b (· * ·)
def execMulh (d a b : BitVec 5) (s : State) : Out :=
  s.alu2 d a b (fun x y => BitVec.ofInt 64 (x.toInt * y.toInt / 2 ^ 64))
def execMulhn (d a b : BitVec 5) (s : State) : Out :=
  s.alu2 d a b (fun x y => BitVec.ofNat 64 (x.toNat * y.toNat / 2 ^ 64))
def execDiv (d a b : BitVec 5) (s : State) : Out := s.alu2 d a b sdivW
def execDivn (d a b : BitVec 5) (s : State) : Out := s.alu2 d a b udivW
def execRem (d a b : BitVec 5) (s : State) : Out := s.alu2 d a b sremW
def execRemn (d a b : BitVec 5) (s : State) : Out := s.alu2 d a b uremW
def execMin (d a b : BitVec 5) (s : State) : Out := s.alu2 d a b (fun x y => if x.toInt ≤ y.toInt then x else y)
def execMax (d a b : BitVec 5) (s : State) : Out := s.alu2 d a b (fun x y => if x.toInt ≤ y.toInt then y else x)
def execMinn (d a b : BitVec 5) (s : State) : Out := s.alu2 d a b (fun x y => if x.toNat ≤ y.toNat then x else y)
def execMaxn (d a b : BitVec 5) (s : State) : Out := s.alu2 d a b (fun x y => if x.toNat ≤ y.toNat then y else x)
def execClz (d a : BitVec 5) (s : State) : Out := s.alu1 d a clzW
def execCtz (d a : BitVec 5) (s : State) : Out := s.alu1 d a ctzW
def execSpopc (d a : BitVec 5) (s : State) : Out := s.alu1 d a (fun x => BitVec.ofNat 64 (popcount 64 x.toNat))
def execSextb (d a : BitVec 5) (s : State) : Out := s.alu1 d a (fun x => (x.setWidth 8).signExtend 64)
def execSexth (d a : BitVec 5) (s : State) : Out := s.alu1 d a (fun x => (x.setWidth 16).signExtend 64)
def execSextw (d a : BitVec 5) (s : State) : Out := s.alu1 d a (fun x => (x.setWidth 32).signExtend 64)

/-! ## Immediates (R79, R80) -/

def execAddi (d a : BitVec 5) (i : BitVec 16) (s : State) : Out := s.alu1 d a (· + i.signExtend 64)
def execAndi (d a : BitVec 5) (i : BitVec 16) (s : State) : Out := s.alu1 d a (· &&& i.setWidth 64)
def execOri (d a : BitVec 5) (i : BitVec 16) (s : State) : Out := s.alu1 d a (· ||| i.setWidth 64)
def execXori (d a : BitVec 5) (i : BitVec 16) (s : State) : Out := s.alu1 d a (· ^^^ i.setWidth 64)
def execSlti (d a : BitVec 5) (i : BitVec 16) (s : State) : Out :=
  s.alu1 d a (fun x => flag (decide (x.toInt < (i.signExtend 64).toInt)))
def execSltni (d a : BitVec 5) (i : BitVec 16) (s : State) : Out :=
  s.alu1 d a (fun x => flag (decide (x.toNat < (i.setWidth 64).toNat)))
def execSlli (d a : BitVec 5) (n : BitVec 6) (s : State) : Out := s.alu1 d a (fun x => x <<< n.toNat)
def execSrli (d a : BitVec 5) (n : BitVec 6) (s : State) : Out := s.alu1 d a (fun x => x >>> n.toNat)
def execSrai (d a : BitVec 5) (n : BitVec 6) (s : State) : Out := s.alu1 d a (fun x => x.sshiftRight n.toNat)
def execRori (d a : BitVec 5) (n : BitVec 6) (s : State) : Out := s.alu1 d a (fun x => x.rotateRight n.toNat)
def execLih (d : BitVec 5) (i : BitVec 16) (s : State) : Out := s.commit (s.me.wr d (i.signExtend 64 <<< 16))
def execLix (d a : BitVec 5) (i : BitVec 16) (s : State) : Out := s.alu1 d a (fun x => (x <<< 16) ||| i.setWidth 64)

/-- ADDPC (R80). -/
def execAddpc (d : BitVec 5) (i : BitVec 16) (s : State) : Out :=
  s.commit (s.me.wr d ((s.me.pc &&& ~~~(0xFFFF#64)) + (i.signExtend 64 <<< 16)))

/-! ## Branches and jumps (R87, R88, R91) -/

/-- A branch continues at its own address plus the word offset when the condition holds (R87). -/
def State.branch (s : State) (a b : BitVec 5) (o : BitVec 16) (c : Word → Word → Bool) : Out :=
  let t := s.me
  s.commitAt t (if c (t.rd a) (t.rd b) then relTarget t.pc o else t.pc + 4)

def execBeq (a b : BitVec 5) (o : BitVec 16) (s : State) : Out := s.branch a b o (fun x y => decide (x = y))
def execBne (a b : BitVec 5) (o : BitVec 16) (s : State) : Out := s.branch a b o (fun x y => decide (x ≠ y))
def execBlt (a b : BitVec 5) (o : BitVec 16) (s : State) : Out := s.branch a b o (fun x y => decide (x.toInt < y.toInt))
def execBge (a b : BitVec 5) (o : BitVec 16) (s : State) : Out := s.branch a b o (fun x y => decide (y.toInt ≤ x.toInt))
def execBltn (a b : BitVec 5) (o : BitVec 16) (s : State) : Out := s.branch a b o (fun x y => decide (x.toNat < y.toNat))
def execBgen (a b : BitVec 5) (o : BitVec 16) (s : State) : Out := s.branch a b o (fun x y => decide (y.toNat ≤ x.toNat))

def execJ (o : BitVec 26) (s : State) : Out := s.commitAt s.me (relTarget s.me.pc o)

/-- The instruction-alignment fault of a target whose bits [1:0] are not zero, at the transferring word (R31). -/
def execJr (a : BitVec 5) (s : State) : Out :=
  let target := s.me.rd a
  if target.toNat % 4 ≠ 0 then s.wordTrap 0x05 s.me.pc.toNat else s.commitAt s.me target

end Sys2Proof.Machine
end

