-- ==== Sys2Proof/Machine/ScalarMem.lean ====
section
/-! DEFINITION. Scalar loads, stores, atomics, calls and returns (spec/05 R81 to R90; spec/20 R346 to R355). -/

namespace Sys2Proof.Machine

/-! ## Waiting for earlier accesses -/

/-- Element j of a memory rule is performed and its data has landed (R159). -/
def State.elemOpen (s : State) (sl : Slot) (r : Rule) (m : MemSpec) (j : Nat) : Bool :=
  s.unperformed sl r m j || r.flight.any (fun f => f.elem == j)

/-- Some element of a memory rule is not done, or a walk has not ended. -/
def State.ruleOpen (s : State) (sl : Slot) (r : Rule) : Bool :=
  match r.spec.kind with
  | .mem m => (List.range r.vle).any (fun j => s.elemOpen sl r m j)
  | .tblb _ => !r.isDone 0
  | .cwalk _ => r.mark
  | _ => false

def Rule.ovt (r : Rule) : Bool := match r.spec.kind with | .mem m => m.ovt | _ => false

/-- A scalar access, a scalar atomic or LAUNCH waits for every earlier memory rule with OVT = 0 (R159). A handler's accesses are
not ordered after the rules of the held image. -/
def State.scalarHeld (s : State) (sl : Slot) : Bool :=
  let t := s.th sl
  !t.held && t.vec.window.any (fun r => !r.ovt && s.ruleOpen sl r)

/-- Some earlier access of the thread has not performed: an element of a memory rule, a queued store, or a write to a peer (R86, R290,
R347). The accesses of running VPs are not among them (R231, assumption 85). -/
def State.accessOpen (s : State) (sl : Slot) : Bool :=
  let t := s.th sl
  (!t.held && t.vec.window.any (fun r => s.ruleOpen sl r)) || t.queue != [] ||
  s.reqs.any (fun q => q.who == .posted && q.open_)

/-! ## Loads and stores (R81) -/

/-- A load that enters the issue queue of the thread whose turn it is, where the Porter lets it (R346, R348; assumption 101). -/
def State.deferLoad (s : State) (t : Thread) (d : BitVec 5) (sgn : Bool) (va : Word) (n : Nat) : Option State :=
  if !t.defer then none
  else match s.scalarCheck t .read va n with
    | .ok s locs leaf =>
      let c := State.isCached leaf (firstLoc locs)
      if s.defers c locs then
        let s := match leaf with | some l => s.touch l false | none => s
        some (s.enqueue va.toNat locs leaf (.load d sgn (s.localBytes c locs).1))
      else none
    | _ => none

/-- A scalar load of n bytes into d, sign-extended or not. -/
def State.scalarLoad (s : State) (d a : BitVec 5) (o : BitVec 12) (n : Nat) (sgn : Bool) : Out :=
  let t := s.me
  let va := t.rd a + o.signExtend 64
  if s.scalarHeld s.cur then s.stall
  else match s.deferLoad t d sgn va n with
  | some s => s.commit s.me
  | none => match s.load s.cur t va n with
    | .trap s c x => s.wordTrap c x
    | .wait s => s.stall
    | .done s v => s.commit (s.me.wr d (loadValue sgn n v))

/-- A scalar store of the low n bytes of s(d), behind the entries of the issue queue that it must follow, or among them (R83, R346). -/
def State.scalarStore (s : State) (d a : BitVec 5) (o : BitVec 12) (n : Nat) : Out :=
  let t := s.me
  let va := t.rd a + o.signExtend 64
  if s.scalarHeld s.cur then s.stall
  else match s.storeCheck t va n with
    | .trap s c x => s.wordTrap c x
    | .wait s => s.stall
    | .ok s locs leaf =>
      let c := State.isCached leaf (firstLoc locs)
      let bs := leBytes n (t.rd d).toNat
      let used (s : State) : State := State.dropEarly (match leaf with | some l => s.touch l true | none => s) s.cur locs
      if t.defer && locs.all Loc.isLocal then
        let s := (used s).enqueue va.toNat locs leaf (.store bs)
        s.commit s.me
      else if s.queueHolds t locs false true (State.devLeaf leaf) then s.stall
      else
        let s := (used s).storeLocs t.ctx locs c bs
        s.commit s.me

def execLdb (d a : BitVec 5) (o : BitVec 12) (s : State) : Out := s.scalarLoad d a o 1 true
def execLdh (d a : BitVec 5) (o : BitVec 12) (s : State) : Out := s.scalarLoad d a o 2 true
def execLdw (d a : BitVec 5) (o : BitVec 12) (s : State) : Out := s.scalarLoad d a o 4 true
def execLdd (d a : BitVec 5) (o : BitVec 12) (s : State) : Out := s.scalarLoad d a o 8 true
def execLdbn (d a : BitVec 5) (o : BitVec 12) (s : State) : Out := s.scalarLoad d a o 1 false
def execLdhn (d a : BitVec 5) (o : BitVec 12) (s : State) : Out := s.scalarLoad d a o 2 false
def execLdwn (d a : BitVec 5) (o : BitVec 12) (s : State) : Out := s.scalarLoad d a o 4 false
def execStb (d a : BitVec 5) (o : BitVec 12) (s : State) : Out := s.scalarStore d a o 1
def execSth (d a : BitVec 5) (o : BitVec 12) (s : State) : Out := s.scalarStore d a o 2
def execStw (d a : BitVec 5) (o : BitVec 12) (s : State) : Out := s.scalarStore d a o 4
def execStd (d a : BitVec 5) (o : BitVec 12) (s : State) : Out := s.scalarStore d a o 8

/-! ## Atomics (R84 to R86) -/

/-- The checks of an atomic: those of R82, then the attribute faults of R85 and R306. -/
def State.amoCheck (s : State) (t : Thread) (op : AmoOp) (va : Word) (n : Nat) : Acc :=
  let a := va.toNat
  if 2 ^ 56 ≤ a then .trap s 0x10 a
  else if a % n ≠ 0 then .trap s 0x11 a
  else if inWindow a then
    (if spSize < a - winBase + n || s.tilesOf t * 4096 < a - winBase + n then .trap s 0x12 a else .trap s 0x1A a)
  else match s.scalarCheck t .write va n with
    | .ok s locs (some l) =>
      if pteTol l.e || pteDev l.e || (pteHost l.e && !amoPcie op) then .trap s 0x1A a
      else match s.cowStart l with
        | .none => .ok s locs (some l)
        | .wait s => .wait s
        | .empty s => .trap s 0x1C a
    | r => r

/-- Scope codes 0 to 5 of a home scope (R35). -/
def homeScope (e : Word) : Nat := if pteSync e then listGet 0 [1, 3, 4, 5] (pteHscope e) else 0

/-- Release step of a scope: nothing below party scope, every dirty byte from party scope on, and the flush at system scope; the
flag says that it has completed (R349). -/
def State.release (s : State) (scope : Nat) : State × Bool :=
  if scope = 5 then s.sysRelease
  else if 2 ≤ scope then (s.releaseLines, true)
  else (s, true)

/-- Acquire step of a scope (R349). -/
def State.acquire (s : State) (scope : Nat) : State := if 2 ≤ scope then s.acquireLines else s

/-- A scalar atomic (R84 to R86), behind the entries of the issue queue that it must follow; a relaxed one of local memory may stand among them (R346). -/
def State.samo (s : State) (op : AmoOp) (d a b : BitVec 5) (sc : BitVec 3) (o w : BitVec 2) : Out :=
  let t := s.me
  let va := t.rd a
  let wide := w = 1#2
  let n := if wide then 8 else 4
  let rel := decide (2 ≤ o.toNat)
  let acq := o = 1#2 || o = 3#2
  if s.scalarHeld s.cur || (rel && s.accessOpen s.cur) then s.stall
  else match s.amoCheck t op va n with
    | .trap s c x => s.wordTrap c x
    | .wait s => s.stall
    | .ok s locs leaf =>
      let e : Word := match leaf with | some l => l.e | none => 0
      let cached := State.isCached leaf (firstLoc locs)
      let inLine := decide (max sc.toNat (homeScope e) ≤ 1) && cached
      if t.defer && !rel && !acq && s.defers cached locs then
        let s := match leaf with | some l => s.touch l true | none => s
        let s := s.enqueue va.toNat locs leaf (.amo op wide inLine d (t.rd b) (t.rd d) (wordOf (s.localBytes cached locs).1))
        s.commit s.me
      else if s.queueHolds t locs true true (State.devLeaf leaf) then s.stall
      else match (if rel then s.release sc.toNat else (s, true)) with
      | (s, false) => s.stall
      | (s, true) =>
        let s := match leaf with | some l => s.touch l true | none => s
        let done (s : State) (v : Word) : Out :=
          let s := (if acq then (s.acquire sc.toNat).forgetEarly s.cur else s).dropEarly s.cur locs
          s.commit (s.me.wr d (amoResult wide v))
        match firstLoc locs with
        | .peer pa | .host pa =>
          (match s.remote s.cur pa (.atomic op wide (t.rd b) (t.rd d)) va.toNat with
           | .done s v => done s v
           | .wait s => s.stall
           | .trap s c x => s.wordTrap c x)
        | .home pa =>
          (match (if inLine then s.lineAtomic op wide pa (t.rd b) (t.rd d) else s.homeAtomic op wide pa (t.rd b) (t.rd d)) with
           | (s, some v) => done s v
           | (s, none) => s.wordTrap 0x28 va.toNat)
        | _ => s.wordTrap 0x1A va.toNat

def execAmoadd (d a b : BitVec 5) (sc : BitVec 3) (o w : BitVec 2) (s : State) : Out := s.samo .add d a b sc o w
def execAmoand (d a b : BitVec 5) (sc : BitVec 3) (o w : BitVec 2) (s : State) : Out := s.samo .and d a b sc o w
def execAmoor (d a b : BitVec 5) (sc : BitVec 3) (o w : BitVec 2) (s : State) : Out := s.samo .or d a b sc o w
def execAmoxor (d a b : BitVec 5) (sc : BitVec 3) (o w : BitVec 2) (s : State) : Out := s.samo .xor d a b sc o w
def execAmomin (d a b : BitVec 5) (sc : BitVec 3) (o w : BitVec 2) (s : State) : Out := s.samo .min d a b sc o w
def execAmomax (d a b : BitVec 5) (sc : BitVec 3) (o w : BitVec 2) (s : State) : Out := s.samo .max d a b sc o w
def execAmominn (d a b : BitVec 5) (sc : BitVec 3) (o w : BitVec 2) (s : State) : Out := s.samo .minn d a b sc o w
def execAmomaxn (d a b : BitVec 5) (sc : BitVec 3) (o w : BitVec 2) (s : State) : Out := s.samo .maxn d a b sc o w
def execAmoswap (d a b : BitVec 5) (sc : BitVec 3) (o w : BitVec 2) (s : State) : Out := s.samo .swap d a b sc o w
def execAmocas (d a b : BitVec 5) (sc : BitVec 3) (o w : BitVec 2) (s : State) : Out := s.samo .cas d a b sc o w

/-! ## Calls and returns (R89, R90) -/

/-- Pushes the return address and the vector-state word, all or nothing, and goes on at the target (R89). -/
def State.call (s : State) (target : Word) : Out :=
  let t := s.me
  let sp := t.rd 31
  if s.scalarHeld s.cur then s.stall
  else if sp.toNat % 16 ≠ 0 then s.wordTrap 0x11 sp.toNat
  else if target.toNat % 4 ≠ 0 then s.wordTrap 0x05 t.pc.toNat
  else
    let n := sp - 16
    match s.storeCheck t n 8 with
    | .trap s c x => s.wordTrap c x
    | .wait s => s.stall
    | .ok s l1 f1 =>
      match s.storeCheck t (n + 8) 8 with
      | .trap s c x => s.wordTrap c x
      | .wait s => s.stall
      | .ok s l2 f2 =>
        if s.queueHolds t (l1 ++ l2) false true (State.devLeaf f1) then s.stall
        else
          let s := match f1 with | some l => s.touch l true | none => s
          let s := s.storeLocs t.ctx l1 (State.isCached f1 (firstLoc l1)) (leBytes 8 (t.pc + 4).toNat)
          let s := (s.storeLocs t.ctx l2 (State.isCached f2 (firstLoc l2)) (leBytes 8 t.cfg.vsw.toNat)).dropEarly s.cur (l1 ++ l2)
          s.commitAt (s.me.wr 31 n) target

def execCall (o : BitVec 26) (s : State) : Out := s.call (relTarget s.me.pc o)
def execCallr (a : BitVec 5) (s : State) : Out := s.call (s.me.rd a)

/-- RET (R90). -/
def execRet (s : State) : Out :=
  let t := s.me
  let sp := t.rd 31
  if s.scalarHeld s.cur then s.stall
  else if sp.toNat % 16 ≠ 0 then s.wordTrap 0x11 sp.toNat
  else match s.load s.cur t sp 8 with
    | .trap s c x => s.wordTrap c x
    | .wait s => s.stall
    | .done s ra =>
      match s.load s.cur t (sp + 8) 8 with
      | .trap s c x => s.wordTrap c x
      | .wait s => s.stall
      | .done s w =>
        if w.toNat / 2 ^ 23 ≠ 0 || 4 < w.toNat / 2 ^ 20 % 8 then s.wordTrap 0x04 t.pc.toNat
        else if ra.toNat % 4 ≠ 0 then s.wordTrap 0x05 t.pc.toNat
        else
          let u := s.me
          let c := { u.cfg with vl := BitVec.ofNat 16 (min (w.toNat % 2 ^ 16) (u.vlmax 0))
                                segsel := (w >>> 16).setWidth 4, frm := (w >>> 20).setWidth 3 }
          s.commitAt (({ u with cfg := c, vlSet := if u.held then u.vlSet else u.count } : Thread).wr 31 (sp + 16)) ra

end Sys2Proof.Machine
end

