-- ==== Sys2Proof/Machine/System.lean ====
section
/-! DEFINITION. System instructions: TRAP, BRK, ERET, the configuration registers, FENCE, EXIT, YIELD, SPLICE and LAUNCH (spec/05 R92 to
R100; spec/11 R205, R208, R213; spec/25 R418). -/

namespace Sys2Proof.Machine

/-- Every rule that the thread has issued is complete and has retired; a handler issues none (R93, R201). -/
def Thread.allDone (t : Thread) : Bool := t.held || t.vec.window == []

/-! ## Engine faults (R208, R309) -/

/-- The streams with a fault that waits for delivery to the slot's thread, with the post faults of the slot. -/
def State.engFaults (s : State) (sl : Slot) : List (Nat × BitVec 8 × Nat × Word) :=
  let t := s.th sl
  (s.postFaults.filter (fun f => f.slot == sl)).map (fun f => (f.stream, f.cause, 0, f.addr)) ++
  s.cmds.filterMap (fun c =>
    if c.pendingFault t sl then
      (match c.st with | .parked cause e a _ _ => some (c.stream, cause, e, a) | _ => none)
    else none)

/-- The entry with the lowest stream number. -/
def lowestStream : List (Nat × BitVec 8 × Nat × Word) → Option (Nat × BitVec 8 × Nat × Word)
  | [] => none
  | f :: r =>
    match lowestStream r with
    | none => some f
    | some g => some (if g.1 < f.1 then g else f)

/-- Marks the fault of a stream as delivered; a post fault is used up. -/
def State.markDelivered (s : State) (sl : Slot) (stream : Nat) : State :=
  if s.postFaults.any (fun f => f.slot == sl && f.stream == stream) then
    { s with postFaults := s.postFaults.filter (fun f => !(f.slot == sl && f.stream == stream)) }
  else
    { s with cmds := s.cmds.map (fun c =>
        if c.stream == stream && c.pendingFault (s.th sl) sl then
          (match c.st with | .parked cause e a _ k => { c with st := .parked cause e a true k } | _ => c)
        else c) }

/-- The slot's thread can take an engine fault at its boundary: at user level, and not inside the wait of a BAR (R208, R253). -/
def State.engineReady (s : State) (sl : Slot) : Bool :=
  let t := s.th sl
  t.occupied && t.level == .user && t.arrived == none && s.engPending sl && !s.atomicSent sl

/-- Delivers the lowest stream's fault with cause 0x40 + c (R208). -/
def State.deliverEngine (s : State) (sl : Slot) : State :=
  match lowestStream (s.engFaults sl) with
  | none => s
  | some (stream, cause, e, a) =>
    let s := s.markDelivered sl stream
    let t := s.th sl
    let s := s.setTh sl { t with cfg := { t.cfg with cestart := BitVec.ofNat 32 e, cestream := BitVec.ofNat 4 stream } }
    s.takeTrap sl { cause := 0x40 + cause, rule := 31, elem := 0, addr := a, epc := t.pc, inv := false }

/-- ENGINE_FAULT_DELIVERY: at an instruction boundary whose window is quiescent and holds no fault (R208, R213). -/
def State.engineFaultDelivery (s : State) (sl : Slot) : Option State :=
  let t := s.th sl
  if s.engineReady sl && !t.drain && (t.vec.window == [] || (s.quiet sl && t.vec.oldestFault.isNone)) then some (s.deliverEngine sl)
  else none

/-! ## TRAP, BRK and ERET (R93, R205, R418) -/

/-- Takes a trap once every earlier rule is complete. -/
def State.trapWhenDone (s : State) (i : TrapInfo) : Out :=
  if s.me.allDone then .next ((s.settleFor s.me).takeTrap s.cur i) else s.stall

/-- The call of a service function: the trap registers are written, the release step runs, and the thread waits at firmware level, at the
firmware entry of its context (R93, R197, R418, R422). -/
def State.serviceCall (s : State) (n : BitVec 7) (i : TrapInfo) : Out :=
  let s := s.releaseLines
  let t := s.me
  .next (s.setMe { t with cfg := t.cfg.trapped i t.level none (s.engPending s.cur), level := .firmware
                          pc := (match s.ctxOf t.ctx with | some c => c.fw | none => t.pc), wait := some (.service n.toNat) })

def execTrap (n : BitVec 7) (s : State) : Out :=
  let t := s.me
  let i : TrapInfo := { cause := 0x08, rule := 31, elem := n.setWidth 16, addr := t.pc, epc := t.pc + 4, inv := false }
  if t.level = .supervisor then s.serviceCall n i else s.trapWhenDone i

def execBrk (n : BitVec 7) (s : State) : Out :=
  let t := s.me
  s.trapWhenDone { cause := 0x09, rule := 31, elem := n.setWidth 16, addr := t.pc, epc := t.pc, inv := false }

/-- The causes 0x40 + c of engine faults (R196). -/
def isEngineCause (c : BitVec 8) : Bool :=
  [0x50, 0x51, 0x52, 0x58, 0x59, 0x5A, 0x5B, 0x5C, 0x68].contains c.toNat

/-- A stream that is parked and whose fault has been delivered restarts (R321). -/
def State.restartStream (s : State) (stream : Nat) : State :=
  { s with cmds := s.cmds.map (fun c =>
      match c.st with
      | .parked _ _ _ true true => if c.stream == stream then { c with st := .adding } else c
      | .parked _ e _ true false =>
        if c.stream == stream then { c with st := .performing, xfer := c.xfer.filter (fun k => k < e) } else c
      | _ => c) }

/-- A write of the core to a peer has no reply yet. -/
def State.writesOpen (s : State) : Bool := s.reqs.any (fun q => q.who == .posted && q.open_)

/-- ERET waits until the handler's stores have performed at device scope, discards the words fetched for the context, and returns; a walk that
runs again is posted anew (R205, R290, R321, R337). -/
def execEret (s : State) : Out :=
  let t := s.me
  if t.level = .user then s.wordTrap 0x02 t.pc.toNat
  else if t.queue != [] || s.writesOpen then s.stall
  else
    let s := s.releaseLines.dropWords t.ctx
    if t.cfg.plev = 0 && !t.held then s.wordTrap 0x04 t.pc.toNat
    else
      let s := if isEngineCause t.cfg.trapcause then s.restartStream t.cfg.cestream.toNat else s
      let u := t.eret
      let rule (r : Rule) : Rule := match r.instr with | .cwalk _ _ _ _ => { r with post := s.seq } | _ => r
      let v := if t.cfg.plev = 0 then { u.vec with window := u.vec.window.map rule } else u.vec
      .next (({ s with seq := s.seq + 1 } : State).dropScalar s.cur |>.setMe
        { u with vec := v, stalled := false, drain := false, found := none, wait := none })

/-! ## RDCFG and WRCFG (R22 to R24, R95, R408) -/

def execRdcfg (d : BitVec 5) (c : BitVec 7) (s : State) : Out :=
  let t := s.me
  let n := c.toNat
  if 0x18 < n then s.illegal
  else if t.level = .user && cfgReadS n then s.wordTrap 0x02 t.pc.toNat
  else if cfgResync n && !t.allDone then s.stall
  else s.commit (t.wr d (s.cfgRead s.cur n))

/-- Sum of the budgets of the contexts but one. -/
def State.budgets (s : State) (but : BitVec 12) : Nat :=
  ((s.ctxs.filter (fun c => c.num != but)).map (fun c => c.budget.toNat)).sum

/-- WRCFG of PURSE writes the context's BUDGET within the module limit (R408). -/
def State.writePurse (s : State) (v : Word) : Out :=
  let t := s.me
  let b := v.toNat % 2 ^ 32
  if b ≠ 0 && s.mlim * 1000 < b + s.budgets t.ctx then s.wordTrap 0x04 t.pc.toNat
  else
    let s := match s.ctxOf t.ctx with
      | some c => s.setCtx { c with budget := BitVec.ofNat 32 b, g := grantFactor b c.spent.toNat }
      | none => s
    s.commit s.me

def execWrcfg (a : BitVec 5) (c : BitVec 7) (s : State) : Out :=
  let t := s.me
  let n := c.toNat
  let v := t.rd a
  if !cfgWritable n then s.illegal
  else if t.level = .user && cfgWriteS n then s.wordTrap 0x02 t.pc.toNat
  else if n = 0x03 && 4 < v.toNat % 8 then s.illegal
  else if cfgResync n && !t.allDone then s.stall
  else if n = 0x0B then s.writePurse v
  else s.commit { t with cfg := t.cfg.write n v }

/-! ## FENCE, EXIT, YIELD (R96 to R98, R231, R349) -/

/-- The rule has accesses of the predecessor set; lane tables are not memory (R173). -/
def Rule.inSet (r : Rule) (reads writes : Bool) : Bool :=
  match r.spec.kind with
  | .mem m => (match m.dir with | .load => reads | .store => writes | .amo _ => true | .laneLoad | .laneStore => false)
  | .tblb _ | .cwalk _ => reads
  | _ => false

/-- An access of the predecessor set that stands in no issue queue has not performed, or a VP of an earlier VPF has not stopped (R96, R231). -/
def State.fenceOpen (s : State) (sl : Slot) (reads writes : Bool) : Bool :=
  let t := s.th sl
  (!t.held && (t.vpActive || t.vec.window.any (fun r => r.inSet reads writes && s.ruleOpen sl r))) || (writes && s.writesOpen)

/-- FENCE performs after its predecessor set: at once, or from the issue queue, where its successors wait for it (R96, R346, R349). -/
def execFence (p q r t : Bool) (sc : BitVec 3) (s : State) : Out :=
  if s.fenceOpen s.cur p q then s.stall
  else if s.me.queue.any (fun x => x.op.beforeFence p q) then
    (if s.me.defer && sc ≠ 5#3 then
       (let s := s.enqueue 0 [] none (.fence p q r t sc.toNat)
        s.commit s.me)
     else s.stall)
  else match s.release sc.toNat with
    | (s, false) => s.stall
    | (s, true) =>
      let s := if r then (s.acquire sc.toNat).forgetEarly s.cur else s
      s.commit s.me

/-- EXIT waits for every rule and access, runs a release step, discards an open transaction and frees the slot (R97, R401). -/
def execExit (s : State) : Out :=
  if !s.me.allDone || s.accessOpen s.cur then s.stall
  else .next ((s.releaseLines.dropScalar s.cur).leave s.cur)

/-- The slots alternate, so handing over the issue slot changes nothing (R98, R284). -/
def execYield (s : State) : Out := s.commit s.me

/-! ## SPLICE (R99, R286, R287) -/

/-- Version and entry n of the binding that the task's record names, when both can be read. -/
def State.binding (s : State) (ctx : BitVec 12) (bind n : Nat) : Option (Nat × Nat) :=
  match s.innRead ctx bind 8 with
  | .error _ => none
  | .ok rec =>
    match s.innRead ctx rec 8, s.innRead ctx (rec + 0x10) 8 with
    | .ok ver, .ok stab =>
      if stab = 0 then none
      else (match s.innRead ctx (stab + 8 * n) 8 with | .ok e => some (ver, e) | .error _ => none)
    | _, _ => none

/-- The pages of what `binding` reads are marked as used (R364). -/
def State.seenBinding (s : State) (ctx : BitVec 12) (bind n : Nat) : State :=
  let s := s.innSeen ctx false bind 8
  match s.innRead ctx bind 8 with
  | .error _ => s
  | .ok rec =>
    let s := s.innSeen ctx false rec 24
    match s.innRead ctx (rec + 0x10) 8 with
    | .ok stab => if stab = 0 then s else s.innSeen ctx false (stab + 8 * n) 8
    | .error _ => s

/-- SPLICE waits for the VPs, reads the binding, and goes on at the entry of a newer version. R31 names no check of a splice entry: one whose
bits [1:0] are not zero is taken as it stands (assumption 87). -/
def execSplice (n : BitVec 8) (s : State) : Out :=
  if !s.me.held && s.me.vpActive then s.stall
  else
    let s := s.acquireStep s.cur
    match s.myTask s.me with
    | none => s.commit s.me
    | some k =>
      let s := s.seenBinding s.me.ctx k.fields.bind.toNat n.toNat
      let t := s.me
      match s.binding t.ctx k.fields.bind.toNat n.toNat with
      | some (ver, e) =>
        if t.version.toNat < ver && e ≠ 0 then s.commitAt { t with version := BitVec.ofNat 64 ver } (BitVec.ofNat 64 e)
        else s.commit t
      | none => s.commit t

/-! ## LAUNCH (R100, R267) -/

/-- Links a record at the end of the launch list of the die: the record before it, if one still stands there, names it in its LINK, and its own
LINK is 0 (R100, R262, R267; assumption 46). -/
def State.linkLaunch (s : State) (ctx : BitVec 12) (va : Word) : State :=
  let s := match s.launches.getLast? with | some (c, w) => s.innPut c w.toNat (leBytes 8 va.toNat) | none => s
  let s := s.innPut ctx va.toNat (leBytes 8 0)
  { s with launches := s.launches ++ [(ctx, va)] }

def execLaunch (a : BitVec 5) (s : State) : Out :=
  let t := s.me
  let va := t.rd a
  if s.scalarHeld s.cur then s.stall
  else if va.toNat % 128 ≠ 0 then s.wordTrap 0x11 va.toNat
  else match s.scalarCheck t .read va 8 with
    | .trap s c x => s.wordTrap c x
    | .wait s => s.stall
    | .ok s _ leaf =>
      if s.accessOpen s.cur then s.stall
      else
        let s := match leaf with | some l => s.touch l false | none => s
        let s := s.releaseLines.linkLaunch t.ctx va
        s.commit s.me

end Sys2Proof.Machine
end

