-- ==== Sys2Proof/Machine/Sync.lean ====
section
/-! DEFINITION. Barriers, work pools and counters (spec/14 R250 to R257; spec/18 R323 to R325). -/

namespace Sys2Proof.Machine

/-! ## Barriers (R251 to R255) -/

/-- The arrival of the level at which the thread runs: a handler's BAR is apart from that of the program which it interrupts (R253). -/
def Thread.arrival (t : Thread) : Option Arrival := if t.held then t.upArrived else t.arrived

/-- Sets that arrival. -/
def Thread.setArrival (t : Thread) (a : Option Arrival) : Thread := if t.held then { t with upArrived := a } else { t with arrived := a }

/-- A BAR returns: an acquire step, and the report in d (R253, R349). -/
def State.barReturn (s : State) (d : BitVec 5) (report : Word) : Out :=
  let s := s.acquireStep s.cur
  s.commit ((s.me.setArrival none).wr d report)

/-- BAR arrives once, after every earlier access, and waits for its phase; a BAR that runs again after a trap or a pre-emption goes on
with its wait (R253, R255). -/
def execBar (d : BitVec 5) (n : BitVec 4) (s : State) : Out :=
  let t := s.me
  match t.arrival.filter (fun x => x.bar == n.toFin) with
  | some x => (match x.report with | some r => s.barReturn d r | none => s.stall)
  | none =>
    if s.accessOpen s.cur then s.stall
    else
      let s := s.releaseLines
      let phase := (s.barOf t.party n.toFin).phase
      let s := s.setMe (s.me.setArrival (some { bar := n.toFin, phase := phase, report := none }))
      let s := s.barArrive t.party n.toFin t.cfg.ptidx.toNat
      match s.me.arrival with
      | some { report := some r, .. } => s.barReturn d r
      | _ => s.stall

/-- BARA arrives and returns the phase arrived in (R253). -/
def execBara (d : BitVec 5) (n : BitVec 4) (s : State) : Out :=
  let t := s.me
  if s.accessOpen s.cur then s.stall
  else
    let s := s.releaseLines
    let phase := (s.barOf t.party n.toFin).phase
    let s := s.barArrive t.party n.toFin t.cfg.ptidx.toNat
    s.commit (s.me.wr d (phase.setWidth 64))

/-- BARW waits until the barrier has passed the phase of its token (R253). -/
def execBarw (d a : BitVec 5) (n : BitVec 4) (s : State) : Out :=
  let t := s.me
  let b := s.barOf t.party n.toFin
  let k := (b.phase - (t.rd a).setWidth 32).toNat
  if 1 ≤ k && k < 2 ^ 31 then s.barReturn d b.report else s.stall

/-- BAREXP adds expectations to the current phase (R253). -/
def execBarexp (a : BitVec 5) (n : BitVec 4) (s : State) : Out :=
  let t := s.me
  let c := (t.rd a).toNat
  if 65535 < c then s.wordTrap 0x04 t.pc.toNat
  else if c = 0 then s.commit t
  else
    let s := s.barExpect t.party n.toFin c
    s.commit s.me

/-- A waiting thread's instruction runs again. -/
def State.wake (s : State) (sl : Slot) : Option State :=
  let t := s.th sl
  if t.occupied && t.stalled then some (s.setTh sl { t with stalled := false }) else none

/-- The barrier that the thread waits at: that of its BAR that has no report yet, or that of the BARW whose word it holds. -/
def State.barWaited (s : State) (t : Thread) : Option (Fin 16) :=
  match t.arrival with
  | some x => if x.report.isSome then none else some x.bar
  | none =>
    match s.words.find? (fun h => h.at t.ctx t.pc.toNat) with
    | some h => (match decode h.word with | .ok (.barw _ _ n) => some n.toFin | _ => none)
    | none => none

/-- BARRIER_WAIT_END: the waiting BAR or BARW runs again and returns, its phase having completed. In a party with threads on other cores the
event stands for their arrivals too (R253, assumption 88). -/
def State.barrierWaitEnd (s : State) (sl : Slot) : Option State :=
  let t := s.th sl
  match s.partyOf t.party, s.barWaited t with
  | some p, some n => if p.remote = 0 || !t.stalled then (if t.arrival = none then s.wake sl else none) else (s.remotePhase p n).wake sl
  | _, _ => s.wake sl

/-- WAITC_COUNTER_READ: the waiting WAITC reads its counter again (R323). -/
def State.waitcCounterRead (s : State) (sl : Slot) : Option State :=
  if (s.th sl).arrival = none then s.wake sl else none

/-! ## Work pools (R256, R257) -/

/-- Sum of EFF over the members on this core whose party is placed; every placed party of the model is on this core (assumption 1). -/
def State.poolSpeed (s : State) (p : Pool) : Nat :=
  s.eff * (p.members.filter (fun m => (s.partyOf m.1).isSome)).length

/-- A task of one party on one core: every thread of it runs on the core (R262, R276). -/
def TaskRec.alone (f : TaskRec) : Bool := decide (f.ncore ≤ 1) && !f.indirect && decide (f.pcount = 1)

/-- Threads of a task on other cores. -/
def State.remoteThreads (s : State) (k : Task) : Nat := ((s.parties.filter (fun p => p.task == k.key)).map (·.remote)).sum

/-- The threads of the task on other cores, of whatever die, have taken portions of a pool, and are members of it: what they have taken and the sum
of their EFF are free values (R256, R265, assumption 88). -/
def State.takenAway (s : State) (k : Task) (q : Pool) : State × Pool × Nat :=
  if k.fields.alone then (s, q, 0)
  else
    let gone := (Config.freeValue s.fresh).toNat % (q.remain + 1)
    ({ s with fresh := s.fresh + 2 }, { q with remain := q.remain - gone, next := q.next + gone },
     (Config.freeValue (s.fresh + 1)).toNat % (38 * s.remoteThreads k + 1))

/-- TAKE (R256). -/
def execTake (d : BitVec 5) (p : BitVec 3) (s : State) : Out :=
  let t := s.me
  match s.myTask t with
  | none => s.commit (t.wr d (BitVec.allOnes 64))
  | some k =>
    let me := (t.party, t.cfg.ptidx.toNat)
    let q := k.pools.get p.toFin
    let q := if q.members.contains me then q else { q with members := q.members ++ [me] }
    let (s, q, far) := s.takenAway k q
    let put (q : Pool) : State := s.setTask { k with pools := k.pools.set p.toFin q }
    if q.remain = 0 then (put { q with members := q.members.filter (fun m => m != me) }).commit (t.wr d (BitVec.allOnes 64))
    else
      let n := min q.remain (max q.minchunk (q.remain * s.eff / (2 * (s.poolSpeed q + far))))
      (put { q with next := q.next + n, remain := q.remain - n }).commit (t.wr d (BitVec.ofNat 64 (q.next * 2 ^ 32 + n)))

/-- LREL (R257). -/
def execLrel (p : BitVec 3) (s : State) : Out :=
  let t := s.me
  match s.myTask t with
  | none => s.commit t
  | some k =>
    let q := k.pools.get p.toFin
    let q := { q with members := q.members.filter (fun m => m != (t.party, t.cfg.ptidx.toNat)) }
    (s.setTask { k with pools := k.pools.set p.toFin q }).commit t

/-! ## Counters (R323 to R325) -/

/-- The checks of a counter: those of R82 on 8 bytes, and no TOL or DEV page, no view and no window address (R29, R82, R297, R323). -/
def State.counterCheck (s : State) (t : Thread) (write : Bool) (va : Word) : Acc :=
  let a := va.toNat
  if 2 ^ 56 ≤ a then .trap s 0x10 a
  else if a % 8 ≠ 0 then .trap s 0x11 a
  else if inWindow a then (if spSize < a - winBase + 8 || s.tilesOf t * 4096 < a - winBase + 8 then .trap s 0x12 a else .trap s 0x1A a)
  else match s.scalarCheck t (if write then .write else .read) va 8 with
    | .ok s locs (some l) =>
      if pteTol l.e || pteDev l.e || (match firstLoc locs with | .view _ => true | _ => false) then .trap s 0x1A a
      else if write then
        (match s.cowStart l with
         | .none => .ok s locs (some l)
         | .wait s => .wait s
         | .empty s => .trap s 0x1C a)
      else .ok s locs (some l)
    | r => r

/-- WAITC (R323, R325): the counter is read at the home store, or at the peer or host that holds it, until it has reached s(b). -/
def execWaitc (d a b : BitVec 5) (s : State) : Out :=
  let t := s.me
  let va := t.rd a
  let done (s : State) (v : Word) : Out :=
    let s := s.acquireStep s.cur
    s.commit (s.me.wr d v)
  if s.scalarHeld s.cur then s.stall
  else match s.counterCheck t false va with
    | .trap s c x => s.wordTrap c x
    | .wait s => s.stall
    | .ok s locs leaf =>
      if s.queueHolds t locs true false false then s.stall else
      let s := match leaf with | some l => s.touch l false | none => s
      match firstLoc locs with
      | .peer pa | .host pa =>
        (match s.remote s.cur pa (.read 8) va.toNat with
         | .trap s c x => s.wordTrap c x
         | .wait s => s.stall
         | .done s v => if (t.rd b).toNat ≤ v.toNat then done s v else (s.dropScalar s.cur).stall)
      | x =>
        let s := match x with | .home pa => s.flushLine (pa / 64) | _ => s
        if locs.any s.locLost then s.wordTrap 0x28 va.toNat
        else
          let v := wordOf (locs.map s.locByte)
          if (t.rd b).toNat ≤ v.toNat then done s v else s.stall

/-- An engine command that the slot's thread posted is not complete (R324). -/
def State.enginesOpen (s : State) (sl : Slot) : Bool :=
  let t := s.th sl
  let mine (k : Slot) (p i : Nat) : Bool := k == sl && p == t.party && i == t.cfg.ptidx.toNat
  s.cmds.any (fun c => mine c.slot c.party c.ptidx) || s.matQ.any (fun c => mine c.slot c.party c.ptidx) ||
  (s.pike.queue ++ s.pike.feeds).any (fun c => mine c.slot c.party c.ptidx) ||
  (!t.held && t.vec.window.any (fun r => match r.spec.kind with | .cwalk _ => !r.complete r.spec t | _ => false))

/-- CADD (R324). -/
def execCadd (d a b : BitVec 5) (s : State) : Out :=
  let t := s.me
  let va := t.rd a
  if s.enginesOpen s.cur || s.accessOpen s.cur then s.stall
  else match s.counterCheck t true va with
    | .trap s c x => s.wordTrap c x
    | .wait s => s.stall
    | .ok s locs leaf =>
      let s := s.releaseLines
      let s := match leaf with | some l => s.touch l true | none => s
      match firstLoc locs with
      | .peer pa | .host pa =>
        (match s.remote s.cur pa (.atomic .add true (t.rd b) 0) va.toNat with
         | .trap s c x => s.wordTrap c x
         | .wait s => s.stall
         | .done s v => s.commit (s.me.wr d v))
      | .home pa =>
        (match s.homeAtomic .add true pa (t.rd b) 0 with
         | (s, some v) => s.commit (s.me.wr d v)
         | (s, none) => s.wordTrap 0x28 va.toNat)
      | _ => s.wordTrap 0x1A va.toNat

end Sys2Proof.Machine
end

