-- ==== Sys2Proof/Machine/Vpblock.lean ====
section
/-! DEFINITION. VPF, and the block words where they stand outside a VP block (spec/14 R243 to R246; spec/03 R41). Inside a block VPBR, VPJ
and VPSTOP are steps of a VP, which State.vpStep gives. -/

namespace Sys2Proof.Machine

def execVpf (k : BitVec 4) (o : BitVec 20) (s : State) : Out := s.vpf (.vpf k o) k o

/-- Outside a VP block a VPBR is illegal (R41). -/
def execVpbr (_k : BitVec 4) (_o : BitVec 20) (s : State) : Out := s.illegal

/-- Outside a VP block a VPJ is illegal (R41). -/
def execVpj (_o : BitVec 20) (s : State) : Out := s.illegal

/-- Outside a VP block a VPSTOP is illegal (R41). -/
def execVpstop (s : State) : Out := s.illegal

end Sys2Proof.Machine
end

