-- ==== Sys2Proof/Machine/Courier.lean ====
section
/-! DEFINITION. The Courier: posting of engine commands, the CUR instructions, and the life of a command from post to completion
(spec/17 R290 to R297; spec/18 R307 to R321; spec/11 R208). -/

namespace Sys2Proof.Machine

/-! ## Posting (R290, R309) -/

/-- An engine word is illegal above user level (R201) and a bad state in a party that is no engine party (R274). -/
def State.engineWord (s : State) (go : State → Out) : Out :=
  if s.me.level ≠ .user then s.illegal
  else if !s.engineOf s.me then s.wordTrap 0x04 s.me.pc.toNat
  else go s

/-- First scratchpad offset that the thread's party may not name (R29, R273). -/
def State.spTop (s : State) (t : Thread) : Nat := min spSize (s.tilesOf t * 4096)

/-- The lowest window address of the first extent that reaches beyond the reserved tiles (R294). -/
def spBeyond (top : Nat) (l : List Extent) : Option Nat :=
  (l.find? (fun x => 0 < x.2 && top < x.1 + x.2)).map (fun x => winBase + max x.1 top)

/-- The first base that breaks its alignment (R309). -/
def misaligned (l : List (Word × Nat)) : Option Nat :=
  (l.find? (fun p => p.1.toNat % p.2 ≠ 0)).map (fun p => p.1.toNat)

/-- The post of the thread at pc: it waits for room and for the thread's earlier accesses; a range outside the party's tiles or
a misaligned base posts nothing and leaves an engine fault; else `put` makes the post (R290, R309). -/
def State.post (s : State) (room : Bool) (stream : Nat) (ext : List Extent) (bases : List (Word × Nat)) (put : State → State) : Out :=
  if !room || s.accessOpen s.cur then s.stall
  else
    let s := s.releaseLines
    let refuse (c : BitVec 8) (a : Nat) : Out :=
      let f : PostFault := { slot := s.cur, cause := c, stream := stream, addr := BitVec.ofNat 64 a }
      let s := { s with postFaults := s.postFaults ++ [f] }
      s.commit s.me
    match spBeyond (s.spTop s.me) ext with
    | some a => refuse 0x12 a
    | none =>
      match misaligned bases with
      | some a => refuse 0x11 a
      | none => let s := put s; s.commit s.me

/-- Free command slots remain (R285, R295). -/
def State.cmdRoom (s : State) : Bool := s.cmds.length < 1024

/-- Enters a Courier command of the thread at pc in its slot (R295). -/
def State.addCmd (s : State) (stream : Nat) (kind : CmdKind) (counter : Word) (inc : Nat) (bar : Option (Fin 16)) (st : CmdState) : State :=
  let t := s.me
  { s with seq := s.seq + 1
           cmds := s.cmds ++ [{ seq := s.seq, stream := stream, slot := s.cur, party := t.party, ptidx := t.cfg.ptidx.toNat
                                ctx := t.ctx, level := t.level, kind := kind, counter := counter, inc := inc, bar := bar, st := st, xfer := [] }] }

/-- Posts a Courier command that has BC, BN and INC fields (R307, R308). -/
def State.postCmd (s : State) (str : BitVec 4) (kind : CmdKind) (bases : List (Word × Nat)) (counter : Word) (c : Bool) (n i : BitVec 4) : Out :=
  s.post s.cmdRoom str.toNat (kind.reads ++ kind.writes) bases
    (fun s => s.addCmd str.toNat kind counter (i.toNat + 1) (if c then some n.toFin else none) .posted)

/-- Register k of a group of four. -/
def Thread.grp (t : Thread) (g : BitVec 5) (k : Nat) : Word := t.rd (g + BitVec.ofNat 5 k)

/-! ## The CUR instructions -/

/-- Lowest and highest byte of one side of a CPY (R311). -/
def cpyBounds (base : Word) (n0 n1 n2 : Nat) (d1 d2 : Word) : Int × Int :=
  let x1 : Int := ((n1 : Int) - 1) * d1.toInt
  let x2 : Int := ((n2 : Int) - 1) * d2.toInt
  ((base.toNat : Int) + min 0 x1 + min 0 x2, (base.toNat : Int) + max 0 x1 + max 0 x2 + (n0 : Int) - 1)

/-- Two ranges of addresses share one. -/
def rangesMeet (x y : Int × Int) : Bool := decide (x.1 ≤ y.2) && decide (y.1 ≤ x.2)

/-- CPY (R311). -/
def execCpy (g : BitVec 5) (str : BitVec 4) (h : BitVec 5) (c : Bool) (n i : BitVec 4) (s : State) : Out :=
  s.engineWord (fun s =>
    let t := s.me
    let dims := (t.grp g 2).toNat
    let n0 := dims % 2 ^ 32
    let n1 := dims / 2 ^ 32 % 2 ^ 16
    let n2 := dims / 2 ^ 48
    let da := t.grp g 0
    let sa := t.grp g 1
    let meet := 0 < n1 && 0 < n2 &&
      rangesMeet (cpyBounds da n0 n1 n2 (t.grp h 0) (t.grp h 2)) (cpyBounds sa n0 n1 n2 (t.grp h 1) (t.grp h 3))
    if n0 = 0 || 2 ^ 24 < n0 || meet then s.wordTrap 0x04 t.pc.toNat
    else s.postCmd str (.cpy da sa n0 n1 n2 (t.grp h 0) (t.grp h 1) (t.grp h 2) (t.grp h 3)) [] (t.grp g 3) c n i)

/-- CPYG and CPYS capture n = VLe of the index register, and the register itself (R312 to R314). -/
def State.rows (s : State) (gather : Bool) (g : BitVec 5) (str : BitVec 4) (v : BitVec 5) (c : Bool) (n i : BitVec 4) : Out :=
  s.engineWord (fun s =>
    let t := s.me
    let sp := t.grp g 0
    let mb := t.grp g 1
    let rb := (t.grp g 2).toNat
    let tag := t.vec.tag v
    let k := min t.cfg.vl.toNat (t.vlmax tag.wlog)
    if !inWindow sp.toNat || rb = 0 || 65536 < rb then s.wordTrap 0x04 t.pc.toNat
    else s.postCmd str (if gather then .cpyg sp mb rb k (t.vec.vphys v) tag none else .cpys sp mb rb k (t.vec.vphys v) tag none)
      [] (t.grp g 3) c n i)

def execCpyg (g : BitVec 5) (str : BitVec 4) (v : BitVec 5) (c : Bool) (n i : BitVec 4) (s : State) : Out :=
  s.rows true g str v c n i

def execCpys (g : BitVec 5) (str : BitVec 4) (v : BitVec 5) (c : Bool) (n i : BitVec 4) (s : State) : Out :=
  s.rows false g str v c n i

/-- A fine-grid dimension of CPYMG (R315). -/
def gridDim (x : Nat) : Bool := 2 ≤ x && x ≤ 1024 && x % 2 = 0

/-- CPYMG (R315). -/
def execCpymg (g : BitVec 5) (str : BitVec 4) (h : BitVec 5) (c : Bool) (n i : BitVec 4) (s : State) : Out :=
  s.engineWord (fun s =>
    let t := s.me
    let d := t.grp g 2
    let f := t.grp h 0
    let nx := d.toNat % 2 ^ 11
    let ny := d.toNat / 2 ^ 16 % 2 ^ 11
    let nz := d.toNat / 2 ^ 32 % 2 ^ 11
    let op := f.toNat % 4
    let bnd := f.toNat / 4 % 4
    let sf := f.toNat / 16 % 4
    let df := f.toNat / 64 % 4
    let da := t.grp g 0
    let sa := t.grp g 1
    let limits := d &&& ~~~(0x07FF07FF07FF#64) = 0 && gridDim nx && gridDim ny && gridDim nz &&
      f.toNat < 2 ^ 11 && bnd ≠ 3 && sf ≠ 3 && df ≠ 3
    let meet := rangesMeet ((da.toNat : Int), (da.toNat : Int) + (mgDestBytes nx ny nz op df : Int) - 1)
      ((sa.toNat : Int), (sa.toNat : Int) + (mgSrcBytes nx ny nz op sf : Int) - 1)
    if !limits || meet then s.wordTrap 0x04 t.pc.toNat
    else s.postCmd str (.cpymg da sa nx ny nz op bnd sf df (f.toNat / 256 % 8))
      [(da, gridWidth df), (sa, gridWidth sf)] (t.grp g 3) c n i)

/-- CWTLD (R318). -/
def execCwtld (g : BitVec 5) (str : BitVec 4) (c : Bool) (n i : BitVec 4) (s : State) : Out :=
  s.engineWord (fun s =>
    let t := s.me
    let tbl := (t.grp g 1).toNat
    if 8 ≤ tbl || t.grp g 2 ≠ 0 then s.wordTrap 0x04 t.pc.toNat
    else s.postCmd str (.cwtld (t.grp g 0) tbl) [(t.grp g 0, 8)] (t.grp g 3) c n i)

/-- CSBAR (R320). -/
def execCsbar (g : BitVec 5) (s : State) : Out :=
  s.engineWord (fun s =>
    let m := s.me.rd g
    if 2 ^ 16 ≤ m.toNat then s.wordTrap 0x04 s.me.pc.toNat
    else if m = 0 then s.commit s.me
    else s.post s.cmdRoom 0 [] [] (fun s => s.addCmd 0 (.csbar (m.setWidth 16)) 0 0 none .posted))

/-- CRESUME (R321). -/
def execCresume (str : BitVec 4) (s : State) : Out :=
  s.engineWord (fun s => let s := s.restartStream str.toNat; s.commit s.me)

/-! ## Entering performing (R295, R319, R320) -/

/-- A CSBAR that names the stream. -/
def Cmd.barsStream (c : Cmd) (k : Nat) : Bool := match c.kind with | .csbar m => m.getLsbD k | _ => false

/-- An earlier use of a weight table holds the command back (R319). -/
def State.tableHeld (s : State) (c : Cmd) : Bool := s.cmds.any (fun d => d.seq < c.seq && c.sharesTable d)

def State.cmdOf (s : State) (seq : Nat) : Option Cmd := s.cmds.find? (fun c => c.seq == seq)

def State.setCmd (s : State) (c : Cmd) : State :=
  { s with cmds := s.cmds.map (fun d => if d.seq == c.seq then c else d) }

/-! ## Memory of a command (R310) -/

/-- The poster of a command as the checks see it: its context, level and party. -/
def Cmd.asThread (c : Cmd) : Thread :=
  { Thread.free with occupied := true, party := c.party, ctx := c.ctx, level := c.level }

/-- The places of a span of bytes, and each leaf with the first byte that it translates; or the fault of the first failing byte. -/
inductive Span where
  | ok (s : State) (locs : List Loc) (leaves : List (Leaf × Nat))
  | fault (cause : BitVec 8) (addr : Nat)
  | wait

/-- Checks len bytes at a that lie in one 64 KiB span of addresses. -/
def State.checkChunk (s : State) (t : Thread) (write : Bool) (a len : Nat) : Span :=
  if 2 ^ 56 ≤ a then .fault 0x10 a
  else if inWindow a then
    (if s.spTop t < a - winBase + len then .fault 0x12 (max a (winBase + s.spTop t))
     else .ok s ((List.range len).map (fun i => .sp (a - winBase + i))) [])
  else match s.checkPage t { write := write, amo := none, scope := none } a len with
    | (_, none, none) => .wait
    | (_, _, some (c, x)) => .fault c x
    | (s, some l, none) => .ok s ((List.range len).map (fun i => s.locOf l (a + i))) [(l, a)]

/-- Checks n bytes from va on, span by span. -/
def State.checkSpan (s : State) (t : Thread) (write : Bool) : Nat → Nat → Nat → Span
  | 0, _, _ => .ok s [] []
  | fuel + 1, va, n =>
    if n = 0 then .ok s [] []
    else
      let a := va % 2 ^ 64
      let k := min n (2 ^ 16 - a % 2 ^ 16)
      match s.checkChunk t write a k with
      | .ok s l1 p1 =>
        (match s.checkSpan t write fuel (a + k) (n - k) with
         | .ok s l2 p2 => .ok s (l1 ++ l2) (p1 ++ p2)
         | r => r)
      | r => r

/-- Checks n bytes of a command's source or destination. -/
def State.span (s : State) (t : Thread) (write : Bool) (va n : Nat) : Span := s.checkSpan t write (n / 2 ^ 16 + 2) va n

/-- Checks a list of spans that a command reads, each its address and length. -/
def State.spans (s : State) (t : Thread) : List (Nat × Nat) → Span
  | [] => .ok s [] []
  | (va, n) :: r =>
    match s.span t false va n with
    | .ok s l1 p1 =>
      (match s.spans t r with
       | .ok s l2 p2 => .ok s (l1 ++ l2) (p1 ++ p2)
       | x => x)
    | x => x

/-- A peer or the host is asked for at most 8 bytes at a time. -/
def eights (l : List (Nat × Nat)) : List (Nat × Nat) :=
  l.flatMap (fun p => (List.range ((p.2 + 7) / 8)).map (fun k => (p.1 + 8 * k, min 8 (p.2 - 8 * k))))

/-- Outcome of preparing an element: what it reads and where it writes; a step that must come first; a fault; or a wait. -/
inductive Prep where
  | ok (s : State) (bytes : List Byte) (dst : List Loc)
  | skip (s : State)
  | step (s : State)
  | fault (cause : BitVec 8) (addr : Nat)
  | wait

/-- The posting thread of a command. -/
def Cmd.isPoster (c : Cmd) (t : Thread) : Bool := t.occupied && t.party == c.party && t.cfg.ptidx.toNat == c.ptidx

/-- A VOID origin of a command's element counts for its poster, on the core or saved with its party, and for the die (R218, R399). -/
def State.countVoidOf (s : State) (c : Cmd) : State :=
  let t := s.th c.slot
  if c.isPoster t then s.countVoid c.slot
  else ((s.countVoid c.slot).setTh c.slot t).mapSaved (fun t =>
    if c.isPoster t then { t with cfg := { t.cfg with voidcnt := satInc t.cfg.voidcnt } } else t)

/-- Reads the spans of element e of a command; data that cannot be corrected is a fault (R208). Every read of an element has been asked for
before it waits for any of them. -/
def State.cmdReads (s : State) (c : Cmd) (e : Nat) (ps : List (Nat × Nat)) : Prep :=
  match s.spans c.asThread ps with
  | .wait => .wait
  | .fault x a => .fault x a
  | .ok s locs leaves =>
    let s := (s.touchAll leaves false).recallAll locs
    match ((ps.flatMap (fun p => (List.range p.2).map (p.1 + ·))).zip locs).find? (fun p => !p.2.far && s.locLost p.2) with
    | some p => .fault 0x28 p.1
    | none =>
      let runs := eights (remoteRuns locs)
      if runs = [] then .ok s (locs.map s.locByte) []
      else match s.remoteRead c.ctx (.courier c.seq e) runs with
        | .wait => .wait
        | .sent s => .step s
        | .data s bytes lost => if lost then .skip (s.countVoidOf c) else .ok s (s.gatherBytes locs bytes) []

/-- Reads n bytes at va for element e of a command. -/
def State.cmdRead (s : State) (c : Cmd) (e va n : Nat) : Prep := s.cmdReads c e [(va, n)]

/-- Adds the destination of n bytes at va to a prepared element. -/
def Prep.into (p : Prep) (c : Cmd) (va n : Nat) : Prep :=
  match p with
  | .ok s bytes _ =>
    (match s.span c.asThread true va n with
     | .wait => .wait
     | .fault x a => .fault x a
     | .ok s locs leaves =>
       (match s.cowAll leaves with
        | .wait => .wait
        | .started s => .step s
        | .empty a => .fault 0x1C a
        | .none => .ok ((s.touchAll leaves true).recallAll locs) bytes locs))
  | p => p

/-! ## Multigrid transfers (R315 to R317, R73) -/

/-- The exact sum of values; a zero is negative only when every term is −0 (R67, R73). -/
def exactSum (l : List FVal) : Exact :=
  let inf (n : Bool) : Bool := l.any (fun x => x == .inf n)
  if l.any FVal.isNan || (inf true && inf false) then .nan false
  else if inf true then .inf true false
  else if inf false then .inf false false
  else
    let q := l.foldl (fun q x => match x with | .fin _ _ e => min q e | _ => q) 0
    let total := l.foldl (fun (a : Int) x => match x with | .fin n m e => a + scaled n m e q | _ => a) 0
    if total = 0 then .num (l != [] && l.all FVal.isNeg) 0 0 false
    else .num (decide (total < 0)) total.natAbs q false

/-- The exact product as a value. -/
def mulVal (a b : FVal) : FVal :=
  match mulExact a b with
  | .nan _ => .nan false
  | .inf n _ => .inf n
  | .num n m e _ => .fin n m e

/-- Format of a grid's format code (R315). -/
def gridFmt (code : Nat) : Fmt := if code = 0 then .f64 else if code = 1 then .f32 else .bf16

/-- Numerator of tap t of class k of a weight table, and the table's shift (R317). -/
def State.weight (s : State) (tbl k t : Nat) : Int :=
  Tag.i16.toInt (leNat (Memory.getList s.wt (512 * tbl + 64 * k + 2 * t) 2))

def State.wshift (s : State) (tbl : Nat) : Nat := leNat (Memory.getList s.wt (512 * tbl + 54) 2) % 32

/-- A source coordinate under the boundary mode; none where the tap is not read (R316). -/
def boundary (bnd : Nat) (n : Nat) (x : Int) : Option Nat :=
  if 0 ≤ x && x < n then some x.toNat
  else match bnd with
    | 0 => none
    | 1 => some (if x < 0 then 0 else n - 1)
    | _ => some (x % (n : Int)).toNat

/-- The taps of destination point p that are read: their weights and source points (R316). -/
def State.taps (s : State) (nx ny nz op bnd tbl p : Nat) : List (FVal × Nat) :=
  let cx := nx / 2
  let cy := ny / 2
  let cz := nz / 2
  let fine := mgFineDest op
  let dx := if fine then nx else cx
  let dy := if fine then ny else cy
  let x := p % dx
  let y := p / dx % dy
  let z := p / dx / dy
  let at_ (kx ky kz : Nat) (fx fy fz : Int) : Option Nat :=
    match boundary bnd kx fx, boundary bnd ky fy, boundary bnd kz fz with
    | some a, some b, some c => some ((c * ky + b) * kx + a)
    | _, _, _ => none
  if op = 1 then [(.fin false 1 0, (2 * z * ny + 2 * y) * nx + 2 * x)]
  else
    let k := if fine then x % 2 + 2 * (y % 2) + 4 * (z % 2) else 0
    (List.range 27).filterMap (fun t =>
      let w := s.weight tbl k t
      let ox : Int := (t % 3 : Nat) - 1
      let oy : Int := (t / 3 % 3 : Nat) - 1
      let oz : Int := (t / 9 : Nat) - 1
      let src := if fine then at_ cx cy cz ((x / 2 : Nat) + ox) ((y / 2 : Nat) + oy) ((z / 2 : Nat) + oz)
        else at_ nx ny nz ((2 * x : Nat) + ox) ((2 * y : Nat) + oy) ((2 * z : Nat) + oz)
      if w = 0 then none else src.map (fun q => (.fin (decide (w < 0)) w.natAbs (-(s.wshift tbl : Int)), q)))

/-- The bytes of destination point e of a CPYMG (R316). -/
def State.mgPrep (s : State) (c : Cmd) (e : Nat) (da sa : Word) (nx ny nz op bnd sf df tbl : Nat) : Prep :=
  let fs := gridFmt sf
  let fd := gridFmt df
  let w := fs.bits / 8
  let n := fd.bits / 8
  let dst := da.toNat + e * n
  let taps := s.taps nx ny nz op bnd tbl e
  match s.cmdReads c e (taps.map (fun q => (sa.toNat + q.2 * w, w)) ++ (if op = 3 then [(dst, n)] else [])) with
  | .ok s bytes _ =>
    let src := ((List.range taps.length).zip taps).map (fun q => mulVal q.2.1 (fs.decode (leNat ((bytes.drop (q.1 * w)).take w))))
    let old := if op = 3 then [fd.decode (leNat (bytes.drop (taps.length * w)))] else []
    let sum := if op = 1 then (src.headD (.fin false 0 0)).exact else exactSum (old ++ src)
    (Prep.ok s (leBytes n (sum.round fd 0).bits) []).into c dst n
  | p => p

/-! ## The bank multipliers (R302, R303, R332) -/

/-- Planes 0 to k − 1 of row e of B: every page is an ordinary page of local device memory, which is seen as it is translated (R302). -/
def State.bankRead (s : State) (c : Cmd) (va n : Nat) : Prep :=
  let ordinary (a : Nat) : Bool :=
    !inWindow a &&
    (match s.walk c.ctx a with
     | .leaf l => !(pteTol l.e || pteDev l.e || pteHost l.e) && (match s.locOf l a with | .home _ => true | .nowhere => true | _ => false)
     | .fault _ => true)
  match (List.range n).find? (fun i => !ordinary (va + i)) with
  | none => s.cmdRead c 0 va n
  | some i =>
    match s.span c.asThread false va i with
    | .wait => .wait
    | .fault x a => .fault x a
    | .ok s _ _ =>
      if inWindow (va + i) then .fault 0x1A (va + i)
      else match s.xlate c.ctx c.level .read [] (va + i) with
        | .wait _ => .wait
        | .fault _ x => .fault x (va + i)
        | .ok _ _ => .fault 0x1A (va + i)

/-- The signed value of element j of a BPN row of n elements at k planes (R65, R66). -/
def bpnValue (row : Array Byte) (n k j : Nat) : Int :=
  Tag.i8.toInt ((List.range k).foldl (fun a p => a + (if (row[p * (n / 8) + j / 8]?.getD 0).getLsbD (j % 8) then 2 ^ (7 - p) else 0)) 0)

/-- Output row e of an MMAV (R303, R332); a byte of x that cannot be corrected counts as 0 (R333). -/
def State.mmavPrep (s : State) (c : Cmd) (e : Nat) (x b y : Word) (n k : Nat) : Prep :=
  match s.bankRead c (addr64 (b.toNat + e * n)) (k * (n / 8)) with
  | .ok s bytes _ =>
    let xo := x.toNat - winBase
    let lost := (List.range n).any (fun j => s.spPoison.contains (xo + j))
    let xv (j : Nat) : Int := if s.spPoison.contains (xo + j) then 0 else Tag.i8.toInt (Memory.get s.sp (xo + j)).toNat
    let sum := (List.range n).foldl (fun (a : Int) j => a + bpnValue bytes.toArray n k j * xv j) 0
    let s := if lost then s.addUe else s
    .ok s (leBytes 4 (Tag.i32.clamp sum).bits) ((List.range 4).map (fun i => .sp (y.toNat - winBase + 4 * e + i)))
  | p => p

/-! ## Elements (R296, R208, R311 to R318) -/

/-- The index element of row i of a CPYG or CPYS (R312, R314). -/
def State.rowIndex (s : State) (c : Cmd) (reg : Fin 128) (kept : Option VReg) (i : Nat) : Elem :=
  match kept with
  | some r => r.get i
  | none => ((s.th c.slot).vec.vreg reg).get i

/-- A row address of memory may not reach the window (R312). -/
def rowInWindow (va n : Nat) : Option Nat := firstByte va n inWindow

/-- Scratchpad extents that element e of a command reads (R294, R311 to R318). -/
def State.elemReads (s : State) (c : Cmd) (e : Nat) : List Extent :=
  match c.kind with
  | .cpy _ sa n0 n1 _ _ ss1 _ ss2 => winPart (runStart sa ss1 ss2 n1 e) n0
  | .cpyg _ _ _ _ _ _ _ => []
  | .cpys sp _ rb _ _ _ _ => winPart (sp.toNat + e * rb) rb
  | .cpymg da sa nx ny nz op bnd sf df tbl =>
    (s.taps nx ny nz op bnd tbl e).flatMap (fun q => winPart (sa.toNat + q.2 * gridWidth sf) (gridWidth sf)) ++
    (if op = 3 then winPart (da.toNat + e * gridWidth df) (gridWidth df) else [])
  | .cwtld src _ => winPart src.toNat 512
  | .csbar _ => []
  | .mmav x _ _ _ n _ => winPart x.toNat n

/-- An element may not read yet: an earlier command has still to write a row of what it reads (R293). -/
def State.readHeld (s : State) (c : Cmd) (e : Nat) : Bool := s.rangeHeld c.seq (s.elemReads c e) []

/-- COURIER_BEGIN_PERFORMING: the command is the first on its stream, no CSBAR holds it back, and some element may make its first access
(R293, R295, R296). -/
def State.courierBeginPerforming (s : State) (seq : Nat) : Option State :=
  match s.cmdOf seq with
  | none => none
  | some c =>
    match c.kind, c.st with
    | .csbar _, _ => none
    | _, .posted =>
      if s.cmds.any (fun d => d.seq < c.seq && (d.onStream c.stream || d.barsStream c.stream)) || s.tableHeld c ||
          (0 < c.kind.count && (List.range c.kind.count).all (fun e => s.readHeld c e)) then none
      else some (s.setCmd { c with st := .performing })
    | _, _ => none

/-- Prepares element e: its checks are made and its source is read. -/
def State.prep (s : State) (c : Cmd) (e : Nat) : Prep :=
  if s.readHeld c e then .wait
  else match c.kind with
  | .cpy da sa n0 n1 _ ds1 ss1 ds2 ss2 =>
    (s.cmdRead c e (runStart sa ss1 ss2 n1 e) n0).into c (runStart da ds1 ds2 n1 e) n0
  | .cpyg sp mb rb _ reg tag kept =>
    (match s.rowIndex c reg kept e with
     | .absent => .wait
     | .void => .skip s
     | .present x =>
       let src := addr64 (mb.toNat + x.toNat % 2 ^ tag.bits * rb)
       (match rowInWindow src rb with
        | some a => .fault 0x12 a
        | none => (s.cmdRead c e src rb).into c (sp.toNat + e * rb) rb))
  | .cpys sp mb rb _ reg tag kept =>
    (match s.rowIndex c reg kept e with
     | .absent => .wait
     | .void => .skip s
     | .present x =>
       let dst := addr64 (mb.toNat + x.toNat % 2 ^ tag.bits * rb)
       (match rowInWindow dst rb with
        | some a => .fault 0x12 a
        | none => (s.cmdRead c e (sp.toNat + e * rb) rb).into c dst rb))
  | .cpymg da sa nx ny nz op bnd sf df tbl => s.mgPrep c e da sa nx ny nz op bnd sf df tbl
  | .cwtld src _ => s.cmdRead c e src.toNat 512
  | .csbar _ => .wait
  | .mmav x b y _ n k => s.mmavPrep c e x b y n k

/-- Writes the bytes of an element at their places as one store; those of a peer or the host are sent (R76, R310). -/
def State.cmdWrite (s : State) (c : Cmd) (e : Nat) (bytes : List Byte) (dst : List Loc) : State :=
  match c.kind with
  | .cwtld _ tbl => { s with wt := Memory.setList s.wt (512 * tbl) bytes }
  | _ => s.writeBytes c.ctx (.courier c.seq e) dst bytes

/-- Whether the posting thread is still on the core or saved with its party. -/
def State.posterLives (s : State) (c : Cmd) : Bool := s.threads.toList.any c.isPoster || s.savedThreads.any c.isPoster

/-- The command parks at element e; when its thread has exited, the fault is reported in the task record (R208, R283). -/
def State.park (s : State) (c : Cmd) (cause : BitVec 8) (e addr : Nat) (counter : Bool) : State :=
  let s := s.setCmd { c with st := .parked cause e (BitVec.ofNat 64 addr) false counter, ready := [] }
  if s.posterLives c then s else s.reportFault c.party c.ptidx (0x40 + cause)

/-- The address that element e of a command writes (R311 to R318). -/
def State.destVa (s : State) (c : Cmd) (e : Nat) : Nat :=
  match c.kind with
  | .cpy da _ _ n1 _ ds1 _ ds2 _ => runStart da ds1 ds2 n1 e
  | .cpyg sp _ rb _ _ _ _ => sp.toNat + e * rb
  | .cpys _ mb rb _ reg tag kept => (match s.rowIndex c reg kept e with | .present x => addr64 (mb.toNat + x.toNat % 2 ^ tag.bits * rb) | _ => 0)
  | .cpymg da _ _ _ _ _ _ _ df _ => da.toNat + e * gridWidth df
  | .mmav _ _ y _ _ _ => y.toNat + 4 * e
  | .cwtld _ _ | .csbar _ => 0

def Cmd.readyAt (c : Cmd) (e : Nat) : Option ReadyElem := c.ready.find? (fun x => x.elem == e)

/-- Passes the elements of a list, which stand below one that is to transfer: each that passes its checks and has its data is kept as it is, and is
not checked again; one that is skipped counts as transferred. The result is the command with them and the places that they write, or the number
of one that does not pass (R208). -/
def State.lowerPrep (s : State) (c : Cmd) : List Nat → List Loc → (State × Cmd × List Loc) ⊕ Nat
  | [], acc => .inl (s, c, acc)
  | k :: r, acc =>
    match c.readyAt k with
    | some x => s.lowerPrep c r (x.locs ++ acc)
    | none =>
      match s.prep c k with
      | .ok s bytes dst =>
        s.lowerPrep { c with ready := c.ready ++ [{ elem := k, va := s.destVa c k, bytes := bytes, locs := dst }] } r (dst ++ acc)
      | .skip s => s.lowerPrep { c with xfer := k :: c.xfer } r acc
      | _ => .inr k

/-- Element e of a command is transferred with its bytes at their places. -/
def State.transfer (s : State) (c : Cmd) (e : Nat) (bytes : List Byte) (dst : List Loc) : State :=
  (s.cmdWrite c e bytes dst).setCmd { c with xfer := e :: c.xfer, ready := c.ready.filter (fun x => x.elem != e) }

/-- The elements that have passed and can be written are, in order, as a command stops at an element boundary (R209). -/
def State.settleReady (s : State) (c : Cmd) : State :=
  (List.range c.kind.count).foldl (fun (s : State) e =>
    match s.cmdOf c.seq with
    | none => s
    | some c =>
      match c.readyAt e with
      | none => s
      | some x => if s.rangeHeld c.seq [] (c.kind.elemWrites e) then s else s.transfer c e x.bytes x.locs) s

/-- COURIER_ELEMENT_TRANSFER: element e transfers once every lower element has passed its checks and the range checker permits its write; the
command parks at the lowest element that fails, once every element below that is transferred, and an element that shares a destination byte
with a lower one goes after it (R208, R293, R296, R311, R313). -/
def State.courierElementTransfer (s : State) (seq e : Nat) : Option State :=
  match s.cmdOf seq with
  | none => none
  | some c =>
    if c.st ≠ .performing || c.kind.count ≤ e || c.xfer.contains e then none
    else
      let stop (k : Nat) (p : Prep) : Option State :=
        match p with
        | .step s => some s
        | .fault cause a => if (List.range k).all c.xfer.contains then some (s.park c cause k a false) else none
        | _ => none
      match s.lowerPrep c ((List.range e).filter (fun k => !c.xfer.contains k)) [] with
      | .inr k => stop k (s.prep c k)
      | .inl (s', c', below) =>
        let write (s : State) (bytes : List Byte) (dst : List Loc) : Option State :=
          if dst.any below.contains || s.rangeHeld c.seq [] (c.kind.elemWrites e) then none else some (s.transfer c' e bytes dst)
        match c.readyAt e with
        | some x => write s' x.bytes x.locs
        | none =>
          match s'.prep c' e with
          | .ok s bytes dst => write s bytes dst
          | .skip s => some (s.setCmd { c' with xfer := e :: c'.xfer })
          | _ => stop e (s.prep c e)

/-! ## Completion (R292, R297, R308) -/

/-- The command leaves its slot and makes its contribution. -/
def State.finishCmd (s : State) (c : Cmd) : State :=
  let s := { s with cmds := s.cmds.filter (fun d => d.seq != c.seq) }
  match c.bar with
  | some n => s.barArrive c.party n byContribution
  | none => s

/-- The counter add of a command (R297). -/
def State.counterAdd (s : State) (c : Cmd) : Option State :=
  let n := c.kind.count
  let t := c.asThread
  if c.counter = 0 then some (s.finishCmd c)
  else match s.counterCheck t true c.counter with
    | .trap s cause a => some (s.park c cause n a true)
    | .wait s' => if s'.cows.length = s.cows.length then none else some s'
    | .ok s locs leaf =>
      let s := match leaf with | some l => s.touch l true | none => s
      match firstLoc locs with
      | .peer pa | .host pa =>
        (match s.reqFor (.courier c.seq n) pa 8 with
         | none => some (s.sendTo (s.hostFn c.ctx) c.ctx (.courier c.seq n) pa (.atomic .add true (BitVec.ofNat 64 c.inc) 0) .sent [])
         | some q =>
           match q.status with
           | .sent => none
           | .answered _ => some ((s.dropReq q.id).finishCmd c)
           | .failed => some ((s.dropReq q.id).park c 0x28 n c.counter.toNat true))
      | .home pa =>
        (match s.homeAtomic .add true pa (BitVec.ofNat 64 c.inc) 0 with
         | (s, some _) => some (s.finishCmd c)
         | (s, none) => some (s.park c 0x28 n c.counter.toNat true))
      | _ => some (s.park c 0x1A n c.counter.toNat true)

/-- A write of the command to a peer has no reply yet. -/
def State.cmdWritesOpen (s : State) (c : Cmd) : Bool :=
  s.reqs.any (fun q => opIsWrite q.op && q.open_ && (match q.who with | .courier k _ => k == c.seq | _ => false))

/-- COMMAND_COMPLETE: a command whose writes have performed frees its tiles and adds to its counter; a CSBAR is satisfied once every
earlier command on its streams is complete (R292, R320). -/
def State.commandComplete (s : State) (seq : Nat) : Option State :=
  match s.cmdOf seq with
  | none => none
  | some c =>
    match c.kind, c.st with
    | .csbar m, _ =>
      if s.cmds.any (fun d => d.seq < c.seq && (List.range 16).any (fun k => m.getLsbD k && d.onStream k)) then none
      else some { s with cmds := s.cmds.filter (fun d => d.seq != c.seq) }
    | _, .performing =>
      if c.xfer.length ≠ c.kind.count || s.cmdWritesOpen c then none
      else
        let c := { c with st := CmdState.adding }
        some (((s.setCmd c).counterAdd c).getD (s.setCmd c))
    | _, .adding => s.counterAdd c
    | _, _ => none

end Sys2Proof.Machine
end

