-- ==== Sys2Proof/Machine/Service.lean ====
section
/-! DEFINITION. Boot verification and the firmware service: its two entrances, its caller classes and its functions (spec/25 R405, R413 to
R424; spec/17 R304; spec/16 R266, R279, R283, R288; spec/24 R393). -/

namespace Sys2Proof.Machine

/-! ## The firmware image (R415) -/

/-- The n bytes of an image from an offset; bytes beyond its end are 0. -/
def imageBytes (img : List Byte) (off n : Nat) : List Byte := (img.drop off).take n ++ zeros (n - (img.length - off))

/-- Body bytes of an image. -/
def imageLen (img : List Byte) : Nat := leNat (imageBytes img 0x0C 4)

/-- The digest D of an image: bytes 0 to 0x0FFF and the body. -/
def imageDigest (img : List Byte) : BitVec 256 := Config.sha3 (imageBytes img 0 (0x1000 + imageLen img))

/-- An image passes boot verification (R415). -/
def imageValid (img : List Byte) : Bool :=
  let pk := imageBytes img 0x10 1312
  leNat (imageBytes img 0 8) == 0x50334657 && decide (Config.fusedVersion.toNat ≤ leNat (imageBytes img 8 4)) &&
  decide (imageLen img % 4096 = 0) && (imageBytes img 0x530 (0x1000 - 0x530)).all (fun b => b == 0) &&
  Config.mldsaVerify pk (imageDigest img) (imageBytes img (0x1000 + imageLen img) 2420) && Config.sha3 pk == Config.fusedKeyHash

/-- The slot whose image is in force (R415). -/
def bootSlot : Option (Fin 2) := if imageValid (Config.fwImage 0) then some 0 else if imageValid (Config.fwImage 1) then some 1 else none

/-- The image in force. -/
def bootImage : List Byte := Config.fwImage (bootSlot.getD 0)

/-! ## Calls and their answers (R418 to R423) -/

/-- What a function answers: a status that changes nothing, values, or a wait for the copy of a page. -/
inductive Reply where
  | fail (status : Nat)
  | done (s : State) (vals : List Word)
  | wait (s : State)

/-- The arguments of a call of function n that waits for its answer; none when the caller has not made one. -/
def State.callArgs (s : State) (c : Caller) (n : Nat) : Option (List Word) :=
  match c with
  | .device sl =>
    let t := s.th sl
    if t.occupied && t.wait = some (.service n) then some ([1, 2, 3, 4, 5, 6].map (fun k => t.sregs.get k)) else none
  | .mailbox f =>
    match (s.fnOf f).mbox.call with
    | some (fn, args) => if s.ready && fn.toNat % 256 = n then some args.toList else none
    | none => none

/-- Replaces the first values of a list. -/
def overwrite : List Word → List Word → List Word
  | v :: r, _ :: l => v :: overwrite r l
  | [], l => l
  | _, [] => []

/-- A request that REQSEQ shows is taken, with FN and the arguments as they stand (R423). -/
def Mailbox.ring (m : Mailbox) : Mailbox := if m.call.isNone && m.reqseq ≠ m.doneseq then { m with call := some (m.fn, m.args) } else m

/-- The answer reaches the caller: a thread goes on at supervisor level after its TRAP, with an acquire step; a mailbox shows the status
and values, and DONESEQ rises (R418, R419, R422, R423). A value that the row does not name is unchanged. -/
def State.reply (s : State) (c : Caller) (status : Nat) (vals : List Word) : State :=
  match c with
  | .device sl =>
    match (s.th sl).wait with
    | some (.service _) =>
      let s := s.acquireLines
      let t := s.th sl
      let t := { t with level := .supervisor, pc := t.cfg.epc.setWidth 64, wait := none, stalled := false }
      let t := t.wr 1 (BitVec.ofNat 64 status)
      s.setTh sl ((List.range vals.length).foldl (fun (t : Thread) i => t.wr (BitVec.ofNat 5 (2 + i)) (listGet 0 vals i)) t)
    | _ => s
  | .mailbox f =>
    let h := s.fnOf f
    let new := overwrite vals h.mbox.vals.toList
    let m := { h.mbox with status := BitVec.ofNat 64 status, vals := Vector.ofFn (fun i => listGet 0 new i.val), doneseq := h.mbox.doneseq + 1
                           call := none }
    ((s.binds.filter (fun b => b.event == 3 && b.f == f)).map (fun b => (b.f, b.vec))).foldl State.raiseVector (s.setFn f { h with mbox := m.ring })

/-- Runs function n for a caller that waits for it. -/
def State.serve (s : State) (c : Caller) (n : Nat) (f : List Word → Reply) : Option State :=
  match s.callArgs c n with
  | none => none
  | some args =>
    match f args with
    | .fail st => some (s.reply c st [])
    | .done s' vals => some (s'.reply c 0 vals)
    | .wait s' => some s'

/-- A call of a number without a function returns status 1 (R420). -/
def State.serveUnknown (s : State) (c : Caller) : State := s.reply c 1 []

/-! ## Caller classes (R420) -/

/-- The context of a device caller. -/
def State.callerCtx (s : State) (c : Caller) : Option Ctx :=
  match c with
  | .device sl => s.ctxOf (s.th sl).ctx
  | .mailbox _ => none

/-- Class P. -/
def State.classP (s : State) (c : Caller) : Bool :=
  match c with
  | .device _ => (match s.callerCtx c with | some x => x.priv | none => false)
  | .mailbox f => f.fn == 0

/-- Class H. -/
def classH (c : Caller) : Bool :=
  match c with
  | .device _ => false
  | .mailbox f => f.fn == 0

/-- Class S for a context with an owner. -/
def State.classS (s : State) (c : Caller) (num : BitVec 12) (owner : PcieFn) : Bool :=
  match c with
  | .device sl => (s.th sl).ctx == num
  | .mailbox f => f == owner

/-- The lowest context that a function owns. -/
def State.ownedCtx (s : State) (f : PcieFn) : Option Ctx :=
  (List.range 4096).findSome? (fun n => (s.ctxOf (BitVec.ofNat 12 n)).filter (fun x => x.owner == f))

/-- The context for which a class S call without a context argument is made. -/
def State.ownCtx (s : State) (c : Caller) : Option Ctx :=
  match c with
  | .device _ => s.callerCtx c
  | .mailbox f => s.ownedCtx f

/-! ## Memory of a call (R419) -/

/-- Outcome of checking the address of a call: its places, and the leaves of those that a page table translates. -/
inductive SvcAcc where
  | ok (s : State) (locs : List Loc) (leaves : List Leaf)
  | bad
  | wait (s : State)

/-- The place of a device physical address. -/
def State.physLoc (s : State) (pa : Nat) : Loc :=
  let pa := s.canon pa
  if s.isLocal pa then .home pa
  else if isPeer pa then .peer pa
  else if isView pa && (s.findView pa).isSome then .view pa
  else .nowhere

/-- Checks one byte of a thread's call at supervisor level: in the scratchpad window as an access of the thread (R29, R82, R419). -/
def State.svcByte (s : State) (t : Thread) (write : Bool) (va : Nat) : SvcAcc :=
  if 2 ^ 56 ≤ va then .bad
  else if inWindow va then
    match s.winCheck t va 1 with
    | .ok s locs _ => .ok s locs []
    | .trap _ _ _ => .bad
    | .wait s => .wait s
  else match s.xlate t.ctx .supervisor (if write then .write else .read) [] va with
    | .fault _ _ => .bad
    | .wait s => .wait s
    | .ok s l => if (s.byteFault write va (s.locOf l va)).isSome then .bad else .ok s [s.locOf l va] [l]

/-- Checks n bytes of a virtual address in order. -/
def State.svcVirt (s : State) (t : Thread) (write : Bool) (va : Nat) : Nat → SvcAcc
  | 0 => .ok s [] []
  | n + 1 =>
    match s.svcByte t write va with
    | .ok s x l =>
      (match s.svcVirt t write (va + 1) n with
       | .ok s y k => .ok s (x ++ y) (l ++ k)
       | r => r)
    | r => r

/-- The leaves of checked bytes, each once. -/
def leavesOnce (l : List Leaf) : List Leaf := l.foldl (fun a x => if a.any (fun y => y.addr == x.addr) then a else a ++ [x]) []

/-- The places of n bytes at a call's address: virtual in the context of a thread, physical for the host; an address that would fault is bad.
The whole of a range is checked before anything changes; then the pages of a write that are copy-on-write are copied, with the call, where the
pool has a frame for each (R372, R419, R421, assumption 107). -/
def State.svcLocs (s : State) (c : Caller) (write : Bool) (a : Word) (n : Nat) : SvcAcc :=
  match c with
  | .device sl =>
    let touched (s : State) (l : List Leaf) : State := l.foldl (fun s x => s.touch x write) s
    (match s.svcVirt (s.th sl) write a.toNat n with
     | .ok s locs leaves =>
       let l := leavesOnce leaves
       let cows := l.filter (fun x => write && pteCow x.e)
       if cows = [] then .ok (touched s l) locs l
       else if s.pool.length < cows.length then .bad
       else
         (match (cows.foldl State.copyNow s).svcVirt (s.th sl) write a.toNat n with
          | .ok s locs leaves => .ok (touched s (leavesOnce leaves)) locs (leavesOnce leaves)
          | r => r)
     | r => r)
  | .mailbox _ =>
    let locs := (List.range n).map (fun i => s.physLoc (a.toNat + i))
    if (s.bytesFault write a.toNat locs).isNone then .ok s locs [] else .bad

/-- The bytes of checked places, at the home store; none where data cannot be corrected. -/
def State.svcRead (s : State) (locs : List Loc) : Option (State × List Byte) :=
  let s := locs.foldl State.recallLoc s
  if locs.any s.locLost then none else some (s, locs.map s.locByte)

/-- Writes bytes to checked places, at the home store. -/
def State.svcWrite (s : State) (locs : List Loc) (bs : List Byte) : State := (locs.foldl State.recallLoc s).putLocs (locs.zip bs)

/-- A function that writes bytes to an output address. -/
def State.writeOut (s : State) (c : Caller) (a : Word) (bs : List Byte) (after : State → State) (vals : List Word) : Reply :=
  match s.svcLocs c true a bs.length with
  | .bad => .fail 2
  | .wait s => .wait s
  | .ok s locs _ => .done (after (s.svcWrite locs bs)) vals

/-- The counter of an asynchronous call: 0 for none, or an 8-aligned place that a counter may have, in no TOL or DEV page, no view and not in the
scratchpad window (R297, R422). -/
def State.svcCounter (s : State) (c : Caller) (a : Word) : SvcAcc :=
  if a = 0 then .ok s [] []
  else if a.toNat % 8 ≠ 0 then .bad
  else match s.svcLocs c true a 8 with
    | .ok s locs leaves =>
      if leaves.any (fun l => pteTol l.e || pteDev l.e) || (match firstLoc locs with | .sp _ => true | _ => false) then .bad
      else .ok s [firstLoc locs] leaves
    | r => r

/-- Starts the asynchronous work of a call for which a context stands (R422). -/
def State.startWork (s : State) (counter : List Loc) (ctx : BitVec 12) (fn : Nat) : State :=
  let w : Work := { counter := counter.head?.map Loc.key, waybill := ctx, fn := fn }
  { s with works := s.works ++ [w] }

/-- An argument. -/
def argOf (args : List Word) (k : Nat) : Word := listGet 0 args (k - 1)

def argNat (args : List Word) (k : Nat) : Nat := (argOf args k).toNat

def w64 (n : Nat) : Word := BitVec.ofNat 64 n

/-! ## 0x00 to 0x03: contexts -/

def State.svcInfo (s : State) (c : Caller) : Option State :=
  s.serve c 0x00 (fun _ => .done s [w64 (leNat (imageBytes bootImage 8 4)), 3, s.module_.setWidth 64])

/-- The lowest free context number. -/
def State.freeCtx (s : State) : Option (BitVec 12) :=
  ((List.range 4095).map (fun n => BitVec.ofNat 12 (n + 1))).find? (fun n => (s.ctxOf n).isNone)

/-- The link on which a new context's function lies: that of the caller. -/
def State.callerLink (s : State) (c : Caller) : Fin 2 :=
  match c with
  | .mailbox f => f.link
  | .device _ => (match s.callerCtx c with | some x => x.owner.link | none => 0)

/-- The owning function that ARG3 names. -/
def ownerArg (link : Fin 2) (a3 : Nat) : Option PcieFn :=
  if h : a3 / 2 ^ 4 % 2 ^ 5 < 17 then some ⟨link, ⟨a3 / 2 ^ 4 % 2 ^ 5, h⟩⟩ else none

def State.svcCtxnew (s : State) (c : Caller) : Option State :=
  s.serve c 0x01 (fun args =>
    let root := s.canon (argNat args 1)
    let entry := argOf args 2
    let a3 := argNat args 3
    if !s.classP c then .fail 3
    else if root % 2 ^ 13 ≠ 0 || !s.isLocal (root + 8191) || 2 ^ 56 ≤ entry.toNat || entry.toNat % 4 ≠ 0 || a3 / 2 ^ 9 ≠ 0 ||
        a3 / 2 % 2 ^ 3 ≠ 0 then .fail 2
    else match ownerArg (s.callerLink c) a3 with
      | none => .fail 2
      | some owner =>
        match s.freeCtx with
        | none => .fail 4
        | some num =>
          let x : Ctx := { num := num, root := root, entry := entry, fw := Config.firmwareEntry num, priv := decide (a3 % 2 = 1), owner := owner
                           budget := 0, spent := 0, g := 8 }
          .done { s with ctxs := s.ctxs ++ [x], reports := s.reports.filter (fun r => r.num != num) } [num.setWidth 64])

/-- The context that an argument names, when the caller may act on it: status 3 outside its classes, 2 for no such context. -/
def State.ctxArg (s : State) (c : Caller) (a : Word) : Except Nat Ctx :=
  match (if a.toNat < 4096 then s.ctxOf (a.setWidth 12) else none) with
  | some x => if s.classP c || s.classS c x.num x.owner then .ok x else .error 3
  | none => .error (if s.classP c then 2 else 3)

def State.svcCtxend (s : State) (c : Caller) : Option State :=
  s.serve c 0x02 (fun args =>
    match s.ctxArg c (argOf args 1) with
    | .error st => .fail st
    | .ok x =>
      match s.svcCounter c (argOf args 2) with
      | .bad => .fail 2
      | .wait s => .wait s
      | .ok s counter _ => .done (((s.settleSlots (fun t => t.ctx == x.num)).endCtx x.num).startWork counter x.num x.owner.fn.val) [])

def State.svcCtxreport (s : State) (c : Caller) : Option State :=
  s.serve c 0x03 (fun args =>
    let a := argOf args 1
    if a.toNat = 0 || 4096 ≤ a.toNat then .fail (if s.classP c then 2 else 3)
    else match s.reports.find? (fun r => r.num == a.setWidth 12) with
      | some r => if s.classP c || s.classS c r.num r.owner then .done s [r.cause, r.addr, r.epc] else .fail 3
      | none =>
        match s.ctxOf (a.setWidth 12) with
        | some x => if s.classP c || s.classS c x.num x.owner then .done s [0, 0, 0] else .fail 3
        | none => if s.classP c then .done s [0, 0, 0] else .fail 3)

/-! ## 0x04 to 0x07: post areas, policy, breakpoints -/

/-- Post areas of a die. -/
def State.areasOn (s : State) (die : Nat) : Nat := (s.areas.filter (fun a => a.die == die)).length

/-- Watch entries that a post area could take on a die; those of other dies are not the model's (assumption 1). -/
def State.watchRoom (s : State) (die : Nat) : Bool := die ≠ s.die.toNat || s.watchUsed < 64

/-- A post area lies in device memory. -/
def Loc.inDevice (l : Loc) : Bool := match l with | .home _ => true | _ => false

def State.svcPostreg (s : State) (c : Caller) : Option State :=
  s.serve c 0x04 (fun args =>
    let die := argNat args 1
    let a := argOf args 2
    match s.ownCtx c with
    | none => .fail 3
    | some x =>
      if 3 < die || a.toNat % 16 ≠ 0 then .fail 2
      else match s.svcLocs c false a 16 with
        | .bad => .fail 2
        | .wait s => .wait s
        | .ok s locs _ =>
          if !locs.all Loc.inDevice then .fail 2
          else if 16 ≤ s.areasOn die || !s.watchRoom die then .fail 4
          else match s.svcRead (locs.take 8) with
            | none => .fail 2
            | some (s, trig) =>
              let phys := match c with | .mailbox _ => true | .device _ => false
              let area : PostArea := { die := die, ctx := x.num, addr := if phys then w64 (s.canon a.toNat) else a, phys := phys
                                       trig := wordOf trig, last := 0, owed := 0, bad := [] }
              .done { s with areas := s.areas ++ [area] } [w64 (s.areasOn die + 1)])

/-- Removes the first area that a test picks. -/
def dropFirst (p : PostArea → Bool) : List PostArea → List PostArea
  | [] => []
  | a :: r => if p a then r else a :: dropFirst p r

def State.svcPostunreg (s : State) (c : Caller) : Option State :=
  s.serve c 0x05 (fun args =>
    let die := argNat args 1
    let a := argOf args 2
    match s.ownCtx c with
    | none => .fail 3
    | some _ =>
      let mine (x : PostArea) : Bool :=
        x.die == die &&
        (match c with
         | .device sl => !x.phys && x.addr == a && x.ctx == (s.th sl).ctx
         | .mailbox f => x.phys && x.addr == w64 (s.canon a.toNat) &&
             (match s.ctxOf x.ctx with | some q => q.owner == f | none => false))
      if !s.areas.any mine then .fail 2
      else
        let s := { s with areas := dropFirst mine s.areas }
        .done (if die = s.die.toNat then s.promote else s) [])

def State.svcPrepol (s : State) (c : Caller) : Option State :=
  s.serve c 0x06 (fun args =>
    if !s.classP c then .fail 3
    else if h : argNat args 1 < 4 then
      (if argNat args 2 / 2 ^ 20 ≠ 0 then .fail 2 else .done { s with policy := s.policy.set (argNat args 1) (argOf args 2) } [])
    else .fail 2)

def State.svcBkset (s : State) (c : Caller) : Option State :=
  s.serve c 0x07 (fun args =>
    match c with
    | .mailbox _ => .fail 3
    | .device sl =>
      let a := argOf args 2
      if h : argNat args 1 < 4 then
        (if a.toNat % 4 ≠ 0 || 2 ^ 56 ≤ a.toNat then .fail 2
         else
          let t := s.th sl
          .done (s.setTh sl { t with breaks := t.breaks.set (argNat args 1) (if a = 0 then none else some (a, t.ctx)) }) [])
      else .fail 2)

/-! ## 0x08 to 0x0B: format windows, link test, power limit, interrupts -/

/-- The window in 64 bytes of the layout of R304, and whether R304 refuses its fields. K has a meaning for BPN alone, and an E2M1X window may hold
any value there (assumption 108). -/
def parseWindow (bs : List Byte) : FWindow × Bool :=
  let d (k : Nat) : Nat := leNat ((bs.drop (8 * k)).take 8)
  let w : FWindow :=
    { en := decide (d 0 % 2 = 1), kind := d 0 / 2 % 4, k := d 0 / 8 % 16, voff := d 1, vlen := d 2, sbase := d 3, rown := d 4
      scl := d 5, outl := d 6, offs := d 7 }
  let bpn := decide (w.kind = 0)
  (w, decide (2 ≤ w.kind) || (bpn && (decide (w.k < 2) || decide (8 < w.k))) || decide (d 0 / 2 ^ 7 ≠ 0) ||
    decide (w.voff % 2 ^ 11 ≠ 0) || decide (w.vlen % 2 ^ 11 ≠ 0) || decide (2 ^ 40 < w.voff + w.vlen) || decide (2 ^ 40 ≤ w.voff) || decide (2 ^ 40 ≤ w.vlen) ||
    decide (2 ^ 52 ≤ w.sbase) || decide (2 ^ 32 ≤ w.rown) || decide (w.rown % (if bpn then 512 else 256) ≠ 0) ||
    [w.scl, w.outl, w.offs].any (fun a => decide (2 ^ 52 ≤ a)))

/-- The view ranges of two enabled windows overlap; one of no bytes overlaps nothing. -/
def FWindow.meets (v w : FWindow) : Bool :=
  v.en && w.en && decide (0 < v.vlen) && decide (0 < w.vlen) && decide (v.voff < w.voff + w.vlen) && decide (w.voff < v.voff + v.vlen)

def State.svcFwinset (s : State) (c : Caller) : Option State :=
  s.serve c 0x08 (fun args =>
    let stack := argNat args 1
    let n := argNat args 2
    if !s.classP c then .fail 3
    else if 7 < stack || 7 < n || argNat args 3 % 8 ≠ 0 then .fail 2
    else match s.svcLocs c false (argOf args 3) 64 with
      | .bad => .fail 2
      | .wait s => .wait s
      | .ok s locs _ =>
        match s.svcRead locs with
        | none => .fail 2
        | some (s, bs) =>
          let (w, refused) := parseWindow bs
          let others := ((s.fwins.drop (8 * stack)).take 8).eraseIdx n
          if refused || others.any (fun v => v.meets w) then .fail 5
          else .done { s with fwins := listSet s.fwins (8 * stack + n) w } [])

def State.svcLinktest (s : State) (c : Caller) : Option State :=
  s.serve c 0x09 (fun args =>
    if !s.classP c then .fail 3
    else if h : argNat args 1 < 18 then
      .done { s with links := s.links.set (argNat args 1) { s.links[argNat args 1] with armed := true } } []
    else .fail 2)

/-- Sum of the nonzero budgets of the module (R408). -/
def State.allBudgets (s : State) : Nat := (s.ctxs.map (fun c => c.budget.toNat)).sum

def State.svcMlimset (s : State) (c : Caller) : Option State :=
  s.serve c 0x0A (fun args =>
    let w := argNat args 1
    if !s.classP c then .fail 3
    else if w < 400 || 3600 < w then .fail 2
    else if w * 1000 < s.allBudgets then .fail 5
    else .done { s with mlim := w } [w64 s.mlim])

/-- Vectors of a function (R393). -/
def vectorsOf (f : PcieFn) : Nat := if f.fn = 0 then 64 else 60

/-- The context, when the event is of one, and the function whose vector is bound. -/
def State.bindTarget (s : State) (c : Caller) (event : Nat) (a : Word) : Except Nat (BitVec 12 × PcieFn) :=
  if event = 0 then
    match s.ctxArg c a with
    | .ok x => .ok (x.num, x.owner)
    | .error st => .error st
  else match c with
    | .mailbox f => if f.fn = 0 || (s.ownedCtx f).isSome then .ok (0, f) else .error 3
    | .device _ => (match s.callerCtx c with | some x => .ok (0, x.owner) | none => .error 3)

def State.svcVecbind (s : State) (c : Caller) : Option State :=
  s.serve c 0x0B (fun args =>
    let event := argNat args 1
    let vec := argNat args 3
    if 3 < event then .fail 2
    else match s.bindTarget c event (argOf args 2) with
      | .error st => .fail st
      | .ok (ctx, f) =>
        let rest := s.binds.filter (fun b => !(b.event == event && b.ctx == ctx && b.f == f))
        if vec = 0xFFFF then .done { s with binds := rest } []
        else if vectorsOf f ≤ vec then .fail 2
        else
          let b : Binding := { event := event, ctx := ctx, f := f, vec := vec }
          .done { s with binds := rest ++ [b] } [])

/-! ## 0x0C to 0x0F: reports -/

/-- Exactly n bytes of a list. -/
def fitBytes (n : Nat) (bs : List Byte) : List Byte := bs.take n ++ zeros (n - bs.length)

/-- The report of R424 for a nonce. No core decodes between a write of the decode table and its next placement, so the written table is the
one in force (R52). -/
def State.attestReport (s : State) (nonce : List Byte) : List Byte :=
  let head := nonce ++ leBytes 32 (imageDigest bootImage).toNat ++ imageBytes bootImage 8 4 ++ zeros 4 ++
    leBytes 32 (Config.sha3 s.table).toNat
  head ++ fitBytes 2420 (Config.identitySign (Config.sha3 head))

def State.svcAttest (s : State) (c : Caller) : Option State :=
  s.serve c 0x0C (fun args =>
    match s.svcLocs c false (argOf args 1) 32 with
    | .bad => .fail 2
    | .wait s => .wait s
    | .ok s locs _ =>
      match s.svcRead locs with
      | none => .fail 2
      | some (s, nonce) => s.writeOut c (argOf args 2) (s.attestReport nonce) id [2524])

def State.svcIdkey (s : State) (c : Caller) : Option State :=
  s.serve c 0x0D (fun args => s.writeOut c (argOf args 1) (fitBytes 1312 Config.identityKey) id [1312])

/-- A fused TESTMAX: one of the seven speeds from 800 to 950 MHz (R1, R405). -/
def fusedSpeed (b : BitVec 6) : BitVec 6 := if 32 ≤ b.toNat && b.toNat ≤ 38 then b else BitVec.ofNat 6 (32 + b.toNat % 7)

/-- Byte i of the speed table (R405). -/
def State.speedByte (s : State) (i : Nat) : Byte :=
  if 48 ≤ i % 50 then 32
  else if i = s.coreNo then s.testmax.setWidth 8
  else (fusedSpeed (Config.fusedTestmax i)).setWidth 8

def State.svcSpeedtbl (s : State) (c : Caller) : Option State :=
  s.serve c 0x0E (fun args => s.writeOut c (argOf args 1) ((List.range 200).map s.speedByte) id [200])

/-- The 16 bytes of a straggle entry (R288). -/
def Straggle.bytes (e : Straggle) : List Byte := leBytes 8 e.count.toNat ++ leBytes 8 e.lsum.toNat

def State.svcStraggle (s : State) (c : Caller) : Option State :=
  s.serve c 0x0F (fun args =>
    let die := argNat args 1
    let core := argNat args 2
    let clear := argNat args 4
    if clear = 1 && !s.classP c then .fail 3
    else if 3 < die || 49 < core || 1 < clear then .fail 2
    else
      let zero : Straggle := { count := 0, lsum := 0 }
      let n := 50 * die + core
      s.writeOut c (argOf args 3) (listGet zero s.straggle n).bytes
        (fun s => if clear = 1 then { s with straggle := listSet s.straggle n zero } else s) [])

/-! ## 0x10 to 0x12 -/

def State.svcVfmem (s : State) (c : Caller) : Option State :=
  s.serve c 0x10 (fun args =>
    let base := argNat args 2
    let len := argNat args 3
    match c with
    | .device _ => .fail 3
    | .mailbox f =>
      if !classH c then .fail 3
      else if h : argNat args 1 < 17 then
        (if argNat args 1 = 0 || base % 2 ^ 16 ≠ 0 || len % 2 ^ 16 ≠ 0 || !s.isLocal (base + len - 1) then .fail 2
         else
          let v : PcieFn := ⟨f.link, ⟨argNat args 1, h⟩⟩
          .done (s.setFn v { s.fnOf v with mem := some (base, len) }) [])
      else .fail 2)

def State.svcChconfirm (s : State) (c : Caller) : Option State :=
  s.serve c 0x11 (fun args =>
    if !s.classP c then .fail 3
    else if argNat args 1 ≠ s.chret + 1 || s.chMarked < argNat args 1 then .fail 2
    else .done { s with chret := s.chret + 1 }.noteRetired [])

/-- A record that the Innkeeper has taken or that LAUNCH has linked and that no task runs yet. -/
def State.pendingRecs (s : State) : List (BitVec 12 × Word) :=
  s.launches ++ ((s.watches.flatMap (·.recs)) ++ s.unwatched).map (fun r => (r.ctx, r.va))

/-- The record at a place, among those of tasks and those that wait. -/
def State.recAt (s : State) (l : Loc) : Option (BitVec 12 × Word) :=
  (s.tasks.map (fun k => (k.ctx, k.va)) ++ s.pendingRecs).find? (fun r =>
    match s.innLoc r.1 false r.2.toNat with
    | .ok x => x == l
    | .error _ => false)

/-- Ends a task whose record has not been dispatched: it is no longer waited for (R283). -/
def State.abortRec (s : State) (r : BitVec 12 × Word) : State :=
  let other (q : WaitRec) : Bool := !(q.ctx == r.1 && q.va == r.2)
  match s.tasks.find? (fun k => k.ctx == r.1 && k.va == r.2) with
  | some k => (s.settleSlots (fun t => (s.partyOf t.party).any (fun p => p.task == k.key))).abortTask k
  | none =>
    let s := s.putTaskState r.1 r.2 7
    { s with launches := s.launches.filter (fun q => q != r)
             watches := (s.watches.map (fun w => { w with recs := w.recs.filter other })).filter (fun w => w.recs != [])
             unwatched := s.unwatched.filter other }

/-- The caller may end the task of a record of a context. -/
def State.mayAbort (s : State) (c : Caller) (ctx : BitVec 12) : Bool :=
  s.classP c || (match s.ctxOf ctx with | some x => s.classS c ctx x.owner | none => false)

def State.svcTaskabort (s : State) (c : Caller) : Option State :=
  s.serve c 0x12 (fun args =>
    if argNat args 1 % 128 ≠ 0 then .fail 2
    else match s.svcLocs c false (argOf args 1) 8 with
      | .bad => .fail 2
      | .wait s => .wait s
      | .ok s locs _ =>
        match s.recAt (firstLoc locs) with
        | none => .fail 2
        | some r =>
          if !s.mayAbort c r.1 then .fail 3
          else match s.svcCounter c (argOf args 2) with
            | .bad => .fail 2
            | .wait s => .wait s
            | .ok s counter _ =>
              .done (((s.abortRec r).promote).startWork counter r.1 (match s.ctxOf r.1 with | some x => x.owner.fn.val | none => 0)) [])

/-- SERVICE_WORK_DONE: the oldest work ends and adds 1 to its counter, at the home store, or by an atomic that leaves for the peer, or the host,
that holds it (R297, R422). -/
def State.serviceWorkDone (s : State) : Option State :=
  match s.works with
  | [] => none
  | w :: rest =>
    let s := { s with works := rest }
    match w.counter with
    | none => some s
    | some pa =>
      if hostBase ≤ pa then some (s.sendTo w.fn w.waybill .posted pa (.atomic .add true 1 0) .sent [])
      else if isPeer pa then some (s.send w.waybill .posted pa (.atomic .add true 1 0) .sent)
      else some (s.homeAtomic .add true pa 1 0).1

end Sys2Proof.Machine
end

