-- ==== Sys2Proof/Machine/Xact.lean ====
section
/-! DEFINITION. Cross-module transactions: XBEGIN, XST, XCOMMIT and XABORT, the replies of targets and the faults of links they meet
(spec/24 R400 to R404; spec/22 R374). -/

namespace Sys2Proof.Machine

/-- The transaction is no longer live (R401). -/
def Txn.abort (x : Txn) (code : BitVec 8) : Txn := { x with code := code, phase := .staging, await := [] }

/-- XBEGIN (R401). -/
def execXbegin (s : State) : Out :=
  let t := s.me
  match t.txn with
  | some _ => s.wordTrap 0x04 t.pc.toNat
  | none => s.commit { t with txn := some { code := 0, stores := [], phase := .staging, await := [] } }

/-- XABORT (R401). -/
def execXabort (s : State) : Out :=
  let s := s.discard s.me.txn
  s.commit { s.me with txn := none }

/-- The checks of XST in their order: those of R82 for a write, then the attributes that a staged store may not have (R402). -/
def State.stageCheck (s : State) (t : Thread) (va : Word) : Acc :=
  let a := va.toNat
  if 2 ^ 56 ≤ a then .trap s 0x10 a
  else if a % 8 ≠ 0 then .trap s 0x11 a
  else if inWindow a then .trap s 0x1A a
  else match s.scalarCheck t .write va 8 with
    | .ok s locs (some l) =>
      let peer := match firstLoc locs with | .peer _ => true | _ => false
      if pteTol l.e || pteDev l.e || pteHost l.e || pteSync l.e || (pteCow l.e && peer) then .trap s 0x1A a
      else match s.cowStart l with
        | .none => .ok s locs (some l)
        | .wait s => .wait s
        | .empty s => .trap s 0x1C a
    | r => r

/-- XST (R402). -/
def execXst (d a : BitVec 5) (s : State) : Out :=
  let t := s.me
  match t.txn with
  | none => s.wordTrap 0x04 t.pc.toNat
  | some x =>
    if x.code ≠ 0 then s.commit t
    else match s.stageCheck t (t.rd a) with
      | .trap s c y => s.wordTrap c y
      | .wait s => s.stall
      | .ok s locs leaf =>
        if 256 ≤ x.stores.length then s.commit { s.me with txn := some (x.abort 2) }
        else
          let s := match leaf with | some l => s.touch l true | none => s
          let pa := match firstLoc locs with | .home p | .peer p => p | _ => 0
          let (s, met) := s.sendFlits (if isPeer pa then [peerOf pa] else [])
          let x := { x with stores := x.stores ++ [{ pa := pa, data := t.rd d }] }
          s.commit { s.me with txn := some (if met then x.abort 1 else x) }

/-- Applies the staged stores that belong to a module at its home store, in XST order (R403). -/
def State.applyStores (s : State) (x : Txn) (m : Nat) : State :=
  (x.stores.filter (fun w => s.ownerOf w.pa == m)).foldl (fun s w =>
    (s.recall w.pa 8).putHomeNat w.pa 8 w.data.toNat) s

/-- The decision is to commit: local stores are applied and phase two goes to the other targets (R403). -/
def State.txDecide (s : State) (x : Txn) : State :=
  let s := s.applyStores x s.module_.toNat
  let (s, _) := s.sendFlits (s.targets x)
  s.setMe { s.me with txn := some { x with phase := .phase2, await := s.targets x } }

/-- XCOMMIT closes the transaction with a code. -/
def State.closeTxn (s : State) (d : BitVec 5) (code : BitVec 8) : Out :=
  s.commit ({ s.me with txn := none }.wr d (code.setWidth 64))

/-- XCOMMIT (R403): a release step at system scope, phase one, the decision, and phase two. -/
def execXcommit (d : BitVec 5) (s : State) : Out :=
  match s.me.txn with
  | none => s.commit (s.me.wr d 3)
  | some x =>
    match x.phase with
    | .staging =>
      if s.accessOpen s.cur then s.stall
      else
        let (s, done) := s.sysRelease
        if !done then s.stall
        else if x.code ≠ 0 then (s.discard (some x)).closeTxn d x.code
        else
          let (s, met) := s.sendFlits (s.targets x)
          if met then s.closeTxn d 1
          else if s.targets x = [] then
            let s := s.txDecide x
            s.closeTxn d 0
          else (s.setMe { s.me with txn := some { x with phase := .phase1, await := s.targets x, dest := d } }).stall
    | .phase1 => if x.await = [] then (s.txDecide x).stall else s.stall
    | .phase2 => if x.await = [] then s.closeTxn d 0 else s.stall

/-- The decision is open: the transaction is live, and some target has still to reply in phase one (R403). -/
def Txn.undecided (x : Txn) : Bool :=
  x.code = 0 && (match x.phase with | .staging => true | .phase1 => x.await != [] | .phase2 => false)

/-- A module that holds a staged store of the transaction, this one among them (R402). -/
def State.holdsStore (s : State) (x : Txn) (m : Nat) : Bool := x.stores.any (fun w => s.ownerOf w.pa == m)

/-- A target's reply reaches a transaction: in phase one it holds its stores or refuses them, in phase two it has applied them; a refusal before the
decision, this module's own among them, makes the transaction not live. The number 4096 + m, which is no module's, stands for the fault of a link
that another module has on the route to m (R374, R402, R403, assumption 75). -/
def State.replyTo (s : State) (x : Txn) (target : Nat) (held : Bool) : Option (State × Txn) :=
  if 4096 ≤ target then (if x.undecided && (s.targets x).contains (target - 4096) then some (s, x.abort 1) else none)
  else if !held && x.undecided then (if s.holdsStore x target then some (s, x.abort 4) else none)
  else if x.phase = .staging || !x.await.contains target then none
  else some (if x.phase = .phase2 then s.applyStores x target else s, { x with await := x.await.filter (fun m => m != target) })

/-- The reply of a target for the transaction of a slot, billed to its context (R397). -/
def State.replySlot (s : State) (sl : Slot) (target : Nat) (held : Bool) : Option State :=
  match (s.th sl).txn with
  | none => none
  | some x => (s.replyTo x target held).map (fun p => (p.1.setTh sl { (p.1.th sl) with txn := some p.2 }).billReply (p.1.th sl).ctx)

/-- The reply of a target for a transaction whose thread has been ended, and whose phase two runs on (R403). -/
def State.replyOrphan (s : State) (target : Nat) : Option State :=
  (List.range s.orphans.length).findSome? (fun i =>
    match s.orphans[i]? with
    | none => none
    | some (ctx, x) => (s.replyTo x target true).map (fun p =>
        State.billReply { p.1 with orphans := if p.2.await = [] then s.orphans.eraseIdx i else s.orphans.set i (ctx, p.2) } ctx))

/-- A link fault before the last reply of phase one aborts every transaction that has a flit over the link (R403). -/
def State.abortOver (s : State) (k : Fin 18) : State :=
  { s with threads := s.threads.map (fun t =>
      match t.txn with
      | some x => if x.undecided && (s.targets x).any (fun m => s.routeCrosses m k) then { t with txn := some (x.abort 1) } else t
      | none => t) }

end Sys2Proof.Machine
end

