-- ==== Sys2Proof/Machine/Fabric.lean ====
section
/-! DEFINITION. The Parlum links, the requests of the core and of other modules, and the host's accesses (spec/24 R390 to R399; spec/20
R346, R347, R353, R356, R357). -/

namespace Sys2Proof.Machine

/-! ## Links (R395 to R399) -/

def State.linkOf (s : State) (k : Fin 18) : Link := s.links.get k

def State.setLink (s : State) (k : Fin 18) (l : Link) : State := { s with links := s.links.set k.val l }

/-- LINK_SHED: a link that carries little sheds to half its width, from 8 lanes to 4 or from 4 to 2 (R398). -/
def State.linkShed (s : State) (k : Fin 18) : Option State :=
  let l := s.linkOf k
  if l.up && l.changing.isNone && 2 < l.width then some (s.setLink k { l with changing := some (l.width / 2) }) else none

/-- LINK_WIDEN: a link whose queue is long widens one step (R398). -/
def State.linkWiden (s : State) (k : Fin 18) : Option State :=
  let l := s.linkOf k
  if l.up && l.changing.isNone && l.width < 8 then some (s.setLink k { l with changing := some (2 * l.width) }) else none

/-- LINK_WIDTH_CHANGE_DONE: the change of width ends (R398). -/
def State.linkWidthChangeDone (s : State) (k : Fin 18) : Option State :=
  let l := s.linkOf k
  match l.changing with
  | some w => some (s.setLink k { l with width := w, changing := none })
  | none => none

/-- LINKDOWN follows the links that have faulted, and raises its vector when it becomes 1 (R392, R393). -/
def State.setLinkdown (s : State) : State :=
  let down := s.links.toList.any (fun l => l.down)
  let t := { s with linkdown := down }
  if down && !s.linkdown then t.raiseEvent 2 0 else t

/-- LINK_FAULT: LINKUP and LINKDOWN change, traffic over the link moves to other routes, and transactions whose decision has not been made and that
have a flit over the link are not live any more (R396, R399, R403). -/
def State.linkFault (s : State) (k : Fin 18) : Option State :=
  let l := s.linkOf k
  if l.up then
    let s := s.abortOver k
    some ({ s with routeFaults := s.routeFaults ++ [k] }.setLink k { l with up := false, down := true, changing := none }).setLinkdown
  else none

/-- LINK_GAINS_TRAINING: the link carries traffic (R392). -/
def State.linkGainsTraining (s : State) (k : Fin 18) : Option State :=
  let l := s.linkOf k
  if l.up then none else some ((s.setLink k { l with up := true, down := false, width := 8 }).setLinkdown)

/-! ## Requests of the core (R346, R356, R357, R396, R399) -/

def State.reqOf (s : State) (id : Nat) : Option Req := s.reqs.find? (fun r => r.id == id)

/-- The request goes to a peer module. -/
def Req.toPeer (r : Req) : Bool := isPeer r.pa

/-- An earlier request of the core to the same module has no reply yet; a module performs them in the order in which they left (R396). -/
def State.earlierReq (s : State) (r : Req) : Bool :=
  (s.reqs.takeWhile (fun q => q.id != r.id)).any (fun q => q.toPeer && q.open_ && peerOf q.pa == peerOf r.pa)

/-- Marks a request as answered. -/
def State.answer (s : State) (r : Req) (st : ReqStatus) : State :=
  { s with reqs := s.reqs.map (fun q => if q.id == r.id then { q with status := st } else q) }

/-- Something waits for the answer of a write: a store element is done with it (R154). -/
def ReqFor.waits (w : ReqFor) : Bool := match w with | .element _ _ _ => true | _ => false

/-- A request that makes its target do more than a plain read or write (R397). -/
def Req.billed (r : Req) : Bool := match r.op with | .atomic _ _ _ _ => true | _ => false

/-- The energy that came with the answer of a request is billed to its waybill's context (R397). -/
def State.billReq (s : State) (r : Req) : State := if r.billed then s.billReply (r.waybill.setWidth 12) else s

/-- PEER_REPLY: the oldest open request to a module is answered. A write has performed at the module's home store, where the model keeps
its bytes; a read or an atomic has its data (R347, R357, R396). -/
def State.peerReply (s : State) (id : Nat) (data : Word) : Option State :=
  match s.reqOf id with
  | none => none
  | some r =>
    if !r.toPeer || !r.open_ || s.earlierReq r then none
    else match r.op with
      | .write bs =>
        let s := s.putHome r.pa bs
        some (if r.who.waits then s.answer r (.answered 0) else s.dropReq r.id)
      | _ => some ((if r.who = .posted then s.dropReq r.id else s.answer r (.answered data)).billReq r)

/-- PCIE_COMPLETION: the completion of a device read, a flush read or an AtomicOp to a HOST page arrives (R347, R356). -/
def State.pcieCompletion (s : State) (id : Nat) (data : Word) : Option State :=
  match s.reqOf id with
  | none => none
  | some r => if hostBase ≤ r.pa && r.open_ then some (s.answer r (.answered data)) else none

/-- ROUTE_TIMEOUT: a request that has found no route fails; a write is dropped and counted (R399). -/
def State.routeTimeout (s : State) (id : Nat) : Option State :=
  match s.reqOf id with
  | none => none
  | some r =>
    if !r.toPeer || !r.open_ then none
    else match r.op with
      | .write _ => some (if r.who.waits then (s.answer r .failed).countDropped else (s.dropReq r.id).countDropped)
      | _ => some (s.answer r .failed)

/-! ## Requests that arrive (R345, R353, R357) -/

/-- Every byte of a local access exists. -/
def State.allLocal (s : State) (pa n : Nat) : Bool := n ≠ 0 && s.isLocal (pa + n - 1)

/-- Bytes of a plain bus access. -/
def opBytes : BusOp → Nat
  | .read n => n
  | .write bs => bs.length
  | .atomic _ wide _ _ => if wide then 8 else 4

/-- A plain access of another module: an element or a Courier byte recalls the lines that the core holds of it, and a scalar access does not.
The request does not say which it is: a free choice where a line is held (R345, assumption 10). -/
def State.peerRecall (s : State) (pa n : Nat) : State :=
  if s.lines.any (fun l => decide (64 * l.line < pa + n ∧ pa < 64 * l.line + 64)) then
    let t := { s with fresh := s.fresh + 1 }
    if Config.freeChoice s.fresh then t.recall pa n else t
  else s

/-- PEER_REQUEST: a request of another module performs at the home store; its waybill is billed at the source (R345, R353, R357, R397). -/
def State.peerRequest (s : State) (_ctx : BitVec 12) (pa : Nat) (op : BusOp) : Option State :=
  let pa := s.canon pa
  if !s.allLocal pa (opBytes op) then none
  else match op with
    | .read n => some (s.peerRecall pa n)
    | .write bs => some ((s.peerRecall pa bs.length).putHome pa bs)
    | .atomic o wide b cmp => if pa % opBytes op = 0 then some (s.homeAtomic o wide pa b cmp).1 else none

/-- BASE_DIE_ATOMIC: an atomic of another agent of the module performs at the home store (R353). -/
def State.baseDieAtomic (s : State) (op : AmoOp) (wide : Bool) (pa : Nat) (b cmp : Word) : Option State :=
  let n := if wide then 8 else 4
  if s.allLocal pa n && pa % n = 0 then some (s.homeAtomic op wide pa b cmp).1 else none

/-! ## The host (R390 to R393, R410, R423) -/

/-- The device address of an offset in BAR 2 or BAR 4; none where the function may not reach it or nothing is there (R390). -/
def State.barAddr (s : State) (f : PcieFn) (bar : Bar) (off n : Nat) : Option Nat :=
  let h := s.fnOf f
  match bar with
  | .bar0 => none
  | .bar2 =>
    let pa := h.wsel.toNat * 2 ^ 36 + off
    let mine := f.fn = 0 || (match h.mem with | some (base, len) => base ≤ pa && pa + n ≤ base + len | none => false)
    if off + n ≤ 2 ^ 36 && mine && s.allLocal pa n then some pa else none
  | .bar4 => if off + n ≤ 2 ^ 16 && s.allLocal (h.page + off) n then some (h.page + off) else none

/-- An Unsupported Request of a VF is counted with the uncorrectable events of the die of its link (R390; assumption 45). -/
def State.countUnsupported (s : State) (f : PcieFn) : State :=
  let d : Fin 4 := if f.link = 0 then 0 else 3
  let e := s.errs.get d
  { s with errs := s.errs.set d { e with ue := satInc e.ue } }

/-- The access gets an Unsupported Request completion. -/
def State.unsupported (s : State) (f : PcieFn) : State := if f.fn = 0 then s else s.countUnsupported f

/-- HOST_BAR_ACCESS: a host read or write through BAR 2 or BAR 4 performs at the home store (R391). -/
def State.hostBarAccess (s : State) (f : PcieFn) (bar : Bar) (off : Nat) (op : BusOp) : Option State :=
  if bar = .bar0 then none
  else match op with
    | .atomic _ _ _ _ => none
    | .read n => (match s.barAddr f bar off n with | some _ => some s | none => some (s.unsupported f))
    | .write bs => (match s.barAddr f bar off bs.length with | some pa => some (s.putHome pa bs) | none => some (s.unsupported f))

/-- Changes the mailbox of a function. -/
def State.setMbox (s : State) (f : PcieFn) (g : Mailbox → Mailbox) : State :=
  let h := s.fnOf f
  s.setFn f { h with mbox := g h.mbox }

/-- A request of the mailbox with a number that no function has is answered at once (R420, R423). -/
def State.mailboxRung (s : State) (f : PcieFn) : State :=
  let s := s.setMbox f Mailbox.ring
  match (s.fnOf f).mbox.call with
  | some (fn, _) => if s.ready && 0x13 ≤ fn.toNat % 256 then s.serveUnknown (.mailbox f) else s
  | none => s

/-- HOST_ATOMICOP: FetchAdd, Swap or CAS, aligned, as a base-die atomic; or the FetchAdd that raises REQSEQ. One at DONESEQ, which no write changes,
gives its value. Of a VF, one outside the memory of its BAR 2 is counted (R390, R391, R423). -/
def State.hostAtomicop (s : State) (f : PcieFn) (bar : Bar) (off : Nat) (op : AmoOp) (wide : Bool) (b cmp : Word) : Option State :=
  let n := if wide then 8 else 4
  match bar with
  | .bar0 =>
    if off = 0x8080 && wide && op = .add then some ((s.setMbox f (fun m => { m with reqseq := m.reqseq + b })).mailboxRung f)
    else if off = 0x8088 && wide && op = .add then some s
    else none
  | _ =>
    match s.barAddr f bar off n with
    | none => some (s.unsupported f)
    | some pa => if pa % n = 0 && (op = .add || op = .swap || op = .cas) then some (s.homeAtomic op wide pa b cmp).1 else some s

/-- The error counter of a die at an offset, written to zero (R410). -/
def DieErr.cleared (e : DieErr) (off : Nat) : DieErr :=
  match off with
  | 0x00 => { e with ce := 0 }
  | 0x08 => { e with ue := 0 }
  | 0x10 => { e with voids := 0 }
  | 0x18 => { e with dropw := 0 }
  | _ => e

/-- An error-counter doubleword of a die (R410). -/
def DieErr.word (e : DieErr) (off : Nat) : Word :=
  match off with
  | 0x00 => e.ce
  | 0x08 => e.ue
  | 0x10 => e.voids
  | 0x18 => e.dropw
  | 0x20 => BitVec.ofNat 64 (e.lret % 2 ^ 7 + 2 ^ 8 * (e.cret % 2 ^ 6))
  | _ => 0

/-- A doubleword of a mailbox (R423). -/
def Mailbox.word (m : Mailbox) (off : Nat) : Word :=
  if off = 0x00 then m.fn
  else if 0x08 ≤ off && off ≤ 0x30 && off % 8 = 0 then listGet 0 m.args.toList (off / 8 - 1)
  else if off = 0x40 then m.status
  else if 0x48 ≤ off && off ≤ 0x58 && off % 8 = 0 then listGet 0 m.vals.toList (off / 8 - 9)
  else if off = 0x80 then m.reqseq
  else if off = 0x88 then m.doneseq
  else 0

/-- The offset lies in a block of BAR 0 whose registers the spec names: status, error counters, mailbox (R392, R410, R423). -/
def namedBlock (off : Nat) : Bool := off < 0x1800 || (0x8000 ≤ off && off < 0x8100)

/-- The vector and half of its MSI-X entry that an offset of BAR 0 names; the table lies outside the blocks that the spec names (R390, R393,
assumption 96). -/
def msixAt (f : PcieFn) (off : Nat) : Option (Nat × Nat) :=
  let k := (off - Config.msixTable) / 8
  if !namedBlock off && Config.msixTable ≤ off && k < 2 * vectorsOf f then some (k / 2, k % 2) else none

/-- Pending bits 64 × k to 64 × k + 63 of a function. -/
def HostFn.pending (h : HostFn) (k : Nat) : Word :=
  BitVec.ofNat 64 ((h.pba.filter (fun v => v / 64 == k)).map (fun v => 2 ^ (v % 64))).sum

/-- A write of half an entry of the MSI-X table; a vector that is no longer masked is no longer pending. -/
def HostFn.msixPut (h : HostFn) (vec half : Nat) (v : Word) : HostFn :=
  let e := h.msixEntry vec
  let e : BitVec 128 := if half = 0 then (e.extractLsb' 64 64) ++ v else v ++ (e.extractLsb' 0 64)
  { h with msix := h.msix.filter (fun p => p.1 != vec) ++ [(vec, e)]
           pba := if e.getLsbD 96 then h.pba else h.pba.filter (fun p => p != vec) }

/-- What a host reads from a doubleword of BAR 0: a VF reads the PF's status fields and counters, its own WSEL and its own mailbox. Bits
that no map names read as zero, and a read changes nothing. The MSI-X table and the pending bits stand elsewhere in BAR 0 (R390, R392, R410, R423,
assumption 96). -/
def State.registerRead (s : State) (f : PcieFn) (off : Nat) : Word :=
  let flag (b : Bool) (k : Nat) : Nat := if b then 2 ^ k else 0
  if off = 0x00 then BitVec.ofNat 64 (flag s.ready 0 + flag s.replace 1 + flag s.linkdown 2)
  else if off = 0x08 then BitVec.ofNat 64 ((List.range 18).map (fun k => flag (s.links.get (Fin.ofNat 18 k)).up k)).sum
  else if off = 0x10 then (s.fnOf f).wsel.setWidth 64
  else if 0x1000 ≤ off && off < 0x1400 then (s.errs.get (Fin.ofNat 4 ((off - 0x1000) / 0x100))).word (off % 0x100)
  else if off = 0x1400 then BitVec.ofNat 64 (s.chret % 2 ^ 9)
  else if 0x8000 ≤ off && off < 0x8100 then (s.fnOf f).mbox.word (off - 0x8000)
  else match msixAt f off with
    | some (vec, half) => ((s.fnOf f).msixEntry vec).extractLsb' (64 * half) 64
    | none => if Config.msixPending ≤ off && off < Config.msixPending + 8 then (s.fnOf f).pending ((off - Config.msixPending) / 8) else 0

/-- REGISTER_WRITE: WSEL, an error counter, a field of the mailbox or of the MSI-X table; a read-only register keeps its value (R390, R392, R410,
R423). -/
def State.registerWrite (s : State) (f : PcieFn) (off : Nat) (v : Word) : Option State :=
  if off = 0x10 then some (s.setFn f { s.fnOf f with wsel := v.setWidth 3 })
  else if 0x1000 ≤ off && off < 0x1400 then
    (if f.fn = 0 && v = 0 then
      let d : Fin 4 := Fin.ofNat 4 ((off - 0x1000) / 0x100)
      some { s with errs := s.errs.set d ((s.errs.get d).cleared (off % 0x100)) }
     else some s)
  else if off = 0x8000 then some (s.setMbox f (fun m => { m with fn := v &&& 0xFF }))
  else if 0x8008 ≤ off && off ≤ 0x8030 && off % 8 = 0 then
    some (s.setMbox f (fun m => { m with args := Vector.ofFn (fun i => if 0x8008 + 8 * i.val = off then v else m.args.get i) }))
  else if off = 0x8080 then some ((s.setMbox f (fun m => { m with reqseq := v })).mailboxRung f)
  else match msixAt f off with
    | some (vec, half) => if off % 8 = 0 then some (s.setFn f ((s.fnOf f).msixPut vec half v)) else some s
    | none => some s

end Sys2Proof.Machine
end

