-- ==== Sys2Proof/Machine/Image.lean ====
section
/-! DEFINITION. The window and tag image: its bytes, WSAVE and WLOAD (spec/11 R202, R203, R206, R207). -/

namespace Sys2Proof.Machine

/-! ## The bytes of the image (R202) -/

/-- Capacity of one physical register in bytes. -/
def Thread.regBytes (t : Thread) : Nat := 32 * t.cfg.lalive.toNat * (1 + t.cfg.qcur.toNat)

/-- Bytes of the image. -/
def imageSize (c : Nat) : Nat := 0x800 + 181 * c

/-- Tag codes of elements. -/
def Elem.code : Elem → Nat
  | .absent => 0
  | .present _ => 1
  | .void => 2

def PBit.code : PBit → Nat
  | .absent => 0
  | .present _ => 1
  | .void => 2

/-- The n bytes of tag codes of four elements each. -/
def tagBytes (n limit : Nat) (code : Nat → Nat) : List Byte :=
  (List.range n).map (fun k => BitVec.ofNat 8 ((List.range 4).foldl (fun a j =>
    a + (if 4 * k + j < limit then code (4 * k + j) * 4 ^ j else 0)) 0))

/-- The n bytes of a bit list. -/
def bitBytes (n : Nat) (bit : Nat → Bool) : List Byte :=
  (List.range n).map (fun k => BitVec.ofNat 8 ((List.range 8).foldl (fun a j => a + (if bit (8 * k + j) then 2 ^ j else 0)) 0))

def VReg.image (r : VReg) (c : Nat) : List Byte :=
  let w := 2 ^ r.wlog
  (List.range (c / w)).flatMap (fun i => leBytes w (match r.get i with | .present b => b.toNat | _ => 0)) ++
  tagBytes (c / 4) (c / w) (fun i => (r.get i).code)

def PReg.image (r : PReg) (c : Nat) : List Byte :=
  bitBytes (c / 8) (fun i => r.get i == .present true) ++ tagBytes (c / 4) c (fun i => (r.get i).code)

/-- A register field of a rule entry: the number with the valid bit, or zero. -/
def regField {n : Nat} : Option (Fin n) → Byte
  | some p => BitVec.ofNat 8 (0x80 + p.val)
  | none => 0

/-- The rule takes one captured scalar, sb: the image holds it in the place of a base (R202). -/
def Rule.onlySb (r : Rule) : Bool := match r.spec.kind with | .mem _ | .tblb _ | .mrd _ | .cwalk _ | .vpf => false | _ => true

/-- A rule entry. -/
def Rule.image (r : Rule) : List Byte :=
  let f := r.reported
  let ops := if r.onlySb then (r.opb, r.opa) else (r.opa, r.opb)
  let word : Nat := match encode r.instr with | some w => w.toNat | none => 0
  let vpb : Nat := match r.instr with | .vpf _ _ => 2 ^ 33 | _ => 0
  leBytes 8 (word + vpb + (match f with | some x => 2 ^ 32 + x.cause.toNat * 2 ^ 40 + x.elem * 2 ^ 48 | none => 0)) ++
  leBytes 8 (r.vl.toNat + 2 ^ 16 * r.segsel.toNat + 2 ^ 20 * r.frm.toNat + 2 ^ 48 * r.msel.toNat) ++
  leBytes 8 ops.1.toNat ++ leBytes 8 ops.2.toNat ++
  [r.d0, r.d1, r.a0, r.a1, r.b0, r.b1, r.x0, r.old0].map regField ++
  [regField r.old1] ++ [r.mp, r.sp, r.pd, r.pold, r.pa, r.pb].map regField ++ zeros 17

/-- The done bit of an element of a rule in an image: a SETFIB completes as it is issued, and its carries of bits that are still to come count as
firings that have not been made (R203, R248; assumption 91). -/
def Rule.imgDone (r : Rule) (t : Thread) (i : Nat) : Bool :=
  r.isDone i && (match r.instr with | .setfib _ _ _ _ _ => r.pd.isNone || t.vec.bit r.pd i != .absent | _ => true)

/-- The whole image. -/
def Thread.image (t : Thread) : List Byte :=
  let c := t.regBytes
  let v := t.vec
  leBytes 8 (3 + 2 ^ 8 * v.window.length + 2 ^ 16 * t.cfg.lalive.toNat + 2 ^ 24 * t.cfg.qcur.toNat) ++
  leBytes 8 t.vsw.toNat ++ leBytes 8 t.cfg.lmap.toNat ++
  (t.sregs.toList.drop 29).flatMap (fun x => leBytes 8 x.toNat) ++
  leBytes 8 (imageSize c) ++ zeros 200 ++
  v.window.flatMap Rule.image ++ zeros ((24 - v.window.length) * 64) ++
  (List.finRange 32).flatMap (fun n => leBytes 2 ((v.vmap.get n).val + 2 ^ 8 * (v.vtag.get n).code)) ++
  v.mmap.toList.map (fun p => BitVec.ofNat 8 p.val) ++ zeros 16 ++
  (List.range 32).map (fun k => BitVec.ofNat 8 ((List.range 4).foldl (fun a j => a + (v.vreg (Fin.ofNat 128 (4 * k + j))).wlog * 4 ^ j) 0)) ++
  zeros 128 ++
  v.vregs.toList.flatMap (fun r => r.image c) ++ v.pregs.toList.flatMap (fun r => r.image c) ++
  v.window.flatMap (fun r => bitBytes (c / 8) (fun i => r.imgDone t i)) ++ zeros ((24 - v.window.length) * (c / 8))

/-! ## WSAVE (R206) -/

/-- Checks the doublewords of a range as stores; none when all of them pass. -/
def State.rangeCheck (s : State) (t : Thread) (va : Word) : Nat → State ⊕ Access
  | 0 => .inl s
  | n + 1 =>
    match s.storeCheck t va 8 with
    | .trap s c a => .inr (.trap s c a)
    | .wait s => .inr (.wait s)
    | .ok s _ _ => s.rangeCheck t (va + 8) n

/-- Stores doublewords at consecutive addresses; every one has been checked. -/
def State.storeWords (s : State) (t : Thread) (va : Word) : List Byte → State
  | b0 :: b1 :: b2 :: b3 :: b4 :: b5 :: b6 :: b7 :: r =>
    match s.store t va 8 (wordOf [b0, b1, b2, b3, b4, b5, b6, b7]) with
    | .done s _ => s.storeWords t (va + 8) r
    | _ => s
  | _ => s

def execWsave (a : BitVec 5) (s : State) : Out :=
  let t := s.me
  let va := t.rd a
  if t.level = .user then s.wordTrap 0x02 t.pc.toNat
  else if !t.held then s.illegal
  else if t.wait = some .saved then (if s.writesOpen then s.stall else s.commit t)
  else if va.toNat % 256 ≠ 0 then s.wordTrap 0x11 va.toNat
  else if t.queue ≠ [] then s.stall
  else match s.rangeCheck t va (imageSize t.regBytes / 8) with
    | .inr (.trap s c x) => s.wordTrap c x
    | .inr (.wait s) => s.stall
    | .inr (.done s _) => s.stall
    | .inl s =>
      let s := (s.storeWords t va t.image).releaseLines
      if s.writesOpen then .next (s.setMe { s.me with stalled := true, wait := some .saved }) else s.commit s.me

/-! ## WLOAD (R207) -/

/-- Reads n doublewords as scalar loads into a list of bytes, last first. -/
def State.loadWords (s : State) (sl : Slot) (t : Thread) (va : Word) : Nat → List Byte → (State × List Byte) ⊕ Access
  | 0, acc => .inl (s, acc)
  | n + 1, acc =>
    match s.load sl t va 8 with
    | .trap s c a => .inr (.trap s c a)
    | .wait s => .inr (.wait s)
    | .done s v => s.loadWords sl t (va + 8) n ((leBytes 8 v.toNat).reverse ++ acc)

/-- n bytes of an image from an offset as a number. -/
def imgNat (img : Array Byte) (off : Nat) : Nat → Nat
  | 0 => 0
  | n + 1 => (img[off]?.getD 0).toNat + 256 * imgNat img (off + 1) n

/-- Every byte of a range is zero. -/
def imgZero (img : Array Byte) (off n : Nat) : Bool := (List.range n).all (fun i => img[off + i]?.getD 0 == 0)

/-- Bit i of a bit list at an offset, and the tag code of element i. -/
def imgBit (img : Array Byte) (off i : Nat) : Bool := (img[off + i / 8]?.getD 0).getLsbD (i % 8)
def imgTag (img : Array Byte) (off i : Nat) : Nat := (img[off + i / 4]?.getD 0).toNat / 4 ^ (i % 4) % 4

/-- A register field read back. -/
def vField (b : Nat) : Option (Fin 128) := if b / 128 % 2 = 1 then some (Fin.ofNat 128 (b % 128)) else none
def mField (b : Nat) : Option (Fin 48) := if b / 128 % 2 = 1 then some (Fin.ofNat 48 (b % 64)) else none

/-- Vector register p of an image. -/
def imgVreg (img : Array Byte) (c p : Nat) : VReg :=
  let wlog := (img[0x760 + p / 4]?.getD 0).toNat / 4 ^ (p % 4) % 4
  let w := 2 ^ wlog
  let base := 0x800 + p * (5 * c / 4)
  let el (i : Nat) : Elem := match imgTag img (base + c) i with
    | 0 => .absent
    | 2 => .void
    | _ => .present (BitVec.ofNat 64 (imgNat img (base + i * w) w))
  { wlog := wlog, rest := .present 0
    cells := ((List.range (c / w)).map (fun i => (i, el i))).filter (fun x => x.2 != .present 0) }

def imgPreg (img : Array Byte) (c p : Nat) : PReg :=
  let base := 0x800 + 160 * c + p * (3 * c / 8)
  let el (i : Nat) : PBit := match imgTag img (base + c / 8) i with
    | 0 => .absent
    | 2 => .void
    | _ => .present (imgBit img base i)
  { rest := .present false
    cells := ((List.range c).map (fun i => (i, el i))).filter (fun x => x.2 != .present false) }

/-- The elements of every register have a tag code other than 11. -/
def imgTagsOk (img : Array Byte) (c : Nat) : Bool :=
  (List.range 128).all (fun p =>
    let w := 2 ^ ((img[0x760 + p / 4]?.getD 0).toNat / 4 ^ (p % 4) % 4)
    (List.range (c / w)).all (fun i => imgTag img (0x800 + p * (5 * c / 4) + c) i != 3)) &&
  (List.range 48).all (fun p => (List.range c).all (fun i => imgTag img (0x800 + 160 * c + p * (3 * c / 8) + c / 8) i != 3))

/-- The RO fields of the header and the name maps (R202, R207). -/
def imgHeaderOk (img : Array Byte) (t : Thread) : Bool :=
  let h := imgNat img 0 8
  let vs := (List.range 32).map (fun n => imgNat img (0x700 + 2 * n) 2)
  let ms := (List.range 16).map (fun n => imgNat img (0x740 + n) 1)
  decide (h % 256 = 3 ∧ h / 2 ^ 8 % 32 ≤ 24 ∧ h / 2 ^ 13 % 8 = 0 ∧ h / 2 ^ 16 % 128 = t.cfg.lalive.toNat ∧ h / 2 ^ 23 % 2 = 0 ∧
    h / 2 ^ 24 % 4 = t.cfg.qcur.toNat ∧ h / 2 ^ 26 = 0 ∧ imgNat img 0x30 8 = imageSize t.regBytes) &&
  imgZero img 0x38 200 && imgZero img (0x100 + 64 * (h / 2 ^ 8 % 32)) (64 * (24 - h / 2 ^ 8 % 32)) &&
  vs.all (fun x => decide (x / 128 % 2 = 0 ∧ x / 256 % 16 < 14 ∧ x / 4096 = 0)) && decide (vs.map (· % 128)).Nodup &&
  ms.all (fun x => decide (x < 48)) && decide ms.Nodup && imgZero img 0x750 16 && imgZero img 0x780 128

/-- The reserved bits and register numbers of rule entry k. -/
def imgRuleOk (img : Array Byte) (k : Nat) : Bool :=
  let b := 0x100 + 64 * k
  let w0 := imgNat img b 8
  let w1 := imgNat img (b + 8) 8
  decide (w0 / 2 ^ 34 % 64 = 0 ∧ w1 / 2 ^ 23 % 2 ^ 25 = 0 ∧ w1 / 2 ^ 52 = 0) &&
  (List.range 6).all (fun j => let x := imgNat img (b + 0x29 + j) 1
                              decide (x / 64 % 2 = 0) && (x < 128 || decide (x % 64 < 48))) &&
  imgZero img (b + 0x2F) 17

/-- The tag a rule captured for a name: the image holds none, so it is the name's tag where the register has its width, else the signed
integer tag of the register's width (assumption 17). -/
def imgTagFor (v : Vec) (r : BitVec 5) (p : Option (Fin 128)) : Tag :=
  let g := v.tag r
  match p with
  | none => g
  | some p =>
    let w := (v.vreg p).wlog
    if g.wlog = w then g else match w with | 0 => .i8 | 1 => .i16 | 2 => .i32 | _ => .i64

/-- What a rule entry of an image says of a rule is what it would say of q: the rule is q, which has been held all along, and keeps what it
captured and an entry does not hold (R177, assumption 17). -/
def Rule.isEntryOf (r q : Rule) : Bool :=
  { r with rid := q.rid, vle := q.vle, td := q.td, ta := q.ta, tb := q.tb, done := q.done, faults := q.faults, flight := q.flight
           count := q.count, mark := q.mark, post := q.post, tiles := q.tiles } == q

/-- A resync of a loaded image has not been resolved: it is the youngest rule and its mask bits are not all there, its walk has not ended, or
element 0 of a fault-only-first load is still to be performed. `vl` is the VL that follows the rule: a walk that has found nothing leaves 0 (R8,
R142, R336; assumption 17). -/
def Rule.imgMark (r : Rule) (t : Thread) (last : Bool) (vl : Nat) : Bool :=
  match r.spec.kind with
  | .compress => last && (List.range r.vle).any (fun j => t.vec.bit r.pb j == .absent)
  | .cwalk _ => r.done == 0 && vl != 0
  | .mem m => m.mode = .faultFirst && (!r.isDone 0 || (last && (List.range r.vle).any (fun j => gov t.vec r j == .wait)))
  | _ => false

/-- Rule k of an image, on a thread whose vector side is the image's. -/
def imgRule (img : Array Byte) (t : Thread) (k n : Nat) (i : Instr) : Rule :=
  let b := 0x100 + 64 * k
  let c := t.regBytes
  let w0 := imgNat img b 8
  let w1 := imgNat img (b + 8) 8
  let v (j : Nat) : Option (Fin 128) := vField (imgNat img (b + 0x20 + j) 1)
  let m (j : Nat) : Option (Fin 48) := mField (imgNat img (b + 0x28 + j) 1)
  let sp := (ruleSpec i).getD { mask := 0, kind := .vpf }
  let done : BitVec 8192 := match i with
    | .setfib _ _ _ _ _ => BitVec.allOnes 8192
    | _ => BitVec.ofNat 8192 (imgNat img (0x800 + 178 * c + k * (c / 8)) (c / 8))
  let after := if k + 1 = n then imgNat img 8 2 else imgNat img (b + 0x48) 2
  let r0 := t.rule i sp
  let srcTag (x : Src) (p : Option (Fin 128)) (g : Tag) : Tag := match x with | .v r | .pair r => imgTagFor t.vec r p | _ => g
  let ta := srcTag sp.a (v 2) r0.ta
  let td := match sp.vdests with | d :: _ => imgTagFor t.vec d (v 0) | [] => srcTag sp.x (v 6) r0.td
  let tb := match sp.b with | .s _ => ta | x => srcTag x (v 4) r0.tb
  let vl : BitVec 16 := BitVec.ofNat 16 (w1 % 2 ^ 16)
  let fit := { t with cfg := { t.cfg with vl := vl }
                      vec := { t.vec with vtag := Vector.ofFn (fun q =>
                        if sp.vdests.contains (BitVec.ofFin q) then td
                        else if sp.a.regs.contains (BitVec.ofFin q) then ta
                        else if sp.b.regs.contains (BitVec.ofFin q) then tb else t.vec.vtag.get q) } }
  let faults := if w0 / 2 ^ 32 % 2 = 1 then [{ elem := w0 / 2 ^ 48 % 2 ^ 16, cause := BitVec.ofNat 8 (w0 / 2 ^ 40), addr := 0 }] else []
  let ops : Word × Word := (BitVec.ofNat 64 (imgNat img (b + 0x10) 8), BitVec.ofNat 64 (imgNat img (b + 0x18) 8))
  let ops := if r0.onlySb then (ops.2, ops.1) else ops
  let r := { r0 with
    rid := t.count + k
    vl := vl, segsel := BitVec.ofNat 4 (w1 / 2 ^ 16), frm := BitVec.ofNat 3 (w1 / 2 ^ 20), msel := BitVec.ofNat 4 (w1 / 2 ^ 48)
    vle := match ruleSpec i with | some sp => sp.vle fit | none => 0
    opa := ops.1, opb := ops.2
    td := td, ta := ta, tb := tb
    d0 := v 0, d1 := v 1, a0 := v 2, a1 := v 3, b0 := v 4, b1 := v 5, x0 := v 6, old0 := v 7
    old1 := vField (imgNat img (b + 0x28) 1), mp := m 1, sp := m 2, pd := m 3, pold := m 4, pa := m 5, pb := m 6
    done := done, faults := faults, flight := [] }
  match t.vec.window[k]? with
  | some q => if r.isEntryOf q then { q with done := done, faults := faults, flight := [] } else { r with mark := r.imgMark t (k + 1 == n) after }
  | none => { r with mark := r.imgMark t (k + 1 == n) after }

/-- The rule is a VPF. -/
def Rule.isVpf (r : Rule) : Bool := match r.instr with | .vpf _ _ => true | _ => false

/-- A done element of a rule that allocates a register, m0 of an indexed access among them, is not ABSENT (R203). A VPF's entry names no
destination, and a SETFIB's bits that are still to come are not done (R248). -/
def Rule.agrees (r : Rule) (t : Thread) : Bool :=
  let sp := r.spec
  (match r.instr with
   | .vpf _ _ | .setfib _ _ _ _ _ => true
   | _ => (List.range (r.size sp t)).all (fun i => !r.isDone i ||
       ((vCarry r sp t i).all (fun c => match c.dst with | some p => (t.vec.vreg p).get c.pos != .absent | none => true) &&
        (r.pd.isNone || t.vlmax 0 ≤ i || t.vec.bit r.pd i != .absent))))

/-- The write-set of a VPF of an image: the number of its rule, VSET and MSET. -/
structure ImgSet where
  rid  : Nat
  vset : BitVec 32
  mset : BitVec 16

def ImgSet.vs (h : ImgSet) : List (Fin 32) := (List.finRange 32).filter (fun n => h.vset.getLsbD n.val)
def ImgSet.ms (h : ImgSet) : List (Fin 16) := (List.finRange 16).filter (fun n => h.mset.getLsbD n.val)

/-- Name maps under way back: a register that no entry names any more is none. -/
abbrev ImgMaps := Vector (Option (Fin 128)) 32 × Vector (Option (Fin 48)) 16

/-- Name maps with the renaming of one rule undone, by its carry sources (R248). -/
def Rule.undo (hs : List ImgSet) (r : Rule) (maps : ImgMaps) : ImgMaps :=
  match hs.find? (fun h => h.rid == r.rid) with
  | some h =>
    ((h.vs.zip [r.d0, r.d1, r.a0, r.a1, r.b0, r.b1, r.x0, r.old0]).foldl (fun m q => m.set q.1 q.2) maps.1,
     (h.ms.zip [r.mp, r.sp, r.pd, r.pold]).foldl (fun m q => m.set q.1 q.2) maps.2)
  | none =>
    let vs : List (BitVec 5) := match r.instr with | .vtag d _ => [d] | _ => r.spec.vdests
    let ms : List Nat := match r.instr with | .setfib _ _ _ _ k => [k.toNat] | _ => r.spec.pdests
    ((vs.zip [r.old0, r.old1]).foldl (fun m q => m.set q.1.toFin q.2) maps.1,
     (ms.zip [r.pold]).foldl (fun m q => m.setIfInBounds q.1 q.2) maps.2)

/-- The VPF of a rule of a loaded image with the write-set of its header, which is read again: its name map is walked back through the younger
rules, and every VP not done stands at the block's first instruction. The flag says that the VPF is complete: only then has a register of its
write-set been freed (R189, R247, R248). -/
def Thread.imgVpf (t : Thread) (hs : List ImgSet) (h : ImgSet) (r : Rule) : Vpf × Bool :=
  let younger := (t.vec.window.dropWhile (fun q => q.rid != r.rid)).drop 1
  let maps := younger.foldr (Rule.undo hs) (t.vec.vmap.map some, t.vec.mmap.map some)
  let whole := h.vs.any (fun n => (maps.1.get n).isNone) || h.ms.any (fun n => (maps.2.get n).isNone)
  let tags : Vector Tag 32 := Vector.ofFn (fun n => imgTagFor t.vec (BitVec.ofFin n) (maps.1.get n))
  let u := { t with vec := { t.vec with vtag := tags } }
  ({ rid := r.rid, header := r.opa, vset := h.vset, mset := h.mset
     vmap := maps.1.map (fun p => p.getD 0), vtag := tags, mmap := maps.2.map (fun p => p.getD 0)
     vps := if whole then [] else ((List.range (u.vpfLength r.vl.toNat r.msel h.vset h.mset)).filter (fun i => !r.isDone i)).map (fun i =>
       { idx := i, pc := r.opa + 8, count := 0, cells := [] }) }, whole)

/-- The numbers of the rule entries of an image that hold a VPF. -/
def imgVpfEntries (img : Array Byte) : List Nat :=
  (List.range (imgNat img 0 8 / 2 ^ 8 % 32)).filter (fun k =>
    match decode (BitVec.ofNat 32 (imgNat img (0x100 + 64 * k) 4)) with | .ok (.vpf _ _) => true | _ => false)

/-- Reads the headers of the VPFs of an image, by their entries; a header that cannot be fetched or is not legal leaves its write-set open, a free
value (R207 names no check of it; assumption 17). None stands for a fetch that waits. -/
def State.imgHeaders (s : State) (t : Thread) (img : Array Byte) : List Nat → State × Option (List (BitVec 32 × BitVec 32))
  | [] => (s, some [])
  | k :: r =>
    let go (s : State) (vset hi : BitVec 32) : State × Option (List (BitVec 32 × BitVec 32)) :=
      match s.imgHeaders t img r with
      | (s, some l) => (s, some ((vset, hi) :: l))
      | (s, none) => (s, none)
    let free : BitVec 64 := Config.freeValue s.fresh
    let any := go { s with fresh := s.fresh + 1 } (free.setWidth 32) (((free >>> 32).setWidth 16).setWidth 32)
    match s.readHeader { t with level := .user } (BitVec.ofNat 64 (imgNat img (0x110 + 64 * k) 8)) with
    | .ok s vset hi => if headerOk vset hi then go s vset hi else any
    | .wait s => (s, none)
    | .trap _ _ _ => any

/-! ### Masks that SETFIBs have left unwhole (R132)

An image has no entry for a SETFIB outside a VPF. A register with ABSENT bits that no rule writes is such a mask; the bits come from the rule that
wrote its name before. -/

/-- The predicate registers that a rule of an image names, each with the m name that it stood for. -/
def Rule.maskUses (hs : List ImgSet) (r : Rule) : List (Fin 48 × Nat) :=
  let use (p : Option (Fin 48)) (k : Nat) : List (Fin 48 × Nat) := p.toList.map (fun q => (q, k))
  let src (x : Src) (p : Option (Fin 48)) : List (Fin 48 × Nat) := match x with | .m k => use p k | _ => []
  match hs.find? (fun h => h.rid == r.rid), r.instr with
  | some h, _ => ([r.mp, r.sp, r.pd, r.pold].zip h.ms).flatMap (fun q => use q.1 q.2.val) ++ use r.pa r.msel.toNat
  | none, .setfib _ _ _ _ k => use r.pold k.toNat ++ use r.pd k.toNat
  | none, _ =>
    let sp := r.spec
    use r.mp r.msel.toNat ++ use r.sp r.segsel.toNat ++ (sp.pdests.take 1).flatMap (use r.pold) ++ src sp.a r.pa ++ src sp.b r.pb

/-- The m names that a rule of an image writes, but for a SETFIB's, with the registers. -/
def Rule.maskWrites (fs : List Vpf) (r : Rule) : List (Nat × Fin 48) :=
  match fs.find? (fun f => f.rid == r.rid), r.instr with
  | some f, _ => (msetNames f).map (fun n => (n.val, f.mmap.get n))
  | none, .setfib _ _ _ _ _ => []
  | none, _ => (r.spec.pdests.take 1).flatMap (fun k => r.pd.toList.map (fun p => (k, p)))

/-- What the SETFIBs of a loaded image are still to carry. -/
def Thread.imgSegs (t : Thread) (hs : List ImgSet) (fs : List Vpf) : List SegCarry :=
  let rules := t.vec.window
  let uses : List (Nat × Fin 48 × Nat) :=
    ((List.range rules.length).zip rules).flatMap (fun x => (x.2.maskUses hs).map (fun u => (x.1, u.1, u.2))) ++
      (List.finRange 16).map (fun k => (rules.length, t.vec.mmap.get k, k.val))
  let owned (q : Fin 48) : Bool := rules.any (fun r => (r.maskWrites fs).any (fun w => w.2 == q))
  (uses.filter (fun u => !owned u.2.1 && !(t.vec.preg u.2.1).full (t.vlmax 0))).foldl (fun (l : List SegCarry) u =>
    if l.any (fun c => c.pd == u.2.1) then l
    else match (rules.take u.1).reverse.findSome? (fun r => (r.maskWrites fs).find? (fun w => w.1 == u.2.2)) with
      | some w => l ++ [{ age := t.count + l.length, pd := u.2.1, pold := w.2 }]
      | none => l) []

/-- The count of the word that set VL last, as far as an image tells: it stands after every rule that captured another VL (assumption 17). -/
def imgVlSet (rules : List Rule) (vl : Nat) : Nat :=
  rules.foldl (fun a r => if r.vl.toNat = vl then a else max a (r.rid + 1)) 0

/-- The thread with the image in place of the held one, if every check passes (R207). No check names FRM: a value of 5 to 7 in VSW or CAP is
installed, and rounds as mode 4 (assumption 89). -/
def Thread.install (t : Thread) (img : Array Byte) (heads : List (BitVec 32 × BitVec 32)) : Option Thread :=
  let c := t.regBytes
  let n := imgNat img 0 8 / 2 ^ 8 % 32
  let words := (List.range n).map (fun k => decode (BitVec.ofNat 32 (imgNat img (0x100 + 64 * k) 4)))
  let instrs := words.filterMap (fun w => match w with | .ok i => some i | .error _ => none)
  if !imgHeaderOk img t || !imgTagsOk img c || !(List.range n).all (imgRuleOk img) || instrs.length ≠ n then none
  else
    let v0 : Vec :=
      { t.vec with
        vmap := Vector.ofFn (fun q => Fin.ofNat 128 (imgNat img (0x700 + 2 * q.val) 1))
        vtag := Vector.ofFn (fun q => (Tag.ofCode (imgNat img (0x700 + 2 * q.val) 2 / 2 ^ 8 % 16)).getD .i64)
        mmap := Vector.ofFn (fun q => Fin.ofNat 48 (imgNat img (0x740 + q.val) 1))
        vregs := Vector.ofFn (fun p => imgVreg img c p.val), pregs := Vector.ofFn (fun p => imgPreg img c p.val) }
    let u := { t with vec := v0 }
    let rules := ((List.range n).zip instrs).map (fun p => imgRule img u p.1 n p.2)
    let v := { v0 with
      window := rules
      vfree := (List.finRange 128).filter (fun p => !v0.vmap.toList.contains p && !rules.any (fun r => r.vrefs.contains p))
      pfree := (List.finRange 48).filter (fun p => !v0.mmap.toList.contains p && !rules.any (fun r => r.prefs.contains p)) }
    let us (k : Nat) : Word := BitVec.ofNat 64 (imgNat img (0x18 + 8 * k) 8)
    let t1 := { u with
      vec := v, count := t.count + 24
      vlSet := if rules.length = t.vec.window.length && rules.all (fun r => r.rid < t.count) then t.vlSet else imgVlSet rules (imgNat img 8 2)
      sregs := ((t.sregs.set 29 (us 0)).set 30 (us 1)).set 31 (us 2)
      vsw := BitVec.ofNat 64 (imgNat img 8 8) }
    if !rules.all (fun r => r.agrees t1) then none
    else
      let vr := rules.filter Rule.isVpf
      let hs : List ImgSet := (vr.zip heads).map (fun x => { rid := x.1.rid, vset := x.2.1, mset := x.2.2.setWidth 16 })
      let fs := (vr.zip hs).map (fun x => (x.1, t1.imgVpf hs x.2 x.1))
      let t2 := fs.foldl (fun (t : Thread) x =>
        let u := { t1 with vec := { t1.vec with vtag := x.2.1.vtag } }
        { t with vec := t.vec.setRule { x.1 with vle := u.vpfLength x.1.vl.toNat x.1.msel x.2.1.vset x.2.1.mset
                                                 count := if x.2.2 then 1 else x.1.count } }) t1
      let vs := fs.map (fun x => x.2.1)
      some { t2 with vpf := vs.getLast?, vpfDone := vs.dropLast, segCarry := t2.imgSegs hs vs, count := t2.count + 48 }

/-- The queued MRDs of a slot whose rules a new image holds are read for those rules, each by the first that names its row and has not read it
(R259). -/
def State.relinkMrd (s : State) (sl : Slot) (old new : List Rule) : State :=
  let gone (rid : Nat) : Bool := !old.any (fun r => r.rid == rid) && !new.any (fun r => r.rid == rid)
  let step := fun (q : List MatCmd) (r : Rule) =>
    match r.spec.kind with
    | .mrd a =>
      if q.any (fun c => c.isMrd sl r.rid) || (List.range r.vle).all r.isDone then q
      else
        let hit (c : MatCmd) : Bool := match c.op with | .mrd b row k rid => b == a && row == r.opa.toNat && k == sl && c.done == 0 && gone rid | _ => false
        (match q.findIdx? hit with
         | some i => q.modify i (fun c => { c with op := .mrd a r.opa.toNat sl r.rid })
         | none => q)
    | _ => q
  { s with matQ := new.foldl step s.matQ }

def execWload (a : BitVec 5) (s : State) : Out :=
  let t := s.me
  let va := t.rd a
  if t.level = .user then s.wordTrap 0x02 t.pc.toNat
  else if !t.held then s.illegal
  else if va.toNat % 256 ≠ 0 then s.wordTrap 0x11 va.toNat
  else match s.loadWords s.cur t va (imageSize t.regBytes / 8) [] with
    | .inr (.trap s c x) => s.wordTrap c x
    | .inr (.wait s) => s.stall
    | .inr (.done s _) => s.stall
    | .inl (s, bs) =>
      let img := bs.reverse.toArray
      match s.imgHeaders s.me img (imgVpfEntries img) with
      | (s, none) => s.stall
      | (s, some heads) =>
        match s.me.install img heads with
        | some u => (s.relinkMrd s.cur s.me.vec.window u.vec.window).commit u
        | none => s.wordTrap 0x04 t.pc.toNat

end Sys2Proof.Machine
end

