-- ==== Sys2Proof/Machine/Matrix.lean ====
section
/-! DEFINITION. The matrix engine: panel configuration, the MAT instructions, and the matrix queue that serves their commands in post
order (spec/17 R298 to R302; spec/18 R326 to R333; spec/04 R67, R68). -/

namespace Sys2Proof.Machine

/-! ## Panel configuration (R298, R327) -/

/-- Greatest K of a format pair, and the multiple K must be of; none for a pair outside R298. -/
def panelLimit (af bf : Nat) : Option (Nat × Nat) :=
  if af = 0 then
    (if bf = 0 then some (256, 1)
     else if 8 ≤ bf then some (256 * (8 / bpnPlanes bf), 64)
     else none)
  else if bf = 0 || 8 ≤ bf then none
  else if af = 3 || bf = 3 then some (64, 1)
  else some (256, 1)

/-- The panel is within R298. -/
def Panel.ok (p : Panel) : Bool :=
  1 ≤ p.m && p.m ≤ 256 && 1 ≤ p.n && p.n ≤ 256 &&
  (match panelLimit p.af p.bf with
   | some (top, mult) => 1 ≤ p.k && p.k ≤ top && p.k % mult = 0
   | none => false)

/-- Accumulator format of a panel (R327). -/
def Panel.acc (p : Panel) : AccFmt := if p.af = 0 then .int32 else .fp32

/-- The panel configuration of the slot at pc. -/
def State.panel (s : State) : Panel := s.panels.get s.cur

/-- MCFG (R327). -/
def execMcfg (m n k : BitVec 5) (a : BitVec 2) (b : BitVec 4) (s : State) : Out :=
  s.engineWord (fun s =>
    let t := s.me
    let p : Panel := { m := (t.rd m).toNat, n := (t.rd n).toNat, k := (t.rd k).toNat, af := a.toNat, bf := b.toNat }
    if !p.ok then s.wordTrap 0x04 t.pc.toNat
    else State.commit { s with panels := s.panels.set s.cur p } t)

/-! ## Posts to the matrix queue (R285, R300, R309, R326) -/

/-- The matrix queue has room (R285). -/
def State.matRoom (s : State) : Bool := s.matQ.length < 64

/-- Enters a command of the thread at pc in the matrix queue. -/
def State.addMat (s : State) (op : MatOp) : State :=
  let t := s.me
  { s with seq := s.seq + 1
           matQ := s.matQ ++ [{ seq := s.seq, slot := s.cur, party := t.party, ptidx := t.cfg.ptidx.toNat, op := op }] }

def State.accFmtOf (s : State) (a : BitVec 2) : AccFmt := s.accFmt.get a.toFin

/-- The accumulator is reserved, else the word is a bad state (R273). -/
def State.accWord (s : State) (a : BitVec 2) (go : State → Out) : Out :=
  s.engineWord (fun s => if s.accsOf s.me ≤ a.toNat then s.wordTrap 0x04 s.me.pc.toNat else go s)

/-- MZERO; its post runs a release step (R328, R349). -/
def execMzero (a : BitVec 2) (s : State) : Out :=
  s.accWord a (fun s =>
    if !s.matRoom then s.stall
    else
      let s := s.releaseLines
      let f := s.panel.acc
      let s := { s.addMat (.mzero a.toNat f) with accFmt := s.accFmt.set a.toFin f }
      s.commit s.me)

/-- Offset of an address as a scratchpad address; an address outside the window lies beyond every tile (R294). -/
def panelOff (x : Word) : Nat := if inWindow x.toNat then x.toNat - winBase else 2 ^ 24 + x.toNat

/-- MMA (R329). -/
def execMma (c : BitVec 2) (x y : BitVec 5) (s : State) : Out :=
  s.accWord c (fun s =>
    let t := s.me
    let p := s.panel
    let f := s.accFmtOf c
    if f ≠ .unset && f ≠ p.acc then s.wordTrap 0x04 t.pc.toNat
    else
      let op : MatOp := .mma c.toNat (panelOff (t.rd x)) (panelOff (t.rd y)) p
      s.post s.matRoom 0 op.reads
        [(t.rd x, panelWidth p.af), (t.rd y, if p.bf < 8 then panelWidth p.bf else 64)]
        (fun s => { s.addMat op with accFmt := s.accFmt.set c.toFin p.acc }))

/-- MST (R331). -/
def execMst (c : BitVec 2) (x : BitVec 5) (f : BitVec 3) (s : State) : Out :=
  s.accWord c (fun s =>
    let t := s.me
    let op : MatOp := .mst c.toNat (panelOff (t.rd x)) f.toNat s.panel (s.accFmtOf c)
    s.post s.matRoom 0 op.writes [(t.rd x, mstWidth f.toNat)] (fun s => s.addMat op))

/-- MMAV (R302, R332): it takes a command slot at its post, and its stream when the matrix queue has served it; a refused post is a MAT
command's (R309). -/
def execMmav (g h : BitVec 5) (str : BitVec 4) (s : State) : Out :=
  s.engineWord (fun s =>
    let t := s.me
    let rows := (t.grp h 0).toNat
    let n := (t.grp h 1).toNat
    let k := (t.grp h 2).toNat
    let x := t.grp g 0
    let y := t.grp g 2
    if rows = 0 || 2 ^ 20 < rows || n = 0 || n % 2048 ≠ 0 || 2 ^ 20 < n || k < 2 || 8 < k then s.wordTrap 0x04 t.pc.toNat
    else
      let kind : CmdKind := .mmav x (t.grp g 1) y rows n k
      s.post (s.matRoom && s.cmdRoom) 0 [(panelOff x, n), (panelOff y, 4 * rows)] [(t.grp g 1, 2048), (y, 4)]
        (fun s =>
          let q := s.seq
          (s.addCmd str.toNat kind (t.grp g 3) 1 none .queued).addMat (.mmav q)))

/-- MRD: a rule that is also posted to the matrix queue; its post runs a release step (R330, R349). -/
def execMrd (c : BitVec 2) (d q : BitVec 5) (m : BitVec 4) (s : State) : Out :=
  s.accWord c (fun s =>
    let t := s.me
    let i : Instr := .mrd c d q m
    if 256 < (t.rd q).toNat then s.wordTrap 0x04 t.pc.toNat
    else match ruleSpec i with
      | none => s.illegal
      | some sp =>
        if !t.entryFree || !s.matRoom then s.stall
        else if !t.poolHas sp.vdests.length sp.pdests.length then s.stallPool
        else
          let s := s.releaseLines
          let t' := t.issue i sp
          let t' := match t'.lastRule with
            | some r => { t' with vec := { t'.vec with window := t.vec.window ++ [{ r with count := (s.accFmtOf c).code }] } }
            | none => t'
          (s.addMat (.mrd c.toNat (t.rd q).toNat s.cur t.count)).commit t')

/-! ## What a panel holds (R299, R333) -/

/-- Some byte of a panel element cannot be corrected. -/
def State.spLost (s : State) (off n : Nat) : Bool := s.spPoison.any (fun p => off ≤ p && p < off + n)

/-- The float format of a panel code (R327). -/
def panelFmt (code : Nat) : Fmt := if code = 1 then .e4m3 else if code = 2 then .e5m2 else .bf16

/-- An INT8 element at an offset. -/
def State.panelInt (s : State) (off : Nat) : Int :=
  if s.spLost off 1 then 0 else Tag.i8.toInt (Memory.get s.sp off).toNat

/-- A floating element at an offset. -/
def State.panelFlt (s : State) (code off : Nat) : FVal :=
  let w := panelWidth code
  if s.spLost off w then .nan false else (panelFmt code).decode (leNat (Memory.getList s.sp off w))

/-- Element (k, n) of a BPN panel B at y (R66, R299). -/
def State.panelBpn (s : State) (y : Nat) (p : Panel) (k n : Nat) : Int :=
  let row := y + n * p.k
  let planes := bpnPlanes p.bf
  let byteAt (q : Nat) : Nat := row + q * (p.k / 8) + k / 8
  if (List.range planes).any (fun q => s.spLost (byteAt q) 1) then 0
  else Tag.i8.toInt ((List.range planes).foldl (fun a q =>
    a + (if (Memory.get s.sp (byteAt q)).getLsbD (k % 8) then 2 ^ (7 - q) else 0)) 0)

/-- The integer product of A row m and B column n at index k. -/
def State.intProduct (s : State) (x y : Nat) (p : Panel) (m n k : Nat) : Int :=
  s.panelInt (x + m * p.k + k) * (if p.bf = 0 then s.panelInt (y + k * p.n + n) else s.panelBpn y p k n)

/-- The floating product of A row m and B column n at index k. -/
def State.fltProduct (s : State) (x y : Nat) (p : Panel) (m n k : Nat) : FVal :=
  mulVal (s.panelFlt p.af (x + (m * p.k + k) * panelWidth p.af)) (s.panelFlt p.bf (y + (k * p.n + n) * panelWidth p.bf))

/-- The K indices of group g of a panel (R67). -/
def kGroup (k g : Nat) : List Nat := (List.range (min 16 (k - 16 * g))).map (fun i => 16 * g + i)

/-- An INT32 accumulator element after one K-group, and whether the clamp changed the value (R68). -/
def intGroup (acc : Int) (ps : List Int) : Int × Bool :=
  let r := Tag.i32.clamp (ps.foldl (· + ·) acc)
  (Tag.i32.toInt r.bits, r.vs != 0)

/-- An FP32 accumulator element after one K-group (R67). -/
def fltGroup (acc : Nat) (ps : List FVal) : Nat := ((exactSum (Fmt.f32.decode acc :: ps)).round .f32 0).bits

/-! ## The accumulators -/

/-- Key of an element of an accumulator. -/
def accKey (a row col : Nat) : Nat := a * 65536 + row * 256 + col

/-- Writes an element of an accumulator; data that could not be corrected is replaced. -/
def State.accPut (s : State) (a row col : Nat) (v : BitVec 32) : State :=
  { s with acc := Cells.set 0 s.acc (accKey a row col) v, accPoison := s.accPoison.filter (fun p => p != accKey a row col) }

/-- Sets the sticky saturation bit of an accumulator. -/
def State.accSaturate (s : State) (a : Nat) (b : Bool) : State :=
  if b then { s with accSat := s.accSat.setIfInBounds a true } else s

/-- One element of an accumulator after one K-group of an MMA (R329, R333). -/
def State.mmaElem (s : State) (a x y : Nat) (p : Panel) (m g n : Nat) : State :=
  let lost := s.accLost a m n
  let old := (s.accGet a m n).toNat
  match p.acc with
  | .fp32 =>
    s.accPut a m n (BitVec.ofNat 32 (fltGroup (if lost then Fmt.f32.nanCode else old) ((kGroup p.k g).map (s.fltProduct x y p m n))))
  | _ =>
    let (v, sat) := intGroup (if lost then 0 else Tag.i32.toInt old) ((kGroup p.k g).map (s.intProduct x y p m n))
    (s.accPut a m n (BitVec.ofInt 32 v)).accSaturate a sat

/-- The positions (m, n) of a panel. -/
def Panel.cells (p : Panel) : List (Nat × Nat) := (List.range p.m).flatMap (fun m => (List.range p.n).map (fun n => (m, n)))

/-- One event of data that cannot be corrected is counted (R333). -/
def State.countLost (s : State) (l : Bool) : State := if l then s.addUe else s

/-- An MMA goes on with K-group `done` and those after it, up to a number of them, while the rows that they read are there; the result is how many
are summed, and whether one met data that cannot be corrected (R67, R293, R329, R333). -/
def State.mmaGo (s : State) (seq a x y : Nat) (p : Panel) (lost : Bool) : Nat → Nat → State × Nat × Bool
  | 0, done => (s, done, lost)
  | n + 1, done =>
    let m := done / p.groups
    let g := done % p.groups
    let reads := p.groupReads x y m g
    if s.rangeHeld seq reads [] then (s, done, lost)
    else
      let bad := reads.any (fun e => s.spLost e.1 e.2) || (List.range p.n).any (fun c => s.accLost a m c)
      State.mmaGo ((List.range p.n).foldl (fun s c => s.mmaElem a x y p m g c) s) seq a x y p (lost || bad) n (done + 1)

/-- An MZERO command (R328). -/
def State.doMzero (s : State) (a : Nat) : State :=
  { s with acc := Cells.clear s.acc (a * 65536) 65536
           accPoison := s.accPoison.filter (fun k => k < a * 65536 || (a + 1) * 65536 ≤ k)
           accSat := s.accSat.setIfInBounds a false }

/-- Tag of an MST format (R331). -/
def mstTag (f : Nat) : Tag := listGet .i8 [.f32, .bf16, .e4m3, .e5m2, .i32, .i16, .i8] f

/-- The pattern an MST writes for an element, and whether it sets the sticky saturation bit (R331). -/
def mstConvert (f : Nat) (af : AccFmt) (bits : Nat) : Nat × Bool :=
  let v := (if af = .fp32 then Tag.f32 else Tag.i32).value bits
  let r := v.toTag (mstTag f) 0
  let nan := match v with | .flt (.nan _) => !(mstTag f).isFloat | _ => false
  (r.bits, r.vs != 0 || nan)

/-- An MST command (R331, R333). -/
def State.doMst (s : State) (a x f : Nat) (p : Panel) (af : AccFmt) : State :=
  let w := mstWidth f
  let s' := p.cells.foldl (fun (now : State) c =>
    let lost := s.accLost a c.1 c.2
    let bits := if lost then (if af = .fp32 then Fmt.f32.nanCode else 0) else (s.accGet a c.1 c.2).toNat
    let (b, sat) := mstConvert f af bits
    (now.putSpList (x + (c.1 * p.n + c.2) * w) (leBytes w b)).accSaturate a sat) s
  s'.countLost (p.cells.any (fun c => s.accLost a c.1 c.2))

/-! ## Service (R285, R301) -/

/-- The rule of an MRD has read every element; one that stands in no window, as another image is loaded, has not (R207, R259). -/
def State.mrdOver (s : State) (c : MatCmd) (sl : Slot) (rid : Nat) : Bool :=
  c.done == 1 ||
  (match (s.th sl).vec.window.find? (fun r => r.rid == rid) with
   | some r => (List.range r.vle).all (fun i => r.isDone i)
   | none => false)

/-- MATRIX_QUEUE_SERVE: the command at the head is performed once the range checker permits, and leaves the queue; of an MMA the rest of one row
is summed, or as much of it as the rows written so far allow (R285, R293, R301). -/
def State.matrixQueueServe (s : State) : Option State :=
  match s.matQ with
  | [] => none
  | c :: rest =>
    let pop (s : State) : State := { s with matQ := rest }
    match c.op with
    | .mzero a _ => some (pop (s.doMzero a))
    | .mma a x y p =>
      let (s', done, lost) := s.mmaGo c.seq a x y p c.lost (p.groups - c.done % p.groups) c.done
      if done = c.done then none
      else if done = p.m * p.groups then some (pop (s'.countLost lost))
      else some { s' with matQ := { c with done := done, lost := lost } :: rest }
    | .mst a x f p af => if s.rangeHeld c.seq [] c.op.writes then none else some (pop (s.doMst a x f p af))
    | .mrd _ _ sl rid => if s.mrdOver c sl rid then some (pop s) else none
    | .mmav q =>
      some (pop { s with cmds := s.cmds.map (fun d => if d.seq == q && d.st == .queued then { d with st := .posted } else d) })

end Sys2Proof.Machine
end

