-- ==== Sys2Proof/Machine/Maint.lean ====
section
/-! DEFINITION. Translation maintenance: SNAPR, TLBINV and PGPOOL (spec/21 R368 to R371). -/

namespace Sys2Proof.Machine

/-- Removes a context's held translations that touch a range; a length of 0 removes every one (R370). -/
def State.tlbInvalidate (s : State) (ctx : BitVec 12) (a n : Nat) : State :=
  { s with tlb := s.tlb.filter (fun t =>
      t.ctx != ctx || (n != 0 && (decide ((t.vpage + 1) * 2 ^ pageLog t.level ≤ a) || decide (a + n ≤ t.vpage * 2 ^ pageLog t.level)))) }

/-- Removes the words fetched for a context in a range; a length of 0 removes every one (R217, R370). -/
def State.wordsInvalidate (s : State) (ctx : BitVec 12) (a n : Nat) : State :=
  { s with words := s.words.filter (fun h => h.ctx != ctx || (n != 0 && (decide (h.va < a) || decide (a + n ≤ h.va)))) }

/-- The held translation maps a physical address. -/
def State.tlbMaps (s : State) (t : TlbEntry) (pa : Nat) : Bool :=
  let base := pteAddr t.pte / 2 ^ pageLog t.level * 2 ^ pageLog t.level
  let base := if pteHost t.pte then hostBase + base else s.canon base
  decide (base ≤ pa) && decide (pa < base + 2 ^ pageLog t.level)

/-- A range of a context's addresses touches another; a range of length 0 is every address (R370). -/
def inRange (a n va k : Nat) : Bool := n == 0 || (decide (va < a + n) && decide (a < va + k))

/-- An access that was translated through an entry which is removed has not performed: it awaits its reply, stands in the issue queue of either slot,
or is an element of a command that waits with its places (R208, R346, R370). -/
def State.removedOpen (s : State) (ctx : BitVec 12) (a n : Nat) : Bool :=
  s.reqs.any (fun q => q.open_ && s.tlb.any (fun t => !(s.tlbInvalidate ctx a n).tlb.contains t && s.tlbMaps t q.pa)) ||
  s.threads.toList.any (fun t => t.ctx == ctx && t.queue.any (fun q => q.locs != [] && inRange a n q.va q.locs.length)) ||
  s.cmds.any (fun c => c.ctx == ctx && c.ready.any (fun x => inRange a n x.va x.bytes.length))

/-- The leaf of page k of a range, when it is present. -/
def State.pageLeaf (s : State) (ctx : BitVec 12) (a k : Nat) : Option Leaf :=
  match s.walk ctx (a + k * 2 ^ 16) with
  | .leaf l => some l
  | .fault _ => none

/-- A range that SNAPR may mark (R369). -/
def State.snapRange (s : State) (ctx : BitVec 12) (a n : Nat) : Bool :=
  decide (a % 2 ^ 16 = 0 ∧ n % 2 ^ 16 = 0 ∧ a + n ≤ 2 ^ 56) && (decide (n = 0) || !(decide (a < winBase + 2 ^ 24) && decide (winBase < a + n))) &&
  (List.range (n / 2 ^ 16)).all (fun k => match s.pageLeaf ctx a k with | some l => l.level == 3 | none => true)

/-- SNAPR marks the leaf (R369). -/
def snapMarks (x : Bool) (e : Word) : Bool := !pteCow e && (pteW e || (x && pteX e))

/-- Marks every leaf of a range copy-on-write that is to be marked; with it, how many. -/
def State.snapMark (s : State) (ctx : BitVec 12) (x : Bool) (a pages : Nat) : State × Nat :=
  (List.range pages).foldl (fun (p : State × Nat) k =>
    match p.1.pageLeaf ctx a k with
    | none => p
    | some l =>
      if snapMarks x l.e then ((p.1.recall l.addr 8).putHomeNat l.addr 8 (l.e ||| 0x200#64).toNat, p.2 + 1) else p) (s, 0)

/-- SNAPR (R369): it waits for earlier accesses, for those of any thread that were translated through what it removes, and for page copies in
the range. -/
def State.snapr (s : State) (d a b : BitVec 5) (x : Bool) : Out :=
  let t := s.me
  let va := (t.rd a).toNat
  let n := (t.rd b).toNat
  if t.level = .user then s.wordTrap 0x02 t.pc.toNat
  else if !s.snapRange t.ctx va n then s.wordTrap 0x04 t.pc.toNat
  else if s.accessOpen s.cur || (n ≠ 0 && s.removedOpen t.ctx va n) then s.stall
  else
    let s := s.releaseLines
    if (List.range (n / 2 ^ 16)).any (fun k => match s.pageLeaf t.ctx va k with | some l => pteLock l.e | none => false) then s.stall
    else
      let (s, k) := s.snapMark t.ctx x va (n / 2 ^ 16)
      let s := if n = 0 then s else s.tlbInvalidate t.ctx va n
      s.commit (s.me.wr d (BitVec.ofNat 64 k))

def execSnapr (d a b : BitVec 5) (s : State) : Out := s.snapr d a b false
def execSnaprX (d a b : BitVec 5) (s : State) : Out := s.snapr d a b true

/-- TLBINV (R370): it waits for accesses that were translated through what it removes. -/
def execTlbinv (a b : BitVec 5) (s : State) : Out :=
  let t := s.me
  let va := (t.rd a).toNat
  let n := (t.rd b).toNat
  if t.level = .user then s.wordTrap 0x02 t.pc.toNat
  else if va % 2 ^ 16 ≠ 0 || n % 2 ^ 16 ≠ 0 then s.wordTrap 0x04 t.pc.toNat
  else if s.removedOpen t.ctx va n then s.stall
  else ((s.tlbInvalidate t.ctx va n).wordsInvalidate t.ctx va n).commit t

/-- Reads n doublewords as scalar loads, in order. -/
def State.loadList (s : State) (sl : Slot) (t : Thread) (va : Word) : Nat → (State × List Word) ⊕ Access
  | 0 => .inl (s, [])
  | n + 1 =>
    match s.load sl t va 8 with
    | .trap s c a => .inr (.trap s c a)
    | .wait s => .inr (.wait s)
    | .done s v =>
      match s.loadList sl t (va + 8) n with
      | .inl (s, l) => .inl (s, v :: l)
      | .inr x => .inr x

/-- Frames the pool may hold (R371). -/
def poolMax : Nat := 4096

/-- PGPOOL (R371). -/
def execPgpool (d a b : BitVec 5) (s : State) : Out :=
  let t := s.me
  let va := t.rd a
  let n := (t.rd b).toNat
  if t.level = .user then s.wordTrap 0x02 t.pc.toNat
  else if va.toNat % 8 ≠ 0 || poolMax < s.pool.length + n then s.wordTrap 0x04 t.pc.toNat
  else match s.loadList s.cur t va n with
    | .inr (.trap s c x) => s.wordTrap c x
    | .inr (.wait s) => s.stall
    | .inr (.done s _) => s.stall
    | .inl (s, fs) =>
      if fs.any (fun (f : Word) => f.toNat % 2 ^ 16 ≠ 0 || !s.isLocal (s.canon (f.toNat + 2 ^ 16 - 1))) then s.wordTrap 0x04 t.pc.toNat
      else
        let s := { s with pool := s.pool ++ fs.map (fun (f : Word) => s.canon f.toNat) }
        let n := s.pool.length
        let s := s.payOwed
        s.commit (s.me.wr d (BitVec.ofNat 64 n))

end Sys2Proof.Machine
end

