-- ==== Sys2Proof/Machine/Turnpike.lean ====
section
/-! DEFINITION. The Turnpike match-action chain: the PIKE instructions, records and their passes, spools and bank swaps (spec/22 R373;
spec/23 R375 to R388). -/

namespace Sys2Proof.Machine

/-! ## Configuration blocks (R375, R376) -/

/-- Bits lo to lo + n − 1 of a number. -/
def bitsOf (x lo n : Nat) : Nat := x / 2 ^ lo % 2 ^ n

/-- Bytes of a list of doublewords. -/
def wordBytes (l : List Word) : List Byte := l.flatMap (fun w => leBytes 8 w.toNat)

/-- Field f of a configuration block. -/
def pkField (b : List Byte) (f : Nat) : PkField :=
  let w := leNat ((b.drop (0x40 + 4 * f)).take 4)
  { off := bitsOf w 0 7, wlog := bitsOf w 7 2, sgn := bitsOf w 9 1 = 1, val := bitsOf w 10 1 = 1 }

def pkKind (k : Nat) : PkKind := if k = 1 then .exact else if k = 2 then .ternary else if k = 3 then .range else .none

def pkStage (b : List Byte) (k : Nat) : PkStage :=
  let w := leNat ((b.drop (0x80 + 8 * k)).take 8)
  { kind := pkKind (bitsOf w 0 2), key := bitsOf w 4 4, key2 := bitsOf w 8 4, two := bitsOf w 12 1 = 1 }

def pkSpool (b : List Byte) (q : Nat) : PkSpool :=
  let w := leNat ((b.drop (0x100 + 8 * q)).take 8)
  { base := bitsOf w 0 24, cap := bitsOf w 32 13 }

/-- The configuration that a block of 512 bytes holds. -/
def pkConf (b : List Byte) : PkConf :=
  let h := leNat (b.take 8)
  { rsz := bitsOf h 0 3, ovf := bitsOf h 4 3
    fields := (List.range 16).map (pkField b), stages := (List.range 12).map (pkStage b), spools := (List.range 8).map (pkSpool b) }

/-- The bits of a block that R376 gives no field are zero. -/
def pkZeros (b : List Byte) : Bool :=
  let at_ (o n : Nat) : Nat := leNat ((b.drop o).take n)
  decide (at_ 0 8 / 2 ^ 7 = 0) && decide (bitsOf (at_ 0 8) 3 1 = 0) && decide (at_ 8 0x38 = 0) &&
  (List.range 16).all (fun f => decide (at_ (0x40 + 4 * f) 4 / 2 ^ 11 = 0)) &&
  (List.range 12).all (fun k => decide (at_ (0x80 + 8 * k) 8 / 2 ^ 13 = 0) && decide (bitsOf (at_ (0x80 + 8 * k) 8) 2 2 = 0)) &&
  decide (at_ 0xE0 0x20 = 0) &&
  (List.range 8).all (fun q => decide (at_ (0x100 + 8 * q) 8 / 2 ^ 45 = 0) && decide (bitsOf (at_ (0x100 + 8 * q) 8) 24 8 = 0)) &&
  decide (at_ 0x140 0xC0 = 0)

def PkField.width (f : PkField) : Nat := 2 ^ f.wlog

def PkConf.field (c : PkConf) (k : Nat) : PkField := listGet { off := 0, wlog := 0, sgn := false, val := false } c.fields k
def PkConf.stage (c : PkConf) (k : Nat) : PkStage := listGet { kind := .none, key := 0, key2 := 0, two := false } c.stages k
def PkConf.spool (c : PkConf) (q : Nat) : PkSpool := listGet { base := 0, cap := 0 } c.spools q

/-- Any two of a list are apart. -/
def apart {α : Type} (ok : α → α → Bool) : List α → Bool
  | [] => true
  | x :: r => r.all (ok x) && apart ok r

/-- The fields of a record class meet R375. -/
def PkConf.fieldsOk (c : PkConf) : Bool :=
  let v := c.fields.filter (·.val)
  v.all (fun f => decide (f.off % f.width = 0) && decide (f.off + f.width ≤ recSize c.rsz)) &&
  apart (fun f g => decide (f.off + f.width ≤ g.off) || decide (g.off + g.width ≤ f.off)) v

/-- The stages of a configuration meet R376 and R387, with `reserved` stages. -/
def PkConf.stagesOk (c : PkConf) (reserved : Nat) : Bool :=
  ((List.range 12).zip c.stages).all (fun p =>
    (!p.2.two || p.2.kind == .range) &&
    (p.2.kind == .none || (decide (p.1 < reserved) && (c.field p.2.key).val && (!p.2.two || (c.field p.2.key2).val))))

/-- The spools of a configuration meet R376, and lie below `top`. -/
def PkConf.spoolsOk (c : PkConf) (top : Nat) : Bool :=
  let live := c.spools.filter (fun q => 0 < q.cap)
  let size := recSize c.rsz
  c.spools.all (fun q => decide (q.base % 16 = 0) && decide (q.cap ≤ 4096)) &&
  live.all (fun q => decide (q.base + q.cap * size ≤ top)) &&
  apart (fun p q => decide (p.base + p.cap * size ≤ q.base) || decide (q.base + q.cap * size ≤ p.base)) live

/-! ## Bank images (R378, R379) -/

/-- Capacity of a kind and the size of its entries (R377, R378). -/
def PkKind.entries : PkKind → Nat × Nat
  | .none => (0, 8)
  | .exact => (4096, 16)
  | .ternary => (512, 24)
  | .range => (256, 40)

def PkKind.code : PkKind → Nat
  | .none => 0
  | .exact => 1
  | .ternary => 2
  | .range => 3

/-- Signed immediate of a micro-operation. -/
def uImm (w : BitVec 32) : Int := (w.extractLsb' 12 20).toInt

def uOp (w : BitVec 32) : Nat := w.toNat % 16
def uF (w : BitVec 32) : Nat := w.toNat / 16 % 16
def uG (w : BitVec 32) : Nat := w.toNat / 256 % 16

/-- A micro-operation word meets R379 and names only valid fields. -/
def uOk (c : PkConf) (w : BitVec 32) : Bool :=
  let f := (c.field (uF w)).val
  let g := (c.field (uG w)).val
  let none_ := uF w = 0 && uG w = 0
  match uOp w with
  | 0 => none_ && uImm w = 0
  | 1 => f && uG w = 0
  | 2 => f && uG w = 0
  | 3 => f && g && uImm w = 0
  | 4 => f && g && uImm w = 0
  | 5 => f && g && uImm w = 0
  | 6 => none_ && 0 ≤ uImm w && uImm w ≤ 7
  | 7 => none_ && uImm w = 0
  | 8 => none_ && uImm w = 0
  | 9 => none_ && 0 ≤ uImm w && uImm w ≤ 63
  | _ => false

/-- The four words of an action. -/
def pkAction (l : List Word) : List (BitVec 32) := l.flatMap (fun (w : Word) => [w.setWidth 32, (w >>> 32).setWidth 32])

/-- An entry of a kind from its doublewords; the last one holds the action. -/
def pkEntry (k : PkKind) (l : List Word) : PkEntry :=
  let w (i : Nat) : Word := listGet 0 l i
  match k with
  | .ternary => { v := w 0, m := w 1, v2 := 0, m2 := 0, act := (w 2).toNat % 256, lost := false }
  | .range => { v := w 0, m := w 1, v2 := w 2, m2 := w 3, act := (w 4).toNat % 256, lost := false }
  | _ => { v := w 0, m := 0, v2 := 0, m2 := 0, act := (w 1).toNat % 256, lost := false }

/-- Cuts a list into pieces of n. -/
def pieces {α : Type} (n : Nat) : Nat → List α → List (List α)
  | 0, _ => []
  | k + 1, l => l.take n :: pieces n k (l.drop n)

/-! ## The PIKE words (R386, R387) -/

/-- A PIKE word of a party that is no engine party is a bad state (R274). -/
def State.pikeWord (s : State) (go : State → Out) : Out :=
  if !s.engineOf s.me then s.wordTrap 0x04 s.me.pc.toNat else go s

/-- Enters a PIKE command of the thread at pc. -/
def State.addPike (s : State) (op : PikeOp) : State :=
  let t := s.me
  { s with seq := s.seq + 1
           pike := { s.pike with queue := s.pike.queue ++
             [{ seq := s.seq, slot := s.cur, party := t.party, ptidx := t.cfg.ptidx.toNat, op := op }] } }

/-- PKCFG (R376, R387). -/
def execPkcfg (a : BitVec 5) (s : State) : Out :=
  s.pikeWord (fun s =>
    let t := s.me
    let va := t.rd a
    if va.toNat % 8 ≠ 0 then s.wordTrap 0x04 t.pc.toNat
    else if s.scalarHeld s.cur || s.accessOpen s.cur then s.stall
    else match s.loadList s.cur t va 64 with
      | .inr (.trap s c x) => s.wordTrap c x
      | .inr (.wait s) => s.stall
      | .inr (.done s _) => s.stall
      | .inl (s, l) =>
        let b := wordBytes l
        let c := pkConf b
        if !(pkZeros b && c.fieldsOk && c.stagesOk (s.stagesOf t) && c.spoolsOk (s.spTop t)) then s.wordTrap 0x04 t.pc.toNat
        else
          s.post true 0 [] [] (fun s =>
            let s := s.addPike (.cfg c)
            { s with pike := { s.pike with porter := c } }))

/-- PKLOAD (R378, R387). -/
def execPkload (a : BitVec 5) (n : BitVec 4) (s : State) : Out :=
  s.pikeWord (fun s =>
    let t := s.me
    let va := t.rd a
    let c := s.pike.porter
    let kind := (c.stage n.toNat).kind
    if s.stagesOf t ≤ n.toNat || va.toNat % 8 ≠ 0 then s.wordTrap 0x04 t.pc.toNat
    else if s.scalarHeld s.cur || s.accessOpen s.cur then s.stall
    else match s.loadList s.cur t va 2 with
      | .inr (.trap s c x) => s.wordTrap c x
      | .inr (.wait s) => s.stall
      | .inr (.done s _) => s.stall
      | .inl (s, hd) =>
        let h := (listGet 0 hd 0).toNat
        let nact := bitsOf h 16 9
        let nent := bitsOf h 32 13
        let (cap, size) := kind.entries
        let zeros := bitsOf h 2 14 = 0 && bitsOf h 25 7 = 0 && bitsOf h 45 3 = 0 && h / 2 ^ 56 = 0 && listGet 0 hd 1 = 0
        if !zeros || kind = .none || bitsOf h 0 2 ≠ kind.code || 256 < nact || cap < nent then s.wordTrap 0x04 t.pc.toNat
        else match s.loadList s.cur t (va + 16) (2 * nact + nent * (size / 8)) with
          | .inr (.trap s c x) => s.wordTrap c x
          | .inr (.wait s) => s.stall
          | .inr (.done s _) => s.stall
          | .inl (s, body) =>
            let acts := (pieces 2 nact body).map pkAction
            let rows := pieces (size / 8) nent (body.drop (2 * nact))
            if !(acts.all (fun x => x.all (uOk c)) && rows.all (fun r => decide ((r.getLastD 0).toNat < 256))) then
              s.wordTrap 0x04 t.pc.toNat
            else
              let bank : PkBank := { acts := acts, entries := rows.map (pkEntry kind), miss := bitsOf h 48 8 }
              s.post true 0 [] [] (fun s => s.addPike (.load n.toNat bank)))

/-- PKSWAP (R383, R387). -/
def execPkswap (m : BitVec 12) (s : State) : Out :=
  s.pikeWord (fun s =>
    if m.toNat / 2 ^ s.stagesOf s.me ≠ 0 then s.wordTrap 0x04 s.me.pc.toNat
    else if m = 0 then s.commit s.me
    else s.post true 0 [] [] (fun s => s.addPike (.swap m)))

/-- PKFEED (R384, R387). -/
def execPkfeed (a b : BitVec 5) (s : State) : Out :=
  s.pikeWord (fun s =>
    let t := s.me
    let va := t.rd a
    let n := (t.rd b).toNat
    let c := s.pike.porter
    let off := va.toNat - winBase
    let live := c.spools.filter (fun q => 0 < q.cap)
    let op : PikeOp := .feed off n 0 c.rsz live
    if !inWindow va.toNat || va.toNat % 16 ≠ 0 || 65536 < n || shareRows op.reads op.writes then s.wordTrap 0x04 t.pc.toNat
    else if n = 0 then s.commit t
    else s.post true 0 (op.reads ++ op.writes) [] (fun s => s.addPike op))

/-- A feed that the slot's thread has posted is not complete (R388). -/
def State.feedsOpen (s : State) (sl : Slot) : Bool :=
  let t := s.th sl
  (s.pike.queue ++ s.pike.feeds).any (fun c =>
    c.slot == sl && c.party == t.party && c.ptidx == t.cfg.ptidx.toNat && (match c.op with | .feed _ _ _ _ _ => true | _ => false))

/-- The count that pkmiss n reads (R388). -/
def Pike.countOf (p : Pike) (n : Nat) : Word :=
  if n < 12 then listGet 0 p.misses n
  else if n = 12 then p.drops
  else if n = 13 then p.overp
  else if n = 14 then p.full
  else if n = 15 then p.lost
  else listGet 0 p.counters (n - 64)

/-- PKMISS (R388). -/
def execPkmiss (d : BitVec 5) (n : BitVec 7) (s : State) : Out :=
  s.pikeWord (fun s =>
    if n.toNat < 12 && s.stagesOf s.me ≤ n.toNat then s.wordTrap 0x04 s.me.pc.toNat
    else if s.feedsOpen s.cur then s.stall
    else s.commit (s.me.wr d (s.pike.countOf n.toNat)))

/-- PKDRAIN, with or without .clr (R388). -/
def State.drainSpool (s : State) (d a : BitVec 5) (clr : Bool) : Out :=
  s.pikeWord (fun s =>
    let q := (s.me.rd a).toNat
    if 7 < q then s.wordTrap 0x04 s.me.pc.toNat
    else if s.feedsOpen s.cur then s.stall
    else
      let n := listGet 0 s.pike.spoolCnt q
      let s := if clr then { s with pike := { s.pike with spoolCnt := listSet s.pike.spoolCnt q 0 } } else s
      s.commit (s.me.wr d (BitVec.ofNat 64 n)))

def execPkdrain (d a : BitVec 5) (s : State) : Out := s.drainSpool d a false
def execPkdrainClr (d a : BitVec 5) (s : State) : Out := s.drainSpool d a true

/-! ## A pass of a record (R377, R379, R380) -/

/-- Value of a field of a record (R375). -/
def PkField.read (f : PkField) (rcd : List Byte) : Int :=
  let n := leNat ((rcd.drop f.off).take f.width)
  if f.sgn && decide (2 ^ (8 * f.width - 1) ≤ n) then (n : Int) - 2 ^ (8 * f.width) else n

/-- Writes a value, clamped to the field's range (R379). -/
def PkField.write (f : PkField) (rcd : List Byte) (x : Int) : List Byte :=
  let w := 8 * f.width
  let lo : Int := if f.sgn then -(2 ^ (w - 1)) else 0
  let hi : Int := if f.sgn then 2 ^ (w - 1) - 1 else 2 ^ w - 1
  let v := if x < lo then lo else if hi < x then hi else x
  rcd.take f.off ++ leBytes f.width (intBits w v) ++ rcd.drop (f.off + f.width)

/-- A pass under way: the record, whether it has left, and the counts. -/
structure PassSt where
  bytes : List Byte
  route : Nat
  rc   : Bool
  gone : Bool
  pike : Pike
  lost : Nat

/-- One micro-operation (R379). -/
def uStep (c : PkConf) (p : PassSt) (w : BitVec 32) : PassSt :=
  let f := c.field (uF w)
  let x := f.read p.bytes
  let y := (c.field (uG w)).read p.bytes
  let put (v : Int) : PassSt := { p with bytes := f.write p.bytes v }
  if p.gone then p
  else match uOp w with
    | 1 => put (uImm w)
    | 2 => put (x + uImm w)
    | 3 => put y
    | 4 => put (min x y)
    | 5 => put (max x y)
    | 6 => { p with route := (uImm w).toNat }
    | 7 => { p with rc := true }
    | 8 => { p with gone := true, pike := { p.pike with drops := satInc p.pike.drops } }
    | 9 =>
      let k := (uImm w).toNat
      { p with pike := { p.pike with counters := listSet p.pike.counters k (satInc (listGet 0 p.pike.counters k)) } }
    | _ => p

/-- A word as a number in a field's signedness. -/
def sgnWord (s : Bool) (w : Word) : Int := if s then w.toInt else w.toNat

/-- An entry matches a record at a stage (R377). -/
def PkEntry.hits (e : PkEntry) (c : PkConf) (g : PkStage) (rcd : List Byte) : Bool :=
  let f := c.field g.key
  let f2 := c.field g.key2
  let k := f.read rcd
  let k2 := f2.read rcd
  !e.lost && (match g.kind with
    | .none => false
    | .exact => BitVec.ofInt 64 k == e.v
    | .ternary => (BitVec.ofInt 64 k ^^^ e.v) &&& e.m == 0
    | .range => decide (sgnWord f.sgn e.v ≤ k) && decide (k ≤ sgnWord f.sgn e.m) &&
        (!g.two || (decide (sgnWord f2.sgn e.v2 ≤ k2) && decide (k2 ≤ sgnWord f2.sgn e.m2))))

/-- Stage k of a pass: the lowest entry that matches selects the action, else the miss action does (R377, R380). -/
def stageStep (c : PkConf) (banks : List PkBank) (p : PassSt) (k : Nat) : PassSt :=
  let g := c.stage k
  if p.gone || g.kind = .none then p
  else
    let b := listGet .clear banks k
    let hit := b.entries.find? (fun e => e.hits c g p.bytes)
    let p := { p with lost := p.lost + (b.entries.filter (·.lost)).length }
    let p := match hit with
      | some _ => p
      | none => { p with pike := { p.pike with misses := listSet p.pike.misses k (satInc (listGet 0 p.pike.misses k)) } }
    let a := match hit with | some e => e.act | none => b.miss
    (listGet [] b.acts a).foldl (uStep c) p

/-- A pass of 12 stages through the active banks. -/
def Pike.pass (k : Pike) (rcd : List Byte) (route : Nat) : PassSt :=
  (List.range 12).foldl (stageStep k.conf k.active) { bytes := rcd, route := route, rc := false, gone := false, pike := k, lost := 0 }

/-! ## Leaving (R380, R382, R384) -/

/-- A feed of which every record has entered completes once no record of it remains, and with it the rows that it writes (R289, R384). -/
def Pike.settleFeeds (k : Pike) : Pike :=
  let feeds := k.feeds.filter (fun f => (k.chain ++ k.reentry).any (fun r => r.feed == f.seq))
  { k with feeds := feeds, begun := if k.begun = [] then [] else k.begun.filter (fun b => (k.queue ++ feeds).any (fun f => f.seq == b.1)) }

/-- Where the next record of a size that leaves to spool q is written (R382). -/
def Pike.spoolAt (k : Pike) (q size : Nat) : Extent := ((k.conf.spool q).base + listGet 0 k.spoolCnt q * size, size)

/-- The rows of an extent. -/
def rowsOf (x : Extent) : List Nat := (List.range ((x.1 + x.2 - 1) / 256 + 1 - x.1 / 256)).map (fun i => x.1 / 256 + i)

/-- Writes a record of a feed to spool q and counts it. -/
def State.spoolPut (s : State) (feed q : Nat) (rcd : List Byte) : State :=
  let n := listGet 0 s.pike.spoolCnt q
  let x := s.pike.spoolAt q rcd.length
  let s := s.putSpList x.1 rcd
  { s with pike := { s.pike with spoolCnt := listSet s.pike.spoolCnt q (n + 1)
                                 begun := ((rowsOf x).map (fun r => (feed, r))).foldl (fun l b => if l.contains b then l else b :: l) s.pike.begun } }

/-- Spool q is full. -/
def Pike.spoolFull (k : Pike) (q : Nat) : Bool := (k.conf.spool q).cap ≤ listGet 0 k.spoolCnt q

/-- The spool that takes a record which leaves to spool q: q, or the overflow spool, or none (R382). -/
def Pike.target (k : Pike) (q : Nat) : Option Nat :=
  if !k.spoolFull q then some q else if q = k.conf.ovf || k.spoolFull k.conf.ovf then none else some k.conf.ovf

/-- A record of a feed is lost, which the die counts (R382, R410). -/
def State.loseRecord (s : State) : State := State.addUe { s with pike := { s.pike with lost := satInc s.pike.lost } }

/-- A record of a feed leaves to spool q (R382). -/
def State.recordLeaves (s : State) (feed q : Nat) (rcd : List Byte) : State :=
  let k := s.pike
  let s := if k.spoolFull q then { s with pike := { k with full := satInc k.full } } else s
  match k.target q with
  | some o => s.spoolPut feed o rcd
  | none => s.loseRecord

/-- The spool to which a record leaves at the end of its pass; none where it enters again (R380). -/
def PkRec.leavesTo (r : PkRec) (k : Pike) : Option Nat :=
  if r.rc && decide (r.pass < 4) then none else some (if r.rc then k.conf.ovf else r.route)

/-- A record may not be spooled yet: an earlier command, such as an earlier feed, is not complete and shares the row (R293, R384). -/
def State.leaveHeld (s : State) (r : PkRec) : Bool :=
  match (r.leavesTo s.pike).bind s.pike.target with
  | some o => s.rangeHeld r.feed [] [s.pike.spoolAt o r.bytes.length]
  | none => false

/-- The place in the chain of the record that ends its pass next: the oldest that is not held and passes no record of its own feed (R293, R382). -/
def State.endsNext (s : State) : Option Nat :=
  (List.range s.pike.chain.length).find? (fun i => match s.pike.chain[i]? with
    | some r => !(s.pike.chain.take i).any (fun q => q.feed == r.feed) && !s.leaveHeld r
    | none => false)

/-- TURNPIKE_PASS_END: the oldest record in the chain that may ends its pass (R380). -/
def State.turnpikePassEnd (s : State) : Option State :=
  match s.endsNext with
  | none => none
  | some i =>
    match s.pike.chain[i]? with
    | none => none
    | some r =>
      let s := { s with pike := { s.pike with chain := s.pike.chain.eraseIdx i } }
      let s :=
        if r.rc && decide (r.pass < 4) then
          { s with pike := { s.pike with reentry := s.pike.reentry ++ [{ r with pass := r.pass + 1, rc := false }] } }
        else if r.rc then
          State.recordLeaves { s with pike := { s.pike with overp := satInc s.pike.overp } } r.feed s.pike.conf.ovf r.bytes
        else s.recordLeaves r.feed r.route r.bytes
      some { s with pike := s.pike.settleFeeds }

/-! ## Entering (R380, R381, R383) -/

/-- A record enters stage 0: its pass reads the banks that are active now (R383). -/
def State.recordEnters (s : State) (rcd : List Byte) (pass route feed : Nat) : State :=
  let p := s.pike.pass rcd route
  let s := (List.range p.lost).foldl (fun (s : State) _ => s.addUe) s
  let r : PkRec := { bytes := p.bytes, pass := pass, route := p.route, rc := p.rc, drop := p.gone, feed := feed, epoch := s.pike.epoch }
  { s with pike := { p.pike with chain := if p.gone then p.pike.chain else p.pike.chain ++ [r] } }

/-- Exchanges the active and shadow banks of the stages of a mask (R383). -/
def Pike.swap (k : Pike) (m : BitVec 12) : Pike :=
  let pick (a b : List PkBank) : List PkBank :=
    (List.range 12).map (fun i => if m.getLsbD i then listGet .clear b i else listGet .clear a i)
  { k with active := pick k.active k.shadow, shadow := pick k.shadow k.active, epoch := k.epoch + 1
           swapped := (List.range 12).map (fun i => if m.getLsbD i then k.epoch + 1 else listGet 0 k.swapped i) }

/-- The first re-entry enters. -/
def State.reenter (s : State) : Option State :=
  match s.pike.reentry with
  | [] => none
  | r :: rest =>
    let s := { s with pike := { s.pike with reentry := rest } }
    let s := s.recordEnters r.bytes r.pass r.route r.feed
    some { s with pike := s.pike.settleFeeds }

/-- The next record of the feed at the head of the queue enters, unless its bytes cannot be corrected (R381, R382, R384). -/
def State.feedOne (s : State) (c : PikeCmd) (rest : List PikeCmd) (a n next rsz : Nat) (sp : List PkSpool) : State :=
  let size := recSize rsz
  let off := a + next * size
  let c' : PikeCmd := { c with op := .feed a n (next + 1) rsz sp }
  let last := n ≤ next + 1
  let s := { s with pike := { s.pike with queue := if last then rest else c' :: rest
                                          feeds := if last then s.pike.feeds ++ [c'] else s.pike.feeds } }
  let s := if s.spLost off size then s.loseRecord
    else s.recordEnters (Memory.getList s.sp off size) 1 s.pike.conf.ovf c.seq
  { s with pike := s.pike.settleFeeds }

/-- TURNPIKE_ENTRY: at an entry cycle a re-entry goes first, then the next fed record; a PKSWAP whose turn it is takes effect between two
entries, before or after a waiting re-entry by a free choice (R381, R383). A feed reads its records once earlier commands have written them; it is each
record's spooling that waits for earlier ones which share a row, and a record which waits so stands in no stage (R293, R384, assumption 106). -/
def State.turnpikeEntry (s : State) : Option State :=
  if 12 ≤ (s.pike.chain.filter (fun r => !s.leaveHeld r)).length then none
  else match s.pike.queue with
    | { op := .swap m, .. } :: rest =>
      let done (s : State) : State := { s with pike := { s.pike.swap m with queue := rest } }
      if s.pike.reentry = [] then some (done s)
      else if Config.freeChoice s.fresh then some (done { s with fresh := s.fresh + 1 })
      else State.reenter { s with fresh := s.fresh + 1 }
    | { seq := q, slot := sl, party := p, ptidx := i, op := .feed a n next rsz sp } :: rest =>
      (match s.reenter with
       | some s' => some s'
       | none =>
         let c : PikeCmd := { seq := q, slot := sl, party := p, ptidx := i, op := .feed a n next rsz sp }
         if s.rangeHeld q c.op.reads [] then none else some (s.feedOne c rest a n next rsz sp))
    | _ => s.reenter

/-- PKLOAD_PERFORM: the bank is written once the chain holds no record that entered before the stage's latest swap (R373). -/
def State.pkloadPerform (s : State) : Option State :=
  match s.pike.queue with
  | { op := .load n b, .. } :: rest =>
    if s.pike.chain.any (fun r => r.epoch < listGet 0 s.pike.swapped n) then none
    else some { s with pike := { s.pike with queue := rest, shadow := listSet s.pike.shadow n b } }
  | _ => none

/-- PKCFG_PERFORM: the configuration is installed once the chain is empty (R387). -/
def State.pkcfgPerform (s : State) : Option State :=
  match s.pike.queue with
  | { op := .cfg c, .. } :: rest =>
    if s.pike.chain ≠ [] || s.pike.reentry ≠ [] then none
    else some { s with pike := { Pike.start with conf := c, porter := s.pike.porter, queue := rest, feeds := s.pike.feeds
                                                 epoch := s.pike.epoch } }
  | _ => none

end Sys2Proof.Machine
end

