-- ==== Sys2Proof/Machine/Vconf.lean ====
section
/-! DEFINITION. Grants, segments and tags (spec/07 R127 to R133; spec/12 R220; spec/13 R224, R225, R234, R235). -/

namespace Sys2Proof.Machine

/-! ## Grants (R128 to R130, R220, R234) -/

/-- The lanes that LPART gives the slot; a lane that is the only one its thread holds stays with it (R26, R225). -/
def State.grantLanes (s : State) (sl : Slot) : BitVec 64 :=
  let m := s.lanesFor sl
  if m = 0 then (s.th sl).cfg.lmap else m

/-- QCUR after a grant that asks for level q; none stands for SETFIB, which asks for nothing (R234). -/
def Thread.newQ (t : Thread) (q : Option (BitVec 2)) (core : BitVec 2) : BitVec 2 :=
  let least (a b : BitVec 2) : BitVec 2 := if a < b then a else b
  match q with
  | none => least t.cfg.qreq core
  | some q =>
    if q < t.cfg.qcur then q
    else if !t.granted then least q core
    else least t.cfg.qreq core

/-- A change of lanes or level is pending for this grant (R130). -/
def State.grantPending (s : State) (sl : Slot) (q : Option (BitVec 2)) : Bool :=
  let t := s.th sl
  s.grantLanes sl != t.cfg.lmap || t.newQ q s.qcore != t.cfg.qcur

/-- The grant waits: the other slot still holds lanes that LPART gives this one (R220), or an earlier rule has not retired, or a mask is not whole,
while a change is pending (R130, R132). -/
def State.grantWaits (s : State) (sl : Slot) (q : Option (BitVec 2)) : Bool :=
  let t := s.th sl
  let o := s.th (other sl)
  (o.occupied && (s.grantLanes sl &&& o.cfg.lmap) != 0) || (s.grantPending sl q && (t.vec.window != [] || t.segCarry != []))

/-- A register re-placed to a new capacity: elements below it stay, positions that are added hold zero (R130). -/
def VReg.resize (r : VReg) (old new : Nat) : VReg :=
  let lost := r.lost.filter (fun i => i < new)
  if r.rest = .present 0 then { r with cells := r.cells.filter (fun c => c.1 < min old new), lost := lost }
  else { wlog := r.wlog, rest := .present 0, lost := lost
         cells := ((List.range (min old new)).map (fun i => (i, r.get i))).filter (fun c => c.2 != .present 0) }

def PReg.resize (r : PReg) (old new : Nat) : PReg :=
  let lost := r.lost.filter (fun i => i < new)
  if r.rest = .present false then { r with cells := r.cells.filter (fun c => c.1 < min old new), lost := lost }
  else { rest := .present false, lost := lost
         cells := ((List.range (min old new)).map (fun i => (i, r.get i))).filter (fun c => c.2 != .present false) }

/-- Of the elements below n whose data cannot be corrected, those that are re-placed from a lane given up for retirement: they become VOID
(R225). -/
def Thread.fromRetired (t : Thread) (retired : BitVec 64) (lost : List Nat) (n : Nat) : List Nat :=
  lost.filter (fun i => i < n && retired.getLsbD (elLane t i))

def VReg.voidAll (r : VReg) (l : List Nat) : VReg := l.foldl (fun r i => r.put i .void) r
def PReg.voidAll (r : PReg) (l : List Nat) : PReg := l.foldl (fun r i => r.put i .void) r

/-- Takes up new lanes and a new level: every register that a name maps is re-placed, and one that only a command has captured stays
(R130, R314). -/
def Thread.replace (t : Thread) (lanes : BitVec 64) (q : BitVec 2) (retired : BitVec 64) : Thread :=
  let u := { t with cfg := { t.cfg with lmap := lanes, lalive := BitVec.ofNat 8 (laneCount lanes), qcur := q } }
  { u with vec := { u.vec with
      vregs := Vector.ofFn (fun p =>
        let r := u.vec.vregs.get p
        if u.vec.vmap.toList.contains p then
          (r.voidAll (t.fromRetired retired r.lost (u.vlmax r.wlog))).resize (t.vlmax r.wlog) (u.vlmax r.wlog)
        else r)
      pregs := Vector.ofFn (fun p =>
        let r := u.vec.pregs.get p
        if u.vec.mmap.toList.contains p then (r.voidAll (t.fromRetired retired r.lost (u.vlmax 0))).resize (t.vlmax 0) (u.vlmax 0)
        else r) } }

/-- How many elements of mapped registers a re-placement to u makes VOID; each is an origin of VOID (R218, R225). -/
def Thread.retiredVoids (t u : Thread) (retired : BitVec 64) : Nat :=
  (t.vec.vmap.toList.map (fun p => let r := t.vec.vregs.get p; (t.fromRetired retired r.lost (u.vlmax r.wlog)).length)).sum +
  (t.vec.mmap.toList.map (fun p => (t.fromRetired retired (t.vec.pregs.get p).lost (u.vlmax 0)).length)).sum

/-- The largest grant for a width (R128, R132). -/
def Thread.grantCap (t : Thread) (g wlog : Nat) : Nat := max t.cfg.lalive.toNat (t.vlmax wlog * g / 8)

/-- Lane tables after a grant changed LMAP: the lanes given up lose their contents, and each new lane receives the table of the lowest
lane held before, with what of it cannot be corrected, or zeros (R172). -/
def State.moveTables (s : State) (sl : Slot) (old new : BitVec 64) : State :=
  let low := ((List.range 64).find? (fun k => old.getLsbD k)).getD 64
  let inLow (a : Nat) : Bool := low < 64 && decide (tableAddr sl low 0 ≤ a ∧ a < tableAddr sl (low + 1) 0)
  let move (k a : Nat) : Nat := a - tableAddr sl low 0 + tableAddr sl k 0
  let src := s.tables.filter (fun c => inLow c.1)
  let bad := s.ltPoison.filter inLow
  let s := s.clearTables sl (old ^^^ new)
  let gained := (List.range 64).filter (fun k => new.getLsbD k && !old.getLsbD k)
  { s with tables := gained.foldl (fun t k => src.foldl (fun t c => Memory.set t (move k c.1) c.2) t) s.tables
           ltPoison := s.ltPoison ++ gained.flatMap (fun k => bad.map (move k)) }

/-- The first part of every grant: lanes, level, width and request are taken up (R128, R130, R234). -/
def State.takeGrant (s : State) (sl : Slot) (wlog : BitVec 2) (q : Option (BitVec 2)) : State :=
  let t := s.th sl
  let lanes := s.grantLanes sl
  let nq := t.newQ q s.qcore
  let retired := t.cfg.lmap &&& ~~~lanes &&& ~~~s.goodLanes
  let u := if s.grantPending sl q then t.replace lanes nq retired else t
  let voids := if s.grantPending sl q then t.retiredVoids u retired else 0
  let u := { u with granted := true, cfg := { u.cfg with wlog := wlog, qreq := q.getD u.cfg.qreq } }
  let s := (s.setTh sl u).moveTables sl t.cfg.lmap u.cfg.lmap
  ((List.range voids).foldl (fun s _ => s.countVoid sl) s).dropQ.settleLanes

/-- SETVL and SETVLI (R128). -/
def State.grant (s : State) (d : BitVec 5) (request : Nat) (wlog q : BitVec 2) : Out :=
  if s.me.level ≠ .user then s.illegal
  else if s.grantWaits s.cur (some q) then s.stall
  else
    let s := s.takeGrant s.cur wlog (some q)
    let t := s.me
    let n := min request (t.grantCap s.gfact wlog.toNat)
    s.commit ({ t with cfg := { t.cfg with vl := BitVec.ofNat 16 n }, vlSet := t.count }.wr d (BitVec.ofNat 64 n))

def execSetvl (d a : BitVec 5) (w q : BitVec 2) (s : State) : Out := s.grant d (s.me.rd a).toNat w q
def execSetvli (d : BitVec 5) (n : BitVec 10) (w q : BitVec 2) (s : State) : Out :=
  s.grant d (if n = 0 then 2 ^ 64 - 1 else n.toNat) w q

/-- GRANT_WAIT_END: the other slot has given up the lanes, and the waiting grant runs again (R220). -/
def State.grantWaitEnd (s : State) (sl : Slot) : Option State :=
  let t := s.th sl
  if t.occupied && t.stalled && !s.grantWaits sl none then some (s.setTh sl { t with stalled := false }) else none

/-- QUARTER_MOVE_DONE: one more quarter has been lent, while some thread asks for a higher level (R235). -/
def State.quarterMoveDone (s : State) : Option State :=
  if s.threads.toList.any (fun t => t.occupied && decide (s.qcore < t.cfg.qreq)) then
    some (State.fitLines { s.releaseLines with qcore := s.qcore + 1 })
  else none

/-! ## SETFIB (R132) -/

/-- Rows packed so far. -/
structure Packed where
  rows   : Nat
  total  : Nat
  starts : List Nat

/-- Reads row lengths and packs whole rows while they fit. -/
def State.packRows (s : State) (t : Thread) (sl : Slot) (base : Word) (cap : Nat) : Nat → Packed → (State × Packed) ⊕ Access
  | 0, p => .inl (s, p)
  | k + 1, p =>
    match s.load sl t (base + BitVec.ofNat 64 (4 * p.rows)) 4 with
    | .trap s c a => .inr (.trap s c a)
    | .wait s => .inr (.wait s)
    | .done s v =>
      let len := v.toNat % 2 ^ 32
      if cap < p.total + len then .inl (s, p)
      else s.packRows t sl base cap k
        { rows := p.rows + 1, total := p.total + len, starts := if len = 0 then p.starts else p.starts ++ [p.total] }

/-- A register with the bits of a segment mask below total, and the carried bits of the old one above (R132). -/
def segMask (old : PReg) (cap total : Nat) (starts : List Nat) : PReg :=
  let bit (i : Nat) : PBit := if i < total then .present (starts.contains i) else old.get i
  { rest := .present false, cells := ((List.range cap).map (fun i => (i, bit i))).filter (fun c => c.2 != .present false) }

/-- A rule that is complete as it is issued (R248): every element is done, and its old registers are the carry sources. -/
def Thread.doneRule (t : Thread) (i : Instr) (old : Option (Fin 128)) (pold : Option (Fin 48)) (d : Option (Fin 128)) (pd : Option (Fin 48)) : Rule :=
  { rid := t.count, instr := i, vl := t.cfg.vl, frm := t.cfg.frm, segsel := t.cfg.segsel, vle := 0, msel := 0
    opa := 0, opb := 0, td := .i64, ta := .i64, tb := .i64
    d0 := d, d1 := none, a0 := none, a1 := none, b0 := none, b1 := none, x0 := none, old0 := old, old1 := none
    mp := none, sp := none, pd := pd, pold := pold, pa := none, pb := none
    done := BitVec.allOnes 8192, faults := [], flight := [], count := 0, mark := false }

/-- A VPF is in progress: its rule is not complete. -/
def Thread.vpfOpen (t : Thread) : Bool := t.vec.window.any (fun r => (match r.instr with | .vpf _ _ => true | _ => false) && !r.complete r.spec t)

/-- While a VPF is in progress, the register that a name leaves stays the source of its carries: the renaming by a VTAG stands in the window
as a complete rule (R248). -/
def Thread.recordRename (t : Thread) (i : Instr) (old d : Option (Fin 128)) : Thread :=
  if t.vpfOpen then { t with vec := { t.vec with window := t.vec.window ++ [t.doneRule i old none d none] } } else t

/-- The bits of m name k from total on that a SETFIB cannot carry yet. -/
def Thread.segOpen (t : Thread) (k total : Nat) : List Nat :=
  (List.range (t.vlmax 0)).filter (fun i => total ≤ i && (t.vec.preg (t.vec.mphys k)).get i == .absent)

/-- Remaps m name k to a register that holds a segment mask. Where old bits are still to come, the carry path copies them as they come (R132, R190,
assumption 91); while a VPF is in progress the SETFIB stands in the window as a complete rule (R248). -/
def Thread.setSegMask (t : Thread) (i : Instr) (k total : Nat) (starts : List Nat) : Thread :=
  let old := t.vec.mphys k
  let v := t.vec.renameP k
  let p := v.mphys k
  let v := v.setPreg p (segMask (t.vec.preg old) (t.vlmax 0) total starts)
  { t with
    vec := if t.vpfOpen then { v with window := v.window ++ [t.doneRule i none (some old) none (some p)] } else v
    segCarry := if t.segOpen k total = [] then t.segCarry else t.segCarry ++ [{ age := t.count, pd := p, pold := old }] }

def execSetfib (d a b : BitVec 5) (w : BitVec 2) (k : BitVec 4) (s : State) : Out :=
  let t := s.me
  if t.level ≠ .user then s.illegal
  else if s.scalarHeld s.cur || s.grantWaits s.cur none || (t.vpfOpen && !t.entryFree) then s.stall
  else if !t.poolHas 0 1 then s.stallPool
  else
    let g := if s.grantPending s.cur none then t.replace (s.grantLanes s.cur) (t.newQ none s.qcore) 0 else t
    match s.packRows t s.cur (t.rd a) (g.grantCap s.gfact w.toNat) (min (t.rd b).toNat 256)
        { rows := 0, total := 0, starts := [] } with
    | .inr (.trap s c x) => s.wordTrap c x
    | .inr (.wait s) => s.stall
    | .inr (.done s _) => s.stall
    | .inl (s, p) =>
      let s := s.takeGrant s.cur w none
      let t := s.me
      if p.rows = 0 then s.commit ({ t with cfg := { t.cfg with vl := 0, segsel := 0 }, vlSet := t.count }.wr d 0)
      else
        let t := t.setSegMask (.setfib d a b w k) k.toNat p.total p.starts
        s.commit ({ t with cfg := { t.cfg with vl := BitVec.ofNat 16 p.total, segsel := k }, vlSet := t.count }.wr d (BitVec.ofNat 64 p.rows))

/-! ## VTAG (R133) -/

def execVtag (d : BitVec 5) (c : BitVec 4) (s : State) : Out :=
  let t := s.me
  match Tag.ofCode c.toNat with
  | none => s.illegal
  | some g =>
    if t.level ≠ .user then s.illegal
    else if (t.vec.tag d).wlog = g.wlog then s.commit { t with vec := { t.vec with vtag := t.vec.vtag.set d.toFin g } }
    else if t.vpfOpen && !t.entryFree then s.stall
    else if !t.poolHas 1 0 then s.stallPool
    else
      let old := t.vec.vphys d
      let v := t.vec.renameV d g
      let p := v.vphys d
      s.commit ({ t with vec := v.setVreg p (.zero g.wlog) }.recordRename (.vtag d c) (some old) (some p))

end Sys2Proof.Machine
end

