-- ==== Sys2Proof/Machine/Placement.lean ====
section
/-! DEFINITION. Placement of parties on the core, their ends, pre-emption and resumption (spec/11 R209 to R215; spec/16 R264, R272 to R283,
R286). -/

namespace Sys2Proof.Machine

/-! ## Order (R277) -/

/-- Effective priority of a waiting party (R277). -/
def State.effPrio (s : State) (w : WaitParty) : Nat :=
  match s.taskOf w.task with | some k => min 3 (k.fields.prio + w.age) | none => 0

/-- Party v stands before party w (R277). -/
def State.before (s : State) (v w : WaitParty) : Bool :=
  let a := s.effPrio v
  let b := s.effPrio w
  b < a || (a = b && (v.stamp < w.stamp || (v.stamp = w.stamp && v.pidx < w.pidx)))

/-- Inserts a party by the order. -/
def State.insertWait (s : State) (w : WaitParty) : List WaitParty → List WaitParty
  | [] => [w]
  | v :: r => if s.before w v then w :: v :: r else v :: s.insertWait w r

/-- The waiting parties in the placement order. -/
def State.order (s : State) : List WaitParty := s.waiting.foldl (fun l w => s.insertWait w l) []

/-! ## What fits (R272 to R275, R212, R278) -/

/-- The slots that no thread of a party outside `gone` holds. -/
def State.freeSlots (s : State) (gone : List Nat) : List Slot :=
  [0, 1].filter (fun sl => !(s.th sl).occupied || gone.contains (s.th sl).party)

/-- LANES of the task of the thread in a slot. -/
def State.lanesNeed (s : State) (sl : Slot) : Nat := match s.myTask (s.th sl) with | some k => k.fields.lanes | none => 0

/-- The number of lanes that are not retired or marked. -/
def State.goodCount (s : State) : Nat := laneCount s.goodLanes

/-- Another engine party holds the core, or a command of one is not complete; a waiting party's own copies that have run on keep the engine for
it (R274). -/
def State.engineBusy (s : State) (own : Nat) (gone : List Nat) : Bool :=
  let bars (key : Nat) : Bool := key != own && !gone.contains key
  s.parties.any (fun p => bars p.key && (match s.taskOf p.task with | some k => k.fields.isEngine && !p.away k.fields | none => false)) ||
  s.cmds.any (fun c => bars c.party) || s.matQ.any (fun c => bars c.party) || (s.pike.queue ++ s.pike.feeds).any (fun c => bars c.party)

/-- A transaction of a saved thread still runs its phase two (R404). -/
def Saved.phase2 (v : Saved) : Bool :=
  v.threads.any (fun p => match p.2.txn with | some x => x.phase == .phase2 && x.await != [] | none => false)

/-- An atomic of a parked party has no answer yet (R209). -/
def State.atomicsOpen (s : State) (key : Nat) : Bool :=
  s.reqs.any (fun q => q.open_ && (match q.who with | .parked k _ _ => k == key | _ => false))

/-- What a save has still to write, or a store that its threads have sent: a party that was saved above user level is placed once those stores have
performed, and none before its whole save area is written (R176, R209, R281). -/
def State.saveOpen (s : State) (w : WaitParty) : Bool :=
  match w.saved, s.taskOf w.task with
  | some v, some k =>
    v.phase2 || s.owed.any (fun o => o.ctx == k.ctx) ||
    (v.threads.any (fun p => p.2.held) && s.reqs.any (fun q => q.who == .posted && q.open_ && q.waybill == k.ctx.setWidth 16))
  | _, _ => false

/-- Threads of a party on one core. -/
def TaskRec.perCore (f : TaskRec) : Nat := if f.two then 2 else 1

/-- The lanes that each thread of a waiting party is to hold on the core: LANES, or the LALIVE it was saved with (R212, R275). -/
def WaitParty.lanes (w : WaitParty) (f : TaskRec) : List Nat :=
  match w.saved with
  | some v => v.threads.map (fun p => p.2.cfg.lalive.toNat)
  | none => List.replicate f.perCore f.lanes

/-- The core can take a party at all: it is no steward core, and is not retired or about to be (R12, R412). -/
def State.takesParties (s : State) : Bool := decide (s.cidx.toNat < 48) && !s.coreMarked && !s.coreRetired

/-- The slots that the threads of a waiting party would get on the core, were the parties of `gone` not there (R212, R272 to R275). -/
def State.fit (s : State) (w : WaitParty) (gone : List Nat) : Option (List Slot) :=
  match s.taskOf w.task with
  | none => none
  | some k =>
    let f := k.fields
    if !f.onDie s.die.toNat s.die.toNat || !s.takesParties || (f.isEngine && s.engineBusy w.key gone) then none
    else match w.lanes f, s.freeSlots gone with
      | [], _ => some []
      | [n], [0, 1] => if n ≤ s.goodCount then some [0] else none
      | [n], [sl] => if n + s.lanesNeed (other sl) ≤ s.goodCount then some [sl] else none
      | [m, n], [0, 1] => if m + n ≤ s.goodCount then some [0, 1] else none
      | _, _ => none

/-- The purse holds a party back (R278). -/
def State.heldBack (s : State) (w : WaitParty) : Bool :=
  match s.taskOf w.task with
  | none => false
  | some k =>
    match s.ctxOf k.ctx with
    | none => false
    | some c =>
      let f := k.fields
      decide (f.energy ≠ 0) && decide (c.budget ≠ 0) &&
      s.parties.any (fun p => match s.taskOf p.task with | some q => q.ctx == k.ctx | none => false) &&
      decide ((c.budget.toNat : Int) - c.spent.toNat < (f.energy * f.ncore * (if f.two then 2 else 1) : Nat))

/-- A party that blocks the die stands before this one (R277). -/
def State.blocked (s : State) (w : WaitParty) : Bool :=
  s.waiting.any (fun v => v.blocks && v.key != w.key &&
    (match s.taskOf v.task with | some k => k.fields.onDie s.die.toNat s.die.toNat | none => false))

/-- The version and entry that the task's binding names, when they can be read (R286). Nothing is checked of ENTRY: a thread starts at an
address that is no multiple of 4 as at any other (assumption 87). -/
def State.bindingEntry (s : State) (k : Task) : Option (Nat × Nat) :=
  match s.innRead k.ctx k.fields.bind.toNat 8 with
  | .error _ => none
  | .ok b =>
    match s.innRead k.ctx b 8, s.innRead k.ctx (b + 8) 8 with
    | .ok ver, .ok entry => some (ver, entry)
    | _, _ => none

/-- Nothing but its reservations keeps a party from being placed. -/
def State.mayPlace (s : State) (w : WaitParty) : Bool :=
  !w.held && !s.heldBack w && !s.blocked w && !s.atomicsOpen w.key && !s.saveOpen w &&
  (match w.saved, s.taskOf w.task with
   | some _, _ => true
   | none, some k => (s.bindingEntry k).isSome
   | none, none => false)

/-- A party may be placed now on this core. -/
def State.canPlace (s : State) (w : WaitParty) : Option (List Slot) :=
  if s.mayPlace w then s.fit w [] else none

/-! ## Placing (R264, R272 to R276) -/

/-- LPART at the placement of threads in slots with the lanes they are to hold: one beside a resident gets its count, one that has the core gets
all, and of two slot 1 gets its count (R221, R275). -/
def State.setParts (s : State) (parts : List (Slot × Nat)) : State :=
  let n := s.goodCount
  let give (c0 c1 : Nat) : State := { s with lcnt0 := BitVec.ofNat 7 c0, lcnt1 := BitVec.ofNat 7 c1 }
  match parts with
  | [] => s
  | [(sl, c)] =>
    let c := if (s.th (other sl)).occupied then c else n
    if sl = 0 then give c (n - c) else give (n - c) c
  | _ :: (_, c) :: _ => give (n - c) c

/-- A thread at its start (R15, R18, R223, R264, R286). -/
def startThread (k : Task) (w : WaitParty) (args : List Word) (lanes : BitVec 64) (ptidx ver entry : Nat) : Thread :=
  let f := k.fields
  let g := w.pidx * (f.ncore * f.perCore) + ptidx
  let x (n : Nat) : Word := BitVec.ofNat 64 n
  let regs : Vector Word 32 := Vector.ofFn (fun i =>
    if i.val = 29 then x (f.tls.toNat + g * f.tlssz)
    else if i.val = 31 then x (f.stack.toNat + (g + 1) * f.stksz)
    else if 1 ≤ i.val && i.val ≤ 8 then listGet 0 args (i.val - 1) else 0)
  { Thread.free with
    occupied := true, party := w.key, ctx := k.ctx, pc := x entry, sregs := regs, version := x ver
    cfg := { Cfg.start with ptidx := BitVec.ofNat 7 ptidx, pidx := BitVec.ofNat 32 w.pidx, task := k.va
                            lmap := lanes, lalive := BitVec.ofNat 8 (laneCount lanes) } }

/-- The engine state at the placement of an engine party (R21, R274, R317, R327, R375). -/
def State.freshEngine (s : State) : State :=
  { s with acc := [], accPoison := [], accFmt := Vector.replicate 4 .unset, accSat := Vector.replicate 4 false
           cmds := [], postFaults := [], wt := [], matQ := [], panels := Vector.replicate 2 .start, pike := .start }

/-- PTIDX of the thread in a slot of the core at a position of its party (R276). -/
def TaskRec.ptidx (f : TaskRec) (pos : Nat) (sl : Slot) : Nat := if f.two then 2 * pos + sl.val else pos

/-- Starts the threads of a party that has not run before. Of a party on more cores than this one, the position of this core in it is a free
value (R276, assumption 88). -/
def State.startParty (s : State) (k : Task) (w : WaitParty) (sls : List Slot) (ver entry : Nat) : State :=
  let f := k.fields
  let pos := if f.ncore ≤ 1 then 0 else (Config.freeValue s.fresh).toNat % f.ncore
  let s := if f.ncore ≤ 1 then s else { s with fresh := s.fresh + 1 }
  let s := s.setParts (sls.map (fun sl => (sl, f.lanes)))
  let s := if f.isEngine then s.freshEngine else s
  let args := if f.argp = 0 then [] else (List.range 8).map (fun i => BitVec.ofNat 64 (s.recNat k.ctx f.argp (8 * i)))
  let ids := sls.map (f.ptidx pos)
  let s := sls.foldl (fun (s : State) sl => s.setTh sl (startThread k w args (s.lanesFor sl) (f.ptidx pos sl) ver entry)) s
  let p : Party := { key := w.key, task := k.key, pidx := w.pidx, barriers := w.barriers, live := ids, stamp := s.seq, saving := none
                     pos := pos, remote := (f.ncore - 1) * f.perCore }
  let join (q : Task) : Task :=
    { q with started := true, pools := q.pools.map (fun p => { p with members := p.members ++ ids.map (fun i => (w.key, i)) }) }
  let s := { s with parties := s.parties ++ [p], seq := s.seq + 1
                    tasks := s.tasks.map (fun q => if q.key == k.key then join q else q) }
  if k.started then s else s.putTaskState k.ctx k.va 3

/-! ## The sections of a context image (R211, R281) -/

/-- Size rounded up to whole 256 bytes. -/
def pad256 (n : Nat) : Nat := (n + 255) / 256 * 256

/-- Sizes of the sections of the core's context image, in their order: thread records, window images, scratchpad, accumulators, lane tables, and
of an engine party Courier, matrix engine and Turnpike (R211, R274). -/
def TaskRec.sections (f : TaskRec) (ts : List Thread) : List Nat :=
  [512 * ts.length, (ts.map (fun t => imageSize t.regBytes)).sum, 4096 * f.tiles, 262208 * f.accs,
   (ts.map (fun t => 8192 * t.cfg.lalive.toNat)).sum] ++ if f.isEngine then [70656, 4352, 131328 * f.stages] else []

/-- Offset of section k in the image. -/
def TaskRec.sectionAt (f : TaskRec) (ts : List Thread) (k : Nat) : Nat := (((f.sections ts).take k).map pad256).sum

/-- Bytes of the image. -/
def TaskRec.imageBytes (f : TaskRec) (ts : List Thread) : Nat := ((f.sections ts).map pad256).sum

/-- A place n bytes further on. -/
def Loc.plus (x : Loc) (n : Nat) : Loc :=
  match x with
  | .sp a => .sp (a + n)
  | .home a => .home (a + n)
  | .tol f a => .tol f (a + n)
  | .ptol f a => .ptol f (a + n)
  | .view a => .view (a + n)
  | .peer a => .peer (a + n)
  | .host a => .host (a + n)
  | .nowhere => .nowhere

/-- The bytes of a range of a context, those that are not zero with their offsets; none where some page of it cannot be read. -/
def State.innCells (s : State) (ctx : BitVec 12) (va n : Nat) : Option (List Host.Cell) :=
  (if n = 0 then [] else pagesOf va n).foldl (fun (a : Option (List Host.Cell)) p =>
    let len := min (va + n) ((p / 2 ^ 16 + 1) * 2 ^ 16) - p
    match a, s.innLoc ctx false p with
    | some l, .ok (.home pa) => some (l ++ (s.mem.filter (fun c => pa ≤ c.1 && c.1 < pa + len)).map (fun c => (c.1 - pa + (p - va), c.2)))
    | some l, .ok x =>
      some (l ++ ((List.range len).map (fun i => (p - va + i, s.locByte (x.plus i)))).filter (fun c => c.2 != unwritten))
    | _, _ => none) (some [])

/-- Words of four bytes from the bytes of a range, in its order. -/
def wordCells (l : List Host.Cell) : List (Nat × BitVec 32) :=
  l.foldr (fun c a =>
    let b : BitVec 32 := BitVec.ofNat 32 (c.2.toNat * 256 ^ (c.1 % 4))
    match a with
    | (k, w) :: r => if k = c.1 / 4 then (k, w ||| b) :: r else (c.1 / 4, b) :: (k, w) :: r
    | [] => [(c.1 / 4, b)]) []

/-! ## Resuming (R210, R212) -/

/-- The slot that a thread of a resumed party has gone to. -/
def reslot (moves : List (Slot × Slot)) (sl : Slot) : Slot := match moves.find? (fun p => p.1 == sl) with | some p => p.2 | none => sl

/-- The engine state that a context image holds at an address: scratchpad, accumulator data and stencil weights are read from it; the rest has
no layout in it and is as it was saved (R211, R212, assumption 92). -/
def State.readEngine (s : State) (k : Task) (ts : List Thread) (base : Nat) (e : SavedEngine) : SavedEngine :=
  let f := k.fields
  let at_ (n : Nat) : Nat := base + f.sectionAt ts n
  { e with
    sp := (s.innCells k.ctx (at_ 2) (4096 * f.tiles)).getD e.sp
    acc := (List.range f.accs).foldl (fun (a : List (Nat × BitVec 32)) i =>
      match s.innCells k.ctx (at_ 3 + 262208 * i) 262144 with
      | some l => a.filter (fun c => c.1 / 65536 != i) ++ (wordCells l).map (fun c => (65536 * i + c.1, c.2))
      | none => a) e.acc
    wt := (s.innCells k.ctx (at_ 5 + 66560) 4096).getD e.wt }

/-- Writes cells over those of a range of a sparse list. -/
def overlay {α : Type} [DecidableEq α] (d : α) (m : List (Nat × α)) (gone : Nat → Bool) (l : List (Nat × α)) : List (Nat × α) :=
  l.foldl (fun m c => Cells.set d m c.1 c.2) (m.filter (fun c => !gone c.1))

/-- Puts a command in its place in post order. -/
def insertCmd : List Cmd → Cmd → List Cmd
  | [], c => [c]
  | d :: r, c => if c.seq < d.seq then c :: d :: r else d :: insertCmd r c

/-- Restores the engine state of a resumed party beside the copies that have run on (R212). -/
def State.loadEngine (s : State) (f : TaskRec) (e : SavedEngine) (moves : List (Slot × Slot)) : State :=
  let mv (sl : Slot) : Slot := reslot moves sl
  let op (o : MatOp) : MatOp := match o with | .mrd a q sl rid => .mrd a q (mv sl) rid | o => o
  let pk (c : PikeCmd) : PikeCmd := { c with slot := mv c.slot }
  { s with
    sp := overlay unwritten s.sp (fun a => a < 4096 * f.tiles) e.sp
    spPoison := s.spPoison.filter (fun a => 4096 * f.tiles ≤ a) ++ e.spBad
    acc := overlay 0 [] (fun _ => false) e.acc, accPoison := e.accBad, accFmt := e.accFmt, accSat := e.accSat
    wt := overlay unwritten [] (fun _ => false) e.wt, panels := e.panels
    cmds := (s.cmds.foldl insertCmd e.cmds).map (fun c => { c with slot := mv c.slot })
    postFaults := e.faults.map (fun f => { f with slot := mv f.slot })
    matQ := e.matQ.map (fun c => { c with slot := mv c.slot, op := op c.op })
    pike := { e.pike with queue := e.pike.queue.map pk, feeds := e.pike.feeds.map pk } }

/-- The contributions that have come to barrier n count one at a time as a party resumes. The flag says that the current phase has had no arrival
before this step (R210, R252, R254). -/
def State.settleBarrier (s : State) (key : Nat) (n : Fin 16) (now : Bool) : Nat → State
  | 0 => s
  | k + 1 =>
    match s.partyOf key with
    | none => s
    | some p =>
      let s' := s.arrive p n byContribution now
      s'.settleBarrier key n (now || (s'.barOf key n).phase != (p.barriers.get n).phase) k

/-- Contributions made while a party was parked count in one step, and may complete a phase (R210). -/
def State.settleBarriers (s : State) (key : Nat) : State :=
  (List.finRange 16).foldl (fun s n =>
    match s.partyOf key with
    | none => s
    | some p =>
      let b := p.barriers.get n
      (s.setParty { p with barriers := p.barriers.set n { b with pend := 0 } }).settleBarrier key n (decide (b.arr = 0)) b.pend) s

/-- Answers to the atomics of a parked party go to the slots of its threads (R209). -/
def State.unparkReqs (s : State) (key : Nat) (seats : List (Nat × Slot)) : State :=
  { s with reqs := s.reqs.map (fun q =>
      match q.who with
      | .parked k i el =>
        (match seats.find? (fun p => k == key && p.1 == i), el with
         | some p, none => { q with who := .scalar p.2 }
         | some p, some (rid, e) => { q with who := .element p.2 rid e }
         | none, _ => q)
      | _ => q) }

/-- The lane tables of a thread come from its image: those of its saved lanes, in their order, go to the lanes that it holds now (R211, R212). -/
def State.loadTables (s : State) (v : Saved) (cells : Option (List Host.Cell)) (from_ sl : Slot) (old new : BitVec 64) (first : Nat) : State :=
  let lanes := ((List.range 64).filter (fun k => old.getLsbD k)).zip ((List.range 64).filter (fun k => new.getLsbD k))
  let lanes := (List.range lanes.length).zip lanes
  let s := s.clearTables sl (BitVec.allOnes 64)
  let part (l : List Host.Cell) (a b : Nat) : List Host.Cell :=
    (l.filter (fun c => a ≤ c.1 && c.1 < a + 8192)).map (fun c => (c.1 - a + b, c.2))
  let got := lanes.flatMap (fun x => match cells with
    | some l => part l (8192 * (first + x.1)) (tableAddr sl x.2.2 0)
    | none => part v.tables (tableAddr from_ x.2.1 0) (tableAddr sl x.2.2 0))
  { s with tables := overlay unwritten s.tables (fun _ => false) got
           ltPoison := s.ltPoison ++ lanes.flatMap (fun x =>
             (v.bad.filter (fun p => tableAddr from_ x.2.1 0 ≤ p && p < tableAddr from_ (x.2.1 + 1) 0)).map
               (fun p => p - tableAddr from_ x.2.1 0 + tableAddr sl x.2.2 0)) }

/-- A walk that has not ended is posted again as its thread resumes (R209, R290). -/
def Thread.repost (t : Thread) (seq : Nat) : Thread :=
  { t with vec := { t.vec with window := t.vec.window.map (fun r => match r.instr with | .cwalk _ _ _ _ => { r with post := seq } | _ => r) } }

/-- Where the context image of the core at a position stands in the save area; the images of earlier cores are not the model's (R281,
assumption 88). -/
def imageAt (f : TaskRec) (pidx pos : Nat) (free : Word) (size : Nat) : Nat :=
  let room := (4096 * f.savesz - 0x200 - size) / 256
  f.save.toNat + pidx * f.savesz * 4096 + 0x200 + (if pos = 0 then 0 else 256 * (free.toNat % (room + 1)))

/-- The bytes of a context at an address are the window image of a thread as it was saved, or they are no window image. -/
def State.windowKept (s : State) (ctx : BitVec 12) (a : Nat) (t : Thread) : Bool :=
  let n := imageSize t.regBytes
  match s.innCells ctx a n with
  | none => true
  | some l => !l.contains (0, 3) || l == ((List.range n).zip t.image).filter (fun c => c.2 != unwritten)

/-- The window of a thread comes back from its image in the save area as ERET installs one; bytes there that WLOAD would refuse leave the window
as it was saved (R205, R207, R212, assumption 92). -/
def State.readWindow (s : State) (ctx : BitVec 12) (a : Nat) (t : Thread) : State × Thread :=
  if s.windowKept ctx a t then (s, t)
  else
    let n := imageSize t.regBytes
    let img := ((s.innCells ctx a n).getD []).foldl (fun (x : Array Byte) c => x.setIfInBounds c.1 c.2) (Array.replicate n unwritten)
    match s.imgHeaders t img (imgVpfEntries img) with
    | (s', some heads) =>
      (match t.install img heads with
       | some u => (s', if t.held then u else { u with cfg := u.cfg.unVsw u.vsw })
       | none => (s, t))
    | (_, none) => (s, t)

/-- The threads of a resumed party with the windows that their images hold, one image after another. -/
def State.readWindows (s : State) (ctx : BitVec 12) (a : Nat) : List (Slot × Thread) → State × List (Slot × Thread)
  | [] => (s, [])
  | (sl, t) :: r =>
    let x := s.readWindow ctx a t
    let y := x.1.readWindows ctx (a + imageSize t.regBytes) r
    (y.1, (sl, x.2) :: y.2)

/-- The core lends quarters for a resumed thread: its dirty lines are written back, and lines beyond the capacity leave (R129, R235). -/
def State.raiseQ (s : State) (q : BitVec 2) : State := if s.qcore < q then State.fitLines { s.releaseLines with qcore := q } else s

/-- Resumes a pre-empted party: its image is read back, and each thread holds as many lanes and the level that it was saved with (R210, R212). -/
def State.resumeParty (s : State) (k : Task) (w : WaitParty) (sls : List Slot) (v : Saved) : State :=
  let ts := v.threads.map (·.2)
  let base := v.base
  let read := s.readWindows k.ctx (base + k.fields.sectionAt ts 1) v.threads
  let s := read.1
  let v := { v with threads := read.2 }
  let s := s.setParts (sls.zip (w.lanes k.fields))
  let moves := (v.threads.map (·.1)).zip sls
  let tabs := s.innCells k.ctx (base + k.fields.sectionAt ts 4) ((ts.map (fun t => 8192 * t.cfg.lalive.toNat)).sum)
  let engine := v.engine.map (s.readEngine k ts base)
  let s := ((v.threads.zip sls).foldl (fun (a : State × Nat) q =>
    let t := q.1.2
    let lanes := pickLanes (a.1.lanesFor q.2) 0 t.cfg.lalive.toNat
    let s := a.1.setTh q.2 ({ t with cfg := { t.cfg with lmap := lanes } }.repost a.1.seq)
    let s := { s.raiseQ t.cfg.qcur with seq := s.seq + 1 }
    (s.loadTables v tabs q.1.1 q.2 t.cfg.lmap lanes a.2, a.2 + t.cfg.lalive.toNat)) (s, 0)).1
  let p : Party := { key := w.key, task := k.key, pidx := w.pidx, barriers := w.barriers
                     live := ts.map (fun t => t.cfg.ptidx.toNat), stamp := s.seq, saving := none, pos := v.pos, remote := v.remote }
  let s := { s with parties := s.parties ++ [p], seq := s.seq + 1 }
  let s := match engine with | some e => s.loadEngine k.fields e moves | none => s
  (s.unparkReqs w.key ((ts.map (fun t => t.cfg.ptidx.toNat)).zip sls)).settleBarriers w.key

/-- The core is ready to take a party (R407, R415). -/
def State.coreReady (s : State) : Bool := s.ready && s.gate == .on

/-- The core takes up the decode table that the firmware has written, and then holds no word decoded by the old one (R52). -/
def State.takeTable (s : State) : State := if s.tableUsed = s.table then s else { s with tableUsed := s.table, words := [] }

/-- Places a party whose threads get the given slots. -/
def State.placeParty (s : State) (w : WaitParty) (sls : List Slot) : Option State :=
  match s.taskOf w.task with
  | none => none
  | some k =>
    let s := { (s.dropWords k.ctx).takeTable with waiting := s.waiting.filter (fun v => v.key != w.key) }
    match w.saved with
    | some v => some (s.resumeParty k w sls v)
    | none =>
      match s.bindingEntry k with
      | some (ver, entry) => some (s.startParty k w sls ver entry)
      | none => none

/-- The party asks for more cores than this one. -/
def State.wide (s : State) (w : WaitParty) : Bool := match s.taskOf w.task with | some k => decide (1 < k.fields.ncore) | none => false

/-- PARTY_PLACE: the first party in the order that fits is placed and its threads start; one that the purse holds back is not considered again
before the next interval. Whether the other cores of a party on several can be reserved, with this one among those chosen, is a free choice
(R272, R276 to R278, assumption 88). -/
def State.partyPlace (s : State) : Option State :=
  if !s.coreReady then none
  else
    let order := s.order
    let others (w : WaitParty) (i : Nat) : Bool := !s.wide w || Config.freeChoice (s.fresh + i)
    let got := ((List.range order.length).zip order).findSome? (fun x =>
      if others x.2 x.1 then (s.canPlace x.2).map (fun sls => (x.1, x.2, sls)) else none)
    let seen := (order.take (match got with | some g => g.1 | none => order.length)).filter (fun w => !w.held && s.heldBack w)
    let s' := { s with fresh := if order.any s.wide then s.fresh + order.length else s.fresh
                       waiting := s.waiting.map (fun w => if seen.any (fun v => v.key == w.key) then { w with held := true } else w) }
    match got with
    | some (_, w, sls) => s'.placeParty w sls
    | none => if seen = [] && !order.any s.wide then none else some s'

/-! ## Ends (R282, R283) -/

/-- No engine command of the party is incomplete. -/
def State.enginesDone (s : State) (key : Nat) : Bool :=
  !s.cmds.any (fun c => c.party == key) && !s.matQ.any (fun c => c.party == key) &&
  !(s.pike.queue ++ s.pike.feeds).any (fun c => c.party == key)

/-- A waiting party is placed on cores other than this one, where the cores of its die, or a die of a greater sum of EFF, take it: its threads run
there, and none of them is on this core (R272, R276, assumption 88). -/
def State.placeAway (s : State) (key : Nat) : Option State :=
  match s.waiting.find? (fun w => w.key == key) with
  | none => none
  | some w =>
    match s.taskOf w.task with
    | none => none
    | some k =>
      if !s.ready || !s.mayPlace w then none
      else
        let n := match w.saved with | some v => v.threads.length + v.remote | none => k.fields.ncore * k.fields.perCore
        let p : Party := { key := key, task := k.key, pidx := w.pidx, barriers := w.barriers, live := [], stamp := s.seq, saving := none
                           pos := max 1 k.fields.ncore, remote := n }
        let s := { s with parties := s.parties ++ [p], seq := s.seq + 1, waiting := s.waiting.filter (fun v => v.key != key)
                          tasks := s.tasks.map (fun q => if q.key == k.key then { q with started := true } else q) }
        some (if k.started then s else s.putTaskState k.ctx k.va 3)

/-- PARTY_END: every thread has exited and every command is complete; the last party of a task that has not faulted completes it, once a release
step at system scope has made what its threads have done visible (R97, R282, R349). Whether the threads on other cores have exited is a free
choice, and of a party that waits the event stands for its placement on other cores (assumption 88). -/
def State.partyEnd (s : State) (key : Nat) : Option State :=
  match s.partyOf key with
  | none => s.placeAway key
  | some p =>
    if p.live ≠ [] || p.saving.isSome || !s.enginesDone key then none
    else if 0 < p.remote && !Config.freeChoice s.fresh then some { s with fresh := s.fresh + 1 }
    else
      let ended (s : State) : State := { s with parties := s.parties.filter (fun q => q.key != key) }
      match s.taskOf p.task with
      | none => some (ended s)
      | some k =>
        let k := { k with open_ := k.open_ - 1 }
        if k.open_ = 0 && !k.faulted then
          let r := s.sysReleaseFor k.ctx
          if r.2 then some ({ ended r.1 with tasks := s.tasks.filter (fun q => q.key != k.key) }.completeTask k.ctx k.va k.fields) else some r.1
        else some ((ended s).setTask k)

/-- PRIORITY_AGING: another 5 ms of waiting for the parties of a task that began to wait together: those dispatched with it, or one that was saved
since; which of them is a free value (R277, R281, assumption 10). -/
def State.priorityAging (s : State) (task : Nat) : Option State :=
  match ((s.waiting.filter (fun w => w.task == task)).map (·.stamp)).dedup with
  | [] => none
  | a :: r =>
    let n := if r = [] then a else listGet a (a :: r) ((Config.freeValue s.fresh).toNat % (r.length + 1))
    some { s with fresh := if r = [] then s.fresh else s.fresh + 1
                  waiting := s.waiting.map (fun w => if w.task == task && w.stamp == n then { w with age := min 3 (w.age + 1) } else w) }

/-- FIRST_PARTY_BLOCKS_PLACEMENT (R277). -/
def State.firstPartyBlocks (s : State) (key : Nat) : Option State :=
  match s.order with
  | w :: _ =>
    if w.key = key && s.effPrio w = 3 then
      some { s with waiting := s.waiting.map (fun v => if v.key == key then { v with blocks := true } else v) }
    else none
  | [] => none

/-! ## Victims (R280, R281) -/

/-- The slots that hold a thread of the party. -/
def State.slotsOf (s : State) (key : Nat) : List Slot := [0, 1].filter (fun sl => (s.th sl).occupied && (s.th sl).party == key)

/-- The party can be saved: its save area holds the barrier objects and the image of this core; whether those of its other cores fit as well is a
free choice (R281, assumption 88). -/
def State.saveable (s : State) (p : Party) (f : TaskRec) (others : Bool) : Bool :=
  f.save ≠ 0 && decide (0x200 + f.imageBytes ((s.slotsOf p.key).map s.th) ≤ 4096 * f.savesz) && (f.ncore ≤ 1 || others)

/-- MINRES of the die's policy: the least time in µs for which a victim has been placed (R280). -/
def State.minres (s : State) : Nat := (s.policy.get s.die.toFin).toNat / 2 ^ 4 % 2 ^ 16

/-- Placed parties that a waiting one at effective priority e may pre-empt: lowest PRIO first, then the latest placed. Whether a party has been
placed for MINRES µs is a free choice; a party of its own task is none (R280, assumption 10). -/
def State.candidates (s : State) (e task : Nat) : List Nat :=
  let l := ((List.range s.parties.length).zip s.parties).filterMap (fun x =>
    let p := x.2
    match s.taskOf p.task with
    | some k =>
      if k.fields.prio < e && p.task != task && !p.away k.fields && s.saveable p k.fields (Config.freeChoice (s.fresh + 2 * x.1 + 1)) && p.saving.isNone &&
          (s.minres = 0 || Config.freeChoice (s.fresh + 2 * x.1)) then
        some (k.fields.prio, p.stamp, p.key)
      else none
    | none => none)
  let better (a b : Nat × Nat × Nat) : Bool := a.1 < b.1 || (a.1 = b.1 && b.2.1 < a.2.1)
  (l.foldl (fun acc x => (acc.takeWhile (fun y => !better x y)) ++ x :: acc.dropWhile (fun y => !better x y)) []).map (·.2.2)

/-- The shortest run of candidates whose removal would place the first waiting party; none where none would, and none while its purse holds that
party back, which nobody's resources would place (R278, R280, assumption 109). -/
def State.victims (s : State) : List Nat :=
  match s.order with
  | [] => []
  | w :: _ =>
    let e := s.effPrio w
    if (s.canPlace w).isSome || !(s.policy.get s.die.toFin).getLsbD e || w.held || s.heldBack w then []
    else
      let c := s.candidates e w.task
      match (List.range c.length).find? (fun i => (s.fit w (c.take (i + 1))).isSome) with
      | some i => c.take (i + 1)
      | none => []

/-! ## What the threads of a parked party are answered (R209, R404) -/

/-- Changes a saved thread of a party, wherever it is saved; its image in the save area, once it is written, changes with it, byte for byte. -/
def State.changeSaved (s : State) (key ptidx : Nat) (f : Thread → Thread) : State :=
  let mine (t : Thread) : Bool := t.party == key && t.cfg.ptidx.toNat == ptidx
  let patch (s : State) (w : WaitParty) : State :=
    match w.saved, s.taskOf w.task with
    | some v, some k =>
      let ts := v.threads.map (·.2)
      let at_ := v.base + k.fields.sectionAt ts 1
      (ts.foldl (fun (a : State × Nat) t =>
        let n := imageSize t.regBytes
        if mine t then
          let ds := ((List.range n).zip (t.image.zip (f t).image)).filter (fun p => p.2.1 != p.2.2)
          (ds.foldl (fun s p => s.innPut k.ctx (a.2 + p.1) [p.2.2]) a.1, a.2 + n)
        else (a.1, a.2 + n)) (s, at_)).1
    | _, _ => s
  ((s.waiting.filter (fun w => w.key == key)).foldl patch s).mapSaved (fun t => if mine t then f t else t)

/-- The answer of an atomic element of a parked party is written into its saved state: the element lands as it would on the core. The state with what
that counts, and the thread (R153, R209). -/
def State.landSaved (s : State) (t : Thread) (rid e : Nat) (data : Word) (lost : Bool) : State × Thread :=
  let u := s.th 0
  let x := s.setTh 0 { t with held := false, occupied := true }
  match x.ruleOf 0 rid with
  | none => (s, t)
  | some r =>
    let x := x.addFlight 0 r e data.toNat lost
    let pos := (x.th 0).vec.window.findIdx (fun q => q.rid == rid)
    let x := (x.dataLanding 0 pos e).getD x
    let w := x.th 0
    (x.setTh 0 u, { t with vec := w.vec, cfg := w.cfg })

/-- An answer for an atomic element of a parked party is used up (R209). -/
def State.writeSaved (s : State) (q : Req) (key ptidx rid e : Nat) (data : Word) (lost : Bool) : State :=
  match s.savedThreads.find? (fun t => t.party == key && t.cfg.ptidx.toNat == ptidx) with
  | none => s
  | some t => (((s.landSaved t rid e data lost).1).changeSaved key ptidx (fun t => (s.landSaved t rid e data lost).2)).dropReq q.id

/-- The answers that have come for atomic elements of parked parties are written into the saved images (R209). -/
def State.settleSaved (s : State) : State :=
  s.reqs.foldl (fun s q =>
    match q.who, q.status with
    | .parked key i (some (rid, e)), .answered d => s.writeSaved q key i rid e d false
    | .parked key i (some (rid, e)), .failed => s.writeSaved q key i rid e 0 true
    | _, _ => s) s

/-- Phase two has ended for a saved thread: its XCOMMIT is committed with 0 (R404). -/
def Thread.commitSaved (t : Thread) (x : Txn) : Thread :=
  let t := ({ t with txn := none, pc := t.pc + 4 } : Thread).wr x.dest 0
  if t.held then t else { t with count := t.count + 1 }

/-- The reply of a target for a transaction of a pre-empted thread, whose phase two runs on; with the last one s(D) = 0 stands in the saved image
(R404). -/
def State.replySaved (s : State) (target : Nat) : Option State :=
  s.savedThreads.findSome? (fun t =>
    match t.txn with
    | none => none
    | some x =>
      if x.phase ≠ .phase2 then none
      else (s.replyTo x target true).map (fun p =>
        (p.1.changeSaved t.party t.cfg.ptidx.toNat (fun u => if p.2.await = [] then u.commitSaved x else { u with txn := some p.2 })).billReply t.ctx))

/-- XT_TARGET_REPLY: of the transactions that can take the reply, those of the slots come first (R403, R404). -/
def State.xtTargetReply (s : State) (target : Nat) (held : Bool) : Option State :=
  (s.replySlot 0 target held) <|> (s.replySlot 1 target held) <|> (s.replySaved target) <|> (s.replyOrphan target)

/-! ## Pre-emption (R209 to R215) -/

/-- Reads of the slot's elements that are on their way are dropped; what atomics have returned is kept (R209). -/
def State.dropReads (s : State) (sl : Slot) : State :=
  let t := s.th sl
  let keep (r : Rule) : Bool := match r.spec.kind with | .mem m => m.writes | _ => false
  let w := t.vec.window.map (fun r => if keep r then r else { r with flight := [] })
  let s := s.setTh sl { t with vec := { t.vec with window := w } }
  { s with reqs := s.reqs.filter (fun q => match q.who, q.op with
      | .element k _ _, .read _ => k != sl
      | .scalar k, .read _ => k != sl
      | _, _ => true) }

/-- The window is quiescent for a pre-emption: nothing retires, fires, is carried or lands, and no block rule that has issued can go on (R209,
R247). -/
def State.fireQuiet (s : State) (sl : Slot) : Bool :=
  let t := s.th sl
  let lanes := (List.finRange 64).filter (fun k => t.cfg.lmap.getLsbD k.val)
  t.frozen || ((s.retire sl).isNone && !t.vec.window.any (fun r => r.flight != []) &&
    lanes.all (fun k => [.integerMask, .floating, .permute, .memoryReturn].all (fun c => (s.elementFire sl k c).isNone) &&
      (s.carryCopy sl k).isNone) && (s.vpExec sl).isNone)

/-- The slot's thread has reached the boundary at which it can be stopped: the firmware has answered its call (R209, R422). -/
def State.stoppable (s : State) (sl : Slot) : Bool :=
  (match (s.th sl).wait with | some (.service _) => false | _ => true) && s.fireQuiet sl

/-- A fault that meets the pre-emption is taken first, with ESTATUS.PREEMPT = 1: one of the rule at the head of the window, that of the word at the
boundary, then an engine fault. A fault of a rule behind one whose reads are dropped stays for the resume, and so does the word's, which is
younger (R198, R199, R213, R215). -/
def State.trapFirst (s : State) (sl : Slot) : State :=
  let t := s.th sl
  let mark (s : State) : State :=
    let u := s.th sl
    if u.occupied then s.setTh sl { u with cfg := { u.cfg with preempt := true } } else s
  if t.held then s
  else match t.vec.oldestFault, t.found with
    | some (0, r, f), _ => mark (s.takeTrap sl (faultInfo t 0 r f))
    | none, some i => mark (s.takeTrap sl i)
    | _, _ => if s.engineReady sl then mark (s.deliverEngine sl) else s

/-- Store elements that have left the core for a peer are done (R209). -/
def State.sentDone (s : State) (sl : Slot) : State :=
  s.reqs.foldl (fun s q =>
    match q.who, q.op with
    | .element k rid e, .write _ =>
      (match (if k = sl then s.ruleOf sl rid else none) with
       | some r =>
         (match r.spec.kind with
          | .mem m => if r.isDone e then s else let x := storeRes (s.th sl).vec r m e; s.storeDone sl r e x.fl x.vs
          | _ => s)
       | none => s)
    | _, _ => s) s

/-- The thread as its record keeps it: VPs that have not stopped are rolled back, and an open transaction whose decision has not been made is no
longer live (R201, R247, R404). -/
def Thread.parked (t : Thread) : Thread :=
  let t := t.squash
  { t with stalled := false, drain := false, found := none, queue := [], early := [], defer := false, vec := if t.held then t.vec else t.vec.anew
           vsw := if t.held then t.vsw else t.cfg.vsw, vpf := t.vpf.map Vpf.rollback
           txn := t.txn.map (fun x => if x.phase = .phase2 || x.code ≠ 0 then x else x.abort 5) }

/-- Records in the chain finish and are spooled (R385). -/
def State.finishChain : Nat → State → State
  | 0, s => s
  | n + 1, s =>
    match s.turnpikePassEnd with
    | some s => s.finishChain n
    | none => match s.reenter with | some s => s.finishChain n | none => s

/-- An MMA that has begun finishes, or goes on until it waits on rows of a parked copy (R209). -/
def State.finishMma : Nat → State → State
  | 0, s => s
  | n + 1, s =>
    match s.matQ with
    | c :: _ => if c.done = 0 then s else (match c.op, s.matrixQueueServe with | .mma _ _ _ _, some s => s.finishMma n | _, _ => s)
    | [] => s

/-- A parked command goes on from its first element that is not transferred; each above it is performed again (R209, R321). -/
def Cmd.rewound (c : Cmd) : Cmd :=
  let first := ((List.range c.kind.count).find? (fun e => !c.xfer.contains e)).getD c.kind.count
  { c with xfer := c.xfer.filter (fun e => e < first), ready := [] }

/-- The engine state of the core leaves with its party (R209, R211, R274). -/
def State.takeEngine (s : State) (tiles : Nat) : State × SavedEngine :=
  let s := (s.finishChain 200).finishMma 300
  let s := (splitCmds s.cmds).2.foldl State.settleReady s
  let (on, off) := splitCmds s.cmds
  let e : SavedEngine :=
    { sp := s.sp.filter (fun c => c.1 < 4096 * tiles), acc := s.acc, accFmt := s.accFmt, accSat := s.accSat, cmds := off.map Cmd.rewound
      faults := s.postFaults, wt := s.wt, matQ := s.matQ, panels := s.panels, pike := s.pike
      spBad := s.spPoison.filter (fun a => a < 4096 * tiles), accBad := s.accPoison }
  ({ s with cmds := on, postFaults := [], matQ := [], pike := .start }, e)

/-- The party's threads stop, what has left the core for them goes on, and the release step runs (R209). -/
def State.stopThreads (s : State) (sls : List Slot) : State :=
  (sls.foldl (fun (s : State) sl => (s.parkReqs sl).drainQueue sl) s).releaseLines

/-- PREEMPTION: every thread of a victim stops at its boundary, its state is formed, and its slots are free (R209). -/
def State.preemption (s : State) (key : Nat) : Option State :=
  let aged : State := { s with fresh := s.fresh + 2 * s.parties.length }
  if !s.victims.contains key then (if s.minres = 0 then none else some aged)
  else
    let sls := aged.slotsOf key
    let s := sls.foldl State.dropReads aged
    if !sls.all s.stoppable then none
    else
      let s := (sls.foldl State.trapFirst (sls.foldl State.sentDone s))
      let sls := s.slotsOf key
      let s := s.stopThreads sls
      match s.partyOf key with
      | none => some s
      | some p =>
        let f := match s.taskOf p.task with | some k => k.fields | none => s.readTask 0 0
        let ts := sls.map (fun sl => (sl, (s.th sl).parked))
        let mine (a : Nat) : Bool := sls.any (fun sl => decide (tableAddr sl 0 0 ≤ a ∧ a < tableAddr sl 64 0))
        let tables := s.tables.filter (fun c => mine c.1)
        let bad := s.ltPoison.filter mine
        let base := imageAt f p.pidx p.pos (Config.freeValue s.fresh) (f.imageBytes (ts.map (·.2)))
        let s := if p.pos = 0 then s else { s with fresh := s.fresh + 1 }
        let (s, e) := if f.isEngine then (let (s, e) := s.takeEngine f.tiles; (s, some e)) else (s, none)
        let v : Saved := { threads := ts, tables := tables, engine := e, bad := bad, pos := p.pos, remote := p.remote, base := base }
        let s := sls.foldl State.freeSlot s
        some (State.settleSaved { s with parties := s.parties.map (fun q => if q.key == key then { q with saving := some v } else q) })

/-! ## The save area (R211, R281) -/

/-- A byte of the save area; none where the spec gives no layout or contents: a free value (assumption 12). -/
abbrev SaveByte := Option Byte

def openBytes (n : Nat) : List SaveByte := List.replicate n none

/-- A section with the bytes that pad it. -/
def padSection (b : List SaveByte) : List SaveByte := b ++ openBytes (pad256 b.length - b.length)

/-- The bytes with free values in the places that are open. -/
def fillBytes (start : Nat) (l : List SaveByte) : List Byte :=
  ((List.range l.length).zip l).map (fun p => p.2.getD ((Config.freeValue (start + p.1)).setWidth 8))

/-- The context image of the core: window images, scratchpad, accumulator data, lane tables and stencil weights stand where R211 puts them. -/
def coreImage (f : TaskRec) (v : Saved) : List SaveByte :=
  let ts := v.threads.map (·.2)
  let tables := v.threads.flatMap (fun p => ((List.range 64).filter (fun k => p.2.cfg.lmap.getLsbD k)).flatMap (fun k =>
    (List.range 8192).map (fun o => some (Memory.get v.tables (tableAddr p.1 k o)))))
  let sp (e : SavedEngine) := (List.range (4096 * f.tiles)).map (fun a => some (Memory.get e.sp a))
  let acc (e : SavedEngine) := (List.range f.accs).flatMap (fun a =>
    (List.range 65536).flatMap (fun i => (leBytes 4 (Cells.get 0 e.acc (65536 * a + i)).toNat).map some) ++ openBytes 64)
  let head := padSection (openBytes (512 * ts.length)) ++ padSection ((ts.flatMap Thread.image).map some)
  match v.engine with
  | some e =>
    head ++ padSection (sp e) ++ padSection (acc e) ++ padSection tables ++
      padSection (openBytes 66560 ++ (Memory.getList e.wt 0 4096).map some) ++ padSection (openBytes 4352) ++
      padSection (openBytes (131328 * f.stages))
  | none => head ++ padSection tables

/-- PARTY_SAVE_DONE: the barrier objects and the image are written, and the party rejoins the placement order (R281). -/
def State.partySaveDone (s : State) (key : Nat) : Option State :=
  match s.partyOf key with
  | none => none
  | some p =>
    match p.saving, s.taskOf p.task with
    | some v, some k =>
      let f := k.fields
      let image := coreImage f v
      let s := s.innPut k.ctx (f.save.toNat + p.pidx * f.savesz * 4096) (fillBytes s.fresh (openBytes 0x200))
      let s := s.innPut k.ctx v.base (fillBytes (s.fresh + 0x200) image)
      let w : WaitParty := { key := key, task := p.task, pidx := p.pidx, stamp := s.seq, age := 0, blocks := false
                             barriers := p.barriers, saved := some v }
      some { s with fresh := s.fresh + 0x200 + image.length, seq := s.seq + 1
                    parties := s.parties.filter (fun q => q.key != key), waiting := s.waiting ++ [w] }
    | _, _ => none

end Sys2Proof.Machine
end

