-- ==== Sys2Proof/Machine/Power.lean ====
section
/-! DEFINITION. Power, wear and reset, and the steps of the memory hierarchy (spec/25 R405 to R415; spec/13 R225, R237 to R239; spec/20 R348;
spec/21 R372). -/

namespace Sys2Proof.Machine

/-! ## The scalar cache and page copies (R343, R348, R372) -/

/-- COW_COPY_DONE: the copy of a page ends and its entry is rewritten (R372). -/
def State.cowCopyDone (s : State) (leaf : Nat) : Option State := (s.cows.find? (fun c => c.leaf == leaf)).map s.cowFinish

/-- LINE_WRITEBACK, and DIRTY_LINE_TIMEOUT: the dirty bytes of a line are written back (R348). -/
def State.lineWriteback (s : State) (n : Nat) : Option State :=
  match s.findLine n with
  | some l => if l.dirty = 0 then none else some (s.flushLine n)
  | none => none

/-- LINE_DISCARD, and CLEAN_LINE_TIMEOUT: a line without a dirty byte is discarded (R348). -/
def State.lineDiscard (s : State) (n : Nat) : Option State :=
  match s.findLine n with
  | some l => if l.dirty = 0 then some (s.dropLine n) else none
  | none => none

/-- A held translation maps the line. -/
def State.mapsLine (s : State) (t : TlbEntry) (n : Nat) : Bool :=
  let base := s.canon (pteAddr t.pte / 2 ^ pageLog t.level * 2 ^ pageLog t.level)
  decide (base ≤ 64 * n ∧ 64 * n + 64 ≤ base + 2 ^ pageLog t.level)

/-- The scalar cache may hold the line: it lies in local memory, and is not known only as part of pages that are never held (R343). -/
def State.mayHold (s : State) (n : Nat) : Bool :=
  let maps := s.tlb.filter (fun t => s.mapsLine t n)
  s.isLocal (64 * n + 63) &&
  (maps == [] || maps.any (fun t => cacheable { addr := t.addr, e := t.pte, level := t.level } (.home (64 * n))))

/-- LINE_PREFETCH: any line is filled from the home store (R348). -/
def State.linePrefetch (s : State) (n : Nat) : Option State :=
  if (s.findLine n).isNone && s.mayHold n then some (s.fillLine n) else none

/-! ## Purses and clocks (R237 to R239, R405, R409) -/

/-- PURSE_INTERVAL: SPENT becomes 0 and G becomes 8, and parties that the purse has held back are considered again (R237, R278). -/
def State.purseInterval (s : State) : State :=
  { s with ctxs := s.ctxs.map (fun c => { c with spent := 0, g := 8 }), waiting := s.waiting.map (fun w => { w with held := false }) }

/-- DROOP_DETECT (R239). -/
def State.droopDetect (s : State) : Option State := if s.droop then none else some { s with droop := true }

/-- DROOP_END (R239). -/
def State.droopEnd (s : State) : Option State := if s.droop then some { s with droop := false } else none

/-- CLOCK_STEP: the clock moves one step toward CORESPEED.EFF (R405). -/
def State.clockStep (s : State) : Option State :=
  if s.clock.toNat < s.eff then some { s with clock := s.clock + 1 }
  else if s.eff < s.clock.toNat then some { s with clock := s.clock - 1 }
  else none

/-! ## Gating and wake (R406, R407) -/

/-- The core holds no thread and no engine command that is not complete (R406). -/
def State.idle (s : State) : Bool :=
  s.threads.toList.all (fun t => !t.occupied) && s.cmds == [] && s.matQ == [] && s.pike.queue == [] && s.pike.feeds == []

/-- CORE_GATE: the hold of an idle core that is no steward ends; dirty bytes are written back, and the cache and the contents of the
scratchpad, accumulators, lane tables and Turnpike banks are discarded (R406). -/
def State.coreGate (s : State) : Option State :=
  if s.idle && s.gate = .on && s.cidx.toNat < 48 then
    some { s.releaseLines with
           gate := .gated, lines := [], sp := [], spPoison := [], acc := [], accPoison := [], tables := [], ltPoison := []
           pike := { s.pike with active := Pike.start.active, shadow := Pike.start.shadow } }
  else none

/-- WAKE_REQUEST: a hold is cancelled, or the core joins the in-rush arbiter's queue (R406, R407). -/
def State.wakeRequest (s : State) : State := if s.gate = .gated then { s with gate := .queued } else s

/-- WAKE_RAMP_DONE (R407). -/
def State.wakeRampDone (s : State) : Option State := if s.gate = .queued then some { s with gate := .on } else none

/-! ## Errors and retirement (R225, R410 to R414) -/

/-- One correctable error of a die (R410). -/
def State.addCe (s : State) (d : Fin 4) : State := { s with errs := s.errs.set d { (s.errs.get d) with ce := satInc (s.errs.get d).ce } }

/-- The slot whose share a lane belongs to: the one that holds it, else the one that LPART gives it to (R26). -/
def State.laneSlot (s : State) (k : Fin 64) : Slot :=
  let holds (sl : Slot) : Bool := (s.th sl).occupied && (s.th sl).cfg.lmap.getLsbD k.val
  if holds 0 then 0 else if holds 1 then 1 else if (s.lanesFor 0).getLsbD k.val then 0 else 1

/-- The lane is the only one of a thread (R225). -/
def State.onlyLane (s : State) (k : Fin 64) : Bool := s.threads.toList.any (fun t => t.occupied && t.cfg.lmap == 1#64 <<< k.val)

/-- Marks a lane: the share of its slot falls by one, and a core with fewer than 8 lanes is marked too. A lane that is the only one of a thread stays
in service, and is marked as the thread leaves (R225, R411, R412). -/
def State.markLane (s : State) (k : Fin 64) : State :=
  if !s.goodLanes.getLsbD k.val then s
  else if s.onlyLane k then { s with laneLast := s.laneLast ||| (1#64 <<< k.val) }
  else
    let sl := s.laneSlot k
    let dec (n : BitVec 7) : BitVec 7 := if n = 0 then 0 else n - 1
    let s := { s with laneMarked := s.laneMarked ||| (1#64 <<< k.val)
                      lcnt0 := if sl = 0 then dec s.lcnt0 else s.lcnt0
                      lcnt1 := if sl = 0 then s.lcnt1 else dec s.lcnt1 }
    let s := s.settleLanes
    if laneCount s.goodLanes < 8 then { s with coreMarked := true } else s

/-- CORRECTABLE_ERROR: the error is counted; one that meets the test of R411 marks a lane or the core of this die, or a channel. Of a mark, a free
choice says whether it follows an uncorrectable error that persists: the opcode table has no event for one, and it counts no correctable error
(R410 to R413, assumption 110). -/
def State.correctableError (s : State) (die : Fin 4) (site : ErrSite) (marks : Bool) : State :=
  if !marks then s.addCe die
  else
    let s := { s with fresh := s.fresh + 1, errs := if Config.freeChoice s.fresh then s.errs else (s.addCe die).errs }
    match site with
    | .lane k => if die = s.die.toFin then s.markLane k else s
    | .core => if die = s.die.toFin then { s with coreMarked := true } else s
    | .channel => if s.chMarked < 256 then { s with chMarked := s.chMarked + 1 } else s
    | .other => s

/-- CORE_RETIRE: a marked core whose party has ended or has been pre-empted is retired (R412). -/
def State.coreRetire (s : State) : Option State :=
  if s.coreMarked && !s.coreRetired && s.idle then
    let d := s.die.toFin
    some { s with coreRetired := true, errs := s.errs.set d { (s.errs.get d) with cret := (s.errs.get d).cret + 1 } }.noteRetired
  else none

/-! ## Reset (R415) -/

/-- RESET: the state right after reset, of a part whose fused values stay as they are; boot verification reads the firmware images, and
READY shows whether one of them has passed; the one that has gives the decode table (R52, R392, R405, R415). -/
def State.resetEvent (s : State) : State :=
  { State.reset with
    agenda := s.agenda, fresh := s.fresh, testmax := s.testmax, clock := s.testmax, cidx := s.cidx, die := s.die, module_ := s.module_
    ready := bootSlot.isSome, table := if bootSlot.isSome then Config.decodeTable bootImage else [] }

end Sys2Proof.Machine
end

