-- ==== Sys2Proof/Machine/Events.lean ====
section
/-! DEFINITION. One meaning per event of the opcode table: a step of an agent of the machine, or an input from outside. An event that
cannot take place in a state leaves it as it is. -/

namespace Sys2Proof.Machine

/-- The state after an event, if it can take place. -/
def State.after (s : State) (r : Option State) : Out := .next (r.getD s)

/-- A lane fires the lowest ready elements of the oldest rule in one functional class. R183. -/
def execElementFire (sl : Slot) (lane : Fin 64) (cls : FClass) (s : State) : Out := s.after (s.elementFire sl lane cls)

/-- The lane's carry path copies ready carried elements from the old register. R183. -/
def execCarryCopy (sl : Slot) (lane : Fin 64) (s : State) : Out := s.after (s.carryCopy sl lane)

/-- Up to four complete rules retire from the head of the window. R186. -/
def execRetire (sl : Slot) (s : State) : Out := s.after (s.retire sl)

/-- A physical register no longer read, carried or imaged returns to the pool. R189. -/
def execRegisterFree (sl : Slot) (pred : Bool) (p : Nat) (s : State) : Out := s.after (s.registerFree sl pred p)

/-- A branch's operand becomes final; the Porter confirms or squashes the predicted path. R193. -/
def execBranchResolve (sl : Slot) (s : State) : Out := s.after (s.branchResolve sl)

/-- A ready vector memory element is checked and performed. R155. -/
def execElementAccess (sl : Slot) (pos : Nat) (e : Nat) (s : State) : Out := s.after (s.elementAccess sl pos e)

/-- Returned read data lands in the destination element, converted, or VOID when uncorrectable. R153. -/
def execDataLanding (sl : Slot) (pos : Nat) (e : Nat) (s : State) : Out := s.after (s.dataLanding sl pos e)

/-- The page copy ends; the leaf is rewritten and waiting accesses perform in the new frame. R372. -/
def execCowCopyDone (leaf : Nat) (s : State) : Out := s.after (s.cowCopyDone leaf)

/-- An atomic arriving at its channel is performed indivisibly at the home store. R353. -/
def execBaseDieAtomic (op : AmoOp) (wide : Bool) (pa : Nat) (b cmp : BitVec 64) (s : State) : Out :=
  s.after (s.baseDieAtomic op wide pa b cmp)

/-- The dirty bytes of a scalar cache line are written back to the home store. R348. -/
def execLineWriteback (line : Nat) (s : State) : Out := s.after (s.lineWriteback line)

/-- A clean scalar cache line is discarded. R348. -/
def execLineDiscard (line : Nat) (s : State) : Out := s.after (s.lineDiscard line)

/-- A scalar cache line is filled from the home store as a prefetch. R348. -/
def execLinePrefetch (line : Nat) (s : State) : Out := s.after (s.linePrefetch line)

/-- A line dirty for 100 µs is written back. R348. -/
def execDirtyLineTimeout (line : Nat) (s : State) : Out := s.after (s.lineWriteback line)

/-- A line held 100 µs after its fill is discarded. R348. -/
def execCleanLineTimeout (line : Nat) (s : State) : Out := s.after (s.lineDiscard line)

/-- Once the window is quiescent, the reported fault or word trap is entered and the held image formed. R201. -/
def execTrapEntry (sl : Slot) (s : State) : Out := s.after (s.trapEntry sl)

/-- The cohort of VPs with the lowest PC issues its next block instruction as one rule. R230. -/
def execVpCohortIssue (sl : Slot) (s : State) : Out := s.after (s.vpCohortIssue sl)

/-- A waiting grant proceeds once the other slot has given up the lanes. R220. -/
def execGrantWaitEnd (sl : Slot) (s : State) : Out := s.after (s.grantWaitEnd sl)

/-- After 4,096 cycles a flex-pool quarter is lent and Q rises. R235. -/
def execQuarterMoveDone (s : State) : Out := s.after (s.quarterMoveDone)

/-- A parked stream's fault is delivered to the issuing thread at an instruction boundary. R208. -/
def execEngineFaultDelivery (sl : Slot) (s : State) : Out := s.after (s.engineFaultDelivery sl)

/-- A posted command enters performing once its stream, CSBARs and the range checker permit. R295. -/
def execCourierBeginPerforming (cmd : Nat) (s : State) : Out := s.after (s.courierBeginPerforming cmd)

/-- A Courier command transfers one element. R296. -/
def execCourierElementTransfer (cmd : Nat) (e : Nat) (s : State) : Out := s.after (s.courierElementTransfer cmd e)

/-- A command's writes perform, its tiles' use counts fall and it adds to its counter. R292. -/
def execCommandComplete (cmd : Nat) (s : State) : Out := s.after (s.commandComplete cmd)

/-- The matrix queue serves its head command in post order. R285. -/
def execMatrixQueueServe (s : State) : Out := s.after (s.matrixQueueServe)

/-- A waiting BAR or BARW returns once its phase has completed. R253. -/
def execBarrierWaitEnd (sl : Slot) (s : State) : Out := s.after (s.barrierWaitEnd sl)

/-- A waiting WAITC reads its counter again after a line update or poll interval. R323. -/
def execWaitcCounterRead (sl : Slot) (s : State) : Out := s.after (s.waitcCounterRead sl)

/-- Stage 0 takes one fed record or re-entry. R381. -/
def execTurnpikeEntry (s : State) : Out := s.after (s.turnpikeEntry)

/-- A record's pass ends; it re-enters, goes to overflow, or leaves to its spool. R380. -/
def execTurnpikePassEnd (s : State) : Out := s.after (s.turnpikePassEnd)

/-- A PKLOAD writes its shadow bank once no record of the old bank remains. R373. -/
def execPkloadPerform (s : State) : Out := s.after (s.pkloadPerform)

/-- A PKCFG installs the configuration once the chain is empty. R387. -/
def execPkcfgPerform (s : State) : Out := s.after (s.pkcfgPerform)

/-- A rise of TRIG makes the Innkeeper take records from the post area. R266. -/
def execPostAreaTake (area : Nat) (s : State) : Out := s.after (s.postAreaTake area)

/-- The Innkeeper takes a record from the die's launch list. R267. -/
def execLaunchListTake (s : State) : Out := s.after (s.launchListTake)

/-- The Innkeeper reads a watched counter and dispatches records whose target is met. R268. -/
def execWatchCounterRead (entry : Nat) (s : State) : Out := s.after (s.watchCounterRead entry)

/-- A waiting party is placed on cores once every reservation can be made. R272. -/
def execPartyPlace (s : State) : Out := s.after (s.partyPlace)

/-- The Innkeeper's signal stops every thread of a party and saves its state. R209. -/
def execPreemption (party : Nat) (s : State) : Out := s.after (s.preemption party)

/-- A party's save completes and it rejoins the placement order. R281. -/
def execPartySaveDone (party : Nat) (s : State) : Out := s.after (s.partySaveDone party)

/-- A party ends when its threads have exited and its commands are complete. R282. -/
def execPartyEnd (party : Nat) (s : State) : Out := s.after (s.partyEnd party)

/-- Each 5 ms of waiting raises a task's effective priority. R277. -/
def execPriorityAging (task : Nat) (s : State) : Out := s.after (s.priorityAging task)

/-- At each 1 ms interval SPENT resets and G returns to 8. R237. -/
def execPurseInterval (s : State) : Out := .next s.purseInterval

/-- Activity energy is debited to a purse, changing G at thresholds. R409. -/
def execEnergyDebit (ctx : BitVec 12) (uj : BitVec 32) (s : State) : Out := s.after (s.energyDebit ctx uj)

/-- A droop halves the core clock. R239. -/
def execDroopDetect (s : State) : Out := s.after (s.droopDetect)

/-- After 2 µs clear, the clock returns from droop. R239. -/
def execDroopEnd (s : State) : Out := s.after (s.droopEnd)

/-- The frequency-locked loop moves one 25 MHz step per 100 ns. R405. -/
def execClockStep (s : State) : Out := s.after (s.clockStep)

/-- An idle core's 4 µs hold expires and it is gated. R406. -/
def execCoreGate (s : State) : Out := s.after (s.coreGate)

/-- A wake request cancels a hold or joins the in-rush arbiter's queue. R406. -/
def execWakeRequest (s : State) : Out := .next s.wakeRequest

/-- A 1 µs ramp ends and the core is ready. R407. -/
def execWakeRampDone (s : State) : Out := s.after (s.wakeRampDone)

/-- A correctable error is corrected and counted. R410. -/
def execCorrectableError (die : Fin 4) (site : ErrSite) (marks : Bool) (s : State) : Out := .next (s.correctableError die site marks)

/-- A marked core is retired when its party ends or is pre-empted. R412. -/
def execCoreRetire (s : State) : Out := s.after (s.coreRetire)

/-- A link below a quarter of its width for 10 µs sheds to half width. R398. -/
def execLinkShed (k : Fin 18) (s : State) : Out := s.after (s.linkShed k)

/-- A link whose queue holds over 32 flits widens one step. R398. -/
def execLinkWiden (k : Fin 18) (s : State) : Out := s.after (s.linkWiden k)

/-- After 1.2 µs the width change ends and flits cross again. R398. -/
def execLinkWidthChangeDone (k : Fin 18) (s : State) : Out := s.after (s.linkWidthChangeDone k)

/-- A link that cannot recover in 20 µs or loses training faults and traffic moves. R399. -/
def execLinkFault (k : Fin 18) (s : State) : Out := s.after (s.linkFault k)

/-- A request without a route for 100 µs fails. R399. -/
def execRouteTimeout (req : Nat) (s : State) : Out := s.after ((s.routeTimeout req).map State.settleSaved)

/-- A request arriving from another module is performed at the home store. R357. -/
def execPeerRequest (ctx : BitVec 12) (pa : Nat) (op : BusOp) (s : State) : Out := s.after (s.peerRequest ctx pa op)

/-- A reply arriving from a peer completes a remote write or atomic. R357. -/
def execPeerReply (req : Nat) (data : BitVec 64) (s : State) : Out := s.after ((s.peerReply req data).map State.settleSaved)

/-- A target's phase-one or phase-two reply arrives. R403. -/
def execXtTargetReply (target : Nat) (held : Bool) (s : State) : Out := s.after (s.xtTargetReply target held)

/-- A host read or write through BAR 2 or BAR 4 performs at the home store. R391. -/
def execHostBarAccess (f : PcieFn) (bar : Bar) (off : Nat) (op : BusOp) (s : State) : Out := s.after (s.hostBarAccess f bar off op)

/-- A host AtomicOp is performed as a base-die atomic. R391. -/
def execHostAtomicop (f : PcieFn) (bar : Bar) (off : Nat) (op : AmoOp) (wide : Bool) (b cmp : BitVec 64) (s : State) : Out :=
  s.after (s.hostAtomicop f bar off op wide b cmp)

/-- A host write to a register with no row of its own, such as WSEL or an error counter. R392. -/
def execRegisterWrite (f : PcieFn) (off : Nat) (v : BitVec 64) (s : State) : Out := s.after (s.registerWrite f off v)

/-- Reset starts boot verification of the firmware image. R415. -/
def execReset (s : State) : Out := .next s.resetEvent

/-- Returns the firmware version, Lomop revision and module number. R420. -/
def execInfo (c : Caller) (s : State) : Out := s.after (s.svcInfo c)

/-- Creates a context with its root table and supervisor entry. R420. -/
def execCtxnew (c : Caller) (s : State) : Out := s.after (s.svcCtxnew c)

/-- Starts ending a context: stops parties, aborts records and frees its number. R420. -/
def execCtxend (c : Caller) (s : State) : Out := s.after (s.svcCtxend c)

/-- Returns the trap that ended a context. R420. -/
def execCtxreport (c : Caller) (s : State) : Out := s.after (s.svcCtxreport c)

/-- Registers a post area with a die's Innkeeper. R420. -/
def execPostreg (c : Caller) (s : State) : Out := s.after (s.svcPostreg c)

/-- Frees a post area's watch entry. R420. -/
def execPostunreg (c : Caller) (s : State) : Out := s.after (s.svcPostunreg c)

/-- Writes a die's pre-emption policy register. R420. -/
def execPrepol (c : Caller) (s : State) : Out := s.after (s.svcPrepol c)

/-- Sets or clears a hardware breakpoint of the calling thread. R420. -/
def execBkset (c : Caller) (s : State) : Out := s.after (s.svcBkset c)

/-- Installs a format window in a stack's cache slice. R420. -/
def execFwinset (c : Caller) (s : State) : Out := s.after (s.svcFwinset c)

/-- Arms the one-shot test fault on a Parlum link. R420. -/
def execLinktest (c : Caller) (s : State) : Out := s.after (s.svcLinktest c)

/-- Sets the module power limit. R420. -/
def execMlimset (c : Caller) (s : State) : Out := s.after (s.svcMlimset c)

/-- Binds or unbinds an MSI-X vector to an event. R420. -/
def execVecbind (c : Caller) (s : State) : Out := s.after (s.svcVecbind c)

/-- Writes a signed attestation report for a nonce. R424. -/
def execAttest (c : Caller) (s : State) : Out := s.after (s.svcAttest c)

/-- Writes the module's public identity key. R420. -/
def execIdkey (c : Caller) (s : State) : Out := s.after (s.svcIdkey c)

/-- Writes the module's speed table. R405. -/
def execSpeedtbl (c : Caller) (s : State) : Out := s.after (s.svcSpeedtbl c)

/-- Reads, and optionally clears, a core's straggle entry. R288. -/
def execStraggle (c : Caller) (s : State) : Out := s.after (s.svcStraggle c)

/-- Sets the device memory that a VF's BAR 2 may reach. R420. -/
def execVfmem (c : Caller) (s : State) : Out := s.after (s.svcVfmem c)

/-- Confirms that a withdrawn channel range has been vacated. R413. -/
def execChconfirm (c : Caller) (s : State) : Out := s.after (s.svcChconfirm c)

/-- Starts ending a task, leaving STATE 7. R283. -/
def execTaskabort (c : Caller) (s : State) : Out := s.after (s.svcTaskabort c)

/-- The asynchronous work of CTXEND or TASKABORT ends and its counter is added to. R422. -/
def execServiceWorkDone (s : State) : Out := s.after (s.serviceWorkDone)

/-- A party that has stood first in the order at effective priority 3 for 5 ms starts blocking all further placement on the dies in its DIES. R277. -/
def execFirstPartyBlocksPlacement (party : Nat) (s : State) : Out := s.after (s.firstPartyBlocks party)

/-- A Parlum link gains training and carries traffic, so its LINKUP bit becomes 1. R392. -/
def execLinkGainsTraining (k : Fin 18) (s : State) : Out := s.after (s.linkGainsTraining k)

/-- A completion for a device read, flush read or AtomicOp to a HOST page arrives on a PCIe link. R347. -/
def execPcieCompletion (req : Nat) (data : BitVec 64) (s : State) : Out := s.after ((s.pcieCompletion req data).map State.settleSaved)

end Sys2Proof.Machine
end

