-- ==== Sys2Proof/Machine/Varith.lean ====
section
/-! DEFINITION. Vector arithmetic: VARITH, VARITHI, VFX, VFMA and VWIDE (spec/06 R104 to R124). Each instruction issues the rule of its operand form. -/

namespace Sys2Proof.Machine

def execVadd (d a b : BitVec 5) (m : BitVec 4) (x : Bool) (s : State) : Out :=
  s.issueRule (.vadd d a b m x)

def execVsub (d a b : BitVec 5) (m : BitVec 4) (x : Bool) (s : State) : Out :=
  s.issueRule (.vsub d a b m x)

def execVrsub (d a b : BitVec 5) (m : BitVec 4) (x : Bool) (s : State) : Out :=
  s.issueRule (.vrsub d a b m x)

def execVaddw (d a b : BitVec 5) (m : BitVec 4) (x : Bool) (s : State) : Out :=
  s.issueRule (.vaddw d a b m x)

def execVsubw (d a b : BitVec 5) (m : BitVec 4) (x : Bool) (s : State) : Out :=
  s.issueRule (.vsubw d a b m x)

def execVmul (d a b : BitVec 5) (m : BitVec 4) (x : Bool) (s : State) : Out :=
  s.issueRule (.vmul d a b m x)

def execVmulh (d a b : BitVec 5) (m : BitVec 4) (x : Bool) (s : State) : Out :=
  s.issueRule (.vmulh d a b m x)

def execVdiv (d a b : BitVec 5) (m : BitVec 4) (x : Bool) (s : State) : Out :=
  s.issueRule (.vdiv d a b m x)

def execVrem (d a b : BitVec 5) (m : BitVec 4) (x : Bool) (s : State) : Out :=
  s.issueRule (.vrem d a b m x)

def execVmin (d a b : BitVec 5) (m : BitVec 4) (x : Bool) (s : State) : Out :=
  s.issueRule (.vmin d a b m x)

def execVmax (d a b : BitVec 5) (m : BitVec 4) (x : Bool) (s : State) : Out :=
  s.issueRule (.vmax d a b m x)

def execVabs (d a : BitVec 5) (m : BitVec 4) (s : State) : Out :=
  s.issueRule (.vabs d a m)

def execVneg (d a : BitVec 5) (m : BitVec 4) (s : State) : Out :=
  s.issueRule (.vneg d a m)

def execVand (d a b : BitVec 5) (m : BitVec 4) (x : Bool) (s : State) : Out :=
  s.issueRule (.vand d a b m x)

def execVor (d a b : BitVec 5) (m : BitVec 4) (x : Bool) (s : State) : Out :=
  s.issueRule (.vor d a b m x)

def execVxor (d a b : BitVec 5) (m : BitVec 4) (x : Bool) (s : State) : Out :=
  s.issueRule (.vxor d a b m x)

def execVsll (d a b : BitVec 5) (m : BitVec 4) (x : Bool) (s : State) : Out :=
  s.issueRule (.vsll d a b m x)

def execVsrl (d a b : BitVec 5) (m : BitVec 4) (x : Bool) (s : State) : Out :=
  s.issueRule (.vsrl d a b m x)

def execVsra (d a b : BitVec 5) (m : BitVec 4) (x : Bool) (s : State) : Out :=
  s.issueRule (.vsra d a b m x)

def execVcvt (d a : BitVec 5) (m : BitVec 4) (s : State) : Out :=
  s.issueRule (.vcvt d a m)

def execVaddi (d a i : BitVec 5) (m : BitVec 4) (s : State) : Out :=
  s.issueRule (.vaddi d a i m)

def execVsubi (d a i : BitVec 5) (m : BitVec 4) (s : State) : Out :=
  s.issueRule (.vsubi d a i m)

def execVrsubi (d a i : BitVec 5) (m : BitVec 4) (s : State) : Out :=
  s.issueRule (.vrsubi d a i m)

def execVaddwi (d a i : BitVec 5) (m : BitVec 4) (s : State) : Out :=
  s.issueRule (.vaddwi d a i m)

def execVsubwi (d a i : BitVec 5) (m : BitVec 4) (s : State) : Out :=
  s.issueRule (.vsubwi d a i m)

def execVmuli (d a i : BitVec 5) (m : BitVec 4) (s : State) : Out :=
  s.issueRule (.vmuli d a i m)

def execVmini (d a i : BitVec 5) (m : BitVec 4) (s : State) : Out :=
  s.issueRule (.vmini d a i m)

def execVmaxi (d a i : BitVec 5) (m : BitVec 4) (s : State) : Out :=
  s.issueRule (.vmaxi d a i m)

def execVandi (d a i : BitVec 5) (m : BitVec 4) (s : State) : Out :=
  s.issueRule (.vandi d a i m)

def execVori (d a i : BitVec 5) (m : BitVec 4) (s : State) : Out :=
  s.issueRule (.vori d a i m)

def execVxori (d a i : BitVec 5) (m : BitVec 4) (s : State) : Out :=
  s.issueRule (.vxori d a i m)

def execVslli (d a i : BitVec 5) (m : BitVec 4) (s : State) : Out :=
  s.issueRule (.vslli d a i m)

def execVsrli (d a i : BitVec 5) (m : BitVec 4) (s : State) : Out :=
  s.issueRule (.vsrli d a i m)

def execVsrai (d a i : BitVec 5) (m : BitVec 4) (s : State) : Out :=
  s.issueRule (.vsrai d a i m)

def execVwmul (d a b : BitVec 5) (m : BitVec 4) (x : Bool) (s : State) : Out :=
  s.issueRule (.vwmul d a b m x)

def execVwmacc (d a b : BitVec 5) (m : BitVec 4) (x : Bool) (s : State) : Out :=
  s.issueRule (.vwmacc d a b m x)

def execVwadd (d a b : BitVec 5) (m : BitVec 4) (x : Bool) (s : State) : Out :=
  s.issueRule (.vwadd d a b m x)

def execVncvt (d a : BitVec 5) (m : BitVec 4) (s : State) : Out :=
  s.issueRule (.vncvt d a m)

def execVnshr (d a b : BitVec 5) (m : BitVec 4) (x : Bool) (s : State) : Out :=
  s.issueRule (.vnshr d a b m x)

def execVfsqrt (d a : BitVec 5) (m : BitVec 4) (s : State) : Out :=
  s.issueRule (.vfsqrt d a m)

def execVfrec (d a : BitVec 5) (m : BitVec 4) (s : State) : Out :=
  s.issueRule (.vfrec d a m)

def execVfrsqrt (d a : BitVec 5) (m : BitVec 4) (s : State) : Out :=
  s.issueRule (.vfrsqrt d a m)

def execVfclass (d a : BitVec 5) (m : BitVec 4) (s : State) : Out :=
  s.issueRule (.vfclass d a m)

def execVfsgnj (d a b : BitVec 5) (m : BitVec 4) (x : Bool) (s : State) : Out :=
  s.issueRule (.vfsgnj d a b m x)

def execVfsgnjn (d a b : BitVec 5) (m : BitVec 4) (x : Bool) (s : State) : Out :=
  s.issueRule (.vfsgnjn d a b m x)

def execVfsgnjx (d a b : BitVec 5) (m : BitVec 4) (x : Bool) (s : State) : Out :=
  s.issueRule (.vfsgnjx d a b m x)

def execVfmadd (d a b : BitVec 5) (m : BitVec 4) (x : Bool) (r : BitVec 3) (s : State) : Out :=
  s.issueRule (.vfmadd d a b m x r)

def execVfmsub (d a b : BitVec 5) (m : BitVec 4) (x : Bool) (r : BitVec 3) (s : State) : Out :=
  s.issueRule (.vfmsub d a b m x r)

def execVfrmsub (d a b : BitVec 5) (m : BitVec 4) (x : Bool) (r : BitVec 3) (s : State) : Out :=
  s.issueRule (.vfrmsub d a b m x r)

def execVfnmadd (d a b : BitVec 5) (m : BitVec 4) (x : Bool) (r : BitVec 3) (s : State) : Out :=
  s.issueRule (.vfnmadd d a b m x r)

end Sys2Proof.Machine
end

