-- ==== Sys2Proof/Machine/Vmask.lean ====
section
/-! DEFINITION. Compares and mask operations (spec/07 R134 to R137, R9, R145). -/

namespace Sys2Proof.Machine

def execVcmpeq (d a b : BitVec 5) (m : BitVec 4) (x : Bool) (s : State) : Out :=
  s.issueRule (.vcmpeq d a b m x)

def execVcmpne (d a b : BitVec 5) (m : BitVec 4) (x : Bool) (s : State) : Out :=
  s.issueRule (.vcmpne d a b m x)

def execVcmplt (d a b : BitVec 5) (m : BitVec 4) (x : Bool) (s : State) : Out :=
  s.issueRule (.vcmplt d a b m x)

def execVcmple (d a b : BitVec 5) (m : BitVec 4) (x : Bool) (s : State) : Out :=
  s.issueRule (.vcmple d a b m x)

def execVcmpgt (d a b : BitVec 5) (m : BitVec 4) (x : Bool) (s : State) : Out :=
  s.issueRule (.vcmpgt d a b m x)

def execVcmpge (d a b : BitVec 5) (m : BitVec 4) (x : Bool) (s : State) : Out :=
  s.issueRule (.vcmpge d a b m x)

def execVcmpun (d a b : BitVec 5) (m : BitVec 4) (x : Bool) (s : State) : Out :=
  s.issueRule (.vcmpun d a b m x)

def execMand (d a b : BitVec 5) (m : BitVec 4) (s : State) : Out :=
  s.issueRule (.mand d a b m)

def execMor (d a b : BitVec 5) (m : BitVec 4) (s : State) : Out :=
  s.issueRule (.mor d a b m)

def execMxor (d a b : BitVec 5) (m : BitVec 4) (s : State) : Out :=
  s.issueRule (.mxor d a b m)

def execMandn (d a b : BitVec 5) (m : BitVec 4) (s : State) : Out :=
  s.issueRule (.mandn d a b m)

def execMnot (d a : BitVec 5) (m : BitVec 4) (s : State) : Out :=
  s.issueRule (.mnot d a m)

def execMsbf (d a : BitVec 5) (m : BitVec 4) (s : State) : Out :=
  s.issueRule (.msbf d a m)

def execMsif (d a : BitVec 5) (m : BitVec 4) (s : State) : Out :=
  s.issueRule (.msif d a m)

def execMsof (d a : BitVec 5) (m : BitVec 4) (s : State) : Out :=
  s.issueRule (.msof d a m)

def execViota (d a : BitVec 5) (m : BitVec 4) (s : State) : Out :=
  s.issueRule (.viota d a m)

def execVid (d : BitVec 5) (m : BitVec 4) (s : State) : Out :=
  s.issueRule (.vid d m)

/-- MFFS over the low n indices: the lowest set bit, all ones when there is none; none while a bit it needs is ABSENT, and a VOID bit counts
as clear (R9). -/
def Vec.findFirst (v : Vec) (p : Option (Fin 48)) (n : Nat) : Option Word :=
  match (List.range n).find? (fun i => match v.bit p i with | .absent => true | .present b => b | .void => false) with
  | none => some (BitVec.allOnes 64)
  | some i => if v.bit p i = .absent then none else some (BitVec.ofNat 64 i)

/-- MFFS: a resync whose result is final once the bits up to the first set one are there (R9, R145). -/
def execMffs (d : BitVec 5) (a : BitVec 5) (s : State) : Out :=
  let t := s.me
  if t.level ≠ .user then s.illegal
  else match t.vec.findFirst (some (t.vec.mphys a.toNat)) (min t.cfg.vl.toNat (t.vlmax 0)) with
    | none => s.stall
    | some v => s.commit (t.wr d v)

/-- MPOPC: a resync whose result is final once every bit below VL is there; a VOID bit is not counted (R145). -/
def execMpopc (d : BitVec 5) (a : BitVec 5) (s : State) : Out :=
  let t := s.me
  let bits := (List.range (min t.cfg.vl.toNat (t.vlmax 0))).map (fun i => t.vec.bit (some (t.vec.mphys a.toNat)) i)
  if t.level ≠ .user then s.illegal
  else if bits.contains .absent then s.stall
  else s.commit (t.wr d (BitVec.ofNat 64 ((bits.filter (fun b => b == .present true)).length)))

end Sys2Proof.Machine
end

