-- ==== Sys2Proof/Machine/Vmem.lean ====
section
/-! DEFINITION. Vector memory, atomics and lane tables (spec/08 R149 to R173). -/

namespace Sys2Proof.Machine

def execVld (d a : BitVec 5) (m : BitVec 4) (o v : Bool) (f : BitVec 3) (s : State) : Out :=
  s.issueRule (.vld d a m o v f)

def execVldStrided (d a b : BitVec 5) (m : BitVec 4) (o v : Bool) (f : BitVec 3) (s : State) : Out :=
  s.issueRule (.vldStrided d a b m o v f)

def execVldIndexed (d a b : BitVec 5) (m : BitVec 4) (o v : Bool) (s : BitVec 2) (w : Bool) (st : State) : Out :=
  st.issueRule (.vldIndexed d a b m o v s w)

def execVldFf (d a : BitVec 5) (m : BitVec 4) (o v : Bool) (f : BitVec 3) (s : State) : Out :=
  s.issueRule (.vldFf d a m o v f)

def execVst (d a : BitVec 5) (m : BitVec 4) (o v : Bool) (f : BitVec 3) (s : State) : Out :=
  s.issueRule (.vst d a m o v f)

def execVstStrided (d a b : BitVec 5) (m : BitVec 4) (o v : Bool) (f : BitVec 3) (s : State) : Out :=
  s.issueRule (.vstStrided d a b m o v f)

def execVstIndexed (d a b : BitVec 5) (m : BitVec 4) (o v : Bool) (s : BitVec 2) (w : Bool) (st : State) : Out :=
  st.issueRule (.vstIndexed d a b m o v s w)

def execVamoadd (d a b : BitVec 5) (m : BitVec 4) (s : BitVec 2) (w : Bool) (st : State) : Out :=
  st.issueRule (.vamoadd d a b m s w)

def execVamoand (d a b : BitVec 5) (m : BitVec 4) (s : BitVec 2) (w : Bool) (st : State) : Out :=
  st.issueRule (.vamoand d a b m s w)

def execVamoor (d a b : BitVec 5) (m : BitVec 4) (s : BitVec 2) (w : Bool) (st : State) : Out :=
  st.issueRule (.vamoor d a b m s w)

def execVamoxor (d a b : BitVec 5) (m : BitVec 4) (s : BitVec 2) (w : Bool) (st : State) : Out :=
  st.issueRule (.vamoxor d a b m s w)

def execVamomin (d a b : BitVec 5) (m : BitVec 4) (s : BitVec 2) (w : Bool) (st : State) : Out :=
  st.issueRule (.vamomin d a b m s w)

def execVamomax (d a b : BitVec 5) (m : BitVec 4) (s : BitVec 2) (w : Bool) (st : State) : Out :=
  st.issueRule (.vamomax d a b m s w)

def execVamominn (d a b : BitVec 5) (m : BitVec 4) (s : BitVec 2) (w : Bool) (st : State) : Out :=
  st.issueRule (.vamominn d a b m s w)

def execVamomaxn (d a b : BitVec 5) (m : BitVec 4) (s : BitVec 2) (w : Bool) (st : State) : Out :=
  st.issueRule (.vamomaxn d a b m s w)

def execVamoswap (d a b : BitVec 5) (m : BitVec 4) (s : BitVec 2) (w : Bool) (st : State) : Out :=
  st.issueRule (.vamoswap d a b m s w)

def execVamocas (d a b : BitVec 5) (m : BitVec 4) (s : BitVec 2) (w : Bool) (st : State) : Out :=
  st.issueRule (.vamocas d a b m s w)

def execVltl (d a b : BitVec 5) (m : BitVec 4) (s : State) : Out :=
  s.issueRule (.vltl d a b m)

def execVlts (d a b : BitVec 5) (m : BitVec 4) (s : State) : Out :=
  s.issueRule (.vlts d a b m)

/-- The operand limits of TBLB (R171). -/
def tblbOk (d a b : Word) : Bool :=
  decide (a.toNat % 16 = 0 ∧ b.toNat % 16 = 0 ∧ d.toNat % 16 = 0 ∧ d.toNat + b.toNat ≤ 8192 ∧
    (b.toNat = 0 ∨ (winBase ≤ a.toNat ∧ a.toNat + b.toNat ≤ winBase + spSize)))

/-- TBLB: a breach of its limits raises the lane-table range fault at the instruction; else it is one rule (R171). -/
def execTblb (d a b : BitVec 5) (s : State) : Out :=
  let t := s.me
  if t.level = .user && !tblbOk (t.rd d) (t.rd a) (t.rd b) then s.wordTrap 0x13 (t.rd d).toNat
  else s.issueRule (.tblb d a b)

end Sys2Proof.Machine
end

