-- ==== Sys2Proof/Machine/Vperm.lean ====
section
/-! DEFINITION. Permutations and moves between the vector and scalar sides (spec/07 R138 to R145). -/

namespace Sys2Proof.Machine

def execVrgather (d a b : BitVec 5) (m : BitVec 4) (s : State) : Out :=
  s.issueRule (.vrgather d a b m)

def execVrgather2 (d a b : BitVec 5) (m : BitVec 4) (s : State) : Out :=
  s.issueRule (.vrgather2 d a b m)

def execVslideup (d a b : BitVec 5) (m : BitVec 4) (s : State) : Out :=
  s.issueRule (.vslideup d a b m)

def execVslidedown (d a b : BitVec 5) (m : BitVec 4) (s : State) : Out :=
  s.issueRule (.vslidedown d a b m)

def execVslide1up (d a b : BitVec 5) (m : BitVec 4) (s : State) : Out :=
  s.issueRule (.vslide1up d a b m)

def execVslide1down (d a b : BitVec 5) (m : BitVec 4) (s : State) : Out :=
  s.issueRule (.vslide1down d a b m)

def execVcompress (d a b : BitVec 5) (s : State) : Out :=
  s.issueRule (.vcompress d a b)

def execVpush (d a b : BitVec 5) (m : BitVec 4) (s : State) : Out :=
  s.issueRule (.vpush d a b m)

def execVsplat (d b : BitVec 5) (m : BitVec 4) (s : State) : Out :=
  s.issueRule (.vsplat d b m)

def execVext (d a b : BitVec 5) (m : BitVec 4) (s : State) : Out :=
  s.issueRule (.vext d a b m)

/-- VMVS: the element at index s(b), sign-extended for an I tag; an index at or above the capacity gives 0 and sets RANGE (R145). -/
def execVmvs (d a b : BitVec 5) (s : State) : Out :=
  let t := s.me
  let g := t.vec.tag a
  let j := (t.rd b).toNat
  if t.level ≠ .user then s.illegal
  else if t.vlmax g.wlog ≤ j then s.commit ((t.raise 0 vRANGE).wr d 0)
  else match t.vec.elem (some (t.vec.vphys a)) j with
    | .absent => s.stall
    | .void => s.commit (t.wr d 0)
    | .present x => s.commit (t.wr d (BitVec.ofNat 64 (g.extend x.toNat)))

end Sys2Proof.Machine
end

