-- ==== Sys2Proof/Machine/Vred.lean ====
section
/-! DEFINITION. Reductions and scans (spec/07 R146 to R148). -/

namespace Sys2Proof.Machine

def execVredsumo (d a b : BitVec 5) (m : BitVec 4) (x : Bool) (s : State) : Out :=
  s.issueRule (.vredsumo d a b m x)

def execVredsumt (d a b : BitVec 5) (m : BitVec 4) (x : Bool) (s : State) : Out :=
  s.issueRule (.vredsumt d a b m x)

def execVredmin (d a b : BitVec 5) (m : BitVec 4) (x : Bool) (s : State) : Out :=
  s.issueRule (.vredmin d a b m x)

def execVredmax (d a b : BitVec 5) (m : BitVec 4) (x : Bool) (s : State) : Out :=
  s.issueRule (.vredmax d a b m x)

def execVredand (d a b : BitVec 5) (m : BitVec 4) (x : Bool) (s : State) : Out :=
  s.issueRule (.vredand d a b m x)

def execVredor (d a b : BitVec 5) (m : BitVec 4) (x : Bool) (s : State) : Out :=
  s.issueRule (.vredor d a b m x)

def execVredxor (d a b : BitVec 5) (m : BitVec 4) (x : Bool) (s : State) : Out :=
  s.issueRule (.vredxor d a b m x)

def execVscansum (d a : BitVec 5) (m : BitVec 4) (s : State) : Out :=
  s.issueRule (.vscansum d a m)

def execVscanmin (d a : BitVec 5) (m : BitVec 4) (s : State) : Out :=
  s.issueRule (.vscanmin d a m)

def execVscanmax (d a : BitVec 5) (m : BitVec 4) (s : State) : Out :=
  s.issueRule (.vscanmax d a m)

end Sys2Proof.Machine
end

