-- ==== Sys2Proof/Machine/Walk.lean ====
section
/-! DEFINITION. The coordinate walker's word (spec/18 R335 to R337); its walk is an access of its rule. -/

namespace Sys2Proof.Machine

/-- The rule of a CWALK enters the window with its place in the post order and the range of its walk (R290, R294). -/
def Thread.issueWalk (t : Thread) (i : Instr) (sp : RuleSpec) (post : Nat) (tiles : List Extent) : Thread :=
  let u := t.issue i sp
  { u with vec := { u.vec with window := t.vec.window ++ u.lastRule.toList.map (fun r => { r with post := post, tiles := tiles }) } }

/-- CWALK: a bad state in a party that has not reserved the walker, else a post and a rule: it waits for the thread's earlier accesses, a window
entry and registers, its range is checked, and the walk holds the Porter until it ends (R273, R290, R294, R336). -/
def execCwalk (d c e p : BitVec 5) (s : State) : Out :=
  s.engineWord (fun s =>
    let t := s.me
    let i : Instr := .cwalk d c e p
    if !s.walkerOf t then s.wordTrap 0x04 t.pc.toNat
    else match ruleSpec i with
      | none => s.illegal
      | some sp =>
        if !t.entryFree then s.stall
        else
          let tiles := s.walkReads t.ctx (t.rd p).toNat
          s.post (t.poolHas sp.vdests.length sp.pdests.length) 0 tiles [] (fun s =>
            State.setMe { s with seq := s.seq + 1 } (s.me.issueWalk i sp s.seq tiles)))

end Sys2Proof.Machine
end

