-- ==== Sys2Proof/Machine/Dispatch.lean ====
section
/-! DEFINITION. One arm per constructor of Instr: the meaning of each instruction word and event. -/

namespace Sys2Proof.Machine

/-- The meaning of an instruction word at the pc of the thread whose turn it is, or of an event. -/
def exec (i : Instr) (s : State) : Host.Outcome State Fault Refusal :=
  match i with
  | .add d a b => Sys2Proof.Machine.execAdd d a b s
  | .sub d a b => Sys2Proof.Machine.execSub d a b s
  | .and d a b => Sys2Proof.Machine.execAnd d a b s
  | .or d a b => Sys2Proof.Machine.execOr d a b s
  | .xor d a b => Sys2Proof.Machine.execXor d a b s
  | .sll d a b => Sys2Proof.Machine.execSll d a b s
  | .srl d a b => Sys2Proof.Machine.execSrl d a b s
  | .sra d a b => Sys2Proof.Machine.execSra d a b s
  | .ror d a b => Sys2Proof.Machine.execRor d a b s
  | .slt d a b => Sys2Proof.Machine.execSlt d a b s
  | .sltn d a b => Sys2Proof.Machine.execSltn d a b s
  | .mul d a b => Sys2Proof.Machine.execMul d a b s
  | .mulh d a b => Sys2Proof.Machine.execMulh d a b s
  | .mulhn d a b => Sys2Proof.Machine.execMulhn d a b s
  | .div d a b => Sys2Proof.Machine.execDiv d a b s
  | .divn d a b => Sys2Proof.Machine.execDivn d a b s
  | .rem d a b => Sys2Proof.Machine.execRem d a b s
  | .remn d a b => Sys2Proof.Machine.execRemn d a b s
  | .min d a b => Sys2Proof.Machine.execMin d a b s
  | .max d a b => Sys2Proof.Machine.execMax d a b s
  | .minn d a b => Sys2Proof.Machine.execMinn d a b s
  | .maxn d a b => Sys2Proof.Machine.execMaxn d a b s
  | .clz d a => Sys2Proof.Machine.execClz d a s
  | .ctz d a => Sys2Proof.Machine.execCtz d a s
  | .spopc d a => Sys2Proof.Machine.execSpopc d a s
  | .sextb d a => Sys2Proof.Machine.execSextb d a s
  | .sexth d a => Sys2Proof.Machine.execSexth d a s
  | .sextw d a => Sys2Proof.Machine.execSextw d a s
  | .addi d a im => Sys2Proof.Machine.execAddi d a im s
  | .andi d a im => Sys2Proof.Machine.execAndi d a im s
  | .ori d a im => Sys2Proof.Machine.execOri d a im s
  | .xori d a im => Sys2Proof.Machine.execXori d a im s
  | .slti d a im => Sys2Proof.Machine.execSlti d a im s
  | .sltni d a im => Sys2Proof.Machine.execSltni d a im s
  | .slli d a n => Sys2Proof.Machine.execSlli d a n s
  | .srli d a n => Sys2Proof.Machine.execSrli d a n s
  | .srai d a n => Sys2Proof.Machine.execSrai d a n s
  | .rori d a n => Sys2Proof.Machine.execRori d a n s
  | .lih d im => Sys2Proof.Machine.execLih d im s
  | .lix d a im => Sys2Proof.Machine.execLix d a im s
  | .addpc d im => Sys2Proof.Machine.execAddpc d im s
  | .ldb d a o => Sys2Proof.Machine.execLdb d a o s
  | .ldh d a o => Sys2Proof.Machine.execLdh d a o s
  | .ldw d a o => Sys2Proof.Machine.execLdw d a o s
  | .ldd d a o => Sys2Proof.Machine.execLdd d a o s
  | .ldbn d a o => Sys2Proof.Machine.execLdbn d a o s
  | .ldhn d a o => Sys2Proof.Machine.execLdhn d a o s
  | .ldwn d a o => Sys2Proof.Machine.execLdwn d a o s
  | .stb d a o => Sys2Proof.Machine.execStb d a o s
  | .sth d a o => Sys2Proof.Machine.execSth d a o s
  | .stw d a o => Sys2Proof.Machine.execStw d a o s
  | .std d a o => Sys2Proof.Machine.execStd d a o s
  | .amoadd d a b sc o w => Sys2Proof.Machine.execAmoadd d a b sc o w s
  | .amoand d a b sc o w => Sys2Proof.Machine.execAmoand d a b sc o w s
  | .amoor d a b sc o w => Sys2Proof.Machine.execAmoor d a b sc o w s
  | .amoxor d a b sc o w => Sys2Proof.Machine.execAmoxor d a b sc o w s
  | .amomin d a b sc o w => Sys2Proof.Machine.execAmomin d a b sc o w s
  | .amomax d a b sc o w => Sys2Proof.Machine.execAmomax d a b sc o w s
  | .amominn d a b sc o w => Sys2Proof.Machine.execAmominn d a b sc o w s
  | .amomaxn d a b sc o w => Sys2Proof.Machine.execAmomaxn d a b sc o w s
  | .amoswap d a b sc o w => Sys2Proof.Machine.execAmoswap d a b sc o w s
  | .amocas d a b sc o w => Sys2Proof.Machine.execAmocas d a b sc o w s
  | .beq a b o => Sys2Proof.Machine.execBeq a b o s
  | .bne a b o => Sys2Proof.Machine.execBne a b o s
  | .blt a b o => Sys2Proof.Machine.execBlt a b o s
  | .bge a b o => Sys2Proof.Machine.execBge a b o s
  | .bltn a b o => Sys2Proof.Machine.execBltn a b o s
  | .bgen a b o => Sys2Proof.Machine.execBgen a b o s
  | .j o => Sys2Proof.Machine.execJ o s
  | .call o => Sys2Proof.Machine.execCall o s
  | .jr a => Sys2Proof.Machine.execJr a s
  | .callr a => Sys2Proof.Machine.execCallr a s
  | .ret => Sys2Proof.Machine.execRet s
  | .trap n => Sys2Proof.Machine.execTrap n s
  | .eret => Sys2Proof.Machine.execEret s
  | .rdcfg d c => Sys2Proof.Machine.execRdcfg d c s
  | .wrcfg a c => Sys2Proof.Machine.execWrcfg a c s
  | .fence p q r t sc => Sys2Proof.Machine.execFence p q r t sc s
  | .brk n => Sys2Proof.Machine.execBrk n s
  | .exit => Sys2Proof.Machine.execExit s
  | .yield => Sys2Proof.Machine.execYield s
  | .splice n => Sys2Proof.Machine.execSplice n s
  | .launch a => Sys2Proof.Machine.execLaunch a s
  | .wsave a => Sys2Proof.Machine.execWsave a s
  | .wload a => Sys2Proof.Machine.execWload a s
  | .snapr d a b => Sys2Proof.Machine.execSnapr d a b s
  | .snaprX d a b => Sys2Proof.Machine.execSnaprX d a b s
  | .tlbinv a b => Sys2Proof.Machine.execTlbinv a b s
  | .pgpool d a b => Sys2Proof.Machine.execPgpool d a b s
  | .bar d n => Sys2Proof.Machine.execBar d n s
  | .bara d n => Sys2Proof.Machine.execBara d n s
  | .barw d a n => Sys2Proof.Machine.execBarw d a n s
  | .barexp a n => Sys2Proof.Machine.execBarexp a n s
  | .take d p => Sys2Proof.Machine.execTake d p s
  | .lrel p => Sys2Proof.Machine.execLrel p s
  | .waitc d a b => Sys2Proof.Machine.execWaitc d a b s
  | .cadd d a b => Sys2Proof.Machine.execCadd d a b s
  | .setvl d a w q => Sys2Proof.Machine.execSetvl d a w q s
  | .setvli d n w q => Sys2Proof.Machine.execSetvli d n w q s
  | .setfib d a b w k => Sys2Proof.Machine.execSetfib d a b w k s
  | .vtag d t => Sys2Proof.Machine.execVtag d t s
  | .vadd d a b m x => Sys2Proof.Machine.execVadd d a b m x s
  | .vsub d a b m x => Sys2Proof.Machine.execVsub d a b m x s
  | .vrsub d a b m x => Sys2Proof.Machine.execVrsub d a b m x s
  | .vaddw d a b m x => Sys2Proof.Machine.execVaddw d a b m x s
  | .vsubw d a b m x => Sys2Proof.Machine.execVsubw d a b m x s
  | .vmul d a b m x => Sys2Proof.Machine.execVmul d a b m x s
  | .vmulh d a b m x => Sys2Proof.Machine.execVmulh d a b m x s
  | .vdiv d a b m x => Sys2Proof.Machine.execVdiv d a b m x s
  | .vrem d a b m x => Sys2Proof.Machine.execVrem d a b m x s
  | .vmin d a b m x => Sys2Proof.Machine.execVmin d a b m x s
  | .vmax d a b m x => Sys2Proof.Machine.execVmax d a b m x s
  | .vabs d a m => Sys2Proof.Machine.execVabs d a m s
  | .vneg d a m => Sys2Proof.Machine.execVneg d a m s
  | .vand d a b m x => Sys2Proof.Machine.execVand d a b m x s
  | .vor d a b m x => Sys2Proof.Machine.execVor d a b m x s
  | .vxor d a b m x => Sys2Proof.Machine.execVxor d a b m x s
  | .vsll d a b m x => Sys2Proof.Machine.execVsll d a b m x s
  | .vsrl d a b m x => Sys2Proof.Machine.execVsrl d a b m x s
  | .vsra d a b m x => Sys2Proof.Machine.execVsra d a b m x s
  | .vcvt d a m => Sys2Proof.Machine.execVcvt d a m s
  | .vaddi d a im m => Sys2Proof.Machine.execVaddi d a im m s
  | .vsubi d a im m => Sys2Proof.Machine.execVsubi d a im m s
  | .vrsubi d a im m => Sys2Proof.Machine.execVrsubi d a im m s
  | .vaddwi d a im m => Sys2Proof.Machine.execVaddwi d a im m s
  | .vsubwi d a im m => Sys2Proof.Machine.execVsubwi d a im m s
  | .vmuli d a im m => Sys2Proof.Machine.execVmuli d a im m s
  | .vmini d a im m => Sys2Proof.Machine.execVmini d a im m s
  | .vmaxi d a im m => Sys2Proof.Machine.execVmaxi d a im m s
  | .vandi d a im m => Sys2Proof.Machine.execVandi d a im m s
  | .vori d a im m => Sys2Proof.Machine.execVori d a im m s
  | .vxori d a im m => Sys2Proof.Machine.execVxori d a im m s
  | .vslli d a im m => Sys2Proof.Machine.execVslli d a im m s
  | .vsrli d a im m => Sys2Proof.Machine.execVsrli d a im m s
  | .vsrai d a im m => Sys2Proof.Machine.execVsrai d a im m s
  | .vcmpeq d a b m x => Sys2Proof.Machine.execVcmpeq d a b m x s
  | .vcmpne d a b m x => Sys2Proof.Machine.execVcmpne d a b m x s
  | .vcmplt d a b m x => Sys2Proof.Machine.execVcmplt d a b m x s
  | .vcmple d a b m x => Sys2Proof.Machine.execVcmple d a b m x s
  | .vcmpgt d a b m x => Sys2Proof.Machine.execVcmpgt d a b m x s
  | .vcmpge d a b m x => Sys2Proof.Machine.execVcmpge d a b m x s
  | .vcmpun d a b m x => Sys2Proof.Machine.execVcmpun d a b m x s
  | .mand d a b m => Sys2Proof.Machine.execMand d a b m s
  | .mor d a b m => Sys2Proof.Machine.execMor d a b m s
  | .mxor d a b m => Sys2Proof.Machine.execMxor d a b m s
  | .mandn d a b m => Sys2Proof.Machine.execMandn d a b m s
  | .mnot d a m => Sys2Proof.Machine.execMnot d a m s
  | .msbf d a m => Sys2Proof.Machine.execMsbf d a m s
  | .msif d a m => Sys2Proof.Machine.execMsif d a m s
  | .msof d a m => Sys2Proof.Machine.execMsof d a m s
  | .viota d a m => Sys2Proof.Machine.execViota d a m s
  | .vid d m => Sys2Proof.Machine.execVid d m s
  | .vrgather d a b m => Sys2Proof.Machine.execVrgather d a b m s
  | .vrgather2 d a b m => Sys2Proof.Machine.execVrgather2 d a b m s
  | .vslideup d a b m => Sys2Proof.Machine.execVslideup d a b m s
  | .vslidedown d a b m => Sys2Proof.Machine.execVslidedown d a b m s
  | .vslide1up d a b m => Sys2Proof.Machine.execVslide1up d a b m s
  | .vslide1down d a b m => Sys2Proof.Machine.execVslide1down d a b m s
  | .vcompress d a b => Sys2Proof.Machine.execVcompress d a b s
  | .vpush d a b m => Sys2Proof.Machine.execVpush d a b m s
  | .vwmul d a b m x => Sys2Proof.Machine.execVwmul d a b m x s
  | .vwmacc d a b m x => Sys2Proof.Machine.execVwmacc d a b m x s
  | .vwadd d a b m x => Sys2Proof.Machine.execVwadd d a b m x s
  | .vncvt d a m => Sys2Proof.Machine.execVncvt d a m s
  | .vnshr d a b m x => Sys2Proof.Machine.execVnshr d a b m x s
  | .vsplat d b m => Sys2Proof.Machine.execVsplat d b m s
  | .vext d a b m => Sys2Proof.Machine.execVext d a b m s
  | .vmvs d a b => Sys2Proof.Machine.execVmvs d a b s
  | .mffs d a => Sys2Proof.Machine.execMffs d a s
  | .mpopc d a => Sys2Proof.Machine.execMpopc d a s
  | .vfsqrt d a m => Sys2Proof.Machine.execVfsqrt d a m s
  | .vfrec d a m => Sys2Proof.Machine.execVfrec d a m s
  | .vfrsqrt d a m => Sys2Proof.Machine.execVfrsqrt d a m s
  | .vfclass d a m => Sys2Proof.Machine.execVfclass d a m s
  | .vfsgnj d a b m x => Sys2Proof.Machine.execVfsgnj d a b m x s
  | .vfsgnjn d a b m x => Sys2Proof.Machine.execVfsgnjn d a b m x s
  | .vfsgnjx d a b m x => Sys2Proof.Machine.execVfsgnjx d a b m x s
  | .vfmadd d a b m x r => Sys2Proof.Machine.execVfmadd d a b m x r s
  | .vfmsub d a b m x r => Sys2Proof.Machine.execVfmsub d a b m x r s
  | .vfrmsub d a b m x r => Sys2Proof.Machine.execVfrmsub d a b m x r s
  | .vfnmadd d a b m x r => Sys2Proof.Machine.execVfnmadd d a b m x r s
  | .vredsumo d a b m x => Sys2Proof.Machine.execVredsumo d a b m x s
  | .vredsumt d a b m x => Sys2Proof.Machine.execVredsumt d a b m x s
  | .vredmin d a b m x => Sys2Proof.Machine.execVredmin d a b m x s
  | .vredmax d a b m x => Sys2Proof.Machine.execVredmax d a b m x s
  | .vredand d a b m x => Sys2Proof.Machine.execVredand d a b m x s
  | .vredor d a b m x => Sys2Proof.Machine.execVredor d a b m x s
  | .vredxor d a b m x => Sys2Proof.Machine.execVredxor d a b m x s
  | .vscansum d a m => Sys2Proof.Machine.execVscansum d a m s
  | .vscanmin d a m => Sys2Proof.Machine.execVscanmin d a m s
  | .vscanmax d a m => Sys2Proof.Machine.execVscanmax d a m s
  | .vld d a m o v f => Sys2Proof.Machine.execVld d a m o v f s
  | .vldStrided d a b m o v f => Sys2Proof.Machine.execVldStrided d a b m o v f s
  | .vldIndexed d a b m o v sc w => Sys2Proof.Machine.execVldIndexed d a b m o v sc w s
  | .vldFf d a m o v f => Sys2Proof.Machine.execVldFf d a m o v f s
  | .vst d a m o v f => Sys2Proof.Machine.execVst d a m o v f s
  | .vstStrided d a b m o v f => Sys2Proof.Machine.execVstStrided d a b m o v f s
  | .vstIndexed d a b m o v sc w => Sys2Proof.Machine.execVstIndexed d a b m o v sc w s
  | .vamoadd d a b m sc w => Sys2Proof.Machine.execVamoadd d a b m sc w s
  | .vamoand d a b m sc w => Sys2Proof.Machine.execVamoand d a b m sc w s
  | .vamoor d a b m sc w => Sys2Proof.Machine.execVamoor d a b m sc w s
  | .vamoxor d a b m sc w => Sys2Proof.Machine.execVamoxor d a b m sc w s
  | .vamomin d a b m sc w => Sys2Proof.Machine.execVamomin d a b m sc w s
  | .vamomax d a b m sc w => Sys2Proof.Machine.execVamomax d a b m sc w s
  | .vamominn d a b m sc w => Sys2Proof.Machine.execVamominn d a b m sc w s
  | .vamomaxn d a b m sc w => Sys2Proof.Machine.execVamomaxn d a b m sc w s
  | .vamoswap d a b m sc w => Sys2Proof.Machine.execVamoswap d a b m sc w s
  | .vamocas d a b m sc w => Sys2Proof.Machine.execVamocas d a b m sc w s
  | .vltl d a b m => Sys2Proof.Machine.execVltl d a b m s
  | .vlts d a b m => Sys2Proof.Machine.execVlts d a b m s
  | .tblb d a b => Sys2Proof.Machine.execTblb d a b s
  | .vpf k o => Sys2Proof.Machine.execVpf k o s
  | .vpbr k o => Sys2Proof.Machine.execVpbr k o s
  | .vpj o => Sys2Proof.Machine.execVpj o s
  | .vpstop => Sys2Proof.Machine.execVpstop s
  | .cpy g sc h c n im => Sys2Proof.Machine.execCpy g sc h c n im s
  | .cpyg g sc v c n im => Sys2Proof.Machine.execCpyg g sc v c n im s
  | .cpys g sc v c n im => Sys2Proof.Machine.execCpys g sc v c n im s
  | .cpymg g sc h c n im => Sys2Proof.Machine.execCpymg g sc h c n im s
  | .cwtld g sc c n im => Sys2Proof.Machine.execCwtld g sc c n im s
  | .csbar g => Sys2Proof.Machine.execCsbar g s
  | .cresume sc => Sys2Proof.Machine.execCresume sc s
  | .mcfg m n k a b => Sys2Proof.Machine.execMcfg m n k a b s
  | .mzero c => Sys2Proof.Machine.execMzero c s
  | .mma c x y => Sys2Proof.Machine.execMma c x y s
  | .mmav g h sc => Sys2Proof.Machine.execMmav g h sc s
  | .mrd c d q m => Sys2Proof.Machine.execMrd c d q m s
  | .mst c x f => Sys2Proof.Machine.execMst c x f s
  | .cwalk d c e p => Sys2Proof.Machine.execCwalk d c e p s
  | .pkcfg a => Sys2Proof.Machine.execPkcfg a s
  | .pkload a n => Sys2Proof.Machine.execPkload a n s
  | .pkswap m => Sys2Proof.Machine.execPkswap m s
  | .pkfeed a b => Sys2Proof.Machine.execPkfeed a b s
  | .pkmiss d n => Sys2Proof.Machine.execPkmiss d n s
  | .pkdrain d a => Sys2Proof.Machine.execPkdrain d a s
  | .pkdrainClr d a => Sys2Proof.Machine.execPkdrainClr d a s
  | .xbegin => Sys2Proof.Machine.execXbegin s
  | .xst d a => Sys2Proof.Machine.execXst d a s
  | .xcommit d => Sys2Proof.Machine.execXcommit d s
  | .xabort => Sys2Proof.Machine.execXabort s
  | .elementFire sl lane cls => Sys2Proof.Machine.execElementFire sl lane cls s
  | .carryCopy sl lane => Sys2Proof.Machine.execCarryCopy sl lane s
  | .retire sl => Sys2Proof.Machine.execRetire sl s
  | .registerFree sl pred p => Sys2Proof.Machine.execRegisterFree sl pred p s
  | .branchResolve sl => Sys2Proof.Machine.execBranchResolve sl s
  | .elementAccess sl pos e => Sys2Proof.Machine.execElementAccess sl pos e s
  | .dataLanding sl pos e => Sys2Proof.Machine.execDataLanding sl pos e s
  | .cowCopyDone leaf => Sys2Proof.Machine.execCowCopyDone leaf s
  | .baseDieAtomic op wide pa b cmp => Sys2Proof.Machine.execBaseDieAtomic op wide pa b cmp s
  | .lineWriteback line => Sys2Proof.Machine.execLineWriteback line s
  | .lineDiscard line => Sys2Proof.Machine.execLineDiscard line s
  | .linePrefetch line => Sys2Proof.Machine.execLinePrefetch line s
  | .dirtyLineTimeout line => Sys2Proof.Machine.execDirtyLineTimeout line s
  | .cleanLineTimeout line => Sys2Proof.Machine.execCleanLineTimeout line s
  | .trapEntry sl => Sys2Proof.Machine.execTrapEntry sl s
  | .vpCohortIssue sl => Sys2Proof.Machine.execVpCohortIssue sl s
  | .grantWaitEnd sl => Sys2Proof.Machine.execGrantWaitEnd sl s
  | .quarterMoveDone => Sys2Proof.Machine.execQuarterMoveDone s
  | .engineFaultDelivery sl => Sys2Proof.Machine.execEngineFaultDelivery sl s
  | .courierBeginPerforming cmd => Sys2Proof.Machine.execCourierBeginPerforming cmd s
  | .courierElementTransfer cmd e => Sys2Proof.Machine.execCourierElementTransfer cmd e s
  | .commandComplete cmd => Sys2Proof.Machine.execCommandComplete cmd s
  | .matrixQueueServe => Sys2Proof.Machine.execMatrixQueueServe s
  | .barrierWaitEnd sl => Sys2Proof.Machine.execBarrierWaitEnd sl s
  | .waitcCounterRead sl => Sys2Proof.Machine.execWaitcCounterRead sl s
  | .turnpikeEntry => Sys2Proof.Machine.execTurnpikeEntry s
  | .turnpikePassEnd => Sys2Proof.Machine.execTurnpikePassEnd s
  | .pkloadPerform => Sys2Proof.Machine.execPkloadPerform s
  | .pkcfgPerform => Sys2Proof.Machine.execPkcfgPerform s
  | .postAreaTake area => Sys2Proof.Machine.execPostAreaTake area s
  | .launchListTake => Sys2Proof.Machine.execLaunchListTake s
  | .watchCounterRead entry => Sys2Proof.Machine.execWatchCounterRead entry s
  | .partyPlace => Sys2Proof.Machine.execPartyPlace s
  | .preemption party => Sys2Proof.Machine.execPreemption party s
  | .partySaveDone party => Sys2Proof.Machine.execPartySaveDone party s
  | .partyEnd party => Sys2Proof.Machine.execPartyEnd party s
  | .priorityAging task => Sys2Proof.Machine.execPriorityAging task s
  | .purseInterval => Sys2Proof.Machine.execPurseInterval s
  | .energyDebit ctx uj => Sys2Proof.Machine.execEnergyDebit ctx uj s
  | .droopDetect => Sys2Proof.Machine.execDroopDetect s
  | .droopEnd => Sys2Proof.Machine.execDroopEnd s
  | .clockStep => Sys2Proof.Machine.execClockStep s
  | .coreGate => Sys2Proof.Machine.execCoreGate s
  | .wakeRequest => Sys2Proof.Machine.execWakeRequest s
  | .wakeRampDone => Sys2Proof.Machine.execWakeRampDone s
  | .correctableError die site marks => Sys2Proof.Machine.execCorrectableError die site marks s
  | .coreRetire => Sys2Proof.Machine.execCoreRetire s
  | .linkShed k => Sys2Proof.Machine.execLinkShed k s
  | .linkWiden k => Sys2Proof.Machine.execLinkWiden k s
  | .linkWidthChangeDone k => Sys2Proof.Machine.execLinkWidthChangeDone k s
  | .linkFault k => Sys2Proof.Machine.execLinkFault k s
  | .routeTimeout req => Sys2Proof.Machine.execRouteTimeout req s
  | .peerRequest ctx pa op => Sys2Proof.Machine.execPeerRequest ctx pa op s
  | .peerReply req data => Sys2Proof.Machine.execPeerReply req data s
  | .xtTargetReply target held => Sys2Proof.Machine.execXtTargetReply target held s
  | .hostBarAccess f bar off op => Sys2Proof.Machine.execHostBarAccess f bar off op s
  | .hostAtomicop f bar off op wide b cmp => Sys2Proof.Machine.execHostAtomicop f bar off op wide b cmp s
  | .registerWrite f off v => Sys2Proof.Machine.execRegisterWrite f off v s
  | .reset => Sys2Proof.Machine.execReset s
  | .info c => Sys2Proof.Machine.execInfo c s
  | .ctxnew c => Sys2Proof.Machine.execCtxnew c s
  | .ctxend c => Sys2Proof.Machine.execCtxend c s
  | .ctxreport c => Sys2Proof.Machine.execCtxreport c s
  | .postreg c => Sys2Proof.Machine.execPostreg c s
  | .postunreg c => Sys2Proof.Machine.execPostunreg c s
  | .prepol c => Sys2Proof.Machine.execPrepol c s
  | .bkset c => Sys2Proof.Machine.execBkset c s
  | .fwinset c => Sys2Proof.Machine.execFwinset c s
  | .linktest c => Sys2Proof.Machine.execLinktest c s
  | .mlimset c => Sys2Proof.Machine.execMlimset c s
  | .vecbind c => Sys2Proof.Machine.execVecbind c s
  | .attest c => Sys2Proof.Machine.execAttest c s
  | .idkey c => Sys2Proof.Machine.execIdkey c s
  | .speedtbl c => Sys2Proof.Machine.execSpeedtbl c s
  | .straggle c => Sys2Proof.Machine.execStraggle c s
  | .vfmem c => Sys2Proof.Machine.execVfmem c s
  | .chconfirm c => Sys2Proof.Machine.execChconfirm c s
  | .taskabort c => Sys2Proof.Machine.execTaskabort c s
  | .serviceWorkDone => Sys2Proof.Machine.execServiceWorkDone s
  | .firstPartyBlocksPlacement party => Sys2Proof.Machine.execFirstPartyBlocksPlacement party s
  | .linkGainsTraining k => Sys2Proof.Machine.execLinkGainsTraining k s
  | .pcieCompletion req data => Sys2Proof.Machine.execPcieCompletion req data s

end Sys2Proof.Machine
end

