-- ==== Sys2Proof/Machine/Porter.lean ====
section
/-! DEFINITION. What the core does by itself: which slot has its turn, the steps of its units while a thread waits, the firmware's answer to
a call, and the fetching of a thread's next word (spec/16 R284; spec/11 R208, R213, R216; spec/25 R418; spec/05 R37). -/

namespace Sys2Proof.Machine

/-! ## Turns (R284) -/

/-- The slot whose turn it is: the one not served last, if it holds a thread. -/
def State.turn (s : State) : Option Slot :=
  if (s.th (other s.cur)).occupied then some (other s.cur) else if s.me.occupied then some s.cur else none

/-! ## Steps of the core's units -/

/-- The next step of a Courier command, if it can take one: it enters performing, its lowest element that is not yet transferred is, or it
completes. -/
def State.cmdEvent (s : State) (c : Cmd) : Option State :=
  (s.courierBeginPerforming c.seq) <|>
  (match (List.range c.kind.count).find? (fun e => !c.xfer.contains e) with
   | some e => s.courierElementTransfer c.seq e
   | none => none) <|>
  (s.commandComplete c.seq)

/-- A step of the engines of the core, or the end of a page copy. -/
def State.engineEvent (s : State) : Option State :=
  (firstStep s.cows (fun c => some (s.cowFinish c))) <|>
  (firstStep s.cmds s.cmdEvent) <|>
  s.matrixQueueServe <|> s.turnpikePassEnd <|> s.turnpikeEntry <|> s.pkloadPerform <|> s.pkcfgPerform

/-- A step of a slot's own window. -/
def State.slotEvent (s : State) (sl : Slot) : Option State :=
  (s.windowEvent sl) <|> (s.branchResolve sl) <|> (s.vpCohortIssue sl)

/-- A physical register that returns to the pool (R189). -/
def State.freeEvent (s : State) (sl : Slot) : Option State :=
  (firstStep (List.range 128) (s.registerFree sl false)) <|> (firstStep (List.range 48) (s.registerFree sl true))

/-- The first step that can happen while the thread of a slot waits, an entry of the issue queue of either slot before the others; a trap is entered
once nothing else can happen (R346, R348). -/
def State.internal (s : State) (sl : Slot) : Option State :=
  (s.queueNext sl) <|> (s.queueNext (other sl)) <|>
  (s.slotEvent sl) <|> s.engineEvent <|> (s.slotEvent (other sl)) <|> (s.freeEvent sl) <|> (s.trapEntry sl)

/-- With no thread on the core, its units and then the Innkeeper go on. -/
def State.idleEvent (s : State) : Option State :=
  s.engineEvent <|> (firstStep s.parties (fun p => s.partyEnd p.key)) <|> (firstStep s.parties (fun p => s.partySaveDone p.key)) <|>
  s.launchListTake <|> s.serviceWorkDone <|> s.partyPlace

/-! ## The firmware's answer (R418) -/

/-- The function that a thread has called, by its number. -/
def State.service (s : State) (sl : Slot) (n : Nat) : Option State :=
  let c : Caller := .device sl
  match n with
  | 0x00 => s.svcInfo c
  | 0x01 => s.svcCtxnew c
  | 0x02 => s.svcCtxend c
  | 0x03 => s.svcCtxreport c
  | 0x04 => s.svcPostreg c
  | 0x05 => s.svcPostunreg c
  | 0x06 => s.svcPrepol c
  | 0x07 => s.svcBkset c
  | 0x08 => s.svcFwinset c
  | 0x09 => s.svcLinktest c
  | 0x0A => s.svcMlimset c
  | 0x0B => s.svcVecbind c
  | 0x0C => s.svcAttest c
  | 0x0D => s.svcIdkey c
  | 0x0E => s.svcSpeedtbl c
  | 0x0F => s.svcStraggle c
  | 0x10 => s.svcVfmem c
  | 0x11 => s.svcChconfirm c
  | 0x12 => s.svcTaskabort c
  | _ => some (s.serveUnknown c)

/-! ## The Porter's next word (R37, R208, R213, R216) -/

/-- The thread's Porter waits: its instruction has not committed, its lead is full, or a fault stands against the head of its window (R191,
R198). -/
def State.waits (s : State) (sl : Slot) : Bool :=
  let t := s.th sl
  t.stalled || t.leadFull || (t.headFault && !s.atomicSent sl)

/-- The thread's instruction may run again. -/
def State.unstall (s : State) (sl : Slot) : State := s.setTh sl { (s.th sl) with stalled := false }

/-- The trap of a hardware breakpoint (R196, R216). -/
def breakInfo (t : Thread) (k : Nat) : TrapInfo :=
  { cause := 0x0A, rule := 31, elem := BitVec.ofNat 16 k, addr := t.pc, epc := t.pc, inv := false }

/-- What the Porter finds at the pc of the thread whose turn it is: a word's instruction, or the outcome where there is none. -/
inductive NextWord where
  | instr (i : Instr) (s : State)
  | out (o : Out)

/-- Fetches and decodes the next word; a breakpoint, a fetch that faults and a word that is no instruction trap (R37, R216, R363). -/
def State.nextInstr (s : State) : NextWord :=
  let t := s.me
  match t.breakAt t.pc with
  | some k => .out (s.trapWord (breakInfo t k))
  | none =>
    match s.fetch t t.pc with
    | .trap s c a => .out (s.wordTrap c a)
    | .wait s => .out s.stall
    | .word s w =>
      match decode w with
      | .ok i => .instr i s
      | .error _ => .out s.illegal

/-- The word of the instruction runs; one that needs the value of a resync which is outstanding waits for it (R193). -/
def State.runInstr (s s' : State) (i : Instr) (run : State → Out) : Out := if s.me.passes i then run s' else s'.stall

/-- The outcome is the trap, or the start of the trap, of the word that ran; EXIT leaves without one. -/
def State.wordTrapped (s : State) (isExit : Bool) (o : Out) : Bool :=
  match o with
  | .next s' =>
    let t := s'.th s.cur
    !isExit && (!t.occupied || t.level != s.me.level || (t.drain && !s.me.drain))
  | _ => true

/-- An engine fault waits at the boundary: the trap of the word there goes first, then that of an older rule; else the fault is delivered
once the window is quiescent (R208, R213). -/
def State.engineFirst (s : State) (isExit : Bool) (o : Out) : Out :=
  let t := s.me
  if s.wordTrapped isExit o then o
  else if t.vec.window == [] || (t.drain && s.quiet s.cur) then
    match t.vec.oldestFault with
    | some (pos, r, f) => .next (s.takeTrap s.cur (faultInfo t pos r f))
    | none => .next (s.deliverEngine s.cur)
  else .next (s.setMe { t with stalled := true, drain := true })

/-! ## What meets a pre-emption, or the delivery of an engine fault, at a boundary (R213, R215) -/

/-- The word at the boundary of a slot's thread is tried: a trap that it takes, or begins to take, an engine fault or its EXIT comes first; of any other
outcome nothing has happened. A trap that a pre-emption meets sets ESTATUS.PREEMPT. -/
def State.tryWord (s : State) (sl : Slot) (mark : Bool) (run : State → Out) : State :=
  let t := s.th sl
  if !t.occupied || t.drain || t.leadFull || t.headFault || t.wait.isSome then s
  else match run { s with cur := sl } with
    | .next s' =>
      let s' := { s' with cur := s.cur }
      let u := s'.th sl
      if !u.occupied || (u.drain && u.level == t.level) then s'
      else if t.level == .user && u.level != .user then s'.setTh sl { u with cfg := { u.cfg with preempt := u.cfg.preempt || mark } }
      else s
    | _ => s

/-- The state in which an event takes place: at a pre-emption, and at the delivery of an engine fault, the words at the boundary have been tried. -/
def State.atBoundary (s : State) (e : Instr) (run : State → Out) : State :=
  match e with
  | .preemption key =>
    if s.victims.contains key && (s.preemption key).isSome then
      let s' := (s.slotsOf key).foldl (fun s sl => s.tryWord sl true run) s
      if s'.victims.contains key || s'.fresh = s.fresh then s' else s
    else s
  | .engineFaultDelivery sl => if (s.engineFaultDelivery sl).isSome then s.tryWord sl false run else s
  | _ => s

end Sys2Proof.Machine
end

