-- ==== Sys2Proof/Machine/Step.lean ====
section
/-! DEFINITION. One step of the machine, and the placing of a word where the next step fetches it. -/

namespace Sys2Proof.Machine

/-- The instruction is EXIT. -/
def isExit : Instr → Bool
  | .exit => true
  | _ => false

/-- The thread whose turn it is runs its next word; an engine fault that waits is taken at this boundary unless the word traps (R213). -/
def State.runWord (s : State) : Host.Outcome State Fault Refusal :=
  let r := match s.nextInstr with
    | .instr i s' => (isExit i, s.runInstr s' i (exec i))
    | .out o => (false, o)
  if s.engineReady s.cur then s.engineFirst r.1 r.2 else r.2

/-- A turn of the thread of slot `cur`: the firmware answers its call, the core's units work while it waits, or it runs its next word (R284). -/
def State.runSlot (s : State) : Host.Outcome State Fault Refusal :=
  match s.me.wait with
  | some (.service n) => .next (((firstStep s.cows (fun c => some (s.cowFinish c))) <|> (s.service s.cur n)).getD s)
  | _ =>
    if s.waits s.cur then .next ((s.internal s.cur).getD (s.unstall s.cur)) else s.runWord

/-- One step: the next event of the agenda, if there is one, after what comes before it at its boundary; else a turn of a slot; else a step of the
units of an idle core. -/
def step (s : State) : Host.Outcome State Fault Refusal :=
  match s.agenda with
  | e :: rest =>
    if e.wellFormed && (encode e).isNone then exec e (State.atBoundary { s with agenda := rest } e State.runWord) else .fault .notAnEvent
  | [] =>
    match s.turn with
    | some sl => { s with cur := sl }.runSlot
    | none => .next (s.idleEvent.getD s)

/-! ## Placing a word (assumption 19) -/

/-- Where withFetchWord places the word, and its page tables: a root table and one table below it whose first entry maps the first 64 GiB
of virtual addresses to the same physical ones. -/
def fetchAt : Nat := 0x10000
def fetchRoot : Nat := 0x2000
def fetchTable : Nat := 0x4000

/-- The context of the placed thread. -/
def fetchCtx : Ctx :=
  { num := 1, root := fetchRoot, entry := 0x20000, fw := 0x28000, priv := false, owner := ⟨0, 0⟩, budget := 0, spent := 0, g := 8 }

/-- s with a word of a table row where the next step fetches it: slot 0 holds a thread at user level whose context maps the word's
page (assumption 19). -/
def State.withFetchWord (s : State) (nbits w : Nat) : State :=
  let word := leBytes 4 (w % 2 ^ nbits)
  let mem := Memory.setList (Memory.setList (Memory.setList s.mem fetchRoot (leBytes 8 (fetchTable + 3))) fetchTable (leBytes 8 0xFD)) fetchAt word
  let t := s.th 0
  let t := { t with
    occupied := true, ctx := 1, level := .user, pc := BitVec.ofNat 64 fetchAt, held := false, wait := none, copied := [], stalled := false, drain := false
    found := none, queue := [], early := [], prep := [], defer := false, vpf := none, vpfDone := [], segCarry := []
    breaks := Vector.replicate 4 none, vec := { t.vec with window := [] } }
  { s with agenda := [], cur := 1, mem := mem, tlb := [], words := [], lines := [], threads := s.threads.set 0 t
           ctxs := fetchCtx :: s.ctxs.filter (fun c => c.num != 1) }

end Sys2Proof.Machine
end

