-- ==== Sys2Proof/Safety.lean ====
section
/-! DEFINITION. The terms that claims are stated in: kinds of instructions, what an instruction leaves as it was, one byte as the core sees
it, and what counts as a safe state and a safe run. -/

namespace Sys2Proof.Machine

/-! ## Kinds of instructions -/

/-- The events of the opcode table; they have no word. -/
def isEvent : Instr → Bool
  | .elementFire .. | .carryCopy .. | .retire .. | .registerFree .. | .branchResolve .. | .elementAccess ..
  | .dataLanding .. | .cowCopyDone .. | .baseDieAtomic .. | .lineWriteback .. | .lineDiscard .. | .linePrefetch ..
  | .dirtyLineTimeout .. | .cleanLineTimeout .. | .trapEntry .. | .vpCohortIssue .. | .grantWaitEnd ..
  | .quarterMoveDone .. | .engineFaultDelivery .. | .courierBeginPerforming .. | .courierElementTransfer ..
  | .commandComplete .. | .matrixQueueServe .. | .barrierWaitEnd .. | .waitcCounterRead .. | .turnpikeEntry ..
  | .turnpikePassEnd .. | .pkloadPerform .. | .pkcfgPerform .. | .postAreaTake .. | .launchListTake ..
  | .watchCounterRead .. | .partyPlace .. | .preemption .. | .partySaveDone .. | .partyEnd .. | .priorityAging ..
  | .purseInterval .. | .energyDebit .. | .droopDetect .. | .droopEnd .. | .clockStep .. | .coreGate ..
  | .wakeRequest .. | .wakeRampDone .. | .correctableError .. | .coreRetire .. | .linkShed .. | .linkWiden ..
  | .linkWidthChangeDone .. | .linkFault .. | .routeTimeout .. | .peerRequest .. | .peerReply .. | .xtTargetReply ..
  | .hostBarAccess .. | .hostAtomicop .. | .registerWrite .. | .reset .. | .info .. | .ctxnew .. | .ctxend ..
  | .ctxreport .. | .postreg .. | .postunreg .. | .prepol .. | .bkset .. | .fwinset .. | .linktest .. | .mlimset ..
  | .vecbind .. | .attest .. | .idkey .. | .speedtbl .. | .straggle .. | .vfmem .. | .chconfirm .. | .taskabort ..
  | .serviceWorkDone .. | .firstPartyBlocksPlacement .. | .linkGainsTraining .. | .pcieCompletion .. => true
  | _ => false

/-- The instructions whose whole effect at the Porter is to issue one rule (R178). -/
def vectorRule : Instr → Bool
  | .vadd .. | .vsub .. | .vrsub .. | .vaddw .. | .vsubw .. | .vmul .. | .vmulh .. | .vdiv .. | .vrem .. | .vmin ..
  | .vmax .. | .vabs .. | .vneg .. | .vand .. | .vor .. | .vxor .. | .vsll .. | .vsrl .. | .vsra .. | .vcvt ..
  | .vaddi .. | .vsubi .. | .vrsubi .. | .vaddwi .. | .vsubwi .. | .vmuli .. | .vmini .. | .vmaxi .. | .vandi ..
  | .vori .. | .vxori .. | .vslli .. | .vsrli .. | .vsrai .. | .vcmpeq .. | .vcmpne .. | .vcmplt .. | .vcmple ..
  | .vcmpgt .. | .vcmpge .. | .vcmpun .. | .mand .. | .mor .. | .mxor .. | .mandn .. | .mnot .. | .msbf .. | .msif ..
  | .msof .. | .viota .. | .vid .. | .vrgather .. | .vrgather2 .. | .vslideup .. | .vslidedown .. | .vslide1up ..
  | .vslide1down .. | .vcompress .. | .vpush .. | .vwmul .. | .vwmacc .. | .vwadd .. | .vncvt .. | .vnshr ..
  | .vsplat .. | .vext .. | .vfsqrt .. | .vfrec .. | .vfrsqrt .. | .vfclass .. | .vfsgnj .. | .vfsgnjn ..
  | .vfsgnjx .. | .vfmadd .. | .vfmsub .. | .vfrmsub .. | .vfnmadd .. | .vredsumo .. | .vredsumt .. | .vredmin ..
  | .vredmax .. | .vredand .. | .vredor .. | .vredxor .. | .vscansum .. | .vscanmin .. | .vscanmax .. | .vld ..
  | .vldStrided .. | .vldIndexed .. | .vldFf .. | .vst .. | .vstStrided .. | .vstIndexed .. | .vamoadd ..
  | .vamoand .. | .vamoor .. | .vamoxor .. | .vamomin .. | .vamomax .. | .vamominn .. | .vamomaxn .. | .vamoswap ..
  | .vamocas .. | .vltl .. | .vlts .. => true
  | _ => false

/-- The instructions of the majors 0x20 to 0x3C, which are illegal from trap entry until ERET (R201). -/
def vectorMajor : Instr → Bool
  | .setvl .. | .setvli .. | .setfib .. | .vtag .. | .vadd .. | .vsub .. | .vrsub .. | .vaddw .. | .vsubw ..
  | .vmul .. | .vmulh .. | .vdiv .. | .vrem .. | .vmin .. | .vmax .. | .vabs .. | .vneg .. | .vand .. | .vor ..
  | .vxor .. | .vsll .. | .vsrl .. | .vsra .. | .vcvt .. | .vaddi .. | .vsubi .. | .vrsubi .. | .vaddwi ..
  | .vsubwi .. | .vmuli .. | .vmini .. | .vmaxi .. | .vandi .. | .vori .. | .vxori .. | .vslli .. | .vsrli ..
  | .vsrai .. | .vcmpeq .. | .vcmpne .. | .vcmplt .. | .vcmple .. | .vcmpgt .. | .vcmpge .. | .vcmpun .. | .mand ..
  | .mor .. | .mxor .. | .mandn .. | .mnot .. | .msbf .. | .msif .. | .msof .. | .viota .. | .vid .. | .vrgather ..
  | .vrgather2 .. | .vslideup .. | .vslidedown .. | .vslide1up .. | .vslide1down .. | .vcompress .. | .vpush ..
  | .vwmul .. | .vwmacc .. | .vwadd .. | .vncvt .. | .vnshr .. | .vsplat .. | .vext .. | .vmvs .. | .mffs ..
  | .mpopc .. | .vfsqrt .. | .vfrec .. | .vfrsqrt .. | .vfclass .. | .vfsgnj .. | .vfsgnjn .. | .vfsgnjx ..
  | .vfmadd .. | .vfmsub .. | .vfrmsub .. | .vfnmadd .. | .vredsumo .. | .vredsumt .. | .vredmin .. | .vredmax ..
  | .vredand .. | .vredor .. | .vredxor .. | .vscansum .. | .vscanmin .. | .vscanmax .. | .vld .. | .vldStrided ..
  | .vldIndexed .. | .vldFf .. | .vst .. | .vstStrided .. | .vstIndexed .. | .vamoadd .. | .vamoand .. | .vamoor ..
  | .vamoxor .. | .vamomin .. | .vamomax .. | .vamominn .. | .vamomaxn .. | .vamoswap .. | .vamocas .. | .vltl ..
  | .vlts .. | .tblb .. | .vpf .. | .vpbr .. | .vpj .. | .vpstop .. | .cpy .. | .cpyg .. | .cpys .. | .cpymg ..
  | .cwtld .. | .csbar .. | .cresume .. | .mcfg .. | .mzero .. | .mma .. | .mmav .. | .mrd .. | .mst .. | .cwalk .. => true
  | _ => false

/-! ## What an instruction leaves as it was -/

/-- Everything outside the two thread slots and the requests on their way is as it was: memory, caches, engines, Innkeeper, host. -/
def SameElsewhere (s t : State) : Prop := t = { s with threads := t.threads, reqs := t.reqs }

/-- What an instruction keeps of the two threads when it writes at most the s register d of its own (R15, R77, R197): every other s register
at every level, every configuration register, the vector side, the thread's identity and level, and the other slot. -/
structure ThreadFrame (d : BitVec 5) (s t : State) : Prop where
  turn      : t.cur = s.cur
  otherSlot : t.th (other s.cur) = s.th (other s.cur)
  regs      : ∀ r : BitVec 5, r ≠ d → t.me.rd r = s.me.rd r
  userRegs  : ∀ r : Fin 32, r ≠ d.toFin → t.me.sregs.get r = s.me.sregs.get r
  userCopy  : s.me.level ≠ .user → ∀ r : Fin 32, 29 ≤ r.val → t.me.sregs.get r = s.me.sregs.get r
  upperCopy : s.me.level = .user → t.me.upper = s.me.upper
  cfg       : t.me.cfg = s.me.cfg
  vec       : t.me.vec = s.me.vec
  level     : t.me.level = s.me.level
  thread    : t.me.occupied = s.me.occupied ∧ t.me.party = s.me.party ∧ t.me.ctx = s.me.ctx ∧ t.me.held = s.me.held ∧
              t.me.vsw = s.me.vsw ∧ t.me.granted = s.me.granted ∧ t.me.vpf = s.me.vpf ∧ t.me.txn = s.me.txn ∧
              t.me.breaks = s.me.breaks ∧ t.me.version = s.me.version

/-- The frame of an instruction that touches no memory: besides the threads' frame, the thread's issue queue, everything else and every byte of
every memory is as it was. -/
structure RegisterFrame (d : BitVec 5) (s t : State) : Prop where
  core      : ThreadFrame d s t
  queue     : t.me.queue = s.me.queue
  elsewhere : SameElsewhere s t
  home      : ∀ a, t.homeByte a = s.homeByte a
  window    : ∀ a, Memory.get t.sp a = Memory.get s.sp a
  tables    : ∀ a, Memory.get t.tables a = Memory.get s.tables a

/-- One byte of local device memory as it stands once the core has written its own dirty bytes back (R343, R348). -/
def State.finalByte (s : State) (pa : Nat) : Byte :=
  match s.findLine (pa / 64) with
  | some l => if l.dirty.getLsbD (pa % 64) then l.byte (pa % 64) else s.homeByte pa
  | none => s.homeByte pa

/-- One byte of local device memory as the core's scalar accesses see it: from its own line where it holds one, else from the home store
(R343). -/
def State.seenByte (s : State) (pa : Nat) : Byte :=
  match s.findLine (pa / 64) with
  | some l => l.byte (pa % 64)
  | none => s.homeByte pa

/-- The byte that a scalar load reads at a local place under a leaf: the cache's where the page may be cached, else the home store's
(R343). -/
def State.readByte (s : State) (l : Leaf) (pa : Nat) : Byte :=
  if cacheable l (.home pa) then s.seenByte pa else s.homeByte pa

/-- The frame of an instruction that reads or writes local memory: besides the threads' frame and the thread's issue queue, only translations,
the scalar cache and the bytes that `kept` leaves out may change. -/
structure AccessFrame (d : BitVec 5) (kept : Nat → Prop) (s t : State) : Prop where
  core      : ThreadFrame d s t
  queue     : t.me.queue = s.me.queue
  elsewhere : t = { s with threads := t.threads, reqs := t.reqs, mem := t.mem, poison := t.poison, lines := t.lines
                           tlb := t.tlb, fresh := t.fresh }
  memory    : ∀ a, kept a → t.finalByte a = s.finalByte a
  window    : ∀ a, Memory.get t.sp a = Memory.get s.sp a
  tables    : ∀ a, Memory.get t.tables a = Memory.get s.tables a

/-- The places of n bytes of local device memory from pa on. -/
def homes (pa n : Nat) : List Loc := (List.range n).map (fun k => .home (pa + k))

/-- The places of n bytes of the scratchpad from offset off on. -/
def tilesAt (off n : Nat) : List Loc := (List.range n).map (fun k => .sp (off + k))

/-- The state after the word of the thread whose turn it is has trapped with no rule in its window; a trap of the firmware ends its context, whose
running accesses settle first (R196, R197). -/
def State.trapped (s : State) (i : TrapInfo) : State := (s.settleFor s.me).takeTrap s.cur i

/-- An address lies outside n bytes from pa on. -/
def Outside (pa n a : Nat) : Prop := a < pa ∨ pa + n ≤ a

/-! ## Scalar accesses to local memory (R81, R82) -/

/-- The n bytes at va of the thread whose turn it is pass every check of R82, and lie in local device memory from pa on, under the leaf l;
s1 is the state after the translation. -/
structure LocalAccess (s : State) (k : AccKind) (va : Word) (n : Nat) (s1 : State) (l : Leaf) (pa : Nat) : Prop where
  below   : va.toNat < 2 ^ 56
  aligned : va.toNat % n = 0
  outside : inWindow va.toNat = false
  mapped  : s.xlate s.me.ctx s.me.level k s.me.copied va.toNat = .ok s1 l
  place   : s1.locOf l va.toNat = .home pa

/-- The n bytes at va lie at offset off of the scratchpad, in tiles that the thread's party has reserved and no command holds (R29, R273,
R291). -/
structure WindowAccess (s : State) (va : Word) (n off : Nat) : Prop where
  below   : va.toNat < 2 ^ 56
  aligned : va.toNat % n = 0
  inside  : inWindow va.toNat = true
  place   : va.toNat = winBase + off
  size    : off + n ≤ spSize
  tiles   : off + n ≤ s.tilesOf s.me * 4096
  idle    : s.spBusy off n = false

/-- A scalar load: its registers, offset, width in bytes and whether it sign-extends (R81). -/
structure LoadForm where
  d : BitVec 5
  a : BitVec 5
  o : BitVec 12
  n : Nat
  signed : Bool
deriving DecidableEq, Repr

def loadForm : Instr → Option LoadForm
  | .ldb d a o => some { d := d, a := a, o := o, n := 1, signed := true }
  | .ldh d a o => some { d := d, a := a, o := o, n := 2, signed := true }
  | .ldw d a o => some { d := d, a := a, o := o, n := 4, signed := true }
  | .ldd d a o => some { d := d, a := a, o := o, n := 8, signed := false }
  | .ldbn d a o => some { d := d, a := a, o := o, n := 1, signed := false }
  | .ldhn d a o => some { d := d, a := a, o := o, n := 2, signed := false }
  | .ldwn d a o => some { d := d, a := a, o := o, n := 4, signed := false }
  | _ => none

/-- The register value of a loaded number of n bytes. -/
def LoadForm.value (f : LoadForm) (x : Nat) : Word :=
  if f.signed then BitVec.ofInt 64 (if 2 ^ (8 * f.n - 1) ≤ x then (x : Int) - 2 ^ (8 * f.n) else (x : Int)) else BitVec.ofNat 64 x

/-- A scalar store: its data and base registers, offset and width in bytes (R81). -/
structure StoreForm where
  d : BitVec 5
  a : BitVec 5
  o : BitVec 12
  n : Nat
deriving DecidableEq, Repr

def storeForm : Instr → Option StoreForm
  | .stb d a o => some { d := d, a := a, o := o, n := 1 }
  | .sth d a o => some { d := d, a := a, o := o, n := 2 }
  | .stw d a o => some { d := d, a := a, o := o, n := 4 }
  | .std d a o => some { d := d, a := a, o := o, n := 8 }
  | _ => none

/-- A scalar atomic: its operation, registers, scope, order and width codes (R84, R86). -/
structure AmoForm where
  op : AmoOp
  d : BitVec 5
  a : BitVec 5
  b : BitVec 5
  sc : BitVec 3
  o : BitVec 2
  w : BitVec 2
deriving DecidableEq, Repr

def amoForm : Instr → Option AmoForm
  | .amoadd d a b sc o w => some { op := .add, d := d, a := a, b := b, sc := sc, o := o, w := w }
  | .amoand d a b sc o w => some { op := .and, d := d, a := a, b := b, sc := sc, o := o, w := w }
  | .amoor d a b sc o w => some { op := .or, d := d, a := a, b := b, sc := sc, o := o, w := w }
  | .amoxor d a b sc o w => some { op := .xor, d := d, a := a, b := b, sc := sc, o := o, w := w }
  | .amomin d a b sc o w => some { op := .min, d := d, a := a, b := b, sc := sc, o := o, w := w }
  | .amomax d a b sc o w => some { op := .max, d := d, a := a, b := b, sc := sc, o := o, w := w }
  | .amominn d a b sc o w => some { op := .minn, d := d, a := a, b := b, sc := sc, o := o, w := w }
  | .amomaxn d a b sc o w => some { op := .maxn, d := d, a := a, b := b, sc := sc, o := o, w := w }
  | .amoswap d a b sc o w => some { op := .swap, d := d, a := a, b := b, sc := sc, o := o, w := w }
  | .amocas d a b sc o w => some { op := .cas, d := d, a := a, b := b, sc := sc, o := o, w := w }
  | _ => none

/-- Width in bytes of an atomic. -/
def AmoForm.n (f : AmoForm) : Nat := if f.w = 1#2 then 8 else 4

/-- The atomic has a release part, or an acquire part (R86). -/
def AmoForm.rel (f : AmoForm) : Bool := 2 ≤ f.o.toNat
def AmoForm.acq (f : AmoForm) : Bool := f.o = 1#2 || f.o = 3#2

/-- The address and width in bytes of the access that a scalar load, store, atomic, WAITC, CADD or LAUNCH checks, and the permission that it
needs (R81, R82, R84, R100, R323). -/
def State.scalarAccess (s : State) (i : Instr) : Option (AccKind × Word × Nat) :=
  match loadForm i, storeForm i, amoForm i, i with
  | some f, _, _, _ => some (.read, s.me.rd f.a + f.o.signExtend 64, f.n)
  | _, some f, _, _ => some (.store, s.me.rd f.a + f.o.signExtend 64, f.n)
  | _, _, some f, _ => some (.write, s.me.rd f.a, f.n)
  | _, _, _, .waitc _ a _ => some (.read, s.me.rd a, 8)
  | _, _, _, .cadd _ a _ => some (.write, s.me.rd a, 8)
  | _, _, _, .launch a => some (.read, s.me.rd a, 128)
  | _, _, _, _ => none

/-- The instruction waits first for earlier accesses or commands of its thread: an atomic with a release part, and CADD (R86, R324). -/
def State.scalarWaits (s : State) (i : Instr) : Bool :=
  match amoForm i, i with
  | some f, _ => f.rel && s.accessOpen s.cur
  | _, .cadd .. => s.enginesOpen s.cur || s.accessOpen s.cur
  | _, _ => false

/-- The instructions that no scratchpad address can serve (R29, R84, R323). -/
def noWindow : Instr → Bool
  | .waitc .. | .cadd .. => true
  | i => (amoForm i).isSome

/-- Destination of each instruction that only computes on s registers (R77 to R80). -/
def scalarDest : Instr → Option (BitVec 5)
  | .add d _ _ | .sub d _ _ | .and d _ _ | .or d _ _ | .xor d _ _ | .sll d _ _ | .srl d _ _ | .sra d _ _ | .ror d _ _
  | .slt d _ _ | .sltn d _ _ | .mul d _ _ | .mulh d _ _ | .mulhn d _ _ | .div d _ _ | .divn d _ _ | .rem d _ _ | .remn d _ _
  | .min d _ _ | .max d _ _ | .minn d _ _ | .maxn d _ _ => some d
  | .clz d _ | .ctz d _ | .spopc d _ | .sextb d _ | .sexth d _ | .sextw d _ => some d
  | .addi d _ _ | .andi d _ _ | .ori d _ _ | .xori d _ _ | .slti d _ _ | .sltni d _ _ => some d
  | .slli d _ _ | .srli d _ _ | .srai d _ _ | .rori d _ _ => some d
  | .lih d _ | .lix d _ _ | .addpc d _ => some d
  | _ => none

/-- The state after the thread's instruction has written v to d and gone on at the next word. -/
def State.wrote (s : State) (d : BitVec 5) (v : Word) : State := s.committed (s.me.wr d v) (s.me.pc + 4)

/-! ## Values of elements -/

/-- A result holds an exact integer clamped to the range of its tag, with SAT exactly when the clamp changed it and no exception flag (R58). -/
def Clamped (td : Tag) (v : Int) (r : Res) : Prop :=
  td.toInt r.bits = max td.lo (min td.hi v) ∧ r.bits < 2 ^ td.bits ∧ r.fl = 0 ∧ r.vs = (if td.lo ≤ v ∧ v ≤ td.hi then 0 else 4)

/-- A result of n bits raises no flag, and its bit j is f j (R113). -/
def Bitwise (n : Nat) (f : Nat → Bool) (r : Res) : Prop :=
  r.bits < 2 ^ n ∧ r.fl = 0 ∧ r.vs = 0 ∧ ∀ j, j < n → r.bits.testBit j = f j

/-- Element i of a rule takes part: its index is below VLe and its mask bit is 1 (R104). -/
def Active (t : Thread) (r : Rule) (i : Nat) : Prop := i < r.vle ∧ gov t.vec r i = .on

/-- The mask bit of an index is known, and is not VOID. -/
def Decided (t : Thread) (r : Rule) (j : Nat) : Prop := gov t.vec r j = .on ∨ gov t.vec r j = .off

/-- The numbers of the elements of va that take part among the first n, as its tag reads them (R147). -/
def activeInts (t : Thread) (r : Rule) (n : Nat) : List Int :=
  ((List.range n).filter (fun j => gov t.vec r j == .on)).map (fun j => r.ta.toInt (match t.vec.elem r.a0 j with | .present x => x.toNat | _ => 0))

/-- The same as patterns extended to 64 bits (R113). -/
def activePatterns (t : Thread) (r : Rule) (n : Nat) : List Nat :=
  ((List.range n).filter (fun j => gov t.vec r j == .on)).map (fun j => r.ta.extend (match t.vec.elem r.a0 j with | .present x => x.toNat | _ => 0))

/-! ## Safe states and runs -/

/-- The byte memories hold their canonical form. -/
def State.memWf (s : State) : Bool := Memory.wf s.mem && Memory.wf s.sp && Memory.wf s.tables

/-- Every thread of the machine: those in the slots, those of parties whose save runs, and those of saved parties. -/
def State.allThreads (s : State) : List Thread :=
  s.threads.toList ++
    (s.parties.filterMap (fun p => p.saving) ++ s.waiting.filterMap (fun w => w.saved)).flatMap (fun v => v.threads.map (fun q => q.2))

/-- A window of at most 24 rules (R178), and vector registers of elements of 1, 2, 4 or 8 bytes (R17, R187). -/
def Thread.vecOk (t : Thread) : Bool := decide (t.vec.window.length ≤ 24) && t.vec.vregs.toList.all (fun r => decide (r.wlog ≤ 3))

/-- The vector sides of all threads are within R178 and R187. -/
def State.vecOk (s : State) : Bool := s.allThreads.all Thread.vecOk

/-- The next entry of the agenda, if there is one, is an event of the part. -/
def State.agendaOk (s : State) : Bool :=
  match s.agenda with
  | e :: _ => e.wellFormed && (encode e).isNone
  | [] => true

/-- A run of n steps that no fault and no refusal ends, from s to t. -/
inductive SafeRun : Nat → State → State → Prop where
  | stop (s : State) : SafeRun 0 s s
  | step {n : Nat} {s u t : State} (h : Machine.step s = .next u) (r : SafeRun n u t) : SafeRun (n + 1) s t

/-! ## Posts -/

/-- The thread has posted its command and gone on: what it posted stands in the next state, and no register of it, no byte of device memory as
it finally stands and no byte of the scratchpad has changed (R290, R309). -/
structure WentOn (s u : State) : Prop where
  pc     : u.me.pc = s.me.pc + 4
  thread : ThreadFrame 0 s u
  queue  : u.me.queue = s.me.queue
  memory : ∀ a, u.finalByte a = s.finalByte a
  window : ∀ a, Memory.get u.sp a = Memory.get s.sp a
  tables : ∀ a, Memory.get u.tables a = Memory.get s.tables a

/-- The thread may post an engine command with these scratchpad extents and aligned bases: it is in an engine party, its earlier accesses
have performed, and every extent lies in the party's tiles (R273, R274, R290, R294, R309). -/
structure MayPost (s : State) (ext : List Extent) (bases : List (Word × Nat)) : Prop where
  form    : s.memWf = true
  engine  : s.engineOf s.me = true
  earlier : s.accessOpen s.cur = false
  tiles   : ∀ x ∈ ext, x.2 = 0 ∨ x.1 + x.2 ≤ s.spTop s.me
  aligned : ∀ b ∈ bases, b.1.toNat % b.2 = 0

/-- The Courier command that the thread posts (R295, R307). -/
def State.newCmd (s : State) (stream : Nat) (kind : CmdKind) (counter : Word) (inc : Nat) (bar : Option (Fin 16)) (st : CmdState) : Cmd :=
  { seq := s.seq, stream := stream, slot := s.cur, party := s.me.party, ptidx := s.me.cfg.ptidx.toNat, ctx := s.me.ctx, level := s.me.level
    kind := kind, counter := counter, inc := inc, bar := bar, st := st, xfer := [] }

/-- The matrix command that the thread posts under a post number (R326). -/
def State.newMat (s : State) (seq : Nat) (op : MatOp) : MatCmd :=
  { seq := seq, slot := s.cur, party := s.me.party, ptidx := s.me.cfg.ptidx.toNat, op := op }

/-- The PIKE command that the thread posts (R387). -/
def State.newPike (s : State) (op : PikeOp) : PikeCmd :=
  { seq := s.seq, slot := s.cur, party := s.me.party, ptidx := s.me.cfg.ptidx.toNat, op := op }

end Sys2Proof.Machine
end

