-- ==== Sys2Proof/Certificates/Slice0/Obligations.lean ====
section
/-! DEFINITION. The statements about the machine that are put to proof. Each follows the rules that its last line names; where a statement
rests on a choice of the model, it names the log entry. -/

open Sys2Proof
open Sys2Proof.Machine

/-- For every line of the word tables of R48, R103, R204, R249, R258, R322 and R334, the decoder reads the line's instruction from the word
shown, and the encoder gives that word for the instruction. (R48, R103, R204, R249, R258, R322, R334.) -/
def Obligations.SpecWordsDecodeAndEncode : Prop :=
  ∀ p ∈ ([
  (0x26800003#32, .lih 20 0x0003),
   (0x0AD40834#32, .addi 22 20 2100),
   (0x0BFFFFF0#32, .addi 31 31 (-16)),
   (0x05293000#32, .add 9 9 6),
   (0x36B60000#32, .stb 21 22 0),
   (0x36B60FFF#32, .stb 21 22 (-1)),
   (0x30DF3008#32, .ldd 6 31 8),
   (0x38A73045#32, .amoadd 5 7 6 4 1 1),
   (0x4CE00004#32, .bge 7 0 4),
   (0x5BFFFFF9#32, .j (-7)),
   (0x5C000006#32, .call 6),
   (0x84221980#32, .vadd 1 2 3 3 false),
   (0x84222840#32, .vadd 1 2 5 0 true),
   (0x8822E800#32, .vaddi 1 2 (-3) 0),
   (0x8C214040#32, .vcmpeq 1 1 8 0 true),
   (0xC0290018#32, .vldFf 1 9 0 false false 0),
   (0xC0842968#32, .vldStrided 4 4 5 2 true true 0),
   (0xC4443815#32, .vstIndexed 2 4 7 0 false false 2 true),
   (0xE906C000#32, .cpy 8 3 12 false 0 0),
   (0x04290801#32, .sub 1 9 1),
   (0x20850083#32, .srai 4 5 3),
   (0x2884FF00#32, .lix 4 4 0xFF00),
   (0x2CC00001#32, .addpc 6 1),
   (0x307F6FFC#32, .ldwn 3 31 (-4)),
   (0x38A734DD#32, .amocas 5 7 6 5 3 1),
   (0x60090000#32, .jr 9),
   (0x60000002#32, .ret),
   (0x70C00100#32, .rdcfg 6 0),
   (0x70050183#32, .wrcfg 5 3),
   (0x7000026C#32, .fence true true false true 4),
   (0x70000005#32, .trap 5),
   (0x70000300#32, .exit),
   (0x700C0400#32, .splice 3),
   (0x70080480#32, .launch 8),
   (0x70000080#32, .eret),
   (0x70000283#32, .brk 3),
   (0x70040500#32, .wsave 4),
   (0x70040580#32, .wload 4),
   (0xE0000003#32, .vpf 0 3),
   (0xE120000B#32, .vpbr 2 11),
   (0xE1300002#32, .vpbr 3 2),
   (0xE12FFFF5#32, .vpbr 2 (-11)),
   (0xE2000002#32, .vpj 2),
   (0xE3000000#32, .vpstop),
   (0x74C00002#32, .bar 6 2),
   (0x74C00082#32, .bara 6 2),
   (0x74E60102#32, .barw 7 6 2),
   (0x74080182#32, .barexp 8 2),
   (0x74A00201#32, .take 5 1),
   (0x74000281#32, .lrel 1),
   (0xE900A200#32, .cpyg 8 0 10 false 0 0),
   (0xE902A200#32, .cpyg 8 1 10 false 0 0),
   (0xE904C710#32, .cpymg 8 2 12 true 1 0),
   (0xEA040800#32, .cwtld 16 2 false 0 0),
   (0xE8800A00#32, .csbar 4),
   (0xE8040C00#32, .cresume 2),
   (0xEC1F19CC#32, .mcfg 7 24 25 3 3),
   (0xEC800000#32, .mzero 0),
   (0xED15A000#32, .mma 0 21 20),
   (0xED886280#32, .mmav 8 12 5),
   (0xEE0C6800#32, .mrd 0 12 13 0),
   (0xEEB52000#32, .mst 1 21 1)] : List (Insn × Instr)),
    decode p.1 = .ok p.2 ∧ encode p.2 = some p.1

/-- Every well-formed instruction word of the table (every constructor that is no event, with every operand at every value that its encoding
admits) has an encoding, and the decoder reads the same instruction, with the same operands, from that word; no bit of a field is dropped
and no two instructions share a word. (R32, R33, R36, R37.) -/
def Obligations.EncodeThenDecode : Prop :=
  ∀ i : Instr, i.wellFormed = true → isEvent i = false → ∃ w, encode i = some w ∧ decode w = .ok i

/-- If the decoder accepts a word, the instruction that it reads is well formed, is no event, and encodes to that very word: a word with a
nonzero unused field, an unassigned function or a misaligned register group is never read as a neighbouring instruction. (R32, R33, R36,
R37, R42.) -/
def Obligations.DecodeThenEncode : Prop :=
  ∀ (w : Insn) (i : Instr), decode w = .ok i → i.wellFormed = true ∧ isEvent i = false ∧ encode i = some w

/-- After reset no party is placed and both slots are free, no context exists, READY, REPLACE, LINKDOWN and the error counters are 0, no
command, record, rule, transaction, page copy, request or asynchronous work is in progress, the Turnpike queue and chain, the launch list,
the watches, the post areas and the free-page pool are empty, and the configuration registers that R24 gives a value at thread start hold it
(a free slot holds the values of thread start: log entry 3). (R24, R392, R408, R410.) -/
def Obligations.ResetState : Prop :=
  State.reset.parties = [] ∧ State.reset.tasks = [] ∧ State.reset.ctxs = [] ∧ State.reset.ready = false ∧ State.reset.replace = false ∧
  State.reset.linkdown = false ∧ State.reset.cmds = [] ∧ State.reset.matQ = [] ∧ State.reset.cows = [] ∧ State.reset.chret = 0 ∧
  State.reset.pike.queue = [] ∧ State.reset.pike.chain = [] ∧ State.reset.pike.feeds = [] ∧ State.reset.pike.reentry = [] ∧
  State.reset.launches = [] ∧ State.reset.watches = [] ∧ State.reset.unwatched = [] ∧ State.reset.areas = [] ∧ State.reset.waiting = [] ∧
  State.reset.works = [] ∧ State.reset.pool = [] ∧ State.reset.reqs = [] ∧ State.reset.lines = [] ∧ State.reset.tlb = [] ∧
  State.reset.mlim = 3600 ∧ State.reset.gfact = 8 ∧ State.reset.droop = false ∧
  (∀ d : Fin 4, State.reset.errs.get d = { ce := 0, ue := 0, voids := 0, dropw := 0, lret := 0, cret := 0 }) ∧
  ∀ sl : Slot, (State.reset.th sl).occupied = false ∧ (State.reset.th sl).txn = none ∧ (State.reset.th sl).vec.window = [] ∧
    (State.reset.th sl).queue = [] ∧
    (∀ n ∈ [0x00, 0x02, 0x03, 0x04, 0x05, 0x06, 0x09, 0x11, 0x12, 0x13, 0x14, 0x15, 0x16, 0x17, 0x18], State.reset.cfgRead sl n = 0)

/-- When no event is due, a slot has its turn, and its thread waits for nothing, is at no breakpoint and has no engine fault to take, and
the word fetched at its pc decodes to an instruction, the step is exec of that instruction at the state after the fetch; while a resync's
value that the word needs is outstanding, it waits instead. (R31, R37, R193, R284.) -/
def Obligations.StepRunsDecoded : Prop :=
  ∀ (s s1 : State) (sl : Slot) (w : Insn) (i : Instr), s.agenda = [] → s.turn = some sl →
    let u : State := { s with cur := sl }
    let t := s.th sl
    (∀ n, t.wait ≠ some (.service n)) → u.waits sl = false → u.engineReady sl = false →
    t.breakAt t.pc = none → u.fetch t t.pc = .word s1 w → decode w = .ok i →
    (t.passes i = true → step s = exec i s1) ∧ (t.passes i = false → step s = .next s1.stalledMe)

/-- The agenda (the model's own order of outside inputs and of other agents' choices, log entry 2) goes first: a well-formed event at its
head is run with the agenda shortened by it. A pre-emption, and the delivery of an engine fault, come after the traps of the words at their
boundary (R213; in the model those words are tried first, log entry 72); every other event runs in the state as it is. Any other term stops
the step with the fault notAnEvent. (R13, R284.) -/
def Obligations.StepRunsEvent : Prop :=
  (∀ (s : State) (e : Instr) (rest : List Instr), s.agenda = e :: rest → e.wellFormed = true → isEvent e = true →
    step s = exec e (State.atBoundary { s with agenda := rest } e State.runWord)) ∧
  (∀ (u : State) (e : Instr), (∀ p, e ≠ .preemption p) → (∀ sl, e ≠ .engineFaultDelivery sl) → State.atBoundary u e State.runWord = u) ∧
  (∀ (u : State) (p : Nat), u.preemption p = none → State.atBoundary u (.preemption p) State.runWord = u) ∧
  (∀ (u : State) (sl : Slot), u.engineFaultDelivery sl = none → State.atBoundary u (.engineFaultDelivery sl) State.runWord = u) ∧
  (∀ (s : State) (e : Instr) (rest : List Instr), s.agenda = e :: rest → (e.wellFormed = false ∨ isEvent e = false) →
    step s = .fault .notAnEvent)

/-- For every instruction word and event, with every operand and in every state, exec answers a next state: its effect, its wait, or the
exception that the spec has it take. (R37, R196.) -/
def Obligations.ExecAlwaysAnswers : Prop :=
  ∀ (i : Instr) (s : State), ∃ t, exec i s = .next t

/-- From every state, a step answers a next state, but for a state whose agenda begins with a term that is no well-formed event, where it
faults with notAnEvent (the model's own stop, log entry 2). (R37, R196.) -/
def Obligations.StepStopsOnlyOnBadAgenda : Prop :=
  ∀ s : State, (s.agendaOk = true → ∃ t, step s = .next t) ∧ (s.agendaOk = false → step s = .fault .notAnEvent)

/-- If device memory, the scratchpad and the lane tables are in canonical form (addresses strictly rising, no entry equal to what an
unlisted address reads as) and a step answers a next state, they are in canonical form there too: equal memories stay equal data under every
instruction and event. (R31, R346.) -/
def Obligations.StepKeepsMemoryForm : Prop :=
  ∀ s t : State, s.memWf = true → step s = .next t → t.memWf = true

/-- Reset leaves the byte memories in canonical form with nothing listed, so every byte of device memory, scratchpad and lane tables reads
as zero: the model's choice, for device memory by log entry 7, for scratchpad and lane tables by log entry 3. (R407, R415.) -/
def Obligations.ResetMemoryForm : Prop :=
  State.reset.memWf = true ∧ ∀ a, State.reset.homeByte a = 0 ∧ Memory.get State.reset.sp a = 0 ∧ Memory.get State.reset.tables a = 0

/-- Whatever instruction word a thread runs at user level, in the next state its slot is at user level or free, or it has entered its
context's supervisor: level supervisor, the window held as an image, and ESTATUS.PLEV 0. No word at user level reaches the firmware level.
(R197, R201.) -/
def Obligations.UserLevelIsLeftByTrapOnly : Prop :=
  ∀ (i : Instr) (s t : State), isEvent i = false → s.me.level = .user → exec i s = .next t →
    t.me.level = .user ∨ (t.me.level = .supervisor ∧ t.me.held = true ∧ t.me.cfg.plev = 0)

/-- For every state, source and destination register (s0 included, whose write is discarded), each of the SALU functions but the four
divisions completes: the next state is the one in which d holds the table's function of the source registers (formulated here on integers
and on 128-bit products) and the pc has advanced by 4. CLZ and CTZ give the number n ≤ 64 of clear bits above the topmost or below the
lowest set bit, 64 for a source of 0, and SPOPC the number of set bits. (R15, R77.) -/
def Obligations.ScalarArithmeticResults : Prop :=
  ∀ (s : State) (d a b : BitVec 5),
    let x := s.me.rd a
    let y := s.me.rd b
    let k := y.toNat % 64
    exec (.add d a b) s = .next (s.wrote d (BitVec.ofInt 64 (x.toInt + y.toInt))) ∧
    exec (.sub d a b) s = .next (s.wrote d (BitVec.ofInt 64 (x.toInt - y.toInt))) ∧
    exec (.and d a b) s = .next (s.wrote d (x &&& y)) ∧
    exec (.or d a b) s = .next (s.wrote d (x ||| y)) ∧
    exec (.xor d a b) s = .next (s.wrote d (x ^^^ y)) ∧
    exec (.sll d a b) s = .next (s.wrote d (BitVec.ofNat 64 (x.toNat * 2 ^ k))) ∧
    exec (.srl d a b) s = .next (s.wrote d (BitVec.ofNat 64 (x.toNat / 2 ^ k))) ∧
    exec (.sra d a b) s = .next (s.wrote d (BitVec.ofInt 64 (x.toInt / 2 ^ k))) ∧
    exec (.ror d a b) s = .next (s.wrote d ((x >>> k) ||| (x <<< (64 - k)))) ∧
    exec (.slt d a b) s = .next (s.wrote d (if x.slt y then 1 else 0)) ∧
    exec (.sltn d a b) s = .next (s.wrote d (if x < y then 1 else 0)) ∧
    exec (.mul d a b) s = .next (s.wrote d (BitVec.ofInt 64 (x.toInt * y.toInt))) ∧
    exec (.mulh d a b) s = .next (s.wrote d ((x.signExtend 128 * y.signExtend 128).extractLsb' 64 64)) ∧
    exec (.mulhn d a b) s = .next (s.wrote d ((x.setWidth 128 * y.setWidth 128).extractLsb' 64 64)) ∧
    exec (.min d a b) s = .next (s.wrote d (if y.slt x then y else x)) ∧
    exec (.max d a b) s = .next (s.wrote d (if x.slt y then y else x)) ∧
    exec (.minn d a b) s = .next (s.wrote d (if y < x then y else x)) ∧
    exec (.maxn d a b) s = .next (s.wrote d (if x < y then y else x)) ∧
    exec (.sextb d a) s = .next (s.wrote d (BitVec.ofInt 64 (x.setWidth 8).toInt)) ∧
    exec (.sexth d a) s = .next (s.wrote d (BitVec.ofInt 64 (x.setWidth 16).toInt)) ∧
    exec (.sextw d a) s = .next (s.wrote d (BitVec.ofInt 64 (x.setWidth 32).toInt)) ∧
    (∃ n, n ≤ 64 ∧ exec (.clz d a) s = .next (s.wrote d (BitVec.ofNat 64 n)) ∧
      (∀ i, i < n → x.getLsbD (63 - i) = false) ∧ (n < 64 → x.getLsbD (63 - n) = true)) ∧
    (∃ n, n ≤ 64 ∧ exec (.ctz d a) s = .next (s.wrote d (BitVec.ofNat 64 n)) ∧
      (∀ i, i < n → x.getLsbD i = false) ∧ (n < 64 → x.getLsbD n = true)) ∧
    exec (.spopc d a) s = .next (s.wrote d (BitVec.ofNat 64 ((List.range 64).filter (fun i => x.getLsbD i)).length))

/-- DIV, DIVN, REM and REMN complete in every state. With b not 0 and no signed overflow, quotient and remainder are the numbers q and r
with a = b × q + r, the remainder smaller than b in magnitude and of the sign of a; div and divn by 0 give all ones, rem and remn by 0 give
a; −2^63 divided by −1 gives −2^63 with remainder 0. Only d and the pc change: no trap and no flag. (R78.) -/
def Obligations.ScalarDivisionResults : Prop :=
  ∀ (s : State) (d a b : BitVec 5),
    let x := s.me.rd a
    let y := s.me.rd b
    ∃ q r qn rn : Word,
      exec (.div d a b) s = .next (s.wrote d q) ∧ exec (.rem d a b) s = .next (s.wrote d r) ∧
      exec (.divn d a b) s = .next (s.wrote d qn) ∧ exec (.remn d a b) s = .next (s.wrote d rn) ∧
      (y = 0 → q = BitVec.allOnes 64 ∧ qn = BitVec.allOnes 64 ∧ r = x ∧ rn = x) ∧
      (x = BitVec.intMin 64 ∧ y = BitVec.allOnes 64 → q = BitVec.intMin 64 ∧ r = 0) ∧
      (y ≠ 0 → ¬(x = BitVec.intMin 64 ∧ y = BitVec.allOnes 64) →
        x.toInt = y.toInt * q.toInt + r.toInt ∧ r.toInt.natAbs < y.toInt.natAbs ∧ 0 ≤ r.toInt * x.toInt) ∧
      (y ≠ 0 → x.toNat = y.toNat * qn.toNat + rn.toNat ∧ rn.toNat < y.toNat) ∧
      RegisterFrame d s (s.wrote d q) ∧ RegisterFrame d s (s.wrote d r)

/-- For every state, register and immediate, each of ADDI, ANDI, ORI, XORI, SLTI, SLTNI, SLLI, SRLI, SRAI, RORI, LIH, LIX and ADDPC
completes with the table's value in d: arithmetic and compares take the immediate sign-extended (SLTNI and the bitwise forms zero-extended),
LIH shifts it by 16, LIX appends its 16 bits, and ADDPC adds its multiple of 64 KiB to the pc rounded down to 64 KiB. (R46, R79, R80.) -/
def Obligations.ScalarImmediateResults : Prop :=
  ∀ (s : State) (d a : BitVec 5) (i : BitVec 16) (n : BitVec 6),
    let x := s.me.rd a
    exec (.addi d a i) s = .next (s.wrote d (BitVec.ofInt 64 (x.toInt + i.toInt))) ∧
    exec (.andi d a i) s = .next (s.wrote d (x &&& BitVec.ofNat 64 i.toNat)) ∧
    exec (.ori d a i) s = .next (s.wrote d (x ||| BitVec.ofNat 64 i.toNat)) ∧
    exec (.xori d a i) s = .next (s.wrote d (x ^^^ BitVec.ofNat 64 i.toNat)) ∧
    exec (.slti d a i) s = .next (s.wrote d (if x.toInt < i.toInt then 1 else 0)) ∧
    exec (.sltni d a i) s = .next (s.wrote d (if x.toNat < i.toNat then 1 else 0)) ∧
    exec (.slli d a n) s = .next (s.wrote d (BitVec.ofNat 64 (x.toNat * 2 ^ n.toNat))) ∧
    exec (.srli d a n) s = .next (s.wrote d (BitVec.ofNat 64 (x.toNat / 2 ^ n.toNat))) ∧
    exec (.srai d a n) s = .next (s.wrote d (BitVec.ofInt 64 (x.toInt / 2 ^ n.toNat))) ∧
    exec (.rori d a n) s = .next (s.wrote d ((x >>> n.toNat) ||| (x <<< (64 - n.toNat)))) ∧
    exec (.lih d i) s = .next (s.wrote d (BitVec.ofInt 64 (i.toInt * 2 ^ 16))) ∧
    exec (.lix d a i) s = .next (s.wrote d (BitVec.ofNat 64 (x.toNat * 2 ^ 16 + i.toNat))) ∧
    exec (.addpc d i) s = .next (s.wrote d (BitVec.ofInt 64 ((s.me.pc.toNat / 2 ^ 16 * 2 ^ 16 : Nat) + i.toInt * 2 ^ 16)))

/-- For each of the 41 SALU, immediate and ADDPC instructions, in every state: if exec answers a next state, every other s register at every
level, every configuration register and sticky flag, the vector side, the level, the other slot and every byte of device memory, scratchpad
and lane tables are as before, and the pc is the next word's. (R15, R77, R79, R80, R197.) -/
def Obligations.ScalarComputationFrame : Prop :=
  ∀ (i : Instr) (d : BitVec 5) (s t : State), scalarDest i = some d → exec i s = .next t →
    RegisterFrame d s t ∧ t.me.pc = s.me.pc + 4

/-- A write to s0 changes nothing and s0 reads as zero; a write to any other register is read back and leaves every other register as it
was; at user level it leaves the upper copies of s29, s30 and s31 as they were, and above user level it leaves their user copies as they
were; the other registers are shared by all levels. (R15, R197.) -/
def Obligations.RegisterFileLaws : Prop :=
  ∀ (t : Thread) (r q : BitVec 5) (v : Word),
    t.wr 0 v = t ∧ t.rd 0 = 0 ∧ (r ≠ 0 → (t.wr r v).rd r = v) ∧ (q ≠ r → (t.wr r v).rd q = t.rd q) ∧
    (t.level = .user → (t.wr r v).upper = t.upper) ∧
    (t.level ≠ .user → ∀ k : Fin 32, 29 ≤ k.val → (t.wr r v).sregs.get k = t.sregs.get k) ∧
    (r.toNat < 29 → ∀ l : Level, ({ t with level := l } : Thread).rd r = t.rd r)

/-- Each branch completes at its own address plus its sign-extended offset times 4 when its condition holds, else at the next word; J
completes at its own address plus its offset times 4; JR completes at s(a) when bits [1:0] of it are zero. No register and no memory changes
(the next state is the committed one with the thread as it was). (R87, R88, R91.) -/
def Obligations.BranchesAndJumps : Prop :=
  ∀ (s : State) (a b : BitVec 5) (o : BitVec 16) (o26 : BitVec 26),
    let x := s.me.rd a
    let y := s.me.rd b
    let go (c : Bool) : State := s.committed s.me (if c then BitVec.ofInt 64 (s.me.pc.toNat + o.toInt * 4) else s.me.pc + 4)
    exec (.beq a b o) s = .next (go (x == y)) ∧ exec (.bne a b o) s = .next (go (x != y)) ∧
    exec (.blt a b o) s = .next (go (x.slt y)) ∧ exec (.bge a b o) s = .next (go (!x.slt y)) ∧
    exec (.bltn a b o) s = .next (go (x.ult y)) ∧ exec (.bgen a b o) s = .next (go (!x.ult y)) ∧
    exec (.j o26) s = .next (s.committed s.me (BitVec.ofInt 64 (s.me.pc.toNat + o26.toInt * 4))) ∧
    (x.toNat % 4 = 0 → exec (.jr a) s = .next (s.committed s.me x)) ∧
    ∀ pc : Word, RegisterFrame 0 s (s.committed s.me pc) ∧ (s.committed s.me pc).me.pc = pc

/-- With the window empty (older rules go first), a JR whose target is misaligned takes the trap with cause 0x05, TRAPADDR and EPC at the
JR; a CALLR with an aligned s31 does the same before anything is pushed. (R31, R89, R91, R196.) -/
def Obligations.MisalignedTargetsTrap : Prop :=
  ∀ (s : State) (a : BitVec 5), (s.me.rd a).toNat % 4 ≠ 0 → s.me.vec.window = [] →
    exec (.jr a) s = .next (s.trapped (wordInfo 0x05 s.me.pc s.me.pc)) ∧
    ((s.me.rd 31).toNat % 16 = 0 → exec (.callr a) s = .next (s.trapped (wordInfo 0x05 s.me.pc s.me.pc)))

/-- For each of the seven loads: when no earlier vector memory rule and no entry of the thread's issue queue holds it back and nothing was
read early there, its address passes the checks of R82 and lies in local device memory, and the bytes can be corrected, it completes: d
holds the little-endian bytes that the core sees there (after the A bit of the leaf has been set), sign- or zero-extended; the pc advances
by 4; every other register and every byte of memory outside the page-table entry is as before. Where the Porter has let the thread's next
access into its issue queue (R346; in the model the event of log entry 20), it completes too: it stands last in that queue with its place in
program order, its address, its places and its destination, and reads when it performs. (R81, R82, R83, R343, R364.) -/
def Obligations.LoadsReadLocalMemory : Prop :=
  ∀ (i : Instr) (f : LoadForm) (s s1 : State) (l : Leaf) (pa : Nat), loadForm i = some f → s.memWf = true → s.scalarHeld s.cur = false →
    let va := s.me.rd f.a + f.o.signExtend 64
    LocalAccess s .read va f.n s1 l pa → (∀ k, k < f.n → s.poison.contains (pa + k) = false) →
    (s.me.defer = false → s1.queueHolds s.me (homes pa f.n) true false (pteDev l.e) = false → s.me.earlyAt .scalar (homes pa f.n) = none →
      ∃ t, exec i s = .next t ∧
        t.me.rd f.d = (if f.d = 0 then 0 else
          f.value (leNat ((List.range f.n).map (fun k => (s1.touch l false).readByte l (pa + k))))) ∧
        t.me.pc = s.me.pc + 4 ∧ AccessFrame f.d (Outside l.addr 8) s t) ∧
    (s.me.defer = true → ∃ t sgn kept, exec i s = .next t ∧ t.me.pc = s.me.pc + 4 ∧ ThreadFrame 0 s t ∧
      t.me.queue = s.me.queue ++ [{ age := s.me.count, va := va.toNat, locs := homes pa f.n, cached := cacheable l (.home pa)
                                    dev := pteDev l.e, op := .load f.d sgn kept }] ∧ (f.n = 8 ∨ sgn = f.signed) ∧
      (∀ a, Outside l.addr 8 a → t.finalByte a = s.finalByte a))

/-- For each of the four stores: when no earlier vector memory rule and no entry of the thread's issue queue holds it back, its address
passes the checks of R82 and lies in local device memory, and the page is no copy-on-write page, it completes: the low bytes of s(d) stand
at the address, least significant first; the pc advances by 4; every register and every byte of memory outside the stored bytes and the
page-table entry is as before. Where the Porter has let the thread's next access into its issue queue (R346; in the model the event of log
entry 20), it completes too, and stands last in that queue with its bytes and their places. An entry that no older one holds back performs:
a store's bytes then stand at its places and a load's register holds the extended bytes of its places; and a trap of the thread performs
everything that is queued. (R81, R82, R83, R343, R346, R348, R364.) -/
def Obligations.StoresWriteLocalMemory : Prop :=
  ∀ (i : Instr) (f : StoreForm) (s s1 : State) (l : Leaf) (pa : Nat), storeForm i = some f → s.memWf = true → s.scalarHeld s.cur = false →
    let va := s.me.rd f.a + f.o.signExtend 64
    pteCow l.e = false → LocalAccess s .store va f.n s1 l pa →
    (s.me.defer = false → s1.queueHolds s.me (homes pa f.n) false true (pteDev l.e) = false →
      ∃ t, exec i s = .next t ∧
        (∀ k, k < f.n → t.readByte l (pa + k) = (s.me.rd f.d).extractLsb' (8 * k) 8) ∧
        t.me.pc = s.me.pc + 4 ∧ t.me.queue = s.me.queue ∧ AccessFrame 0 (fun a => Outside l.addr 8 a ∧ Outside pa f.n a) s t) ∧
    (s.me.defer = true →
      let q : Queued := { age := s.me.count, va := va.toNat, locs := homes pa f.n, cached := cacheable l (.home pa), dev := pteDev l.e
                          op := .store ((List.range f.n).map (fun k => (s.me.rd f.d).extractLsb' (8 * k) 8)) }
      ∃ t, exec i s = .next t ∧ t.me.pc = s.me.pc + 4 ∧ ThreadFrame 0 s t ∧ t.me.queue = s.me.queue ++ [q] ∧
        (∀ a, Outside l.addr 8 a → t.finalByte a = s.finalByte a)) ∧
    (∀ (sl : Slot) (q : Queued) (bs : List Byte), (s.th sl).queue = [q] → q.locs = homes pa bs.length → q.cached = false →
      ∀ u, s.queueEvent sl 0 = some u → (u.th sl).queue = [] ∧
        (q.op = .store bs → ∀ k, k < bs.length → u.homeByte (pa + k) = bs.getD k 0) ∧
        (∀ d sgn, q.op = .load d sgn bs → (∀ k, k < bs.length → s.poison.contains (pa + k) = false) →
          (u.th sl).rd d = (if d = 0 then 0 else loadValue sgn bs.length
            (BitVec.ofNat 64 (leNat ((List.range bs.length).map (fun k => s.homeByte (pa + k)))))))) ∧
    (∀ (sl : Slot) (q : Queued), (s.th sl).queue = [q] → (s.queueEvent sl 0).isSome = true) ∧
    (∀ sl, ((s.drainQueue sl).th sl).queue = [])

/-- When no earlier vector memory rule and no entry of the thread's issue queue holds it back, with nothing read early there, and its bytes
lie in tiles that the party reserved and no engine command owns, a load completes with the scratchpad bytes at its window offset and a store
writes its low bytes there; no other byte of the scratchpad, no byte of device memory and no other register changes. (R28, R29, R81, R291.)
-/
def Obligations.WindowLoadsAndStores : Prop :=
  (∀ (i : Instr) (f : LoadForm) (s : State) (off : Nat), loadForm i = some f → s.scalarHeld s.cur = false →
    s.queueHolds s.me (tilesAt off f.n) true false false = false → s.me.earlyAt .scalar (tilesAt off f.n) = none →
    WindowAccess s (s.me.rd f.a + f.o.signExtend 64) f.n off → (∀ k, k < f.n → s.spPoison.contains (off + k) = false) →
    exec i s = .next ((s.dropEarly s.cur (tilesAt off f.n)).wrote f.d (f.value (leNat ((List.range f.n).map (fun k => Memory.get s.sp (off + k))))))) ∧
  (∀ (i : Instr) (f : StoreForm) (s : State) (off : Nat), storeForm i = some f → s.memWf = true → s.scalarHeld s.cur = false →
    s.queueHolds s.me (tilesAt off f.n) false true false = false →
    WindowAccess s (s.me.rd f.a + f.o.signExtend 64) f.n off →
    ∃ t, exec i s = .next t ∧ t = { s with threads := t.threads, reqs := t.reqs, sp := t.sp, spPoison := t.spPoison } ∧
      ThreadFrame 0 s t ∧ t.me.pc = s.me.pc + 4 ∧
      (∀ k, k < f.n → Memory.get t.sp (off + k) = (s.me.rd f.d).extractLsb' (8 * k) 8) ∧
      (∀ a, Outside off f.n a → Memory.get t.sp a = Memory.get s.sp a))

/-- For every scalar load, store and atomic, WAITC, CADD and LAUNCH, in a state whose window is empty, and where R86 or R324 has nothing for
it to wait for: an address with a bit in [63:56] takes the address-range fault 0x10; else one that is no multiple of the width the alignment
fault 0x11 (LAUNCH checks the alignment of its record first, R100); else a scratchpad address beyond the party's tiles the scratchpad range
fault 0x12; else, for an atomic, WAITC or CADD, any other scratchpad address the attribute fault 0x1A; else an address whose translation or
permission fails that fault's own cause. TRAPADDR is the address, EPC the instruction, and the state is otherwise the one before (after the
translation). (R29, R82, R363.) -/
def Obligations.ScalarAccessChecksInOrder : Prop :=
  ∀ (i : Instr) (k : AccKind) (va : Word) (n : Nat) (s : State), s.scalarAccess i = some (k, va, n) → s.me.vec.window = [] →
    s.scalarWaits i = false →
    (2 ^ 56 ≤ va.toNat → (n = 128 → va.toNat % 128 = 0) → exec i s = .next (s.trapped (wordInfo 0x10 va s.me.pc))) ∧
    (va.toNat < 2 ^ 56 ∨ n = 128 → va.toNat % n ≠ 0 → exec i s = .next (s.trapped (wordInfo 0x11 va s.me.pc))) ∧
    (va.toNat < 2 ^ 56 → va.toNat % n = 0 → inWindow va.toNat = true →
      (spSize < va.toNat - winBase + n ∨ s.tilesOf s.me * 4096 < va.toNat - winBase + n) →
      exec i s = .next (s.trapped (wordInfo 0x12 va s.me.pc))) ∧
    (noWindow i = true → va.toNat < 2 ^ 56 → va.toNat % n = 0 → inWindow va.toNat = true →
      va.toNat - winBase + n ≤ spSize → va.toNat - winBase + n ≤ s.tilesOf s.me * 4096 →
      exec i s = .next (s.trapped (wordInfo 0x1A va s.me.pc))) ∧
    (∀ (s1 : State) (c : BitVec 8), va.toNat < 2 ^ 56 → va.toNat % n = 0 → inWindow va.toNat = false →
      s.xlate s.me.ctx s.me.level k s.me.copied va.toNat = .fault s1 c →
      exec i s = .next (s1.trapped (wordInfo c va s.me.pc)))

/-- For each of the ten atomics, at both widths, every order and every scope: when no earlier access and no entry of the thread's issue
queue holds it back, its release step (if it has one) has completed, and its naturally aligned address lies in local memory on a page that
is no DEV and no copy-on-write page, it completes: d holds the old value, sign-extended at width 32, memory holds the operation's new value
at every byte of the word, the pc advances by 4, and nothing else changes but the page-table entry, the caches and the requests on their
way. A relaxed one that the Porter has let into the issue queue (R346; in the model the event of log entry 20) completes too: it stands last
in that queue. The old value is the core's line's at thread and core scope on a cached page, else the home store's after a recall. (R84,
R85, R86, R349, R353, R354.) -/
def Obligations.AtomicsOnLocalMemory : Prop :=
  ∀ (i : Instr) (f : AmoForm) (s s1 : State) (l : Leaf) (pa : Nat), amoForm i = some f → f.sc.toNat ≤ 5 → f.w.toNat ≤ 1 →
    s.memWf = true → s.scalarHeld s.cur = false → (f.rel = true → s.accessOpen s.cur = false) →
    LocalAccess s .write (s.me.rd f.a) f.n s1 l pa → pteDev l.e = false → pteCow l.e = false →
    (∀ k, k < f.n → s.poison.contains (pa + k) = false) →
    let s2 := if f.rel then (s1.release f.sc.toNat).1 else s1
    let s3 := s2.touch l true
    let inLine := decide (max f.sc.toNat (homeScope l.e) ≤ 1) && cacheable l (.home pa)
    let old : Word := BitVec.ofNat 64 (leNat ((List.range f.n).map (fun k => if inLine then s3.seenByte (pa + k) else s3.finalByte (pa + k))))
    ((s.me.defer = false ∨ f.o ≠ 0) → s1.queueHolds s.me (homes pa f.n) true true false = false →
      (f.rel = true → (s1.release f.sc.toNat).2 = true) →
      ∃ t, exec i s = .next t ∧
        t.me.rd f.d = (if f.d = 0 then 0 else if f.n = 8 then old else (old.setWidth 32).signExtend 64) ∧
        (∀ k, k < f.n → t.finalByte (pa + k) = (amoNew f.op (f.n = 8) old (s.me.rd f.b) (s.me.rd f.d)).extractLsb' (8 * k) 8) ∧
        t.me.pc = s.me.pc + 4 ∧ ThreadFrame f.d s t ∧
        t = { s with threads := t.threads, reqs := t.reqs, mem := t.mem, poison := t.poison, lines := t.lines, tlb := t.tlb, fresh := t.fresh } ∧
        (∀ a, Outside l.addr 8 a → Outside pa f.n a → t.finalByte a = s.finalByte a) ∧
        (∀ a, Memory.get t.sp a = Memory.get s.sp a ∧ Memory.get t.tables a = Memory.get s.tables a)) ∧
    (s.me.defer = true → f.o = 0 → ∃ t kept, exec i s = .next t ∧ t.me.pc = s.me.pc + 4 ∧ ThreadFrame 0 s t ∧
      t.me.queue = s.me.queue ++ [{ age := s.me.count, va := (s.me.rd f.a).toNat, locs := homes pa f.n, cached := cacheable l (.home pa), dev := false
                                    op := .amo f.op (f.n = 8) inLine f.d (s.me.rd f.b) (s.me.rd f.d) kept }] ∧
      (∀ a, Outside l.addr 8 a → t.finalByte a = s.finalByte a))

/-- At width 64 the new value is the sum, the bitwise operation, the signed or unsigned minimum or maximum, the operand, or the operand when
the old value equals d's; at width 32 the same on the low 32 bits of old value, operand and d, with sums wrapping modulo 2^32. (R84.) -/
def Obligations.AtomicOperations : Prop :=
  (∀ o b c : Word,
    amoNew .add true o b c = o + b ∧ amoNew .and true o b c = o &&& b ∧ amoNew .or true o b c = o ||| b ∧
    amoNew .xor true o b c = o ^^^ b ∧ amoNew .min true o b c = (if b.slt o then b else o) ∧
    amoNew .max true o b c = (if o.slt b then b else o) ∧ amoNew .minn true o b c = (if b < o then b else o) ∧
    amoNew .maxn true o b c = (if o < b then b else o) ∧ amoNew .swap true o b c = b ∧
    amoNew .cas true o b c = (if o = c then b else o)) ∧
  (∀ o b c : Word,
    let x : BitVec 32 := o.setWidth 32
    let y : BitVec 32 := b.setWidth 32
    let z : BitVec 32 := c.setWidth 32
    amoNew .add false o b c = (x + y).setWidth 64 ∧ amoNew .and false o b c = (x &&& y).setWidth 64 ∧
    amoNew .or false o b c = (x ||| y).setWidth 64 ∧ amoNew .xor false o b c = (x ^^^ y).setWidth 64 ∧
    amoNew .min false o b c = (if y.slt x then y else x).setWidth 64 ∧
    amoNew .max false o b c = (if x.slt y then y else x).setWidth 64 ∧
    amoNew .minn false o b c = (if y < x then y else x).setWidth 64 ∧
    amoNew .maxn false o b c = (if x < y then y else x).setWidth 64 ∧
    amoNew .swap false o b c = y.setWidth 64 ∧ amoNew .cas false o b c = (if x = z then y else x).setWidth 64)

/-- With s31 a multiple of 16, an aligned target, and the 16 bytes below s31, which no entry of the thread's issue queue holds back, in one
mapped local page that is no copy-on-write page, CALL and CALLR complete: the address of the call plus 4 stands at s31 − 16, the vector-
state word {VL, SEGSEL, FRM} at s31 − 8, s31 is lowered by 16, the pc is the target; no other register and no other byte of memory outside
the page-table entry changes. (R81, R89.) -/
def Obligations.CallPushesAndJumps : Prop :=
  ∀ (i : Instr) (target : Word) (s s1 s2 : State) (l : Leaf) (pa : Nat),
    ((∃ o, i = .call o ∧ target = BitVec.ofInt 64 (s.me.pc.toNat + o.toInt * 4)) ∨ (∃ a, i = .callr a ∧ target = s.me.rd a)) →
    s.memWf = true → s.scalarHeld s.cur = false → (s.me.rd 31).toNat % 16 = 0 →
    target.toNat % 4 = 0 → LocalAccess s .store (s.me.rd 31 - 16) 8 s1 l pa → LocalAccess s1 .store (s.me.rd 31 - 8) 8 s2 l (pa + 8) → pteCow l.e = false →
    s2.queueHolds s.me (homes pa 8 ++ homes (pa + 8) 8) false true (pteDev l.e) = false →
    ∃ t, exec i s = .next t ∧ t.me.pc = target ∧ t.me.rd 31 = s.me.rd 31 - 16 ∧
      (∀ k, k < 8 → t.readByte l (pa + k) = (s.me.pc + 4).extractLsb' (8 * k) 8) ∧
      (∀ k, k < 8 → t.readByte l (pa + 8 + k) =
        (BitVec.ofNat 64 (s.me.cfg.vl.toNat + 2 ^ 16 * s.me.cfg.segsel.toNat + 2 ^ 20 * s.me.cfg.frm.toNat)).extractLsb' (8 * k) 8) ∧
      AccessFrame 31 (fun a => Outside l.addr 8 a ∧ Outside pa 16 a) s t

/-- With s31 a multiple of 16 and both doublewords at s31 readable (ra, then w), RET completes when w has no bit above 22, its FRM is at
most 4 and ra is aligned: VL is the stored VL but at most VLMAX(1) in force, SEGSEL and FRM are the stored ones, s31 is raised by 16 and the
pc is ra; every other register and the vector side are as before. A stored word with FRM above 4 or a bit in [63:23] takes the bad-state
trap, else a misaligned ra the instruction-alignment fault, each at the RET (with the window empty). A misaligned s31 takes the alignment
fault with TRAPADDR s31. (R90.) -/
def Obligations.ReturnPopsAndRestores : Prop :=
  ∀ (s s2 s3 : State) (ra w : Word), s.scalarHeld s.cur = false →
    ((s.me.rd 31).toNat % 16 ≠ 0 → s.me.vec.window = [] → exec .ret s = .next (s.trapped (wordInfo 0x11 (s.me.rd 31) s.me.pc))) ∧
    ((s.me.rd 31).toNat % 16 = 0 → s.load s.cur s.me (s.me.rd 31) 8 = .done s2 ra → s2.load s.cur s.me (s.me.rd 31 + 8) 8 = .done s3 w →
      (w.toNat < 2 ^ 23 → w.toNat / 2 ^ 20 ≤ 4 → ra.toNat % 4 = 0 →
        ∃ t, exec .ret s = .next t ∧ t.me.pc = ra ∧ t.me.rd 31 = s.me.rd 31 + 16 ∧
          t.me.cfg = { s.me.cfg with vl := BitVec.ofNat 16 (min (w.toNat % 2 ^ 16) (s.me.vlmax 0))
                                     segsel := BitVec.ofNat 4 (w.toNat / 2 ^ 16), frm := BitVec.ofNat 3 (w.toNat / 2 ^ 20) } ∧
          t.me.vec = s.me.vec ∧ t.me.level = s.me.level ∧ (∀ r : BitVec 5, r ≠ 31 → t.me.rd r = s.me.rd r)) ∧
      ((2 ^ 23 ≤ w.toNat ∨ 4 < w.toNat / 2 ^ 20) → s.me.vec.window = [] →
        exec .ret s = .next (s3.trapped (wordInfo 0x04 s.me.pc s.me.pc))) ∧
      (w.toNat < 2 ^ 23 → w.toNat / 2 ^ 20 ≤ 4 → ra.toNat % 4 ≠ 0 → s.me.vec.window = [] →
        exec .ret s = .next (s3.trapped (wordInfo 0x05 s.me.pc s.me.pc))))

/-- When a trap of a thread at user level is taken in a context with a supervisor entry: TRAPCAUSE, TRAPRULE, TRAPELEM, TRAPADDR and EPC
(bits [1:0] clear) take what the trap reports, ESTATUS has PLEV 0, INVP as reported and ENGFLT while an engine fault of the thread waits;
the level is supervisor and the pc the entry; the window, maps and registers are held as the image with the VSW at EPC, with the registers
that an unconfirmed path had taken free again; VL, SEGSEL, FRM, VSTAT, FFLAGS and VOIDCNT and the other slot are as before; the accesses of
the thread's issue queue have performed, and the s registers (user and upper copies) and the bytes of memory are those that they leave, as
before where the queue was empty. (R24, R196, R197, R199, R201, R208, R346.) -/
def Obligations.TrapEntryFromUserLevel : Prop :=
  ∀ (s : State) (sl : Slot) (i : TrapInfo) (c : Ctx), (s.th sl).level = .user → s.ctxOf (s.th sl).ctx = some c → c.entry ≠ 0 →
    let t := s.th sl
    let u := (s.takeTrap sl i).th sl
    u.level = .supervisor ∧ u.pc = c.entry ∧ u.held = true ∧ u.vec = { t.vec with vfree := t.vec.vfree ++ t.prep } ∧
    u.vsw = BitVec.ofNat 64 (t.cfg.vl.toNat + 2 ^ 16 * t.cfg.segsel.toNat + 2 ^ 20 * t.cfg.frm.toNat) ∧
    u.cfg.trapcause = i.cause ∧ u.cfg.traprule = i.rule ∧ u.cfg.trapelem = i.elem ∧ u.cfg.trapaddr = i.addr.setWidth 56 ∧
    u.cfg.epc.toNat = i.epc.toNat % 2 ^ 56 / 4 * 4 ∧ u.cfg.plev = 0 ∧ u.cfg.invp = i.inv ∧ u.cfg.engflt = s.engPending sl ∧
    u.cfg.vl = t.cfg.vl ∧ u.cfg.segsel = t.cfg.segsel ∧ u.cfg.frm = t.cfg.frm ∧
    u.cfg.vstat = t.cfg.vstat ∧ u.cfg.fflags = t.cfg.fflags ∧ u.cfg.voidcnt = t.cfg.voidcnt ∧
    (s.takeTrap sl i).th (other sl) = s.th (other sl) ∧ u.queue = [] ∧ (s.takeTrap sl i).tables = s.tables ∧
    (let d := ((if i.cause = 0x28 ∨ i.cause = 0x29 then s.addUe else s).dropScalar sl).drainQueue sl
     (s.takeTrap sl i).mem = d.mem ∧ (s.takeTrap sl i).lines = d.lines ∧ (s.takeTrap sl i).sp = d.sp ∧
     u.sregs = (d.th sl).sregs ∧ u.upper = (d.th sl).upper ∧
     (t.queue = [] → d.mem = s.mem ∧ d.lines = s.lines ∧ d.sp = s.sp ∧ (d.th sl).sregs = t.sregs ∧ (d.th sl).upper = t.upper))

/-- A trap that a thread raises at supervisor level (other than a service call), or at user level in a context with supervisor entry 0, ends
that thread: its slot is free afterwards. A trap at firmware level ends the context: no context of that number is left, and a report holds
its cause, address and EPC (of 56 bits, EPC with bits [1:0] clear). (R197, R283, R420.) -/
def Obligations.TrapsAboveUserLevel : Prop :=
  ∀ (s : State) (sl : Slot) (i : TrapInfo),
    ((s.th sl).level = .supervisor → (s.takeTrap sl i).th sl = Thread.free) ∧
    ((s.th sl).level = .user → ∀ c, s.ctxOf (s.th sl).ctx = some c → c.entry = 0 → (s.takeTrap sl i).th sl = Thread.free) ∧
    ((s.th sl).level = .firmware → (s.takeTrap sl i).ctxOf (s.th sl).ctx = none ∧
      ∃ r ∈ (s.takeTrap sl i).reports, r.num = (s.th sl).ctx ∧ r.cause = i.cause.setWidth 64 ∧ r.addr.toNat = i.addr.toNat % 2 ^ 56 ∧
        r.epc.toNat = i.epc.toNat % 2 ^ 56 / 4 * 4)

/-- With every issued rule complete, TRAP n at user (or firmware) level takes the system-call trap with TRAPELEM n, TRAPADDR the TRAP and
EPC the next word, and BRK n the breakpoint trap with EPC at the BRK itself; with a rule still open both wait. At supervisor level TRAP n
starts the firmware service: the thread is at firmware level at the firmware entry of its context, PLEV is 1, EPC is the next word, and the
thread waits for function n. (R93, R196, R197, R418.) -/
def Obligations.TrapAndBreakWords : Prop :=
  ∀ (s : State) (n : BitVec 7),
    let t := s.me
    let sys : TrapInfo := { cause := 0x08, rule := 31, elem := n.setWidth 16, addr := t.pc, epc := t.pc + 4, inv := false }
    let brk : TrapInfo := { cause := 0x09, rule := 31, elem := n.setWidth 16, addr := t.pc, epc := t.pc, inv := false }
    (t.level ≠ .supervisor → (t.held = true ∨ t.vec.window = []) → exec (.trap n) s = .next (s.trapped sys)) ∧
    ((t.held = true ∨ t.vec.window = []) → exec (.brk n) s = .next (s.trapped brk)) ∧
    (t.held = false → t.vec.window ≠ [] → exec (.brk n) s = .next s.stalledMe ∧
      (t.level ≠ .supervisor → exec (.trap n) s = .next s.stalledMe)) ∧
    (t.level = .supervisor → ∃ u, exec (.trap n) s = .next u ∧ u.me.level = .firmware ∧ u.me.wait = some (.service n.toNat) ∧
      u.me.cfg.plev = 1 ∧ u.me.cfg.trapcause = 0x08 ∧ u.me.cfg.trapelem = n.setWidth 16 ∧
      u.me.cfg.epc.toNat = (t.pc + 4).toNat % 2 ^ 56 / 4 * 4 ∧ u.me.sregs = t.sregs ∧ u.me.vec = t.vec ∧
      ∀ c, s.ctxOf t.ctx = some c → u.me.pc = c.fw)

/-- Above user level, with the handler's stores and writes performed, ERET completes when PLEV is not 0 or an image is held: the pc is EPC
and the level PLEV's; with PLEV 0 the image is reinstalled (maps, registers and rules as they were, every recorded fault cleared, a fault-
only-first load that faulted to be trimmed anew, a walk posted anew), VL, SEGSEL and FRM come from its VSW and no image is held; with PLEV 1
or 2 the image is untouched. Every word that the Porter has fetched for the context is discarded. No s register, trap register or byte of
memory changes. With PLEV 0 and no image it takes the bad-state trap. (R8, R94, R205, R290, R321.) -/
def Obligations.EretReturns : Prop :=
  ∀ s : State, s.memWf = true → s.me.level ≠ .user → s.me.queue = [] → s.writesOpen = false →
    (s.me.cfg.plev ≠ 0 → ∃ t, exec .eret s = .next t ∧ t.me.pc = s.me.cfg.epc.setWidth 64 ∧
      t.me.level = (if s.me.cfg.plev = 1 then .supervisor else .firmware) ∧ t.me.held = s.me.held ∧ t.me.vec = s.me.vec ∧
      t.me.sregs = s.me.sregs ∧ t.me.upper = s.me.upper ∧ t.me.cfg = { s.me.cfg with preempt := false } ∧
      (∀ h ∈ t.words, h.ctx ≠ s.me.ctx) ∧ ∀ a, t.finalByte a = s.finalByte a) ∧
    (s.me.cfg.plev = 0 → s.me.held = true → ∃ t, exec .eret s = .next t ∧ t.me.pc = s.me.cfg.epc.setWidth 64 ∧ t.me.level = .user ∧
      t.me.held = false ∧ t.me.vec = { s.me.vec with window := s.me.vec.window.map (fun r =>
        { r with faults := [], mark := r.mark || (r.faults != [] && isFf r.instr)
                 post := match r.instr with | .cwalk _ _ _ _ => s.seq | _ => r.post }) } ∧
      t.me.sregs = s.me.sregs ∧ t.me.upper = s.me.upper ∧
      t.me.cfg = { s.me.cfg with preempt := false, vl := BitVec.ofNat 16 s.me.vsw.toNat, segsel := BitVec.ofNat 4 (s.me.vsw.toNat / 2 ^ 16)
                                 frm := BitVec.ofNat 3 (s.me.vsw.toNat / 2 ^ 20) } ∧
      (∀ h ∈ t.words, h.ctx ≠ s.me.ctx) ∧ ∀ a, t.finalByte a = s.finalByte a) ∧
    (s.me.cfg.plev = 0 → s.me.held = false → exec .eret s =
      .next ((s.releaseLines.dropWords s.me.ctx).trapped (wordInfo 0x04 s.me.pc s.me.pc)))

/-- With the window empty, ERET, WSAVE, WLOAD, SNAPR, SNAPR.X, TLBINV and PGPOOL, an RDCFG of a register that only the supervisor reads
(0x12 to 0x15, 0x17, 0x18) and a WRCFG of a register that only the supervisor writes (0x0B, 0x11 to 0x18) take, at user level, the trap with
cause 0x02 at the word. (R22, R37, R205, R206, R207, R368.) -/
def Obligations.PrivilegedWordsTrapAtUserLevel : Prop :=
  ∀ (s : State) (a b d : BitVec 5) (c : BitVec 7), s.me.level = .user → s.me.vec.window = [] →
    let trap : Host.Outcome State Fault Refusal := .next (s.takeTrap s.cur (wordInfo 0x02 s.me.pc s.me.pc))
    exec .eret s = trap ∧ exec (.wsave a) s = trap ∧ exec (.wload a) s = trap ∧ exec (.snapr d a b) s = trap ∧
    exec (.snaprX d a b) s = trap ∧ exec (.tlbinv a b) s = trap ∧ exec (.pgpool d a b) s = trap ∧
    (c.toNat ∈ [0x12, 0x13, 0x14, 0x15, 0x17, 0x18] → exec (.rdcfg d c) s = trap) ∧
    (c.toNat ∈ [0x0B, 0x11, 0x12, 0x13, 0x14, 0x15, 0x16, 0x17, 0x18] → exec (.wrcfg a c) s = trap)

/-- At a level that may read the register (and, for VSTAT, FFLAGS and VOIDCNT, with every issued rule complete) RDCFG completes with the
register's value in d, and nothing but d and the pc changes; VLMAX reads 32 × LALIVE × (1 + QCUR) divided by the granted width, with WLOG
and LALIVE beside it, and THREAD reads PTIDX and the slot. A number from 0x19 on takes the illegal-instruction trap (with the window empty).
(R22, R23, R24, R95.) -/
def Obligations.ConfigurationReads : Prop :=
  ∀ (s : State) (d : BitVec 5) (c : BitVec 7),
    (c.toNat ≤ 0x18 → (s.me.level = .user → c.toNat ∉ [0x12, 0x13, 0x14, 0x15, 0x17, 0x18]) →
      (c.toNat ∈ [0x02, 0x04, 0x11] → s.me.held = true ∨ s.me.vec.window = []) →
      exec (.rdcfg d c) s = .next (s.wrote d (s.cfgRead s.cur c.toNat)) ∧ RegisterFrame d s (s.wrote d (s.cfgRead s.cur c.toNat))) ∧
    (0x19 ≤ c.toNat → s.me.vec.window = [] → exec (.rdcfg d c) s = .next (s.trapped (wordInfo 0x01 s.me.pc s.me.pc))) ∧
    (s.me.held = false → s.cfgRead s.cur 0x00 = s.me.cfg.vl.setWidth 64 ∧ s.cfgRead s.cur 0x03 = s.me.cfg.frm.setWidth 64 ∧
      s.cfgRead s.cur 0x05 = s.me.cfg.segsel.setWidth 64) ∧
    (let v := (s.cfgRead s.cur 0x01).toNat
     v % 2 ^ 16 = 32 * s.me.cfg.lalive.toNat * (1 + s.me.cfg.qcur.toNat) / 2 ^ s.me.cfg.wlog.toNat % 2 ^ 16 ∧
     v / 2 ^ 16 % 8 = s.me.cfg.wlog.toNat ∧ v / 2 ^ 19 = s.me.cfg.lalive.toNat) ∧
    s.cfgRead s.cur 0x0E = BitVec.ofNat 64 (s.me.cfg.ptidx.toNat + 256 * s.cur.val)

/-- At a level that may write the register (with every issued rule complete for VSTAT, FFLAGS and VOIDCNT, and with a mode of at most 4 for
FRM), and no image held, WRCFG completes: the register then reads the written value in the bits of its field map and zero elsewhere (VSTAT:
its old value without the bits written as 1), every other configuration register but PURSE's reads as before, and no s register and no byte
of memory changes. (R22, R23, R24.) -/
def Obligations.ConfigurationWrites : Prop :=
  ∀ (s : State) (a : BitVec 5) (c : BitVec 7),
    let n := c.toNat
    let v := s.me.rd a
    let mask : Nat := match n with
      | 0x03 => 7 | 0x04 => 31 | 0x05 => 15 | 0x06 => 0xFFFF | 0x11 => 2 ^ 64 - 1 | 0x12 => 0xFF | 0x13 => 31 | 0x14 => 0xFFFF
      | 0x15 => 2 ^ 56 - 1 | 0x16 => 2 ^ 36 - 1 | 0x17 => 2 ^ 56 - 4 | 0x18 => 31 | _ => 0
    n ∈ [0x02, 0x03, 0x04, 0x05, 0x06, 0x11, 0x12, 0x13, 0x14, 0x15, 0x16, 0x17, 0x18] → s.me.held = false →
    (s.me.level = .user → n ≤ 0x06) → (n = 0x03 → v.toNat % 8 ≤ 4) → (n ∈ [0x02, 0x04, 0x11] → s.me.vec.window = []) →
    ∃ t, exec (.wrcfg a c) s = .next t ∧
      t.cfgRead t.cur n = (if n = 0x02 then BitVec.ofNat 64 (s.me.cfg.vstat &&& ~~~(v.setWidth 3)).toNat else v &&& BitVec.ofNat 64 mask) ∧
      (∀ m, m ≠ n → t.cfgRead t.cur m = s.cfgRead s.cur m) ∧ t.me.pc = s.me.pc + 4 ∧ t.me.sregs = s.me.sregs ∧ t.me.upper = s.me.upper ∧
      t.me.vec = s.me.vec ∧ t.me.level = s.me.level ∧ t.th (other s.cur) = s.th (other s.cur) ∧ SameElsewhere s t

/-- With the window empty, a WRCFG of a number that has no write level, or of FRM with a mode of 5, 6 or 7, takes the illegal-instruction
trap. Above user level a WRCFG of PURSE sets the context's BUDGET to the low 32 bits when it is 0 or keeps the sum of the budgets within
1,000 × MLIM µJ per interval, and else takes the bad-state trap; SPENT is unchanged. (R22, R24, R408.) -/
def Obligations.ConfigurationWritesRefused : Prop :=
  ∀ (s : State) (a : BitVec 5) (c : BitVec 7), s.me.vec.window = [] →
    (c.toNat ∉ [0x02, 0x03, 0x04, 0x05, 0x06, 0x0B, 0x11, 0x12, 0x13, 0x14, 0x15, 0x16, 0x17, 0x18] →
      exec (.wrcfg a c) s = .next (s.trapped (wordInfo 0x01 s.me.pc s.me.pc))) ∧
    (c.toNat = 0x03 → 4 < (s.me.rd a).toNat % 8 → exec (.wrcfg a c) s = .next (s.trapped (wordInfo 0x01 s.me.pc s.me.pc))) ∧
    (c.toNat = 0x0B → s.me.level ≠ .user → ∀ x, s.ctxOf s.me.ctx = some x →
      let b := (s.me.rd a).toNat % 2 ^ 32
      let others := ((s.ctxs.filter (fun y => y.num != s.me.ctx)).map (fun y => y.budget.toNat)).sum
      (b = 0 ∨ b + others ≤ s.mlim * 1000 → ∃ t y, exec (.wrcfg a c) s = .next t ∧ t.ctxOf s.me.ctx = some y ∧
        y.budget.toNat = b ∧ y.spent = x.spent ∧ y.entry = x.entry ∧ y.root = x.root ∧ t.me.pc = s.me.pc + 4) ∧
      (b ≠ 0 → s.mlim * 1000 < b + others → exec (.wrcfg a c) s = .next (s.trapped (wordInfo 0x04 s.me.pc s.me.pc))))

/-- FENCE completes when its predecessor accesses have performed and its release step is done: no register and no byte of memory, as it
finally stands, changes; with one of them still in the issue queue it waits, or, where the Porter lets it (R346; in the model the event of
log entry 20), it completes and stands last in that queue. YIELD only goes on at the next word. EXIT, with every rule complete, every access
performed and no refused post or engine fault to report, frees the slot and leaves every byte of device memory. LAUNCH of a mapped record at
a multiple of 128 appends the record to the launch list: the record before it names it in its LINK, and its own LINK is 0, each as one store
of the Innkeeper's, which marks the page's entry as used. SPLICE n, with no VP active, continues at the binding's entry n and takes its
version when that is newer and the entry is defined, else at the next word; of memory only the entries of the pages that it has read change.
(R96, R97, R98, R99, R100, R262, R349.) -/
def Obligations.FenceYieldExitLaunchSplice : Prop :=
  (∀ (s : State) (p q r w : Bool) (sc : BitVec 3), s.memWf = true → sc.toNat ≤ 5 → (p || q) = true → (r || w) = true →
    s.fenceOpen s.cur p q = false →
    (s.me.queue.any (fun x => x.op.beforeFence p q) = false → (s.release sc.toNat).2 = true →
      ∃ t, exec (.fence p q r w sc) s = .next t ∧ t.me.pc = s.me.pc + 4 ∧ AccessFrame 0 (fun _ => True) s t) ∧
    (s.me.queue.any (fun x => x.op.beforeFence p q) = true →
      (s.me.defer = false → exec (.fence p q r w sc) s = .next s.stalledMe) ∧
      (s.me.defer = true → sc ≠ 5 → ∃ t, exec (.fence p q r w sc) s = .next t ∧ t.me.pc = s.me.pc + 4 ∧ ThreadFrame 0 s t ∧
        t.me.queue = s.me.queue ++ [{ age := s.me.count, va := 0, locs := [], cached := false, dev := false, op := .fence p q r w sc.toNat }] ∧
        SameElsewhere s t))) ∧
  (∀ s : State, exec .yield s = .next (s.committed s.me (s.me.pc + 4))) ∧
  (∀ s : State, s.memWf = true → (s.me.held = true ∨ s.me.vec.window = []) → s.accessOpen s.cur = false →
    (∀ f ∈ s.postFaults, f.slot ≠ s.cur) → (∀ c ∈ s.cmds, c.undelivered s.cur s.me = none) → ∃ t, exec .exit s = .next t ∧ t.th s.cur = Thread.free ∧ ∀ a, t.finalByte a = s.finalByte a) ∧
  (∀ (s s1 : State) (a : BitVec 5) (l : Leaf) (pa : Nat), s.memWf = true → s.scalarHeld s.cur = false → s.accessOpen s.cur = false →
    (s.me.rd a).toNat % 128 = 0 → LocalAccess s .read (s.me.rd a) 8 s1 l pa →
    let u := (s1.touch l false).releaseLines.linkLaunch s.me.ctx (s.me.rd a)
    exec (.launch a) s = .next (u.committed u.me (u.me.pc + 4)) ∧ u.launches = s.launches ++ [(s.me.ctx, s.me.rd a)] ∧
      ThreadFrame 0 s (u.committed u.me (u.me.pc + 4)) ∧ u.me.pc = s.me.pc) ∧
  (∀ (s : State) (ctx : BitVec 12) (va : Word),
    (s.launches = [] → s.linkLaunch ctx va =
      { s.innPut ctx va.toNat (leBytes 8 0) with launches := [(ctx, va)] }) ∧
    (∀ pre c w, s.launches = pre ++ [(c, w)] → (s.linkLaunch ctx va).mem =
      ((s.innPut c w.toNat (leBytes 8 va.toNat)).innPut ctx va.toNat (leBytes 8 0)).mem)) ∧
  (∀ (s : State) (ctx : BitVec 12) (va pa : Nat) (v : Word), va % 8 = 0 → s.memWf = true → s.cows = [] →
    ∀ l, s.innLeaf ctx true va = some l → pteCow l.e = false →
    (∀ k, k < 8 → (s.innSeen ctx true va 8).innLoc ctx true (va + k) = .ok (.home (pa + k))) →
    let u := s.innPut ctx va (leBytes 8 v.toNat)
    (∀ k, k < 8 → u.finalByte (pa + k) = v.extractLsb' (8 * k) 8) ∧
    ∀ x, Outside pa 8 x → Outside l.addr 8 x → u.finalByte x = s.finalByte x) ∧
  (∀ (s : State) (n : BitVec 8) (k : Task), s.memWf = true → (s.me.held = true ∨ s.me.vpActive = false) → s.myTask s.me = some k →
    let u := (s.acquireStep s.cur).seenBinding s.me.ctx k.fields.bind.toNat n.toNat
    ∃ t, exec (.splice n) s = .next t ∧ t.me.sregs = s.me.sregs ∧ t.me.vec = s.me.vec ∧ t.me.cfg = s.me.cfg ∧
      (∀ x, t.finalByte x = u.finalByte x) ∧
      (match u.binding s.me.ctx k.fields.bind.toNat n.toNat with
       | some (ver, e) => if s.me.version.toNat < ver ∧ e ≠ 0 then t.me.pc = BitVec.ofNat 64 e ∧ t.me.version = BitVec.ofNat 64 ver
                          else t.me.pc = s.me.pc + 4 ∧ t.me.version = s.me.version
       | none => t.me.pc = s.me.pc + 4 ∧ t.me.version = s.me.version))

/-- The image of a thread with at most 24 rules is 0x800 + 181 × C bytes long, where C is 32 × LALIVE × (1 + QCUR), and begins with version
3, NRULE, LALIVE and QCUR. Above user level with an image held, WSAVE to a multiple of 256 whose whole range passes the store checks, with
no store of the handler queued, completes, every doubleword of the image stored in order, with the held image as it was; so it does on tiles
of the party, whose bytes are then the image's, every other byte being as before. WLOAD of a range that can be read and whose image passes
the checks replaces the held image by the one read, and else takes the bad-state trap; so it does from tiles of the party. What it installs
has the maps, the vector-state word and the number of rules that the image says. (R201, R202, R206, R207.) -/
def Obligations.HeldImageWords : Prop :=
  (∀ t : Thread, t.vec.window.length ≤ 24 → (∀ p : Fin 128, (t.vec.vregs.get p).wlog ≤ 3) →
    t.image.length = 0x800 + 181 * (32 * t.cfg.lalive.toNat * (1 + t.cfg.qcur.toNat)) ∧
    t.image.take 4 = [3, BitVec.ofNat 8 t.vec.window.length, BitVec.ofNat 8 t.cfg.lalive.toNat, BitVec.ofNat 8 t.cfg.qcur.toNat]) ∧
  (∀ (s s1 : State) (a : BitVec 5), s.me.level ≠ .user → s.me.held = true → s.me.wait ≠ some .saved → s.me.queue = [] →
    (s.me.rd a).toNat % 256 = 0 → s.rangeCheck s.me (s.me.rd a) (imageSize s.me.regBytes / 8) = .inl s1 →
    let s2 := (s1.storeWords s.me (s.me.rd a) s.me.image).releaseLines
    (s2.writesOpen = false → exec (.wsave a) s = .next (s2.committed s2.me (s2.me.pc + 4)) ∧ s2.me.vec = s.me.vec ∧ s2.me.vsw = s.me.vsw) ∧
    (s2.writesOpen = true → exec (.wsave a) s = .next (s2.setMe { s2.me with stalled := true, wait := some .saved }))) ∧
  (∀ (s s1 : State) (a : BitVec 5) (bs : List Byte), s.me.level ≠ .user → s.me.held = true → (s.me.rd a).toNat % 256 = 0 →
    s.loadWords s.cur s.me (s.me.rd a) (imageSize s.me.regBytes / 8) [] = .inl (s1, bs) →
    ∀ (s2 : State) (heads : List (BitVec 32 × BitVec 32)),
      s1.imgHeaders s1.me bs.reverse.toArray (imgVpfEntries bs.reverse.toArray) = (s2, some heads) →
      (∀ u, s2.me.install bs.reverse.toArray heads = some u → exec (.wload a) s =
        .next ((s2.relinkMrd s2.cur s2.me.vec.window u.vec.window).committed u (u.pc + 4))) ∧
      (s2.me.install bs.reverse.toArray heads = none →
        exec (.wload a) s = .next (s2.trapped (wordInfo 0x04 s.me.pc s2.me.pc)))) ∧
  (∀ (s : State) (a : BitVec 5) (off : Nat), s.me.level ≠ .user → s.me.held = true → s.memWf = true → s.me.queue = [] →
    (s.me.rd a).toNat % 256 = 0 →
    let n := imageSize s.me.regBytes / 8
    (∀ k, k < n → WindowAccess s (s.me.rd a + BitVec.ofNat 64 (8 * k)) 8 (off + 8 * k)) →
    (s.me.wait ≠ some .saved → s.writesOpen = false → s.me.vec.window.length ≤ 24 → (∀ p : Fin 128, (s.me.vec.vregs.get p).wlog ≤ 3) →
      ∃ t, exec (.wsave a) s = .next t ∧ t.me.pc = s.me.pc + 4 ∧ t.me.vec = s.me.vec ∧ t.me.vsw = s.me.vsw ∧ t.me.held = true ∧
        t.me.sregs = s.me.sregs ∧ t.me.upper = s.me.upper ∧ t.me.cfg = s.me.cfg ∧
        (∀ k, k < 8 * n → Memory.get t.sp (off + k) = s.me.image.getD k 0) ∧
        (∀ x, Outside off (8 * n) x → Memory.get t.sp x = Memory.get s.sp x) ∧ ∀ x, t.finalByte x = s.finalByte x) ∧
    (∀ u, s.me.early = [] → s.me.queue = [] → (∀ k, k < 8 * n → off + k ∉ s.spPoison) →
      let img := (Memory.getList s.sp off (8 * n)).toArray
      imgVpfEntries img = [] → s.me.install img [] = some u →
      ∃ t, exec (.wload a) s = .next t ∧ t.me.pc = s.me.pc + 4 ∧ t.me.vec = u.vec ∧ t.me.vsw = u.vsw ∧ t.me.sregs = u.sregs ∧
        t.me.upper = s.me.upper ∧ t.me.cfg = s.me.cfg ∧ t.me.held = true ∧ t.mem = s.mem ∧ t.sp = s.sp)) ∧
  (∀ (t u : Thread) (img : Array Byte) (heads : List (BitVec 32 × BitVec 32)), t.install img heads = some u →
    (∀ n : Fin 32, (u.vec.vmap.get n).val = (img[0x700 + 2 * n.val]?.getD 0).toNat) ∧
    (∀ n : Fin 16, (u.vec.mmap.get n).val = (img[0x740 + n.val]?.getD 0).toNat) ∧
    (∀ k, k < 8 → u.vsw.extractLsb' (8 * k) 8 = img[8 + k]?.getD 0) ∧ u.vec.window.length = (img[1]?.getD 0).toNat % 32 ∧
    u.cfg = t.cfg ∧ u.level = t.level ∧ u.pc = t.pc ∧ u.upper = t.upper)

/-- Above user level: TLBINV of a 64 KiB-aligned range, with no access open that was translated through what it removes, completes, and no
translation of the context that meets the range (or, with length 0, any) is held, while those of other contexts stay. SNAPR of a range it
may mark, with earlier accesses performed, no such access open and no page copy in the range, completes with the number of leaves it marked
in d, where SNAPR marks present writable leaves without COW, and SNAPR.X executable ones too. It marks the pages one after another: a mark
sets COW in the leaf, counts 1 and leaves every other byte of memory; any other leaf stays and counts nothing. PGPOOL of an 8-aligned list
of 64 KiB-aligned local frames that fit completes: d holds the pool's new size, and the frames join the pool (where no write of the
Innkeeper's is owed one of them, log entry 99). (R365, R368, R369, R370, R371.) -/
def Obligations.TranslationMaintenance : Prop :=
  (∀ (s : State) (a b : BitVec 5), s.me.level ≠ .user → (s.me.rd a).toNat % 2 ^ 16 = 0 → (s.me.rd b).toNat % 2 ^ 16 = 0 →
    s.removedOpen s.me.ctx (s.me.rd a).toNat (s.me.rd b).toNat = false →
    ∃ t, exec (.tlbinv a b) s = .next t ∧ t.me.pc = s.me.pc + 4 ∧ ThreadFrame 0 s t ∧ t.mem = s.mem ∧
      ∀ e, e ∈ t.tlb ↔ e ∈ s.tlb ∧ (e.ctx ≠ s.me.ctx ∨ ((s.me.rd b).toNat ≠ 0 ∧
        ((e.vpage + 1) * 2 ^ pageLog e.level ≤ (s.me.rd a).toNat ∨ (s.me.rd a).toNat + (s.me.rd b).toNat ≤ e.vpage * 2 ^ pageLog e.level)))) ∧
  (∀ (s : State) (d a b : BitVec 5) (x : Bool), s.me.level ≠ .user → s.accessOpen s.cur = false →
    ((s.me.rd b).toNat = 0 ∨ s.removedOpen s.me.ctx (s.me.rd a).toNat (s.me.rd b).toNat = false) →
    s.snapRange s.me.ctx (s.me.rd a).toNat (s.me.rd b).toNat = true →
    let s1 := s.releaseLines
    (∀ k, k < (s.me.rd b).toNat / 2 ^ 16 → ∀ l, s1.pageLeaf s.me.ctx (s.me.rd a).toNat k = some l → pteLock l.e = false) →
    let r := s1.snapMark s.me.ctx x (s.me.rd a).toNat ((s.me.rd b).toNat / 2 ^ 16)
    ∃ t, exec (if x then .snaprX d a b else .snapr d a b) s = .next t ∧ t.me.rd d = (if d = 0 then 0 else BitVec.ofNat 64 r.2) ∧
      t.me.pc = s.me.pc + 4 ∧ t.mem = r.1.mem ∧ ThreadFrame d s t) ∧
  (∀ (x : Bool) (e : Word), snapMarks x e = true ↔ pteCow e = false ∧ (pteW e = true ∨ (x = true ∧ pteX e = true))) ∧
  (∀ (s : State) (ctx : BitVec 12) (x : Bool) (a : Nat) (l : Leaf), s.memWf = true → s.pageLeaf ctx a 0 = some l →
    let r := s.snapMark ctx x a 1
    (snapMarks x l.e = true → r.2 = 1 ∧ (∀ k, k < 8 → r.1.finalByte (l.addr + k) = (l.e ||| 0x200#64).extractLsb' (8 * k) 8) ∧
      ∀ y, Outside l.addr 8 y → r.1.finalByte y = s.finalByte y) ∧
    (snapMarks x l.e = false → r = (s, 0))) ∧
  (∀ (s : State) (ctx : BitVec 12) (x : Bool) (a n : Nat),
    let r := s.snapMark ctx x a n
    let q := r.1.snapMark ctx x (a + n * 2 ^ 16) 1
    s.snapMark ctx x a (n + 1) = (q.1, r.2 + q.2)) ∧
  (∀ (s s1 : State) (d a b : BitVec 5) (fs : List Word), s.me.level ≠ .user → (s.me.rd a).toNat % 8 = 0 →
    s.pool.length + (s.me.rd b).toNat ≤ 4096 → s.loadList s.cur s.me (s.me.rd a) (s.me.rd b).toNat = .inl (s1, fs) →
    (∀ f ∈ fs, f.toNat % 2 ^ 16 = 0 ∧ s1.isLocal (s1.canon (f.toNat + 2 ^ 16 - 1)) = true) →
    ∃ t, exec (.pgpool d a b) s = .next t ∧ (s1.owed = [] → t.pool = s1.pool ++ fs.map (fun f => s1.canon f.toNat)) ∧
      t.me.rd d = (if d = 0 then 0 else BitVec.ofNat 64 (s1.pool.length + fs.length)) ∧ t.me.pc = s.me.pc + 4)

/-- Every instruction of the list has an operand form, and at user level, with no group overlap, a free window entry and enough free
registers for its destinations (those that a VLD on an unconfirmed path has taken are its own), it completes: the thread goes on at the next
word, and it is the thread that has issued the rule; a fault-only-first load without a mask does so with VL trimmed by translation alone,
once no check waits, and waits otherwise. Nothing outside the thread changes. (R104, R105, R131, R178, R188.) -/
def Obligations.VectorRulesIssue : Prop :=
  ∀ i : Instr, vectorRule i = true → ∃ sp, ruleSpec i = some sp ∧
    ∀ s : State, s.me.level = .user → sp.overlaps = false → s.me.entryFree = true →
      (s.me.prepared sp).poolHas sp.vdests.length sp.pdests.length = true →
      ((∀ m, sp.kind = .mem m → m.mode ≠ .faultFirst ∨ sp.mask ≠ 0) →
        exec i s = .next (s.committed (s.me.issue i sp) (s.me.pc + 4)) ∧ SameElsewhere s (s.committed (s.me.issue i sp) (s.me.pc + 4))) ∧
      (∀ t, s.issueTrim (s.me.issue i sp) = some t → exec i s = .next (s.committed t (s.me.pc + 4)) ∧
        SameElsewhere s (s.committed t (s.me.pc + 4)) ∧ t.vec.window.length = s.me.vec.window.length + 1 ∧
        t.cfg.vl.toNat ≤ s.me.cfg.vl.toNat) ∧
      (s.issueTrim (s.me.issue i sp) = none → exec i s = .next s.stalledMe)

/-- The issued rule stands at the tail of the window with nothing done and no fault. It has captured VL, FRM, SEGSEL, VLe, its mask's and
its sources' registers with their tags, and its scalar operands. A rule with one vector (predicate) destination takes the first free vector
(predicate) register: the name maps it, its tag stays, all its elements are ABSENT, the rule keeps the old register for its carries, and no
other name and no other register changes. Which of the free registers is taken is the model's choice (log entry 22), and a load prepared on
an unconfirmed path takes the register that it was given (R179). The s registers, the configuration registers, the pc and the level are as
before; only a rule that sets VL as it ends makes the count of the word that set VL last its own (the model's field, log entry 102). (R16,
R23, R104, R178, R181, R187, R188.) -/
def Obligations.IssueCapturesAndRenames : Prop :=
  ∀ (t : Thread) (i : Instr) (sp : RuleSpec),
    let u := t.issue i sp
    u = { t with vec := u.vec, prep := u.prep, early := u.early, vlSet := u.vlSet } ∧ u.vlSet = (if sp.setsVl then t.count else t.vlSet) ∧
    ∃ r, u.vec.window = t.vec.window ++ [r] ∧ r.instr = i ∧ r.rid = t.count ∧ r.vl = t.cfg.vl ∧ r.frm = t.cfg.frm ∧
      r.segsel = t.cfg.segsel ∧ r.msel = sp.mask ∧ r.vle = sp.vle t ∧ r.done = 0 ∧ r.faults = [] ∧ r.flight = [] ∧
      r.mp = (if sp.mask = 0 then none else some (t.vec.mphys sp.mask.toNat)) ∧
      (∀ a, sp.a = .v a → r.a0 = some (t.vec.vphys a) ∧ r.ta = t.vec.tag a) ∧
      (∀ b, sp.b = .v b → r.b0 = some (t.vec.vphys b) ∧ r.tb = t.vec.tag b) ∧
      (∀ a, sp.a = .s a → r.opa = t.rd a) ∧ (∀ b, sp.b = .s b → r.opb = t.rd b) ∧
      (∀ (d : BitVec 5) (p : Fin 128) (rest : List (Fin 128)), sp.dst = .v d → sp.m0 = false → (t.prepared sp).vec.vfree = p :: rest →
        r.d0 = some p ∧ r.old0 = some (t.vec.vphys d) ∧ r.td = t.vec.tag d ∧ u.vec.vphys d = p ∧ u.vec.vfree = rest ∧
        (∀ k, (u.vec.vreg p).get k = .absent) ∧ (u.vec.vreg p).wlog = (t.vec.tag d).wlog ∧
        (∀ q, q ≠ d → u.vec.vphys q = t.vec.vphys q) ∧ (∀ q, u.vec.tag q = t.vec.tag q) ∧
        (∀ q, q ≠ p → u.vec.vreg q = t.vec.vreg q) ∧ u.vec.mmap = t.vec.mmap ∧ u.vec.pregs = t.vec.pregs ∧ u.vec.pfree = t.vec.pfree) ∧
      (∀ (d : Nat) (p : Fin 48) (rest : List (Fin 48)), sp.dst = .m d → sp.m0 = false → d < 16 → t.vec.pfree = p :: rest →
        r.pd = some p ∧ r.pold = some (t.vec.mphys d) ∧ u.vec.mphys d = p ∧ u.vec.pfree = rest ∧
        (∀ k, (u.vec.preg p).get k = .absent) ∧ (∀ q, q ≠ d → u.vec.mphys q = t.vec.mphys q) ∧
        (∀ q, q ≠ p → u.vec.preg q = t.vec.preg q) ∧ u.vec.vmap = t.vec.vmap ∧ u.vec.vregs = t.vec.vregs ∧ u.vec.vfree = (t.prepared sp).vec.vfree)

/-- Above user level every word of the majors 0x20 to 0x3C takes the illegal-instruction trap at the word, whatever its operands and the
state. At user level, with the window empty, a vector rule with a source register inside its destination group takes the group-overlap trap
at the word, so that the group and its tags are unchanged. (R43, R37, R196, R201.) -/
def Obligations.VectorWordsThatTrap : Prop :=
  (∀ (i : Instr) (s : State), vectorMajor i = true → s.me.level ≠ .user →
    exec i s = .next (s.trapped (wordInfo 0x01 s.me.pc s.me.pc))) ∧
  (∀ (i : Instr) (sp : RuleSpec) (s : State), vectorRule i = true → ruleSpec i = some sp → s.me.level = .user →
    sp.overlaps = true → s.me.vec.window = [] → exec i s = .next (s.takeTrap s.cur (wordInfo 0x03 s.me.pc s.me.pc)))

/-- When no change of lanes or level holds it back, SETVL grants min(request, max(L, floor(VLMAX(w) × G / 8))) elements under the lanes and
level in force: VL and d hold the grant, WLOG and QREQ take its fields, LMAP the lanes held, and SEGSEL is unchanged; SETVLI does so for its
immediate, and for all ones when that is 0. SETFIB, with its row lengths read (and with a window entry free where a VPF is in progress),
completes with the number of rows packed in d: with none packed VL and SEGSEL are 0 and mk is as it was; else VL is their total, SEGSEL is
k, and below VL mk holds a 1 exactly where a row of nonzero length starts and, where lanes and level stay, above it what the old mk held,
bits that are still to come among them. (R128, R129, R130, R132.) -/
def Obligations.GrantsComplete : Prop :=
  (∀ (s : State) (d a : BitVec 5) (imm : BitVec 10) (w q : BitVec 2), s.me.level = .user → s.grantWaits s.cur (some q) = false →
    let ok (request : Nat) (u : State) : Prop :=
      let n := min request (max u.me.cfg.lalive.toNat
        (u.me.cfg.lalive.toNat * 32 * (1 + u.me.cfg.qcur.toNat) / 2 ^ w.toNat * s.gfact / 8))
      u.me.rd d = (if d = 0 then 0 else BitVec.ofNat 64 n) ∧ u.me.cfg.vl = BitVec.ofNat 16 n ∧ u.me.cfg.wlog = w ∧
      u.me.cfg.qreq = q ∧ u.me.cfg.lmap = s.grantLanes s.cur ∧ u.me.cfg.qcur = s.me.newQ (some q) s.qcore ∧
      u.me.cfg.segsel = s.me.cfg.segsel ∧ u.me.pc = s.me.pc + 4 ∧ (∀ r, r ≠ d → u.me.rd r = s.me.rd r)
    (∃ u, exec (.setvl d a w q) s = .next u ∧ ok (s.me.rd a).toNat u) ∧
    (∃ u, exec (.setvli d imm w q) s = .next u ∧ ok (if imm = 0 then 2 ^ 64 - 1 else imm.toNat) u)) ∧
  (∀ (s s1 : State) (d a b : BitVec 5) (w : BitVec 2) (k : BitVec 4) (p : Packed), s.me.level = .user → s.scalarHeld s.cur = false →
    s.grantWaits s.cur none = false → s.me.poolHas 0 1 = true → (s.me.vpfOpen = false ∨ s.me.entryFree = true) →
    let g := if s.grantPending s.cur none then s.me.replace (s.grantLanes s.cur) (s.me.newQ none s.qcore) 0 else s.me
    s.packRows s.me s.cur (s.me.rd a) (g.grantCap s.gfact w.toNat) (min (s.me.rd b).toNat 256)
      { rows := 0, total := 0, starts := [] } = .inl (s1, p) →
    ∃ u, exec (.setfib d a b w k) s = .next u ∧ u.me.rd d = (if d = 0 then 0 else BitVec.ofNat 64 p.rows) ∧ u.me.pc = s.me.pc + 4 ∧
      (p.rows = 0 → u.me.cfg.vl = 0 ∧ u.me.cfg.segsel = 0 ∧ u.me.vec.mmap = s.me.vec.mmap) ∧
      (p.rows ≠ 0 → u.me.cfg.vl = BitVec.ofNat 16 p.total ∧ u.me.cfg.segsel = k ∧
        (∀ i, i < p.total → i < u.me.vlmax 0 → (u.me.vec.preg (u.me.vec.mphys k.toNat)).get i = .present (p.starts.contains i)) ∧
        (s.grantPending s.cur none = false → ∀ i, p.total ≤ i → i < u.me.vlmax 0 →
          (u.me.vec.preg (u.me.vec.mphys k.toNat)).get i = (s.me.vec.preg (s.me.vec.mphys k.toNat)).get i)))

/-- VTAG to a tag of the same width changes that tag and no register; to another width, with a free register (and, while a VPF is in
progress, a free window entry), the name maps a register of zeros. VMVS writes the element at index s(b), sign-extended for an I tag, 0 for
a VOID one, and 0 with RANGE at or beyond the capacity. MFFS writes the lowest set index below VL, or all ones, once the bits that decide it
are there; MPOPC the number of set bits below VL once all are there; while such an element or bit is ABSENT they wait. (R9, R133, R145.) -/
def Obligations.TagsAndMovesToScalars : Prop :=
  ∀ (s : State) (d a b : BitVec 5) (c : BitVec 4) (g : Tag), s.me.level = .user →
    let t := s.me
    let n := min t.cfg.vl.toNat (t.vlmax 0)
    let bit (i : Nat) : PBit := (t.vec.preg (t.vec.mphys a.toNat)).get i
    let el : Elem := (t.vec.vreg (t.vec.vphys a)).get (t.rd b).toNat
    (Tag.ofCode c.toNat = some g →
      ((t.vec.tag d).wlog = g.wlog →
        exec (.vtag d c) s = .next (s.committed { t with vec := { t.vec with vtag := t.vec.vtag.set d.toFin g } } (t.pc + 4))) ∧
      (∀ p rest, (t.vec.tag d).wlog ≠ g.wlog → (t.vpfOpen = false ∨ t.entryFree = true) → t.vec.vfree = p :: rest →
        ∃ u, exec (.vtag d c) s = .next u ∧ u.me.vec.vphys d = p ∧ u.me.vec.tag d = g ∧ (u.me.vec.vreg p).wlog = g.wlog ∧
          (∀ i, (u.me.vec.vreg p).get i = .present 0) ∧ u.me.vec.vfree = rest ∧ (t.vpfOpen = false → u.me.vec.window = t.vec.window) ∧
          (∀ q, q ≠ d → u.me.vec.vphys q = t.vec.vphys q ∧ u.me.vec.tag q = t.vec.tag q) ∧ u.me.pc = t.pc + 4)) ∧
    (t.vlmax (t.vec.tag a).wlog ≤ (t.rd b).toNat →
      exec (.vmvs d a b) s = .next (s.committed (({ t with cfg := { t.cfg with vstat := t.cfg.vstat ||| 2 } } : Thread).wr d 0) (t.pc + 4))) ∧
    ((t.rd b).toNat < t.vlmax (t.vec.tag a).wlog →
      (∀ x, el = .present x → exec (.vmvs d a b) s = .next (s.wrote d (BitVec.ofNat 64 ((t.vec.tag a).extend x.toNat)))) ∧
      (el = .void → exec (.vmvs d a b) s = .next (s.wrote d 0)) ∧
      (el = .absent → exec (.vmvs d a b) s = .next s.stalledMe)) ∧
    (∀ i, i < n → bit i = .present true → (∀ j, j < i → bit j = .present false ∨ bit j = .void) →
      exec (.mffs d a) s = .next (s.wrote d (BitVec.ofNat 64 i))) ∧
    ((∀ j, j < n → bit j = .present false ∨ bit j = .void) → exec (.mffs d a) s = .next (s.wrote d (BitVec.allOnes 64))) ∧
    (∀ i, i < n → bit i = .absent → (∀ j, j < i → bit j = .present false ∨ bit j = .void) → exec (.mffs d a) s = .next s.stalledMe) ∧
    ((∀ j, j < n → bit j ≠ .absent) →
      exec (.mpopc d a) s = .next (s.wrote d (BitVec.ofNat 64 ((List.range n).filter (fun j => bit j == .present true)).length))) ∧
    (∀ i, i < n → bit i = .absent → exec (.mpopc d a) s = .next s.stalledMe)

/-- At user level with a free entry and registers: TBLB within its limits issues one rule; CWALK in a party that has reserved the walker,
with the thread's earlier accesses performed and what it reads of the scratchpad within the reserved tiles, issues one rule that holds its
post number; MRD of a reserved accumulator and a row of at most 256, with room in the matrix queue, issues its rule and posts its read there
under the same number; VPF, with a legal header fetched at its target and no VP of an earlier VPF active, issues its rule and starts one VP
for each element below VLe at the word after the header, under the write-set's renamed registers. Each goes on at the next word. A TBLB
beyond its limits takes the lane-table range fault, with the window empty. (R171, R226, R243, R245, R290, R330, R336.) -/
def Obligations.WindowWordsIssue : Prop :=
  (∀ (s : State) (d a b : BitVec 5) (sp : RuleSpec), s.me.level = .user → ruleSpec (.tblb d a b) = some sp →
    (tblbOk (s.me.rd d) (s.me.rd a) (s.me.rd b) = true → s.me.entryFree = true →
      exec (.tblb d a b) s = .next (s.committed (s.me.issue (.tblb d a b) sp) (s.me.pc + 4))) ∧
    (tblbOk (s.me.rd d) (s.me.rd a) (s.me.rd b) = false → s.me.vec.window = [] →
      exec (.tblb d a b) s = .next (s.takeTrap s.cur (wordInfo 0x13 (s.me.rd d) s.me.pc)))) ∧
  (∀ (s : State) (d c e p : BitVec 5) (sp : RuleSpec), s.me.level = .user → s.walkerOf s.me = true →
    MayPost s (s.walkReads s.me.ctx (s.me.rd p).toNat) [] →
    ruleSpec (.cwalk d c e p) = some sp → s.me.entryFree = true → s.me.poolHas 2 0 = true →
    ∃ u r, exec (.cwalk d c e p) s = .next u ∧ u.seq = s.seq + 1 ∧ u.me.vec.window = s.me.vec.window ++ [r] ∧ r.instr = .cwalk d c e p ∧
      r.post = s.seq ∧ r.opa = s.me.rd c ∧ r.opb = s.me.rd e ∧ r.count = (s.me.rd p).toNat ∧ r.mark = true ∧ u.me.pc = s.me.pc + 4 ∧
      u.me.vec.vmap = (s.me.issue (.cwalk d c e p) sp).vec.vmap ∧ u.me.sregs = s.me.sregs ∧ ∀ a, u.finalByte a = s.finalByte a) ∧
  (∀ (s : State) (c : BitVec 2) (d q : BitVec 5) (m : BitVec 4), s.me.level = .user → s.engineOf s.me = true →
    c.toNat < s.accsOf s.me → (s.me.rd q).toNat ≤ 256 → s.me.entryFree = true → s.me.poolHas 1 0 = true → s.matQ.length < 64 →
    ∃ u r x, exec (.mrd c d q m) s = .next u ∧ u.me.vec.window = s.me.vec.window ++ [r] ∧ r.instr = .mrd c d q m ∧ r.rid = s.me.count ∧
      r.opa = s.me.rd q ∧ r.vle ≤ 256 ∧ u.matQ = s.matQ ++ [x] ∧ x.op = .mrd c.toNat (s.me.rd q).toNat s.cur s.me.count ∧
      u.me.pc = s.me.pc + 4) ∧
  (∀ (s s1 : State) (k : BitVec 4) (o : BitVec 20) (vset hi : BitVec 32), s.me.level = .user →
    let header : Word := BitVec.ofInt 64 (s.me.pc.toNat + o.toInt * 4)
    s.readHeader s.me header = .ok s1 vset hi → headerOk vset hi = true → s.me.vpActive = false → s.me.entryFree = true →
    s.me.poolHas (popcount 32 vset.toNat) (popcount 16 hi.toNat) = true →
    ∃ u r f, exec (.vpf k o) s = .next u ∧ u.me.vec.window = s.me.vec.window ++ [r] ∧ r.instr = .vpf k o ∧ u.me.vpf = some f ∧
      f.rid = r.rid ∧ f.header = header ∧ f.vset = vset ∧ f.mset = hi.setWidth 16 ∧
      f.vps.map (fun p => p.idx) = List.range r.vle ∧ (∀ p ∈ f.vps, p.pc = header + 8 ∧ p.count = 0 ∧ p.cells = [] ∧ p.ops = []) ∧
      r.vle ≤ s.me.cfg.vl.toNat ∧ f.vmap = u.me.vec.vmap ∧ f.mmap = u.me.vec.mmap ∧ u.me.pc = s.me.pc + 4)

/-- When the VP of one element is the only one, has started, met no fault and stands at no breakpoint, and its next word is fetched: a VPBR
whose bit no rule of the VP is still to write and whose mask bit is 1 moves the VP to its own address plus its offset times 4, and to the
next word when it is 0 or VOID; a VPJ always jumps; a VPSTOP marks the VPF's element done and removes the VP, and the element that the VP
wrote of the write-set (of one v name) becomes final, once every rule of it has fired; any other word that a block may hold, with its
destinations in the write-set, no overlap and an entry free, becomes a rule of the VP. Each is one instruction of the VP. A VP that has
issued 4,096 meets the runaway fault 0x20, a word that a block may not hold or that writes outside the write-set the fault 0x01. Outside a
block, with the window empty, each takes the illegal-instruction trap at the word. (R41, R216, R227, R228, R229, R230, R232, R244, R246.) -/
def Obligations.BlockWords : Prop :=
  (∀ (s : State) (k : BitVec 4) (o : BitVec 20), s.me.vec.window = [] →
    let trap : Host.Outcome State Fault Refusal := .next (s.trapped (wordInfo 0x01 s.me.pc s.me.pc))
    exec (.vpbr k o) s = trap ∧ exec (.vpj o) s = trap ∧ exec .vpstop s = trap) ∧
  (∀ (s s1 : State) (sl : Slot) (f : Vpf) (r : Rule) (p : Vp) (w : Insn),
    let t := s.th sl
    t.occupied = true → t.held = false → t.drain = false → t.headFault = false → t.vpf = some f → f.vps = [p] →
    t.vec.window.find? (fun q => q.rid == f.rid) = some r → vpfGov t.vec r p.idx = .on → (∀ x ∈ r.faults, x.elem ≠ p.idx) →
    (4096 ≤ p.count → exec (.vpCohortIssue sl) s = .next (s.setRule sl (r.addFault p.idx 0x20 p.pc.toNat))) ∧
    (p.count < 4096 → t.breakAt p.pc = none → s.fetch t p.pc = .word s1 w →
    let go (pc : Word) (ops : List VpOp) : Prop := ∃ u g, exec (.vpCohortIssue sl) s = .next u ∧ (u.th sl).vpf = some g ∧
      g = { f with vps := [{ p with pc := pc, count := p.count + 1, ops := ops }] } ∧ (u.th sl).vec = t.vec
    (∀ k o, decode w = .ok (.vpbr k o) → (∀ x ∈ p.ops, ∀ sp, ruleSpec x.instr = some sp → k.toNat ∉ sp.pdests) →
      ((vpPreg t f p k.toFin).get p.idx = .present true → go (BitVec.ofInt 64 (p.pc.toNat + o.toInt * 4)) p.ops) ∧
      ((vpPreg t f p k.toFin).get p.idx = .present false ∨ (vpPreg t f p k.toFin).get p.idx = .void → go (p.pc + 4) p.ops)) ∧
    (∀ o, decode w = .ok (.vpj o) → go (BitVec.ofInt 64 (p.pc.toNat + o.toInt * 4)) p.ops) ∧
    (∀ i sp, decode w = .ok i → ruleSpec i = some sp → blockLegal i = true →
      (inWriteSet f sp = true → sp.inBlock.overlaps = false → t.entries < 24 →
        go (p.pc + 4) (p.ops ++ [{ gid := s1.seq, instr := i }])) ∧
      (inWriteSet f sp = false → exec (.vpCohortIssue sl) s = .next (s1.setRule sl (r.addFault p.idx 0x01 p.pc.toNat)))) ∧
    (∀ i, decode w = .ok i → blockLegal i = false →
      exec (.vpCohortIssue sl) s = .next (s1.setRule sl (r.addFault p.idx 0x01 p.pc.toNat))) ∧
    (decode w = .ok .vpstop → p.ops = [] → ∃ u g q, exec (.vpCohortIssue sl) s = .next u ∧ (u.th sl).vpf = some g ∧ g.vps = [] ∧
      q ∈ (u.th sl).vec.window ∧ q.rid = r.rid ∧ (p.idx < 8192 → q.done.getLsbD p.idx = true) ∧
      (∀ (n : Fin 32) (e : Elem), f.vset = 1#32 <<< n.val → f.mset = 0 → p.cell false n.val = some e →
        ((u.th sl).vec.vreg (f.vmap.get n)).get p.idx = e))))

/-- VARITH, for integer operands and an integer destination of any widths: VADD, VSUB, VRSUB, VMUL, VMIN, VMAX, VABS, VNEG, VCVT and (by
other than 0) VREM give the exact result clamped to vd's range, with SAT exactly when the clamp changed it and no exception flag; VADDW and
VSUBW give it modulo 2^n without SAT; VMULH gives floor(a × b / 2^n) modulo 2^n; VDIV the quotient rounded toward zero, and by 0 the
largest, smallest or zero value with SAT; VREM by 0 a clamped to vd's range with no flag (nor SAT: log entry 76). For every combination of
tags VAND, VOR and VXOR act on the extended patterns and VSLL, VSRL and VSRA shift at vd's width by the low log2(n) bits of b. Floating
VARITH: a NaN operand gives the canonical NaN, a signalling one with NV; on F32 (F64) operands with an F32 (F64) destination VADD, VSUB,
VMUL, VDIV and the VFMA functions give the exact result rounded once, and VNEG and VABS change the sign alone; VCVT of a NaN or an infinity
to an integer gives 0 or the nearest end of the range, with NV. VFMA of integers clamps its exact sum; infinity times zero gives the
canonical NaN with NV whatever the addend. VFX: the special cases of the square root and the two estimates, the class bit, and the replaced
sign. VCMP compares exact values; a NaN is unordered. VWIDE computes as VMUL, VADD, VFMADD and VCVT on groups, and VNSHR rounds the quotient
by FRM; an element of the second register of a group counts from its capacity on, and reads as unreadable where that register has another
width. Masks: the five bitwise functions, the first-set functions, VIOTA and VID. Permutations between equal widths: VRGATHER, the slides,
VCOMPRESS, VPUSH, VSPLAT and VEXT. Reductions of one segment, and scans, of integers: sums, minima, maxima and bitwise results over the
elements that take part. An element at or beyond VLe or with a clear mask bit is carried, one with a VOID bit or operand is VOID, and one
whose bit is ABSENT waits. (R58, R104, R108, R111, R112, R113, R116, R121, R124, R135, R140, R147.) -/
def Obligations.ElementValues : Prop :=
  (∀ (td ta tb : Tag) (rm x y z : Nat), td.isFloat = false → ta.isFloat = false → tb.isFloat = false →
    let a := ta.toInt x
    let b := tb.toInt y
    let c := td.toInt z
    let oa : Opd := { bits := x, tag := ta }
    let ob : Opd := { bits := y, tag := tb }
    let oc : Opd := { bits := z, tag := td }
    let n := td.bits
    let wrap (v : Int) (r : Res) : Prop := (r.bits : Int) = v % 2 ^ n ∧ r.fl = 0 ∧ r.vs = 0
    Clamped td (a + b) (fVadd td rm oa ob) ∧ Clamped td (a - b) (fVsub td rm oa ob) ∧ Clamped td (b - a) (fVrsub td rm oa ob) ∧
    Clamped td (a * b) (fVmul td rm oa ob) ∧ Clamped td (min a b) (fVmin td rm oa ob) ∧ Clamped td (max a b) (fVmax td rm oa ob) ∧
    Clamped td (a.natAbs : Int) (fVabs td rm oa ob) ∧ Clamped td (-a) (fVneg td rm oa ob) ∧ Clamped td a (fVcvt td rm oa ob) ∧
    (b ≠ 0 → Clamped td (a - b * a.tdiv b) (fVrem td rm oa ob)) ∧
    (b = 0 → td.toInt (fVrem td rm oa ob).bits = max td.lo (min td.hi a) ∧ (fVrem td rm oa ob).fl = 0 ∧ (fVrem td rm oa ob).vs = 0) ∧
    wrap (a + b) (fVaddw td rm oa ob) ∧ wrap (a - b) (fVsubw td rm oa ob) ∧ wrap (a * b / 2 ^ n) (fVmulh td rm oa ob) ∧
    (b ≠ 0 → Clamped td (a.tdiv b) (fVdiv td rm oa ob)) ∧
    (b = 0 → td.toInt (fVdiv td rm oa ob).bits = (if 0 < a then td.hi else if a < 0 then td.lo else 0) ∧
      (fVdiv td rm oa ob).fl = 0 ∧ (fVdiv td rm oa ob).vs = 4) ∧
    Clamped td (a * b + c) (fVfmadd td rm oa ob oc) ∧ Clamped td (a * b - c) (fVfmsub td rm oa ob oc) ∧
    Clamped td (c - a * b) (fVfrmsub td rm oa ob oc) ∧ Clamped td (-(a * b) - c) (fVfnmadd td rm oa ob oc) ∧
    Clamped td (if a = 0 then 1 else if 0 < a then 4 else 64) (fVfclass td rm oa ob) ∧
    (let s := y % 64
     let q (v : Int) : Prop := Clamped td v (fVnshr td rm oa ob)
     (rm = 0 → ∃ v, q v ∧ 2 * (v * 2 ^ s - a).natAbs ≤ 2 ^ s ∧ (2 * (v * 2 ^ s - a).natAbs = 2 ^ s → v % 2 = 0)) ∧
     (rm = 1 → q (a.tdiv (2 ^ s))) ∧ (rm = 2 → q (a / 2 ^ s)) ∧ (rm = 3 → q (-(-a / 2 ^ s))) ∧
     (rm = 4 → ∃ v, q v ∧ (v * 2 ^ s - a).natAbs < 2 ^ s ∧ (v * 2 ^ s ≠ a → v % 2 = 1)))) ∧
  (∀ (td ta tb : Tag) (rm x y : Nat),
    let oa : Opd := { bits := x, tag := ta }
    let ob : Opd := { bits := y, tag := tb }
    let n := td.bits
    let k := y % n
    Bitwise n (fun j => (ta.extend x).testBit j && (tb.extend y).testBit j) (fVand td rm oa ob) ∧
    Bitwise n (fun j => (ta.extend x).testBit j || (tb.extend y).testBit j) (fVor td rm oa ob) ∧
    Bitwise n (fun j => (ta.extend x).testBit j ^^ (tb.extend y).testBit j) (fVxor td rm oa ob) ∧
    Bitwise n (fun j => decide (k ≤ j) && (ta.extend x).testBit (j - k)) (fVsll td rm oa ob) ∧
    Bitwise n (fun j => decide (j + k < n) && (ta.extend x).testBit (j + k)) (fVsrl td rm oa ob) ∧
    Bitwise n (fun j => (ta.extend x).testBit (min (j + k) (n - 1))) (fVsra td rm oa ob)) ∧
  (∀ (td ta tb : Tag) (q : Fmt) (rm x y z : Nat), td.fmt = some q →
    let a := (ta.value x).fval
    let b := (tb.value y).fval
    let oa : Opd := { bits := x, tag := ta }
    let ob : Opd := { bits := y, tag := tb }
    ((a.isNan || b.isNan) = true → ∀ f ∈ [fVadd, fVsub, fVrsub, fVmul, fVdiv],
      (f td rm oa ob).bits = q.nanCode ∧ ((a.isSig || b.isSig) = true → (f td rm oa ob).fl &&& fNV = fNV)) ∧
    (mulExact a b = .nan true → ∀ f ∈ [fVfmadd, fVfmsub, fVfrmsub, fVfnmadd],
      (f td rm oa ob { bits := z, tag := td }).bits = q.nanCode ∧ (f td rm oa ob { bits := z, tag := td }).fl &&& fNV = fNV) ∧
    (ta.fmt = some q → ta = td → tb = td →
      let sign (p : Nat) : Bool := p.testBit (q.bits - 1)
      let put (s : Bool) (r : Res) : Prop := Bitwise q.bits (fun j => if j = q.bits - 1 then s else x.testBit j) r
      put (sign y) (fVfsgnj td rm oa ob) ∧ put (!sign y) (fVfsgnjn td rm oa ob) ∧ put (sign x ^^ sign y) (fVfsgnjx td rm oa ob))) ∧
  (∀ (T : Fmt) (t : Tag) (rm x y z : Nat), (T = .f32 ∧ t = .f32) ∨ (T = .f64 ∧ t = .f64) →
    let a := T.decode x
    let b := T.decode y
    let c := T.decode z
    let oa : Opd := { bits := x, tag := t }
    let ob : Opd := { bits := y, tag := t }
    let oc : Opd := { bits := z, tag := t }
    fVadd t rm oa ob = (addExact rm a b).round T rm ∧ fVsub t rm oa ob = (addExact rm a b.neg).round T rm ∧
    fVmul t rm oa ob = (mulExact a b).round T rm ∧ fVdiv t rm oa ob = (divExact a b).round T rm ∧
    fVfmadd t rm oa ob oc = (fmaExact rm a b c).round T rm ∧ fVfmsub t rm oa ob oc = (fmaExact rm a b c.neg).round T rm ∧
    fVfrmsub t rm oa ob oc = (fmaExact rm a.neg b c).round T rm ∧ fVfnmadd t rm oa ob oc = (fmaExact rm a.neg b c.neg).round T rm ∧
    (a.isNan = false → x < 2 ^ T.bits → fVneg t rm oa ob = .plain ((x + 2 ^ (T.bits - 1)) % 2 ^ T.bits) ∧
      fVabs t rm oa ob = .plain (x % 2 ^ (T.bits - 1))) ∧
    (∀ n e, a = .fin n 0 e → fVfsqrt t rm oa ob = .plain (T.signed n 0) ∧
      fVfrec t rm oa ob = { bits := T.signed n T.infCode, fl := fDZ, vs := 0 } ∧
      fVfrsqrt t rm oa ob = { bits := T.signed n T.infCode, fl := fDZ, vs := 0 }) ∧
    ((a = .inf true ∨ ∃ m e, a = .fin true (m + 1) e) → fVfsqrt t rm oa ob = { bits := T.nanCode, fl := fNV, vs := 0 } ∧
      fVfrsqrt t rm oa ob = { bits := T.nanCode, fl := fNV, vs := 0 }) ∧
    (∀ n, a = .inf n → fVfrec t rm oa ob = .plain (T.signed n 0)) ∧
    (a = .inf false → fVfsqrt t rm oa ob = .plain T.infCode ∧ fVfrsqrt t rm oa ob = .plain 0) ∧
    (∀ sig, a = .nan sig → ∀ f ∈ [fVfsqrt, fVfrec, fVfrsqrt], f t rm oa ob = { bits := T.nanCode, fl := if sig then fNV else 0, vs := 0 })) ∧
  (∀ (td ta : Tag) (q : Fmt) (rm x : Nat) (ob : Opd), td.isFloat = false → ta.fmt = some q →
    let oa : Opd := { bits := x, tag := ta }
    (∀ sig, q.decode x = .nan sig → fVcvt td rm oa ob = { bits := 0, fl := fNV, vs := 0 }) ∧
    (∀ n, q.decode x = .inf n → (fVcvt td rm oa ob).fl = fNV ∧ (fVcvt td rm oa ob).vs = vSAT ∧
      td.toInt (fVcvt td rm oa ob).bits = (if n then td.lo else td.hi))) ∧
  (∀ (td : Tag) (rm x : Nat) (ob : Opd), td.isFloat = false →
    let e := x / 2 ^ 23 % 256
    let m := x % 2 ^ 23
    let s := if x / 2 ^ 31 % 2 = 1 then 4 else 0
    let k := if e = 255 then (if m = 0 then 3 + s else if 2 ^ 22 ≤ m then 8 else 9) else if e = 0 then (if m = 0 then 0 else 1) + s else 2 + s
    Clamped td (2 ^ k) (fVfclass td rm { bits := x, tag := .f32 } ob)) ∧
  (∀ (ta tb : Tag) (x y : Nat),
    let oa : Opd := { bits := x, tag := ta }
    let ob : Opd := { bits := y, tag := tb }
    let a := (ta.value x).fval
    let b := (tb.value y).fval
    (ta.isFloat = false → tb.isFloat = false →
      let i := ta.toInt x
      let j := tb.toInt y
      fVcmpeq oa ob = ⟨decide (i = j), 0⟩ ∧ fVcmpne oa ob = ⟨decide (i ≠ j), 0⟩ ∧ fVcmplt oa ob = ⟨decide (i < j), 0⟩ ∧
      fVcmple oa ob = ⟨decide (i ≤ j), 0⟩ ∧ fVcmpgt oa ob = ⟨decide (j < i), 0⟩ ∧ fVcmpge oa ob = ⟨decide (j ≤ i), 0⟩ ∧
      fVcmpun oa ob = ⟨false, 0⟩) ∧
    ((a.isNan || b.isNan) = true →
      let nv : BitVec 5 := if a.isSig || b.isSig then fNV else 0
      fVcmpeq oa ob = ⟨false, nv⟩ ∧ fVcmpne oa ob = ⟨true, nv⟩ ∧ fVcmpun oa ob = ⟨true, nv⟩ ∧
      ∀ f ∈ [fVcmplt, fVcmple, fVcmpgt, fVcmpge], f oa ob = ⟨false, fNV⟩) ∧
    ((a.isNan || b.isNan) = false → (fVcmpun oa ob).bit = false ∧ (fVcmpne oa ob).bit = !(fVcmpeq oa ob).bit ∧
      (fVcmpge oa ob).bit = !(fVcmplt oa ob).bit ∧ (fVcmple oa ob).bit = !(fVcmpgt oa ob).bit ∧ fVcmpgt oa ob = fVcmplt ob oa)) ∧
  (∀ (d a b : BitVec 5) (m : BitVec 4) (x : Bool),
    (∃ sp, ruleSpec (.vwmul d a b m x) = some sp ∧ sp.dst = .pair d ∧ sp.kind = .ew fVmul) ∧
    (∃ sp, ruleSpec (.vwadd d a b m x) = some sp ∧ sp.dst = .pair d ∧ sp.kind = .ew fVadd) ∧
    (∃ sp, ruleSpec (.vwmacc d a b m x) = some sp ∧ sp.dst = .pair d ∧ sp.kind = .fma fVfmadd 7) ∧
    (∃ sp, ruleSpec (.vncvt d a m) = some sp ∧ sp.a = .pair a ∧ sp.kind = .ew fVcvt) ∧
    (∃ sp, ruleSpec (.vnshr d a b m x) = some sp ∧ sp.a = .pair a ∧ sp.kind = .ew fVnshr)) ∧
  (∀ (t : Thread) (r : Rule) (sp : RuleSpec) (f : ElemFn) (g : FmaFn) (h : CmpFn) (q : BitVec 5) (rm i : Nat) (a b c : Opd),
    (sp.kind = .ew f →
      (r.vle ≤ i → evalAt t r sp i = .carry 0) ∧
      (i < r.vle →
        (gov t.vec r i = .off → evalAt t r sp i = .carry 0) ∧ (gov t.vec r i = .void → evalAt t r sp i = .void 0) ∧
        (gov t.vec r i = .wait → evalAt t r sp i = .wait) ∧
        (gov t.vec r i = .on → readA t r sp i = .void → readB t r sp i ≠ .wait → evalAt t r sp i = .void 0) ∧
        (gov t.vec r i = .on → readA t r sp i = .bad → readB t r sp i = .opd b → evalAt t r sp i = .val (invalidRes r.td)) ∧
        (gov t.vec r i = .on → readA t r sp i = .opd a → readB t r sp i = .opd b → evalAt t r sp i = .val (f r.td r.rm a b)))) ∧
    (Active t r i → readA t r sp i = .opd a → readB t r sp i = .opd b →
      (sp.kind = .fma g rm → readOld t r sp i = .opd c → evalAt t r sp i = .val (g r.td (if rm = 7 then r.frm.toNat else rm) a b c)) ∧
      (sp.kind = .cmp h → evalAt t r sp i = .bit (h a b).bit (h a b).fl)) ∧
    (sp.a = .pair q →
      let k := t.vlmax r.ta.wlog
      (i < k → readA t r sp i = .ofElem (t.vec.elem r.a0 i) r.ta) ∧
      (∀ p, k ≤ i → i < 2 * k → r.a1 = some p → readA t r sp i =
        (if (t.vec.vreg p).wlog = r.ta.wlog then .ofElem ((t.vec.vreg p).get (i - k)) r.ta else .bad)))) ∧
  (∀ (t : Thread) (r : Rule) (d a b : BitVec 5) (m : BitVec 4) (i : Nat), Active t r i →
    let x := t.vec.bit r.pa i
    let y := t.vec.bit r.pb i
    let known (j : Nat) : Prop := Decided t r j ∧ t.vec.bit r.pa j ≠ .absent
    let takes (j : Nat) : Prop := gov t.vec r j = .on ∧ t.vec.bit r.pa j = .present true
    let idle (j : Nat) : Prop := (gov t.vec r j = .off ∧ t.vec.bit r.pa j ≠ .absent) ∨ (gov t.vec r j = .on ∧ t.vec.bit r.pa j = .present false)
    let gives (ins : Instr) (e : Act) : Prop := ∀ sp, ruleSpec ins = some sp → evalAt t r sp i = e
    (∀ u v, x = .present u → y = .present v →
      gives (.mand d a b m) (.bit (u && v) 0) ∧ gives (.mor d a b m) (.bit (u || v) 0) ∧ gives (.mxor d a b m) (.bit (u ^^ v) 0) ∧
      gives (.mandn d a b m) (.bit (u && !v) 0)) ∧
    (∀ u, x = .present u → gives (.mnot d a m) (.bit (!u) 0)) ∧
    ((x = .void ∧ y ≠ .absent) ∨ (x ≠ .absent ∧ y = .void) → gives (.mand d a b m) (.void 0) ∧ gives (.mor d a b m) (.void 0)) ∧
    ((∀ j, j ≤ i → idle j) → gives (.msbf d a m) (.bit true 0) ∧ gives (.msif d a m) (.bit true 0) ∧ gives (.msof d a m) (.bit false 0)) ∧
    (∀ f, f ≤ i → takes f → (∀ j, j < f → idle j) → (∀ j, f < j → j ≤ i → known j) →
      gives (.msbf d a m) (.bit false 0) ∧ gives (.msif d a m) (.bit (decide (f = i)) 0) ∧ gives (.msof d a m) (.bit (decide (f = i)) 0)) ∧
    (r.td.isFloat = false →
      ((∀ j, j < i → gov t.vec r j = .off ∨ (gov t.vec r j = .on ∧ ∃ u, t.vec.bit r.pa j = .present u)) →
        ∃ e, gives (.viota d a m) (.val e) ∧
          Clamped r.td (((List.range i).filter (fun j => gov t.vec r j == .on && t.vec.bit r.pa j == .present true)).length : Int) e) ∧
      (∃ e, gives (.vid d m) (.val e) ∧ Clamped r.td (i : Int) e))) ∧
  (∀ (t : Thread) (r : Rule) (d a b : BitVec 5) (m : BitVec 4) (i : Nat), r.td.wlog = r.ta.wlog →
    let k := t.vlmax r.ta.wlog
    let s := r.opb.toNat
    let gives (ins : Instr) (e : Act) : Prop := ∀ sp, ruleSpec ins = some sp → evalAt t r sp i = e
    let from_ (ins : Instr) (j : Nat) : Prop :=
      (∀ x, t.vec.elem r.a0 j = .present x → gives ins (.val (.plain x.toNat))) ∧ (t.vec.elem r.a0 j = .void → gives ins (.void 0)) ∧
      (t.vec.elem r.a0 j = .absent → gives ins .wait)
    (Active t r i →
      (∀ x, t.vec.elem r.b0 i = .present x → r.tb.isFloat = false →
        let j := x.toNat % 2 ^ r.tb.bits
        (j < k → from_ (.vrgather d a b m) j) ∧ (k ≤ j → gives (.vrgather d a b m) (.val { bits := 0, fl := 0, vs := vRANGE }))) ∧
      (s ≤ i → i - s < k → from_ (.vslideup d a b m) (i - s)) ∧ (i < s → gives (.vslideup d a b m) (.carry 0)) ∧
      (i + s < k → from_ (.vslidedown d a b m) (i + s)) ∧ (k ≤ i + s → gives (.vslidedown d a b m) (.val (.plain 0))) ∧
      (i = 0 → gives (.vslide1up d a b m) (.val (.plain (s % 2 ^ r.ta.bits)))) ∧
      (0 < i → i - 1 < k → from_ (.vslide1up d a b m) (i - 1)) ∧
      (i + 1 = r.vle → gives (.vslide1down d a b m) (.val (.plain (s % 2 ^ r.ta.bits)))) ∧
      (i + 1 < r.vle → i + 1 < k → from_ (.vslide1down d a b m) (i + 1)) ∧
      gives (.vsplat d b m) (.val (.plain (s % 2 ^ r.td.bits))) ∧
      (s < k → from_ (.vext d a b m) s) ∧ (k ≤ s → gives (.vext d a b m) (.val { bits := 0, fl := 0, vs := vRANGE }))) ∧
    (i < r.vle → (∀ j, j < r.vle → t.vec.bit r.pb j ≠ .absent) →
      let set := (List.range r.vle).filter (fun j => t.vec.bit r.pb j == .present true)
      (∀ j, set[i]? = some j → from_ (.vcompress d a b) j) ∧ (set.length ≤ i → gives (.vcompress d a b) (.carry 0))) ∧
    (i < r.vle → r.tb.isFloat = false → (∀ j, j < r.vle → gov t.vec r j = .on ∧ ∃ x, t.vec.elem r.b0 j = .present x) →
      let aims (j : Nat) : Prop := ∃ x, t.vec.elem r.b0 j = .present x ∧ x.toNat % 2 ^ r.tb.bits = i
      (∀ j x, j < r.vle → aims j → (∀ l, j < l → l < r.vle → ¬ aims l) → t.vec.elem r.a0 j = .present x →
        ∃ vs, gives (.vpush d a b m) (.val { bits := x.toNat, fl := 0, vs := vs })) ∧
      ((∀ j, j < r.vle → ¬ aims j) → ∃ vs, gives (.vpush d a b m) (.carry vs)))) ∧
  (∀ (t : Thread) (r : Rule) (d a b : BitVec 5) (m : BitVec 4) (i : Nat), r.sp = none → r.td.isFloat = false → r.ta.isFloat = false →
    let gives (ins : Instr) (P : Res → Prop) : Prop := ∀ sp, ruleSpec ins = some sp → ∃ e, evalAt t r sp i = .val e ∧ P e
    (∀ o : Opd, o.tag.isFloat = false → i = 0 → 0 < r.vle → 0 < t.vlmax r.td.wlog → r.tb = o.tag → o.bits = r.opb.toNat % 2 ^ r.tb.bits →
      (∀ j, j < r.vle → Decided t r j ∧ t.vec.elem r.a0 j ≠ .absent ∧ t.vec.elem r.a0 j ≠ .void) →
      let l := activeInts t r r.vle
      let p := activePatterns t r r.vle
      let bits (v : Nat) (e : Res) : Prop := e = .plain (v % 2 ^ r.td.bits)
      gives (.vredsumo d a b m true) (Clamped r.td (o.int + l.sum)) ∧ gives (.vredsumt d a b m true) (Clamped r.td (o.int + l.sum)) ∧
      gives (.vredmin d a b m true) (Clamped r.td (l.foldl min o.int)) ∧ gives (.vredmax d a b m true) (Clamped r.td (l.foldl max o.int)) ∧
      gives (.vredand d a b m true) (bits (p.foldl (· &&& ·) (o.tag.extend o.bits))) ∧
      gives (.vredor d a b m true) (bits (p.foldl (· ||| ·) (o.tag.extend o.bits))) ∧
      gives (.vredxor d a b m true) (bits (p.foldl (· ^^^ ·) (o.tag.extend o.bits)))) ∧
    (Active t r i → (∀ j, j ≤ i → Decided t r j ∧ t.vec.elem r.a0 j ≠ .absent ∧ t.vec.elem r.a0 j ≠ .void) →
      let l := activeInts t r (i + 1)
      gives (.vscansum d a m) (Clamped r.td l.sum) ∧
      (∀ v, l.getLast? = some v → gives (.vscanmin d a m) (Clamped r.td (l.foldl min v)) ∧ gives (.vscanmax d a m) (Clamped r.td (l.foldl max v))))) ∧
  fVfrsqrt .f32 0 { bits := 0x40800000, tag := .f32 } { bits := 0, tag := .f32 } = .plain 0x3EFF0000

/-- For a thread of a placed party (a handler's arrivals are apart from those of the program that it interrupts), with its earlier accesses
performed where R255 asks it, and where every thread of the party runs on this core (log entry 88): the arrival that makes ARR = T + EXP
completes the phase (PHASE rises by 1, ARR and EXP become 0) and BAR returns at once with a report that names the thread as LAST, its LATE 0
when no other arrival came first; any other arrival raises ARR by 1 and the BAR waits at its word; a BAR whose phase has completed returns
its report. BARA arrives likewise, in every party, and returns the phase at once. BARW returns the last report once PHASE has passed its
token by 1 to 2^31 − 1, and else waits. BAREXP adds up to 65,535 expectations, and a larger count takes the bad-state trap. (R251, R252,
R253, R254, R255.) -/
def Obligations.Barriers : Prop :=
  ∀ (s : State) (d a : BitVec 5) (n : BitVec 4) (p : Party), s.partyOf s.me.party = some p → p.saving = none →
    let b := p.barriers.get n.toFin
    let after (u : State) : Barrier := u.barOf s.me.party n.toFin
    let completes : Prop := b.arr + 1 = p.live.length + b.exp
    let gone (u : State) (v : Word) : Prop :=
      u.me.rd d = (if d = 0 then 0 else v) ∧ u.me.pc = s.me.pc + 4 ∧ (∀ r, r ≠ d → u.me.rd r = s.me.rd r) ∧ u.me.cfg = s.me.cfg ∧
      u.me.vec = s.me.vec ∧ u.me.level = s.me.level
    let report (v : Word) : Prop := v.toNat % 2 ^ 16 = s.me.cfg.ptidx.toNat ∧ v.toNat < 2 ^ 48 ∧ (b.arr = 0 → v.toNat / 2 ^ 16 = 0)
    let reset (u : State) : Prop := (after u).phase = b.phase + 1 ∧ (after u).arr = 0 ∧ (after u).exp = 0
    let counted (u : State) : Prop := (after u).phase = b.phase ∧ (after u).arr = b.arr + 1 ∧ (after u).exp = b.exp
    (s.me.arrival = none → s.accessOpen s.cur = false → p.remote = 0 →
      (completes → ∃ u v, exec (.bar d n) s = .next u ∧ gone u v ∧ report v ∧ reset u) ∧
      (¬ completes → ∃ u, exec (.bar d n) s = .next u ∧ counted u ∧ u.me.pc = s.me.pc ∧ u.me.stalled = true ∧
        u.me.arrival = some { bar := n.toFin, phase := b.phase, report := none })) ∧
    (∀ ph v, s.me.arrival = some { bar := n.toFin, phase := ph, report := some v } →
      ∃ u, exec (.bar d n) s = .next u ∧ gone u v ∧ after u = b) ∧
    (s.accessOpen s.cur = false → ∃ u, exec (.bara d n) s = .next u ∧ gone u (b.phase.setWidth 64) ∧ (reset u ∨ counted u) ∧
      (p.remote = 0 → (completes → reset u) ∧ (¬ completes → counted u))) ∧
    (let k := (b.phase.toNat + 2 ^ 32 - (s.me.rd a).toNat % 2 ^ 32) % 2 ^ 32
     (1 ≤ k ∧ k < 2 ^ 31 → ∃ u, exec (.barw d a n) s = .next u ∧ gone u b.report ∧ after u = b) ∧
     (¬ (1 ≤ k ∧ k < 2 ^ 31) → exec (.barw d a n) s = .next s.stalledMe)) ∧
    ((s.me.rd a).toNat ≤ 65535 → ∃ u, exec (.barexp a n) s = .next u ∧ u.me.pc = s.me.pc + 4 ∧ ThreadFrame 0 s u ∧
      after u = { b with exp := b.exp + (s.me.rd a).toNat }) ∧
    (65535 < (s.me.rd a).toNat → s.me.vec.window = [] →
      exec (.barexp a n) s = .next (s.trapped (wordInfo 0x04 s.me.pc s.me.pc)))

/-- For a thread of a task: from a pool with nothing left TAKE returns all ones and the caller is no member afterwards; else the caller is a
member and TAKE returns NEXT × 2^32 + n with n = min(REMAIN, max(MINCHUNK, floor(REMAIN × EFF / (2 × S)))), NEXT rises and REMAIN falls by
n. That S sums EFF over only those members whose party is placed is the model's reading (log entry 48: R256 says the members), with the
members on this core counted (log entry 1); where the task has threads elsewhere, what they have taken before and their part of S are free
values (log entry 88). LREL removes the caller from the members and leaves REMAIN and NEXT. No other pool, no other register and no memory
changes. (R256, R257, R265.) -/
def Obligations.WorkPools : Prop :=
  ∀ (s : State) (d : BitVec 5) (p : BitVec 3) (k : Task), s.myTask s.me = some k →
    let q := k.pools.get p.toFin
    let me := (s.me.party, s.me.cfg.ptidx.toNat)
    let ms := if me ∈ q.members then q.members else q.members ++ [me]
    let S := ((ms.filter (fun m => (s.partyOf m.1).isSome)).map (fun _ => s.eff)).sum
    let others (k' : Task) : Prop := ∀ j, j ≠ p.toFin → k'.pools.get j = k.pools.get j
    (∃ u k' gone far, exec (.take d p) s = .next u ∧ u.myTask u.me = some k' ∧ others k' ∧ u.me.pc = s.me.pc + 4 ∧ ThreadFrame d s u ∧
      gone ≤ q.remain ∧ (k.fields.alone = true → gone = 0 ∧ far = 0) ∧
      (let r := q.remain - gone
       let n := min r (max q.minchunk (r * s.eff / (2 * (S + far))))
       (r = 0 → k'.pools.get p.toFin = { q with members := ms.filter (fun m => m != me), next := q.next + gone, remain := 0 } ∧
         u.me.rd d = (if d = 0 then 0 else BitVec.allOnes 64)) ∧
       (r ≠ 0 → k'.pools.get p.toFin = { q with members := ms, next := q.next + gone + n, remain := r - n } ∧
         u.me.rd d = (if d = 0 then 0 else BitVec.ofNat 64 ((q.next + gone) * 2 ^ 32 + n))))) ∧
    (∃ u k', exec (.lrel p) s = .next u ∧ u.myTask u.me = some k' ∧ others k' ∧
      k'.pools.get p.toFin = { q with members := q.members.filter (fun m => m != me) } ∧ u.me.pc = s.me.pc + 4 ∧ ThreadFrame 0 s u) ∧
    (∀ u, exec (.take d p) s = .next u ∨ exec (.lrel p) s = .next u → u.mem = s.mem ∧ u.sp = s.sp ∧ u.lines = s.lines)

/-- For a counter in local memory on a page that is neither TOL nor DEV: WAITC, with no earlier vector memory rule and no entry of its issue
queue holding it, reads the 64-bit counter at the home store with the core's own bytes written back; at or above s(b) (unsigned) it
completes with that value in d, below it waits at its word. CADD, with every engine command and access of the thread complete and no copy-
on-write page, completes: d holds the old value and the counter the sum modulo 2^64, as one write; every other byte of memory but the page-
table entry is as before. For either, a counter in the scratchpad window takes the scratchpad range fault beyond the party's tiles, and else
the attribute fault. (R323, R324, R343, R349.) -/
def Obligations.Counters : Prop :=
  (∀ (s s1 : State) (d a b : BitVec 5) (l : Leaf) (pa : Nat), s.memWf = true → s.scalarHeld s.cur = false →
    LocalAccess s .read (s.me.rd a) 8 s1 l pa → s1.queueHolds s.me (homes pa 8) true false false = false → pteTol l.e = false → pteDev l.e = false →
    (∀ k, k < 8 → s.poison.contains (pa + k) = false) →
    let v := leNat ((List.range 8).map (fun k => (s1.touch l false).finalByte (pa + k)))
    ((s.me.rd b).toNat ≤ v → ∃ u, exec (.waitc d a b) s = .next u ∧ u.me.rd d = (if d = 0 then 0 else BitVec.ofNat 64 v) ∧
      u.me.pc = s.me.pc + 4 ∧ AccessFrame d (Outside l.addr 8) s u) ∧
    (v < (s.me.rd b).toNat → ∃ u, exec (.waitc d a b) s = .next u ∧ u.me.stalled = true ∧ u.me.pc = s.me.pc ∧
      AccessFrame 0 (Outside l.addr 8) s u)) ∧
  (∀ (s s1 : State) (d a b : BitVec 5) (l : Leaf) (pa : Nat), s.memWf = true → s.enginesOpen s.cur = false → s.accessOpen s.cur = false →
    LocalAccess s .write (s.me.rd a) 8 s1 l pa → pteTol l.e = false → pteDev l.e = false → pteCow l.e = false →
    (∀ k, k < 8 → s.poison.contains (pa + k) = false) →
    let old : Word := BitVec.ofNat 64 (leNat ((List.range 8).map (fun k => (s1.releaseLines.touch l true).finalByte (pa + k))))
    ∃ u, exec (.cadd d a b) s = .next u ∧ u.me.rd d = (if d = 0 then 0 else old) ∧
      (∀ k, k < 8 → u.finalByte (pa + k) = (old + s.me.rd b).extractLsb' (8 * k) 8) ∧
      u.me.pc = s.me.pc + 4 ∧ AccessFrame d (fun x => Outside l.addr 8 x ∧ Outside pa 8 x) s u) ∧
  (∀ (s : State) (d a b : BitVec 5), s.me.vec.window = [] → (s.me.rd a).toNat % 8 = 0 → inWindow (s.me.rd a).toNat = true →
    let off := (s.me.rd a).toNat - winBase
    let c : BitVec 8 := if spSize < off + 8 ∨ s.tilesOf s.me * 4096 < off + 8 then 0x12 else 0x1A
    exec (.waitc d a b) s = .next (s.trapped (wordInfo c (s.me.rd a) s.me.pc)) ∧
    (s.enginesOpen s.cur = false → s.accessOpen s.cur = false →
      exec (.cadd d a b) s = .next (s.trapped (wordInfo c (s.me.rd a) s.me.pc))))

/-- At user level, with a free command slot, its scratchpad ranges in the party's tiles and its bases aligned, CPY, CPYG, CPYS, CPYMG and
CWTLD within their limits, and CSBAR of a nonzero mask, complete: one command, with the addresses, dimensions, strides, index register and
counter that the registers hold, stands posted behind all earlier ones, and no register and no byte of memory, as it finally stands, has
changed. A CWTLD at a base that is no multiple of 8 posts nothing and leaves the engine fault 0x51 for delivery; CRESUME restarts exactly
the parked command of its stream whose fault has been delivered, from the element at which it parked. (R290, R295, R307, R309, R311, R312,
R314, R315, R318, R320, R321.) -/
def Obligations.CourierPosts : Prop :=
  ∀ (s : State) (g h v : BitVec 5) (str n i : BitVec 4) (c : Bool), s.me.level = .user →
    let r (k : Nat) : Word := s.me.rd (g + BitVec.ofNat 5 k)
    let q (k : Nat) : Word := s.me.rd (h + BitVec.ofNat 5 k)
    let posts (w : Instr) (kind : CmdKind) : Prop := ∃ u, exec w s = .next u ∧ WentOn s u ∧ u.postFaults = s.postFaults ∧
      u.cmds = s.cmds ++ [s.newCmd str.toNat kind (r 3) (i.toNat + 1) (if c then some n.toFin else none) .posted]
    (s.cmds.length < 1024 →
      (let n0 := (r 2).toNat % 2 ^ 32
       let n1 := (r 2).toNat / 2 ^ 32 % 2 ^ 16
       let n2 := (r 2).toNat / 2 ^ 48
       let kind : CmdKind := .cpy (r 0) (r 1) n0 n1 n2 (q 0) (q 1) (q 2) (q 3)
       1 ≤ n0 → n0 ≤ 2 ^ 24 →
       (n1 = 0 ∨ n2 = 0 ∨ rangesMeet (cpyBounds (r 0) n0 n1 n2 (q 0) (q 2)) (cpyBounds (r 1) n0 n1 n2 (q 1) (q 3)) = false) →
       MayPost s (kind.reads ++ kind.writes) [] → posts (.cpy g str h c n i) kind) ∧
      (let k := min s.me.cfg.vl.toNat (s.me.vlmax (s.me.vec.tag v).wlog)
       let gather : CmdKind := .cpyg (r 0) (r 1) (r 2).toNat k (s.me.vec.vphys v) (s.me.vec.tag v) none
       let scatter : CmdKind := .cpys (r 0) (r 1) (r 2).toNat k (s.me.vec.vphys v) (s.me.vec.tag v) none
       inWindow (r 0).toNat = true → 1 ≤ (r 2).toNat → (r 2).toNat ≤ 65536 →
       (MayPost s gather.writes [] → posts (.cpyg g str v c n i) gather) ∧
       (MayPost s scatter.reads [] → posts (.cpys g str v c n i) scatter)) ∧
      (let nx := (r 2).toNat % 2 ^ 11
       let ny := (r 2).toNat / 2 ^ 16 % 2 ^ 11
       let nz := (r 2).toNat / 2 ^ 32 % 2 ^ 11
       let op := (q 0).toNat % 4
       let bnd := (q 0).toNat / 4 % 4
       let sf := (q 0).toNat / 16 % 4
       let df := (q 0).toNat / 64 % 4
       let kind : CmdKind := .cpymg (r 0) (r 1) nx ny nz op bnd sf df ((q 0).toNat / 256 % 8)
       (r 2).toNat = nx + 2 ^ 16 * ny + 2 ^ 32 * nz → (∀ x ∈ [nx, ny, nz], 2 ≤ x ∧ x ≤ 1024 ∧ x % 2 = 0) → (q 0).toNat < 2 ^ 11 →
       bnd ≠ 3 → sf ≠ 3 → df ≠ 3 →
       ((r 0).toNat + mgDestBytes nx ny nz op df ≤ (r 1).toNat ∨ (r 1).toNat + mgSrcBytes nx ny nz op sf ≤ (r 0).toNat) →
       MayPost s (kind.reads ++ kind.writes) [(r 0, gridWidth df), (r 1, gridWidth sf)] → posts (.cpymg g str h c n i) kind) ∧
      (let kind : CmdKind := .cwtld (r 0) (r 1).toNat
       (r 1).toNat < 8 → r 2 = 0 →
       (MayPost s kind.reads [(r 0, 8)] → posts (.cwtld g str c n i) kind) ∧
       (MayPost s kind.reads [] → (r 0).toNat % 8 ≠ 0 → ∃ u, exec (.cwtld g str c n i) s = .next u ∧ WentOn s u ∧ u.cmds = s.cmds ∧
         u.postFaults = s.postFaults ++ [{ slot := s.cur, cause := 0x11, stream := str.toNat, addr := r 0 }])) ∧
      ((s.me.rd g).toNat < 2 ^ 16 → s.me.rd g ≠ 0 → MayPost s [] [] → ∃ u, exec (.csbar g) s = .next u ∧ WentOn s u ∧
        u.cmds = s.cmds ++ [s.newCmd 0 (.csbar ((s.me.rd g).setWidth 16)) 0 0 none .posted])) ∧
    (s.engineOf s.me = true → ∃ u, exec (.cresume str) s = .next u ∧ u.me.pc = s.me.pc + 4 ∧ ThreadFrame 0 s u ∧ u.mem = s.mem ∧
      u.cmds = s.cmds.map (fun x => match x.st with
        | .parked _ e _ delivered counter =>
          if x.stream = str.toNat ∧ delivered = true then
            (if counter then { x with st := .adding } else { x with st := .performing, xfer := x.xfer.filter (fun k => k < e) })
          else x
        | _ => x))

/-- At user level in an engine party: MCFG of a panel within R298 sets the configuration of its slot and nothing else. With room in the
matrix queue, a reserved accumulator, ranges in the party's tiles and aligned bases, MZERO, MMA (with the accumulator's format unset or the
panel's) and MST complete, each with its command at the end of the queue; MZERO and MMA set the accumulator's format. MMAV within its limits
takes a command slot, queued, and a place in the matrix queue. No register, and no byte of memory as it finally stands, changes. (R298,
R300, R302, R309, R326, R327, R328, R329, R331, R332.) -/
def Obligations.MatrixPosts : Prop :=
  ∀ (s : State) (a c : BitVec 2) (x y g h : BitVec 5) (str : BitVec 4), s.me.level = .user →
    (∀ (m n k : BitVec 5) (af : BitVec 2) (bf : BitVec 4), s.engineOf s.me = true →
      let p : Panel := { m := (s.me.rd m).toNat, n := (s.me.rd n).toNat, k := (s.me.rd k).toNat, af := af.toNat, bf := bf.toNat }
      p.ok = true → ∃ u, exec (.mcfg m n k af bf) s = .next u ∧ u.panels.get s.cur = p ∧
        u.panels.get (other s.cur) = s.panels.get (other s.cur) ∧ WentOn s u ∧ u.matQ = s.matQ ∧ u.cmds = s.cmds) ∧
    (s.memWf = true → s.engineOf s.me = true → a.toNat < s.accsOf s.me → s.matQ.length < 64 →
      ∃ u, exec (.mzero a) s = .next u ∧ WentOn s u ∧ u.matQ = s.matQ ++ [s.newMat s.seq (.mzero a.toNat (s.panels.get s.cur).acc)] ∧
        u.accFmt.get a.toFin = (s.panels.get s.cur).acc) ∧
    (c.toNat < s.accsOf s.me → s.matQ.length < 64 → inWindow (s.me.rd x).toNat = true →
      let p := s.panels.get s.cur
      let ox := (s.me.rd x).toNat - winBase
      let oy := (s.me.rd y).toNat - winBase
      let mma : MatOp := .mma c.toNat ox oy p
      (inWindow (s.me.rd y).toNat = true → (s.accFmt.get c.toFin = .unset ∨ s.accFmt.get c.toFin = p.acc) →
        MayPost s mma.reads [(s.me.rd x, panelWidth p.af), (s.me.rd y, if p.bf < 8 then panelWidth p.bf else 64)] →
        ∃ u, exec (.mma c x y) s = .next u ∧ WentOn s u ∧ u.matQ = s.matQ ++ [s.newMat s.seq mma] ∧ u.accFmt.get c.toFin = p.acc) ∧
      (∀ f : BitVec 3,
        let mst : MatOp := .mst c.toNat ox f.toNat p (s.accFmt.get c.toFin)
        MayPost s mst.writes [(s.me.rd x, mstWidth f.toNat)] →
        ∃ u, exec (.mst c x f) s = .next u ∧ WentOn s u ∧ u.matQ = s.matQ ++ [s.newMat s.seq mst] ∧ u.accFmt = s.accFmt)) ∧
    (let r (k : Nat) : Word := s.me.rd (g + BitVec.ofNat 5 k)
     let rows := (s.me.rd h).toNat
     let n := (s.me.rd (h + 1)).toNat
     let k := (s.me.rd (h + 2)).toNat
     let kind : CmdKind := .mmav (r 0) (r 1) (r 2) rows n k
     1 ≤ rows → rows ≤ 2 ^ 20 → 2048 ≤ n → n ≤ 2 ^ 20 → n % 2048 = 0 → 2 ≤ k → k ≤ 8 → inWindow (r 0).toNat = true →
     inWindow (r 2).toNat = true → s.matQ.length < 64 → s.cmds.length < 1024 →
     MayPost s [((r 0).toNat - winBase, n), ((r 2).toNat - winBase, 4 * rows)] [(r 1, 2048), (r 2, 4)] →
     ∃ u, exec (.mmav g h str) s = .next u ∧ WentOn s u ∧ u.cmds = s.cmds ++ [s.newCmd str.toNat kind (r 3) 1 none .queued] ∧
       u.matQ = s.matQ ++ [s.newMat (s.seq + 1) (.mmav s.seq)])

/-- In an engine party: PKCFG of a block that can be read and meets its limits, PKLOAD of an image that fits its stage, PKSWAP of a nonzero
mask of reserved stages and PKFEED of records within the party's tiles and apart from every spool complete, each with its command at the end
of the chain's queue; PKCFG's block is the one that later words are checked against; a mask or count of 0 posts nothing. With no feed of the
thread open, PKMISS writes the count that its number selects and PKDRAIN that of spool s(a), which PKDRAIN.clr then sets to 0; nothing else
changes. (R376, R378, R383, R386, R387, R388.) -/
def Obligations.TurnpikeWords : Prop :=
  ∀ (s : State) (d a b : BitVec 5), s.engineOf s.me = true →
    let posted (u : State) (op : PikeOp) : Prop := u.pike.queue = s.pike.queue ++ [s.newPike op] ∧ u.me.pc = s.me.pc + 4 ∧
      u.pike.conf = s.pike.conf ∧ u.pike.active = s.pike.active ∧ u.pike.shadow = s.pike.shadow ∧ u.pike.chain = s.pike.chain
    (∀ s1 l, (s.me.rd a).toNat % 8 = 0 → s.scalarHeld s.cur = false → s.accessOpen s.cur = false →
      s.loadList s.cur s.me (s.me.rd a) 64 = .inl (s1, l) →
      let c := pkConf (wordBytes l)
      pkZeros (wordBytes l) = true → c.fieldsOk = true → c.stagesOk (s.stagesOf s.me) = true → c.spoolsOk (s.spTop s.me) = true →
      ∃ u, exec (.pkcfg a) s = .next u ∧ posted u (.cfg c) ∧ u.pike.porter = c) ∧
    (∀ (n : BitVec 4) (s1 s2 : State) (h0 h1 : Word) (body : List Word), n.toNat < s.stagesOf s.me → (s.me.rd a).toNat % 8 = 0 →
      s.scalarHeld s.cur = false → s.accessOpen s.cur = false →
      let kind := (s.pike.porter.stage n.toNat).kind
      let nact := h0.toNat / 2 ^ 16 % 2 ^ 9
      let nent := h0.toNat / 2 ^ 32 % 2 ^ 13
      let size := kind.entries.2 / 8
      kind ≠ .none → h0.toNat = kind.code + 2 ^ 16 * nact + 2 ^ 32 * nent + 2 ^ 48 * (h0.toNat / 2 ^ 48 % 2 ^ 8) → h1 = 0 →
      nact ≤ 256 → nent ≤ kind.entries.1 → s.loadList s.cur s.me (s.me.rd a) 2 = .inl (s1, [h0, h1]) →
      s1.loadList s.cur s.me (s.me.rd a + 16) (2 * nact + nent * size) = .inl (s2, body) →
      let acts := (pieces 2 nact body).map pkAction
      let rows := pieces size nent (body.drop (2 * nact))
      (∀ x ∈ acts, ∀ w ∈ x, uOk s.pike.porter w = true) → (∀ r ∈ rows, (r.getLastD 0).toNat < 256) →
      ∃ u, exec (.pkload a n) s = .next u ∧
        posted u (.load n.toNat { acts := acts, entries := rows.map (pkEntry kind), miss := h0.toNat / 2 ^ 48 % 2 ^ 8 })) ∧
    (∀ m : BitVec 12, m.toNat < 2 ^ s.stagesOf s.me →
      (m = 0 → ∃ u, exec (.pkswap m) s = .next u ∧ WentOn s u ∧ u.pike = s.pike) ∧
      (m ≠ 0 → MayPost s [] [] → ∃ u, exec (.pkswap m) s = .next u ∧ WentOn s u ∧ posted u (.swap m))) ∧
    (let n := (s.me.rd b).toNat
     let c := s.pike.porter
     let op : PikeOp := .feed ((s.me.rd a).toNat - winBase) n 0 c.rsz (c.spools.filter (fun q => 0 < q.cap))
     inWindow (s.me.rd a).toNat = true → (s.me.rd a).toNat % 16 = 0 → n ≤ 65536 → shareRows op.reads op.writes = false →
     (n = 0 → ∃ u, exec (.pkfeed a b) s = .next u ∧ WentOn s u ∧ u.pike = s.pike) ∧
     (n ≠ 0 → MayPost s (op.reads ++ op.writes) [] → ∃ u, exec (.pkfeed a b) s = .next u ∧ WentOn s u ∧ posted u op)) ∧
    (s.feedsOpen s.cur = false →
      (∀ n : BitVec 7, (n.toNat < s.stagesOf s.me ∨ 12 ≤ n.toNat) → (n.toNat < 16 ∨ 64 ≤ n.toNat) →
        let count : Word := if n.toNat < 12 then listGet 0 s.pike.misses n.toNat else if n.toNat = 12 then s.pike.drops
          else if n.toNat = 13 then s.pike.overp else if n.toNat = 14 then s.pike.full else if n.toNat = 15 then s.pike.lost
          else listGet 0 s.pike.counters (n.toNat - 64)
        exec (.pkmiss d n) s = .next (s.wrote d count)) ∧
      ((s.me.rd a).toNat ≤ 7 →
        let v : Word := BitVec.ofNat 64 (listGet 0 s.pike.spoolCnt (s.me.rd a).toNat)
        exec (.pkdrain d a) s = .next (s.wrote d v) ∧
        ∃ u, exec (.pkdrainClr d a) s = .next u ∧ u.me = (s.wrote d v).me ∧
          u.pike = { s.pike with spoolCnt := listSet s.pike.spoolCnt (s.me.rd a).toNat 0 }))

/-- XBEGIN without an open transaction opens a live one, and with one takes the bad-state trap; XABORT closes it, and its flits to the
targets meet armed link faults at most. XST to a local page that may hold a staged store appends the store, writes nothing to memory, and as
a 257th makes the transaction not live with code 2; in one that is not live it stages nothing. XCOMMIT gives 3 without a transaction; with
the thread's accesses performed it gives the abort code of one that is not live and applies nothing; for a live one whose stores are all
local it gives 0 with the last store to each doubleword applied; for one with other targets it waits for their phase-one replies, then for
their phase-two replies, and gives 0 once none is awaited. Each closing XCOMMIT leaves no transaction. (R394, R400, R401, R402, R403, R404.)
-/
def Obligations.Transactions : Prop :=
  ∀ (s : State) (d a : BitVec 5),
    (s.me.txn = none →
      exec .xbegin s = .next (s.committed { s.me with txn := some { code := 0, stores := [], phase := .staging, await := [] } } (s.me.pc + 4)) ∧
      exec (.xcommit d) s = .next (s.wrote d 3) ∧
      (s.me.vec.window = [] → exec (.xst d a) s = .next (s.trapped (wordInfo 0x04 s.me.pc s.me.pc)))) ∧
    (let u := s.discard s.me.txn
     exec .xabort s = .next (u.committed { s.me with txn := none } (s.me.pc + 4)) ∧ u = { s with links := u.links }) ∧
    (∀ x, s.me.txn = some x →
      (s.me.vec.window = [] → exec .xbegin s = .next (s.trapped (wordInfo 0x04 s.me.pc s.me.pc))) ∧
      (x.code ≠ 0 → exec (.xst d a) s = .next (s.committed s.me (s.me.pc + 4))) ∧
      (∀ (s1 : State) (l : Leaf) (pa : Nat), x.code = 0 → LocalAccess s .write (s.me.rd a) 8 s1 l pa → pteTol l.e = false →
        pteDev l.e = false → pteHost l.e = false → pteSync l.e = false → pteCow l.e = false →
        (x.stores.length < 256 → ∃ u, exec (.xst d a) s = .next u ∧
          u.me.txn = some { x with stores := x.stores ++ [{ pa := pa, data := s.me.rd d }] } ∧ u.me.pc = s.me.pc + 4 ∧
          u.me.sregs = s.me.sregs ∧ (s.memWf = true → ∀ k, Outside l.addr 8 k → u.finalByte k = s.finalByte k)) ∧
        (256 ≤ x.stores.length → ∃ u y, exec (.xst d a) s = .next u ∧ u.me.txn = some y ∧ y.code = 2 ∧ y.stores = x.stores ∧
          u.me.pc = s.me.pc + 4 ∧ u.mem = s1.mem)) ∧
      (x.phase = .staging → s.accessOpen s.cur = false → s.sysRelease.2 = true → s.memWf = true →
        (x.code ≠ 0 → ∃ u, exec (.xcommit d) s = .next u ∧ u.me.txn = none ∧ u.me.rd d = (if d = 0 then 0 else x.code.setWidth 64) ∧
          u.me.pc = s.me.pc + 4 ∧ ∀ k, u.finalByte k = s.finalByte k) ∧
        (x.code = 0 → (∀ w ∈ x.stores, s.ownerOf w.pa = s.module_.toNat ∧ w.pa % 8 = 0) →
          ∃ u, exec (.xcommit d) s = .next u ∧ u.me.txn = none ∧ u.me.rd d = 0 ∧ u.me.pc = s.me.pc + 4 ∧
            (∀ k, (∀ w ∈ x.stores, Outside w.pa 8 k) → u.finalByte k = s.finalByte k) ∧
            (∀ w rest pre, x.stores = pre ++ w :: rest → (∀ v ∈ rest, v.pa ≠ w.pa) →
              ∀ k, k < 8 → u.finalByte (w.pa + k) = w.data.extractLsb' (8 * k) 8)) ∧
        (x.code = 0 → s.targets x ≠ [] → (s.sysRelease.1.sendFlits (s.targets x)).2 = false →
          ∃ u, exec (.xcommit d) s = .next u ∧ u.me.stalled = true ∧ u.me.pc = s.me.pc ∧
            u.me.txn = some { x with phase := .phase1, await := s.targets x, dest := d })) ∧
      (x.phase = .phase1 → x.await ≠ [] → exec (.xcommit d) s = .next s.stalledMe) ∧
      (x.phase = .phase1 → x.await = [] → ∃ u, exec (.xcommit d) s = .next u ∧ u.me.pc = s.me.pc ∧ u.me.stalled = true ∧
        u.me.txn = some { x with phase := .phase2, await := s.targets x }) ∧
      (x.phase = .phase2 → x.await ≠ [] → exec (.xcommit d) s = .next s.stalledMe) ∧
      (x.phase = .phase2 → x.await = [] →
        exec (.xcommit d) s = .next (s.committed ({ s.me with txn := none }.wr d 0) (s.me.pc + 4))))

/-- For a thread on the core whose window is not held. ELEMENT_FIRE of the oldest rule, of an element-wise function, gives the lowest ready
elements of the lane, up to 16 bytes of them, their results or VOID in the destination, raises their flags, marks them done and changes no
other element; CARRY_COPY does the same with the old elements, where the new one is not yet there; DATA_LANDING puts returned data, or VOID
counted once, into the element. RETIRE removes up to four complete rules from the head, and an MRD's queued command counts as read.
REGISTER_FREE returns a register to its pool when no name maps it, no rule still reads, carries from or writes it, and no command, no
SETFIB's carry and no prepared load holds it, and the rules that named it name it no more; a rule needs none once it is complete, and no
source once its elements have fired. BRANCH_RESOLVE of a VCOMPRESS sets VL to the number of selected elements, unless a later grant has set
VL (log entry 102). TRAP_ENTRY takes the trap of the oldest rule's fault at position 0. (R104, R142, R153, R182, R183, R186, R189, R193,
R201.) -/
def Obligations.WindowEvents : Prop :=
  ∀ (s : State) (sl : Slot), (s.th sl).occupied = true → (s.th sl).held = false →
    let t := s.th sl
    let done (u : State) (r : Rule) (es : List Nat) : Prop := ∃ q rest, (u.th sl).vec.window = q :: rest ∧ q.rid = r.rid ∧
      q.instr = r.instr ∧ q.flight = r.flight.filter (fun f => !es.contains f.elem) ∧
      ∀ e, e < 8192 → q.done.getLsbD e = (r.done.getLsbD e || es.contains e)
    let others (u : State) (p : Fin 128) (es : List Nat) : Prop :=
      (∀ i, i ∉ es → ((u.th sl).vec.vreg p).get i = (t.vec.vreg p).get i) ∧ (∀ q, q ≠ p → (u.th sl).vec.vreg q = t.vec.vreg q) ∧
      (u.th sl).vec.vmap = t.vec.vmap ∧ (u.th sl).sregs = t.sregs ∧ (u.th sl).pc = t.pc ∧ u.mem = s.mem ∧ u.sp = s.sp
    (∀ (lane : Fin 64) (r : Rule) (post : List Rule) (d : BitVec 5) (p : Fin 128), t.vec.window = r :: post → r.spec.dst = .v d →
      r.d0 = some p →
      (∀ (cls : FClass) (f : ElemFn), r.spec.kind = .ew f → r.cls r.spec = cls →
        let es := (s.readyIn sl r lane.val).take (16 / r.td.bytes)
        es ≠ [] → ∃ u, exec (.elementFire sl lane cls) s = .next u ∧ done u r (es.map (fun e => e.1)) ∧ others u p (es.map (fun e => e.1)) ∧
          (∀ i q, (i, Act.val q) ∈ es → i < t.vlmax r.td.wlog → ((u.th sl).vec.vreg p).get i = .present (BitVec.ofNat 64 q.bits) ∧
            (u.th sl).cfg.fflags &&& q.fl = q.fl ∧ (u.th sl).cfg.vstat &&& q.vs = q.vs) ∧
          (∀ i vs, (i, Act.void vs) ∈ es → i < t.vlmax r.td.wlog → ((u.th sl).vec.vreg p).get i = .void)) ∧
      (∀ o : Fin 128, r.old0 = some o → o ≠ p → r.pd = none → t.segCarry = [] → (t.vec.vreg o).wlog = (t.vec.vreg p).wlog →
        let es := (s.carryIn sl r lane.val).take (16 / r.td.bytes)
        es ≠ [] → ∃ u, exec (.carryCopy sl lane) s = .next u ∧ done u r (es.map (fun e => e.1)) ∧ others u p (es.map (fun e => e.1)) ∧
          ∀ e ∈ es, e.1 < t.vlmax r.td.wlog → (t.vec.vreg p).get e.1 = .absent → ((u.th sl).vec.vreg p).get e.1 = (t.vec.vreg o).get e.1) ∧
      (∀ (m : MemSpec) (x : Landing), r.spec.kind = .mem m → m.dir = .load → r.flight = [x] → x.elem < r.vle →
        x.elem < t.vlmax r.td.wlog → gov t.vec r x.elem = .on →
        (x.lost = false → memTag m.fmt r.td = r.td → ∃ u, exec (.dataLanding sl 0 x.elem) s = .next u ∧ done u r [x.elem] ∧
          others u p [x.elem] ∧ ((u.th sl).vec.vreg p).get x.elem = .present (BitVec.ofNat 64 (x.bits.toNat % 2 ^ r.td.bits))) ∧
        (x.lost = true → ∃ u, exec (.dataLanding sl 0 x.elem) s = .next u ∧ done u r [x.elem] ∧ others u p [x.elem] ∧
          ((u.th sl).vec.vreg p).get x.elem = .void ∧ (u.th sl).cfg.voidcnt = satInc t.cfg.voidcnt))) ∧
    (∀ pre post : List Rule, t.vec.window = pre ++ post → pre.length ≤ 4 → (∀ q ∈ pre, q.complete q.spec t = true) →
      (pre.length = 4 ∨ ∀ q rest, post = q :: rest → q.complete q.spec t = false) →
      ∃ u, exec (.retire sl) s = .next u ∧ (u.th sl).vec = { t.vec with window := post } ∧ u = (s.mrdRead sl pre).setTh sl (u.th sl) ∧
        (u.th sl).cfg = t.cfg ∧ (u.th sl).sregs = t.sregs ∧ (u.th sl).pc = t.pc) ∧
    (∀ (r : Rule) (p : Fin 128) (q : Fin 48), (r.complete r.spec t = true → r.needsV t p = false ∧ r.needsP t q = false) ∧
      (r.spec.kind ≠ .vpf → (∀ op, r.spec.kind ≠ .reduce op) → (∀ i, i < r.vle → r.isDone i = true) →
        (p ∉ [r.d0, r.d1, r.old0, r.old1].filterMap id → r.needsV t p = false) ∧ (q ∉ [r.pd, r.pold].filterMap id → r.needsP t q = false))) ∧
    (∀ p : Fin 128, p ∉ t.vec.vfree → p ∉ t.prep → (∀ r ∈ t.vec.window, r.needsV t p = false) →
      (∀ c ∈ s.cmds, c.slot = sl → p ∉ c.indexReg) →
      ((∀ n, t.vec.vmap.get n ≠ p) → ∃ u, exec (.registerFree sl false p.val) s = .next u ∧ u = s.setTh sl (u.th sl) ∧
        (∀ q, q ∈ (u.th sl).vec.vfree ↔ q = p ∨ q ∈ t.vec.vfree) ∧
        (u.th sl).vec = { t.vec with vfree := (u.th sl).vec.vfree, window := t.vec.window.map (Rule.forgetV p) }) ∧
      ((∃ n, t.vec.vmap.get n = p) → exec (.registerFree sl false p.val) s = .next s)) ∧
    (∀ p : Fin 48, p ∉ t.vec.pfree → (∀ r ∈ t.vec.window, r.needsP t p = false) → (∀ c ∈ t.segCarry, c.pd ≠ p ∧ c.pold ≠ p) →
      ((∀ n, t.vec.mmap.get n ≠ p) → ∃ u, exec (.registerFree sl true p.val) s = .next u ∧ u = s.setTh sl (u.th sl) ∧
        (∀ q, q ∈ (u.th sl).vec.pfree ↔ q = p ∨ q ∈ t.vec.pfree) ∧
        (u.th sl).vec = { t.vec with pfree := (u.th sl).vec.pfree, window := t.vec.window.map (Rule.forgetP p) }) ∧
      ((∃ n, t.vec.mmap.get n = p) → exec (.registerFree sl true p.val) s = .next s)) ∧
    (∀ (r : Rule), t.vec.window.find? (fun q => q.mark) = some r → r.spec.kind = .compress →
      (∀ j, j < r.vle → t.vec.bit r.pb j ≠ .absent) →
      ∃ u, exec (.branchResolve sl) s = .next u ∧ u = s.setTh sl (u.th sl) ∧ (u.th sl).cfg =
        (if t.vlSet ≤ r.rid then { t.cfg with vl := BitVec.ofNat 16 (((List.range r.vle).filter (fun j => t.vec.bit r.pb j == .present true)).length) }
         else t.cfg) ∧
        (u.th sl).vec.vregs = t.vec.vregs ∧ (u.th sl).vec.pregs = t.vec.pregs ∧ (u.th sl).vec.window.length = t.vec.window.length) ∧
    (∀ (r : Rule) (post : List Rule) (f : ElemFault), t.vec.window = r :: post → r.faults = [f] → (∀ k o, r.instr ≠ .vpf k o) →
      s.quiet sl = true → s.atomicSent sl = false →
      exec (.trapEntry sl) s = .next (s.takeTrap sl
        { cause := f.cause, rule := 0, elem := BitVec.ofNat 16 f.elem, addr := f.addr, epc := t.pc, inv := false }))

/-- A posted Courier command performs once nothing earlier on its stream, no CSBAR of its stream, no use of its weight table and not every
element's read holds it, and an earlier command on its stream holds it. An element of a CPY between two places of the party's scratchpad
tiles copies its run and no other byte, once no earlier command has the rows; an element that fails its check parks the command at it, once
every lower one is transferred; while a lower one is ready and not transferred, neither happens. A command with every element transferred
leaves, with the increment added to its counter in local memory; a CSBAR leaves once no earlier command stands on its streams. At the head
of the matrix queue MZERO clears its accumulator and its saturation bit, MMA sums the rest of a row by K-groups, inside M × N, changes
nothing outside and leaves with its last row, and an MMAV releases its Courier command. An engine fault is delivered to its thread as the
trap 0x40 + c at rule 31, with its element and stream. (R67, R68, R208, R292, R295, R296, R297, R311, R320, R328, R329, R332.) -/
def Obligations.EngineEvents : Prop :=
  (∀ (s : State) (seq : Nat) (c : Cmd), s.cmdOf seq = some c → c.st = .posted → (∀ m, c.kind ≠ .csbar m) →
    ((∀ d ∈ s.cmds, d.seq < c.seq → d.onStream c.stream = false ∧ d.barsStream c.stream = false) → s.tableHeld c = false →
      (c.kind.count = 0 ∨ ∃ e, e < c.kind.count ∧ s.readHeld c e = false) →
      exec (.courierBeginPerforming seq) s = .next (s.setCmd { c with st := .performing })) ∧
    ((∃ d ∈ s.cmds, d.seq < c.seq ∧ d.onStream c.stream = true) → exec (.courierBeginPerforming seq) s = .next s)) ∧
  (∀ (s : State) (seq e : Nat) (c : Cmd), s.cmdOf seq = some c → c.st = .performing → c.ready = [] → e < c.kind.count → e ∉ c.xfer →
    (∀ k, k < e → k ∈ c.xfer) →
    (∀ (da sa : Word) (n0 n1 n2 : Nat) (ds1 ss1 ds2 ss2 : Word) (so dof : Nat), c.kind = .cpy da sa n0 n1 n2 ds1 ss1 ds2 ss2 →
      runStart sa ss1 ss2 n1 e = winBase + so → runStart da ds1 ds2 n1 e = winBase + dof →
      so + n0 ≤ s.spTop c.asThread → dof + n0 ≤ s.spTop c.asThread → (∀ i, i < n0 → so + i ∉ s.spPoison) →
      s.readHeld c e = false → s.rangeHeld c.seq [] (c.kind.elemWrites e) = false →
      ∃ u c', exec (.courierElementTransfer seq e) s = .next u ∧ c' ∈ u.cmds ∧ c'.seq = seq ∧ c'.xfer = e :: c.xfer ∧
        (∀ i, i < n0 → Memory.get u.sp (dof + i) = Memory.get s.sp (so + i)) ∧
        (∀ a, Outside dof n0 a → Memory.get u.sp a = Memory.get s.sp a) ∧ u.mem = s.mem ∧ u.threads = s.threads) ∧
    (∀ f, e ≤ f → f < c.kind.count → f ∉ c.xfer →
      (∀ cause a, s.prep c e = .fault cause a → s.posterLives c = true → exec (.courierElementTransfer seq f) s =
        .next (s.setCmd { c with st := .parked cause e (BitVec.ofNat 64 a) false false })) ∧
      (s.prep c e = .wait → exec (.courierElementTransfer seq f) s = .next s)) ∧
    (∀ (f : Nat) (v : State) (bytes : List Byte) (dst : List Loc) (cause : BitVec 8) (a : Nat) (cause' : BitVec 8) (a' : Nat), e < f →
      f < c.kind.count → f ∉ c.xfer → (∀ k, e < k → k < f → k ∈ c.xfer) → s.prep c e = .ok v bytes dst → s.prep c f = .fault cause a →
      v.prep { c with ready := [{ elem := e, va := s.destVa c e, bytes := bytes, locs := dst }] } f = .fault cause' a' →
      exec (.courierElementTransfer seq f) s = .next s)) ∧
  (∀ (s : State) (seq : Nat) (c : Cmd), s.cmdOf seq = some c → c.bar = none →
    (c.st = .performing → (∀ m, c.kind ≠ .csbar m) → c.xfer.length = c.kind.count → s.cmdWritesOpen c = false →
      (c.counter = 0 → ∃ u, exec (.commandComplete seq) s = .next u ∧ u.cmds = s.cmds.filter (fun d => d.seq != c.seq) ∧
        u.mem = s.mem ∧ u.sp = s.sp ∧ u.threads = s.threads) ∧
      (∀ (s1 : State) (locs : List Loc) (l : Leaf) (pa : Nat), c.counter ≠ 0 →
        (s.setCmd { c with st := CmdState.adding }).counterCheck c.asThread true c.counter = .ok s1 locs (some l) →
        firstLoc locs = .home pa → (∀ k, k < 8 → pa + k ∉ s1.poison) →
        let s2 := s1.touch l true
        let old : Word := BitVec.ofNat 64 (leNat ((List.range 8).map (fun k => s2.finalByte (pa + k))))
        ∃ u, exec (.commandComplete seq) s = .next u ∧ (∀ d ∈ u.cmds, d.seq ≠ c.seq) ∧
          (∀ k, k < 8 → u.finalByte (pa + k) = (old + BitVec.ofNat 64 c.inc).extractLsb' (8 * k) 8) ∧
          (∀ a, Outside pa 8 a → u.finalByte a = s2.finalByte a) ∧ u.sp = s2.sp)) ∧
    (∀ m : BitVec 16, c.kind = .csbar m →
      ((∀ d ∈ s.cmds, d.seq < c.seq → ∀ k, k < 16 → m.getLsbD k = true → d.onStream k = false) →
        exec (.commandComplete seq) s = .next { s with cmds := s.cmds.filter (fun d => d.seq != c.seq) }) ∧
      ((∃ d ∈ s.cmds, d.seq < c.seq ∧ ∃ k, k < 16 ∧ m.getLsbD k = true ∧ d.onStream k = true) →
        exec (.commandComplete seq) s = .next s))) ∧
  (∀ (s : State) (c : MatCmd) (rest : List MatCmd), s.matQ = c :: rest →
    let outside (u : State) (a : Nat) (inA : Nat → Nat → Prop) : Prop := ∀ b row col, row < 256 → col < 256 → (b ≠ a ∨ ¬ inA row col) →
      u.accGet b row col = s.accGet b row col
    (∀ a fmt, c.op = .mzero a fmt → ∃ u, exec .matrixQueueServe s = .next u ∧ u.matQ = rest ∧
      (∀ row col, row < 256 → col < 256 → u.accGet a row col = 0) ∧ outside u a (fun _ _ => True) ∧
      (∀ h : a < 4, (u.accSat.get ⟨a, h⟩) = false) ∧ u.sp = s.sp ∧ u.mem = s.mem ∧ u.threads = s.threads) ∧
    (∀ a x y p, c.op = .mma a x y p → p.ok = true → c.done < p.m * p.groups →
      let m := c.done / p.groups
      let first := c.done % p.groups
      let rest' := if (m + 1) * p.groups = p.m * p.groups then rest else { c with done := (m + 1) * p.groups } :: rest
      let summed (z : BitVec 32) (f : BitVec 32 → Nat → BitVec 32) : BitVec 32 := (List.range (p.groups - first)).foldl (fun v i => f v (first + i)) z
      (s.rangeHeld c.seq (p.groupReads x y m first) [] = true → exec .matrixQueueServe s = .next s) ∧
      ((∀ g, first ≤ g → g < p.groups → s.rangeHeld c.seq (p.groupReads x y m g) [] = false) → s.spPoison = [] → s.accPoison = [] →
        ∃ u, exec .matrixQueueServe s = .next u ∧ u.matQ = rest' ∧
          (∀ n, n < p.n →
            (p.acc = .fp32 → u.accGet a m n = summed (s.accGet a m n) (fun v g =>
              BitVec.ofNat 32 (fltGroup v.toNat ((kGroup p.k g).map (s.fltProduct x y p m n))))) ∧
            (p.acc ≠ .fp32 → u.accGet a m n = summed (s.accGet a m n) (fun v g =>
              BitVec.ofInt 32 (intGroup (Tag.i32.toInt v.toNat) ((kGroup p.k g).map (s.intProduct x y p m n))).1))) ∧
          outside u a (fun row col => row = m ∧ col < p.n) ∧ u.sp = s.sp ∧ u.mem = s.mem ∧ u.threads = s.threads)) ∧
    (∀ q, c.op = .mmav q → ∃ u, exec .matrixQueueServe s = .next u ∧ u.matQ = rest ∧
      u.cmds = s.cmds.map (fun d => if d.seq = q ∧ d.st = .queued then { d with st := .posted } else d))) ∧
  (∀ (s : State) (sl : Slot) (stream e : Nat) (cause : BitVec 8) (a : Word) (k : Ctx), s.engineReady sl = true →
    (s.th sl).drain = false → s.ctxOf (s.th sl).ctx = some k → k.entry ≠ 0 → (s.th sl).vec.window = [] → lowestStream (s.engFaults sl) = some (stream, cause, e, a) →
    ∃ u, exec (.engineFaultDelivery sl) s = .next u ∧ (u.th sl).level = .supervisor ∧ (u.th sl).cfg.trapcause = 0x40 + cause ∧
      (u.th sl).cfg.traprule = 31 ∧ (u.th sl).cfg.trapaddr = a.setWidth 56 ∧ (u.th sl).pc = k.entry ∧
      (u.th sl).cfg.epc.toNat = (s.th sl).pc.toNat % 2 ^ 56 / 4 * 4 ∧
      (u.th sl).cfg.cestart = BitVec.ofNat 32 e ∧ (u.th sl).cfg.cestream = BitVec.ofNat 4 stream)

/-- With room in the chain, the next record of the feed at the head enters and its pass through the active banks joins the chain (or is
dropped); with every stage empty the record is unchanged and routed to the overflow spool. A written field holds the value clamped to its
range. A waiting re-entry enters before a fed record; a PKSWAP exchanges exactly the banks of its mask. At the end of a pass a record with
RC below its fourth pass re-enters; any other, unless the rows of an earlier command hold it, is appended to its spool and counted, and a
full spool is counted and sends it to the overflow spool or, that being full, counts it lost. PKLOAD writes its shadow bank once no older
record remains, PKCFG installs its configuration with zero counts once the chain is empty, and each waits otherwise. GRANT_WAIT_END,
BARRIER_WAIT_END (of a party that is all on this core) and WAITC_COUNTER_READ let the waiting word run again; QUARTER_MOVE_DONE raises Q by
1. (R220, R235, R253, R323, R373, R379, R380, R381, R382, R383, R384, R387.) -/
def Obligations.TurnpikeAndWaitEvents : Prop :=
  (∀ (f : PkField) (rcd : List Byte) (v : Int), f.off + f.width ≤ rcd.length →
    let w := 8 * f.width
    let lo : Int := if f.sgn then -(2 ^ (w - 1)) else 0
    let hi : Int := if f.sgn then 2 ^ (w - 1) - 1 else 2 ^ w - 1
    f.read (f.write rcd v) = max lo (min hi v) ∧ (f.write rcd v).length = rcd.length ∧
      ∀ i, (i < f.off ∨ f.off + f.width ≤ i) → (f.write rcd v)[i]? = rcd[i]?) ∧
  (∀ (k : Pike) (rcd : List Byte) (route : Nat), (∀ i, i < 12 → (k.conf.stage i).kind = .none) →
    (k.pass rcd route).bytes = rcd ∧ (k.pass rcd route).route = route ∧ (k.pass rcd route).gone = false ∧ (k.pass rcd route).pike = k) ∧
  (∀ (s : State) (c : PikeCmd) (rest : List PikeCmd),
    let k := s.pike
    let enters (u : State) (k' : Pike) (rcd : List Byte) (pass route feed : Nat) : Prop :=
      let p := k'.pass rcd route
      u.pike.queue = k'.queue ∧ u.pike.reentry = k'.reentry ∧ u.sp = s.sp ∧ u.mem = s.mem ∧ u.threads = s.threads ∧
      (p.gone = true → u.pike.chain = k.chain) ∧ (p.gone = false → u.pike.chain = k.chain ++
        [{ bytes := p.bytes, pass := pass, route := p.route, rc := p.rc, drop := false, feed := feed, epoch := k.epoch }])
    k.queue = c :: rest →
      (∀ a n next rsz sp, k.chain.length < 12 → c.op = .feed a n next rsz sp →
        (k.reentry = [] → s.rangeHeld c.seq c.op.reads [] = false → s.spPoison = [] →
          let c' : PikeCmd := { c with op := .feed a n (next + 1) rsz sp }
          let k' := { k with queue := if n ≤ next + 1 then rest else c' :: rest, feeds := if n ≤ next + 1 then k.feeds ++ [c'] else k.feeds }
          ∃ u, exec .turnpikeEntry s = .next u ∧
            enters u k' (Memory.getList s.sp (a + next * recSize rsz) (recSize rsz)) 1 k.conf.ovf c.seq) ∧
        (∀ r more, k.reentry = r :: more →
          ∃ u, exec .turnpikeEntry s = .next u ∧ enters u { k with reentry := more } r.bytes r.pass r.route r.feed)) ∧
      (∀ m, k.chain.length < 12 → c.op = .swap m → k.reentry = [] →
        ∃ u, exec .turnpikeEntry s = .next u ∧ u.pike.queue = rest ∧ u.pike.chain = k.chain ∧ u.sp = s.sp ∧ u.mem = s.mem ∧
          ∀ i, i < 12 → listGet .clear u.pike.active i = listGet .clear (if m.getLsbD i then k.shadow else k.active) i ∧
            listGet .clear u.pike.shadow i = listGet .clear (if m.getLsbD i then k.active else k.shadow) i) ∧
      (∀ n b, c.op = .load n b →
        ((∀ r ∈ k.chain, listGet 0 k.swapped n ≤ r.epoch) →
          exec .pkloadPerform s = .next { s with pike := { k with queue := rest, shadow := listSet k.shadow n b } }) ∧
        ((∃ r ∈ k.chain, r.epoch < listGet 0 k.swapped n) → exec .pkloadPerform s = .next s)) ∧
      (∀ g, c.op = .cfg g →
        (k.chain = [] → k.reentry = [] → ∃ u, exec .pkcfgPerform s = .next u ∧ u = { s with pike := u.pike } ∧ u.pike.conf = g ∧
          u.pike.queue = rest ∧ (∀ q, listGet 0 u.pike.spoolCnt q = 0 ∧ listGet 0 u.pike.misses q = 0 ∧ listGet 0 u.pike.counters q = 0) ∧
          u.pike.drops = 0 ∧ u.pike.overp = 0 ∧ u.pike.full = 0 ∧ u.pike.lost = 0) ∧
        ((k.chain ≠ [] ∨ k.reentry ≠ []) → exec .pkcfgPerform s = .next s))) ∧
  (∀ (s : State) (r : PkRec) (rest : List PkRec), s.pike.chain = r :: rest → s.leaveHeld r = false →
    let k := s.pike
    let put (u : State) (q : Nat) : Prop :=
      let n := listGet 0 k.spoolCnt q
      let at_ := (k.conf.spool q).base + n * r.bytes.length
      (∀ i, i < r.bytes.length → Memory.get u.sp (at_ + i) = r.bytes.getD i 0) ∧
      (∀ a, Outside at_ r.bytes.length a → Memory.get u.sp a = Memory.get s.sp a) ∧
      (q < k.spoolCnt.length → listGet 0 u.pike.spoolCnt q = n + 1) ∧ u.pike.chain = rest ∧ u.mem = s.mem
    let o := k.conf.ovf
    (r.rc = true → r.pass < 4 → ∃ u, exec .turnpikePassEnd s = .next u ∧ u.pike.chain = rest ∧ u.sp = s.sp ∧
      u.pike.reentry = k.reentry ++ [{ r with pass := r.pass + 1, rc := false }]) ∧
    (r.rc = false → k.spoolFull r.route = false → ∃ u, exec .turnpikePassEnd s = .next u ∧ put u r.route ∧ u.pike.full = k.full) ∧
    (r.rc = true → 4 ≤ r.pass → k.spoolFull o = false →
      ∃ u, exec .turnpikePassEnd s = .next u ∧ put u o ∧ u.pike.overp = satInc k.overp) ∧
    (r.rc = false → k.spoolFull r.route = true →
      (r.route ≠ o → k.spoolFull o = false → ∃ u, exec .turnpikePassEnd s = .next u ∧ put u o ∧ u.pike.full = satInc k.full) ∧
      (k.spoolFull o = true → ∃ u, exec .turnpikePassEnd s = .next u ∧ u.sp = s.sp ∧ u.pike.full = satInc k.full ∧
        u.pike.lost = satInc k.lost ∧ u.pike.spoolCnt = k.spoolCnt))) ∧
  (∀ (s : State) (sl : Slot), (s.th sl).occupied = true → (s.th sl).stalled = true →
    let again : Host.Outcome State Fault Refusal := .next (s.setTh sl { s.th sl with stalled := false })
    (s.grantWaits sl none = false → exec (.grantWaitEnd sl) s = again) ∧
    ((s.th sl).arrival = none → exec (.waitcCounterRead sl) s = again ∧
      ((∀ p, s.partyOf (s.th sl).party = some p → p.remote = 0) → exec (.barrierWaitEnd sl) s = again)) ∧
    (∀ x, (s.th sl).arrival = some x → (x.report.isSome = true → exec (.barrierWaitEnd sl) s = again) ∧
      (x.report = none → (∃ p, s.partyOf (s.th sl).party = some p ∧ p.remote = 0) → exec (.barrierWaitEnd sl) s = .next s))) ∧
  (∀ (s : State) (sl : Slot), (s.th sl).occupied = true → s.qcore < (s.th sl).cfg.qreq →
    ∃ u, exec .quarterMoveDone s = .next u ∧ u.qcore = s.qcore + 1 ∧ u.threads = s.threads ∧ (∀ a, u.finalByte a = s.finalByte a))

/-- A vector load element whose checks pass on local memory, and which no earlier scalar access in the issue queue holds back, takes the
bytes as they finally stand and waits to land; a store element writes its bytes and is done; a failing element records its fault. Writing a
line back moves exactly its dirty bytes to the home store, a clean line is discarded, and a prefetch fills a line that the cache may hold
and has room for, none of which changes a byte as it is seen. The end of a page copy puts the old page's bytes in the new frame and rewrites
the leaf with the frame, A and D set, COW, LOCK and HOST clear. A base-die atomic, also of a peer or of the host, replaces exactly its word
by the operation of R84. A peer's reply or the host's completion answers its request, the energy of an atomic being debited to the context
of its waybill, and a request without a route fails, a write being dropped and counted. A host write lands at WSEL × 64 GiB + its offset,
and a VF's access out of its reach is counted. (R153, R157, R345, R346, R347, R348, R353, R357, R372, R390, R391, R399.) -/
def Obligations.MemoryAndRequestEvents : Prop :=
  (∀ (s s1 : State) (sl : Slot) (r : Rule) (post : List Rule) (m : MemSpec) (e pa : Nat) (va : Word) (l : Leaf),
    let t := s.th sl
    let n := memWidth r m
    let locs : List Loc := (List.range n).map (fun i => .home (pa + i))
    let rule (u : State) (q : Rule) : Prop := ∃ rest, (u.th sl).vec.window = q :: rest ∧ q.rid = r.rid ∧ q.instr = r.instr
    t.occupied = true → t.held = false → t.vec.window = r :: post → r.spec.kind = .mem m → m.lane = false →
    s.accessible sl r m e = some va → (∀ q ∈ s.reqs, q.who ≠ .element sl r.rid e) →
    (∀ c a, (m.mode = .faultFirst → e = 0) → s.checkElem t m.elKind va.toNat n = .fault c a →
      ∃ u q, exec (.elementAccess sl 0 e) s = .next u ∧ rule u q ∧ u.mem = s.mem ∧ u.sp = s.sp ∧
        q.faults = r.faults ++ [{ elem := e, cause := c, addr := if m.mode = .faultFirst then va else BitVec.ofNat 64 a }]) ∧
    (s.checkElem t m.elKind va.toNat n = .ok s1 locs [(l, va.toNat)] →
      s1.queueHoldsElem t (t.ruleAge r) locs (!m.writes || m.elKind.amo.isSome) m.writes = false →
      (m.dir = .load → t.earlyAt (.rule r.rid) locs = none → let s2 := s1.touch l false
        ∃ u q, exec (.elementAccess sl 0 e) s = .next u ∧ rule u q ∧ (∀ a, u.finalByte a = s2.finalByte a) ∧ u.sp = s2.sp ∧
          ∃ x : Landing, q.flight = r.flight ++ [x] ∧ x.elem = e ∧
            x.bits = BitVec.ofNat 64 (leNat ((List.range n).map (fun i => s2.finalByte (pa + i))))) ∧
      (m.dir = .store → pteCow l.e = false → let s2 := s1.touch l true
        ∃ u q, exec (.elementAccess sl 0 e) s = .next u ∧ rule u q ∧ (e < 8192 → q.done.getLsbD e = true) ∧ u.sp = s2.sp ∧
          (∀ i, i < n → u.finalByte (pa + i) = BitVec.ofNat 8 ((storeRes t.vec r m e).bits / 256 ^ i)) ∧
          (∀ a, Outside pa n a → u.finalByte a = s2.finalByte a)))) ∧
  (∀ (s : State) (n : Nat),
    let same (u : State) : Prop := (∀ a, u.seenByte a = s.seenByte a) ∧ (∀ a, u.finalByte a = s.finalByte a) ∧ u.threads = s.threads
    (∀ l, s.findLine n = some l →
      (l.dirty ≠ 0 → ∃ u, exec (.lineWriteback n) s = .next u ∧ exec (.dirtyLineTimeout n) s = .next u ∧ same u ∧
        u.findLine n = some { l with dirty := 0 } ∧
        (∀ i, i < 64 → u.homeByte (64 * n + i) = if l.dirty.getLsbD i then l.byte i else s.homeByte (64 * n + i)) ∧
        (∀ a, a / 64 ≠ n → u.homeByte a = s.homeByte a)) ∧
      (l.dirty = 0 → exec (.lineDiscard n) s = .next (s.dropLine n) ∧ exec (.cleanLineTimeout n) s = .next (s.dropLine n) ∧
        ∀ a, (s.dropLine n).finalByte a = s.finalByte a)) ∧
    (s.findLine n = none → s.mayHold n = true → ∃ u, exec (.linePrefetch n) s = .next u ∧ (∀ a, u.finalByte a = s.finalByte a) ∧
      u.threads = s.threads ∧ (s.lines.length < s.lineMax → same u ∧ u.mem = s.mem ∧ ∃ l, u.findLine n = some l ∧ l.dirty = 0 ∧
        ∀ i, i < 64 → l.byte i = s.homeByte (64 * n + i)))) ∧
  (∀ (s : State) (c : Cow), s.cows.find? (fun d => d.leaf == c.leaf) = some c → c.tol = false →
    s.isLocal (c.old + 2 ^ 16 - 1) = true → (∀ k, k < 8 → Outside c.frame (2 ^ 16) (c.leaf + k)) →
    let old : Word := BitVec.ofNat 64 (leNat ((List.range 8).map (fun k => s.finalByte (c.leaf + k))))
    ∃ u e, exec (.cowCopyDone c.leaf) s = .next u ∧ (∀ i, i < 2 ^ 16 → u.finalByte (c.frame + i) = s.finalByte (c.old + i)) ∧
      e = (old &&& ~~~(0x010FFFFFFFFFE300#64)) ||| BitVec.ofNat 64 (c.frame / 2 ^ 13 * 2 ^ 13) ||| 0xC0#64 ∧
      (∀ k, k < 8 → u.finalByte (c.leaf + k) = e.extractLsb' (8 * k) 8) ∧ u.cows = s.cows.filter (fun d => d.leaf != c.leaf) ∧
      (∀ a, Outside c.frame (2 ^ 16) a → Outside c.leaf 8 a → u.finalByte a = s.finalByte a)) ∧
  (∀ (s : State) (op : AmoOp) (wide : Bool) (pa : Nat) (b cmp : Word),
    let n := if wide then 8 else 4
    let old : Word := BitVec.ofNat 64 (leNat ((List.range n).map (fun k => s.finalByte (pa + k))))
    let swapped (i : Instr) : Prop := ∃ u, exec i s = .next u ∧ u.threads = s.threads ∧
      (∀ k, k < n → u.finalByte (pa + k) = (amoNew op wide old b cmp).extractLsb' (8 * k) 8) ∧
      (∀ a, Outside pa n a → u.finalByte a = s.finalByte a)
    pa % n = 0 → s.allLocal pa n = true → (∀ k, k < n → pa + k ∉ s.poison) →
      swapped (.baseDieAtomic op wide pa b cmp) ∧
      (∀ ctx, s.canon pa = pa → swapped (.peerRequest ctx pa (.atomic op wide b cmp))) ∧
      (∀ (f : PcieFn) (off : Nat), f.fn = 0 → off + n ≤ 2 ^ 36 → off % n = 0 → pa = (s.fnOf f).wsel.toNat * 2 ^ 36 + off →
        (op = .add ∨ op = .swap ∨ op = .cas) → swapped (.hostAtomicop f .bar2 off op wide b cmp))) ∧
  (∀ (s : State) (ctx : BitVec 12) (pa : Nat) (bs : List Byte), s.allLocal (s.canon pa) bs.length = true →
    let b := s.canon pa
    ∃ u, exec (.peerRequest ctx pa (.write bs)) s = .next u ∧ u.threads = s.threads ∧
      (∀ i, i < bs.length → u.homeByte (b + i) = bs.getD i 0) ∧ (∀ a, Outside b bs.length a → u.finalByte a = s.finalByte a) ∧
      ((∀ l ∈ s.lines, 64 * l.line + 64 ≤ b ∨ b + bs.length ≤ 64 * l.line) → ∀ i, i < bs.length → u.finalByte (b + i) = bs.getD i 0)) ∧
  (∀ (s : State) (r : Req) (data : Word), s.reqOf r.id = some r → r.open_ = true → (∀ q ∈ s.reqs, ∀ key i x, q.who ≠ .parked key i (some x)) →
    let answered (u : State) (st : ReqStatus) : Prop := u.reqs = s.reqs.map (fun q => if q.id = r.id then { q with status := st } else q) ∧
      u = { s with reqs := u.reqs }
    (r.toPeer = true → s.earlierReq r = false →
      (∀ bs, r.op = .write bs → exec (.peerReply r.id data) s =
        .next (if r.who.waits then (s.putHome r.pa bs).answer r (.answered 0) else (s.putHome r.pa bs).dropReq r.id)) ∧
      ((∀ bs, r.op ≠ .write bs) → ∃ u, exec (.peerReply r.id data) s = .next u ∧ u = { s with reqs := u.reqs, ctxs := u.ctxs, fresh := u.fresh } ∧
        (r.who = .posted → u.reqs = s.reqs.filter (fun q => q.id != r.id)) ∧
        (r.who ≠ .posted → u.reqs = s.reqs.map (fun q => if q.id = r.id then { q with status := .answered data } else q)) ∧
        ((∀ o w x y, r.op ≠ .atomic o w x y) → u.ctxs = s.ctxs) ∧
        (∀ o w x y c, r.op = .atomic o w x y → s.ctxOf (r.waybill.setWidth 12) = some c → ∃ n k, u.ctxOf c.num = some k ∧
          k.spent.toNat = min (2 ^ 32 - 1) (c.spent.toNat + n) ∧ ∀ m, m ≠ c.num → u.ctxOf m = s.ctxOf m))) ∧
    (r.toPeer = true →
      (∀ bs, r.op = .write bs → ∃ u, exec (.routeTimeout r.id) s = .next u ∧ u.mem = s.mem ∧
        (r.who.waits = false → u.reqs = s.reqs.filter (fun q => q.id != r.id)) ∧
        (r.who.waits = true → u.reqs = s.reqs.map (fun q => if q.id = r.id then { q with status := .failed } else q)) ∧
        (u.errs.get s.die.toFin).dropw = satInc (s.errs.get s.die.toFin).dropw) ∧
      ((∀ bs, r.op ≠ .write bs) → ∃ u, exec (.routeTimeout r.id) s = .next u ∧ answered u .failed)) ∧
    (hostBase ≤ r.pa → ∃ u, exec (.pcieCompletion r.id data) s = .next u ∧ answered u (.answered data))) ∧
  (∀ (s : State) (f : PcieFn) (off : Nat) (bs : List Byte),
    let pa := (s.fnOf f).wsel.toNat * 2 ^ 36 + off
    (f.fn = 0 → off + bs.length ≤ 2 ^ 36 → s.allLocal pa bs.length = true →
      exec (.hostBarAccess f .bar2 off (.write bs)) s = .next (s.putHome pa bs) ∧
      exec (.hostBarAccess f .bar2 off (.read bs.length)) s = .next s) ∧
    (f.fn ≠ 0 → (∀ base len, (s.fnOf f).mem = some (base, len) → ¬ (base ≤ pa ∧ pa + bs.length ≤ base + len)) →
      ∃ u d, exec (.hostBarAccess f .bar2 off (.write bs)) s = .next u ∧ exec (.hostBarAccess f .bar2 off (.read bs.length)) s = .next u ∧
        d = (if f.link = 0 then 0 else 3) ∧ u.mem = s.mem ∧ (u.errs.get d).ue = satInc (s.errs.get d).ue ∧
        ∀ op wide b cmp, bs.length = (if wide then 8 else 4) → exec (.hostAtomicop f .bar2 off op wide b cmp) s = .next u))

/-- The oldest record of the launch list and the next record of a post area whose TRIG has risen, if they name no counter, and a watched
record whose target its counter has reached, are dispatched; below its target a record stays. A dispatch of a well-formed direct record
makes a task with PCOUNT waiting parties, and one of a malformed record none. The first party in the order that can be placed on one slot,
its other cores being there (log entry 88), starts its thread at the binding's entry with its stack and TLS registers and with fresh state;
a pre-empted one whose image in the save area is as it was written goes on with its registers, pc and window. Aging raises the age of a
task's parties that began to wait together to at most 3, and the first party at priority 3 blocks placement. A victim at its boundary is
saved with its threads and frees its slots, its issue queue performed; its save done, it waits again. A party without threads and commands
leaves; its task counts one party less, and the last one completes it, once a release step at system scope has completed. The event of a
party that waits is its placement on other cores (log entry 88). (R209, R212, R264, R266, R267, R268, R269, R271, R272, R277, R281, R282.)
-/
def Obligations.InnkeeperEvents : Prop :=
  (∀ (s : State) (ctx : BitVec 12) (va : Word) (rest : List (BitVec 12 × Word)), s.launches = (ctx, va) :: rest →
    let s1 := ({ s with launches := rest } : State).innSeen ctx false va.toNat 128
    s1.recWord ctx va 0x10 = some 0 → exec .launchListTake s = .next (s1.dispatch ctx va 0)) ∧
  (∀ (s : State) (k : Nat) (a : PostArea) (next : Word), s.areas[k]? = some a → a.die = s.die.toNat → a.owed = 0 → a.last = 0 →
    let s1 := if a.phys then s else s.innSeen a.ctx false a.addr.toNat 16
    let s2 := s1.innSeen a.ctx false next.toNat 128
    s.areaWord a 0 = some (a.trig + 1) → s1.areaWord a 8 = some next → next ≠ 0 → s1.recordAt a.ctx next = true →
    s2.recWord a.ctx next 0x10 = some 0 → exec (.postAreaTake k) s =
      .next ((s2.dispatch a.ctx next 0).setArea k { a with trig := a.trig + 1, last := next, owed := 0 })) ∧
  (∀ (s : State) (w : Watch) (r : WaitRec) (x : Nat), s.watches = [w] → w.recs = [r] → s.unwatched = [] →
    let s1 := s.innSeen r.ctx false r.wctr.toNat 8
    s1.innRead r.ctx r.wctr.toNat 8 = .ok x →
    (x < r.wtgt.toNat → exec (.watchCounterRead 0) s = .next s1) ∧
    (r.wtgt.toNat ≤ x → exec (.watchCounterRead 0) s = .next (({ s1 with watches := [] } : State).dispatch r.ctx r.va r.wctr))) ∧
  (∀ (s : State) (ctx : BitVec 12) (va wctr : Word),
    let f := s.readTask ctx va
    let u := s.dispatch ctx va wctr
    (s.malformed ctx va f wctr = none → s.unplaceable f = false → f.indirect = false → f.pcount ≠ 0 →
      ∃ (k : Task) (ws : List WaitParty), u.tasks = s.tasks ++ [k] ∧ k.ctx = ctx ∧ k.va = va ∧ k.fields = f ∧ k.open_ = f.pcount.toNat ∧ k.faulted = false ∧
        u.waiting = s.waiting ++ ws ∧ ws.length = f.pcount.toNat ∧ u.threads = s.threads ∧
        ∀ (i : Nat) (w : WaitParty), ws[i]? = some w → w.task = k.key ∧ w.pidx = i ∧ w.age = 0 ∧ w.saved = none) ∧
    (∀ c, s.malformed ctx va f wctr = some c → u.tasks = s.tasks ∧ u.waiting = s.waiting ∧ u.threads = s.threads)) ∧
  (∀ (s : State) (w : WaitParty) (more : List WaitParty) (k : Task) (sl : Slot), s.coreReady = true → s.order = w :: more →
    s.canPlace w = some [sl] → s.taskOf w.task = some k → (k.fields.ncore ≤ 1 ∨ Config.freeChoice s.fresh = true) →
    let s' : State := { s with waiting := s.waiting.filter (fun v => v.key != w.key)
                               fresh := if s.order.any s.wide then s.fresh + s.order.length else s.fresh }
    (∀ ver entry, w.saved = none → 1 ≤ k.fields.ncore → k.fields.two = false → k.fields.isEngine = false →
      s'.bindingEntry k = some (ver, entry) → ∃ u p pos, exec .partyPlace s = .next u ∧ pos < k.fields.ncore ∧
        u.parties = s.parties ++ [p] ∧ p.key = w.key ∧ p.live = [pos] ∧ p.remote = k.fields.ncore - 1 ∧ u.waiting = s'.waiting ∧
        let g := w.pidx * k.fields.ncore + pos
        (u.th sl).occupied = true ∧ (u.th sl).party = w.key ∧ (u.th sl).ctx = k.ctx ∧ (u.th sl).level = .user ∧
        (u.th sl).pc = BitVec.ofNat 64 entry ∧ (u.th sl).cfg.ptidx = BitVec.ofNat 7 pos ∧ (u.th sl).cfg.pidx = BitVec.ofNat 32 w.pidx ∧
        (u.th sl).sregs.get 31 = BitVec.ofNat 64 (k.fields.stack.toNat + (g + 1) * k.fields.stksz) ∧
        (u.th sl).sregs.get 29 = BitVec.ofNat 64 (k.fields.tls.toNat + g * k.fields.tlssz) ∧ (u.th sl).vec.window = [] ∧
        u.th (other sl) = s.th (other sl)) ∧
    (∀ v from_ t, w.saved = some v → v.threads = [(from_, t)] → v.engine = none → s.partyOf w.key = none →
      s'.windowKept k.ctx (v.base + k.fields.sectionAt [t] 1) t = true →
      ∃ u p, exec .partyPlace s = .next u ∧ u.parties.map (fun q => q.key) = s.parties.map (fun q => q.key) ++ [w.key] ∧
        p ∈ u.parties ∧ p.key = w.key ∧ p.live = [t.cfg.ptidx.toNat] ∧ u.waiting = s'.waiting ∧
        (u.th sl).sregs = t.sregs ∧ (u.th sl).pc = t.pc ∧ (u.th sl).vec = (t.repost s.seq).vec ∧ (u.th sl).level = t.level)) ∧
  (∀ (s : State) (task : Nat), (∃ w ∈ s.waiting, w.task = task) → ∃ u n, exec (.priorityAging task) s = .next u ∧
    (∃ w ∈ s.waiting, w.task = task ∧ w.stamp = n) ∧ u = { s with fresh := u.fresh, waiting := s.waiting.map (fun w =>
      if w.task = task ∧ w.stamp = n then { w with age := min 3 (w.age + 1) } else w) }) ∧
  (∀ (s : State) (w : WaitParty) (more : List WaitParty), s.order = w :: more → s.effPrio w = 3 →
    exec (.firstPartyBlocksPlacement w.key) s =
      .next { s with waiting := s.waiting.map (fun v => if v.key = w.key then { v with blocks := true } else v) }) ∧
  (∀ (s : State) (p : Party) (k : Task), p.key ∈ s.victims → s.partyOf p.key = some p → s.taskOf p.task = some k →
    let aged : State := { s with fresh := s.fresh + 2 * s.parties.length }
    let d := aged.stopThreads (s.slotsOf p.key)
    k.fields.isEngine = false → s.reqs = [] → d.reqs = [] →
    (∀ sl ∈ s.slotsOf p.key, (s.th sl).vec.window = [] ∧ (s.th sl).found = none ∧ aged.engineReady sl = false ∧ aged.stoppable sl = true) →
    ∃ u q v, exec (.preemption p.key) s = .next u ∧ (∀ sl ∈ s.slotsOf p.key, (u.th sl).occupied = false) ∧ q ∈ u.parties ∧
      q.key = p.key ∧ q.saving = some v ∧ v.threads.map (fun x => x.1) = s.slotsOf p.key ∧
      (∀ sl t, (sl, t) ∈ v.threads → t.pc = (d.th sl).pc ∧ t.sregs = (d.th sl).sregs ∧ t.vec = (if (d.th sl).held then (d.th sl).squash.vec else (d.th sl).squash.vec.anew) ∧
        t.cfg = (d.th sl).cfg ∧ t.queue = [] ∧ t.early = []) ∧
      (∀ a, u.homeByte a = d.finalByte a)) ∧
  (∀ (s : State) (p : Party) (k : Task) (v : Saved), s.partyOf p.key = some p → s.taskOf p.task = some k → p.saving = some v →
    ∃ u w, exec (.partySaveDone p.key) s = .next u ∧ u.parties = s.parties.filter (fun q => q.key != p.key) ∧
      u.waiting = s.waiting ++ [w] ∧ w.key = p.key ∧ w.task = p.task ∧ w.pidx = p.pidx ∧ w.barriers = p.barriers ∧ w.age = 0 ∧
      w.saved = some v) ∧
  (∀ (s : State) (p : Party) (k : Task), s.partyOf p.key = some p → s.taskOf p.task = some k → p.live = [] → p.saving = none → p.remote = 0 →
    s.enginesDone p.key = true →
    (2 ≤ k.open_ → ∃ u, exec (.partyEnd p.key) s = .next u ∧ u.parties = s.parties.filter (fun q => q.key != p.key) ∧
      u.taskOf k.key = some { k with open_ := k.open_ - 1 } ∧ u.mem = s.mem ∧ u.threads = s.threads) ∧
    (k.open_ = 1 → k.faulted = false →
      let r := s.sysReleaseFor k.ctx
      (r.2 = false → exec (.partyEnd p.key) s = .next r.1) ∧
      (r.2 = true → ∃ u, exec (.partyEnd p.key) s = .next u ∧
        u.parties = s.parties.filter (fun q => q.key != p.key) ∧ u.tasks = s.tasks.filter (fun q => q.key != k.key) ∧
        (k.fields.dctr = 0 → u = ({ r.1 with parties := u.parties, tasks := u.tasks } : State).putTaskState k.ctx k.va 4)))) ∧
  (∀ (s : State) (w : WaitParty) (k : Task), s.partyOf w.key = none → s.waiting.find? (fun v => v.key == w.key) = some w →
    s.taskOf w.task = some k → k.started = true → s.ready = true → s.mayPlace w = true →
    ∃ u p, exec (.partyEnd w.key) s = .next u ∧ u.parties = s.parties ++ [p] ∧ p.key = w.key ∧ p.live = [] ∧ 
      (w.saved = none → p.remote = k.fields.ncore * k.fields.perCore) ∧ u.waiting = s.waiting.filter (fun v => v.key != w.key) ∧
      u.threads = s.threads ∧ u.mem = s.mem)

/-- An interval clears SPENT, sets G to 8 and frees the parties that a purse has held back; a debit adds to SPENT and sets G to 8, 6, 3 or 1
by the fractions of R237. Droop halves EFF until it ends, and the clock moves one step toward EFF. An idle core that is no steward is gated
with its dirty bytes written back and its core memories zero; a wake queues it and the ramp readies it. A correctable error is counted once
at its die, unless it stands for an uncorrectable one that persists (a free choice where it marks: log entry 110); a thread's only lane
stays in service; any other marked lane no thread holds is retired at once, a held one is only marked, and a marked core is retired once
idle. A link halves or widens in the states of R398; a fault takes it down, sets LINKDOWN and aborts with code 1 each undecided transaction
with a flit over it, and so does a fault of another module's link (the reply 4096 + m, log entry 75); training restores it. A target's reply
is awaited no more, and a refusal before the decision, by any module that holds a store, gives code 4. RESET leaves no context, no party and
free slots (what else it keeps is the model's choice: log entry 49). (R237, R239, R392, R398, R399, R403, R405, R406, R407, R410, R411,
R412.) -/
def Obligations.PowerAndLinkEvents : Prop :=
  (∀ s : State, exec .purseInterval s =
    .next { s with ctxs := s.ctxs.map (fun c => { c with spent := 0, g := 8 }), waiting := s.waiting.map (fun w => { w with held := false }) }) ∧
  (∀ (s : State) (c : Ctx) (uj : BitVec 32), s.ctxOf c.num = some c → c.spent.toNat + uj.toNat < 2 ^ 32 →
    let n := c.spent.toNat + uj.toNat
    let b := c.budget.toNat
    ∃ u k, exec (.energyDebit c.num uj) s = .next u ∧ u = { s with ctxs := u.ctxs } ∧ u.ctxOf c.num = some k ∧ k.spent.toNat = n ∧
      k.budget = c.budget ∧ ((b = 0 ∨ 8 * n < 7 * b) → k.g = 8) ∧ (7 * b ≤ 8 * n → n < b → k.g = 6) ∧
      (b ≤ n → 4 * n < 5 * b → k.g = 3) ∧ (0 < b → 5 * b ≤ 4 * n → k.g = 1) ∧ ∀ m, m ≠ c.num → u.ctxOf m = s.ctxOf m) ∧
  (∀ s : State,
    (s.droop = false → exec .droopDetect s = .next { s with droop := true } ∧ exec .droopEnd s = .next s ∧
      ({ s with droop := true } : State).eff = s.eff / 2) ∧
    (s.droop = true → exec .droopDetect s = .next s ∧ exec .droopEnd s = .next { s with droop := false }) ∧
    (∃ u, exec .clockStep s = .next u ∧ u = { s with clock := u.clock } ∧ (s.clock.toNat < s.eff → u.clock.toNat = s.clock.toNat + 1) ∧
      (s.eff < s.clock.toNat → u.clock.toNat + 1 = s.clock.toNat) ∧ (s.clock.toNat = s.eff → u.clock = s.clock)) ∧
    (s.idle = true → s.gate = .on → s.cidx.toNat < 48 → ∃ u, exec .coreGate s = .next u ∧ u.gate = .gated ∧ u.lines = [] ∧
      (∀ a, u.homeByte a = s.finalByte a) ∧ (∀ a, Memory.get u.sp a = 0 ∧ Memory.get u.tables a = 0) ∧ ∀ a r c, u.accGet a r c = 0) ∧
    ((s.idle = false ∨ 48 ≤ s.cidx.toNat) → exec .coreGate s = .next s) ∧
    (s.gate = .gated → exec .wakeRequest s = .next { s with gate := .queued }) ∧ (s.gate = .on → exec .wakeRequest s = .next s) ∧
    (s.gate = .queued → exec .wakeRampDone s = .next { s with gate := .on }) ∧
    (∃ u, exec .reset s = .next u ∧ u.ctxs = [] ∧ u.parties = [] ∧ u.cmds = [] ∧ u.testmax = s.testmax ∧ u.ready = bootSlot.isSome ∧
      u.agenda = s.agenda ∧ ∀ sl, (u.th sl).occupied = false)) ∧
  (∀ (s : State) (die : Fin 4) (site : ErrSite) (marks : Bool),
    let here : Prop := die = s.die.toFin
    ∃ u, exec (.correctableError die site marks) s = .next u ∧ ((u.errs.get die).ce = satInc (s.errs.get die).ce ∨
        (marks = true ∧ (u.errs.get die).ce = (s.errs.get die).ce)) ∧
      (∀ d, d ≠ die → (u.errs.get d).ce = (s.errs.get d).ce) ∧ u.mem = s.mem ∧ u.sp = s.sp ∧
      (marks = false → u = { s with errs := u.errs }) ∧
      (marks = true → here → site = .core → u.coreMarked = true) ∧
      (marks = true → site = .channel → s.chMarked < 256 → u.chMarked = s.chMarked + 1) ∧
      (∀ k, marks = true → here → site = .lane k → s.goodLanes.getLsbD k.val = true → s.onlyLane k = false →
        u.goodLanes.getLsbD k.val = false ∧
        ((∀ sl, (s.th sl).occupied = false) → u.laneRetired.getLsbD k.val = true) ∧
        ((∃ sl, (s.th sl).occupied = true ∧ (s.th sl).cfg.lmap.getLsbD k.val = true) → u.laneRetired.getLsbD k.val = false)) ∧
      (∀ k, marks = true → here → site = .lane k → s.goodLanes.getLsbD k.val = true → s.onlyLane k = true →
        u.goodLanes = s.goodLanes ∧ u.laneLast.getLsbD k.val = true)) ∧
  (∀ s : State, s.coreMarked = true → s.coreRetired = false →
    (s.idle = true → ∃ u, exec .coreRetire s = .next u ∧ u.coreRetired = true ∧ u.replace = true ∧
      (u.errs.get s.die.toFin).cret = (s.errs.get s.die.toFin).cret + 1) ∧
    (s.idle = false → exec .coreRetire s = .next s)) ∧
  (∀ (s : State) (k : Fin 18),
    let l := s.linkOf k
    (l.up = true → l.changing = none →
      (2 < l.width → exec (.linkShed k) s = .next (s.setLink k { l with changing := some (l.width / 2) })) ∧
      (l.width ≤ 2 → exec (.linkShed k) s = .next s) ∧
      (l.width < 8 → exec (.linkWiden k) s = .next (s.setLink k { l with changing := some (2 * l.width) })) ∧
      (8 ≤ l.width → exec (.linkWiden k) s = .next s)) ∧
    (∀ w, l.changing = some w → exec (.linkWidthChangeDone k) s = .next (s.setLink k { l with width := w, changing := none })) ∧
    (l.up = true → ∃ u, exec (.linkFault k) s = .next u ∧ u.linkOf k = { l with up := false, down := true, changing := none } ∧
      (∀ j, j ≠ k → u.linkOf j = s.linkOf j) ∧ u.linkdown = true ∧ u.mem = s.mem ∧
      ∀ sl x, (s.th sl).txn = some x → x.code = 0 →
        (x.undecided = true → (∃ m ∈ s.targets x, s.routeCrosses m k = true) → ∃ y, (u.th sl).txn = some y ∧ y.code = 1) ∧
        (x.undecided = false → (u.th sl).txn = some x)) ∧
    (l.up = false → ∃ u, exec (.linkGainsTraining k) s = .next u ∧ u.linkOf k = { l with up := true, down := false, width := 8 } ∧
      (∀ j, j ≠ k → u.linkOf j = s.linkOf j) ∧ (u.linkdown = true ↔ ∃ j, (u.linkOf j).down = true))) ∧
  (∀ (s : State) (sl : Slot) (x : Txn) (target : Nat), (s.th sl).txn = some x → (s.th (other sl)).txn = none → target < 4096 →
    let less : Txn := { x with await := x.await.filter (fun m => m != target) }
    (x.phase = .phase1 → target ∈ x.await → ∃ u, exec (.xtTargetReply target true) s = .next u ∧ (u.th sl).txn = some less ∧ u.mem = s.mem) ∧
    (x.undecided = true → s.holdsStore x target = true →
      ∃ u y, exec (.xtTargetReply target false) s = .next u ∧ (u.th sl).txn = some y ∧ y.code = 4 ∧ u.mem = s.mem) ∧
    (∀ held, x.undecided = true → target ∈ s.targets x →
      ∃ u y, exec (.xtTargetReply (4096 + target) held) s = .next u ∧ (u.th sl).txn = some y ∧ y.code = 1 ∧ u.mem = s.mem) ∧
    (∀ held, x.phase = .phase2 → target ∈ x.await → ∃ u, exec (.xtTargetReply target held) s = .next u ∧ (u.th sl).txn = some less ∧
      u.mem = (s.applyStores x target).mem))

/-- An answer to a thread puts the status in s1 and the values in s2 on, leaves every other register and the vector side, and returns at
supervisor level to EPC after an acquire step; one to a mailbox writes STATUS and the values and adds 1 to DONESEQ. For a caller of its
class and arguments in range (in the forms that each clause names) each of the 19 functions completes with status 0, its values and its
effect; a caller outside the class of CTXNEW, PREPOL, FWINSET, LINKTEST, MLIMSET or CHCONFIRM gets status 3 with nothing changed.
Asynchronous work adds 1 to its counter, where that is in local memory, when it ends. The host's writes set WSEL, FN and the arguments, the
PF's write of 0 clears an error counter, a FetchAdd raises REQSEQ, which takes the request with FN and the arguments as they stand, and one
at DONESEQ changes nothing; a doubleword of the MSI-X table reads as it was written (its place is a free value: log entry 96); any function
reads READY, REPLACE, LINKDOWN and LINKUP as the module has them. (The firmware image and its keys are opaque: log entry 9.) (R266, R283,
R288, R374, R390, R405, R408, R419, R420, R421, R422, R423.) -/
def Obligations.FirmwareServices : Prop :=
  (∀ (s : State) (sl : Slot) (n st : Nat) (vals : List Word), (s.th sl).wait = some (.service n) → vals.length ≤ 3 →
    let t := s.th sl
    let v := s.reply (.device sl) st vals
    let u := v.th sl
    u.level = .supervisor ∧ u.pc = t.cfg.epc.setWidth 64 ∧ u.wait = none ∧ u.cfg = t.cfg ∧ u.vec = t.vec ∧ u.upper = t.upper ∧
    u.sregs.get 1 = BitVec.ofNat 64 st ∧ (∀ i (h : i < vals.length), u.sregs.get (Fin.ofNat 32 (2 + i)) = vals[i]) ∧
    (∀ r : Fin 32, (r.val = 0 ∨ 2 + vals.length ≤ r.val) → u.sregs.get r = t.sregs.get r) ∧ v.lines = [] ∧
    (∀ a, v.homeByte a = s.finalByte a) ∧ v.th (other sl) = s.th (other sl)) ∧
  (∀ (s : State) (f : PcieFn) (st : Nat) (vals : List Word), vals.length ≤ 3 →
    let m := (s.fnOf f).mbox
    let m' := ((s.reply (.mailbox f) st vals).fnOf f).mbox
    m'.status = BitVec.ofNat 64 st ∧ m'.doneseq = m.doneseq + 1 ∧ m'.fn = m.fn ∧ m'.args = m.args ∧ m'.reqseq = m.reqseq ∧
    ∀ i : Fin 3, m'.vals.get i = if h : i.val < vals.length then vals[i.val] else m.vals.get i) ∧
  (∀ (s : State) (c : Caller) (args : List Word),
    let arg (k : Nat) : Word := listGet 0 args (k - 1)
    let num (k : Nat) : Nat := (arg k).toNat
    let served (i : Instr) (st : Nat) (vals : List Word) (P : State → Prop) : Prop := ∃ u, exec i s = .next (u.reply c st vals) ∧ P u
    let asks (n : Nat) : Prop := s.callArgs c n = some args
    let refused (i : Instr) : Prop := s.classP c = false → served i 3 [] (fun u => u = s)
    (asks 0x00 → served (.info c) 0 [BitVec.ofNat 64 (leNat (imageBytes bootImage 8 4)), 3, s.module_.setWidth 64] (fun u => u = s)) ∧
    (asks 0x01 → refused (.ctxnew c) ∧ (s.classP c = true → num 1 % 2 ^ 13 = 0 → s.canon (num 1) = num 1 → s.isLocal (num 1 + 8191) = true →
      num 2 < 2 ^ 56 → num 2 % 4 = 0 → num 3 < 2 →
      (∀ k, s.freeCtx = some k → served (.ctxnew c) 0 [k.setWidth 64] (fun u => ∃ x, u.ctxs = s.ctxs ++ [x] ∧ x.num = k ∧ x.root = num 1 ∧
        x.entry = arg 2 ∧ x.fw = Config.firmwareEntry k ∧ x.priv = decide (num 3 = 1) ∧ x.owner.fn = 0 ∧ x.budget = 0 ∧ u.threads = s.threads ∧ u.mem = s.mem)) ∧
      (s.freeCtx = none → served (.ctxnew c) 4 [] (fun u => u = s)))) ∧
    (∀ x, asks 0x02 → s.ctxArg c (arg 1) = .ok x → arg 2 = 0 →
      let s1 := s.settleSlots (fun t => t.ctx == x.num)
      served (.ctxend c) 0 [] (fun u => u.ctxs = s1.ctxs.filter (fun y => y.num != x.num) ∧
        u.works = s1.works ++ [{ counter := none, waybill := x.num, fn := x.owner.fn.val }])) ∧
    (∀ r, asks 0x03 → num 1 ≠ 0 → num 1 < 4096 → s.reports.find? (fun q => q.num == (arg 1).setWidth 12) = some r →
      (s.classP c = true ∨ s.classS c r.num r.owner = true) → served (.ctxreport c) 0 [r.cause, r.addr, r.epc] (fun u => u = s)) ∧
    (∀ f, asks 0x04 → c = .mailbox f → num 1 < 4 → num 2 % 16 = 0 → s.canon (num 2) = num 2 → s.isLocal (num 2 + 15) = true →
      (∀ i, i < 8 → num 2 + i ∉ s.poison) → ∀ x, s.ownCtx c = some x →
      (s.areasOn (num 1) < 16 → s.watchRoom (num 1) = true →
        served (.postreg c) 0 [BitVec.ofNat 64 (s.areasOn (num 1) + 1)] (fun u => ∃ a, u.areas = s.areas ++ [a] ∧ a.die = num 1 ∧
          a.addr = arg 2 ∧ a.ctx = x.num ∧ a.owed = 0 ∧ a.last = 0 ∧
          a.trig = BitVec.ofNat 64 (leNat ((List.range 8).map (fun i => s.finalByte (num 2 + i)))))) ∧
      (16 ≤ s.areasOn (num 1) → served (.postreg c) 4 [] (fun u => u = s))) ∧
    (∀ sl a, asks 0x05 → c = .device sl → s.areas = [a] → a.die = num 1 → a.phys = false → a.addr = arg 2 → a.ctx = (s.th sl).ctx →
      (s.callerCtx c).isSome = true → num 1 ≠ s.die.toNat → served (.postunreg c) 0 [] (fun u => u = { s with areas := [] })) ∧
    (∀ d : Fin 4, asks 0x06 → refused (.prepol c) ∧ (s.classP c = true → num 1 = d.val → num 2 < 2 ^ 20 → served (.prepol c) 0 []
      (fun u => u = { s with policy := u.policy } ∧ u.policy.get d = arg 2 ∧ ∀ e, e ≠ d → u.policy.get e = s.policy.get e))) ∧
    (∀ (sl : Slot) (k : Fin 4), asks 0x07 → c = .device sl → num 1 = k.val → num 2 % 4 = 0 → num 2 < 2 ^ 56 → served (.bkset c) 0 []
      (fun u => u = s.setTh sl { s.th sl with breaks := (u.th sl).breaks } ∧
        (u.th sl).breaks.get k = (if arg 2 = 0 then none else some (arg 2, (s.th sl).ctx)) ∧
        ∀ j, j ≠ k → (u.th sl).breaks.get j = (s.th sl).breaks.get j)) ∧
    (∀ f bs w, asks 0x08 → refused (.fwinset c) ∧ (s.classP c = true → c = .mailbox f → num 1 ≤ 7 → num 2 ≤ 7 → num 3 % 8 = 0 →
      s.canon (num 3) = num 3 → s.isLocal (num 3 + 63) = true → (∀ i, i < 64 → num 3 + i ∉ s.poison) →
      bs = (List.range 64).map (fun i => s.finalByte (num 3 + i)) → parseWindow bs = (w, false) → w.en = false →
      s.fwins.length = 64 → served (.fwinset c) 0 [] (fun u => listGet w u.fwins (8 * num 1 + num 2) = w ∧ u.fwins.length = 64 ∧
        ∀ j, j ≠ 8 * num 1 + num 2 → listGet w u.fwins j = listGet w s.fwins j))) ∧
    (∀ k : Fin 18, asks 0x09 → refused (.linktest c) ∧ (s.classP c = true → num 1 = k.val → served (.linktest c) 0 []
      (fun u => u = s.setLink k { s.linkOf k with armed := true }))) ∧
    (asks 0x0A → refused (.mlimset c) ∧ (s.classP c = true → 400 ≤ num 1 → num 1 ≤ 3600 →
      (s.allBudgets ≤ num 1 * 1000 → served (.mlimset c) 0 [BitVec.ofNat 64 s.mlim] (fun u => u = { s with mlim := num 1 })) ∧
      (num 1 * 1000 < s.allBudgets → served (.mlimset c) 5 [] (fun u => u = s)))) ∧
    (∀ f, asks 0x0B → c = .mailbox f → f.fn = 0 → 1 ≤ num 1 → num 1 ≤ 3 → num 3 < 64 → served (.vecbind c) 0 []
      (fun u => u = { s with binds := u.binds } ∧ (∃ b ∈ u.binds, b.event = num 1 ∧ b.f = f ∧ b.vec = num 3) ∧
        ∀ b ∈ u.binds, b.event = num 1 → b.ctx = 0 → b.f = f → b.vec = num 3)) ∧
    (∀ f, asks 0x0E ∨ asks 0x0D ∨ asks 0x0C → c = .mailbox f →
      let out (i : Instr) (a : Word) (bs : List Byte) (v : Word) : Prop := s.canon a.toNat = a.toNat → s.isLocal (a.toNat + 4096) = true →
        served i 0 [v] (fun u => (∀ k, k < bs.length → u.finalByte (a.toNat + k) = bs.getD k 0) ∧
          (∀ k, Outside a.toNat bs.length k → u.finalByte k = s.finalByte k) ∧ u.threads = s.threads)
      (asks 0x0E → out (.speedtbl c) (arg 1) ((List.range 200).map s.speedByte) 200) ∧
      (asks 0x0D → out (.idkey c) (arg 1) (fitBytes 1312 Config.identityKey) 1312) ∧
      (asks 0x0C → s.canon (num 1) = num 1 → s.isLocal (num 1 + 31) = true → (∀ i, i < 32 → num 1 + i ∉ s.poison) →
        out (.attest c) (arg 2) (s.attestReport ((List.range 32).map (fun i => s.finalByte (num 1 + i)))) 2524)) ∧
    (∀ f, asks 0x0F → c = .mailbox f → num 1 ≤ 3 → num 2 ≤ 49 → arg 4 = 0 → s.canon (num 3) = num 3 → s.isLocal (num 3 + 15) = true →
      let e := listGet { count := 0, lsum := 0 } s.straggle (50 * num 1 + num 2)
      served (.straggle c) 0 [] (fun u => u.straggle = s.straggle ∧
        ∀ k, k < 16 → u.finalByte (num 3 + k) = (leBytes 8 e.count.toNat ++ leBytes 8 e.lsum.toNat).getD k 0)) ∧
    (∀ f (v : Fin 17), asks 0x10 → c = .mailbox f → f.fn = 0 → num 1 = v.val → v ≠ 0 → num 2 % 2 ^ 16 = 0 → num 3 % 2 ^ 16 = 0 →
      s.isLocal (num 2 + num 3 - 1) = true → served (.vfmem c) 0 []
        (fun u => (u.fnOf { link := f.link, fn := v }).mem = some (num 2, num 3) ∧ ∀ g, g ≠ { link := f.link, fn := v } → u.fnOf g = s.fnOf g)) ∧
    (asks 0x11 → refused (.chconfirm c) ∧ (s.classP c = true → num 1 = s.chret + 1 → num 1 ≤ s.chMarked → served (.chconfirm c) 0 []
      (fun u => u.chret = s.chret + 1 ∧ u.replace = true ∧ u.threads = s.threads ∧ u.mem = s.mem))) ∧
    (∀ f pa r, asks 0x12 → c = .mailbox f → num 1 = pa → pa % 128 = 0 → s.canon pa = pa → s.isLocal (pa + 127) = true →
      s.recAt (.home pa) = some r → s.mayAbort c r.1 = true → arg 2 = 0 → (s.abortRec r).unwatched = [] →
      served (.taskabort c) 0 [] (fun u => (∃ w : Work, w.counter = none ∧ w.waybill = r.1 ∧ u.works = (s.abortRec r).works ++ [w]) ∧
        u = { s.abortRec r with works := u.works } ∧
        (∀ k, s.tasks.find? (fun k => k.ctx == r.1 && k.va == r.2) = some k → (∀ q ∈ u.tasks, q.key ≠ k.key) ∧
          (∀ p ∈ u.parties, p.task ≠ k.key) ∧ ∀ w ∈ u.waiting, w.task ≠ k.key) ∧
        (s.tasks.find? (fun k => k.ctx == r.1 && k.va == r.2) = none → u.tasks = s.tasks ∧ u.launches = s.launches.filter (fun q => q != r) ∧
          u.threads = s.threads)))) ∧
  (∀ (s : State) (w : Work) (rest : List Work), s.works = w :: rest →
    (w.counter = none → exec .serviceWorkDone s = .next { s with works := rest }) ∧
    (∀ pa, w.counter = some pa → s.isLocal (pa + 7) = true → (∀ k, k < 8 → pa + k ∉ s.poison) →
      let old : Word := BitVec.ofNat 64 (leNat ((List.range 8).map (fun k => s.finalByte (pa + k))))
      ∃ u, exec .serviceWorkDone s = .next u ∧ u.works = rest ∧ u.threads = s.threads ∧
        (∀ k, k < 8 → u.finalByte (pa + k) = (old + 1).extractLsb' (8 * k) 8) ∧ ∀ a, Outside pa 8 a → u.finalByte a = s.finalByte a)) ∧
  (∀ (s : State) (f : PcieFn) (v : Word),
    (∃ u, exec (.registerWrite f 0x10 v) s = .next u ∧ (u.fnOf f).wsel = v.setWidth 3 ∧ (u.fnOf f).mbox = (s.fnOf f).mbox ∧
      ∀ g, g ≠ f → u.fnOf g = s.fnOf g) ∧
    (∃ u, exec (.registerWrite f 0x8000 v) s = .next u ∧ (u.fnOf f).mbox.fn = v &&& 0xFF ∧ (u.fnOf f).wsel = (s.fnOf f).wsel) ∧
    (∀ i : Fin 6, ∃ u, exec (.registerWrite f (0x8008 + 8 * i.val) v) s = .next u ∧ (u.fnOf f).mbox.args.get i = v ∧
      ∀ j, j ≠ i → (u.fnOf f).mbox.args.get j = (s.fnOf f).mbox.args.get j) ∧
    (∀ d : Fin 4, f.fn = 0 → v = 0 → ∃ u, exec (.registerWrite f (0x1000 + 0x100 * d.val) v) s = .next u ∧
      (u.errs.get d) = { s.errs.get d with ce := 0 } ∧ ∀ e, e ≠ d → u.errs.get e = s.errs.get e) ∧
    exec (.registerWrite f 0x0 v) s = .next s ∧ exec (.registerWrite f 0x8 v) s = .next s ∧
    (s.registerRead f 0x0).toNat = (if s.ready then 1 else 0) + (if s.replace then 2 else 0) + (if s.linkdown then 4 else 0) ∧
    (∀ k : Fin 18, (s.registerRead f 0x8).getLsbD k.val = (s.linkOf k).up) ∧
    (s.ready = false ∨ (s.fnOf f).mbox.fn.toNat < 0x13 → (s.fnOf f).mbox.call = none → ∃ u, exec (.hostAtomicop f .bar0 0x8080 .add true v 0) s = .next u ∧
      (u.fnOf f).mbox.reqseq = (s.fnOf f).mbox.reqseq + v ∧ (u.fnOf f).mbox.args = (s.fnOf f).mbox.args ∧
      ((s.fnOf f).mbox.reqseq + v ≠ (s.fnOf f).mbox.doneseq → (u.fnOf f).mbox.call = some ((s.fnOf f).mbox.fn, (s.fnOf f).mbox.args))) ∧
    exec (.hostAtomicop f .bar0 0x8088 .add true v 0) s = .next s ∧
    (∀ off vec half, msixAt f off = some (vec, half) → off % 8 = 0 → ∃ u, exec (.registerWrite f off v) s = .next u ∧ u.registerRead f off = v))

/-- In every state in which each thread of the machine (in a slot, being saved or saved) has a window of at most 24 rules and vector
registers of elements of 1, 2, 4 or 8 bytes, a step that answers a next state leaves all threads so; and the state after reset is such a
state. (R17, R178, R187, R248.) -/
def Obligations.StepKeepsVectorSides : Prop :=
  (∀ s t : State, s.vecOk = true → step s = .next t → t.vecOk = true) ∧ State.reset.vecOk = true
end

