-- ==== Sys2Proof/Laws/State.lean ====
section
/-! SUPPORT. One simp lemma per field of State for each named update of State, and the laws of reading a slot, a thread or an s
register after a write, so that no proof unfolds a record update. -/

namespace Sys2Proof.Machine

/-! ## State.setTh -/

@[simp] theorem State.setTh_agenda (s : State) (sl : Slot) (t : Thread) : (s.setTh sl t).agenda = s.agenda := rfl
@[simp] theorem State.setTh_fresh (s : State) (sl : Slot) (t : Thread) : (s.setTh sl t).fresh = s.fresh := rfl
@[simp] theorem State.setTh_cur (s : State) (sl : Slot) (t : Thread) : (s.setTh sl t).cur = s.cur := rfl
@[simp] theorem State.setTh_threads (s : State) (sl : Slot) (t : Thread) : (s.setTh sl t).threads = s.threads.set sl t := rfl
@[simp] theorem State.setTh_seq (s : State) (sl : Slot) (t : Thread) : (s.setTh sl t).seq = s.seq := rfl
@[simp] theorem State.setTh_lcnt0 (s : State) (sl : Slot) (t : Thread) : (s.setTh sl t).lcnt0 = s.lcnt0 := rfl
@[simp] theorem State.setTh_lcnt1 (s : State) (sl : Slot) (t : Thread) : (s.setTh sl t).lcnt1 = s.lcnt1 := rfl
@[simp] theorem State.setTh_droop (s : State) (sl : Slot) (t : Thread) : (s.setTh sl t).droop = s.droop := rfl
@[simp] theorem State.setTh_testmax (s : State) (sl : Slot) (t : Thread) : (s.setTh sl t).testmax = s.testmax := rfl
@[simp] theorem State.setTh_clock (s : State) (sl : Slot) (t : Thread) : (s.setTh sl t).clock = s.clock := rfl
@[simp] theorem State.setTh_cidx (s : State) (sl : Slot) (t : Thread) : (s.setTh sl t).cidx = s.cidx := rfl
@[simp] theorem State.setTh_die (s : State) (sl : Slot) (t : Thread) : (s.setTh sl t).die = s.die := rfl
@[simp] theorem State.setTh_module_ (s : State) (sl : Slot) (t : Thread) : (s.setTh sl t).module_ = s.module_ := rfl
@[simp] theorem State.setTh_qcore (s : State) (sl : Slot) (t : Thread) : (s.setTh sl t).qcore = s.qcore := rfl
@[simp] theorem State.setTh_laneMarked (s : State) (sl : Slot) (t : Thread) : (s.setTh sl t).laneMarked = s.laneMarked := rfl
@[simp] theorem State.setTh_laneLast (s : State) (sl : Slot) (t : Thread) : (s.setTh sl t).laneLast = s.laneLast := rfl
@[simp] theorem State.setTh_laneRetired (s : State) (sl : Slot) (t : Thread) : (s.setTh sl t).laneRetired = s.laneRetired := rfl
@[simp] theorem State.setTh_coreMarked (s : State) (sl : Slot) (t : Thread) : (s.setTh sl t).coreMarked = s.coreMarked := rfl
@[simp] theorem State.setTh_coreRetired (s : State) (sl : Slot) (t : Thread) : (s.setTh sl t).coreRetired = s.coreRetired := rfl
@[simp] theorem State.setTh_gate (s : State) (sl : Slot) (t : Thread) : (s.setTh sl t).gate = s.gate := rfl
@[simp] theorem State.setTh_lines (s : State) (sl : Slot) (t : Thread) : (s.setTh sl t).lines = s.lines := rfl
@[simp] theorem State.setTh_tlb (s : State) (sl : Slot) (t : Thread) : (s.setTh sl t).tlb = s.tlb := rfl
@[simp] theorem State.setTh_words (s : State) (sl : Slot) (t : Thread) : (s.setTh sl t).words = s.words := rfl
@[simp] theorem State.setTh_sp (s : State) (sl : Slot) (t : Thread) : (s.setTh sl t).sp = s.sp := rfl
@[simp] theorem State.setTh_tables (s : State) (sl : Slot) (t : Thread) : (s.setTh sl t).tables = s.tables := rfl
@[simp] theorem State.setTh_acc (s : State) (sl : Slot) (t : Thread) : (s.setTh sl t).acc = s.acc := rfl
@[simp] theorem State.setTh_accFmt (s : State) (sl : Slot) (t : Thread) : (s.setTh sl t).accFmt = s.accFmt := rfl
@[simp] theorem State.setTh_accSat (s : State) (sl : Slot) (t : Thread) : (s.setTh sl t).accSat = s.accSat := rfl
@[simp] theorem State.setTh_cmds (s : State) (sl : Slot) (t : Thread) : (s.setTh sl t).cmds = s.cmds := rfl
@[simp] theorem State.setTh_postFaults (s : State) (sl : Slot) (t : Thread) : (s.setTh sl t).postFaults = s.postFaults := rfl
@[simp] theorem State.setTh_wt (s : State) (sl : Slot) (t : Thread) : (s.setTh sl t).wt = s.wt := rfl
@[simp] theorem State.setTh_matQ (s : State) (sl : Slot) (t : Thread) : (s.setTh sl t).matQ = s.matQ := rfl
@[simp] theorem State.setTh_panels (s : State) (sl : Slot) (t : Thread) : (s.setTh sl t).panels = s.panels := rfl
@[simp] theorem State.setTh_pike (s : State) (sl : Slot) (t : Thread) : (s.setTh sl t).pike = s.pike := rfl
@[simp] theorem State.setTh_mem (s : State) (sl : Slot) (t : Thread) : (s.setTh sl t).mem = s.mem := rfl
@[simp] theorem State.setTh_poison (s : State) (sl : Slot) (t : Thread) : (s.setTh sl t).poison = s.poison := rfl
@[simp] theorem State.setTh_spPoison (s : State) (sl : Slot) (t : Thread) : (s.setTh sl t).spPoison = s.spPoison := rfl
@[simp] theorem State.setTh_ltPoison (s : State) (sl : Slot) (t : Thread) : (s.setTh sl t).ltPoison = s.ltPoison := rfl
@[simp] theorem State.setTh_accPoison (s : State) (sl : Slot) (t : Thread) : (s.setTh sl t).accPoison = s.accPoison := rfl
@[simp] theorem State.setTh_pool (s : State) (sl : Slot) (t : Thread) : (s.setTh sl t).pool = s.pool := rfl
@[simp] theorem State.setTh_cows (s : State) (sl : Slot) (t : Thread) : (s.setTh sl t).cows = s.cows := rfl
@[simp] theorem State.setTh_fwins (s : State) (sl : Slot) (t : Thread) : (s.setTh sl t).fwins = s.fwins := rfl
@[simp] theorem State.setTh_reqs (s : State) (sl : Slot) (t : Thread) : (s.setTh sl t).reqs = s.reqs := rfl
@[simp] theorem State.setTh_links (s : State) (sl : Slot) (t : Thread) : (s.setTh sl t).links = s.links := rfl
@[simp] theorem State.setTh_routeFaults (s : State) (sl : Slot) (t : Thread) : (s.setTh sl t).routeFaults = s.routeFaults := rfl
@[simp] theorem State.setTh_orphans (s : State) (sl : Slot) (t : Thread) : (s.setTh sl t).orphans = s.orphans := rfl
@[simp] theorem State.setTh_areas (s : State) (sl : Slot) (t : Thread) : (s.setTh sl t).areas = s.areas := rfl
@[simp] theorem State.setTh_launches (s : State) (sl : Slot) (t : Thread) : (s.setTh sl t).launches = s.launches := rfl
@[simp] theorem State.setTh_watches (s : State) (sl : Slot) (t : Thread) : (s.setTh sl t).watches = s.watches := rfl
@[simp] theorem State.setTh_unwatched (s : State) (sl : Slot) (t : Thread) : (s.setTh sl t).unwatched = s.unwatched := rfl
@[simp] theorem State.setTh_owed (s : State) (sl : Slot) (t : Thread) : (s.setTh sl t).owed = s.owed := rfl
@[simp] theorem State.setTh_tasks (s : State) (sl : Slot) (t : Thread) : (s.setTh sl t).tasks = s.tasks := rfl
@[simp] theorem State.setTh_waiting (s : State) (sl : Slot) (t : Thread) : (s.setTh sl t).waiting = s.waiting := rfl
@[simp] theorem State.setTh_parties (s : State) (sl : Slot) (t : Thread) : (s.setTh sl t).parties = s.parties := rfl
@[simp] theorem State.setTh_policy (s : State) (sl : Slot) (t : Thread) : (s.setTh sl t).policy = s.policy := rfl
@[simp] theorem State.setTh_straggle (s : State) (sl : Slot) (t : Thread) : (s.setTh sl t).straggle = s.straggle := rfl
@[simp] theorem State.setTh_ready (s : State) (sl : Slot) (t : Thread) : (s.setTh sl t).ready = s.ready := rfl
@[simp] theorem State.setTh_replace (s : State) (sl : Slot) (t : Thread) : (s.setTh sl t).replace = s.replace := rfl
@[simp] theorem State.setTh_linkdown (s : State) (sl : Slot) (t : Thread) : (s.setTh sl t).linkdown = s.linkdown := rfl
@[simp] theorem State.setTh_ctxs (s : State) (sl : Slot) (t : Thread) : (s.setTh sl t).ctxs = s.ctxs := rfl
@[simp] theorem State.setTh_reports (s : State) (sl : Slot) (t : Thread) : (s.setTh sl t).reports = s.reports := rfl
@[simp] theorem State.setTh_mlim (s : State) (sl : Slot) (t : Thread) : (s.setTh sl t).mlim = s.mlim := rfl
@[simp] theorem State.setTh_chret (s : State) (sl : Slot) (t : Thread) : (s.setTh sl t).chret = s.chret := rfl
@[simp] theorem State.setTh_chMarked (s : State) (sl : Slot) (t : Thread) : (s.setTh sl t).chMarked = s.chMarked := rfl
@[simp] theorem State.setTh_errs (s : State) (sl : Slot) (t : Thread) : (s.setTh sl t).errs = s.errs := rfl
@[simp] theorem State.setTh_hostfns (s : State) (sl : Slot) (t : Thread) : (s.setTh sl t).hostfns = s.hostfns := rfl
@[simp] theorem State.setTh_binds (s : State) (sl : Slot) (t : Thread) : (s.setTh sl t).binds = s.binds := rfl
@[simp] theorem State.setTh_raised (s : State) (sl : Slot) (t : Thread) : (s.setTh sl t).raised = s.raised := rfl
@[simp] theorem State.setTh_works (s : State) (sl : Slot) (t : Thread) : (s.setTh sl t).works = s.works := rfl
@[simp] theorem State.setTh_table (s : State) (sl : Slot) (t : Thread) : (s.setTh sl t).table = s.table := rfl
@[simp] theorem State.setTh_tableUsed (s : State) (sl : Slot) (t : Thread) : (s.setTh sl t).tableUsed = s.tableUsed := rfl

/-! ## State.dropScalar -/

@[simp] theorem State.dropScalar_agenda (s : State) (sl : Slot) : (s.dropScalar sl).agenda = s.agenda := rfl
@[simp] theorem State.dropScalar_fresh (s : State) (sl : Slot) : (s.dropScalar sl).fresh = s.fresh := rfl
@[simp] theorem State.dropScalar_cur (s : State) (sl : Slot) : (s.dropScalar sl).cur = s.cur := rfl
@[simp] theorem State.dropScalar_threads (s : State) (sl : Slot) : (s.dropScalar sl).threads = s.threads := rfl
@[simp] theorem State.dropScalar_seq (s : State) (sl : Slot) : (s.dropScalar sl).seq = s.seq := rfl
@[simp] theorem State.dropScalar_lcnt0 (s : State) (sl : Slot) : (s.dropScalar sl).lcnt0 = s.lcnt0 := rfl
@[simp] theorem State.dropScalar_lcnt1 (s : State) (sl : Slot) : (s.dropScalar sl).lcnt1 = s.lcnt1 := rfl
@[simp] theorem State.dropScalar_droop (s : State) (sl : Slot) : (s.dropScalar sl).droop = s.droop := rfl
@[simp] theorem State.dropScalar_testmax (s : State) (sl : Slot) : (s.dropScalar sl).testmax = s.testmax := rfl
@[simp] theorem State.dropScalar_clock (s : State) (sl : Slot) : (s.dropScalar sl).clock = s.clock := rfl
@[simp] theorem State.dropScalar_cidx (s : State) (sl : Slot) : (s.dropScalar sl).cidx = s.cidx := rfl
@[simp] theorem State.dropScalar_die (s : State) (sl : Slot) : (s.dropScalar sl).die = s.die := rfl
@[simp] theorem State.dropScalar_module_ (s : State) (sl : Slot) : (s.dropScalar sl).module_ = s.module_ := rfl
@[simp] theorem State.dropScalar_qcore (s : State) (sl : Slot) : (s.dropScalar sl).qcore = s.qcore := rfl
@[simp] theorem State.dropScalar_laneMarked (s : State) (sl : Slot) : (s.dropScalar sl).laneMarked = s.laneMarked := rfl
@[simp] theorem State.dropScalar_laneLast (s : State) (sl : Slot) : (s.dropScalar sl).laneLast = s.laneLast := rfl
@[simp] theorem State.dropScalar_laneRetired (s : State) (sl : Slot) : (s.dropScalar sl).laneRetired = s.laneRetired := rfl
@[simp] theorem State.dropScalar_coreMarked (s : State) (sl : Slot) : (s.dropScalar sl).coreMarked = s.coreMarked := rfl
@[simp] theorem State.dropScalar_coreRetired (s : State) (sl : Slot) : (s.dropScalar sl).coreRetired = s.coreRetired := rfl
@[simp] theorem State.dropScalar_gate (s : State) (sl : Slot) : (s.dropScalar sl).gate = s.gate := rfl
@[simp] theorem State.dropScalar_lines (s : State) (sl : Slot) : (s.dropScalar sl).lines = s.lines := rfl
@[simp] theorem State.dropScalar_tlb (s : State) (sl : Slot) : (s.dropScalar sl).tlb = s.tlb := rfl
@[simp] theorem State.dropScalar_words (s : State) (sl : Slot) : (s.dropScalar sl).words = s.words := rfl
@[simp] theorem State.dropScalar_sp (s : State) (sl : Slot) : (s.dropScalar sl).sp = s.sp := rfl
@[simp] theorem State.dropScalar_tables (s : State) (sl : Slot) : (s.dropScalar sl).tables = s.tables := rfl
@[simp] theorem State.dropScalar_acc (s : State) (sl : Slot) : (s.dropScalar sl).acc = s.acc := rfl
@[simp] theorem State.dropScalar_accFmt (s : State) (sl : Slot) : (s.dropScalar sl).accFmt = s.accFmt := rfl
@[simp] theorem State.dropScalar_accSat (s : State) (sl : Slot) : (s.dropScalar sl).accSat = s.accSat := rfl
@[simp] theorem State.dropScalar_cmds (s : State) (sl : Slot) : (s.dropScalar sl).cmds = s.cmds := rfl
@[simp] theorem State.dropScalar_postFaults (s : State) (sl : Slot) : (s.dropScalar sl).postFaults = s.postFaults := rfl
@[simp] theorem State.dropScalar_wt (s : State) (sl : Slot) : (s.dropScalar sl).wt = s.wt := rfl
@[simp] theorem State.dropScalar_matQ (s : State) (sl : Slot) : (s.dropScalar sl).matQ = s.matQ := rfl
@[simp] theorem State.dropScalar_panels (s : State) (sl : Slot) : (s.dropScalar sl).panels = s.panels := rfl
@[simp] theorem State.dropScalar_pike (s : State) (sl : Slot) : (s.dropScalar sl).pike = s.pike := rfl
@[simp] theorem State.dropScalar_mem (s : State) (sl : Slot) : (s.dropScalar sl).mem = s.mem := rfl
@[simp] theorem State.dropScalar_poison (s : State) (sl : Slot) : (s.dropScalar sl).poison = s.poison := rfl
@[simp] theorem State.dropScalar_spPoison (s : State) (sl : Slot) : (s.dropScalar sl).spPoison = s.spPoison := rfl
@[simp] theorem State.dropScalar_ltPoison (s : State) (sl : Slot) : (s.dropScalar sl).ltPoison = s.ltPoison := rfl
@[simp] theorem State.dropScalar_accPoison (s : State) (sl : Slot) : (s.dropScalar sl).accPoison = s.accPoison := rfl
@[simp] theorem State.dropScalar_pool (s : State) (sl : Slot) : (s.dropScalar sl).pool = s.pool := rfl
@[simp] theorem State.dropScalar_cows (s : State) (sl : Slot) : (s.dropScalar sl).cows = s.cows := rfl
@[simp] theorem State.dropScalar_fwins (s : State) (sl : Slot) : (s.dropScalar sl).fwins = s.fwins := rfl
@[simp] theorem State.dropScalar_reqs (s : State) (sl : Slot) : (s.dropScalar sl).reqs = s.reqs.filter (fun r => !(r.who == .scalar sl)) := rfl
@[simp] theorem State.dropScalar_links (s : State) (sl : Slot) : (s.dropScalar sl).links = s.links := rfl
@[simp] theorem State.dropScalar_routeFaults (s : State) (sl : Slot) : (s.dropScalar sl).routeFaults = s.routeFaults := rfl
@[simp] theorem State.dropScalar_orphans (s : State) (sl : Slot) : (s.dropScalar sl).orphans = s.orphans := rfl
@[simp] theorem State.dropScalar_areas (s : State) (sl : Slot) : (s.dropScalar sl).areas = s.areas := rfl
@[simp] theorem State.dropScalar_launches (s : State) (sl : Slot) : (s.dropScalar sl).launches = s.launches := rfl
@[simp] theorem State.dropScalar_watches (s : State) (sl : Slot) : (s.dropScalar sl).watches = s.watches := rfl
@[simp] theorem State.dropScalar_unwatched (s : State) (sl : Slot) : (s.dropScalar sl).unwatched = s.unwatched := rfl
@[simp] theorem State.dropScalar_owed (s : State) (sl : Slot) : (s.dropScalar sl).owed = s.owed := rfl
@[simp] theorem State.dropScalar_tasks (s : State) (sl : Slot) : (s.dropScalar sl).tasks = s.tasks := rfl
@[simp] theorem State.dropScalar_waiting (s : State) (sl : Slot) : (s.dropScalar sl).waiting = s.waiting := rfl
@[simp] theorem State.dropScalar_parties (s : State) (sl : Slot) : (s.dropScalar sl).parties = s.parties := rfl
@[simp] theorem State.dropScalar_policy (s : State) (sl : Slot) : (s.dropScalar sl).policy = s.policy := rfl
@[simp] theorem State.dropScalar_straggle (s : State) (sl : Slot) : (s.dropScalar sl).straggle = s.straggle := rfl
@[simp] theorem State.dropScalar_ready (s : State) (sl : Slot) : (s.dropScalar sl).ready = s.ready := rfl
@[simp] theorem State.dropScalar_replace (s : State) (sl : Slot) : (s.dropScalar sl).replace = s.replace := rfl
@[simp] theorem State.dropScalar_linkdown (s : State) (sl : Slot) : (s.dropScalar sl).linkdown = s.linkdown := rfl
@[simp] theorem State.dropScalar_ctxs (s : State) (sl : Slot) : (s.dropScalar sl).ctxs = s.ctxs := rfl
@[simp] theorem State.dropScalar_reports (s : State) (sl : Slot) : (s.dropScalar sl).reports = s.reports := rfl
@[simp] theorem State.dropScalar_mlim (s : State) (sl : Slot) : (s.dropScalar sl).mlim = s.mlim := rfl
@[simp] theorem State.dropScalar_chret (s : State) (sl : Slot) : (s.dropScalar sl).chret = s.chret := rfl
@[simp] theorem State.dropScalar_chMarked (s : State) (sl : Slot) : (s.dropScalar sl).chMarked = s.chMarked := rfl
@[simp] theorem State.dropScalar_errs (s : State) (sl : Slot) : (s.dropScalar sl).errs = s.errs := rfl
@[simp] theorem State.dropScalar_hostfns (s : State) (sl : Slot) : (s.dropScalar sl).hostfns = s.hostfns := rfl
@[simp] theorem State.dropScalar_binds (s : State) (sl : Slot) : (s.dropScalar sl).binds = s.binds := rfl
@[simp] theorem State.dropScalar_raised (s : State) (sl : Slot) : (s.dropScalar sl).raised = s.raised := rfl
@[simp] theorem State.dropScalar_works (s : State) (sl : Slot) : (s.dropScalar sl).works = s.works := rfl
@[simp] theorem State.dropScalar_table (s : State) (sl : Slot) : (s.dropScalar sl).table = s.table := rfl
@[simp] theorem State.dropScalar_tableUsed (s : State) (sl : Slot) : (s.dropScalar sl).tableUsed = s.tableUsed := rfl

/-! ## State.dropReq -/

@[simp] theorem State.dropReq_agenda (s : State) (i : Nat) : (s.dropReq i).agenda = s.agenda := rfl
@[simp] theorem State.dropReq_fresh (s : State) (i : Nat) : (s.dropReq i).fresh = s.fresh := rfl
@[simp] theorem State.dropReq_cur (s : State) (i : Nat) : (s.dropReq i).cur = s.cur := rfl
@[simp] theorem State.dropReq_threads (s : State) (i : Nat) : (s.dropReq i).threads = s.threads := rfl
@[simp] theorem State.dropReq_seq (s : State) (i : Nat) : (s.dropReq i).seq = s.seq := rfl
@[simp] theorem State.dropReq_lcnt0 (s : State) (i : Nat) : (s.dropReq i).lcnt0 = s.lcnt0 := rfl
@[simp] theorem State.dropReq_lcnt1 (s : State) (i : Nat) : (s.dropReq i).lcnt1 = s.lcnt1 := rfl
@[simp] theorem State.dropReq_droop (s : State) (i : Nat) : (s.dropReq i).droop = s.droop := rfl
@[simp] theorem State.dropReq_testmax (s : State) (i : Nat) : (s.dropReq i).testmax = s.testmax := rfl
@[simp] theorem State.dropReq_clock (s : State) (i : Nat) : (s.dropReq i).clock = s.clock := rfl
@[simp] theorem State.dropReq_cidx (s : State) (i : Nat) : (s.dropReq i).cidx = s.cidx := rfl
@[simp] theorem State.dropReq_die (s : State) (i : Nat) : (s.dropReq i).die = s.die := rfl
@[simp] theorem State.dropReq_module_ (s : State) (i : Nat) : (s.dropReq i).module_ = s.module_ := rfl
@[simp] theorem State.dropReq_qcore (s : State) (i : Nat) : (s.dropReq i).qcore = s.qcore := rfl
@[simp] theorem State.dropReq_laneMarked (s : State) (i : Nat) : (s.dropReq i).laneMarked = s.laneMarked := rfl
@[simp] theorem State.dropReq_laneLast (s : State) (i : Nat) : (s.dropReq i).laneLast = s.laneLast := rfl
@[simp] theorem State.dropReq_laneRetired (s : State) (i : Nat) : (s.dropReq i).laneRetired = s.laneRetired := rfl
@[simp] theorem State.dropReq_coreMarked (s : State) (i : Nat) : (s.dropReq i).coreMarked = s.coreMarked := rfl
@[simp] theorem State.dropReq_coreRetired (s : State) (i : Nat) : (s.dropReq i).coreRetired = s.coreRetired := rfl
@[simp] theorem State.dropReq_gate (s : State) (i : Nat) : (s.dropReq i).gate = s.gate := rfl
@[simp] theorem State.dropReq_lines (s : State) (i : Nat) : (s.dropReq i).lines = s.lines := rfl
@[simp] theorem State.dropReq_tlb (s : State) (i : Nat) : (s.dropReq i).tlb = s.tlb := rfl
@[simp] theorem State.dropReq_words (s : State) (i : Nat) : (s.dropReq i).words = s.words := rfl
@[simp] theorem State.dropReq_sp (s : State) (i : Nat) : (s.dropReq i).sp = s.sp := rfl
@[simp] theorem State.dropReq_tables (s : State) (i : Nat) : (s.dropReq i).tables = s.tables := rfl
@[simp] theorem State.dropReq_acc (s : State) (i : Nat) : (s.dropReq i).acc = s.acc := rfl
@[simp] theorem State.dropReq_accFmt (s : State) (i : Nat) : (s.dropReq i).accFmt = s.accFmt := rfl
@[simp] theorem State.dropReq_accSat (s : State) (i : Nat) : (s.dropReq i).accSat = s.accSat := rfl
@[simp] theorem State.dropReq_cmds (s : State) (i : Nat) : (s.dropReq i).cmds = s.cmds := rfl
@[simp] theorem State.dropReq_postFaults (s : State) (i : Nat) : (s.dropReq i).postFaults = s.postFaults := rfl
@[simp] theorem State.dropReq_wt (s : State) (i : Nat) : (s.dropReq i).wt = s.wt := rfl
@[simp] theorem State.dropReq_matQ (s : State) (i : Nat) : (s.dropReq i).matQ = s.matQ := rfl
@[simp] theorem State.dropReq_panels (s : State) (i : Nat) : (s.dropReq i).panels = s.panels := rfl
@[simp] theorem State.dropReq_pike (s : State) (i : Nat) : (s.dropReq i).pike = s.pike := rfl
@[simp] theorem State.dropReq_mem (s : State) (i : Nat) : (s.dropReq i).mem = s.mem := rfl
@[simp] theorem State.dropReq_poison (s : State) (i : Nat) : (s.dropReq i).poison = s.poison := rfl
@[simp] theorem State.dropReq_spPoison (s : State) (i : Nat) : (s.dropReq i).spPoison = s.spPoison := rfl
@[simp] theorem State.dropReq_ltPoison (s : State) (i : Nat) : (s.dropReq i).ltPoison = s.ltPoison := rfl
@[simp] theorem State.dropReq_accPoison (s : State) (i : Nat) : (s.dropReq i).accPoison = s.accPoison := rfl
@[simp] theorem State.dropReq_pool (s : State) (i : Nat) : (s.dropReq i).pool = s.pool := rfl
@[simp] theorem State.dropReq_cows (s : State) (i : Nat) : (s.dropReq i).cows = s.cows := rfl
@[simp] theorem State.dropReq_fwins (s : State) (i : Nat) : (s.dropReq i).fwins = s.fwins := rfl
@[simp] theorem State.dropReq_reqs (s : State) (i : Nat) : (s.dropReq i).reqs = s.reqs.filter (fun r => r.id != i) := rfl
@[simp] theorem State.dropReq_links (s : State) (i : Nat) : (s.dropReq i).links = s.links := rfl
@[simp] theorem State.dropReq_routeFaults (s : State) (i : Nat) : (s.dropReq i).routeFaults = s.routeFaults := rfl
@[simp] theorem State.dropReq_orphans (s : State) (i : Nat) : (s.dropReq i).orphans = s.orphans := rfl
@[simp] theorem State.dropReq_areas (s : State) (i : Nat) : (s.dropReq i).areas = s.areas := rfl
@[simp] theorem State.dropReq_launches (s : State) (i : Nat) : (s.dropReq i).launches = s.launches := rfl
@[simp] theorem State.dropReq_watches (s : State) (i : Nat) : (s.dropReq i).watches = s.watches := rfl
@[simp] theorem State.dropReq_unwatched (s : State) (i : Nat) : (s.dropReq i).unwatched = s.unwatched := rfl
@[simp] theorem State.dropReq_owed (s : State) (i : Nat) : (s.dropReq i).owed = s.owed := rfl
@[simp] theorem State.dropReq_tasks (s : State) (i : Nat) : (s.dropReq i).tasks = s.tasks := rfl
@[simp] theorem State.dropReq_waiting (s : State) (i : Nat) : (s.dropReq i).waiting = s.waiting := rfl
@[simp] theorem State.dropReq_parties (s : State) (i : Nat) : (s.dropReq i).parties = s.parties := rfl
@[simp] theorem State.dropReq_policy (s : State) (i : Nat) : (s.dropReq i).policy = s.policy := rfl
@[simp] theorem State.dropReq_straggle (s : State) (i : Nat) : (s.dropReq i).straggle = s.straggle := rfl
@[simp] theorem State.dropReq_ready (s : State) (i : Nat) : (s.dropReq i).ready = s.ready := rfl
@[simp] theorem State.dropReq_replace (s : State) (i : Nat) : (s.dropReq i).replace = s.replace := rfl
@[simp] theorem State.dropReq_linkdown (s : State) (i : Nat) : (s.dropReq i).linkdown = s.linkdown := rfl
@[simp] theorem State.dropReq_ctxs (s : State) (i : Nat) : (s.dropReq i).ctxs = s.ctxs := rfl
@[simp] theorem State.dropReq_reports (s : State) (i : Nat) : (s.dropReq i).reports = s.reports := rfl
@[simp] theorem State.dropReq_mlim (s : State) (i : Nat) : (s.dropReq i).mlim = s.mlim := rfl
@[simp] theorem State.dropReq_chret (s : State) (i : Nat) : (s.dropReq i).chret = s.chret := rfl
@[simp] theorem State.dropReq_chMarked (s : State) (i : Nat) : (s.dropReq i).chMarked = s.chMarked := rfl
@[simp] theorem State.dropReq_errs (s : State) (i : Nat) : (s.dropReq i).errs = s.errs := rfl
@[simp] theorem State.dropReq_hostfns (s : State) (i : Nat) : (s.dropReq i).hostfns = s.hostfns := rfl
@[simp] theorem State.dropReq_binds (s : State) (i : Nat) : (s.dropReq i).binds = s.binds := rfl
@[simp] theorem State.dropReq_raised (s : State) (i : Nat) : (s.dropReq i).raised = s.raised := rfl
@[simp] theorem State.dropReq_works (s : State) (i : Nat) : (s.dropReq i).works = s.works := rfl
@[simp] theorem State.dropReq_table (s : State) (i : Nat) : (s.dropReq i).table = s.table := rfl
@[simp] theorem State.dropReq_tableUsed (s : State) (i : Nat) : (s.dropReq i).tableUsed = s.tableUsed := rfl

/-! ## State.putHome -/

@[simp] theorem State.putHome_agenda (s : State) (pa : Nat) (bs : List Byte) : (s.putHome pa bs).agenda = s.agenda := rfl
@[simp] theorem State.putHome_fresh (s : State) (pa : Nat) (bs : List Byte) : (s.putHome pa bs).fresh = s.fresh := rfl
@[simp] theorem State.putHome_cur (s : State) (pa : Nat) (bs : List Byte) : (s.putHome pa bs).cur = s.cur := rfl
@[simp] theorem State.putHome_threads (s : State) (pa : Nat) (bs : List Byte) : (s.putHome pa bs).threads = s.threads := rfl
@[simp] theorem State.putHome_seq (s : State) (pa : Nat) (bs : List Byte) : (s.putHome pa bs).seq = s.seq := rfl
@[simp] theorem State.putHome_lcnt0 (s : State) (pa : Nat) (bs : List Byte) : (s.putHome pa bs).lcnt0 = s.lcnt0 := rfl
@[simp] theorem State.putHome_lcnt1 (s : State) (pa : Nat) (bs : List Byte) : (s.putHome pa bs).lcnt1 = s.lcnt1 := rfl
@[simp] theorem State.putHome_droop (s : State) (pa : Nat) (bs : List Byte) : (s.putHome pa bs).droop = s.droop := rfl
@[simp] theorem State.putHome_testmax (s : State) (pa : Nat) (bs : List Byte) : (s.putHome pa bs).testmax = s.testmax := rfl
@[simp] theorem State.putHome_clock (s : State) (pa : Nat) (bs : List Byte) : (s.putHome pa bs).clock = s.clock := rfl
@[simp] theorem State.putHome_cidx (s : State) (pa : Nat) (bs : List Byte) : (s.putHome pa bs).cidx = s.cidx := rfl
@[simp] theorem State.putHome_die (s : State) (pa : Nat) (bs : List Byte) : (s.putHome pa bs).die = s.die := rfl
@[simp] theorem State.putHome_module_ (s : State) (pa : Nat) (bs : List Byte) : (s.putHome pa bs).module_ = s.module_ := rfl
@[simp] theorem State.putHome_qcore (s : State) (pa : Nat) (bs : List Byte) : (s.putHome pa bs).qcore = s.qcore := rfl
@[simp] theorem State.putHome_laneMarked (s : State) (pa : Nat) (bs : List Byte) : (s.putHome pa bs).laneMarked = s.laneMarked := rfl
@[simp] theorem State.putHome_laneLast (s : State) (pa : Nat) (bs : List Byte) : (s.putHome pa bs).laneLast = s.laneLast := rfl
@[simp] theorem State.putHome_laneRetired (s : State) (pa : Nat) (bs : List Byte) : (s.putHome pa bs).laneRetired = s.laneRetired := rfl
@[simp] theorem State.putHome_coreMarked (s : State) (pa : Nat) (bs : List Byte) : (s.putHome pa bs).coreMarked = s.coreMarked := rfl
@[simp] theorem State.putHome_coreRetired (s : State) (pa : Nat) (bs : List Byte) : (s.putHome pa bs).coreRetired = s.coreRetired := rfl
@[simp] theorem State.putHome_gate (s : State) (pa : Nat) (bs : List Byte) : (s.putHome pa bs).gate = s.gate := rfl
@[simp] theorem State.putHome_lines (s : State) (pa : Nat) (bs : List Byte) : (s.putHome pa bs).lines = s.lines := rfl
@[simp] theorem State.putHome_tlb (s : State) (pa : Nat) (bs : List Byte) : (s.putHome pa bs).tlb = s.tlb := rfl
@[simp] theorem State.putHome_words (s : State) (pa : Nat) (bs : List Byte) : (s.putHome pa bs).words = s.words := rfl
@[simp] theorem State.putHome_sp (s : State) (pa : Nat) (bs : List Byte) : (s.putHome pa bs).sp = s.sp := rfl
@[simp] theorem State.putHome_tables (s : State) (pa : Nat) (bs : List Byte) : (s.putHome pa bs).tables = s.tables := rfl
@[simp] theorem State.putHome_acc (s : State) (pa : Nat) (bs : List Byte) : (s.putHome pa bs).acc = s.acc := rfl
@[simp] theorem State.putHome_accFmt (s : State) (pa : Nat) (bs : List Byte) : (s.putHome pa bs).accFmt = s.accFmt := rfl
@[simp] theorem State.putHome_accSat (s : State) (pa : Nat) (bs : List Byte) : (s.putHome pa bs).accSat = s.accSat := rfl
@[simp] theorem State.putHome_cmds (s : State) (pa : Nat) (bs : List Byte) : (s.putHome pa bs).cmds = s.cmds := rfl
@[simp] theorem State.putHome_postFaults (s : State) (pa : Nat) (bs : List Byte) : (s.putHome pa bs).postFaults = s.postFaults := rfl
@[simp] theorem State.putHome_wt (s : State) (pa : Nat) (bs : List Byte) : (s.putHome pa bs).wt = s.wt := rfl
@[simp] theorem State.putHome_matQ (s : State) (pa : Nat) (bs : List Byte) : (s.putHome pa bs).matQ = s.matQ := rfl
@[simp] theorem State.putHome_panels (s : State) (pa : Nat) (bs : List Byte) : (s.putHome pa bs).panels = s.panels := rfl
@[simp] theorem State.putHome_pike (s : State) (pa : Nat) (bs : List Byte) : (s.putHome pa bs).pike = s.pike := rfl
@[simp] theorem State.putHome_mem (s : State) (pa : Nat) (bs : List Byte) : (s.putHome pa bs).mem = Memory.setList s.mem pa bs := rfl
@[simp] theorem State.putHome_poison (s : State) (pa : Nat) (bs : List Byte) : (s.putHome pa bs).poison = s.poison.filter (fun p => p < pa || pa + bs.length ≤ p) := rfl
@[simp] theorem State.putHome_spPoison (s : State) (pa : Nat) (bs : List Byte) : (s.putHome pa bs).spPoison = s.spPoison := rfl
@[simp] theorem State.putHome_ltPoison (s : State) (pa : Nat) (bs : List Byte) : (s.putHome pa bs).ltPoison = s.ltPoison := rfl
@[simp] theorem State.putHome_accPoison (s : State) (pa : Nat) (bs : List Byte) : (s.putHome pa bs).accPoison = s.accPoison := rfl
@[simp] theorem State.putHome_pool (s : State) (pa : Nat) (bs : List Byte) : (s.putHome pa bs).pool = s.pool := rfl
@[simp] theorem State.putHome_cows (s : State) (pa : Nat) (bs : List Byte) : (s.putHome pa bs).cows = s.cows := rfl
@[simp] theorem State.putHome_fwins (s : State) (pa : Nat) (bs : List Byte) : (s.putHome pa bs).fwins = s.fwins := rfl
@[simp] theorem State.putHome_reqs (s : State) (pa : Nat) (bs : List Byte) : (s.putHome pa bs).reqs = s.reqs := rfl
@[simp] theorem State.putHome_links (s : State) (pa : Nat) (bs : List Byte) : (s.putHome pa bs).links = s.links := rfl
@[simp] theorem State.putHome_routeFaults (s : State) (pa : Nat) (bs : List Byte) : (s.putHome pa bs).routeFaults = s.routeFaults := rfl
@[simp] theorem State.putHome_orphans (s : State) (pa : Nat) (bs : List Byte) : (s.putHome pa bs).orphans = s.orphans := rfl
@[simp] theorem State.putHome_areas (s : State) (pa : Nat) (bs : List Byte) : (s.putHome pa bs).areas = s.areas := rfl
@[simp] theorem State.putHome_launches (s : State) (pa : Nat) (bs : List Byte) : (s.putHome pa bs).launches = s.launches := rfl
@[simp] theorem State.putHome_watches (s : State) (pa : Nat) (bs : List Byte) : (s.putHome pa bs).watches = s.watches := rfl
@[simp] theorem State.putHome_unwatched (s : State) (pa : Nat) (bs : List Byte) : (s.putHome pa bs).unwatched = s.unwatched := rfl
@[simp] theorem State.putHome_owed (s : State) (pa : Nat) (bs : List Byte) : (s.putHome pa bs).owed = s.owed := rfl
@[simp] theorem State.putHome_tasks (s : State) (pa : Nat) (bs : List Byte) : (s.putHome pa bs).tasks = s.tasks := rfl
@[simp] theorem State.putHome_waiting (s : State) (pa : Nat) (bs : List Byte) : (s.putHome pa bs).waiting = s.waiting := rfl
@[simp] theorem State.putHome_parties (s : State) (pa : Nat) (bs : List Byte) : (s.putHome pa bs).parties = s.parties := rfl
@[simp] theorem State.putHome_policy (s : State) (pa : Nat) (bs : List Byte) : (s.putHome pa bs).policy = s.policy := rfl
@[simp] theorem State.putHome_straggle (s : State) (pa : Nat) (bs : List Byte) : (s.putHome pa bs).straggle = s.straggle := rfl
@[simp] theorem State.putHome_ready (s : State) (pa : Nat) (bs : List Byte) : (s.putHome pa bs).ready = s.ready := rfl
@[simp] theorem State.putHome_replace (s : State) (pa : Nat) (bs : List Byte) : (s.putHome pa bs).replace = s.replace := rfl
@[simp] theorem State.putHome_linkdown (s : State) (pa : Nat) (bs : List Byte) : (s.putHome pa bs).linkdown = s.linkdown := rfl
@[simp] theorem State.putHome_ctxs (s : State) (pa : Nat) (bs : List Byte) : (s.putHome pa bs).ctxs = s.ctxs := rfl
@[simp] theorem State.putHome_reports (s : State) (pa : Nat) (bs : List Byte) : (s.putHome pa bs).reports = s.reports := rfl
@[simp] theorem State.putHome_mlim (s : State) (pa : Nat) (bs : List Byte) : (s.putHome pa bs).mlim = s.mlim := rfl
@[simp] theorem State.putHome_chret (s : State) (pa : Nat) (bs : List Byte) : (s.putHome pa bs).chret = s.chret := rfl
@[simp] theorem State.putHome_chMarked (s : State) (pa : Nat) (bs : List Byte) : (s.putHome pa bs).chMarked = s.chMarked := rfl
@[simp] theorem State.putHome_errs (s : State) (pa : Nat) (bs : List Byte) : (s.putHome pa bs).errs = s.errs := rfl
@[simp] theorem State.putHome_hostfns (s : State) (pa : Nat) (bs : List Byte) : (s.putHome pa bs).hostfns = s.hostfns := rfl
@[simp] theorem State.putHome_binds (s : State) (pa : Nat) (bs : List Byte) : (s.putHome pa bs).binds = s.binds := rfl
@[simp] theorem State.putHome_raised (s : State) (pa : Nat) (bs : List Byte) : (s.putHome pa bs).raised = s.raised := rfl
@[simp] theorem State.putHome_works (s : State) (pa : Nat) (bs : List Byte) : (s.putHome pa bs).works = s.works := rfl
@[simp] theorem State.putHome_table (s : State) (pa : Nat) (bs : List Byte) : (s.putHome pa bs).table = s.table := rfl
@[simp] theorem State.putHome_tableUsed (s : State) (pa : Nat) (bs : List Byte) : (s.putHome pa bs).tableUsed = s.tableUsed := rfl

/-! ## State.putSp -/

@[simp] theorem State.putSp_agenda (s : State) (off : Nat) (b : Byte) : (s.putSp off b).agenda = s.agenda := rfl
@[simp] theorem State.putSp_fresh (s : State) (off : Nat) (b : Byte) : (s.putSp off b).fresh = s.fresh := rfl
@[simp] theorem State.putSp_cur (s : State) (off : Nat) (b : Byte) : (s.putSp off b).cur = s.cur := rfl
@[simp] theorem State.putSp_threads (s : State) (off : Nat) (b : Byte) : (s.putSp off b).threads = s.threads := rfl
@[simp] theorem State.putSp_seq (s : State) (off : Nat) (b : Byte) : (s.putSp off b).seq = s.seq := rfl
@[simp] theorem State.putSp_lcnt0 (s : State) (off : Nat) (b : Byte) : (s.putSp off b).lcnt0 = s.lcnt0 := rfl
@[simp] theorem State.putSp_lcnt1 (s : State) (off : Nat) (b : Byte) : (s.putSp off b).lcnt1 = s.lcnt1 := rfl
@[simp] theorem State.putSp_droop (s : State) (off : Nat) (b : Byte) : (s.putSp off b).droop = s.droop := rfl
@[simp] theorem State.putSp_testmax (s : State) (off : Nat) (b : Byte) : (s.putSp off b).testmax = s.testmax := rfl
@[simp] theorem State.putSp_clock (s : State) (off : Nat) (b : Byte) : (s.putSp off b).clock = s.clock := rfl
@[simp] theorem State.putSp_cidx (s : State) (off : Nat) (b : Byte) : (s.putSp off b).cidx = s.cidx := rfl
@[simp] theorem State.putSp_die (s : State) (off : Nat) (b : Byte) : (s.putSp off b).die = s.die := rfl
@[simp] theorem State.putSp_module_ (s : State) (off : Nat) (b : Byte) : (s.putSp off b).module_ = s.module_ := rfl
@[simp] theorem State.putSp_qcore (s : State) (off : Nat) (b : Byte) : (s.putSp off b).qcore = s.qcore := rfl
@[simp] theorem State.putSp_laneMarked (s : State) (off : Nat) (b : Byte) : (s.putSp off b).laneMarked = s.laneMarked := rfl
@[simp] theorem State.putSp_laneLast (s : State) (off : Nat) (b : Byte) : (s.putSp off b).laneLast = s.laneLast := rfl
@[simp] theorem State.putSp_laneRetired (s : State) (off : Nat) (b : Byte) : (s.putSp off b).laneRetired = s.laneRetired := rfl
@[simp] theorem State.putSp_coreMarked (s : State) (off : Nat) (b : Byte) : (s.putSp off b).coreMarked = s.coreMarked := rfl
@[simp] theorem State.putSp_coreRetired (s : State) (off : Nat) (b : Byte) : (s.putSp off b).coreRetired = s.coreRetired := rfl
@[simp] theorem State.putSp_gate (s : State) (off : Nat) (b : Byte) : (s.putSp off b).gate = s.gate := rfl
@[simp] theorem State.putSp_lines (s : State) (off : Nat) (b : Byte) : (s.putSp off b).lines = s.lines := rfl
@[simp] theorem State.putSp_tlb (s : State) (off : Nat) (b : Byte) : (s.putSp off b).tlb = s.tlb := rfl
@[simp] theorem State.putSp_words (s : State) (off : Nat) (b : Byte) : (s.putSp off b).words = s.words := rfl
@[simp] theorem State.putSp_sp (s : State) (off : Nat) (b : Byte) : (s.putSp off b).sp = Memory.set s.sp off b := rfl
@[simp] theorem State.putSp_tables (s : State) (off : Nat) (b : Byte) : (s.putSp off b).tables = s.tables := rfl
@[simp] theorem State.putSp_acc (s : State) (off : Nat) (b : Byte) : (s.putSp off b).acc = s.acc := rfl
@[simp] theorem State.putSp_accFmt (s : State) (off : Nat) (b : Byte) : (s.putSp off b).accFmt = s.accFmt := rfl
@[simp] theorem State.putSp_accSat (s : State) (off : Nat) (b : Byte) : (s.putSp off b).accSat = s.accSat := rfl
@[simp] theorem State.putSp_cmds (s : State) (off : Nat) (b : Byte) : (s.putSp off b).cmds = s.cmds := rfl
@[simp] theorem State.putSp_postFaults (s : State) (off : Nat) (b : Byte) : (s.putSp off b).postFaults = s.postFaults := rfl
@[simp] theorem State.putSp_wt (s : State) (off : Nat) (b : Byte) : (s.putSp off b).wt = s.wt := rfl
@[simp] theorem State.putSp_matQ (s : State) (off : Nat) (b : Byte) : (s.putSp off b).matQ = s.matQ := rfl
@[simp] theorem State.putSp_panels (s : State) (off : Nat) (b : Byte) : (s.putSp off b).panels = s.panels := rfl
@[simp] theorem State.putSp_pike (s : State) (off : Nat) (b : Byte) : (s.putSp off b).pike = s.pike := rfl
@[simp] theorem State.putSp_mem (s : State) (off : Nat) (b : Byte) : (s.putSp off b).mem = s.mem := rfl
@[simp] theorem State.putSp_poison (s : State) (off : Nat) (b : Byte) : (s.putSp off b).poison = s.poison := rfl
@[simp] theorem State.putSp_spPoison (s : State) (off : Nat) (b : Byte) : (s.putSp off b).spPoison = s.spPoison.filter (fun p => p != off) := rfl
@[simp] theorem State.putSp_ltPoison (s : State) (off : Nat) (b : Byte) : (s.putSp off b).ltPoison = s.ltPoison := rfl
@[simp] theorem State.putSp_accPoison (s : State) (off : Nat) (b : Byte) : (s.putSp off b).accPoison = s.accPoison := rfl
@[simp] theorem State.putSp_pool (s : State) (off : Nat) (b : Byte) : (s.putSp off b).pool = s.pool := rfl
@[simp] theorem State.putSp_cows (s : State) (off : Nat) (b : Byte) : (s.putSp off b).cows = s.cows := rfl
@[simp] theorem State.putSp_fwins (s : State) (off : Nat) (b : Byte) : (s.putSp off b).fwins = s.fwins := rfl
@[simp] theorem State.putSp_reqs (s : State) (off : Nat) (b : Byte) : (s.putSp off b).reqs = s.reqs := rfl
@[simp] theorem State.putSp_links (s : State) (off : Nat) (b : Byte) : (s.putSp off b).links = s.links := rfl
@[simp] theorem State.putSp_routeFaults (s : State) (off : Nat) (b : Byte) : (s.putSp off b).routeFaults = s.routeFaults := rfl
@[simp] theorem State.putSp_orphans (s : State) (off : Nat) (b : Byte) : (s.putSp off b).orphans = s.orphans := rfl
@[simp] theorem State.putSp_areas (s : State) (off : Nat) (b : Byte) : (s.putSp off b).areas = s.areas := rfl
@[simp] theorem State.putSp_launches (s : State) (off : Nat) (b : Byte) : (s.putSp off b).launches = s.launches := rfl
@[simp] theorem State.putSp_watches (s : State) (off : Nat) (b : Byte) : (s.putSp off b).watches = s.watches := rfl
@[simp] theorem State.putSp_unwatched (s : State) (off : Nat) (b : Byte) : (s.putSp off b).unwatched = s.unwatched := rfl
@[simp] theorem State.putSp_owed (s : State) (off : Nat) (b : Byte) : (s.putSp off b).owed = s.owed := rfl
@[simp] theorem State.putSp_tasks (s : State) (off : Nat) (b : Byte) : (s.putSp off b).tasks = s.tasks := rfl
@[simp] theorem State.putSp_waiting (s : State) (off : Nat) (b : Byte) : (s.putSp off b).waiting = s.waiting := rfl
@[simp] theorem State.putSp_parties (s : State) (off : Nat) (b : Byte) : (s.putSp off b).parties = s.parties := rfl
@[simp] theorem State.putSp_policy (s : State) (off : Nat) (b : Byte) : (s.putSp off b).policy = s.policy := rfl
@[simp] theorem State.putSp_straggle (s : State) (off : Nat) (b : Byte) : (s.putSp off b).straggle = s.straggle := rfl
@[simp] theorem State.putSp_ready (s : State) (off : Nat) (b : Byte) : (s.putSp off b).ready = s.ready := rfl
@[simp] theorem State.putSp_replace (s : State) (off : Nat) (b : Byte) : (s.putSp off b).replace = s.replace := rfl
@[simp] theorem State.putSp_linkdown (s : State) (off : Nat) (b : Byte) : (s.putSp off b).linkdown = s.linkdown := rfl
@[simp] theorem State.putSp_ctxs (s : State) (off : Nat) (b : Byte) : (s.putSp off b).ctxs = s.ctxs := rfl
@[simp] theorem State.putSp_reports (s : State) (off : Nat) (b : Byte) : (s.putSp off b).reports = s.reports := rfl
@[simp] theorem State.putSp_mlim (s : State) (off : Nat) (b : Byte) : (s.putSp off b).mlim = s.mlim := rfl
@[simp] theorem State.putSp_chret (s : State) (off : Nat) (b : Byte) : (s.putSp off b).chret = s.chret := rfl
@[simp] theorem State.putSp_chMarked (s : State) (off : Nat) (b : Byte) : (s.putSp off b).chMarked = s.chMarked := rfl
@[simp] theorem State.putSp_errs (s : State) (off : Nat) (b : Byte) : (s.putSp off b).errs = s.errs := rfl
@[simp] theorem State.putSp_hostfns (s : State) (off : Nat) (b : Byte) : (s.putSp off b).hostfns = s.hostfns := rfl
@[simp] theorem State.putSp_binds (s : State) (off : Nat) (b : Byte) : (s.putSp off b).binds = s.binds := rfl
@[simp] theorem State.putSp_raised (s : State) (off : Nat) (b : Byte) : (s.putSp off b).raised = s.raised := rfl
@[simp] theorem State.putSp_works (s : State) (off : Nat) (b : Byte) : (s.putSp off b).works = s.works := rfl
@[simp] theorem State.putSp_table (s : State) (off : Nat) (b : Byte) : (s.putSp off b).table = s.table := rfl
@[simp] theorem State.putSp_tableUsed (s : State) (off : Nat) (b : Byte) : (s.putSp off b).tableUsed = s.tableUsed := rfl

/-! ## State.sendTo -/

@[simp] theorem State.sendTo_agenda (s : State) (f : Nat) (c : BitVec 12) (w : ReqFor) (pa : Nat) (op : BusOp) (st : ReqStatus) (l : List Loc) : (s.sendTo f c w pa op st l).agenda = s.agenda := rfl
@[simp] theorem State.sendTo_fresh (s : State) (f : Nat) (c : BitVec 12) (w : ReqFor) (pa : Nat) (op : BusOp) (st : ReqStatus) (l : List Loc) : (s.sendTo f c w pa op st l).fresh = s.fresh := rfl
@[simp] theorem State.sendTo_cur (s : State) (f : Nat) (c : BitVec 12) (w : ReqFor) (pa : Nat) (op : BusOp) (st : ReqStatus) (l : List Loc) : (s.sendTo f c w pa op st l).cur = s.cur := rfl
@[simp] theorem State.sendTo_threads (s : State) (f : Nat) (c : BitVec 12) (w : ReqFor) (pa : Nat) (op : BusOp) (st : ReqStatus) (l : List Loc) : (s.sendTo f c w pa op st l).threads = s.threads := rfl
@[simp] theorem State.sendTo_seq (s : State) (f : Nat) (c : BitVec 12) (w : ReqFor) (pa : Nat) (op : BusOp) (st : ReqStatus) (l : List Loc) : (s.sendTo f c w pa op st l).seq = s.seq + 1 := rfl
@[simp] theorem State.sendTo_lcnt0 (s : State) (f : Nat) (c : BitVec 12) (w : ReqFor) (pa : Nat) (op : BusOp) (st : ReqStatus) (l : List Loc) : (s.sendTo f c w pa op st l).lcnt0 = s.lcnt0 := rfl
@[simp] theorem State.sendTo_lcnt1 (s : State) (f : Nat) (c : BitVec 12) (w : ReqFor) (pa : Nat) (op : BusOp) (st : ReqStatus) (l : List Loc) : (s.sendTo f c w pa op st l).lcnt1 = s.lcnt1 := rfl
@[simp] theorem State.sendTo_droop (s : State) (f : Nat) (c : BitVec 12) (w : ReqFor) (pa : Nat) (op : BusOp) (st : ReqStatus) (l : List Loc) : (s.sendTo f c w pa op st l).droop = s.droop := rfl
@[simp] theorem State.sendTo_testmax (s : State) (f : Nat) (c : BitVec 12) (w : ReqFor) (pa : Nat) (op : BusOp) (st : ReqStatus) (l : List Loc) : (s.sendTo f c w pa op st l).testmax = s.testmax := rfl
@[simp] theorem State.sendTo_clock (s : State) (f : Nat) (c : BitVec 12) (w : ReqFor) (pa : Nat) (op : BusOp) (st : ReqStatus) (l : List Loc) : (s.sendTo f c w pa op st l).clock = s.clock := rfl
@[simp] theorem State.sendTo_cidx (s : State) (f : Nat) (c : BitVec 12) (w : ReqFor) (pa : Nat) (op : BusOp) (st : ReqStatus) (l : List Loc) : (s.sendTo f c w pa op st l).cidx = s.cidx := rfl
@[simp] theorem State.sendTo_die (s : State) (f : Nat) (c : BitVec 12) (w : ReqFor) (pa : Nat) (op : BusOp) (st : ReqStatus) (l : List Loc) : (s.sendTo f c w pa op st l).die = s.die := rfl
@[simp] theorem State.sendTo_module_ (s : State) (f : Nat) (c : BitVec 12) (w : ReqFor) (pa : Nat) (op : BusOp) (st : ReqStatus) (l : List Loc) : (s.sendTo f c w pa op st l).module_ = s.module_ := rfl
@[simp] theorem State.sendTo_qcore (s : State) (f : Nat) (c : BitVec 12) (w : ReqFor) (pa : Nat) (op : BusOp) (st : ReqStatus) (l : List Loc) : (s.sendTo f c w pa op st l).qcore = s.qcore := rfl
@[simp] theorem State.sendTo_laneMarked (s : State) (f : Nat) (c : BitVec 12) (w : ReqFor) (pa : Nat) (op : BusOp) (st : ReqStatus) (l : List Loc) : (s.sendTo f c w pa op st l).laneMarked = s.laneMarked := rfl
@[simp] theorem State.sendTo_laneLast (s : State) (f : Nat) (c : BitVec 12) (w : ReqFor) (pa : Nat) (op : BusOp) (st : ReqStatus) (l : List Loc) : (s.sendTo f c w pa op st l).laneLast = s.laneLast := rfl
@[simp] theorem State.sendTo_laneRetired (s : State) (f : Nat) (c : BitVec 12) (w : ReqFor) (pa : Nat) (op : BusOp) (st : ReqStatus) (l : List Loc) : (s.sendTo f c w pa op st l).laneRetired = s.laneRetired := rfl
@[simp] theorem State.sendTo_coreMarked (s : State) (f : Nat) (c : BitVec 12) (w : ReqFor) (pa : Nat) (op : BusOp) (st : ReqStatus) (l : List Loc) : (s.sendTo f c w pa op st l).coreMarked = s.coreMarked := rfl
@[simp] theorem State.sendTo_coreRetired (s : State) (f : Nat) (c : BitVec 12) (w : ReqFor) (pa : Nat) (op : BusOp) (st : ReqStatus) (l : List Loc) : (s.sendTo f c w pa op st l).coreRetired = s.coreRetired := rfl
@[simp] theorem State.sendTo_gate (s : State) (f : Nat) (c : BitVec 12) (w : ReqFor) (pa : Nat) (op : BusOp) (st : ReqStatus) (l : List Loc) : (s.sendTo f c w pa op st l).gate = s.gate := rfl
@[simp] theorem State.sendTo_lines (s : State) (f : Nat) (c : BitVec 12) (w : ReqFor) (pa : Nat) (op : BusOp) (st : ReqStatus) (l : List Loc) : (s.sendTo f c w pa op st l).lines = s.lines := rfl
@[simp] theorem State.sendTo_tlb (s : State) (f : Nat) (c : BitVec 12) (w : ReqFor) (pa : Nat) (op : BusOp) (st : ReqStatus) (l : List Loc) : (s.sendTo f c w pa op st l).tlb = s.tlb := rfl
@[simp] theorem State.sendTo_words (s : State) (f : Nat) (c : BitVec 12) (w : ReqFor) (pa : Nat) (op : BusOp) (st : ReqStatus) (l : List Loc) : (s.sendTo f c w pa op st l).words = s.words := rfl
@[simp] theorem State.sendTo_sp (s : State) (f : Nat) (c : BitVec 12) (w : ReqFor) (pa : Nat) (op : BusOp) (st : ReqStatus) (l : List Loc) : (s.sendTo f c w pa op st l).sp = s.sp := rfl
@[simp] theorem State.sendTo_tables (s : State) (f : Nat) (c : BitVec 12) (w : ReqFor) (pa : Nat) (op : BusOp) (st : ReqStatus) (l : List Loc) : (s.sendTo f c w pa op st l).tables = s.tables := rfl
@[simp] theorem State.sendTo_acc (s : State) (f : Nat) (c : BitVec 12) (w : ReqFor) (pa : Nat) (op : BusOp) (st : ReqStatus) (l : List Loc) : (s.sendTo f c w pa op st l).acc = s.acc := rfl
@[simp] theorem State.sendTo_accFmt (s : State) (f : Nat) (c : BitVec 12) (w : ReqFor) (pa : Nat) (op : BusOp) (st : ReqStatus) (l : List Loc) : (s.sendTo f c w pa op st l).accFmt = s.accFmt := rfl
@[simp] theorem State.sendTo_accSat (s : State) (f : Nat) (c : BitVec 12) (w : ReqFor) (pa : Nat) (op : BusOp) (st : ReqStatus) (l : List Loc) : (s.sendTo f c w pa op st l).accSat = s.accSat := rfl
@[simp] theorem State.sendTo_cmds (s : State) (f : Nat) (c : BitVec 12) (w : ReqFor) (pa : Nat) (op : BusOp) (st : ReqStatus) (l : List Loc) : (s.sendTo f c w pa op st l).cmds = s.cmds := rfl
@[simp] theorem State.sendTo_postFaults (s : State) (f : Nat) (c : BitVec 12) (w : ReqFor) (pa : Nat) (op : BusOp) (st : ReqStatus) (l : List Loc) : (s.sendTo f c w pa op st l).postFaults = s.postFaults := rfl
@[simp] theorem State.sendTo_wt (s : State) (f : Nat) (c : BitVec 12) (w : ReqFor) (pa : Nat) (op : BusOp) (st : ReqStatus) (l : List Loc) : (s.sendTo f c w pa op st l).wt = s.wt := rfl
@[simp] theorem State.sendTo_matQ (s : State) (f : Nat) (c : BitVec 12) (w : ReqFor) (pa : Nat) (op : BusOp) (st : ReqStatus) (l : List Loc) : (s.sendTo f c w pa op st l).matQ = s.matQ := rfl
@[simp] theorem State.sendTo_panels (s : State) (f : Nat) (c : BitVec 12) (w : ReqFor) (pa : Nat) (op : BusOp) (st : ReqStatus) (l : List Loc) : (s.sendTo f c w pa op st l).panels = s.panels := rfl
@[simp] theorem State.sendTo_pike (s : State) (f : Nat) (c : BitVec 12) (w : ReqFor) (pa : Nat) (op : BusOp) (st : ReqStatus) (l : List Loc) : (s.sendTo f c w pa op st l).pike = s.pike := rfl
@[simp] theorem State.sendTo_mem (s : State) (f : Nat) (c : BitVec 12) (w : ReqFor) (pa : Nat) (op : BusOp) (st : ReqStatus) (l : List Loc) : (s.sendTo f c w pa op st l).mem = s.mem := rfl
@[simp] theorem State.sendTo_poison (s : State) (f : Nat) (c : BitVec 12) (w : ReqFor) (pa : Nat) (op : BusOp) (st : ReqStatus) (l : List Loc) : (s.sendTo f c w pa op st l).poison = s.poison := rfl
@[simp] theorem State.sendTo_spPoison (s : State) (f : Nat) (c : BitVec 12) (w : ReqFor) (pa : Nat) (op : BusOp) (st : ReqStatus) (l : List Loc) : (s.sendTo f c w pa op st l).spPoison = s.spPoison := rfl
@[simp] theorem State.sendTo_ltPoison (s : State) (f : Nat) (c : BitVec 12) (w : ReqFor) (pa : Nat) (op : BusOp) (st : ReqStatus) (l : List Loc) : (s.sendTo f c w pa op st l).ltPoison = s.ltPoison := rfl
@[simp] theorem State.sendTo_accPoison (s : State) (f : Nat) (c : BitVec 12) (w : ReqFor) (pa : Nat) (op : BusOp) (st : ReqStatus) (l : List Loc) : (s.sendTo f c w pa op st l).accPoison = s.accPoison := rfl
@[simp] theorem State.sendTo_pool (s : State) (f : Nat) (c : BitVec 12) (w : ReqFor) (pa : Nat) (op : BusOp) (st : ReqStatus) (l : List Loc) : (s.sendTo f c w pa op st l).pool = s.pool := rfl
@[simp] theorem State.sendTo_cows (s : State) (f : Nat) (c : BitVec 12) (w : ReqFor) (pa : Nat) (op : BusOp) (st : ReqStatus) (l : List Loc) : (s.sendTo f c w pa op st l).cows = s.cows := rfl
@[simp] theorem State.sendTo_fwins (s : State) (f : Nat) (c : BitVec 12) (w : ReqFor) (pa : Nat) (op : BusOp) (st : ReqStatus) (l : List Loc) : (s.sendTo f c w pa op st l).fwins = s.fwins := rfl
@[simp] theorem State.sendTo_reqs (s : State) (f : Nat) (c : BitVec 12) (w : ReqFor) (pa : Nat) (op : BusOp) (st : ReqStatus) (l : List Loc) : (s.sendTo f c w pa op st l).reqs = s.reqs ++ [{ id := s.seq, fn := f, who := w, pa := pa, op := op, status := st, waybill := c.setWidth 16, locs := l }] := rfl
@[simp] theorem State.sendTo_links (s : State) (f : Nat) (c : BitVec 12) (w : ReqFor) (pa : Nat) (op : BusOp) (st : ReqStatus) (l : List Loc) : (s.sendTo f c w pa op st l).links = s.links := rfl
@[simp] theorem State.sendTo_routeFaults (s : State) (f : Nat) (c : BitVec 12) (w : ReqFor) (pa : Nat) (op : BusOp) (st : ReqStatus) (l : List Loc) : (s.sendTo f c w pa op st l).routeFaults = s.routeFaults := rfl
@[simp] theorem State.sendTo_orphans (s : State) (f : Nat) (c : BitVec 12) (w : ReqFor) (pa : Nat) (op : BusOp) (st : ReqStatus) (l : List Loc) : (s.sendTo f c w pa op st l).orphans = s.orphans := rfl
@[simp] theorem State.sendTo_areas (s : State) (f : Nat) (c : BitVec 12) (w : ReqFor) (pa : Nat) (op : BusOp) (st : ReqStatus) (l : List Loc) : (s.sendTo f c w pa op st l).areas = s.areas := rfl
@[simp] theorem State.sendTo_launches (s : State) (f : Nat) (c : BitVec 12) (w : ReqFor) (pa : Nat) (op : BusOp) (st : ReqStatus) (l : List Loc) : (s.sendTo f c w pa op st l).launches = s.launches := rfl
@[simp] theorem State.sendTo_watches (s : State) (f : Nat) (c : BitVec 12) (w : ReqFor) (pa : Nat) (op : BusOp) (st : ReqStatus) (l : List Loc) : (s.sendTo f c w pa op st l).watches = s.watches := rfl
@[simp] theorem State.sendTo_unwatched (s : State) (f : Nat) (c : BitVec 12) (w : ReqFor) (pa : Nat) (op : BusOp) (st : ReqStatus) (l : List Loc) : (s.sendTo f c w pa op st l).unwatched = s.unwatched := rfl
@[simp] theorem State.sendTo_owed (s : State) (f : Nat) (c : BitVec 12) (w : ReqFor) (pa : Nat) (op : BusOp) (st : ReqStatus) (l : List Loc) : (s.sendTo f c w pa op st l).owed = s.owed := rfl
@[simp] theorem State.sendTo_tasks (s : State) (f : Nat) (c : BitVec 12) (w : ReqFor) (pa : Nat) (op : BusOp) (st : ReqStatus) (l : List Loc) : (s.sendTo f c w pa op st l).tasks = s.tasks := rfl
@[simp] theorem State.sendTo_waiting (s : State) (f : Nat) (c : BitVec 12) (w : ReqFor) (pa : Nat) (op : BusOp) (st : ReqStatus) (l : List Loc) : (s.sendTo f c w pa op st l).waiting = s.waiting := rfl
@[simp] theorem State.sendTo_parties (s : State) (f : Nat) (c : BitVec 12) (w : ReqFor) (pa : Nat) (op : BusOp) (st : ReqStatus) (l : List Loc) : (s.sendTo f c w pa op st l).parties = s.parties := rfl
@[simp] theorem State.sendTo_policy (s : State) (f : Nat) (c : BitVec 12) (w : ReqFor) (pa : Nat) (op : BusOp) (st : ReqStatus) (l : List Loc) : (s.sendTo f c w pa op st l).policy = s.policy := rfl
@[simp] theorem State.sendTo_straggle (s : State) (f : Nat) (c : BitVec 12) (w : ReqFor) (pa : Nat) (op : BusOp) (st : ReqStatus) (l : List Loc) : (s.sendTo f c w pa op st l).straggle = s.straggle := rfl
@[simp] theorem State.sendTo_ready (s : State) (f : Nat) (c : BitVec 12) (w : ReqFor) (pa : Nat) (op : BusOp) (st : ReqStatus) (l : List Loc) : (s.sendTo f c w pa op st l).ready = s.ready := rfl
@[simp] theorem State.sendTo_replace (s : State) (f : Nat) (c : BitVec 12) (w : ReqFor) (pa : Nat) (op : BusOp) (st : ReqStatus) (l : List Loc) : (s.sendTo f c w pa op st l).replace = s.replace := rfl
@[simp] theorem State.sendTo_linkdown (s : State) (f : Nat) (c : BitVec 12) (w : ReqFor) (pa : Nat) (op : BusOp) (st : ReqStatus) (l : List Loc) : (s.sendTo f c w pa op st l).linkdown = s.linkdown := rfl
@[simp] theorem State.sendTo_ctxs (s : State) (f : Nat) (c : BitVec 12) (w : ReqFor) (pa : Nat) (op : BusOp) (st : ReqStatus) (l : List Loc) : (s.sendTo f c w pa op st l).ctxs = s.ctxs := rfl
@[simp] theorem State.sendTo_reports (s : State) (f : Nat) (c : BitVec 12) (w : ReqFor) (pa : Nat) (op : BusOp) (st : ReqStatus) (l : List Loc) : (s.sendTo f c w pa op st l).reports = s.reports := rfl
@[simp] theorem State.sendTo_mlim (s : State) (f : Nat) (c : BitVec 12) (w : ReqFor) (pa : Nat) (op : BusOp) (st : ReqStatus) (l : List Loc) : (s.sendTo f c w pa op st l).mlim = s.mlim := rfl
@[simp] theorem State.sendTo_chret (s : State) (f : Nat) (c : BitVec 12) (w : ReqFor) (pa : Nat) (op : BusOp) (st : ReqStatus) (l : List Loc) : (s.sendTo f c w pa op st l).chret = s.chret := rfl
@[simp] theorem State.sendTo_chMarked (s : State) (f : Nat) (c : BitVec 12) (w : ReqFor) (pa : Nat) (op : BusOp) (st : ReqStatus) (l : List Loc) : (s.sendTo f c w pa op st l).chMarked = s.chMarked := rfl
@[simp] theorem State.sendTo_errs (s : State) (f : Nat) (c : BitVec 12) (w : ReqFor) (pa : Nat) (op : BusOp) (st : ReqStatus) (l : List Loc) : (s.sendTo f c w pa op st l).errs = s.errs := rfl
@[simp] theorem State.sendTo_hostfns (s : State) (f : Nat) (c : BitVec 12) (w : ReqFor) (pa : Nat) (op : BusOp) (st : ReqStatus) (l : List Loc) : (s.sendTo f c w pa op st l).hostfns = s.hostfns := rfl
@[simp] theorem State.sendTo_binds (s : State) (f : Nat) (c : BitVec 12) (w : ReqFor) (pa : Nat) (op : BusOp) (st : ReqStatus) (l : List Loc) : (s.sendTo f c w pa op st l).binds = s.binds := rfl
@[simp] theorem State.sendTo_raised (s : State) (f : Nat) (c : BitVec 12) (w : ReqFor) (pa : Nat) (op : BusOp) (st : ReqStatus) (l : List Loc) : (s.sendTo f c w pa op st l).raised = s.raised := rfl
@[simp] theorem State.sendTo_works (s : State) (f : Nat) (c : BitVec 12) (w : ReqFor) (pa : Nat) (op : BusOp) (st : ReqStatus) (l : List Loc) : (s.sendTo f c w pa op st l).works = s.works := rfl
@[simp] theorem State.sendTo_table (s : State) (f : Nat) (c : BitVec 12) (w : ReqFor) (pa : Nat) (op : BusOp) (st : ReqStatus) (l : List Loc) : (s.sendTo f c w pa op st l).table = s.table := rfl
@[simp] theorem State.sendTo_tableUsed (s : State) (f : Nat) (c : BitVec 12) (w : ReqFor) (pa : Nat) (op : BusOp) (st : ReqStatus) (l : List Loc) : (s.sendTo f c w pa op st l).tableUsed = s.tableUsed := rfl

/-! ## State.setParty -/

@[simp] theorem State.setParty_agenda (s : State) (p : Party) : (s.setParty p).agenda = s.agenda := rfl
@[simp] theorem State.setParty_fresh (s : State) (p : Party) : (s.setParty p).fresh = s.fresh := rfl
@[simp] theorem State.setParty_cur (s : State) (p : Party) : (s.setParty p).cur = s.cur := rfl
@[simp] theorem State.setParty_threads (s : State) (p : Party) : (s.setParty p).threads = s.threads := rfl
@[simp] theorem State.setParty_seq (s : State) (p : Party) : (s.setParty p).seq = s.seq := rfl
@[simp] theorem State.setParty_lcnt0 (s : State) (p : Party) : (s.setParty p).lcnt0 = s.lcnt0 := rfl
@[simp] theorem State.setParty_lcnt1 (s : State) (p : Party) : (s.setParty p).lcnt1 = s.lcnt1 := rfl
@[simp] theorem State.setParty_droop (s : State) (p : Party) : (s.setParty p).droop = s.droop := rfl
@[simp] theorem State.setParty_testmax (s : State) (p : Party) : (s.setParty p).testmax = s.testmax := rfl
@[simp] theorem State.setParty_clock (s : State) (p : Party) : (s.setParty p).clock = s.clock := rfl
@[simp] theorem State.setParty_cidx (s : State) (p : Party) : (s.setParty p).cidx = s.cidx := rfl
@[simp] theorem State.setParty_die (s : State) (p : Party) : (s.setParty p).die = s.die := rfl
@[simp] theorem State.setParty_module_ (s : State) (p : Party) : (s.setParty p).module_ = s.module_ := rfl
@[simp] theorem State.setParty_qcore (s : State) (p : Party) : (s.setParty p).qcore = s.qcore := rfl
@[simp] theorem State.setParty_laneMarked (s : State) (p : Party) : (s.setParty p).laneMarked = s.laneMarked := rfl
@[simp] theorem State.setParty_laneLast (s : State) (p : Party) : (s.setParty p).laneLast = s.laneLast := rfl
@[simp] theorem State.setParty_laneRetired (s : State) (p : Party) : (s.setParty p).laneRetired = s.laneRetired := rfl
@[simp] theorem State.setParty_coreMarked (s : State) (p : Party) : (s.setParty p).coreMarked = s.coreMarked := rfl
@[simp] theorem State.setParty_coreRetired (s : State) (p : Party) : (s.setParty p).coreRetired = s.coreRetired := rfl
@[simp] theorem State.setParty_gate (s : State) (p : Party) : (s.setParty p).gate = s.gate := rfl
@[simp] theorem State.setParty_lines (s : State) (p : Party) : (s.setParty p).lines = s.lines := rfl
@[simp] theorem State.setParty_tlb (s : State) (p : Party) : (s.setParty p).tlb = s.tlb := rfl
@[simp] theorem State.setParty_words (s : State) (p : Party) : (s.setParty p).words = s.words := rfl
@[simp] theorem State.setParty_sp (s : State) (p : Party) : (s.setParty p).sp = s.sp := rfl
@[simp] theorem State.setParty_tables (s : State) (p : Party) : (s.setParty p).tables = s.tables := rfl
@[simp] theorem State.setParty_acc (s : State) (p : Party) : (s.setParty p).acc = s.acc := rfl
@[simp] theorem State.setParty_accFmt (s : State) (p : Party) : (s.setParty p).accFmt = s.accFmt := rfl
@[simp] theorem State.setParty_accSat (s : State) (p : Party) : (s.setParty p).accSat = s.accSat := rfl
@[simp] theorem State.setParty_cmds (s : State) (p : Party) : (s.setParty p).cmds = s.cmds := rfl
@[simp] theorem State.setParty_postFaults (s : State) (p : Party) : (s.setParty p).postFaults = s.postFaults := rfl
@[simp] theorem State.setParty_wt (s : State) (p : Party) : (s.setParty p).wt = s.wt := rfl
@[simp] theorem State.setParty_matQ (s : State) (p : Party) : (s.setParty p).matQ = s.matQ := rfl
@[simp] theorem State.setParty_panels (s : State) (p : Party) : (s.setParty p).panels = s.panels := rfl
@[simp] theorem State.setParty_pike (s : State) (p : Party) : (s.setParty p).pike = s.pike := rfl
@[simp] theorem State.setParty_mem (s : State) (p : Party) : (s.setParty p).mem = s.mem := rfl
@[simp] theorem State.setParty_poison (s : State) (p : Party) : (s.setParty p).poison = s.poison := rfl
@[simp] theorem State.setParty_spPoison (s : State) (p : Party) : (s.setParty p).spPoison = s.spPoison := rfl
@[simp] theorem State.setParty_ltPoison (s : State) (p : Party) : (s.setParty p).ltPoison = s.ltPoison := rfl
@[simp] theorem State.setParty_accPoison (s : State) (p : Party) : (s.setParty p).accPoison = s.accPoison := rfl
@[simp] theorem State.setParty_pool (s : State) (p : Party) : (s.setParty p).pool = s.pool := rfl
@[simp] theorem State.setParty_cows (s : State) (p : Party) : (s.setParty p).cows = s.cows := rfl
@[simp] theorem State.setParty_fwins (s : State) (p : Party) : (s.setParty p).fwins = s.fwins := rfl
@[simp] theorem State.setParty_reqs (s : State) (p : Party) : (s.setParty p).reqs = s.reqs := rfl
@[simp] theorem State.setParty_links (s : State) (p : Party) : (s.setParty p).links = s.links := rfl
@[simp] theorem State.setParty_routeFaults (s : State) (p : Party) : (s.setParty p).routeFaults = s.routeFaults := rfl
@[simp] theorem State.setParty_orphans (s : State) (p : Party) : (s.setParty p).orphans = s.orphans := rfl
@[simp] theorem State.setParty_areas (s : State) (p : Party) : (s.setParty p).areas = s.areas := rfl
@[simp] theorem State.setParty_launches (s : State) (p : Party) : (s.setParty p).launches = s.launches := rfl
@[simp] theorem State.setParty_watches (s : State) (p : Party) : (s.setParty p).watches = s.watches := rfl
@[simp] theorem State.setParty_unwatched (s : State) (p : Party) : (s.setParty p).unwatched = s.unwatched := rfl
@[simp] theorem State.setParty_owed (s : State) (p : Party) : (s.setParty p).owed = s.owed := rfl
@[simp] theorem State.setParty_tasks (s : State) (p : Party) : (s.setParty p).tasks = s.tasks := rfl
@[simp] theorem State.setParty_waiting (s : State) (p : Party) : (s.setParty p).waiting = s.waiting := rfl
@[simp] theorem State.setParty_parties (s : State) (p : Party) : (s.setParty p).parties = s.parties.map (fun q => if q.key == p.key then p else q) := rfl
@[simp] theorem State.setParty_policy (s : State) (p : Party) : (s.setParty p).policy = s.policy := rfl
@[simp] theorem State.setParty_straggle (s : State) (p : Party) : (s.setParty p).straggle = s.straggle := rfl
@[simp] theorem State.setParty_ready (s : State) (p : Party) : (s.setParty p).ready = s.ready := rfl
@[simp] theorem State.setParty_replace (s : State) (p : Party) : (s.setParty p).replace = s.replace := rfl
@[simp] theorem State.setParty_linkdown (s : State) (p : Party) : (s.setParty p).linkdown = s.linkdown := rfl
@[simp] theorem State.setParty_ctxs (s : State) (p : Party) : (s.setParty p).ctxs = s.ctxs := rfl
@[simp] theorem State.setParty_reports (s : State) (p : Party) : (s.setParty p).reports = s.reports := rfl
@[simp] theorem State.setParty_mlim (s : State) (p : Party) : (s.setParty p).mlim = s.mlim := rfl
@[simp] theorem State.setParty_chret (s : State) (p : Party) : (s.setParty p).chret = s.chret := rfl
@[simp] theorem State.setParty_chMarked (s : State) (p : Party) : (s.setParty p).chMarked = s.chMarked := rfl
@[simp] theorem State.setParty_errs (s : State) (p : Party) : (s.setParty p).errs = s.errs := rfl
@[simp] theorem State.setParty_hostfns (s : State) (p : Party) : (s.setParty p).hostfns = s.hostfns := rfl
@[simp] theorem State.setParty_binds (s : State) (p : Party) : (s.setParty p).binds = s.binds := rfl
@[simp] theorem State.setParty_raised (s : State) (p : Party) : (s.setParty p).raised = s.raised := rfl
@[simp] theorem State.setParty_works (s : State) (p : Party) : (s.setParty p).works = s.works := rfl
@[simp] theorem State.setParty_table (s : State) (p : Party) : (s.setParty p).table = s.table := rfl
@[simp] theorem State.setParty_tableUsed (s : State) (p : Party) : (s.setParty p).tableUsed = s.tableUsed := rfl

/-! ## State.setTask -/

@[simp] theorem State.setTask_agenda (s : State) (k : Task) : (s.setTask k).agenda = s.agenda := rfl
@[simp] theorem State.setTask_fresh (s : State) (k : Task) : (s.setTask k).fresh = s.fresh := rfl
@[simp] theorem State.setTask_cur (s : State) (k : Task) : (s.setTask k).cur = s.cur := rfl
@[simp] theorem State.setTask_threads (s : State) (k : Task) : (s.setTask k).threads = s.threads := rfl
@[simp] theorem State.setTask_seq (s : State) (k : Task) : (s.setTask k).seq = s.seq := rfl
@[simp] theorem State.setTask_lcnt0 (s : State) (k : Task) : (s.setTask k).lcnt0 = s.lcnt0 := rfl
@[simp] theorem State.setTask_lcnt1 (s : State) (k : Task) : (s.setTask k).lcnt1 = s.lcnt1 := rfl
@[simp] theorem State.setTask_droop (s : State) (k : Task) : (s.setTask k).droop = s.droop := rfl
@[simp] theorem State.setTask_testmax (s : State) (k : Task) : (s.setTask k).testmax = s.testmax := rfl
@[simp] theorem State.setTask_clock (s : State) (k : Task) : (s.setTask k).clock = s.clock := rfl
@[simp] theorem State.setTask_cidx (s : State) (k : Task) : (s.setTask k).cidx = s.cidx := rfl
@[simp] theorem State.setTask_die (s : State) (k : Task) : (s.setTask k).die = s.die := rfl
@[simp] theorem State.setTask_module_ (s : State) (k : Task) : (s.setTask k).module_ = s.module_ := rfl
@[simp] theorem State.setTask_qcore (s : State) (k : Task) : (s.setTask k).qcore = s.qcore := rfl
@[simp] theorem State.setTask_laneMarked (s : State) (k : Task) : (s.setTask k).laneMarked = s.laneMarked := rfl
@[simp] theorem State.setTask_laneLast (s : State) (k : Task) : (s.setTask k).laneLast = s.laneLast := rfl
@[simp] theorem State.setTask_laneRetired (s : State) (k : Task) : (s.setTask k).laneRetired = s.laneRetired := rfl
@[simp] theorem State.setTask_coreMarked (s : State) (k : Task) : (s.setTask k).coreMarked = s.coreMarked := rfl
@[simp] theorem State.setTask_coreRetired (s : State) (k : Task) : (s.setTask k).coreRetired = s.coreRetired := rfl
@[simp] theorem State.setTask_gate (s : State) (k : Task) : (s.setTask k).gate = s.gate := rfl
@[simp] theorem State.setTask_lines (s : State) (k : Task) : (s.setTask k).lines = s.lines := rfl
@[simp] theorem State.setTask_tlb (s : State) (k : Task) : (s.setTask k).tlb = s.tlb := rfl
@[simp] theorem State.setTask_words (s : State) (k : Task) : (s.setTask k).words = s.words := rfl
@[simp] theorem State.setTask_sp (s : State) (k : Task) : (s.setTask k).sp = s.sp := rfl
@[simp] theorem State.setTask_tables (s : State) (k : Task) : (s.setTask k).tables = s.tables := rfl
@[simp] theorem State.setTask_acc (s : State) (k : Task) : (s.setTask k).acc = s.acc := rfl
@[simp] theorem State.setTask_accFmt (s : State) (k : Task) : (s.setTask k).accFmt = s.accFmt := rfl
@[simp] theorem State.setTask_accSat (s : State) (k : Task) : (s.setTask k).accSat = s.accSat := rfl
@[simp] theorem State.setTask_cmds (s : State) (k : Task) : (s.setTask k).cmds = s.cmds := rfl
@[simp] theorem State.setTask_postFaults (s : State) (k : Task) : (s.setTask k).postFaults = s.postFaults := rfl
@[simp] theorem State.setTask_wt (s : State) (k : Task) : (s.setTask k).wt = s.wt := rfl
@[simp] theorem State.setTask_matQ (s : State) (k : Task) : (s.setTask k).matQ = s.matQ := rfl
@[simp] theorem State.setTask_panels (s : State) (k : Task) : (s.setTask k).panels = s.panels := rfl
@[simp] theorem State.setTask_pike (s : State) (k : Task) : (s.setTask k).pike = s.pike := rfl
@[simp] theorem State.setTask_mem (s : State) (k : Task) : (s.setTask k).mem = s.mem := rfl
@[simp] theorem State.setTask_poison (s : State) (k : Task) : (s.setTask k).poison = s.poison := rfl
@[simp] theorem State.setTask_spPoison (s : State) (k : Task) : (s.setTask k).spPoison = s.spPoison := rfl
@[simp] theorem State.setTask_ltPoison (s : State) (k : Task) : (s.setTask k).ltPoison = s.ltPoison := rfl
@[simp] theorem State.setTask_accPoison (s : State) (k : Task) : (s.setTask k).accPoison = s.accPoison := rfl
@[simp] theorem State.setTask_pool (s : State) (k : Task) : (s.setTask k).pool = s.pool := rfl
@[simp] theorem State.setTask_cows (s : State) (k : Task) : (s.setTask k).cows = s.cows := rfl
@[simp] theorem State.setTask_fwins (s : State) (k : Task) : (s.setTask k).fwins = s.fwins := rfl
@[simp] theorem State.setTask_reqs (s : State) (k : Task) : (s.setTask k).reqs = s.reqs := rfl
@[simp] theorem State.setTask_links (s : State) (k : Task) : (s.setTask k).links = s.links := rfl
@[simp] theorem State.setTask_routeFaults (s : State) (k : Task) : (s.setTask k).routeFaults = s.routeFaults := rfl
@[simp] theorem State.setTask_orphans (s : State) (k : Task) : (s.setTask k).orphans = s.orphans := rfl
@[simp] theorem State.setTask_areas (s : State) (k : Task) : (s.setTask k).areas = s.areas := rfl
@[simp] theorem State.setTask_launches (s : State) (k : Task) : (s.setTask k).launches = s.launches := rfl
@[simp] theorem State.setTask_watches (s : State) (k : Task) : (s.setTask k).watches = s.watches := rfl
@[simp] theorem State.setTask_unwatched (s : State) (k : Task) : (s.setTask k).unwatched = s.unwatched := rfl
@[simp] theorem State.setTask_owed (s : State) (k : Task) : (s.setTask k).owed = s.owed := rfl
@[simp] theorem State.setTask_tasks (s : State) (k : Task) : (s.setTask k).tasks = s.tasks.map (fun q => if q.key == k.key then k else q) := rfl
@[simp] theorem State.setTask_waiting (s : State) (k : Task) : (s.setTask k).waiting = s.waiting := rfl
@[simp] theorem State.setTask_parties (s : State) (k : Task) : (s.setTask k).parties = s.parties := rfl
@[simp] theorem State.setTask_policy (s : State) (k : Task) : (s.setTask k).policy = s.policy := rfl
@[simp] theorem State.setTask_straggle (s : State) (k : Task) : (s.setTask k).straggle = s.straggle := rfl
@[simp] theorem State.setTask_ready (s : State) (k : Task) : (s.setTask k).ready = s.ready := rfl
@[simp] theorem State.setTask_replace (s : State) (k : Task) : (s.setTask k).replace = s.replace := rfl
@[simp] theorem State.setTask_linkdown (s : State) (k : Task) : (s.setTask k).linkdown = s.linkdown := rfl
@[simp] theorem State.setTask_ctxs (s : State) (k : Task) : (s.setTask k).ctxs = s.ctxs := rfl
@[simp] theorem State.setTask_reports (s : State) (k : Task) : (s.setTask k).reports = s.reports := rfl
@[simp] theorem State.setTask_mlim (s : State) (k : Task) : (s.setTask k).mlim = s.mlim := rfl
@[simp] theorem State.setTask_chret (s : State) (k : Task) : (s.setTask k).chret = s.chret := rfl
@[simp] theorem State.setTask_chMarked (s : State) (k : Task) : (s.setTask k).chMarked = s.chMarked := rfl
@[simp] theorem State.setTask_errs (s : State) (k : Task) : (s.setTask k).errs = s.errs := rfl
@[simp] theorem State.setTask_hostfns (s : State) (k : Task) : (s.setTask k).hostfns = s.hostfns := rfl
@[simp] theorem State.setTask_binds (s : State) (k : Task) : (s.setTask k).binds = s.binds := rfl
@[simp] theorem State.setTask_raised (s : State) (k : Task) : (s.setTask k).raised = s.raised := rfl
@[simp] theorem State.setTask_works (s : State) (k : Task) : (s.setTask k).works = s.works := rfl
@[simp] theorem State.setTask_table (s : State) (k : Task) : (s.setTask k).table = s.table := rfl
@[simp] theorem State.setTask_tableUsed (s : State) (k : Task) : (s.setTask k).tableUsed = s.tableUsed := rfl

/-! ## State.setCtx -/

@[simp] theorem State.setCtx_agenda (s : State) (c : Ctx) : (s.setCtx c).agenda = s.agenda := rfl
@[simp] theorem State.setCtx_fresh (s : State) (c : Ctx) : (s.setCtx c).fresh = s.fresh := rfl
@[simp] theorem State.setCtx_cur (s : State) (c : Ctx) : (s.setCtx c).cur = s.cur := rfl
@[simp] theorem State.setCtx_threads (s : State) (c : Ctx) : (s.setCtx c).threads = s.threads := rfl
@[simp] theorem State.setCtx_seq (s : State) (c : Ctx) : (s.setCtx c).seq = s.seq := rfl
@[simp] theorem State.setCtx_lcnt0 (s : State) (c : Ctx) : (s.setCtx c).lcnt0 = s.lcnt0 := rfl
@[simp] theorem State.setCtx_lcnt1 (s : State) (c : Ctx) : (s.setCtx c).lcnt1 = s.lcnt1 := rfl
@[simp] theorem State.setCtx_droop (s : State) (c : Ctx) : (s.setCtx c).droop = s.droop := rfl
@[simp] theorem State.setCtx_testmax (s : State) (c : Ctx) : (s.setCtx c).testmax = s.testmax := rfl
@[simp] theorem State.setCtx_clock (s : State) (c : Ctx) : (s.setCtx c).clock = s.clock := rfl
@[simp] theorem State.setCtx_cidx (s : State) (c : Ctx) : (s.setCtx c).cidx = s.cidx := rfl
@[simp] theorem State.setCtx_die (s : State) (c : Ctx) : (s.setCtx c).die = s.die := rfl
@[simp] theorem State.setCtx_module_ (s : State) (c : Ctx) : (s.setCtx c).module_ = s.module_ := rfl
@[simp] theorem State.setCtx_qcore (s : State) (c : Ctx) : (s.setCtx c).qcore = s.qcore := rfl
@[simp] theorem State.setCtx_laneMarked (s : State) (c : Ctx) : (s.setCtx c).laneMarked = s.laneMarked := rfl
@[simp] theorem State.setCtx_laneLast (s : State) (c : Ctx) : (s.setCtx c).laneLast = s.laneLast := rfl
@[simp] theorem State.setCtx_laneRetired (s : State) (c : Ctx) : (s.setCtx c).laneRetired = s.laneRetired := rfl
@[simp] theorem State.setCtx_coreMarked (s : State) (c : Ctx) : (s.setCtx c).coreMarked = s.coreMarked := rfl
@[simp] theorem State.setCtx_coreRetired (s : State) (c : Ctx) : (s.setCtx c).coreRetired = s.coreRetired := rfl
@[simp] theorem State.setCtx_gate (s : State) (c : Ctx) : (s.setCtx c).gate = s.gate := rfl
@[simp] theorem State.setCtx_lines (s : State) (c : Ctx) : (s.setCtx c).lines = s.lines := rfl
@[simp] theorem State.setCtx_tlb (s : State) (c : Ctx) : (s.setCtx c).tlb = s.tlb := rfl
@[simp] theorem State.setCtx_words (s : State) (c : Ctx) : (s.setCtx c).words = s.words := rfl
@[simp] theorem State.setCtx_sp (s : State) (c : Ctx) : (s.setCtx c).sp = s.sp := rfl
@[simp] theorem State.setCtx_tables (s : State) (c : Ctx) : (s.setCtx c).tables = s.tables := rfl
@[simp] theorem State.setCtx_acc (s : State) (c : Ctx) : (s.setCtx c).acc = s.acc := rfl
@[simp] theorem State.setCtx_accFmt (s : State) (c : Ctx) : (s.setCtx c).accFmt = s.accFmt := rfl
@[simp] theorem State.setCtx_accSat (s : State) (c : Ctx) : (s.setCtx c).accSat = s.accSat := rfl
@[simp] theorem State.setCtx_cmds (s : State) (c : Ctx) : (s.setCtx c).cmds = s.cmds := rfl
@[simp] theorem State.setCtx_postFaults (s : State) (c : Ctx) : (s.setCtx c).postFaults = s.postFaults := rfl
@[simp] theorem State.setCtx_wt (s : State) (c : Ctx) : (s.setCtx c).wt = s.wt := rfl
@[simp] theorem State.setCtx_matQ (s : State) (c : Ctx) : (s.setCtx c).matQ = s.matQ := rfl
@[simp] theorem State.setCtx_panels (s : State) (c : Ctx) : (s.setCtx c).panels = s.panels := rfl
@[simp] theorem State.setCtx_pike (s : State) (c : Ctx) : (s.setCtx c).pike = s.pike := rfl
@[simp] theorem State.setCtx_mem (s : State) (c : Ctx) : (s.setCtx c).mem = s.mem := rfl
@[simp] theorem State.setCtx_poison (s : State) (c : Ctx) : (s.setCtx c).poison = s.poison := rfl
@[simp] theorem State.setCtx_spPoison (s : State) (c : Ctx) : (s.setCtx c).spPoison = s.spPoison := rfl
@[simp] theorem State.setCtx_ltPoison (s : State) (c : Ctx) : (s.setCtx c).ltPoison = s.ltPoison := rfl
@[simp] theorem State.setCtx_accPoison (s : State) (c : Ctx) : (s.setCtx c).accPoison = s.accPoison := rfl
@[simp] theorem State.setCtx_pool (s : State) (c : Ctx) : (s.setCtx c).pool = s.pool := rfl
@[simp] theorem State.setCtx_cows (s : State) (c : Ctx) : (s.setCtx c).cows = s.cows := rfl
@[simp] theorem State.setCtx_fwins (s : State) (c : Ctx) : (s.setCtx c).fwins = s.fwins := rfl
@[simp] theorem State.setCtx_reqs (s : State) (c : Ctx) : (s.setCtx c).reqs = s.reqs := rfl
@[simp] theorem State.setCtx_links (s : State) (c : Ctx) : (s.setCtx c).links = s.links := rfl
@[simp] theorem State.setCtx_routeFaults (s : State) (c : Ctx) : (s.setCtx c).routeFaults = s.routeFaults := rfl
@[simp] theorem State.setCtx_orphans (s : State) (c : Ctx) : (s.setCtx c).orphans = s.orphans := rfl
@[simp] theorem State.setCtx_areas (s : State) (c : Ctx) : (s.setCtx c).areas = s.areas := rfl
@[simp] theorem State.setCtx_launches (s : State) (c : Ctx) : (s.setCtx c).launches = s.launches := rfl
@[simp] theorem State.setCtx_watches (s : State) (c : Ctx) : (s.setCtx c).watches = s.watches := rfl
@[simp] theorem State.setCtx_unwatched (s : State) (c : Ctx) : (s.setCtx c).unwatched = s.unwatched := rfl
@[simp] theorem State.setCtx_owed (s : State) (c : Ctx) : (s.setCtx c).owed = s.owed := rfl
@[simp] theorem State.setCtx_tasks (s : State) (c : Ctx) : (s.setCtx c).tasks = s.tasks := rfl
@[simp] theorem State.setCtx_waiting (s : State) (c : Ctx) : (s.setCtx c).waiting = s.waiting := rfl
@[simp] theorem State.setCtx_parties (s : State) (c : Ctx) : (s.setCtx c).parties = s.parties := rfl
@[simp] theorem State.setCtx_policy (s : State) (c : Ctx) : (s.setCtx c).policy = s.policy := rfl
@[simp] theorem State.setCtx_straggle (s : State) (c : Ctx) : (s.setCtx c).straggle = s.straggle := rfl
@[simp] theorem State.setCtx_ready (s : State) (c : Ctx) : (s.setCtx c).ready = s.ready := rfl
@[simp] theorem State.setCtx_replace (s : State) (c : Ctx) : (s.setCtx c).replace = s.replace := rfl
@[simp] theorem State.setCtx_linkdown (s : State) (c : Ctx) : (s.setCtx c).linkdown = s.linkdown := rfl
@[simp] theorem State.setCtx_ctxs (s : State) (c : Ctx) : (s.setCtx c).ctxs = s.ctxs.map (fun x => if x.num == c.num then c else x) := rfl
@[simp] theorem State.setCtx_reports (s : State) (c : Ctx) : (s.setCtx c).reports = s.reports := rfl
@[simp] theorem State.setCtx_mlim (s : State) (c : Ctx) : (s.setCtx c).mlim = s.mlim := rfl
@[simp] theorem State.setCtx_chret (s : State) (c : Ctx) : (s.setCtx c).chret = s.chret := rfl
@[simp] theorem State.setCtx_chMarked (s : State) (c : Ctx) : (s.setCtx c).chMarked = s.chMarked := rfl
@[simp] theorem State.setCtx_errs (s : State) (c : Ctx) : (s.setCtx c).errs = s.errs := rfl
@[simp] theorem State.setCtx_hostfns (s : State) (c : Ctx) : (s.setCtx c).hostfns = s.hostfns := rfl
@[simp] theorem State.setCtx_binds (s : State) (c : Ctx) : (s.setCtx c).binds = s.binds := rfl
@[simp] theorem State.setCtx_raised (s : State) (c : Ctx) : (s.setCtx c).raised = s.raised := rfl
@[simp] theorem State.setCtx_works (s : State) (c : Ctx) : (s.setCtx c).works = s.works := rfl
@[simp] theorem State.setCtx_table (s : State) (c : Ctx) : (s.setCtx c).table = s.table := rfl
@[simp] theorem State.setCtx_tableUsed (s : State) (c : Ctx) : (s.setCtx c).tableUsed = s.tableUsed := rfl

/-! ## State.tlbDrop -/

@[simp] theorem State.tlbDrop_agenda (s : State) (a : Nat) : (s.tlbDrop a).agenda = s.agenda := rfl
@[simp] theorem State.tlbDrop_fresh (s : State) (a : Nat) : (s.tlbDrop a).fresh = s.fresh := rfl
@[simp] theorem State.tlbDrop_cur (s : State) (a : Nat) : (s.tlbDrop a).cur = s.cur := rfl
@[simp] theorem State.tlbDrop_threads (s : State) (a : Nat) : (s.tlbDrop a).threads = s.threads := rfl
@[simp] theorem State.tlbDrop_seq (s : State) (a : Nat) : (s.tlbDrop a).seq = s.seq := rfl
@[simp] theorem State.tlbDrop_lcnt0 (s : State) (a : Nat) : (s.tlbDrop a).lcnt0 = s.lcnt0 := rfl
@[simp] theorem State.tlbDrop_lcnt1 (s : State) (a : Nat) : (s.tlbDrop a).lcnt1 = s.lcnt1 := rfl
@[simp] theorem State.tlbDrop_droop (s : State) (a : Nat) : (s.tlbDrop a).droop = s.droop := rfl
@[simp] theorem State.tlbDrop_testmax (s : State) (a : Nat) : (s.tlbDrop a).testmax = s.testmax := rfl
@[simp] theorem State.tlbDrop_clock (s : State) (a : Nat) : (s.tlbDrop a).clock = s.clock := rfl
@[simp] theorem State.tlbDrop_cidx (s : State) (a : Nat) : (s.tlbDrop a).cidx = s.cidx := rfl
@[simp] theorem State.tlbDrop_die (s : State) (a : Nat) : (s.tlbDrop a).die = s.die := rfl
@[simp] theorem State.tlbDrop_module_ (s : State) (a : Nat) : (s.tlbDrop a).module_ = s.module_ := rfl
@[simp] theorem State.tlbDrop_qcore (s : State) (a : Nat) : (s.tlbDrop a).qcore = s.qcore := rfl
@[simp] theorem State.tlbDrop_laneMarked (s : State) (a : Nat) : (s.tlbDrop a).laneMarked = s.laneMarked := rfl
@[simp] theorem State.tlbDrop_laneLast (s : State) (a : Nat) : (s.tlbDrop a).laneLast = s.laneLast := rfl
@[simp] theorem State.tlbDrop_laneRetired (s : State) (a : Nat) : (s.tlbDrop a).laneRetired = s.laneRetired := rfl
@[simp] theorem State.tlbDrop_coreMarked (s : State) (a : Nat) : (s.tlbDrop a).coreMarked = s.coreMarked := rfl
@[simp] theorem State.tlbDrop_coreRetired (s : State) (a : Nat) : (s.tlbDrop a).coreRetired = s.coreRetired := rfl
@[simp] theorem State.tlbDrop_gate (s : State) (a : Nat) : (s.tlbDrop a).gate = s.gate := rfl
@[simp] theorem State.tlbDrop_lines (s : State) (a : Nat) : (s.tlbDrop a).lines = s.lines := rfl
@[simp] theorem State.tlbDrop_tlb (s : State) (a : Nat) : (s.tlbDrop a).tlb = s.tlb.filter (fun t => t.addr != a) := rfl
@[simp] theorem State.tlbDrop_words (s : State) (a : Nat) : (s.tlbDrop a).words = s.words := rfl
@[simp] theorem State.tlbDrop_sp (s : State) (a : Nat) : (s.tlbDrop a).sp = s.sp := rfl
@[simp] theorem State.tlbDrop_tables (s : State) (a : Nat) : (s.tlbDrop a).tables = s.tables := rfl
@[simp] theorem State.tlbDrop_acc (s : State) (a : Nat) : (s.tlbDrop a).acc = s.acc := rfl
@[simp] theorem State.tlbDrop_accFmt (s : State) (a : Nat) : (s.tlbDrop a).accFmt = s.accFmt := rfl
@[simp] theorem State.tlbDrop_accSat (s : State) (a : Nat) : (s.tlbDrop a).accSat = s.accSat := rfl
@[simp] theorem State.tlbDrop_cmds (s : State) (a : Nat) : (s.tlbDrop a).cmds = s.cmds := rfl
@[simp] theorem State.tlbDrop_postFaults (s : State) (a : Nat) : (s.tlbDrop a).postFaults = s.postFaults := rfl
@[simp] theorem State.tlbDrop_wt (s : State) (a : Nat) : (s.tlbDrop a).wt = s.wt := rfl
@[simp] theorem State.tlbDrop_matQ (s : State) (a : Nat) : (s.tlbDrop a).matQ = s.matQ := rfl
@[simp] theorem State.tlbDrop_panels (s : State) (a : Nat) : (s.tlbDrop a).panels = s.panels := rfl
@[simp] theorem State.tlbDrop_pike (s : State) (a : Nat) : (s.tlbDrop a).pike = s.pike := rfl
@[simp] theorem State.tlbDrop_mem (s : State) (a : Nat) : (s.tlbDrop a).mem = s.mem := rfl
@[simp] theorem State.tlbDrop_poison (s : State) (a : Nat) : (s.tlbDrop a).poison = s.poison := rfl
@[simp] theorem State.tlbDrop_spPoison (s : State) (a : Nat) : (s.tlbDrop a).spPoison = s.spPoison := rfl
@[simp] theorem State.tlbDrop_ltPoison (s : State) (a : Nat) : (s.tlbDrop a).ltPoison = s.ltPoison := rfl
@[simp] theorem State.tlbDrop_accPoison (s : State) (a : Nat) : (s.tlbDrop a).accPoison = s.accPoison := rfl
@[simp] theorem State.tlbDrop_pool (s : State) (a : Nat) : (s.tlbDrop a).pool = s.pool := rfl
@[simp] theorem State.tlbDrop_cows (s : State) (a : Nat) : (s.tlbDrop a).cows = s.cows := rfl
@[simp] theorem State.tlbDrop_fwins (s : State) (a : Nat) : (s.tlbDrop a).fwins = s.fwins := rfl
@[simp] theorem State.tlbDrop_reqs (s : State) (a : Nat) : (s.tlbDrop a).reqs = s.reqs := rfl
@[simp] theorem State.tlbDrop_links (s : State) (a : Nat) : (s.tlbDrop a).links = s.links := rfl
@[simp] theorem State.tlbDrop_routeFaults (s : State) (a : Nat) : (s.tlbDrop a).routeFaults = s.routeFaults := rfl
@[simp] theorem State.tlbDrop_orphans (s : State) (a : Nat) : (s.tlbDrop a).orphans = s.orphans := rfl
@[simp] theorem State.tlbDrop_areas (s : State) (a : Nat) : (s.tlbDrop a).areas = s.areas := rfl
@[simp] theorem State.tlbDrop_launches (s : State) (a : Nat) : (s.tlbDrop a).launches = s.launches := rfl
@[simp] theorem State.tlbDrop_watches (s : State) (a : Nat) : (s.tlbDrop a).watches = s.watches := rfl
@[simp] theorem State.tlbDrop_unwatched (s : State) (a : Nat) : (s.tlbDrop a).unwatched = s.unwatched := rfl
@[simp] theorem State.tlbDrop_owed (s : State) (a : Nat) : (s.tlbDrop a).owed = s.owed := rfl
@[simp] theorem State.tlbDrop_tasks (s : State) (a : Nat) : (s.tlbDrop a).tasks = s.tasks := rfl
@[simp] theorem State.tlbDrop_waiting (s : State) (a : Nat) : (s.tlbDrop a).waiting = s.waiting := rfl
@[simp] theorem State.tlbDrop_parties (s : State) (a : Nat) : (s.tlbDrop a).parties = s.parties := rfl
@[simp] theorem State.tlbDrop_policy (s : State) (a : Nat) : (s.tlbDrop a).policy = s.policy := rfl
@[simp] theorem State.tlbDrop_straggle (s : State) (a : Nat) : (s.tlbDrop a).straggle = s.straggle := rfl
@[simp] theorem State.tlbDrop_ready (s : State) (a : Nat) : (s.tlbDrop a).ready = s.ready := rfl
@[simp] theorem State.tlbDrop_replace (s : State) (a : Nat) : (s.tlbDrop a).replace = s.replace := rfl
@[simp] theorem State.tlbDrop_linkdown (s : State) (a : Nat) : (s.tlbDrop a).linkdown = s.linkdown := rfl
@[simp] theorem State.tlbDrop_ctxs (s : State) (a : Nat) : (s.tlbDrop a).ctxs = s.ctxs := rfl
@[simp] theorem State.tlbDrop_reports (s : State) (a : Nat) : (s.tlbDrop a).reports = s.reports := rfl
@[simp] theorem State.tlbDrop_mlim (s : State) (a : Nat) : (s.tlbDrop a).mlim = s.mlim := rfl
@[simp] theorem State.tlbDrop_chret (s : State) (a : Nat) : (s.tlbDrop a).chret = s.chret := rfl
@[simp] theorem State.tlbDrop_chMarked (s : State) (a : Nat) : (s.tlbDrop a).chMarked = s.chMarked := rfl
@[simp] theorem State.tlbDrop_errs (s : State) (a : Nat) : (s.tlbDrop a).errs = s.errs := rfl
@[simp] theorem State.tlbDrop_hostfns (s : State) (a : Nat) : (s.tlbDrop a).hostfns = s.hostfns := rfl
@[simp] theorem State.tlbDrop_binds (s : State) (a : Nat) : (s.tlbDrop a).binds = s.binds := rfl
@[simp] theorem State.tlbDrop_raised (s : State) (a : Nat) : (s.tlbDrop a).raised = s.raised := rfl
@[simp] theorem State.tlbDrop_works (s : State) (a : Nat) : (s.tlbDrop a).works = s.works := rfl
@[simp] theorem State.tlbDrop_table (s : State) (a : Nat) : (s.tlbDrop a).table = s.table := rfl
@[simp] theorem State.tlbDrop_tableUsed (s : State) (a : Nat) : (s.tlbDrop a).tableUsed = s.tableUsed := rfl

/-! ## State.dropLine -/

@[simp] theorem State.dropLine_agenda (s : State) (n : Nat) : (s.dropLine n).agenda = s.agenda := rfl
@[simp] theorem State.dropLine_fresh (s : State) (n : Nat) : (s.dropLine n).fresh = s.fresh := rfl
@[simp] theorem State.dropLine_cur (s : State) (n : Nat) : (s.dropLine n).cur = s.cur := rfl
@[simp] theorem State.dropLine_threads (s : State) (n : Nat) : (s.dropLine n).threads = s.threads := rfl
@[simp] theorem State.dropLine_seq (s : State) (n : Nat) : (s.dropLine n).seq = s.seq := rfl
@[simp] theorem State.dropLine_lcnt0 (s : State) (n : Nat) : (s.dropLine n).lcnt0 = s.lcnt0 := rfl
@[simp] theorem State.dropLine_lcnt1 (s : State) (n : Nat) : (s.dropLine n).lcnt1 = s.lcnt1 := rfl
@[simp] theorem State.dropLine_droop (s : State) (n : Nat) : (s.dropLine n).droop = s.droop := rfl
@[simp] theorem State.dropLine_testmax (s : State) (n : Nat) : (s.dropLine n).testmax = s.testmax := rfl
@[simp] theorem State.dropLine_clock (s : State) (n : Nat) : (s.dropLine n).clock = s.clock := rfl
@[simp] theorem State.dropLine_cidx (s : State) (n : Nat) : (s.dropLine n).cidx = s.cidx := rfl
@[simp] theorem State.dropLine_die (s : State) (n : Nat) : (s.dropLine n).die = s.die := rfl
@[simp] theorem State.dropLine_module_ (s : State) (n : Nat) : (s.dropLine n).module_ = s.module_ := rfl
@[simp] theorem State.dropLine_qcore (s : State) (n : Nat) : (s.dropLine n).qcore = s.qcore := rfl
@[simp] theorem State.dropLine_laneMarked (s : State) (n : Nat) : (s.dropLine n).laneMarked = s.laneMarked := rfl
@[simp] theorem State.dropLine_laneLast (s : State) (n : Nat) : (s.dropLine n).laneLast = s.laneLast := rfl
@[simp] theorem State.dropLine_laneRetired (s : State) (n : Nat) : (s.dropLine n).laneRetired = s.laneRetired := rfl
@[simp] theorem State.dropLine_coreMarked (s : State) (n : Nat) : (s.dropLine n).coreMarked = s.coreMarked := rfl
@[simp] theorem State.dropLine_coreRetired (s : State) (n : Nat) : (s.dropLine n).coreRetired = s.coreRetired := rfl
@[simp] theorem State.dropLine_gate (s : State) (n : Nat) : (s.dropLine n).gate = s.gate := rfl
@[simp] theorem State.dropLine_lines (s : State) (n : Nat) : (s.dropLine n).lines = s.lines.filter (fun l => l.line != n) := rfl
@[simp] theorem State.dropLine_tlb (s : State) (n : Nat) : (s.dropLine n).tlb = s.tlb := rfl
@[simp] theorem State.dropLine_words (s : State) (n : Nat) : (s.dropLine n).words = s.words := rfl
@[simp] theorem State.dropLine_sp (s : State) (n : Nat) : (s.dropLine n).sp = s.sp := rfl
@[simp] theorem State.dropLine_tables (s : State) (n : Nat) : (s.dropLine n).tables = s.tables := rfl
@[simp] theorem State.dropLine_acc (s : State) (n : Nat) : (s.dropLine n).acc = s.acc := rfl
@[simp] theorem State.dropLine_accFmt (s : State) (n : Nat) : (s.dropLine n).accFmt = s.accFmt := rfl
@[simp] theorem State.dropLine_accSat (s : State) (n : Nat) : (s.dropLine n).accSat = s.accSat := rfl
@[simp] theorem State.dropLine_cmds (s : State) (n : Nat) : (s.dropLine n).cmds = s.cmds := rfl
@[simp] theorem State.dropLine_postFaults (s : State) (n : Nat) : (s.dropLine n).postFaults = s.postFaults := rfl
@[simp] theorem State.dropLine_wt (s : State) (n : Nat) : (s.dropLine n).wt = s.wt := rfl
@[simp] theorem State.dropLine_matQ (s : State) (n : Nat) : (s.dropLine n).matQ = s.matQ := rfl
@[simp] theorem State.dropLine_panels (s : State) (n : Nat) : (s.dropLine n).panels = s.panels := rfl
@[simp] theorem State.dropLine_pike (s : State) (n : Nat) : (s.dropLine n).pike = s.pike := rfl
@[simp] theorem State.dropLine_mem (s : State) (n : Nat) : (s.dropLine n).mem = s.mem := rfl
@[simp] theorem State.dropLine_poison (s : State) (n : Nat) : (s.dropLine n).poison = s.poison := rfl
@[simp] theorem State.dropLine_spPoison (s : State) (n : Nat) : (s.dropLine n).spPoison = s.spPoison := rfl
@[simp] theorem State.dropLine_ltPoison (s : State) (n : Nat) : (s.dropLine n).ltPoison = s.ltPoison := rfl
@[simp] theorem State.dropLine_accPoison (s : State) (n : Nat) : (s.dropLine n).accPoison = s.accPoison := rfl
@[simp] theorem State.dropLine_pool (s : State) (n : Nat) : (s.dropLine n).pool = s.pool := rfl
@[simp] theorem State.dropLine_cows (s : State) (n : Nat) : (s.dropLine n).cows = s.cows := rfl
@[simp] theorem State.dropLine_fwins (s : State) (n : Nat) : (s.dropLine n).fwins = s.fwins := rfl
@[simp] theorem State.dropLine_reqs (s : State) (n : Nat) : (s.dropLine n).reqs = s.reqs := rfl
@[simp] theorem State.dropLine_links (s : State) (n : Nat) : (s.dropLine n).links = s.links := rfl
@[simp] theorem State.dropLine_routeFaults (s : State) (n : Nat) : (s.dropLine n).routeFaults = s.routeFaults := rfl
@[simp] theorem State.dropLine_orphans (s : State) (n : Nat) : (s.dropLine n).orphans = s.orphans := rfl
@[simp] theorem State.dropLine_areas (s : State) (n : Nat) : (s.dropLine n).areas = s.areas := rfl
@[simp] theorem State.dropLine_launches (s : State) (n : Nat) : (s.dropLine n).launches = s.launches := rfl
@[simp] theorem State.dropLine_watches (s : State) (n : Nat) : (s.dropLine n).watches = s.watches := rfl
@[simp] theorem State.dropLine_unwatched (s : State) (n : Nat) : (s.dropLine n).unwatched = s.unwatched := rfl
@[simp] theorem State.dropLine_owed (s : State) (n : Nat) : (s.dropLine n).owed = s.owed := rfl
@[simp] theorem State.dropLine_tasks (s : State) (n : Nat) : (s.dropLine n).tasks = s.tasks := rfl
@[simp] theorem State.dropLine_waiting (s : State) (n : Nat) : (s.dropLine n).waiting = s.waiting := rfl
@[simp] theorem State.dropLine_parties (s : State) (n : Nat) : (s.dropLine n).parties = s.parties := rfl
@[simp] theorem State.dropLine_policy (s : State) (n : Nat) : (s.dropLine n).policy = s.policy := rfl
@[simp] theorem State.dropLine_straggle (s : State) (n : Nat) : (s.dropLine n).straggle = s.straggle := rfl
@[simp] theorem State.dropLine_ready (s : State) (n : Nat) : (s.dropLine n).ready = s.ready := rfl
@[simp] theorem State.dropLine_replace (s : State) (n : Nat) : (s.dropLine n).replace = s.replace := rfl
@[simp] theorem State.dropLine_linkdown (s : State) (n : Nat) : (s.dropLine n).linkdown = s.linkdown := rfl
@[simp] theorem State.dropLine_ctxs (s : State) (n : Nat) : (s.dropLine n).ctxs = s.ctxs := rfl
@[simp] theorem State.dropLine_reports (s : State) (n : Nat) : (s.dropLine n).reports = s.reports := rfl
@[simp] theorem State.dropLine_mlim (s : State) (n : Nat) : (s.dropLine n).mlim = s.mlim := rfl
@[simp] theorem State.dropLine_chret (s : State) (n : Nat) : (s.dropLine n).chret = s.chret := rfl
@[simp] theorem State.dropLine_chMarked (s : State) (n : Nat) : (s.dropLine n).chMarked = s.chMarked := rfl
@[simp] theorem State.dropLine_errs (s : State) (n : Nat) : (s.dropLine n).errs = s.errs := rfl
@[simp] theorem State.dropLine_hostfns (s : State) (n : Nat) : (s.dropLine n).hostfns = s.hostfns := rfl
@[simp] theorem State.dropLine_binds (s : State) (n : Nat) : (s.dropLine n).binds = s.binds := rfl
@[simp] theorem State.dropLine_raised (s : State) (n : Nat) : (s.dropLine n).raised = s.raised := rfl
@[simp] theorem State.dropLine_works (s : State) (n : Nat) : (s.dropLine n).works = s.works := rfl
@[simp] theorem State.dropLine_table (s : State) (n : Nat) : (s.dropLine n).table = s.table := rfl
@[simp] theorem State.dropLine_tableUsed (s : State) (n : Nat) : (s.dropLine n).tableUsed = s.tableUsed := rfl

/-! ## Slots and threads -/

theorem get_set_same {α : Type} {n : Nat} (v : Vector α n) (i : Fin n) (x : α) : (v.set i.val x i.isLt).get i = x := by
  rw [Vector.get_eq_getElem]; simp

theorem get_set_ne {α : Type} {n : Nat} (v : Vector α n) (i j : Fin n) (x : α) (h : i ≠ j) :
    (v.set i.val x i.isLt).get j = v.get j := by
  rw [Vector.get_eq_getElem, Vector.get_eq_getElem, Vector.getElem_set]
  exact if_neg (fun e => h (Fin.ext e))

@[simp] theorem State.th_setTh (s : State) (sl : Slot) (t : Thread) : (s.setTh sl t).th sl = t := get_set_same s.threads sl t

theorem State.th_setTh_ne (s : State) (a b : Slot) (t : Thread) (h : a ≠ b) : (s.setTh a t).th b = s.th b :=
  get_set_ne s.threads a b t h

@[simp] theorem State.setTh_setTh (s : State) (sl : Slot) (t u : Thread) : (s.setTh sl t).setTh sl u = s.setTh sl u := by
  simp [State.setTh]

@[simp] theorem State.th_dropScalar (s : State) (a b : Slot) : (s.dropScalar a).th b = s.th b := rfl
@[simp] theorem State.me_dropScalar (s : State) (a : Slot) : (s.dropScalar a).me = s.me := rfl
@[simp] theorem State.th_putHome (s : State) (pa : Nat) (bs : List Byte) (b : Slot) : (s.putHome pa bs).th b = s.th b := rfl
@[simp] theorem State.me_putHome (s : State) (pa : Nat) (bs : List Byte) : (s.putHome pa bs).me = s.me := rfl
@[simp] theorem State.setMe_cur (s : State) (t : Thread) : (s.setMe t).cur = s.cur := rfl
@[simp] theorem State.me_setMe (s : State) (t : Thread) : (s.setMe t).me = t := by simp [State.me, State.setMe]

theorem other_ne (sl : Slot) : other sl ≠ sl := by revert sl; decide
theorem other_other (sl : Slot) : other (other sl) = sl := by revert sl; decide

theorem State.th_other_setMe (s : State) (t : Thread) : (s.setMe t).th (other s.cur) = s.th (other s.cur) :=
  State.th_setTh_ne s s.cur (other s.cur) t (fun e => other_ne s.cur e.symm)

/-! ## What committing leaves (R191) -/

@[simp] theorem State.committed_cur (s : State) (t : Thread) (pc : Word) : (s.committed t pc).cur = s.cur := rfl

theorem State.committed_me (s : State) (t : Thread) (pc : Word) :
    (s.committed t pc).me = { t with pc := pc, stalled := false, drain := false, found := none, wait := none, copied := []
                                     arrived := if t.held then t.arrived else none
                                     upArrived := none, defer := false
                                     count := if t.held then t.count else t.count + 1 } := by
  simp [State.committed, State.setMe, State.me, State.dropScalar]

theorem State.committed_other (s : State) (t : Thread) (pc : Word) : (s.committed t pc).th (other s.cur) = s.th (other s.cur) :=
  State.th_other_setMe (s.dropScalar s.cur) _

theorem State.committed_elsewhere (s : State) (t : Thread) (pc : Word) : SameElsewhere s (s.committed t pc) := rfl

/-! ## s registers (R15, R197) -/

@[simp] theorem Thread.wr_occupied (t : Thread) (r : BitVec 5) (v : Word) : (t.wr r v).occupied = t.occupied := by
  unfold Thread.wr; repeat (first | rfl | split)
@[simp] theorem Thread.wr_party (t : Thread) (r : BitVec 5) (v : Word) : (t.wr r v).party = t.party := by
  unfold Thread.wr; repeat (first | rfl | split)
@[simp] theorem Thread.wr_ctx (t : Thread) (r : BitVec 5) (v : Word) : (t.wr r v).ctx = t.ctx := by
  unfold Thread.wr; repeat (first | rfl | split)
@[simp] theorem Thread.wr_level (t : Thread) (r : BitVec 5) (v : Word) : (t.wr r v).level = t.level := by
  unfold Thread.wr; repeat (first | rfl | split)
@[simp] theorem Thread.wr_pc (t : Thread) (r : BitVec 5) (v : Word) : (t.wr r v).pc = t.pc := by
  unfold Thread.wr; repeat (first | rfl | split)
@[simp] theorem Thread.wr_cfg (t : Thread) (r : BitVec 5) (v : Word) : (t.wr r v).cfg = t.cfg := by
  unfold Thread.wr; repeat (first | rfl | split)
@[simp] theorem Thread.wr_vec (t : Thread) (r : BitVec 5) (v : Word) : (t.wr r v).vec = t.vec := by
  unfold Thread.wr; repeat (first | rfl | split)
@[simp] theorem Thread.wr_held (t : Thread) (r : BitVec 5) (v : Word) : (t.wr r v).held = t.held := by
  unfold Thread.wr; repeat (first | rfl | split)
@[simp] theorem Thread.wr_vsw (t : Thread) (r : BitVec 5) (v : Word) : (t.wr r v).vsw = t.vsw := by
  unfold Thread.wr; repeat (first | rfl | split)
@[simp] theorem Thread.wr_granted (t : Thread) (r : BitVec 5) (v : Word) : (t.wr r v).granted = t.granted := by
  unfold Thread.wr; repeat (first | rfl | split)
@[simp] theorem Thread.wr_vpf (t : Thread) (r : BitVec 5) (v : Word) : (t.wr r v).vpf = t.vpf := by
  unfold Thread.wr; repeat (first | rfl | split)
@[simp] theorem Thread.wr_vpfDone (t : Thread) (r : BitVec 5) (v : Word) : (t.wr r v).vpfDone = t.vpfDone := by
  unfold Thread.wr; repeat (first | rfl | split)
@[simp] theorem Thread.wr_segCarry (t : Thread) (r : BitVec 5) (v : Word) : (t.wr r v).segCarry = t.segCarry := by
  unfold Thread.wr; repeat (first | rfl | split)
@[simp] theorem Thread.wr_txn (t : Thread) (r : BitVec 5) (v : Word) : (t.wr r v).txn = t.txn := by
  unfold Thread.wr; repeat (first | rfl | split)
@[simp] theorem Thread.wr_wait (t : Thread) (r : BitVec 5) (v : Word) : (t.wr r v).wait = t.wait := by
  unfold Thread.wr; repeat (first | rfl | split)
@[simp] theorem Thread.wr_copied (t : Thread) (r : BitVec 5) (v : Word) : (t.wr r v).copied = t.copied := by
  unfold Thread.wr; repeat (first | rfl | split)
@[simp] theorem Thread.wr_arrived (t : Thread) (r : BitVec 5) (v : Word) : (t.wr r v).arrived = t.arrived := by
  unfold Thread.wr; repeat (first | rfl | split)
@[simp] theorem Thread.wr_upArrived (t : Thread) (r : BitVec 5) (v : Word) : (t.wr r v).upArrived = t.upArrived := by
  unfold Thread.wr; repeat (first | rfl | split)
@[simp] theorem Thread.wr_breaks (t : Thread) (r : BitVec 5) (v : Word) : (t.wr r v).breaks = t.breaks := by
  unfold Thread.wr; repeat (first | rfl | split)
@[simp] theorem Thread.wr_version (t : Thread) (r : BitVec 5) (v : Word) : (t.wr r v).version = t.version := by
  unfold Thread.wr; repeat (first | rfl | split)
@[simp] theorem Thread.wr_stalled (t : Thread) (r : BitVec 5) (v : Word) : (t.wr r v).stalled = t.stalled := by
  unfold Thread.wr; repeat (first | rfl | split)
@[simp] theorem Thread.wr_drain (t : Thread) (r : BitVec 5) (v : Word) : (t.wr r v).drain = t.drain := by
  unfold Thread.wr; repeat (first | rfl | split)
@[simp] theorem Thread.wr_found (t : Thread) (r : BitVec 5) (v : Word) : (t.wr r v).found = t.found := by
  unfold Thread.wr; repeat (first | rfl | split)
@[simp] theorem Thread.wr_queue (t : Thread) (r : BitVec 5) (v : Word) : (t.wr r v).queue = t.queue := by
  unfold Thread.wr; repeat (first | rfl | split)
@[simp] theorem Thread.wr_early (t : Thread) (r : BitVec 5) (v : Word) : (t.wr r v).early = t.early := by
  unfold Thread.wr; repeat (first | rfl | split)
@[simp] theorem Thread.wr_prep (t : Thread) (r : BitVec 5) (v : Word) : (t.wr r v).prep = t.prep := by
  unfold Thread.wr; repeat (first | rfl | split)
@[simp] theorem Thread.wr_defer (t : Thread) (r : BitVec 5) (v : Word) : (t.wr r v).defer = t.defer := by
  unfold Thread.wr; repeat (first | rfl | split)
@[simp] theorem Thread.wr_vlSet (t : Thread) (r : BitVec 5) (v : Word) : (t.wr r v).vlSet = t.vlSet := by
  unfold Thread.wr; repeat (first | rfl | split)
@[simp] theorem Thread.wr_count (t : Thread) (r : BitVec 5) (v : Word) : (t.wr r v).count = t.count := by
  unfold Thread.wr; repeat (first | rfl | split)

@[simp] theorem Thread.rd_zero (t : Thread) : t.rd 0 = 0 := rfl
@[simp] theorem Thread.wr_zero (t : Thread) (v : Word) : t.wr 0 v = t := rfl

theorem Thread.rd_wr_same (t : Thread) (r : BitVec 5) (v : Word) (h : r ≠ 0) : (t.wr r v).rd r = v := by
  by_cases h9 : 29 ≤ r.toNat
  · by_cases hu : t.level = .user
    · simp only [Thread.wr, Thread.rd, if_neg h, dif_pos h9, if_pos hu]
      exact get_set_same t.sregs r.toFin v
    · simp only [Thread.wr, Thread.rd, if_neg h, dif_pos h9, if_neg hu]
      exact get_set_same t.upper ⟨r.toNat - 29, _⟩ v
  · simp only [Thread.wr, Thread.rd, if_neg h, dif_neg h9]
    exact get_set_same t.sregs r.toFin v

theorem Thread.rd_wr_ne (t : Thread) (r q : BitVec 5) (v : Word) (h : q ≠ r) : (t.wr r v).rd q = t.rd q := by
  have hf : r.toFin ≠ q.toFin := fun e => h (BitVec.eq_of_toFin_eq e.symm)
  have hn : r.toNat ≠ q.toNat := fun e => h (BitVec.eq_of_toNat_eq e.symm)
  by_cases h0 : r = 0
  · simp only [Thread.wr, if_pos h0]
  by_cases q0 : q = 0
  · simp only [Thread.rd, if_pos q0]
  by_cases h9 : 29 ≤ r.toNat <;> by_cases q9 : 29 ≤ q.toNat <;> by_cases hu : t.level = .user <;>
    simp only [Thread.wr, Thread.rd, if_neg h0, if_neg q0, h9, q9, hu, dif_pos, dif_neg, not_false_eq_true, if_true, if_false]
  all_goals first
    | rfl
    | exact get_set_ne t.sregs r.toFin q.toFin v hf
    | exact get_set_ne t.upper ⟨r.toNat - 29, by omega⟩ ⟨q.toNat - 29, by omega⟩ v (fun e => hn (by have := congrArg Fin.val e; simp at this; omega))

end Sys2Proof.Machine
end

