-- ==== Sys2Proof/Laws/Memory.lean ====
section
/-! SUPPORT. The canonical form of the sparse memories: every operation that writes them keeps it, reading after writing, and what the
named operations over memory do to the byte memories. -/

namespace Sys2Proof.Machine

/-! ## Sparse lists -/

theorem Cells.wfFrom_mono {α : Type} [DecidableEq α] (d : α) :
    ∀ (l : List (Nat × α)) (lo hi : Nat), lo ≤ hi → Cells.wfFrom d hi l = true → Cells.wfFrom d lo l = true
  | [], _, _, _, _ => rfl
  | (k, v) :: r, lo, hi, h, w => by
    simp only [Cells.wfFrom, Bool.and_eq_true, decide_eq_true_eq] at w ⊢
    exact ⟨⟨Nat.le_trans h w.1.1, w.1.2⟩, w.2⟩

theorem Cells.wfFrom_filter {α : Type} [DecidableEq α] (d : α) (p : Nat × α → Bool) :
    ∀ (l : List (Nat × α)) (lo : Nat), Cells.wfFrom d lo l = true → Cells.wfFrom d lo (l.filter p) = true
  | [], _, _ => rfl
  | (k, v) :: r, lo, h => by
    simp only [Cells.wfFrom, Bool.and_eq_true, decide_eq_true_eq] at h
    have hr := Cells.wfFrom_filter d p r (k + 1) h.2
    by_cases hp : p (k, v) = true
    · simp [List.filter, hp, Cells.wfFrom, h.1.1, h.1.2, hr]
    · simpa [List.filter, hp] using Cells.wfFrom_mono d _ lo (k + 1) (by omega) hr

theorem Cells.wf_filter {α : Type} [DecidableEq α] (d : α) (p : Nat × α → Bool) (l : List (Nat × α)) (h : Cells.wf d l = true) :
    Cells.wf d (l.filter p) = true := Cells.wfFrom_filter d p l 0 h

theorem Cells.wf_clear {α : Type} [DecidableEq α] (d : α) (l : List (Nat × α)) (lo n : Nat) (h : Cells.wf d l = true) :
    Cells.wf d (Cells.clear l lo n) = true := Cells.wf_filter d _ l h

theorem Cells.wfFrom_insert {α : Type} [DecidableEq α] (d : α) (a : Nat) (v : α) (hv : v ≠ d) :
    ∀ (l : List (Nat × α)) (lo : Nat), lo ≤ a → (∀ c ∈ l, c.1 ≠ a) → Cells.wfFrom d lo l = true →
      Cells.wfFrom d lo (Cells.insert l a v) = true
  | [], lo, h, _, _ => by simp [Cells.insert, Cells.wfFrom, hv, h]
  | (k, w) :: r, lo, h, hn, hw => by
    simp only [Cells.wfFrom, Bool.and_eq_true, decide_eq_true_eq] at hw
    obtain ⟨⟨hk, hd⟩, hr⟩ := hw
    have hne : k ≠ a := hn (k, w) (by simp)
    by_cases hlt : a < k
    · simp [Cells.insert, hlt, Cells.wfFrom, h, hv, hd, hr]
    · have ih := Cells.wfFrom_insert d a v hv r (k + 1) (by omega) (fun c hc => hn c (by simp [hc])) hr
      simp [Cells.insert, hlt, Cells.wfFrom, hk, hd, ih]

theorem Cells.mem_filter_ne {α : Type} (l : List (Nat × α)) (a : Nat) : ∀ c ∈ l.filter (fun c => c.1 != a), c.1 ≠ a := by
  intro c hc
  simpa using (List.mem_filter.mp hc).2

theorem Cells.wf_set {α : Type} [DecidableEq α] (d : α) (l : List (Nat × α)) (a : Nat) (v : α) (h : Cells.wf d l = true) :
    Cells.wf d (Cells.set d l a v) = true := by
  unfold Cells.set
  by_cases hv : v = d
  · simpa [hv] using Cells.wf_filter d _ l h
  · simpa [hv, Cells.wf] using Cells.wfFrom_insert d a v hv _ 0 (Nat.zero_le a) (Cells.mem_filter_ne l a) (Cells.wfFrom_filter d _ l 0 h)

theorem Cells.get_filter_ne {α : Type} (d : α) (a b : Nat) (h : b ≠ a) :
    ∀ l : List (Nat × α), Cells.get d (l.filter (fun c => c.1 != a)) b = Cells.get d l b
  | [] => rfl
  | (k, w) :: r => by
    have ih := Cells.get_filter_ne d a b h r
    by_cases hk : k = a
    · subst hk; simp [List.filter, Cells.get, h, ih]
    · have hb : (k != a) = true := by simpa using hk
      simp [List.filter, hb, Cells.get, ih]

theorem Cells.get_absent {α : Type} (d : α) (a : Nat) : ∀ l : List (Nat × α), (∀ c ∈ l, c.1 ≠ a) → Cells.get d l a = d
  | [], _ => rfl
  | (k, w) :: r, h => by
    have hk : k ≠ a := h (k, w) (by simp)
    simp [Cells.get, Ne.symm hk, Cells.get_absent d a r (fun c hc => h c (by simp [hc]))]

theorem Cells.get_insert_ne {α : Type} (d : α) (a b : Nat) (v : α) (h : b ≠ a) :
    ∀ l : List (Nat × α), Cells.get d (Cells.insert l a v) b = Cells.get d l b
  | [] => by simp [Cells.insert, Cells.get, h]
  | (k, w) :: r => by
    by_cases hlt : a < k <;> simp [Cells.insert, hlt, Cells.get, h, Cells.get_insert_ne d a b v h r]

theorem Cells.get_insert_same {α : Type} (d : α) (a : Nat) (v : α) :
    ∀ l : List (Nat × α), (∀ c ∈ l, c.1 ≠ a) → Cells.get d (Cells.insert l a v) a = v
  | [], _ => by simp [Cells.insert, Cells.get]
  | (k, w) :: r, h => by
    have hk : k ≠ a := h (k, w) (by simp)
    by_cases hlt : a < k
    · simp [Cells.insert, hlt, Cells.get]
    · simp [Cells.insert, hlt, Cells.get, Ne.symm hk, Cells.get_insert_same d a v r (fun c hc => h c (by simp [hc]))]

/-- Another key reads as before a write. -/
theorem Cells.get_set_ne {α : Type} [DecidableEq α] (d : α) (a b : Nat) (v : α) (h : b ≠ a) (l : List (Nat × α)) :
    Cells.get d (Cells.set d l a v) b = Cells.get d l b := by
  by_cases hv : v = d
  · simpa [Cells.set, hv] using Cells.get_filter_ne d a b h l
  · simpa [Cells.set, hv] using (Cells.get_insert_ne d a b v h _).trans (Cells.get_filter_ne d a b h l)

/-- A key that has been written reads as what was written. -/
theorem Cells.get_set_same {α : Type} [DecidableEq α] (d : α) (a : Nat) (v : α) (l : List (Nat × α)) :
    Cells.get d (Cells.set d l a v) a = v := by
  by_cases hv : v = d
  · simpa [Cells.set, hv] using Cells.get_absent d a _ (Cells.mem_filter_ne l a)
  · simpa [Cells.set, hv] using Cells.get_insert_same d a v _ (Cells.mem_filter_ne l a)

theorem Cells.wf_overlay {α : Type} [DecidableEq α] (d : α) (m : List (Nat × α)) (gone : Nat → Bool) (l : List (Nat × α))
    (h : Cells.wf d m = true) : Cells.wf d (overlay d m gone l) = true := by
  have go : ∀ (l m : List (Nat × α)), Cells.wf d m = true → Cells.wf d (l.foldl (fun m c => Cells.set d m c.1 c.2) m) = true := by
    intro l
    induction l with
    | nil => exact fun _ h => h
    | cons c r ih => exact fun m h => ih _ (Cells.wf_set d m c.1 c.2 h)
  exact go l _ (Cells.wf_filter d _ m h)

/-! ## Byte memories -/

theorem Memory.wf_set (m : List Host.Cell) (a : Nat) (b : Byte) (h : Memory.wf m = true) : Memory.wf (Memory.set m a b) = true :=
  Cells.wf_set unwritten m a b h

theorem Memory.wf_setList : ∀ (bs : List Byte) (m : List Host.Cell) (a : Nat), Memory.wf m = true → Memory.wf (Memory.setList m a bs) = true
  | [], _, _, h => h
  | b :: r, m, a, h => Memory.wf_setList r (Memory.set m a b) (a + 1) (Memory.wf_set m a b h)

theorem Memory.wf_filter (m : List Host.Cell) (p : Host.Cell → Bool) (h : Memory.wf m = true) : Memory.wf (m.filter p) = true :=
  Cells.wf_filter unwritten p m h

theorem Memory.wf_foldSet (f : Host.Cell → Nat × Byte) : ∀ (l m : List Host.Cell), Memory.wf m = true →
    Memory.wf (l.foldl (fun m c => Memory.set m (f c).1 (f c).2) m) = true
  | [], _, h => h
  | c :: r, m, h => Memory.wf_foldSet f r (Memory.set m (f c).1 (f c).2) (Memory.wf_set m _ _ h)

theorem Memory.get_set_ne (m : List Host.Cell) (a b : Nat) (v : Byte) (h : b ≠ a) : Memory.get (Memory.set m a v) b = Memory.get m b :=
  Cells.get_set_ne unwritten a b v h m

theorem Memory.get_set_same (m : List Host.Cell) (a : Nat) (v : Byte) : Memory.get (Memory.set m a v) a = v :=
  Cells.get_set_same unwritten a v m

/-- Bytes outside the range that a list of bytes is written to are as they were. -/
theorem Memory.get_setList_out : ∀ (bs : List Byte) (m : List Host.Cell) (a b : Nat), b < a ∨ a + bs.length ≤ b →
    Memory.get (Memory.setList m a bs) b = Memory.get m b
  | [], _, _, _, _ => rfl
  | v :: r, m, a, b, h => by
    have hl : (v :: r).length = r.length + 1 := rfl
    rw [hl] at h
    have ih := Memory.get_setList_out r (Memory.set m a v) (a + 1) b (by omega)
    rw [Memory.setList, ih, Memory.get_set_ne m a b v (by omega)]

/-- Byte i of a list that has been written is read back. -/
theorem Memory.get_setList_in : ∀ (bs : List Byte) (m : List Host.Cell) (a i : Nat), i < bs.length →
    Memory.get (Memory.setList m a bs) (a + i) = bs.getD i 0
  | [], _, _, _, h => by simp at h
  | v :: r, m, a, 0, _ => by
    rw [Memory.setList, Memory.get_setList_out r _ (a + 1) (a + 0) (by omega), Nat.add_zero, Memory.get_set_same m a v]; rfl
  | v :: r, m, a, i + 1, h => by
    have ih := Memory.get_setList_in r (Memory.set m a v) (a + 1) i (by simpa using h)
    rw [Memory.setList, show a + (i + 1) = a + 1 + i by omega, ih]; rfl

theorem length_leBytes : ∀ n x, (leBytes n x).length = n
  | 0, _ => rfl
  | n + 1, x => by simp [leBytes, length_leBytes n]

/-- The bytes of a number are the number again, modulo the width (R31). -/
theorem leNat_leBytes : ∀ n x, leNat (leBytes n x) = x % 256 ^ n
  | 0, x => by simp [leBytes, leNat]; omega
  | n + 1, x => by
    rw [leBytes, leNat, leNat_leBytes n, Nat.pow_succ, BitVec.toNat_ofNat]
    have := Nat.mod_mul (x := x) (a := 256) (b := 256 ^ n)
    rw [Nat.mul_comm (256 ^ n) 256, this]

/-! ## The named operations keep the canonical form -/

theorem State.memWf_iff (s : State) : s.memWf = true ↔ Memory.wf s.mem = true ∧ Memory.wf s.sp = true ∧ Memory.wf s.tables = true := by
  simp [State.memWf, and_assoc]

theorem State.memWf_putHome (s : State) (pa : Nat) (bs : List Byte) (h : s.memWf = true) : (s.putHome pa bs).memWf = true := by
  rw [State.memWf_iff] at h ⊢
  exact ⟨Memory.wf_setList bs s.mem pa h.1, h.2.1, h.2.2⟩

theorem State.memWf_putSp (s : State) (off : Nat) (b : Byte) (h : s.memWf = true) : (s.putSp off b).memWf = true := by
  rw [State.memWf_iff] at h ⊢
  exact ⟨h.1, Memory.wf_set s.sp off b h.2.1, h.2.2⟩

theorem State.memWf_putSpList : ∀ (bs : List Byte) (s : State) (off : Nat), s.memWf = true → (s.putSpList off bs).memWf = true
  | [], _, _, h => h
  | b :: r, s, off, h => State.memWf_putSpList r (s.putSp off b) (off + 1) (State.memWf_putSp s off b h)

/-- An operation that keeps the canonical form at every element keeps it over a list. -/
theorem State.memWf_foldl {α : Type} (f : State → α → State) (hf : ∀ s x, s.memWf = true → (f s x).memWf = true) :
    ∀ (l : List α) (s : State), s.memWf = true → (l.foldl f s).memWf = true
  | [], _, h => h
  | x :: r, s, h => State.memWf_foldl f hf r (f s x) (hf s x h)

theorem State.memWf_putTolWord (s : State) (frame j : Nat) (bs : List (Nat × Byte)) (h : s.memWf = true) :
    (s.putTolWord frame j bs).memWf = true := State.memWf_putHome s _ _ h

theorem State.memWf_putByte (s : State) (p : Loc × Byte) (h : s.memWf = true) : (s.putByte p).memWf = true := by
  unfold State.putByte
  split
  · exact State.memWf_putSp s _ _ h
  · exact State.memWf_putHome s _ _ h
  · exact State.memWf_putHome s _ _ h
  · exact State.memWf_putHome s _ _ h
  · exact h

theorem State.memWf_putLocs (s : State) (l : List (Loc × Byte)) (h : s.memWf = true) : (s.putLocs l).memWf = true :=
  State.memWf_foldl _ (fun s w hs => State.memWf_putTolWord s w.1 w.2 _ hs) (tolWords l) _
    (State.memWf_foldl State.putByte State.memWf_putByte l s h)

theorem State.memWf_flushBytes (s : State) (l : Line) (h : s.memWf = true) : (s.flushBytes l).memWf = true := by
  refine State.memWf_foldl _ (fun s i hs => ?_) (List.range 64) s h
  split
  · exact State.memWf_putHome s _ _ hs
  · exact hs

theorem State.memWf_flushLine (s : State) (n : Nat) (h : s.memWf = true) : (s.flushLine n).memWf = true := by
  unfold State.flushLine
  split
  · exact h
  · exact State.memWf_flushBytes s _ h

theorem State.memWf_dropLine (s : State) (n : Nat) (h : s.memWf = true) : (s.dropLine n).memWf = true := h

theorem State.memWf_fitLines (s : State) (h : s.memWf = true) : s.fitLines.memWf = true :=
  State.memWf_foldl _ (fun s l hs => State.memWf_dropLine _ _ (State.memWf_flushLine s l.line hs)) _ s h

theorem State.memWf_fillLine (s : State) (n : Nat) (h : s.memWf = true) : (s.fillLine n).memWf = true := by
  unfold State.fillLine
  split
  · exact h
  · exact State.memWf_fitLines _ h

theorem State.memWf_recall (s : State) (pa n : Nat) (h : s.memWf = true) : (s.recall pa n).memWf = true :=
  State.memWf_foldl _ (fun s _ hs => State.memWf_dropLine _ _ (State.memWf_flushLine s _ hs)) _ s h

theorem State.memWf_releaseLines (s : State) (h : s.memWf = true) : s.releaseLines.memWf = true :=
  State.memWf_foldl State.flushLine (fun s n hs => State.memWf_flushLine s n hs) _ s h

theorem State.memWf_acquireLines (s : State) (h : s.memWf = true) : s.acquireLines.memWf = true := State.memWf_releaseLines s h

theorem State.memWf_lineWrite (s : State) (pa : Nat) (bs : List Byte) (h : s.memWf = true) : (s.lineWrite pa bs).memWf = true :=
  State.memWf_fillLine s (pa / 64) h

theorem State.memWf_touch (s : State) (l : Leaf) (w : Bool) (h : s.memWf = true) : (s.touch l w).memWf = true := by
  unfold State.touch
  extract_lets need s1
  by_cases hn : need = 0
  · rw [if_pos hn]; exact h
  · rw [if_neg hn]; exact State.memWf_putHome _ _ _ (State.memWf_recall s _ _ h)

/-- What is restored of an engine party, and of a thread's lane tables, is in canonical form. -/
theorem State.memWf_loadEngine (s : State) (f : TaskRec) (e : SavedEngine) (moves : List (Slot × Slot)) (h : s.memWf = true) :
    (s.loadEngine f e moves).memWf = true := by
  rw [State.memWf_iff] at h ⊢
  exact ⟨h.1, Cells.wf_overlay unwritten s.sp (fun a => decide (a < 4096 * f.tiles)) e.sp h.2.1, h.2.2⟩

theorem State.memWf_setTh (s : State) (sl : Slot) (t : Thread) (h : s.memWf = true) : (s.setTh sl t).memWf = true := h

theorem State.memWf_committed (s : State) (t : Thread) (pc : Word) (h : s.memWf = true) : (s.committed t pc).memWf = true := h

end Sys2Proof.Machine
end

