-- ==== Sys2Proof/Tests/Slice0.lean ====
section
/-! SUPPORT. Tests of single steps on small states, a refused term for each check of WellFormed, words of the spec's encoding tables, and for
every statement with hypotheses a state and operands that meet them all. Expected values come from the rule that each test names. -/

namespace Sys2Proof.Tests

open Sys2Proof.Machine

set_option maxRecDepth 20000
set_option Elab.async false

/-! ## Small states -/

/-- A user thread in slot 0, with the turn, whose context maps the first 64 GiB of virtual addresses to the same physical ones. -/
def base : State := { State.reset.withFetchWord 32 0 with cur := 0 }

/-- A change of the thread with the turn. -/
def on (s : State) (f : Thread → Thread) : State := s.setMe (f s.me)

/-- Some s registers of the thread with the turn set. -/
def regs (s : State) (l : List (BitVec 5 × Word)) : State := on s (fun t => l.foldl (fun t p => t.wr p.1 p.2) t)

/-- Bytes of the home store set. -/
def bytes (s : State) (pa : Nat) (bs : List Byte) : State := s.putHome pa bs

/-- A task record that reserves every engine. -/
def record : TaskRec :=
  { bind := 0x40000, dctr := 0, dinc := 0, ncore := 1, two := false, lanes := 4, prio := 0, indirect := false, accs := 4, stages := 12
    walker := true, tiles := 128, dies := 1, engine := true, pcount := 1, save := 0, poolt := 0, argp := 0, stack := 0x50000, tls := 0x60000
    stksz := 256, tlssz := 64, energy := 0, savesz := 0 }

def barrier : Barrier := { phase := 7, arr := 0, exp := 0, report := 0 }
def party : Party :=
  { key := 1, task := 1, pidx := 0, barriers := Vector.replicate 16 barrier, live := [0], stamp := 0, saving := none }
def task : Task :=
  { key := 1, ctx := 1, va := 0x30000, fields := record, pools := Vector.replicate 8 { remain := 100, next := 5, minchunk := 8, members := [] }
    open_ := 1, faulted := false, started := true }

/-- The same thread in a placed engine party, with four lanes. -/
def placed : State :=
  { on base (fun t => { t with party := 1, granted := true, cfg := { t.cfg with lalive := 4, lmap := 15 } }) with
    parties := [party], tasks := [task], lcnt0 := 4, seq := 10 }

/-- The outcome is a next state of which P holds. -/
def nextIs (o : Host.Outcome State Fault Refusal) (P : State → Bool) : Bool :=
  match o with
  | .next s => P s
  | _ => false

/-- The trap cause that the thread of slot 0 has taken, once it is at supervisor level. -/
def trapped (c : BitVec 8) (s : State) : Bool := (s.th 0).level == .supervisor && (s.th 0).cfg.trapcause == c

/-! ## Words of the encoding tables

One word for every instruction of the table, each field of it at a value of its own; the words of the spec's own listings (R48, R103, R126, R149,
R174, R204, R249, R258, R322, R334, R338, R368, R389, R400) are among them. -/

/-- Each word decodes to its instruction, and the instruction encodes to the word. -/
def wordsOk (l : List (Insn × Instr)) : Bool := l.all (fun p => decide (decode p.1 = .ok p.2 ∧ encode p.2 = some p.1))

theorem test_words_salu : wordsOk [
   (0x05293000#32, .add 9 9 6),
   (0x04290801#32, .sub 1 9 1),
   (0x06CD3802#32, .and 22 13 7),
   (0x06CD3803#32, .or 22 13 7),
   (0x06CD3804#32, .xor 22 13 7),
   (0x06CD3805#32, .sll 22 13 7),
   (0x06CD3806#32, .srl 22 13 7),
   (0x06CD3807#32, .sra 22 13 7),
   (0x06CD3808#32, .ror 22 13 7),
   (0x06CD3809#32, .slt 22 13 7),
   (0x06CD380A#32, .sltn 22 13 7),
   (0x06CD380B#32, .mul 22 13 7),
   (0x06CD380C#32, .mulh 22 13 7),
   (0x06CD380D#32, .mulhn 22 13 7),
   (0x06CD380E#32, .div 22 13 7),
   (0x06CD380F#32, .divn 22 13 7),
   (0x06CD3810#32, .rem 22 13 7),
   (0x06CD3811#32, .remn 22 13 7),
   (0x06CD3812#32, .min 22 13 7),
   (0x06CD3813#32, .max 22 13 7),
   (0x06CD3814#32, .minn 22 13 7),
   (0x06CD3815#32, .maxn 22 13 7),
   (0x06CD0016#32, .clz 22 13),
   (0x06CD0017#32, .ctz 22 13),
   (0x06CD0018#32, .spopc 22 13),
   (0x06CD0019#32, .sextb 22 13),
   (0x06CD001A#32, .sexth 22 13),
   (0x06CD001B#32, .sextw 22 13)] = true := by decide +kernel

theorem test_words_shifti : wordsOk [
   (0x22CD0025#32, .slli 22 13 37),
   (0x22CD0065#32, .srli 22 13 37),
   (0x20850083#32, .srai 4 5 3),
   (0x22CD00E5#32, .rori 22 13 37)] = true := by decide +kernel

theorem test_words_sld : wordsOk [
   (0x32CD0A53#32, .ldb 22 13 0xa53),
   (0x32CD1A53#32, .ldh 22 13 0xa53),
   (0x32CD2A53#32, .ldw 22 13 0xa53),
   (0x30DF3008#32, .ldd 6 31 8),
   (0x32CD4A53#32, .ldbn 22 13 0xa53),
   (0x32CD5A53#32, .ldhn 22 13 0xa53),
   (0x307F6FFC#32, .ldwn 3 31 (-4))] = true := by decide +kernel

theorem test_words_sst : wordsOk [
   (0x36B60000#32, .stb 21 22 0),
   (0x36CD1A53#32, .sth 22 13 0xa53),
   (0x36CD2A53#32, .stw 22 13 0xa53),
   (0x36CD3A53#32, .std 22 13 0xa53)] = true := by decide +kernel

theorem test_words_samo : wordsOk [
   (0x38A73045#32, .amoadd 5 7 6 4 1 1),
   (0x3ACD38D5#32, .amoand 22 13 7 5 1 1),
   (0x3ACD3955#32, .amoor 22 13 7 5 1 1),
   (0x3ACD39D5#32, .amoxor 22 13 7 5 1 1),
   (0x3ACD3A55#32, .amomin 22 13 7 5 1 1),
   (0x3ACD3AD5#32, .amomax 22 13 7 5 1 1),
   (0x3ACD3B55#32, .amominn 22 13 7 5 1 1),
   (0x3ACD3BD5#32, .amomaxn 22 13 7 5 1 1),
   (0x3ACD3C55#32, .amoswap 22 13 7 5 1 1),
   (0x38A734DD#32, .amocas 5 7 6 5 3 1)] = true := by decide +kernel

theorem test_words_ctlr : wordsOk [
   (0x60090000#32, .jr 9),
   (0x60160001#32, .callr 22),
   (0x60000002#32, .ret)] = true := by decide +kernel

theorem test_words_sys : wordsOk [
   (0x70000005#32, .trap 5),
   (0x70000080#32, .eret),
   (0x70C00100#32, .rdcfg 6 0),
   (0x70050183#32, .wrcfg 5 3),
   (0x7000026C#32, .fence true true false true 4),
   (0x70000283#32, .brk 3),
   (0x70000300#32, .exit),
   (0x70000380#32, .yield),
   (0x700C0400#32, .splice 3),
   (0x70080480#32, .launch 8),
   (0x70040500#32, .wsave 4),
   (0x70040580#32, .wload 4),
   (0x70A63E00#32, .snapr 5 6 7),
   (0x70A63E01#32, .snaprX 5 6 7),
   (0x70042E80#32, .tlbinv 4 5),
   (0x70C42F00#32, .pgpool 6 4 5)] = true := by decide +kernel

theorem test_words_sync : wordsOk [
   (0x74C00002#32, .bar 6 2),
   (0x74C00082#32, .bara 6 2),
   (0x74E60102#32, .barw 7 6 2),
   (0x74080182#32, .barexp 8 2),
   (0x74A00201#32, .take 5 1),
   (0x74000281#32, .lrel 1),
   (0x77374300#32, .waitc 25 23 8),
   (0x76CD3B80#32, .cadd 22 13 7)] = true := by decide +kernel

theorem test_words_vconf : wordsOk [
   (0x80A40000#32, .setvl 5 4 0 0),
   (0x80A000C8#32, .setvli 5 0 2 1),
   (0x80A63944#32, .setfib 5 6 7 2 2),
   (0x80200184#32, .vtag 1 4)] = true := by decide +kernel

theorem test_words_varith : wordsOk [
   (0x84221980#32, .vadd 1 2 3 3 false),
   (0x86CD3981#32, .vsub 22 13 7 3 false),
   (0x86CD39C2#32, .vrsub 22 13 7 3 true),
   (0x86CD39C3#32, .vaddw 22 13 7 3 true),
   (0x86CD39C4#32, .vsubw 22 13 7 3 true),
   (0x86CD3985#32, .vmul 22 13 7 3 false),
   (0x84C74086#32, .vmulh 6 7 8 1 false),
   (0x86CD3987#32, .vdiv 22 13 7 3 false),
   (0x86CD3988#32, .vrem 22 13 7 3 false),
   (0x86CD3989#32, .vmin 22 13 7 3 false),
   (0x86CD398A#32, .vmax 22 13 7 3 false),
   (0x86CD058B#32, .vabs 22 13 11),
   (0x86CD058C#32, .vneg 22 13 11),
   (0x86CD398D#32, .vand 22 13 7 3 false),
   (0x86CD39CE#32, .vor 22 13 7 3 true),
   (0x86CD398F#32, .vxor 22 13 7 3 false),
   (0x86CD3990#32, .vsll 22 13 7 3 false),
   (0x86CD3991#32, .vsrl 22 13 7 3 false),
   (0x86CD3992#32, .vsra 22 13 7 3 false),
   (0x84490013#32, .vcvt 2 9 0)] = true := by decide +kernel

theorem test_words_varithi : wordsOk [
   (0x8822E800#32, .vaddi 1 2 (-3) 0),
   (0x8ACD3981#32, .vsubi 22 13 7 3),
   (0x8ACD3982#32, .vrsubi 22 13 7 3),
   (0x8ACD3983#32, .vaddwi 22 13 7 3),
   (0x8ACD3984#32, .vsubwi 22 13 7 3),
   (0x8ACD3985#32, .vmuli 22 13 7 3),
   (0x8ACD3989#32, .vmini 22 13 7 3),
   (0x8ACD398A#32, .vmaxi 22 13 7 3),
   (0x8ACD398D#32, .vandi 22 13 7 3),
   (0x8ACD398E#32, .vori 22 13 7 3),
   (0x8ACD398F#32, .vxori 22 13 7 3),
   (0x8ACD3990#32, .vslli 22 13 7 3),
   (0x8ACD3991#32, .vsrli 22 13 7 3),
   (0x88642812#32, .vsrai 3 4 5 0)] = true := by decide +kernel

theorem test_words_vcmp : wordsOk [
   (0x8C214040#32, .vcmpeq 1 1 8 0 true),
   (0x8CAD3981#32, .vcmpne 5 13 7 3 false),
   (0x8C442882#32, .vcmplt 2 4 5 1 false),
   (0x8CAD3983#32, .vcmple 5 13 7 3 false),
   (0x8CAD3984#32, .vcmpgt 5 13 7 3 false),
   (0x8CAD3985#32, .vcmpge 5 13 7 3 false),
   (0x8CAD3986#32, .vcmpun 5 13 7 3 false),
   (0x8CAD3988#32, .mand 5 13 7 3),
   (0x8CAD3989#32, .mor 5 13 7 3),
   (0x8CAD398A#32, .mxor 5 13 7 3),
   (0x8CAD398B#32, .mandn 5 13 7 3),
   (0x8CAD058C#32, .mnot 5 13 11),
   (0x8C62000D#32, .msbf 3 2 0),
   (0x8CAD058E#32, .msif 5 13 11),
   (0x8CAD058F#32, .msof 5 13 11),
   (0x8CC30010#32, .viota 6 3 0),
   (0x8EC00311#32, .vid 22 6)] = true := by decide +kernel

theorem test_words_vperm : wordsOk [
   (0x90853000#32, .vrgather 4 5 6 0),
   (0x90883001#32, .vrgather2 4 8 6 0),
   (0x92CD39C2#32, .vslideup 22 13 7 3),
   (0x90432043#32, .vslidedown 2 3 4 0),
   (0x92CD39C4#32, .vslide1up 22 13 7 3),
   (0x92CD39C5#32, .vslide1down 22 13 7 3),
   (0x90E82806#32, .vcompress 7 8 5),
   (0x92CD3987#32, .vpush 22 13 7 3)] = true := by decide +kernel

theorem test_words_vwide : wordsOk [
   (0x96CD39C0#32, .vwmul 22 13 7 3 true),
   (0x95021801#32, .vwmacc 8 2 3 0 false),
   (0x96CD39C2#32, .vwadd 22 13 7 3 true),
   (0x96CE0583#32, .vncvt 22 14 11),
   (0x94AA3844#32, .vnshr 5 10 7 0 true)] = true := by decide +kernel

theorem test_words_vmovx : wordsOk [
   (0x98204840#32, .vsplat 1 9 0),
   (0x9ACD39C1#32, .vext 22 13 7 3),
   (0x98622042#32, .vmvs 3 2 4),
   (0x98E10003#32, .mffs 7 1),
   (0x9ACD0004#32, .mpopc 22 13)] = true := by decide +kernel

theorem test_words_vfx : wordsOk [
   (0xA0220000#32, .vfsqrt 1 2 0),
   (0xA2CD0581#32, .vfrec 22 13 11),
   (0xA2CD0582#32, .vfrsqrt 22 13 11),
   (0xA2CD0583#32, .vfclass 22 13 11),
   (0xA2CD3984#32, .vfsgnj 22 13 7 3 false),
   (0xA2CD39C5#32, .vfsgnjn 22 13 7 3 true),
   (0xA2CD39C6#32, .vfsgnjx 22 13 7 3 true)] = true := by decide +kernel

theorem test_words_vfma : wordsOk [
   (0xA4853008#32, .vfmadd 4 5 6 0 false 1),
   (0xA6CD3999#32, .vfmsub 22 13 7 3 false 3),
   (0xA6CD39DA#32, .vfrmsub 22 13 7 3 true 3),
   (0xA6CD39DB#32, .vfnmadd 22 13 7 3 true 3)] = true := by decide +kernel

theorem test_words_vred : wordsOk [
   (0xAACD3980#32, .vredsumo 22 13 7 3 false),
   (0xA8621801#32, .vredsumt 3 2 3 0 false),
   (0xAACD39C2#32, .vredmin 22 13 7 3 true),
   (0xAACD39C3#32, .vredmax 22 13 7 3 true),
   (0xAACD39C4#32, .vredand 22 13 7 3 true),
   (0xAACD3985#32, .vredor 22 13 7 3 false),
   (0xAACD39C6#32, .vredxor 22 13 7 3 true),
   (0xAACD0588#32, .vscansum 22 13 11),
   (0xAACD0589#32, .vscanmin 22 13 11),
   (0xAACD058A#32, .vscanmax 22 13 11)] = true := by decide +kernel

theorem test_words_vld : wordsOk [
   (0xC0640001#32, .vld 3 4 0 false false 1),
   (0xC0842968#32, .vldStrided 4 4 5 2 true true 0),
   (0xC0443810#32, .vldIndexed 2 4 7 0 false false 0 false),
   (0xC0290018#32, .vldFf 1 9 0 false false 0)] = true := by decide +kernel

theorem test_words_vst : wordsOk [
   (0xC6CD05A3#32, .vst 22 13 11 false true 3),
   (0xC4A6394A#32, .vstStrided 5 6 7 2 true false 2),
   (0xC4443815#32, .vstIndexed 2 4 7 0 false false 2 true)] = true := by decide +kernel

theorem test_words_vamo : wordsOk [
   (0xC8C84886#32, .vamoadd 6 8 9 1 3 false),
   (0xCACD398A#32, .vamoand 22 13 7 3 1 false),
   (0xCACD3993#32, .vamoor 22 13 7 3 1 true),
   (0xCACD399A#32, .vamoxor 22 13 7 3 1 false),
   (0xCACD39A2#32, .vamomin 22 13 7 3 1 false),
   (0xCACD39AA#32, .vamomax 22 13 7 3 1 false),
   (0xCACD39B3#32, .vamominn 22 13 7 3 1 true),
   (0xCACD39BB#32, .vamomaxn 22 13 7 3 1 true),
   (0xCACD39C3#32, .vamoswap 22 13 7 3 1 true),
   (0xC888484C#32, .vamocas 4 8 9 0 2 false)] = true := by decide +kernel

theorem test_words_vlt : wordsOk [
   (0xCC642800#32, .vltl 3 4 5 0),
   (0xCC642908#32, .vlts 3 4 5 2),
   (0xCCC42810#32, .tblb 6 4 5)] = true := by decide +kernel

theorem test_words_vpb : wordsOk [
   (0xE0000003#32, .vpf 0 3),
   (0xE120000B#32, .vpbr 2 11),
   (0xE2000002#32, .vpj 2),
   (0xE3000000#32, .vpstop)] = true := by decide +kernel

theorem test_words_cur : wordsOk [
   (0xE906C000#32, .cpy 8 3 12 false 0 0),
   (0xE900A200#32, .cpyg 8 0 10 false 0 0),
   (0xEA8C7596#32, .cpys 20 6 7 true 9 6),
   (0xE904C710#32, .cpymg 8 2 12 true 1 0),
   (0xEA040800#32, .cwtld 16 2 false 0 0),
   (0xE8800A00#32, .csbar 4),
   (0xE8040C00#32, .cresume 2)] = true := by decide +kernel

theorem test_words_mat : wordsOk [
   (0xEC1F19CC#32, .mcfg 7 24 25 3 3),
   (0xEC800000#32, .mzero 0),
   (0xED15A000#32, .mma 0 21 20),
   (0xED886280#32, .mmav 8 12 5),
   (0xEE0C6800#32, .mrd 0 12 13 0),
   (0xEEB52000#32, .mst 1 21 1)] = true := by decide +kernel

theorem test_words_pike : wordsOk [
   (0xF402A000#32, .pkcfg 21),
   (0xF482A000#32, .pkload 21 0),
   (0xF500000F#32, .pkswap 0x00F),
   (0xF5829600#32, .pkfeed 20 22),
   (0xF6600000#32, .pkmiss 24 0),
   (0xF694C000#32, .pkdrain 5 6),
   (0xF694C080#32, .pkdrainClr 5 6)] = true := by decide +kernel

theorem test_words_xt : wordsOk [
   (0xF8000000#32, .xbegin),
   (0xF894E000#32, .xst 5 7),
   (0xF9240000#32, .xcommit 9),
   (0xF9800000#32, .xabort)] = true := by decide +kernel

theorem test_words_one_per_major : wordsOk [
   (0x0AD40834#32, .addi 22 20 2100),
   (0x0ECDC0F1#32, .andi 22 13 0xc0f1),
   (0x12CDC0F1#32, .ori 22 13 0xc0f1),
   (0x16CDC0F1#32, .xori 22 13 0xc0f1),
   (0x1ACDC0F1#32, .slti 22 13 0xc0f1),
   (0x1ECDC0F1#32, .sltni 22 13 0xc0f1),
   (0x26800003#32, .lih 20 0x0003),
   (0x2884FF00#32, .lix 4 4 0xFF00),
   (0x2CC00001#32, .addpc 6 1),
   (0x42CDC0F1#32, .beq 22 13 0xc0f1),
   (0x46CDC0F1#32, .bne 22 13 0xc0f1),
   (0x4ACDC0F1#32, .blt 22 13 0xc0f1),
   (0x4CE00004#32, .bge 7 0 4),
   (0x52CDC0F1#32, .bltn 22 13 0xc0f1),
   (0x56CDC0F1#32, .bgen 22 13 0xc0f1),
   (0x5BFFFFF9#32, .j (-7)),
   (0x5C000006#32, .call 6),
   (0xF1CC70C0#32, .cwalk 14 12 14 3)] = true := by decide +kernel

theorem test_words_more_listed : wordsOk [
   (0x0BFFFFF0#32, .addi 31 31 (-16)),
   (0x36B60FFF#32, .stb 21 22 (-1)),
   (0x84222840#32, .vadd 1 2 5 0 true),
   (0xA4853078#32, .vfmadd 4 5 6 0 true 7),
   (0xE1300002#32, .vpbr 3 2),
   (0xE12FFFF5#32, .vpbr 2 (-11)),
   (0xE902A200#32, .cpyg 8 1 10 false 0 0),
   (0xF482A003#32, .pkload 21 3),
   (0xF5000001#32, .pkswap 0x001),
   (0xF582F600#32, .pkfeed 23 22)] = true := by decide +kernel

/-! ## Refused terms, one for each check of WellFormed, and refused words -/

/-- None of the terms is well formed. -/
def allRefused (l : List Instr) : Bool := l.all (fun i => !i.wellFormed)
theorem test_wellFormed_codes : allRefused [.amoadd 1 2 3 6 0 0, .amocas 1 2 3 0 0 2, .rdcfg 1 0x19, .wrcfg 1 0x01, .wrcfg 1 0x19,
    .fence true true true true 6, .fence false false true true 0, .fence true false false false 0, .setfib 1 2 3 0 0, .vtag 1 0xE,
    .vfmadd 1 2 3 0 false 5, .vfnmadd 1 2 3 0 false 6, .mcfg 1 2 3 0 4, .mcfg 1 2 3 0 15, .mst 0 1 7, .pkload 1 12, .pkmiss 1 16, .pkmiss 1 63] =
    true := by decide
theorem test_wellFormed_registers : allRefused [.vcmpeq 16 1 2 0 false, .mand 0 16 1 0, .mor 0 1 16 0, .mnot 16 0 0, .viota 1 16 0, .vcompress 1 2 16,
    .mffs 1 16, .vrgather2 1 3 4 0, .vwmul 3 4 5 0 false, .vncvt 1 3 0, .vamocas 3 4 5 0 0 false, .cwalk 3 4 6 8, .cpy 0 1 8 false 0 0,
    .cpy 8 1 9 false 0 0, .cpyg 9 1 2 false 0 0, .cpymg 8 1 0 false 0 0, .cwtld 1 1 false 0 0, .csbar 0, .mmav 8 9 0] = true := by decide
theorem test_wellFormed_events : allRefused [.registerFree 0 false 128, .registerFree 0 true 48, .elementAccess 0 (26 + 2 ^ 41) 0, .elementAccess 0 0 8192,
    .dataLanding 0 24 0, .dataLanding 0 0 8192, .hostBarAccess ⟨0, 0⟩ .bar0 0 (.read 8), .hostAtomicop ⟨0, 0⟩ .bar2 0 .and true 1 0] = true := by decide
theorem test_wellFormed_bounds : [Instr.registerFree 0 false 127, .registerFree 0 true 47, .elementAccess 1 (25 + 2 ^ 41) 8191, .rdcfg 1 0x18,
    .amoadd 1 2 3 5 0 1, .vtag 1 0xD, .mcfg 1 2 3 0 14, .pkload 1 11, .pkmiss 1 15, .pkmiss 1 64].all (fun i => i.wellFormed) = true := by decide
/-- R33, R36, R37: an unassigned major, an unassigned function, a field not used that is not zero, an illegal code. -/
theorem test_decode_refuses : decode 0x00000000 = .error .unassignedMajor ∧ decode 0xFC000000 = .error .unassignedMajor ∧
    decode 0x0400001C = .error .unassignedFunction ∧ decode 0x04290816 = .error .nonzeroField ∧ decode 0x70000301 = .error .nonzeroField ∧
    decode 0x38A73065 = .error .illegalCode ∧ decode 0x9523180F = .error .unassignedFunction := by decide
/-- Bit 0 of a table word is the least significant bit of the word; no event has a word. -/
theorem test_decodeTableWord : decodeTableWord 32 0x0AD40834 = some (.addi 22 20 2100) ∧ decodeTableWord 32 0 = none ∧ encode .purseInterval = none := by
  decide
/-- R12, assumption 19: the word placed is the first that runs. -/
theorem test_first_step : nextIs (step (State.reset.withFetchWord 32 0x0AD40834)) (fun s => s.me.rd 22 == 2100 && s.me.pc == 0x10004) = true := by
  decide +kernel

/-- The fetched word decodes to i. -/
def wordIs (s : State) (i : Instr) : Bool :=
  match s.fetch s.me s.me.pc with
  | .word _ w => decide (decode w = .ok i)
  | _ => false
theorem wordIs_spec {s : State} {i : Instr} (h : wordIs s i = true) :
    ∃ s1 w, s.fetch s.me s.me.pc = .word s1 w ∧ decode w = .ok i := by
  unfold wordIs at h
  split at h
  · exact ⟨_, _, by assumption, of_decide_eq_true h⟩
  · cases h

/-- The n bytes at va pass every check of R82 and lie in plain local memory from pa on. -/
def localAt (s : State) (k : AccKind) (va : Word) (n pa : Nat) : Bool :=
  match s.xlate s.me.ctx s.me.level k s.me.copied va.toNat with
  | .ok s1 l => decide (va.toNat < 2 ^ 56 ∧ va.toNat % n = 0 ∧ inWindow va.toNat = false ∧ s1.locOf l va.toNat = .home pa ∧
      pteCow l.e = false ∧ pteDev l.e = false ∧ pteTol l.e = false ∧ pteSync l.e = false ∧ pteHost l.e = false)
  | _ => false
theorem localAt_spec {s : State} {k : AccKind} {va : Word} {n pa : Nat} (h : localAt s k va n pa = true) :
    ∃ s1 l, LocalAccess s k va n s1 l pa ∧ pteCow l.e = false ∧ pteDev l.e = false ∧ pteTol l.e = false ∧ pteSync l.e = false ∧
      pteHost l.e = false := by
  unfold localAt at h
  split at h
  · next s1 l hx =>
    have ⟨below, aligned, outside, place, kinds⟩ := of_decide_eq_true h
    exact ⟨s1, l, { below, aligned, outside, mapped := hx, place }, kinds⟩
  · cases h

/-! ## Witnesses of the statements' hypotheses -/

theorem wit_EncodeThenDecode : (Instr.vldFf 1 9 0 false false 0).wellFormed = true ∧ isEvent (.vldFf 1 9 0 false false 0) = false ∧
    (Instr.fence true false true false 5).wellFormed = true ∧ isEvent .exit = false := by decide
theorem wit_DecodeThenEncode : decode 0xC0290018 = .ok (.vldFf 1 9 0 false false 0) ∧ decode 0x70000300 = .ok .exit := by decide

/-- The machine about to fetch the word of ADDI s22, s20, 2100. -/
def ready : State := { State.reset.withFetchWord 32 0x0AD40834 with cur := 0 }
theorem wit_StepRunsDecoded : ready.agenda = [] ∧ ready.turn = some 0 ∧ ready.me.wait = none ∧ ready.waits 0 = false ∧
    ready.engineReady 0 = false ∧ ready.me.breakAt ready.me.pc = none ∧ ready.me.queue = [] ∧ ready.me.passes (.addi 22 20 2100) = true ∧
    ({ ready with cur := 0, fresh := ready.fresh } : State) = ready ∧
    (∃ s1 w, ready.fetch ready.me ready.me.pc = .word s1 w ∧ decode w = .ok (.addi 22 20 2100)) := by
  refine ⟨?_, ?_, ?_, ?_, ?_, ?_, ?_, ?_, rfl, wordIs_spec (by decide)⟩ <;> decide
/-- A VCOMPRESS has not resolved, and the word read is an RDCFG, which needs its value. -/
def resyncing : State :=
  on { State.reset.withFetchWord 32 0x70C00100 with cur := 0 } (fun t => match ruleSpec (.vcompress 1 3 2) with
    | some sp => (let u := t.issue (.vcompress 1 3 2) sp; { u with vec := { u.vec with window := u.vec.window.map (fun r => { r with mark := true }) } })
    | none => t)
theorem wit_StepRunsDecoded_waits : resyncing.agenda = [] ∧ resyncing.turn = some 0 ∧ resyncing.waits 0 = false ∧ resyncing.me.queue = [] ∧
    wordIs resyncing (.rdcfg 6 0) = true ∧ resyncing.me.passes (.rdcfg 6 0) = false := by decide +kernel
theorem wit_StepRunsEvent : ({ base with agenda := [.purseInterval, .yield] } : State).agenda = .purseInterval :: [.yield] ∧
    Instr.purseInterval.wellFormed = true ∧ isEvent .purseInterval = true ∧ isEvent .yield = false ∧ base.preemption 5 = none ∧ base.engineFaultDelivery 0 = none ∧
    (∀ p, Instr.purseInterval ≠ .preemption p) ∧ (∀ sl, Instr.purseInterval ≠ .engineFaultDelivery sl) :=
  ⟨by decide, by decide, by decide, by decide, by decide +kernel, by decide +kernel, nofun, nofun⟩
theorem wit_StepStopsOnlyOnBadAgenda : base.agendaOk = true ∧ ({ base with agenda := [.yield] } : State).agendaOk = false := by decide
theorem wit_StepKeepsMemoryForm : ∃ t, base.memWf = true ∧ step base = .next t := ⟨_, by decide, rfl⟩
theorem wit_UserLevelIsLeftByTrapOnly : ∃ t, isEvent (.brk 3) = false ∧ base.me.level = .user ∧ exec (.brk 3) base = .next t ∧
    t.me.level = .supervisor := ⟨_, by decide, by decide, rfl, by decide⟩

/-- Operands at the corners of R78: 3 / 0, −2^63 / −1, −7 / 2. -/
def divs : State := regs base [(1, 3), (2, 0x8000000000000000), (3, 0xFFFFFFFFFFFFFFFF), (4, 0xFFFFFFFFFFFFFFF9), (5, 2)]
theorem wit_ScalarDivisionResults : divs.me.rd 6 = 0 ∧ (divs.me.rd 2 = BitVec.intMin 64 ∧ divs.me.rd 3 = BitVec.allOnes 64) ∧ divs.me.rd 5 ≠ 0 := by
  decide
theorem wit_ScalarComputationFrame : ∃ t, scalarDest (.div 9 4 5) = some 9 ∧ exec (.div 9 4 5) divs = .next t := ⟨_, by decide, rfl⟩
theorem wit_RegisterFileLaws : base.me.level = .user ∧ ({ base.me with level := .supervisor } : Thread).level ≠ .user ∧ (28 : BitVec 5).toNat < 29 := by
  decide
theorem wit_BranchesAndJumps : ((regs base [(1, 0x20004)]).me.rd 1).toNat % 4 = 0 := by decide
theorem wit_MisalignedTargetsTrap : ((regs base [(1, 0x20002), (31, 0x30010)]).me.rd 1).toNat % 4 ≠ 0 ∧ base.me.vec.window = [] ∧
    ((regs base [(1, 0x20002), (31, 0x30010)]).me.rd 31).toNat % 16 = 0 := by decide

/-- s1 points at a mapped page of local memory, s2 at the scratchpad window; s31 is a stack pointer. -/
def data : State := bytes (regs placed [(1, 0x30000), (2, 0xFFFFFFFF000000), (3, 0x1122334455667788), (31, 0x50100)]) 0x30000 [0x80, 0x91, 0xA2, 0xB3, 4, 5, 6, 0xF7]

theorem wit_local (k : AccKind) : ∃ s1 l, LocalAccess data k (data.me.rd 1) 8 s1 l 0x30000 ∧ pteCow l.e = false ∧ pteDev l.e = false ∧
    pteTol l.e = false ∧ pteSync l.e = false ∧ pteHost l.e = false := by
  cases k <;> exact localAt_spec (by decide +kernel)

/-- The same in the state after the translation, where no entry of the issue queue holds the access back. -/
def freeAt (s : State) (k : AccKind) (va : Word) (n pa : Nat) (reads writes : Bool) : Bool :=
  match s.xlate s.me.ctx s.me.level k s.me.copied va.toNat with
  | .ok s1 l => !s1.queueHolds s.me (homes pa n) reads writes (pteDev l.e)
  | _ => false
/-- The Porter lets the thread's next access into its issue queue (log entry 20). -/
def deferring (s : State) : State := on s (fun t => { t with defer := true })
/-- data with s31 pointing at a return address and a vector-state word. -/
def stacked : State := bytes data 0x50100 (leBytes 8 0x20000 ++ leBytes 8 0x230002)

theorem wit_LoadsReadLocalMemory : loadForm (.ldd 5 1 0) = some { d := 5, a := 1, o := 0, n := 8, signed := false } ∧
    loadForm (.ldb 5 1 0) ≠ none ∧ data.memWf = true ∧ data.scalarHeld data.cur = false ∧ data.poison.contains 0x30000 = false ∧
    data.me.defer = false ∧ freeAt data .read (data.me.rd 1) 8 0x30000 true false = true ∧ data.me.earlyAt .scalar (homes 0x30000 8) = none ∧
    (deferring data).me.defer = true ∧ localAt (deferring data) .read ((deferring data).me.rd 1) 8 0x30000 = true := by decide +kernel
/-- A store of two bytes, and a load of them, in the issue queue of a thread in the other slot. -/
def halfStore : Queued :=
  { age := 0, va := 0x30002, locs := [.home 0x30002, .home 0x30003], cached := false, dev := false, op := .store [7, 8] }
def beside (q : Queued) : State := { data with threads := data.threads.set 1 { data.me with queue := [q] } }
theorem wit_StoresWriteLocalMemory : storeForm (.std 3 1 0) = some { d := 3, a := 1, o := 0, n := 8 } ∧ storeForm (.sth 3 1 0) ≠ none ∧
    data.memWf = true ∧ data.scalarHeld data.cur = false ∧ localAt data .store (data.me.rd 1) 8 0x30000 = true ∧
    freeAt data .store (data.me.rd 1) 8 0x30000 false true = true ∧ (deferring data).me.defer = true ∧ (deferring data).memWf = true ∧
    localAt (deferring data) .store ((deferring data).me.rd 1) 8 0x30000 = true := by decide +kernel
theorem wit_StoresWriteLocalMemory_queue : ((beside halfStore).th 1).queue = [halfStore] ∧ halfStore.locs = homes 0x30002 [7, 8].length ∧
    halfStore.cached = false ∧ ((beside halfStore).queueEvent 1 0).isSome = true ∧
    ((beside { halfStore with op := .load 5 true [0, 0] }).queueEvent 1 0).isSome = true ∧ data.poison = [] := by decide +kernel
/-- R81, R83, R346: the load of a queued half reads at its event, sign-extended. -/
theorem test_queued_load : (match (beside { halfStore with op := .load 5 true [0, 0] }).queueEvent 1 0 with
    | some u => (u.th 1).rd 5 == 0xFFFFFFFFFFFFB3A2 | none => false) = true := by decide +kernel
/-- R346, R348: a deferred LDD goes on at the next word and leaves its register, and a FENCE after it waits in the queue as well. -/
theorem test_deferred_load : nextIs (exec (.ldd 5 1 0) (deferring data)) (fun t => t.me.pc == data.me.pc + 4 && t.me.rd 5 == data.me.rd 5 &&
    t.me.queue.length == 1 && nextIs (exec (.fence true true true true 1) t) (fun u => u.me.stalled)) = true := by decide +kernel
/-- The fields of WindowAccess, as a Bool. -/
def windowAt (s : State) (va : Word) (n off : Nat) : Bool :=
  decide (va.toNat < 2 ^ 56 ∧ va.toNat % n = 0 ∧ inWindow va.toNat = true ∧ va.toNat = winBase + off ∧ off + n ≤ spSize ∧
    off + n ≤ s.tilesOf s.me * 4096 ∧ s.spBusy off n = false)
theorem windowAt_spec {s : State} {va : Word} {n off : Nat} (h : windowAt s va n off = true) : WindowAccess s va n off :=
  have ⟨below, aligned, inside, place, size, tiles, idle⟩ := of_decide_eq_true h
  { below, aligned, inside, place, size, tiles, idle }
theorem wit_WindowLoadsAndStores : data.me.queue = [] ∧ data.me.early = [] ∧ data.queueHolds data.me (tilesAt 0 8) true false false = false ∧
    data.queueHolds data.me (tilesAt 0 8) false true false = false ∧ data.me.earlyAt .scalar (tilesAt 0 8) = none ∧ windowAt data (data.me.rd 2) 8 0 = true ∧ windowAt data (data.me.rd 2 + 0x7FFF8) 8 0x7FFF8 = true ∧
    data.spPoison.contains 0 = false := by decide +kernel
/-- s5: an address above bit 55; s6: a misaligned one; s7: past the party's tiles; s8: an unmapped page. -/
def bad : State := regs data [(5, 0x100000000000000), (6, 0x30004), (7, 0xFFFFFFFF000000 + 0x80000), (8, 0x2000000000)]
/-- The translation of a byte fails with a cause. -/
def faultsWith (s : State) (k : AccKind) (va : Word) (c : BitVec 8) : Bool :=
  match s.xlate s.me.ctx s.me.level k s.me.copied va.toNat with
  | .fault _ d => d == c
  | _ => false
theorem faultsWith_spec {s : State} {k : AccKind} {va : Word} {c : BitVec 8} (h : faultsWith s k va c = true) :
    ∃ s1, s.xlate s.me.ctx s.me.level k s.me.copied va.toNat = .fault s1 c := by
  unfold faultsWith at h
  split at h
  · next s1 d hx => exact ⟨s1, by rw [hx, eq_of_beq h]⟩
  · cases h
theorem wit_ScalarAccessChecksInOrder : bad.me.vec.window = [] ∧ 2 ^ 56 ≤ (bad.me.rd 5).toNat ∧ (bad.me.rd 6).toNat < 2 ^ 56 ∧
    (bad.me.rd 6).toNat % 8 ≠ 0 ∧ (bad.me.rd 7).toNat < 2 ^ 56 ∧ (bad.me.rd 7).toNat % 8 = 0 ∧ inWindow (bad.me.rd 7).toNat = true ∧
    bad.tilesOf bad.me * 4096 < (bad.me.rd 7).toNat - winBase + 8 ∧
    (bad.me.rd 8).toNat < 2 ^ 56 ∧ (bad.me.rd 8).toNat % 8 = 0 ∧ inWindow (bad.me.rd 8).toNat = false := by decide +kernel
theorem wit_ScalarAccessChecksInOrder_forms : [(Instr.ldd 5 8 0, AccKind.read, 8), (.std 5 8 0, .store, 8), (.amoadd 5 8 3 0 0 1, .write, 8),
    (.waitc 5 8 3, .read, 8), (.cadd 5 8 3, .write, 8), (.launch 8, .read, 128)].all (fun x =>
      decide (bad.scalarAccess x.1 = some (x.2.1, 0x2000000000, x.2.2)) && !bad.scalarWaits x.1) = true ∧
    noWindow (.amoadd 5 2 3 0 0 1) = true ∧ noWindow (.waitc 5 2 3) = true ∧ noWindow (.cadd 5 2 3) = true ∧ inWindow (bad.me.rd 2).toNat = true ∧
    (bad.me.rd 2).toNat - winBase + 8 ≤ spSize ∧ (bad.me.rd 2).toNat - winBase + 8 ≤ bad.tilesOf bad.me * 4096 ∧
    (0x100000000000000 : Word).toNat % 128 = 0 ∧ (0x10000000000000A : Word).toNat % 128 ≠ 0 := by decide +kernel
theorem wit_ScalarAccessChecksInOrder_translation :
    ∃ s1, bad.xlate bad.me.ctx bad.me.level .read bad.me.copied (bad.me.rd 8).toNat = .fault s1 0x18 := faultsWith_spec (by decide +kernel)
theorem wit_AtomicsOnLocalMemory : amoForm (.amoadd 5 1 3 5 3 1) = some { op := .add, d := 5, a := 1, b := 3, sc := 5, o := 3, w := 1 } ∧
    amoForm (.amocas 5 1 3 0 0 0) ≠ none ∧ (data.release 5).2 = true ∧ data.accessOpen data.cur = false ∧
    data.poison.contains 0x30000 = false ∧ freeAt data .write (data.me.rd 1) 8 0x30000 true true = true ∧ data.me.defer = false ∧
    amoForm (.amoadd 5 1 3 0 0 1) = some { op := .add, d := 5, a := 1, b := 3, sc := 0, o := 0, w := 1 } ∧ (deferring data).me.defer = true ∧
    localAt (deferring data) .write ((deferring data).me.rd 1) 8 0x30000 = true := by decide +kernel
theorem wit_CallPushesAndJumps : (stacked.me.rd 31).toNat % 16 = 0 ∧ stacked.me.queue = [] ∧
    localAt stacked .store (stacked.me.rd 31 - 16) 8 0x500F0 = true ∧ localAt stacked .store (stacked.me.rd 31 - 8) 8 0x500F8 = true := by
  decide +kernel
/-- The two doublewords at s31 are read as ra and w. -/
def pops (s : State) (ra w : Word) : Bool :=
  match s.load s.cur s.me (s.me.rd 31) 8 with
  | .done s2 x =>
    match s2.load s.cur s.me (s.me.rd 31 + 8) 8 with
    | .done _ y => x == ra && y == w
    | _ => false
  | _ => false
theorem pops_spec {s : State} {ra w : Word} (h : pops s ra w = true) : ∃ s2 s3, s.load s.cur s.me (s.me.rd 31) 8 = .done s2 ra ∧
    s2.load s.cur s.me (s.me.rd 31 + 8) 8 = .done s3 w := by
  unfold pops at h
  split at h
  · next s2 x hx =>
    split at h
    · next s3 y hy =>
      simp only [Bool.and_eq_true, beq_iff_eq] at h
      exact ⟨_, _, h.1 ▸ hx, h.2 ▸ hy⟩
    · cases h
  · cases h
/-- A stored word with a bit above 22, a misaligned return address, and a misaligned s31. -/
def badState : State := bytes data 0x50100 (leBytes 8 0x20000 ++ leBytes 8 0x800000)
def badReturn : State := bytes data 0x50100 (leBytes 8 0x20002 ++ leBytes 8 0x400000)
theorem wit_ReturnPopsAndRestores : stacked.scalarHeld stacked.cur = false ∧ (stacked.me.rd 31).toNat % 16 = 0 ∧
    ((regs data [(31, 0x50108)]).me.rd 31).toNat % 16 ≠ 0 ∧ stacked.me.vec.window = [] := by decide +kernel
theorem wit_ReturnPopsAndRestores_pops : (∃ s2 s3, stacked.load stacked.cur stacked.me (stacked.me.rd 31) 8 = .done s2 0x20000 ∧
    s2.load stacked.cur stacked.me (stacked.me.rd 31 + 8) 8 = .done s3 0x230002) ∧ pops badState 0x20000 0x800000 = true ∧
    pops badReturn 0x20002 0x400000 = true := ⟨pops_spec (by decide +kernel), by decide +kernel, by decide +kernel⟩

/-- The thread at supervisor level with its user state held. -/
def handler : State := on data (fun t => { t with level := .supervisor, held := true, vsw := 0x210003, cfg := { t.cfg with epc := 0x10000 } })
def firmware : State := on data (fun t => { t with level := .firmware })
/-- A context whose supervisor entry is 0. -/
def noEntry : State := { data with ctxs := data.ctxs.map (fun c => { c with entry := 0 }) }
/-- A VADD that has been issued. -/
def issued : State := on data (fun t => match ruleSpec (.vadd 1 2 3 0 false) with | some sp => t.issue (.vadd 1 2 3 0 false) sp | none => t)

theorem wit_TrapEntryFromUserLevel : (data.th 0).level = .user ∧ data.ctxOf (data.th 0).ctx = some fetchCtx ∧ fetchCtx.entry ≠ 0 := by decide +kernel
theorem wit_TrapsAboveUserLevel : (handler.th 0).level = .supervisor ∧ (firmware.th 0).level = .firmware ∧ (noEntry.th 0).level = .user ∧
    noEntry.ctxOf (noEntry.th 0).ctx = some { fetchCtx with entry := 0 } := by decide +kernel
theorem wit_TrapAndBreakWords : data.me.level ≠ .supervisor ∧ data.me.vec.window = [] ∧ handler.me.held = true ∧ handler.me.level = .supervisor ∧
    issued.me.held = false ∧ issued.me.vec.window ≠ [] ∧ issued.me.level ≠ .supervisor := by decide +kernel
/-- A handler that was called at supervisor level, and one without a held image. -/
def nested : State := on handler (fun t => { t with cfg := { t.cfg with plev := 1 } })
def noImage : State := on handler (fun t => { t with held := false })
theorem wit_EretReturns : handler.memWf = true ∧ handler.me.queue = [] ∧ nested.me.queue = [] ∧ noImage.me.queue = [] ∧ handler.me.level ≠ .user ∧ handler.writesOpen = false ∧ handler.me.cfg.plev = 0 ∧
    handler.me.held = true ∧ nested.memWf = true ∧ nested.me.level ≠ .user ∧ nested.writesOpen = false ∧ nested.me.cfg.plev ≠ 0 ∧
    noImage.memWf = true ∧ noImage.me.level ≠ .user ∧ noImage.writesOpen = false ∧ noImage.me.cfg.plev = 0 ∧ noImage.me.held = false := by
  decide +kernel
theorem wit_PrivilegedWordsTrapAtUserLevel : data.me.level = .user ∧ data.me.vec.window = [] ∧
    (0x12 : BitVec 7).toNat ∈ [0x12, 0x13, 0x14, 0x15, 0x17, 0x18] ∧
    (0x0B : BitVec 7).toNat ∈ [0x0B, 0x11, 0x12, 0x13, 0x14, 0x15, 0x16, 0x17, 0x18] := by decide +kernel
theorem wit_ConfigurationReads : (0x18 : BitVec 7).toNat ≤ 0x18 ∧ handler.me.level ≠ .user ∧ data.me.level = .user ∧
    (0x16 : BitVec 7).toNat ∉ [0x12, 0x13, 0x14, 0x15, 0x17, 0x18] ∧ (0x11 : BitVec 7).toNat ∈ [0x02, 0x04, 0x11] ∧ data.me.vec.window = [] ∧
    0x19 ≤ (0x19 : BitVec 7).toNat ∧ data.me.held = false := by decide +kernel
theorem wit_ConfigurationWrites : data.me.held = false ∧ data.me.level = .user ∧ (data.me.rd 1).toNat % 8 ≤ 4 ∧ data.me.vec.window = [] ∧
    noImage.me.held = false ∧ noImage.me.level ≠ .user ∧ noImage.me.vec.window = [] ∧
    (0x18 : BitVec 7).toNat ∈ [0x02, 0x03, 0x04, 0x05, 0x06, 0x11, 0x12, 0x13, 0x14, 0x15, 0x16, 0x17, 0x18] := by decide +kernel
/-- s4 = 5 is a reserved rounding mode; s5 and s6 are budgets within and beyond the module's limit, which another context shares. -/
def purses : State :=
  { regs noImage [(4, 5), (5, 600000), (6, 600001)] with
    ctxs := noImage.ctxs ++ [{ fetchCtx with num := 2, budget := 3000000 }] }
theorem wit_ConfigurationWritesRefused : purses.me.vec.window = [] ∧ 4 < (purses.me.rd 4).toNat % 8 ∧
    (0x01 : BitVec 7).toNat ∉ [0x02, 0x03, 0x04, 0x05, 0x06, 0x0B, 0x11, 0x12, 0x13, 0x14, 0x15, 0x16, 0x17, 0x18] ∧
    purses.me.level ≠ .user ∧ purses.ctxOf purses.me.ctx = some fetchCtx ∧
    (let others := ((purses.ctxs.filter (fun y => y.num != purses.me.ctx)).map (fun y => y.budget.toNat)).sum
     600000 + others ≤ purses.mlim * 1000 ∧ purses.mlim * 1000 < 600001 + others) := by decide +kernel
/-- s4 points at a record; the task's binding word names a version record with version 2, main at 0x20000 and splice entry 0 at 0x20400. -/
def launcher : State :=
  bytes (bytes (bytes (regs data [(4, 0x30080)]) 0x40000 (leBytes 8 0x40100)) 0x40100 (leBytes 8 2 ++ leBytes 8 0x20000 ++ leBytes 8 0x40200))
    0x40200 (leBytes 8 0x20400)
theorem wit_FenceYieldExitLaunchSplice : launcher.memWf = true ∧ launcher.fenceOpen launcher.cur true true = false ∧
    (launcher.release 5).2 = true ∧ launcher.me.vec.window = [] ∧ launcher.accessOpen launcher.cur = false ∧
    launcher.scalarHeld launcher.cur = false ∧ (launcher.me.rd 4).toNat % 128 = 0 ∧ localAt launcher .read (launcher.me.rd 4) 8 0x30080 = true ∧
    launcher.me.vpActive = false ∧ launcher.myTask launcher.me = some task ∧
    (launcher.acquireStep launcher.cur).binding launcher.me.ctx task.fields.bind.toNat 0 = some (2, 0x20400) ∧ launcher.launches = [] ∧
    ({ launcher with launches := [(1, 0x30100)] } : State).launches = [] ++ [(1, 0x30100)] ∧ launcher.postFaults = [] ∧
    launcher.cmds = [] ∧ launcher.me.queue = [] := by decide +kernel
/-- A FENCE of stores finds a store in the issue queue, where the Porter lets it in or does not. -/
theorem wit_FenceYieldExitLaunchSplice_queue : (on data (fun t => { t with queue := [halfStore] })).fenceOpen 0 false true = false ∧
    (on data (fun t => { t with queue := [halfStore] })).me.queue.any (fun x => x.op.beforeFence false true) = true ∧
    (on data (fun t => { t with queue := [halfStore] })).me.defer = false ∧
    (on data (fun t => { t with queue := [halfStore], defer := true })).me.defer = true := by decide +kernel
/-- Every byte of a doubleword of a context lies in the home store, on a page that is no copy-on-write page. -/
def homeWord (s : State) (ctx : BitVec 12) (va pa : Nat) : Bool :=
  (match s.innLeaf ctx true va with | some l => !pteCow l.e | none => false) &&
    (List.range 8).all (fun k => match (s.innSeen ctx true va 8).innLoc ctx true (va + k) with | .ok x => x == .home (pa + k) | .error _ => false)
theorem wit_FenceYieldExitLaunchSplice_links : 0x30080 % 8 = 0 ∧ launcher.cows = [] ∧ homeWord launcher 1 0x30080 0x30080 = true := by decide +kernel

/-- A handler of a thread without lanes, whose image is 0x800 bytes long, to be saved at s4. -/
def saver : State := on (regs handler [(4, 0x30800)]) (fun t => { t with cfg := { t.cfg with lalive := 0, lmap := 0 } })
def rangeOk (s : State) (va : Word) (n : Nat) : Bool := match s.rangeCheck s.me va n with | .inl _ => true | .inr _ => false
theorem wit_HeldImageWords_save : saver.me.level ≠ .user ∧ saver.me.held = true ∧ saver.me.wait ≠ some .saved ∧ (saver.me.rd 4).toNat % 256 = 0 ∧
    saver.me.vec.window.length ≤ 24 ∧ rangeOk saver (saver.me.rd 4) (imageSize saver.me.regBytes / 8) = true := by decide +kernel

/-- The same with s4 at the scratchpad window, beside a party that holds the whole image there. -/
def keeper : State := regs saver [(4, 0xFFFFFFFF000000)]
theorem wit_HeldImageWords_window : keeper.me.level ≠ .user ∧ keeper.me.held = true ∧ keeper.memWf = true ∧ keeper.me.queue = [] ∧
    keeper.me.early = [] ∧ (keeper.me.rd 4).toNat % 256 = 0 ∧ imageSize keeper.me.regBytes = 0x800 ∧ keeper.me.wait ≠ some .saved ∧
    keeper.writesOpen = false ∧ keeper.me.vec.window.length ≤ 24 ∧ keeper.me.vec.vregs.toList.all (fun r => decide (r.wlog ≤ 3)) = true ∧
    keeper.spPoison = [] ∧ keeper.me.vlmax 0 = 0 := by decide +kernel
theorem wit_HeldImageWords_tiles :
    (List.range 256).all (fun k => windowAt keeper (keeper.me.rd 4 + BitVec.ofNat 64 (8 * k)) 8 (0 + 8 * k)) = true := by decide +kernel
/-- The bytes of an image of a thread without lanes and without rules that are not zero, by R202: version 3, the VSW {3, 1, 2}, s31 0x50100, the
size 0x800, the maps of thread start with the tag I64, and elements of 8 bytes. -/
def imageCells : List Host.Cell :=
  [⟨0, 3⟩, ⟨8, 3⟩, ⟨10, 0x21⟩, ⟨41, 1⟩, ⟨42, 5⟩, ⟨49, 8⟩] ++
  (List.range 32).flatMap (fun n => (if n = 0 then [] else [⟨0x700 + 2 * n, BitVec.ofNat 8 n⟩]) ++ [⟨0x701 + 2 * n, 3⟩]) ++
  (List.range 15).map (fun n => ⟨0x741 + n, BitVec.ofNat 8 (n + 1)⟩) ++ (List.range 32).map (fun k => ⟨0x760 + k, 0xFF⟩)
/-- R202. -/
theorem test_image : ((List.range 0x800).zip keeper.me.image).filter (fun c => c.2 != 0) = imageCells := by decide +kernel
/-- keeper with that image in the first tile. -/
def kept : State := { keeper with sp := imageCells }
def keptImage : Array Byte := (Memory.getList kept.sp 0 0x800).toArray
theorem getList_byte (m : List Host.Cell) (a n i : Nat) : (Memory.getList m a n)[i]?.getD 0 = if i < n then Memory.get m (a + i) else 0 := by
  induction n generalizing a i with
  | zero => simp [Memory.getList]
  | succ n ih =>
    cases i with
    | zero => simp [Memory.getList]
    | succ i => simp only [Memory.getList, List.getElem?_cons_succ, ih, Nat.add_lt_add_iff_right]; congr 2; omega
theorem keptImage_byte (i : Nat) : keptImage[i]?.getD 0 = if i < 0x800 then Memory.get imageCells i else 0 := by
  rw [keptImage, List.getElem?_toArray, getList_byte, Nat.zero_add]; rfl
theorem kept_header : imgHeaderOk keptImage kept.me = true := by
  simp only [imgHeaderOk, imgZero, imgNat, keptImage_byte]; decide +kernel
theorem kept_tags : imgTagsOk keptImage 0 = true := by
  simp [imgTagsOk]
theorem kept_rules : imgNat keptImage 0 8 / 2 ^ 8 % 32 = 0 := by
  simp only [imgNat, keptImage_byte]; decide +kernel
theorem wit_HeldImageWords_installs : (kept.me.install keptImage []).isSome = true ∧ imgVpfEntries keptImage = [] := by
  have h0 : kept.me.regBytes = 0 := by decide +kernel
  constructor
  · unfold Thread.install
    simp only [h0, kept_rules, kept_header, kept_tags]
    simp
  · simp only [imgVpfEntries, kept_rules, List.range_zero, List.filter_nil]
/-- The range of an image at va can be read. -/
def imageAt (s : State) (va : Word) : Bool :=
  match s.loadWords s.cur s.me va (imageSize s.me.regBytes / 8) [] with | .inl _ => true | .inr _ => false
/-- What is read at va is no legal image. -/
def imageRefused (s : State) (va : Word) : Bool :=
  match s.loadWords s.cur s.me va (imageSize s.me.regBytes / 8) [] with
  | .inl (s1, bs) =>
    (match s1.imgHeaders s1.me bs.reverse.toArray (imgVpfEntries bs.reverse.toArray) with
     | (s2, some heads) => (s2.me.install bs.reverse.toArray heads).isNone
     | (_, none) => false)
  | .inr _ => false
theorem wit_HeldImageWords_load : imageRefused saver (saver.me.rd 4) = true ∧ saver.me.level ≠ .user ∧ saver.me.held = true ∧ (saver.me.rd 4).toNat % 256 = 0 ∧
    imageAt saver (saver.me.rd 4) = true := by decide +kernel
/-- A handler whose context maps two 64 KiB pages at 2^36, the first writable, the second executable; two translations are held. -/
def mapped : State :=
  let s := bytes (bytes (bytes (regs handler [(5, 0x1000000000), (6, 0x20000), (7, 0x30000), (8, 2)]) 0x4008 (leBytes 8 0x6003)) 0x6000 (leBytes 8 0x8003))
    0x8000 (leBytes 8 0x3000FD ++ leBytes 8 0x3100F5)
  { bytes s 0x30000 (leBytes 8 0x400000 ++ leBytes 8 0x410000) with
    tlb := [{ ctx := 1, vpage := 0x100000, level := 3, pte := 0x3000FD, addr := 0x8000 }, { ctx := 2, vpage := 0, level := 1, pte := 0xFD, addr := 0x4000 }] }
/-- No leaf of a range of pages is locked. -/
def noneLocked (s : State) (a n : Nat) : Bool :=
  (List.range n).all (fun k => match s.pageLeaf s.me.ctx a k with | some l => !pteLock l.e | none => true)
/-- A list of n doublewords is read at va. -/
def lists (s : State) (va : Word) (l : List Word) : Bool :=
  match s.loadList s.cur s.me va l.length with | .inl (_, m) => m == l | .inr _ => false
/-- The leaf at va of the context with the turn is one that SNAPR marks, or one that it leaves. -/
def marksAt (s : State) (va : Nat) (marks : Bool) : Bool :=
  match s.pageLeaf s.me.ctx va 0 with | some l => snapMarks false l.e == marks | none => false
theorem wit_TranslationMaintenance : mapped.memWf = true ∧ mapped.owed = [] ∧ mapped.me.level ≠ .user ∧
    mapped.removedOpen mapped.me.ctx (mapped.me.rd 5).toNat (mapped.me.rd 6).toNat = false ∧ marksAt mapped 0x1000000000 true = true ∧
    marksAt mapped 0x1000010000 false = true ∧ (mapped.me.rd 5).toNat % 2 ^ 16 = 0 ∧ (mapped.me.rd 6).toNat % 2 ^ 16 = 0 ∧
    mapped.accessOpen mapped.cur = false ∧ mapped.reqs = [] ∧ mapped.snapRange mapped.me.ctx (mapped.me.rd 5).toNat (mapped.me.rd 6).toNat = true ∧
    noneLocked mapped.releaseLines (mapped.me.rd 5).toNat 2 = true ∧ (mapped.me.rd 7).toNat % 8 = 0 ∧
    mapped.pool.length + (mapped.me.rd 8).toNat ≤ 4096 ∧ lists mapped (mapped.me.rd 7) [0x400000, 0x410000] = true ∧
    0x400000 % 2 ^ 16 = 0 ∧ 0x410000 % 2 ^ 16 = 0 ∧ mapped.isLocal (mapped.canon 0x40FFFF) = true ∧ mapped.isLocal (mapped.canon 0x41FFFF) = true := by decide +kernel

/-- The rule that an instruction issues exists, has no overlap, and finds an entry and its registers. -/
def issues (s : State) (i : Instr) : Bool :=
  match ruleSpec i with
  | some sp => !sp.overlaps && s.me.entryFree && (s.me.prepared sp).poolHas sp.vdests.length sp.pdests.length
  | none => false
def overlapping (i : Instr) : Bool := match ruleSpec i with | some sp => sp.overlaps | none => false
/-- The placed thread with VL 16. -/
def strip : State := on data (fun t => { t with cfg := { t.cfg with vl := 16 } })
theorem wit_VectorRulesIssue : vectorRule (.vadd 1 2 3 0 false) = true ∧ strip.me.level = .user ∧ issues strip (.vadd 1 2 3 0 false) = true ∧
    vectorRule (.vldFf 1 2 0 false false 0) = true ∧ issues strip (.vldFf 1 2 0 false false 0) = true ∧
    vectorRule (.vcmpeq 1 2 3 0 false) = true ∧ issues strip (.vcmpeq 1 2 3 0 false) = true := by decide +kernel
/-- strip with the only leaf of its context locked. -/
def locked : State := bytes strip 0x4000 (leBytes 8 0x1FD)
/-- The trim at the issue of an instruction is known. -/
def trims (s : State) (i : Instr) : Bool := match ruleSpec i with | some sp => (s.issueTrim (s.me.issue i sp)).isSome | none => false
theorem wit_VectorRulesIssue_trim : trims strip (.vldFf 1 1 0 false false 0) = true ∧ locked.me.level = .user ∧
    issues locked (.vldFf 1 1 0 false false 0) = true ∧ trims locked (.vldFf 1 1 0 false false 0) = false := by decide +kernel
theorem wit_IssueCapturesAndRenames : (∃ p rest, strip.me.vec.vfree = p :: rest) ∧ (∃ p rest, strip.me.vec.pfree = p :: rest) ∧
    (∃ sp, ruleSpec (.vadd 1 2 3 0 false) = some sp ∧ sp.dst = .v 1 ∧ sp.m0 = false ∧ sp.a = .v 2 ∧ sp.b = .v 3) ∧
    (∃ sp, ruleSpec (.vcmpeq 1 2 3 0 true) = some sp ∧ sp.dst = .m 1 ∧ sp.m0 = false ∧ sp.b = .s 3) :=
  ⟨⟨_, _, rfl⟩, ⟨_, _, rfl⟩, ⟨_, rfl, by decide, by decide, by decide, by decide⟩, ⟨_, rfl, by decide, by decide, by decide⟩⟩
theorem wit_VectorWordsThatTrap : vectorMajor (.mma 0 1 2) = true ∧ handler.me.level ≠ .user ∧ vectorRule (.vwmul 2 3 1 0 false) = true ∧
    overlapping (.vwmul 2 3 1 0 false) = true ∧ strip.me.level = .user ∧ strip.me.vec.window = [] := by decide +kernel
/-- s4 points at four row lengths (3, 0, 2, 200), s5 = 4 rows, s6 = 0 rows. -/
def rows : State :=
  bytes (regs placed [(4, 0x30000), (5, 4), (6, 0)]) 0x30000 (leBytes 4 3 ++ leBytes 4 0 ++ leBytes 4 2 ++ leBytes 4 200)
/-- SETFIB with n rows packs p. -/
def packs (s : State) (n : Nat) (p : Packed) : Bool :=
  let g := if s.grantPending s.cur none then s.me.replace (s.grantLanes s.cur) (s.me.newQ none s.qcore) 0 else s.me
  match s.packRows s.me s.cur (s.me.rd 4) (g.grantCap s.gfact 0) n { rows := 0, total := 0, starts := [] } with
  | .inl (_, q) => q.rows == p.rows && q.total == p.total && q.starts == p.starts
  | .inr _ => false
theorem wit_GrantsComplete : rows.me.level = .user ∧ rows.grantWaits rows.cur (some 0) = false ∧ rows.grantWaits rows.cur none = false ∧
    rows.scalarHeld rows.cur = false ∧ rows.me.poolHas 0 1 = true ∧ rows.me.vpfOpen = false ∧
    (∀ i, i < rows.me.vlmax 0 → (rows.me.vec.preg (rows.me.vec.mphys 5)).get i ≠ .absent) ∧
    packs rows (min (rows.me.rd 5).toNat 256) { rows := 3, total := 5, starts := [0, 3] } = true ∧
    packs rows (min (rows.me.rd 6).toNat 256) { rows := 0, total := 0, starts := [] } = true := by decide +kernel

/-- v2 holds the widths of three I64 elements: 5, VOID, ABSENT; m1 to m3 hold 0 0 1 1…, all 0, and an ABSENT bit at 1. -/
def moves : State := on (regs strip [(4, 0), (5, 1), (6, 2), (7, 128)]) (fun t => { t with vec := { t.vec with
  vregs := t.vec.vregs.set 2 { wlog := 3, cells := [(0, .present 5), (1, .void), (2, .absent)], rest := .present 0 }
  pregs := (t.vec.pregs.set 1 { cells := [(2, .present true), (3, .present true)], rest := .present false }).set 3
    { cells := [(1, .absent)], rest := .present false } } })
theorem moves_free : ∃ p rest, moves.me.vec.vfree = p :: rest := ⟨_, _, rfl⟩
theorem wit_TagsAndMovesToScalars : moves.me.level = .user ∧ Tag.ofCode 3 = some .i64 ∧ (moves.me.vec.tag 2).wlog = Tag.i64.wlog ∧
    Tag.ofCode 4 = some .n8 ∧ (moves.me.vec.tag 2).wlog ≠ Tag.n8.wlog ∧ moves.me.vpfOpen = false ∧
    moves.me.vlmax (moves.me.vec.tag 2).wlog ≤ (moves.me.rd 7).toNat ∧ (moves.me.rd 6).toNat < moves.me.vlmax (moves.me.vec.tag 2).wlog ∧
    (moves.me.vec.vreg (moves.me.vec.vphys 2)).get 0 = .present 5 ∧ (moves.me.vec.vreg (moves.me.vec.vphys 2)).get 1 = .void ∧
    (moves.me.vec.vreg (moves.me.vec.vphys 2)).get 2 = .absent := by decide +kernel
theorem wit_TagsAndMovesToScalars_masks :
    let bit (m i : Nat) : PBit := (moves.me.vec.preg (moves.me.vec.mphys m)).get i
    2 < min moves.me.cfg.vl.toNat (moves.me.vlmax 0) ∧ bit 1 2 = .present true ∧ (∀ j, j < 2 → bit 1 j = .present false ∨ bit 1 j = .void) ∧
    (∀ j, j < 16 → bit 2 j = .present false ∨ bit 2 j = .void) ∧ (∀ j, j < 16 → bit 1 j ≠ .absent) ∧ bit 3 1 = .absent ∧
    (∀ j, j < 1 → bit 3 j = .present false ∨ bit 3 j = .void) := by decide +kernel
/-- R145: MFFS waits for the ABSENT bit that decides it. -/
theorem test_mffs_waits : nextIs (exec (.mffs 9 3) moves) (fun t => t.me.stalled && t.me.pc == moves.me.pc) = true := by decide +kernel

/-- TBLB operands within and beyond the limits of R171. -/
def lookups : State := regs strip [(4, 0), (5, 0xFFFFFFFF000000), (6, 16), (7, 8192)]
/-- At 0x10020 a block header with write-set v1 and m1, then VPBR m2, VPJ and VPSTOP. -/
def blocks : State := bytes strip 0x10020 (leBytes 4 2 ++ leBytes 4 2 ++ leBytes 4 0xE1200003 ++ leBytes 4 0xE2000002 ++ leBytes 4 0xE3000000)
def header (s : State) (a : Word) (vset hi : BitVec 32) : Bool :=
  match s.readHeader s.me a with | .ok _ v h => v == vset && h == hi | _ => false
theorem wit_WindowWordsIssue : lookups.me.level = .user ∧ lookups.me.entryFree = true ∧ lookups.me.vec.window = [] ∧
    tblbOk (lookups.me.rd 4) (lookups.me.rd 5) (lookups.me.rd 6) = true ∧ tblbOk (lookups.me.rd 7) (lookups.me.rd 5) (lookups.me.rd 6) = false ∧
    lookups.engineOf lookups.me = true ∧ lookups.walkerOf lookups.me = true ∧ issues lookups (.cwalk 2 4 6 8) = true ∧
    lookups.me.poolHas 2 0 = true ∧ lookups.memWf = true ∧ lookups.accessOpen lookups.cur = false ∧
    (∀ x ∈ lookups.walkReads lookups.me.ctx (lookups.me.rd 8).toNat, x.2 = 0 ∨ x.1 + x.2 ≤ lookups.spTop lookups.me) ∧ (3 : BitVec 2).toNat < lookups.accsOf lookups.me ∧ (lookups.me.rd 6).toNat ≤ 256 ∧ lookups.matQ.length < 64 ∧
    header blocks 0x10020 2 2 = true ∧ headerOk 2 2 = true ∧ blocks.me.vpActive = false ∧ blocks.me.entryFree = true ∧ blocks.me.poolHas 1 1 = true := by
  decide +kernel

/-- The thread that has issued VPF 0 with the header at 0x10020, only the VP of element 3 running, at the word k of the block. -/
def block (k : Nat) : State := on blocks (fun t =>
  let u := t.startVpf (.vpf 0 8) 0 0x10020 2 0
  { u with vpf := u.vpf.map (fun f => { f with vps := [{ idx := 3, pc := BitVec.ofNat 64 (0x10028 + 4 * k), count := 0, cells := [⟨false, 1, .present 9⟩] }] }) })
/-- The hypotheses of BlockWords for its only VP, whose next word is w. -/
def blockReady (s : State) (w : Insn) : Bool :=
  let t := s.me
  t.occupied && !t.held && !t.drain && !t.headFault &&
  match t.vpf with
  | some f =>
    match f.vps, t.vec.window.find? (fun q => q.rid == f.rid) with
    | [p], some r => vpfGov t.vec r p.idx == .on && r.faults.isEmpty && p.count < 4096 && p.ops == [] && t.breakAt p.pc == none &&
        (match s.fetch t p.pc with | .word _ v => v == w | _ => false)
    | _, _ => false
  | none => false
theorem wit_BlockWords : blockReady (block 0) 0xE1200003 = true ∧ decode 0xE1200003 = .ok (.vpbr 2 3) ∧ blockReady (block 1) 0xE2000002 = true ∧
    decode 0xE2000002 = .ok (.vpj 2) ∧ blockReady (block 2) 0xE3000000 = true ∧ decode 0xE3000000 = .ok .vpstop ∧ strip.me.vec.window = [] := by
  decide +kernel
/-- The block's first word is w. -/
def blockWith (w : Insn) : State := bytes (block 0) 0x10028 (leBytes 4 w.toNat)
/-- The VP has issued 4,096 instructions. -/
def runaway : State := on (block 0) (fun t => { t with vpf := t.vpf.map (fun f => { f with vps := f.vps.map (fun p => { p with count := 4096 }) }) })
/-- A word of a block becomes a rule of its VP, or writes outside the write-set. -/
def blockOp (s : State) (i : Instr) (inside : Bool) : Bool :=
  match s.me.vpf, ruleSpec i with
  | some f, some sp => blockLegal i && inWriteSet f sp == inside && !sp.inBlock.overlaps && decide (s.me.entries < 24)
  | _, _ => false
theorem wit_BlockWords_rules : blockReady (blockWith 0x84221800) 0x84221800 = true ∧ decode 0x84221800 = .ok (.vadd 1 2 3 0 false) ∧
    blockOp (blockWith 0x84221800) (.vadd 1 2 3 0 false) true = true ∧ blockReady (blockWith 0x84821800) 0x84821800 = true ∧
    decode 0x84821800 = .ok (.vadd 4 2 3 0 false) ∧ blockOp (blockWith 0x84821800) (.vadd 4 2 3 0 false) false = true ∧
    blockReady (blockWith 0x58000001) 0x58000001 = true ∧ decode 0x58000001 = .ok (.j 1) ∧ blockLegal (.j 1) = false ∧
    runaway.me.vpf.map (fun f => f.vps.map (fun p => p.count)) = some [4096] ∧
    (block 2).me.vpf.map (fun f => (f.vset, f.mset, f.vps.map (fun p => p.cell false 1))) = some (1#32 <<< 1, 0, [some (.present 9)]) := by
  decide +kernel
theorem wit_ElementValues : Tag.i8.isFloat = false ∧ Tag.n64.isFloat = false ∧ Tag.i8.toInt 0x80 = -128 ∧ Tag.n8.toInt 0 = 0 ∧
    (∃ sp f, ruleSpec (.vadd 1 2 3 4 false) = some sp ∧ sp.kind = .ew f) ∧ (∃ sp f, ruleSpec (.vfmadd 1 2 3 4 false 7) = some sp ∧ sp.kind = .fma f 7) ∧
    (∃ sp f, ruleSpec (.vcmplt 1 2 3 4 false) = some sp ∧ sp.kind = .cmp f) :=
  ⟨by decide, by decide, by decide, by decide, ⟨_, _, rfl, rfl⟩, ⟨_, _, rfl, rfl⟩, _, _, rfl, rfl⟩
/-- Operands of F32: infinity times zero, a signalling NaN, a zero and a negative number. -/
theorem wit_ElementValues_floats : Tag.f32.fmt = some .f32 ∧ mulExact (Tag.f32.value 0x7F800000).fval (Tag.f32.value 0).fval = .nan true ∧
    (Tag.f32.value 0x7F800001).fval = .nan true ∧ Fmt.decode .f32 0x7FC00000 = .nan false ∧ (∃ e, Fmt.decode .f32 0x80000000 = .fin true 0 e) ∧
    (∃ m e, Fmt.decode .f32 0xBF800000 = .fin true (m + 1) e) ∧ Fmt.decode .f32 0xFF800000 = .inf true ∧ Fmt.decode .f32 0x7F800000 = .inf false :=
  ⟨by decide, by decide +kernel, by decide +kernel, by decide +kernel, ⟨_, rfl⟩, ⟨_, _, rfl⟩, by decide +kernel, by decide +kernel⟩

/-- A thread and the rule it has issued, with VL 4: v2 holds 1, 7, VOID, 3, v3 the indices 2, 9, 1, 0, v4 all 5, and m1, m2 and m3 hold
1 0 0 0, 0 0 1 0 and 0 1 VOID 1. -/
def ruled (i : Instr) : Option (Thread × Rule) :=
  let t := placed.me
  let t := { t with cfg := { t.cfg with vl := 4 }, vec := { t.vec with
    vregs := ((t.vec.vregs.set 2 { wlog := 3, cells := [(0, .present 1), (1, .present 7), (2, .void), (3, .present 3)], rest := .present 0 }).set 3
      { wlog := 3, cells := [(0, .present 2), (1, .present 200), (2, .present 1), (3, .present 0)], rest := .present 0 }).set 4
      { wlog := 3, cells := [], rest := .present 5 }
    pregs := ((t.vec.pregs.set 1 { cells := [(0, .present true)], rest := .present false }).set 2
      { cells := [(2, .present true)], rest := .present false }).set 3
      { cells := [(0, .present false), (1, .present true), (2, .void), (3, .present true)], rest := .absent } } }
  match ruleSpec i with
  | some sp => (let u := t.issue i sp; (u.vec.window.getLast?).map (fun r => (u, r)))
  | none => none
/-- What element e of the rule does. -/
def acts (i : Instr) (e : Nat) (a : Act) : Bool :=
  match ruled i, ruleSpec i with
  | some (t, r), some sp => evalAt t r sp e == a
  | _, _ => false
/-- The rule's element takes part, and its indices are decided up to there. -/
def ruledAt (i : Instr) (e : Nat) : Bool :=
  match ruled i with
  | some (t, r) => decide (e < r.vle) && gov t.vec r e == .on && (List.range (e + 1)).all (fun j => gov t.vec r j != .wait && gov t.vec r j != .void)
  | none => false
theorem wit_ElementValues_masks : ruledAt (.mand 5 1 2 0) 2 = true ∧ ruledAt (.msbf 5 2 0) 3 = true ∧ ruledAt (.vid 9 0) 3 = true ∧
    (match ruled (.msof 5 2 0) with
     | some (t, r) => (List.range 4).map (t.vec.bit r.pa) == [.present false, .present false, .present true, .present false]
     | none => false) = true := by decide +kernel
theorem wit_ElementValues_groups :
    (match ruled (.vncvt 9 2 0) with
     | some (t, r) => decide (t.vlmax r.ta.wlog ≤ 20 ∧ 20 < 2 * t.vlmax r.ta.wlog) && r.a1 == some 3 && (t.vec.vreg 3).wlog == r.ta.wlog
     | none => false) = true ∧
    (match ruled (.vrgather 9 2 3 0) with
     | some (t, r) => r.td.wlog == r.ta.wlog && !r.tb.isFloat && t.vec.elem r.b0 0 == .present 2 && t.vec.elem r.a0 2 == .void && decide (200 ≥ t.vlmax 3)
     | none => false) = true ∧
    (match ruled (.vcompress 9 2 1) with
     | some (t, r) => (List.range r.vle).all (fun j => t.vec.bit r.pb j != .absent) && (List.range r.vle).filter (fun j => t.vec.bit r.pb j == .present true) == [0]
     | none => false) = true ∧
    (match ruled (.vpush 9 4 4 0) with
     | some (t, r) => !r.tb.isFloat && (List.range r.vle).all (fun j => gov t.vec r j == .on && t.vec.elem r.b0 j == .present 5)
     | none => false) = true ∧
    (match ruled (.vredsumo 9 4 0 0 true) with
     | some (t, r) => r.sp == none && decide (0 < r.vle) && (List.range r.vle).all (fun j => gov t.vec r j == .on && t.vec.elem r.a0 j == .present 5) &&
         r.opb.toNat % 2 ^ r.tb.bits == 0
     | none => false) = true := by decide +kernel
/-- R113, R135, R136, R138, R139, R147: the masks' second element, a gathered VOID, an index beyond the capacity, a compression, a sum and a scan. -/
theorem test_element_values : acts (.mxor 5 1 2 0) 2 (.bit true 0) = true ∧ acts (.msif 5 2 0) 2 (.bit true 0) = true ∧
    acts (.msif 5 2 0) 3 (.bit false 0) = true ∧ acts (.vrgather 9 2 3 0) 0 (.void 0) = true ∧
    acts (.vrgather 9 2 3 0) 1 (.val { bits := 0, fl := 0, vs := vRANGE }) = true ∧ acts (.vcompress 9 2 3) 0 (.val (.plain 7)) = true ∧
    acts (.vcompress 9 2 3) 1 (.val (.plain 3)) = true ∧ acts (.vcompress 9 2 3) 2 (.carry 0) = true ∧
    acts (.vredsumo 9 4 0 0 true) 0 (.val (.plain 20)) = true ∧ acts (.vscansum 9 4 0) 2 (.val (.plain 15)) = true := by decide +kernel

/-- One thread of a party of one completes a phase alone; with an expectation more it does not. -/
def expecting : State := { data with parties := [{ party with barriers := party.barriers.set 2 { barrier with exp := 1 } }] }
def reported : State := on data (fun t => { t with arrived := some { bar := 2, phase := 6, report := some 0x30000 } })
/-- s4 and s5: tokens one phase and zero phases behind; s6 and s7: counts of 65,535 and 65,536. -/
def tokens : State := regs data [(4, 6), (5, 7), (6, 65535), (7, 65536)]
theorem wit_Barriers : data.partyOf data.me.party = some party ∧ party.saving = none ∧ party.remote = 0 ∧ data.me.arrived = none ∧ data.accessOpen data.cur = false ∧
    (party.barriers.get 2).arr + 1 = party.live.length + (party.barriers.get 2).exp ∧
    (expecting.partyOf expecting.me.party).map (fun p => decide ((p.barriers.get 2).arr + 1 = p.live.length + (p.barriers.get 2).exp)) = some false ∧
    reported.me.arrived = some { bar := (2 : BitVec 4).toFin, phase := 6, report := some 0x30000 } ∧
    (let k (a : BitVec 5) : Nat := ((7 : BitVec 32).toNat + 2 ^ 32 - (tokens.me.rd a).toNat % 2 ^ 32) % 2 ^ 32
     1 ≤ k 4 ∧ k 4 < 2 ^ 31 ∧ ¬ (1 ≤ k 5 ∧ k 5 < 2 ^ 31)) ∧
    (tokens.me.rd 6).toNat ≤ 65535 ∧ 65535 < (tokens.me.rd 7).toNat ∧ tokens.me.vec.window = [] := by decide +kernel
/-- The task's pool 1 is empty. -/
def drained : State := { data with tasks := [{ task with pools := task.pools.set 1 { remain := 0, next := 100, minchunk := 8, members := [(1, 0)] } }] }
theorem wit_WorkPools : data.myTask data.me = some task ∧ data.partyOf data.me.party = some party ∧ party.remote = 0 ∧
    drained.partyOf drained.me.party = some party ∧ (task.pools.get 1).remain ≠ 0 ∧
    (drained.myTask drained.me).map (fun k => (k.pools.get 1).remain) = some 0 := by decide +kernel
/-- The counter at s1 holds 0xF70605…; s4 is its value and s5 one more. -/
def counts : State := regs data [(4, 0xF7060504B3A29180), (5, 0xF7060504B3A29181)]
theorem wit_Counters : counts.memWf = true ∧ freeAt counts .read (counts.me.rd 1) 8 0x30000 true false = true ∧ counts.scalarHeld counts.cur = false ∧ localAt counts .read (counts.me.rd 1) 8 0x30000 = true ∧
    localAt counts .write (counts.me.rd 1) 8 0x30000 = true ∧ counts.enginesOpen counts.cur = false ∧ counts.accessOpen counts.cur = false ∧
    (∀ k, k < 8 → counts.poison.contains (0x30000 + k) = false) ∧
    leNat ((List.range 8).map (fun k => counts.finalByte (0x30000 + k))) = (counts.me.rd 4).toNat ∧
    leNat ((List.range 8).map (fun k => counts.finalByte (0x30000 + k))) < (counts.me.rd 5).toNat ∧
    (counts.me.rd 2).toNat % 8 = 0 ∧ inWindow (counts.me.rd 2).toNat = true ∧ counts.me.vec.window = [] ∧
    (0xFFFFFFFF180000 : Word).toNat % 8 = 0 ∧ inWindow (0xFFFFFFFF180000 : Word).toNat = true := by decide +kernel
/-- R29, R323: a counter in the window is an attribute fault inside the party's tiles, and beyond them the access fault. -/
theorem test_counter_window : nextIs (exec (.cadd 9 2 3) counts) (trapped 0x1A) = true ∧
    nextIs (exec (.cadd 9 2 3) (regs counts [(2, 0xFFFFFFFF180000)])) (trapped 0x12) = true ∧
    nextIs (exec (.waitc 9 2 3) (regs counts [(2, 0xFFFFFFFF180000)])) (trapped 0x12) = true := by decide +kernel

/-! ### Engine words -/

/-- Groups s4 (a CPY of 64 bytes from offset 0 to 0x1000, counter 0), s8 (its strides), s12 (index base), s16 (a grid of 2 × 2 × 2), s20 (its
modes), s24 (a table at 0x1000, number 3), s28 (one at an address that is no multiple of 8). -/
def posts : State := regs strip [(4, 0xFFFFFFFF001000), (5, 0xFFFFFFFF000000), (6, 0x0001000100000040), (7, 0),
  (12, 0xFFFFFFFF000000), (13, 0x30000), (14, 64), (15, 0), (16, 0xFFFFFFFF001000), (17, 0xFFFFFFFF000000), (18, 0x0000000200020002), (19, 0),
  (20, 0), (24, 0xFFFFFFFF001000), (25, 3), (26, 0), (28, 0xFFFFFFFF001004), (29, 3), (30, 0)]
/-- The thread may post with the extents and bases (MayPost, as a Bool). -/
def mayPost (s : State) (ext : List Extent) (bases : List (Word × Nat)) : Bool :=
  decide (s.memWf = true ∧ s.engineOf s.me = true ∧ s.accessOpen s.cur = false ∧ (∀ x ∈ ext, x.2 = 0 ∨ x.1 + x.2 ≤ s.spTop s.me) ∧
    ∀ b ∈ bases, b.1.toNat % b.2 = 0)
theorem mayPost_spec {s : State} {ext : List Extent} {bases : List (Word × Nat)} (h : mayPost s ext bases = true) : MayPost s ext bases :=
  have ⟨form, engine, earlier, tiles, aligned⟩ := of_decide_eq_true h
  { form, engine, earlier, tiles, aligned }
def kCpy : CmdKind := .cpy 0xFFFFFFFF001000 0xFFFFFFFF000000 64 1 1 0 0 0 0
def kGather : CmdKind := .cpyg 0xFFFFFFFF000000 0x30000 64 16 2 .i64 none
def kScatter : CmdKind := .cpys 0xFFFFFFFF000000 0x30000 64 16 2 .i64 none
def kGrid : CmdKind := .cpymg 0xFFFFFFFF001000 0xFFFFFFFF000000 2 2 2 0 0 0 0 0
theorem wit_CourierPosts : posts.me.level = .user ∧ posts.cmds.length < 1024 ∧ mayPost posts (kCpy.reads ++ kCpy.writes) [] = true ∧
    mayPost posts kGather.writes [] = true ∧ mayPost posts kScatter.reads [] = true ∧
    mayPost posts (kGrid.reads ++ kGrid.writes) [(0xFFFFFFFF001000, gridWidth 0), (0xFFFFFFFF000000, gridWidth 0)] = true ∧
    mayPost posts (CmdKind.cwtld 0xFFFFFFFF001000 3).reads [(0xFFFFFFFF001000, 8)] = true ∧
    mayPost posts (CmdKind.cwtld 0xFFFFFFFF001004 3).reads [] = true ∧ (posts.me.rd 28).toNat % 8 ≠ 0 ∧ mayPost posts [] [] = true := by decide +kernel
theorem wit_CourierPosts_operands :
    let n0 := (posts.me.rd 6).toNat % 2 ^ 32
    let n1 := (posts.me.rd 6).toNat / 2 ^ 32 % 2 ^ 16
    let n2 := (posts.me.rd 6).toNat / 2 ^ 48
    n0 = 64 ∧ n1 = 1 ∧ n2 = 1 ∧ rangesMeet (cpyBounds (posts.me.rd 4) n0 n1 n2 0 0) (cpyBounds (posts.me.rd 5) n0 n1 n2 0 0) = false ∧
    inWindow (posts.me.rd 12).toNat = true ∧ (posts.me.rd 14).toNat ≤ 65536 ∧ (posts.me.rd 18).toNat = 2 + 2 ^ 16 * 2 + 2 ^ 32 * 2 ∧
    (posts.me.rd 20).toNat < 2 ^ 11 ∧ (posts.me.rd 17).toNat + mgSrcBytes 2 2 2 0 0 ≤ (posts.me.rd 16).toNat ∧ (posts.me.rd 25).toNat < 8 ∧
    posts.me.rd 26 = 0 ∧ (posts.me.rd 6).toNat ≠ 0 ∧ (posts.me.rd 14).toNat < 2 ^ 16 := by decide +kernel

/-- s4: the window's start, s5: its second tile, s8 to s10: M, N and K, s12 to s15: an MMAV group, s16 to s18: its sizes. -/
def matrix : State := regs strip [(4, 0xFFFFFFFF000000), (5, 0xFFFFFFFF040000), (8, 16), (9, 16), (10, 32),
  (12, 0xFFFFFFFF000000), (13, 0x800000), (14, 0xFFFFFFFF001000), (15, 0), (16, 4), (17, 2048), (18, 2)]
theorem wit_MatrixPosts : matrix.me.level = .user ∧ matrix.engineOf matrix.me = true ∧
    ({ m := 16, n := 16, k := 32, af := 0, bf := 0 } : Panel).ok = true ∧ (3 : BitVec 2).toNat < matrix.accsOf matrix.me ∧ matrix.matQ.length < 64 ∧
    inWindow (matrix.me.rd 4).toNat = true ∧ inWindow (matrix.me.rd 5).toNat = true ∧ matrix.accFmt.get 3 = .unset ∧
    (matrix.me.rd 17).toNat % 2048 = 0 ∧ matrix.cmds.length < 1024 ∧
    mayPost matrix (MatOp.mma 3 0 0x40000 .start).reads [(0xFFFFFFFF000000, 1), (0xFFFFFFFF040000, panelWidth 0)] = true ∧
    mayPost matrix (MatOp.mst 3 0 0 .start .unset).writes [(0xFFFFFFFF000000, mstWidth 0)] = true ∧
    mayPost matrix [(0, 2048), (0x1000, 16)] [(0x800000, 2048), (0xFFFFFFFF001000, 4)] = true := by decide +kernel

/-- Stage 0 of the Porter's configuration is exact; at 0x32000 stands an image with one action and one entry; s4 and s5 point at a
configuration block of zeros and at the image, s6 at records, s7 is their number, s8 a spool. -/
def chain : State :=
  { bytes (regs strip [(4, 0x31000), (5, 0x32000), (6, 0xFFFFFFFF000000), (7, 2), (8, 7)]) 0x32000 (leBytes 8 0x0000000100010001) with
    pike := { strip.pike with porter := { strip.pike.porter with stages := listSet strip.pike.porter.stages 0 { kind := .exact, key := 0, key2 := 0, two := false } } } }
/-- The block at va is read, and meets the limits of PKCFG. -/
def configures (s : State) (va : Word) : Bool :=
  match s.loadList s.cur s.me va 64 with
  | .inl (_, l) => pkZeros (wordBytes l) && (pkConf (wordBytes l)).fieldsOk && (pkConf (wordBytes l)).stagesOk (s.stagesOf s.me) &&
      (pkConf (wordBytes l)).spoolsOk (s.spTop s.me)
  | .inr _ => false
/-- The image at va is read, and its one action and one entry are legal. -/
def imageFits (s : State) (va h0 : Word) : Bool :=
  match s.loadList s.cur s.me va 2 with
  | .inl (s1, [x, y]) => x == h0 && y == 0 &&
    (match s1.loadList s.cur s.me (va + 16) 4 with
     | .inl (_, body) => ((pieces 2 1 body).map pkAction).all (fun a => a.all (uOk s.pike.porter)) &&
         (pieces 2 1 (body.drop 2)).all (fun r => (r.getLastD 0).toNat < 256)
     | .inr _ => false)
  | _ => false
theorem wit_TurnpikeWords : chain.engineOf chain.me = true ∧ (chain.me.rd 4).toNat % 8 = 0 ∧ chain.scalarHeld chain.cur = false ∧
    chain.accessOpen chain.cur = false ∧ configures chain (chain.me.rd 4) = true ∧ (0 : BitVec 4).toNat < chain.stagesOf chain.me ∧
    (chain.me.rd 5).toNat % 8 = 0 ∧ (chain.pike.porter.stage 0).kind = .exact ∧ imageFits chain (chain.me.rd 5) 0x0000000100010001 = true ∧
    (0xFFF : BitVec 12).toNat < 2 ^ chain.stagesOf chain.me ∧ mayPost chain [] [] = true ∧ inWindow (chain.me.rd 6).toNat = true ∧
    (chain.me.rd 6).toNat % 16 = 0 ∧ (chain.me.rd 7).toNat ≤ 65536 ∧ mayPost chain (PikeOp.feed 0 2 0 0 []).reads [] = true ∧
    chain.feedsOpen chain.cur = false ∧ (11 : BitVec 7).toNat < chain.stagesOf chain.me ∧ (chain.me.rd 8).toNat ≤ 7 := by decide +kernel

/-- An open transaction with one staged store, s4 pointing at another doubleword. -/
def txn : State := on (regs data [(4, 0x30008)]) (fun t => { t with txn := some { code := 0, stores := [⟨0x30000, 0xAB⟩], phase := .staging, await := [] } })
def withTxn (f : Txn → Txn) : State := on txn (fun t => { t with txn := t.txn.map f })
/-- The transaction aborted, full, with a store to another module, and awaiting a reply in each phase. -/
def dead : State := withTxn (fun x => { x with code := 2 })
def full : State := withTxn (fun x => { x with stores := List.replicate 256 ⟨0x30000, 0xAB⟩ })
def remote : State := withTxn (fun x => { x with stores := [⟨2 * 2 ^ 39, 1⟩] })
theorem wit_Transactions : data.me.txn = none ∧ data.me.vec.window = [] ∧ txn.me.txn.isSome = true ∧ dead.me.txn.map (·.code) = some 2 ∧
    localAt txn .write (txn.me.rd 4) 8 0x30008 = true ∧ localAt full .write (full.me.rd 4) 8 0x30008 = true ∧
    full.me.txn.map (·.stores.length) = some 256 ∧ txn.accessOpen txn.cur = false ∧ txn.sysRelease.2 = true ∧ txn.memWf = true ∧
    txn.me.txn.map (fun x => x.stores.all (fun w => txn.ownerOf w.pa == txn.module_.toNat && w.pa % 8 == 0)) = some true ∧
    remote.me.txn.map (fun x => (remote.targets x, (remote.sysRelease.1.sendFlits (remote.targets x)).2)) = some ([1], false) ∧
    (withTxn (fun x => { x with phase := .phase1, await := [1] })).me.txn.map (fun x => (x.phase, x.await)) = some (.phase1, [1]) ∧
    (withTxn (fun x => { x with phase := .phase2 })).me.txn.map (fun x => (x.phase, x.await)) = some (.phase2, []) := by decide +kernel

/-! ### Events of the window -/

/-- A VADD of I64 with VL 16 has been issued; element i of v2 is i, of v3 10. -/
def adding : State := on strip (fun t =>
  let t := { t with cfg := { t.cfg with vl := 6 }, vec := { t.vec with vregs :=
    (t.vec.vregs.set 2 { wlog := 3, cells := [(0, .present 1), (4, .void)], rest := .present 7 }).set 3 { wlog := 3, cells := [], rest := .present 10 } } }
  match ruleSpec (.vadd 1 2 3 0 false) with | some sp => t.issue (.vadd 1 2 3 0 false) sp | none => t)
/-- A rule at the head of the window that a function of it changes. -/
def head (s : State) (f : Rule → Rule) : State := on s (fun t => { t with vec := { t.vec with window := t.vec.window.map f } })
/-- A VLD.D of v1 has been issued with its base at s1. -/
def loading : State := on strip (fun t => match ruleSpec (.vld 1 1 0 false false 0) with | some sp => t.issue (.vld 1 1 0 false false 0) sp | none => t)
def storing : State := on strip (fun t => match ruleSpec (.vst 1 1 0 false false 0) with | some sp => t.issue (.vst 1 1 0 false false 0) sp | none => t)
/-- Element 3 has come back, whole or lost. -/
def landing (lost : Bool) : State := head loading (fun r => { r with flight := [⟨3, 0x55, lost⟩] })
/-- A VCOMPRESS has been issued. -/
def compressing : State := on moves (fun t => match ruleSpec (.vcompress 1 3 2) with
  | some sp => (let u := t.issue (.vcompress 1 3 2) sp; { u with vec := { u.vec with window := u.vec.window.map (fun r => { r with mark := true }) } })
  | none => t)
/-- A rule of the window is as asked. -/
def firstRule (s : State) (p : Rule → Bool) : Bool := match s.me.vec.window with | r :: _ => p r | [] => false
theorem wit_WindowEvents_fire : (adding.th 0).occupied = true ∧ (adding.th 0).held = false ∧
    adding.me.segCarry = [] ∧ adding.me.prep = [] ∧
    firstRule adding (fun r => r.d0 == some 32 && r.old0 == some 1 && r.cls r.spec == .integerMask &&
      (adding.readyIn 0 r 0).map (fun e => e.1) == [0, 4] && (adding.carryIn 0 r 2).map (fun e => e.1) == [6, 10, 14] && r.pd == none) = true ∧
    (adding.me.vec.vreg 32).get 6 = .absent ∧
    (adding.me.vec.vreg 1).wlog = (adding.me.vec.vreg 32).wlog ∧ 10 < adding.me.vlmax 3 := by decide +kernel
theorem wit_WindowEvents_land (lost : Bool) : ((landing lost).th 0).occupied = true ∧ ((landing lost).th 0).held = false ∧
    firstRule (landing lost) (fun r => r.d0 == some 32 && r.flight == [⟨3, 0x55, lost⟩] && decide (3 < r.vle) &&
      decide (3 < (landing lost).me.vlmax r.td.wlog) && decide (gov (landing lost).me.vec r 3 = .on) &&
      (match r.spec.kind with | .mem m => m.dir == .load && memTag m.fmt r.td == r.td | _ => false)) = true := by
  cases lost <;> decide +kernel
theorem wit_WindowEvents_retire : firstRule (head adding (fun r => { r with done := BitVec.allOnes 8192 }))
      (fun r => r.complete r.spec (head adding (fun r => { r with done := BitVec.allOnes 8192 })).me &&
        (List.range r.vle).all (fun i => r.isDone i) && !(List.contains [r.d0, r.d1, r.old0, r.old1] (some 2)) &&
        (match r.spec.kind with | .ew _ => true | _ => false)) = true ∧
    firstRule adding (fun r => r.complete r.spec adding.me) = false := by decide +kernel
/-- Register 1 has no name once v1 names register 40; register 40 has one. -/
def renamed : State := on base (fun t => { t with vec := { t.vec with vmap := t.vec.vmap.set 1 40, vfree := [41], mmap := t.vec.mmap.set 1 20, pfree := [21] } })
theorem wit_WindowEvents_free : (renamed.th 0).occupied = true ∧ (renamed.th 0).held = false ∧ (1 : Fin 128) ∉ renamed.me.vec.vfree ∧
    renamed.me.vec.window = [] ∧ renamed.cmds = [] ∧ renamed.me.vpf = none ∧ (∀ n, renamed.me.vec.vmap.get n ≠ 1) ∧
    renamed.me.vec.vmap.get 1 = 40 ∧ (1 : Fin 48) ∉ renamed.me.vec.pfree ∧ (∀ n, renamed.me.vec.mmap.get n ≠ 1) ∧ renamed.me.vec.mmap.get 1 = 20 := by
  decide +kernel
theorem wit_WindowEvents_resolve : (compressing.th 0).occupied = true ∧ (compressing.th 0).held = false ∧
    firstRule compressing (fun r => r.mark && decide (r.vle = 16) && (match r.spec.kind with | .compress => true | _ => false) &&
      (List.range r.vle).all (fun j => decide (compressing.me.vec.bit r.pb j ≠ .absent))) = true := by decide +kernel
/-- Element 3 of the load has a recorded fault, and every other element is done. -/
def faulted : State := head loading (fun r => { r with faults := [⟨3, 0x18, 0x30018⟩], done := BitVec.allOnes 8192 ^^^ 8 })
theorem wit_WindowEvents_trap : (faulted.th 0).occupied = true ∧ (faulted.th 0).held = false ∧ faulted.quiet 0 = true ∧ faulted.atomicSent 0 = false ∧
    firstRule faulted (fun r => r.faults == [⟨3, 0x18, 0x30018⟩]) = true := by decide +kernel

/-! ### Events of the engines and the Turnpike -/

/-- Command 3 on stream 2: a CPY of two runs of 8 bytes, from 0, 0x10 to 0x1000, 0x1010; poster: the placed thread. -/
def copyCmd : Cmd :=
  { seq := 3, stream := 2, slot := 0, party := 1, ptidx := 0, ctx := 1, level := .user
    kind := .cpy 0xFFFFFFFF001000 0xFFFFFFFF000000 8 2 1 0x10 0x10 0 0, counter := 0, inc := 1, bar := none, st := .posted, xfer := [] }
def queued (l : List Cmd) : State := { strip with cmds := l, sp := Memory.setList [] 0 [1, 2, 3, 4, 5, 6, 7, 8] }
def performing : Cmd := { copyCmd with st := .performing }
/-- The same with a source past the party's tiles, done with its counter at 0x30000, and a CSBAR of stream 2. -/
def beyond : Cmd := { performing with kind := .cpy 0xFFFFFFFF001000 0xFFFFFFFF080000 8 2 1 0x10 0x10 0 0 }
def finished (ctr : Word) : Cmd := { performing with xfer := [0, 1], counter := ctr }
def fence2 : Cmd := { copyCmd with seq := 4, kind := .csbar 4 }
def faultsAt (s : State) (c : Cmd) (e : Nat) : Bool := match s.prep c e with | .fault _ _ => true | _ => false
/-- The counter of a command may be added to, in local memory at pa. -/
def countsAt (s : State) (c : Cmd) (pa : Nat) : Bool :=
  match (s.setCmd { c with st := CmdState.adding }).counterCheck c.asThread true c.counter with
  | .ok s1 locs (some _) => firstLoc locs == .home pa && (List.range 8).all (fun k => !s1.poison.contains (pa + k))
  | _ => false
/-- The source of element 1 lies past the party's tiles; element 0 passes its checks. -/
def half : Cmd := { performing with kind := .cpy 0xFFFFFFFF001000 0xFFFFFFFF07FFF8 8 2 1 0x10 0x10 0 0 }
def passesAt (s : State) (c : Cmd) (e : Nat) : Bool := match s.prep c e with | .ok _ _ _ => true | _ => false
/-- Element 1 still fails its check when element 0 is ready. -/
def faultsAfter (s : State) (c : Cmd) : Bool :=
  match s.prep c 0 with
  | .ok v bytes dst => faultsAt v { c with ready := [{ elem := 0, va := s.destVa c 0, bytes := bytes, locs := dst }] } 1
  | _ => false
theorem wit_EngineEvents_courier : (queued [copyCmd]).cmdOf 3 = some copyCmd ∧ (queued [copyCmd]).tableHeld copyCmd = false ∧
    (queued [copyCmd]).readHeld copyCmd 0 = false ∧ (queued [performing]).readHeld performing 0 = false ∧
    (queued [performing]).rangeHeld 3 [] (performing.kind.elemWrites 0) = false ∧ performing.xfer = [] ∧
    (queued [half]).cmdOf 3 = some half ∧ faultsAt (queued [half]) half 1 = true ∧ passesAt (queued [half]) half 0 = true ∧ half.ready = [] ∧
    faultsAfter (queued [half]) half = true ∧
    (∃ d ∈ (queued [{ copyCmd with seq := 2 }, copyCmd]).cmds, d.seq < 3 ∧ d.onStream 2 = true) ∧
    0 < performing.kind.count ∧ runStart 0xFFFFFFFF000000 0x10 0 2 1 = winBase + 0x10 ∧ runStart 0xFFFFFFFF001000 0x10 0 2 1 = winBase + 0x1010 ∧
    0x1010 + 8 ≤ (queued [performing]).spTop performing.asThread ∧ (queued [performing]).spPoison = [] ∧
    faultsAt (queued [beyond]) beyond 0 = true ∧ (queued [beyond]).posterLives beyond = true ∧
    (finished 0).xfer.length = (finished 0).kind.count ∧ (queued [finished 0]).cmdWritesOpen (finished 0) = false ∧
    countsAt (queued [finished 0x30000]) (finished 0x30000) 0x30000 = true ∧
    (∀ d ∈ (queued [fence2]).cmds, d.seq < 4 → d.onStream 2 = false) ∧ (∃ d ∈ (queued [copyCmd, fence2]).cmds, d.seq < 4 ∧ d.onStream 2 = true) := by
  decide +kernel

def matCmd (op : MatOp) : MatCmd := { seq := 3, slot := 0, party := 1, ptidx := 0, op := op }
/-- A panel of 2 × 2 with K = 4 of INT8. -/
def small : Panel := { m := 2, n := 2, k := 4, af := 0, bf := 0 }
def serving (op : MatOp) : State := { queued [{ copyCmd with st := .queued }] with matQ := [matCmd op], acc := [(1, 5)] }
/-- The same with an earlier copy that still writes the first row of A. -/
def held : State :=
  { serving (.mma 0 0 4 small) with cmds := [{ copyCmd with seq := 2, st := .performing, kind := .cpy 0xFFFFFFFF000000 0x30000 8 1 1 0 0 0 0 }] }
/-- A panel of BF16. -/
def smallF : Panel := { small with af := 3, bf := 3 }
theorem wit_EngineEvents_matrix : (∀ g, g < 1 → (serving (.mma 0 0 4 small)).rangeHeld 3 (small.groupReads 0 4 0 g) [] = false) ∧
    small.ok = true ∧ small.groups = 1 ∧ (matCmd (.mma 0 0 4 small)).done < small.m * small.groups ∧
    held.rangeHeld 3 (small.groupReads 0 4 0 0) [] = true ∧ held.matQ = [matCmd (.mma 0 0 4 small)] ∧
    (serving (.mma 0 0 4 small)).spPoison = [] ∧ (serving (.mma 0 0 4 small)).accPoison = [] ∧ small.acc ≠ .fp32 ∧
    smallF.ok = true ∧ smallF.acc = .fp32 ∧ (matCmd (.mma 0 0 4 smallF)).done < smallF.m * smallF.groups := by decide +kernel
/-- The command has parked at element 1, its fault not delivered. -/
def parked : State := queued [{ performing with st := .parked 0x12 1 0xFFFFFFFF080000 false false }]
theorem wit_EngineEvents_fault : parked.engineReady 0 = true ∧ (parked.th 0).drain = false ∧ parked.ctxOf (parked.th 0).ctx = some fetchCtx ∧
    fetchCtx.entry ≠ 0 ∧ (parked.th 0).vec.window = [] ∧ lowestStream (parked.engFaults 0) = some (2, 0x12, 1, 0xFFFFFFFF080000) := by decide +kernel

def pikeCmd (op : PikeOp) : PikeCmd := { seq := 3, slot := 0, party := 1, ptidx := 0, op := op }
def piked (k : Pike) : State := { queued [] with pike := k }
/-- A feed of two records of 16 bytes at offset 0. -/
def feed : PikeOp := .feed 0 2 0 0 []
def rec1 : PkRec := { bytes := [1, 2, 3, 4], pass := 4, route := 0, rc := false, drop := false, feed := 3, epoch := 0 }
/-- A chain with spools 0 (one record) and 7 (none), the latter the overflow spool. -/
def spools : PkConf := { PkConf.none with ovf := 7, spools := listSet PkConf.none.spools 0 { base := 0x100, cap := 1 } }
theorem wit_TurnpikeAndWaitEvents_entry : (piked { Pike.start with queue := [pikeCmd feed] }).pike.queue = [pikeCmd feed] ∧
    (piked { Pike.start with queue := [pikeCmd feed] }).rangeHeld 3 feed.reads [] = false ∧ (piked { Pike.start with chain := [rec1] }).leaveHeld rec1 = false ∧
    (piked Pike.start).spPoison = [] ∧ (∀ i, i < 12 → (Pike.start.conf.stage i).kind = .none) ∧
    (∀ r ∈ [rec1], listGet 0 Pike.start.swapped 2 ≤ r.epoch) ∧ (∃ r ∈ [rec1], r.epoch < listGet 0 (listSet Pike.start.swapped 2 1) 2) ∧
    (1 : Nat) + 2 ≤ [1, 2, 3, 4].length := by decide +kernel
theorem wit_TurnpikeAndWaitEvents_end : ({ Pike.start with conf := spools } : Pike).spoolFull 0 = false ∧
    ({ Pike.start with conf := spools } : Pike).spoolFull 7 = true ∧ ({ Pike.start with conf := { spools with ovf := 0 } } : Pike).spoolFull 7 = true ∧
    rec1.rc = false ∧ 4 ≤ ({ rec1 with rc := true } : PkRec).pass ∧ ({ rec1 with rc := true, pass := 3 } : PkRec).pass < 4 := by decide +kernel
def waiting : State := on strip (fun t => { t with stalled := true })
theorem wit_TurnpikeAndWaitEvents_waits : (waiting.th 0).occupied = true ∧ waiting.partyOf (waiting.th 0).party = some party ∧ party.remote = 0 ∧ (waiting.th 0).stalled = true ∧ waiting.grantWaits 0 none = false ∧
    (waiting.th 0).arrived = none ∧ (reported.th 0).arrived.map (fun x => x.report.isSome) = some true ∧
    (on data (fun t => { t with cfg := { t.cfg with qreq := 3 } })).qcore < ((on data (fun t => { t with cfg := { t.cfg with qreq := 3 } })).th 0).cfg.qreq := by
  decide +kernel

/-! ### Events of memory and of requests -/

/-- Element e of the rule at the head of the window has the address va, and its check in local memory gives the bytes from pa on, or fails. -/
def elementAt (s : State) (e : Nat) (va : Word) (pa : Option Nat) : Bool :=
  firstRule s (fun r => match r.spec.kind with
    | .mem m => !m.lane && s.accessible 0 r m e == some va && s.reqs == [] &&
      (match s.checkElem s.me m.elKind va.toNat (memWidth r m), pa with
       | .ok s1 locs [(l, a)], some p => s.me.earlyAt (.rule r.rid) locs == none &&
           !s1.queueHoldsElem s.me (s.me.ruleAge r) locs (!m.writes || m.elKind.amo.isSome) m.writes && locs == (List.range (memWidth r m)).map (fun i => .home (p + i)) && !pteCow l.e && a == va.toNat
       | .fault _ _, none => true
       | _, _ => false)
    | _ => false)
/-- A load whose base is in an unmapped page. -/
def unmapped : State := head loading (fun r => { r with opa := 0x2000000000 })
theorem wit_MemoryAndRequestEvents_elements : (loading.th 0).occupied = true ∧ (loading.th 0).held = false ∧ elementAt loading 2 0x30010 (some 0x30010) = true ∧
    elementAt storing 2 0x30010 (some 0x30010) = true ∧ (0x30010 : Word).toNat % 8 = 0 ∧ elementAt unmapped 2 0x2000000010 none = true := by
  decide +kernel
/-- Line 0xC00 of the core's cache, with byte 1 dirty, and clean. -/
def lined (d : BitVec 64) : State := { data with lines := [{ line := 0xC00, data := 0x1234, dirty := d }] }
/-- A translation of the first 64 GiB is held, so line 3 may be prefetched. -/
def prefetching : State := { data with tlb := [{ ctx := 1, vpage := 0, level := 1, pte := 0xFD, addr := 0x4000 }] }
theorem wit_MemoryAndRequestEvents_lines : (lined 2).findLine 0xC00 = some { line := 0xC00, data := 0x1234, dirty := 2 } ∧ (2 : BitVec 64) ≠ 0 ∧
    ((lined 0).findLine 0xC00).map (·.dirty) = some 0 ∧ prefetching.findLine 0xC00 = none ∧
    prefetching.mayHold 0xC00 = true ∧ prefetching.lines.length < prefetching.lineMax := by decide +kernel
/-- A page copy of the leaf at 0x8000 from 0x300000 to 0x400000. -/
def copying : Cow := { leaf := 0x8000, old := 0x300000, frame := 0x400000, tol := false }
def cowed : State := { bytes data 0x8000 (leBytes 8 0x3003FD) with cows := [copying] }
theorem wit_MemoryAndRequestEvents_copy : cowed.cows.find? (fun d => d.leaf == copying.leaf) = some copying ∧ copying.tol = false ∧ cowed.isLocal (copying.old + 2 ^ 16 - 1) = true ∧
    (∀ k, k < 8 → copying.leaf + k < copying.frame) := by decide +kernel
def pf : PcieFn := { link := 0, fn := 0 }
def vf : PcieFn := { link := 1, fn := 3 }
theorem wit_MemoryAndRequestEvents_atomic : 0x30000 % 8 = 0 ∧ data.allLocal 0x30000 8 = true ∧ (∀ k, k < 8 → 0x30000 + k ∉ data.poison) ∧
    data.canon 0x30000 = 0x30000 ∧ pf.fn = 0 ∧ 0x30000 = (data.fnOf pf).wsel.toNat * 2 ^ 36 + 0x30000 ∧
    data.allLocal (data.canon 0x30000) 3 = true ∧ vf.fn ≠ 0 ∧ (data.fnOf vf).mem = none := by decide +kernel
/-- A read and a write on their way to module 1, and a read of the host. -/
def req (pa : Nat) (op : BusOp) : Req := { id := 5, who := .posted, pa := pa, op := op, status := .sent }
/-- A read and a write that element 2 of rule 0 of slot 0 waits for. -/
def askedBy (pa : Nat) (op : BusOp) : State := { data with reqs := [{ req pa op with who := .element 0 0 2 }] }
def asked (pa : Nat) (op : BusOp) : State := { data with reqs := [req pa op] }
theorem wit_MemoryAndRequestEvents_requests : (asked (2 * 2 ^ 39) (.read 8)).reqOf 5 = some (req (2 * 2 ^ 39) (.read 8)) ∧
    (req (2 * 2 ^ 39) (.read 8)).open_ = true ∧ (req (2 * 2 ^ 39) (.write [1])).toPeer = true ∧
    (asked (2 * 2 ^ 39) (.write [1])).earlierReq (req (2 * 2 ^ 39) (.write [1])) = false ∧
    (req (2 * 2 ^ 39) (.write [1])).who.waits = false ∧ (ReqFor.element 0 0 2).waits = true ∧ ReqFor.element 0 0 2 ≠ .posted ∧
    (askedBy (2 * 2 ^ 39) (.write [1])).reqOf 5 = some { req (2 * 2 ^ 39) (.write [1]) with who := .element 0 0 2 } ∧
    (asked (2 * 2 ^ 39) (.read 8)).reqs.map (·.who) = [.posted] ∧
    (asked hostBase (.read 8)).reqOf 5 = some (req hostBase (.read 8)) ∧ hostBase ≤ (req hostBase (.read 8)).pa := by decide +kernel

/-! ### Events of the Innkeeper -/

/-- A direct record at 0x30000: one party of one thread with 4 lanes and no engine, binding word at 0x40000, stack of 256 bytes at 0x50000. -/
def recBytes : List Byte :=
  leBytes 8 0 ++ leBytes 8 0x40000 ++ leBytes 8 0 ++ leBytes 8 0 ++ leBytes 8 0 ++ leBytes 8 0 ++ leBytes 8 (1 + 4 * 128 + 2 ^ 34) ++ leBytes 8 1 ++
  leBytes 8 0 ++ leBytes 8 0 ++ leBytes 8 0 ++ leBytes 8 0x50000 ++ leBytes 8 0 ++ leBytes 8 256 ++ leBytes 8 0 ++ leBytes 8 0
def posted : State := bytes (bytes launcher 0x30000 (List.replicate 16 0)) 0x30080 recBytes
def launching : State := { posted with launches := [(1, 0x30080)] }
/-- A post area at 0x38000 whose TRIG has risen to 1 and whose FIRST names the record. -/
def area : PostArea := { die := 0, ctx := 1, addr := 0x38000, phys := false, trig := 0, last := 0, owed := 0, bad := [] }
def rung : State := { bytes posted 0x38000 (leBytes 8 1 ++ leBytes 8 0x30080) with areas := [area] }
/-- A record that waits for the counter at 0x39000 to reach a target. -/
def watched (tgt : Word) : State :=
  { bytes posted 0x39000 [5] with watches := [{ pa := 0x39000, recs := [{ ctx := 1, va := 0x30080, wctr := 0x39000, wtgt := tgt, stamp := 0 }] }] }
theorem wit_InnkeeperEvents_records : 
    (({ launching with launches := [] } : State).innSeen 1 false 0x30080 128).recWord 1 0x30080 0x10 = some 0 ∧ rung.areas[0]? = some area ∧
    area.die = rung.die.toNat ∧ rung.areaWord area 0 = some (area.trig + 1) ∧ (rung.innSeen 1 false 0x38000 16).areaWord area 8 = some 0x30080 ∧
    (rung.innSeen 1 false 0x38000 16).recordAt 1 0x30080 = true ∧
    ((rung.innSeen 1 false 0x38000 16).innSeen 1 false 0x30080 128).recWord 1 0x30080 0x10 = some 0 ∧ (watched 5).unwatched = [] ∧
    (match ((watched 5).innSeen 1 false 0x39000 8).innRead 1 0x39000 8 with | .ok x => x == 5 | .error _ => false) = true ∧ 5 < (6 : Word).toNat ∧ (5 : Word).toNat ≤ 5 := by
  decide +kernel
theorem wit_InnkeeperEvents_dispatch :
    let f := posted.readTask 1 0x30080
    posted.malformed 1 0x30080 f 0 = none ∧ posted.unplaceable f = false ∧ f.indirect = false ∧ f.pcount ≠ 0 ∧
    posted.malformed 1 0x30000 (posted.readTask 1 0x30000) 0 = some 0x04 := by decide +kernel
/-- An idle core, ready, with a party of the record waiting, at priority 3. -/
def simple : TaskRec := { record with accs := 0, stages := 0, walker := false, tiles := 0, engine := false, lanes := 4, prio := 3 }
def lodger : WaitParty := { key := 7, task := 6, pidx := 0, stamp := 5, age := 0, blocks := false, barriers := Vector.replicate 16 barrier, saved := none }
def guest : Saved := { threads := [(0, { data.me with party := 7 })], tables := [], engine := none }
def inn (w : WaitParty) : State :=
  { launcher with threads := Vector.replicate 2 Thread.free, parties := [], ready := true, waiting := [w], tasks := [{ task with key := 6, fields := simple }] }
theorem wit_InnkeeperEvents_place : (inn lodger).coreReady = true ∧ (inn lodger).order = [lodger] ∧ (inn lodger).canPlace lodger = some [0] ∧
    (inn lodger).taskOf 6 = some { task with key := 6, fields := simple } ∧ simple.two = false ∧ simple.isEngine = false ∧
    ({ inn lodger with waiting := [] } : State).bindingEntry { task with key := 6, fields := simple } = some (2, 0x20000) ∧
    (inn { lodger with saved := some guest }).canPlace { lodger with saved := some guest } = some [0] ∧
    ({ inn { lodger with saved := some guest } with waiting := [] } : State).windowKept 1 (guest.base + simple.sectionAt (guest.threads.map (·.2)) 1)
      { data.me with party := 7 } = true ∧
    (inn lodger).order.any (inn lodger).wide = false ∧ (inn lodger).mayPlace lodger = true ∧
    (inn lodger).waiting.find? (fun v => v.key == 7) = some lodger ∧ simple.ncore = 1 ∧ guest.threads.map (fun p => p.1) = [0] ∧ guest.engine = none ∧ (inn lodger).partyOf 7 = none ∧ (∃ w ∈ (inn lodger).waiting, w.task = 6) ∧ (inn lodger).effPrio lodger = 3 := by decide +kernel
/-- The placed party gives way to one of priority 3: its save area is large enough, and the policy allows it. -/
def yielding : State :=
  { launcher with
    ready := true, policy := Vector.replicate 4 0xF, waiting := [lodger], parties := [{ party with live := [0] }, { party with key := 2, task := 3, live := [1] }]
    threads := (launcher.threads.set 0 { launcher.me with party := 1 }).set 1 { launcher.me with party := 2 }
    tasks := [{ task with fields := { simple with prio := 0, save := 0x70000, savesz := 4096 } }, { task with key := 6, fields := simple }, { task with key := 3, fields := { simple with save := 0 } }] }
theorem wit_InnkeeperEvents_preempt : 1 ∈ yielding.victims ∧ yielding.partyOf 1 = some party ∧ yielding.reqs = [] ∧
    (({ yielding with fresh := yielding.fresh + 2 * yielding.parties.length } : State).stopThreads (yielding.slotsOf 1)).reqs = [] ∧
    (∀ sl ∈ yielding.slotsOf 1, (yielding.th sl).vec.window = [] ∧ (yielding.th sl).found = none ∧ yielding.engineReady sl = false ∧
      ({ yielding with fresh := yielding.fresh + 2 * yielding.parties.length } : State).stoppable sl = true) ∧
    yielding.slotsOf 1 = [0] := by decide +kernel
/-- The party has left: its save is done, or it has ended with a party more or none in its task. -/
def leaving (sv : Option Saved) (n : Nat) : State :=
  { launcher with parties := [{ party with live := [], saving := sv }], tasks := [{ task with open_ := n, fields := simple }], cmds := [] }
theorem wit_InnkeeperEvents_leave : (leaving (some guest) 1).partyOf 1 = some { party with live := [], saving := some guest } ∧
    (leaving none 1).partyOf 1 = some { party with live := [], saving := none } ∧ (leaving none 1).taskOf 1 = some { task with open_ := 1, fields := simple } ∧
    (leaving none 2).taskOf 1 = some { task with open_ := 2, fields := simple } ∧ (leaving none 2).enginesDone 1 = true ∧ simple.dctr = 0 ∧
    ((leaving none 1).sysReleaseFor 1).2 = true ∧
    (({ leaving none 1 with reqs := [{ req hostBase (.write [1]) with who := .scalar 0 }] } : State).sysReleaseFor 1).2 = false ∧
    task.faulted = false := by decide +kernel

/-! ### Power, links, and the firmware service -/

theorem wit_PowerAndLinkEvents_purse : data.ctxOf fetchCtx.num = some fetchCtx ∧ fetchCtx.spent.toNat + (5 : BitVec 32).toNat < 2 ^ 32 ∧
    8 * 6 < 7 * 7 ∧ 7 * 8 ≤ 8 * 7 ∧ 7 < 8 ∧ 4 * 8 < 5 * 7 ∧ 5 * 8 ≤ 4 * 10 := by decide +kernel
/-- A core without threads, running, gated and waking. -/
def empty : State := { State.reset with lines := [{ line := 1, data := 7, dirty := 1 }] }
theorem wit_PowerAndLinkEvents_gate : empty.idle = true ∧ empty.gate = .on ∧ empty.cidx.toNat < 48 ∧ data.idle = false ∧
    48 ≤ ({ empty with cidx := 48 } : State).cidx.toNat ∧ ({ empty with gate := .gated } : State).gate = .gated ∧ empty.droop = false := by decide +kernel
theorem wit_PowerAndLinkEvents_errors : (0 : Fin 4) = empty.die.toFin ∧ empty.chMarked < 256 ∧ empty.goodLanes.getLsbD 5 = true ∧
    empty.onlyLane 5 = false ∧ (∀ sl, (empty.th sl).occupied = false) ∧ (strip.th 0).occupied = true ∧ (strip.th 0).cfg.lmap.getLsbD 3 = true ∧
    strip.goodLanes.getLsbD 3 = true ∧ strip.onlyLane 3 = false ∧ ({ empty with coreMarked := true } : State).idle = true ∧
    (on strip (fun t => { t with cfg := { t.cfg with lmap := 8 } })).onlyLane 3 = true ∧ empty.coreRetired = false ∧ ({ data with coreMarked := true } : State).idle = false := by decide +kernel
def linked (l : Link) : State := data.setLink 4 l
def up : Link := { up := true, down := false, width := 8, changing := none, armed := false }
theorem wit_PowerAndLinkEvents_links : ((linked up).linkOf 4) = up ∧ 2 < up.width ∧ 8 ≤ up.width ∧ ((linked { up with width := 2 }).linkOf 4).width ≤ 2 ∧
    ((linked { up with changing := some 4 }).linkOf 4).changing = some 4 ∧ (data.linkOf 4).up = false := by decide +kernel
theorem wit_PowerAndLinkEvents_replies : ((withTxn (fun x => { x with phase := .phase1, await := [1, 2] })).th 0).txn.map (fun x => decide (1 ∈ x.await)) =
    some true ∧ ((withTxn (fun x => { x with phase := .phase1, await := [1, 2] })).th 1).txn = none ∧
    remote.me.txn.map (fun x => (x.undecided, remote.holdsStore x 1, remote.targets x)) = some (true, true, [1]) ∧
    (withTxn (fun x => { x with phase := .phase2, await := [1] })).me.txn.map (fun x => (x.phase, x.await)) = some (.phase2, [1]) := by decide +kernel
/-- R374, R402: a module's refusal, and the fault of a link of another module, before the decision. -/
theorem test_transaction_aborts : nextIs (exec (.xtTargetReply 1 false) remote) (fun t => t.me.txn.map (·.code) == some 4) = true ∧
    nextIs (exec (.xtTargetReply 4097 true) remote) (fun t => t.me.txn.map (·.code) == some 1) = true := by decide +kernel

/-- A supervisor of a privileged context that has called function n with arguments in s1 to s6; a mailbox call of the PF. -/
def called (n : Nat) (args : List Word) : State :=
  { on (regs data ((args.zipIdx).map (fun p => (BitVec.ofNat 5 (p.2 + 1), p.1)))) (fun t => { t with level := .firmware, wait := some (.service n) }) with
    ctxs := data.ctxs.map (fun c => { c with priv := true }) }
def letter (n : Nat) (args : List Word) : Mailbox :=
  { Mailbox.reset with fn := BitVec.ofNat 64 n, reqseq := 1, args := Vector.ofFn (fun i => listGet 0 args i.val) }.ring
def mailed (f : PcieFn) (n : Nat) (args : List Word) : State :=
  { data with ready := true, ctxs := data.ctxs.map (fun c => { c with owner := f }), hostfns := data.hostfns.map (fun h => { h with mbox := letter n args }) }
theorem wit_FirmwareServices_reply : ((called 1 []).th 0).wait = some (.service 1) ∧ [(3 : Word), 4, 5].length ≤ 3 := by decide +kernel
def argsOf (s : State) (c : Caller) (n : Nat) (l : List Word) : Bool := (s.callArgs c n).map (fun a => a.take l.length) == some l
theorem wit_FirmwareServices_contexts :
    argsOf (called 0 []) (.device 0) 0 [] = true ∧
    (called 1 [0x6000, 0x20000, 1]).classP (.device 0) = true ∧ argsOf (called 1 [0x6000, 0x20000, 1]) (.device 0) 1 [0x6000, 0x20000, 1] = true ∧
    0x6000 % 2 ^ 13 = 0 ∧ (called 1 []).canon 0x6000 = 0x6000 ∧ (called 1 []).isLocal (0x6000 + 8191) = true ∧ (called 1 []).freeCtx = some 2 ∧
    ({ called 1 [] with ctxs := [] } : State).classP (.device 0) = false ∧
    argsOf (called 2 [1, 0]) (.device 0) 2 [1, 0] = true ∧ (match (called 2 [1, 0]).ctxArg (.device 0) 1 with | .ok x => x.num == 1 | .error _ => false) = true ∧
    ({ called 3 [9] with reports := [⟨9, pf, 0x18, 0, 0⟩] } : State).reports.find? (fun q => q.num == 9) = some ⟨9, pf, 0x18, 0, 0⟩ := by decide +kernel
theorem wit_FirmwareServices_posts : argsOf (mailed vf 4 [0, 0x38000]) (.mailbox vf) 4 [0, 0x38000] = true ∧ (0x38000 : Nat) % 16 = 0 ∧
    (mailed vf 4 []).isLocal (0x38000 + 15) = true ∧ (mailed vf 4 []).poison = [] ∧ ((mailed vf 4 []).ownCtx (.mailbox vf)).map (·.num) = some 1 ∧
    (mailed vf 4 []).areasOn 0 < 16 ∧ (mailed vf 4 []).watchRoom 0 = true ∧
    ({ called 5 [1, 0x38000] with areas := [{ area with die := 1 }] } : State).areas = [{ area with die := 1 }] ∧
    argsOf (called 5 [1, 0x38000]) (.device 0) 5 [1, 0x38000] = true ∧ ((called 5 []).callerCtx (.device 0)).isSome = true ∧ 1 ≠ (called 5 []).die.toNat := by
  decide +kernel
theorem wit_FirmwareServices_settings : argsOf (called 6 [3, 0xFFFFF]) (.device 0) 6 [3, 0xFFFFF] = true ∧
    argsOf (called 7 [3, 0x20004]) (.device 0) 7 [3, 0x20004] = true ∧ (mailed pf 8 []).classP (.mailbox pf) = true ∧
    argsOf (mailed pf 8 [7, 7, 0x39000]) (.mailbox pf) 8 [7, 7, 0x39000] = true ∧ (mailed pf 8 []).isLocal (0x39000 + 63) = true ∧
    (parseWindow (64 :: List.replicate 63 0)).2 = false ∧ (parseWindow (64 :: List.replicate 63 0)).1.en = false ∧
    (bytes (mailed pf 8 []) 0x39000 [64]).finalByte 0x39000 = 64 ∧ (mailed pf 8 []).fwins.length = 64 ∧
    argsOf (called 9 [17]) (.device 0) 9 [17] = true ∧ argsOf (called 10 [400]) (.device 0) 10 [400] = true ∧
    (called 10 []).allBudgets ≤ 400 * 1000 ∧ 400 * 1000 < ({ called 10 [] with ctxs := [{ fetchCtx with priv := true, budget := 400001 }] } : State).allBudgets ∧
    argsOf (mailed pf 11 [3, 0, 63]) (.mailbox pf) 11 [3, 0, 63] = true ∧ pf.fn = 0 := by decide +kernel
theorem wit_FirmwareServices_memory : argsOf (mailed pf 12 [0x30000, 0x39000]) (.mailbox pf) 12 [0x30000, 0x39000] = true ∧
    argsOf (mailed pf 13 [0x39000]) (.mailbox pf) 13 [0x39000] = true ∧ (mailed pf 14 []).isLocal (0x39000 + 4096) = true ∧
    argsOf (mailed pf 15 [3, 49, 0x39000, 0]) (.mailbox pf) 15 [3, 49, 0x39000, 0] = true ∧
    argsOf (mailed pf 16 [16, 0x10000, 0x20000]) (.mailbox pf) 16 [16, 0x10000, 0x20000] = true ∧ (mailed pf 16 []).isLocal (0x10000 + 0x20000 - 1) = true ∧
    argsOf ({ called 17 [1] with chMarked := 1 } : State) (.device 0) 17 [1] = true := by decide +kernel
/-- A dispatched task of a mailbox's context, with its record at the physical address 0x30080. -/
def aborting : State := { mailed vf 18 [0x30080, 0] with tasks := [{ task with va := 0x30080 }], parties := [] }
theorem wit_FirmwareServices_abort : argsOf aborting (.mailbox vf) 18 [0x30080, 0] = true ∧ aborting.recAt (.home 0x30080) = some (1, 0x30080) ∧
    aborting.mayAbort (.mailbox vf) 1 = true ∧ (aborting.abortRec (1, 0x30080)).unwatched = [] := by decide +kernel
/-- Work of the service that ends with and without a counter, and a mailbox of a module that is not ready. -/
theorem wit_FirmwareServices_work : data.isLocal (0x30000 + 7) = true ∧ (∀ k, k < 8 → 0x30000 + k ∉ data.poison) ∧ data.ready = false ∧ pf.fn = 0 ∧
    (data.fnOf pf).mbox.call = none ∧ (data.fnOf pf).mbox.reqseq + 1 ≠ (data.fnOf pf).mbox.doneseq := by decide +kernel

/-! ## Single steps -/

/-- The command stands posted on stream 2, with counter ctr and contribution inc, and the thread has gone on. -/
def stands (s : State) (k : CmdKind) (ctr : Word) (inc : Nat) (t : State) : Bool :=
  t.cmds == s.cmds ++ [s.newCmd 2 k ctr inc none .posted] && t.me.pc == 0x10004 && t.me.sregs == s.me.sregs && t.postFaults == []

/-- R28, R81: extended loads, the scratchpad window, little-endian stores. -/
theorem test_loads_and_stores : nextIs (exec (.ldb 5 1 0) data) (fun t => t.me.rd 5 == 0xFFFFFFFFFFFFFF80 && t.me.pc == 0x10004) = true ∧
    nextIs (exec (.std 3 1 8) data) (fun t => (List.range 8).map (fun k => t.seenByte (0x30008+k)) == leBytes 8 0x1122334455667788 && t.seenByte 0x30007 == 0xF7 && t.me.sregs == data.me.sregs) = true ∧
    nextIs (exec (.std 3 2 0) data) (fun t => Memory.get t.sp 0 == 0x88) = true ∧
    nextIs (exec (.ldd 5 1 0) data) (fun t => t.me.rd 5 == 0xF7060504B3A29180 && t.me.pc == 0x10004) = true ∧
    nextIs (exec (.ldd 5 2 0) data) (fun t => t.me.rd 5 == 0 && t.me.pc == 0x10004) = true := by decide +kernel

/-- R82, R363: the first check that fails gives the cause. -/
theorem test_access_checks : nextIs (exec (.ldd 9 5 0) bad) (trapped 0x10) = true ∧
    nextIs (exec (.ldd 9 6 0) bad) (trapped 0x11) = true ∧
    nextIs (exec (.ldd 9 7 0) bad) (trapped 0x12) = true ∧
    nextIs (exec (.ldd 9 8 0) bad) (trapped 0x18) = true := by decide +kernel

/-- R84, R89, R90: a device-scope atomic, the pushed words, and the state that RET restores or refuses. -/
theorem test_atomics_calls_returns : nextIs (exec (.amoadd 5 1 3 5 3 1) data) (fun t => t.me.rd 5 == 0xF7060504B3A29180 && (List.range 8).map (fun k => t.finalByte (0x30000+k)) == leBytes 8 (0x1122334455667788 + 0xF7060504B3A29180)) = true ∧
    nextIs (exec (.call 6) stacked) (fun t => t.me.rd 31 == 0x500F0 && t.me.pc == 0x10018 && (List.range 8).map (fun k => t.seenByte (0x500F0+k)) == leBytes 8 0x10004) = true ∧
    nextIs (exec .ret stacked) (fun t => t.me.rd 31 == 0x50110 && t.me.pc == 0x20000 && t.me.cfg.vl == 2 && t.me.cfg.segsel == 3 && t.me.cfg.frm == 2) = true ∧
    nextIs (exec .ret badState) (trapped 0x04) = true ∧
    nextIs (exec .ret badReturn) (trapped 0x05) = true ∧
    nextIs (exec .ret (regs data [(31, 0x50108)])) (trapped 0x11) = true := by decide +kernel

/-- R93, R94, R196, R201, R205, R418. -/
theorem test_traps_and_returns : nextIs (exec (.trap 5) data) (fun t => trapped 8 t && t.me.pc == 0x20000 && t.me.cfg.epc == 0x10004 && t.me.cfg.trapelem == 5 && t.me.cfg.trapaddr == 0x10000 && t.me.cfg.traprule == 31) = true ∧
    nextIs (exec (.brk 5) data) (fun t => trapped 9 t && t.me.cfg.epc == 0x10000) = true ∧
    nextIs (exec (.trap 5) issued) (fun t => t == issued.stalledMe) = true ∧
    nextIs (exec (.trap 5) handler) (fun t => t.me.level == .firmware && t.me.wait == some (.service 5) && t.me.cfg.plev == 1 && t.me.pc == 0x28000) = true ∧
    nextIs (exec .eret handler) (fun t => t.me.level == .user && t.me.held==false && t.me.pc == 0x10000 && t.me.cfg.vl == 3 && t.me.cfg.segsel == 1 && t.me.cfg.frm == 2) = true ∧
    nextIs (exec .eret nested) (fun t => t.me.level == .supervisor && t.me.held && t.me.pc == 0x10000) = true ∧
    nextIs (exec .eret noImage) (fun t => t.me.occupied == false) = true := by decide +kernel

/-- R22, R24, R408: a reserved mode, and budgets within and beyond the module limit. -/
theorem test_configuration : nextIs (exec (.wrcfg 4 3) purses) (fun t => t.me.occupied == false) = true ∧
    nextIs (exec (.wrcfg 5 0xB) purses) (fun t => (t.ctxOf 1).map (·.budget) == some 600000 && t.cfgRead 0 0xB == 600000) = true ∧
    nextIs (exec (.wrcfg 6 0xB) purses) (fun t => t.me.occupied == false) = true := by decide +kernel

/-- R96 to R100: FENCE, EXIT, LAUNCH and SPLICE. -/
theorem test_system : nextIs (exec .exit launcher) (fun t => t.th 0 == Thread.free) = true ∧
    nextIs (exec (.launch 4) launcher) (fun t => t.launches == [(1, 0x30080)] && t.me.pc == 0x10004) = true ∧
    nextIs (exec (.splice 0) launcher) (fun t => t.me.pc == 0x20400 && t.me.version == 2) = true ∧
    nextIs (exec (.fence true true true true 5) launcher) (fun t => t.me.pc == 0x10004) = true := by decide +kernel

/-- R368 to R371. -/
theorem test_maintenance : nextIs (exec (.tlbinv 5 6) mapped) (fun t => t.tlb.length == 1) = true ∧
    nextIs (exec (.snapr 9 5 6) mapped) (fun t => t.me.rd 9 == 1 && t.homeNat 0x8000 8 == 0x3002FD && t.homeNat 0x8008 8 == 0x3100F5) = true ∧
    nextIs (exec (.snaprX 9 5 6) mapped) (fun t => t.me.rd 9 == 2 && t.homeNat 0x8000 8 == 0x3002FD && t.homeNat 0x8008 8 == 0x3102F5) = true ∧
    nextIs (exec (.pgpool 9 7 8) mapped) (fun t => t.me.rd 9 == 2 && t.pool == [0x400000, 0x410000]) = true := by decide +kernel

/-- R205, R217: a fetched word is held until ERET or TLBINV of its page; a word of a peer's page is asked for (R394). -/
theorem test_held_words :
    (match base.fetch base.me base.me.pc with | .word s _ => s.words == [{ ctx := 1, va := 0x10000, word := 0 }] | _ => false) = true ∧
    nextIs (exec .eret { handler with words := [{ ctx := 1, va := 0x10000, word := 5 }, { ctx := 2, va := 0x10000, word := 6 }] })
      (fun t => t.words == [{ ctx := 2, va := 0x10000, word := 6 }]) = true ∧
    nextIs (exec (.tlbinv 5 6) { mapped with words := [{ ctx := 1, va := 0x1000000000, word := 5 }, { ctx := 1, va := 0x10000, word := 6 }] })
      (fun t => t.words == [{ ctx := 1, va := 0x10000, word := 6 }]) = true ∧
    (match base.fetchRemote 1 0x10000 0x8000000000 4 with | .wait s => s.reqs.length == 1 | _ => false) = true := by decide +kernel

/-- R128 to R130: the rows 3, 0, 2 fit into 128 lanes, the row of 200 does not. -/
theorem test_grants : nextIs (exec (.setfib 9 4 5 0 5) rows) (fun t => t.me.rd 9 == 3 && t.me.cfg.vl == 5 && t.me.cfg.segsel == 5 && (List.range 8).map (fun i => (t.me.vec.preg (t.me.vec.mphys 5)).get i == .present true) == [true,false,false,true,false,false,false,false]) = true ∧
    nextIs (exec (.setfib 9 4 6 0 5) rows) (fun t => t.me.rd 9 == 0 && t.me.cfg.vl == 0 && t.me.cfg.segsel == 0) = true ∧
    nextIs (exec (.setvli 9 0 1 0) rows) (fun t => t.me.rd 9 == 64 && t.me.cfg.vl == 64 && t.me.cfg.wlog == 1) = true := by decide +kernel

/-- R43, R178, R201. -/
theorem test_issue : nextIs (exec (.vwmul 2 3 1 0 false) strip) (trapped 3) = true ∧
    nextIs (exec (.mma 0 1 2) handler) (fun t => t.me.occupied == false) = true ∧
    nextIs (exec (.vadd 1 2 3 0 false) strip) (fun t => t.me.pc == 0x10004 && t.me.vec.window.length == 1 && t.me.vec.vphys 1 == 32) = true := by decide +kernel

/-- R133, R145. -/
theorem test_moves_1 : nextIs (exec (.vtag 2 3) moves) (fun t => t.me.vec.vphys 2 == 2) = true ∧
    nextIs (exec (.vtag 2 4) moves) (fun t => t.me.vec.vphys 2 == 32 && t.me.vec.tag 2 == .n8) = true ∧
    nextIs (exec (.vmvs 9 2 4) moves) (fun t => t.me.rd 9 == 5) = true ∧
    nextIs (exec (.vmvs 9 2 6) moves) (fun t => t == moves.stalledMe) = true ∧
    nextIs (exec (.vmvs 9 2 7) moves) (fun t => t.me.rd 9 == 0 && t.me.cfg.vstat == 2) = true ∧
    nextIs (exec (.mffs 9 1) moves) (fun t => t.me.rd 9 == 2) = true ∧
    nextIs (exec (.mffs 9 2) moves) (fun t => t.me.rd 9 == 0xFFFFFFFFFFFFFFFF) = true ∧
    nextIs (exec (.mpopc 9 1) moves) (fun t => t.me.rd 9 == 2) = true := by decide +kernel

/-- R133, R145. -/
theorem test_moves_2 : nextIs (exec (.mpopc 9 3) moves) (fun t => t == moves.stalledMe) = true := by decide +kernel

/-- R171, R226, R245, R330, R336. -/
theorem test_window_words : nextIs (exec (.tblb 4 5 6) lookups) (fun t => t.me.vec.window.length == 1) = true ∧
    nextIs (exec (.tblb 7 5 6) lookups) (trapped 0x13) = true ∧
    nextIs (exec (.cwalk 2 4 6 8) lookups) (fun t => t.me.vec.window.length == 1) = true ∧
    nextIs (exec (.mrd 3 4 6 0) lookups) (fun t => t.me.vec.window.length == 1 && t.matQ.length == 1) = true ∧
    nextIs (exec (.vpf 0 8) blocks) (fun t => t.me.vec.window.length == 1 && t.me.vpf.map (·.vps.length) == some 16) = true := by decide +kernel

/-- R230, R244, R246. -/
theorem test_blocks : nextIs (exec (.vpCohortIssue 0) (block 0)) (fun t => t.me.vpf.map (·.vps.map (·.pc)) == some [0x1002C]) = true ∧
    nextIs (exec (.vpCohortIssue 0) (block 1)) (fun t => t.me.vpf.map (·.vps.map (·.pc)) == some [0x10034]) = true ∧
    nextIs (exec (.vpCohortIssue 0) (block 2)) (fun t => t.me.vpf.map (·.vps.map (·.pc)) == some [] && (t.me.vec.vreg 32).get 3 == .present 9) = true := by decide +kernel

/-- R253: the only member completes the phase; with one expectation more it waits; token 6 has been passed, token 7 has not. -/
theorem test_barriers : nextIs (exec (.bar 9 2) data) (fun t => t.me.rd 9 == 0 && t.me.pc == 0x10004 && (t.barOf 1 2).phase == 8) = true ∧
    nextIs (exec (.bar 9 2) expecting) (fun t => t.me.arrived == some ⟨2, 7, none⟩ && (t.barOf 1 2).arr == 1) = true ∧
    nextIs (exec (.bar 9 2) reported) (fun t => t.me.rd 9 == 0x30000) = true ∧
    nextIs (exec (.bara 9 2) data) (fun t => t.me.rd 9 == 7) = true ∧
    nextIs (exec (.barw 9 4 2) tokens) (fun t => t.me.rd 9 == 0 && t.me.pc == 0x10004) = true ∧
    nextIs (exec (.barw 9 5 2) tokens) (fun t => t == tokens.stalledMe) = true ∧
    nextIs (exec (.barexp 6 2) tokens) (fun t => (t.barOf 1 2).exp == 65535) = true ∧
    nextIs (exec (.barexp 7 2) tokens) (trapped 4) = true := by decide +kernel

/-- R256: half of 100 items at half the speed sum; R323, R324. -/
theorem test_work : nextIs (exec (.take 9 1) data) (fun t => t.me.rd 9 == 5 * 2^32 + 50) = true ∧
    nextIs (exec (.take 9 1) drained) (fun t => t.me.rd 9 == BitVec.allOnes 64) = true ∧
    nextIs (exec (.waitc 9 1 4) counts) (fun t => t.me.rd 9 == 0xF7060504B3A29180) = true ∧
    nextIs (exec (.waitc 9 1 5) counts) (fun t => t.me.stalled && t.me.pc == 0x10000) = true ∧
    nextIs (exec (.waitc 9 2 5) counts) (trapped 0x1A) = true ∧
    nextIs (exec (.cadd 9 1 5) counts) (fun t => t.me.rd 9 == 0xF7060504B3A29180 && (List.range 8).map (fun k => t.finalByte (0x30000+k)) == leBytes 8 (0xF7060504B3A29180 + 0xF7060504B3A29181)) = true := by decide +kernel

/-- R307 to R321. -/
theorem test_courier_words : nextIs (exec (.cpy 4 2 8 false 0 0) posts) (stands posts kCpy 0 1) = true ∧
    nextIs (exec (.cpyg 12 2 2 false 0 0) posts) (stands posts kGather 0 1) = true ∧
    nextIs (exec (.cpys 12 2 2 false 0 0) posts) (stands posts kScatter 0 1) = true ∧
    nextIs (exec (.cpymg 16 2 20 false 0 0) posts) (stands posts kGrid 0 1) = true ∧
    nextIs (exec (.cwtld 24 2 false 0 0) posts) (stands posts (.cwtld 0xFFFFFFFF001000 3) 0 1) = true ∧
    nextIs (exec (.cwtld 28 2 false 0 0) posts) (fun t => t.postFaults == [⟨0, 0x11, 2, 0xFFFFFFFF001004⟩] && t.me.pc == 0x10004 && t.cmds == []) = true ∧
    nextIs (exec (.csbar 14) posts) (fun t => t.cmds.length == 1) = true ∧
    nextIs (exec (.cresume 14) posts) (fun t => t.me.pc == 0x10004) = true := by decide +kernel

/-- R326 to R332. -/
theorem test_matrix_words : nextIs (exec (.mcfg 8 9 10 0 0) matrix) (fun t => t.panels.get 0 == { m := 16, n := 16, k := 32, af := 0, bf := 0 } && t.me.pc == 0x10004) = true ∧
    nextIs (exec (.mzero 3) matrix) (fun t => t.matQ.length == 1 && t.accFmt.get 3 == .int32) = true ∧
    nextIs (exec (.mma 3 4 5) matrix) (fun t => t.matQ == [matrix.newMat 10 (.mma 3 0 0x40000 .start)]) = true ∧
    nextIs (exec (.mst 3 4 0) matrix) (fun t => t.matQ == [matrix.newMat 10 (.mst 3 0 0 .start .unset)]) = true ∧
    nextIs (exec (.mmav 12 16 2) matrix) (fun t => t.matQ == [matrix.newMat 11 (.mmav 10)] && t.cmds.length == 1) = true := by decide +kernel

/-- R376 to R388. -/
theorem test_pike_words : nextIs (exec (.pkcfg 4) chain) (fun t => t.pike.queue.length == 1 && t.pike.porter == pkConf (List.replicate 512 0)) = true ∧
    nextIs (exec (.pkload 5 0) chain) (fun t => t.pike.queue.length == 1 && t.me.pc == 0x10004) = true ∧
    nextIs (exec (.pkswap 0xFFF) chain) (fun t => t.pike.queue.length == 1 && t.me.pc == 0x10004) = true ∧
    nextIs (exec (.pkfeed 6 7) chain) (fun t => t.pike.queue == [chain.newPike (.feed 0 2 0 0 [])] && t.me.pc == 0x10004) = true ∧
    nextIs (exec (.pkmiss 9 11) chain) (fun t => t.me.rd 9 == 0 && t.me.pc == 0x10004) = true ∧
    nextIs (exec (.pkdrainClr 9 8) chain) (fun t => t.me.rd 9 == 0 && t.me.pc == 0x10004) = true := by decide +kernel

/-- R401 to R403: codes 0, 2 and 3; a store to another module waits. -/
theorem test_transactions_1 : nextIs (exec (.xst 3 4) txn) (fun t => t.me.txn.map (·.stores) == some [⟨0x30000, 0xAB⟩, ⟨0x30008, 0x1122334455667788⟩]) = true ∧
    nextIs (exec (.xst 3 4) full) (fun t => t.me.txn.map (·.code) == some 2) = true ∧
    nextIs (exec (.xst 3 4) dead) (fun t => t.me.pc == 0x10004 && t.mem == dead.mem) = true ∧
    nextIs (exec (.xcommit 9) txn) (fun t => t.me.rd 9 == 0 && t.me.txn == none && t.finalByte 0x30000 == 0xAB && t.finalByte 0x30001 == 0) = true ∧
    nextIs (exec (.xcommit 9) dead) (fun t => t.me.rd 9 == 2 && t.me.txn == none && t.finalByte 0x30000 == 0x80) = true ∧
    nextIs (exec (.xcommit 9) remote) (fun t => t.me.stalled && t.me.txn.map (fun x => (x.phase, x.await)) == some (.phase1, [1])) = true ∧
    nextIs (exec (.xcommit 9) (withTxn (fun x => { x with phase := .phase2 }))) (fun t => t.me.rd 9 == 0 && t.me.txn == none) = true ∧
    nextIs (exec (.xcommit 9) (withTxn (fun x => { x with phase := .phase1}))) (fun t => t.me.stalled && t.me.txn.map (fun x => (x.phase, x.await)) == some (.phase2, [])) = true := by decide +kernel

/-- R401 to R403: codes 0, 2 and 3; a store to another module waits. -/
theorem test_transactions_2 : nextIs (exec (.xcommit 9) data) (fun t => t.me.rd 9 == 3) = true ∧
    nextIs (exec .xbegin txn) (trapped 4) = true := by decide +kernel

/-- R182, R186, R153, R189, R193, R201. -/
theorem test_window_events_1 : nextIs (exec (.elementFire 0 0 .integerMask) adding) (fun t => (t.me.vec.vreg 32).get 0 == .present 11 && (t.me.vec.vreg 32).get 4 == .void && (t.me.vec.vreg 32).get 1 == .absent) = true ∧
    nextIs (exec (.carryCopy 0 2) adding) (fun t => (t.me.vec.vreg 32).get 6 == .present 0 && (t.me.vec.vreg 32).get 10 == .present 0 && (t.me.vec.vreg 32).get 14 == .absent) = true ∧
    nextIs (exec (.dataLanding 0 0 3) (landing false)) (fun t => (t.me.vec.vreg 32).get 3 == .present 0x55 && firstRule t (fun r => r.flight == [] && r.done.getLsbD 3)) = true ∧
    nextIs (exec (.dataLanding 0 0 3) (landing true)) (fun t => (t.me.vec.vreg 32).get 3 == .void && t.me.cfg.voidcnt == 1) = true ∧
    nextIs (exec (.retire 0) (head adding (fun r => { r with done := BitVec.allOnes 8192 }))) (fun t => t.me.vec.window == []) = true ∧
    nextIs (exec (.registerFree 0 false 1) renamed) (fun t => t.me.vec.vfree.length == 2) = true ∧
    nextIs (exec (.registerFree 0 false 40) renamed) (fun t => t == renamed) = true ∧
    nextIs (exec (.registerFree 0 true 1) renamed) (fun t => t.me.vec.pfree.length == 2) = true := by decide +kernel

/-- R182, R186, R153, R189, R193, R201. -/
theorem test_window_events_2 : nextIs (exec (.branchResolve 0) compressing) (fun t => t.me.cfg.vl == 0) = true ∧
    nextIs (exec (.trapEntry 0) faulted) (fun t => trapped 0x18 t && t.me.cfg.trapelem == 3 && t.me.cfg.trapaddr == 0x30018 && t.me.cfg.traprule == 0) = true := by decide +kernel

/-- R292 to R297, R309, R320, R328. -/
theorem test_engine_events_1 : nextIs (exec (.courierBeginPerforming 3) (queued [copyCmd])) (fun t => t.cmds == [performing]) = true ∧
    nextIs (exec (.courierBeginPerforming 3) (queued [{copyCmd with seq := 2}, copyCmd])) (fun t => t == (queued [{copyCmd with seq := 2}, copyCmd])) = true ∧
    nextIs (exec (.courierElementTransfer 3 0) (queued [performing])) (fun t => Memory.getList t.sp 0x1000 8 == [1,2,3,4,5,6,7,8] && t.cmds == [{performing with xfer := [0]}]) = true ∧
    nextIs (exec (.courierElementTransfer 3 1) (queued [half])) (fun t => t == queued [half]) = true ∧
    nextIs (exec (.courierElementTransfer 3 0) (queued [beyond])) (fun t => t.cmds == [{beyond with st := .parked 0x12 0 0xFFFFFFFF080000 false false}]) = true ∧
    nextIs (exec (.commandComplete 3) (queued [finished 0])) (fun t => t.cmds == []) = true ∧
    nextIs (exec (.commandComplete 3) (queued [finished 0x30000])) (fun t => t.cmds == [] && t.finalByte 0x30000 == 0x81) = true ∧
    nextIs (exec (.commandComplete 4) (queued [fence2])) (fun t => t.cmds == []) = true ∧
    nextIs (exec (.commandComplete 4) (queued [copyCmd, fence2])) (fun t => t == queued [copyCmd, fence2]) = true := by decide +kernel

/-- R67, R68, R208, R297, R301, R328, R329: row 0 of A is 1 2 3 4, row 1 is 5 6 7 8; B is 5 6, 7 8, 0 0, 0 0; element (0, 1) holds 5. -/
theorem test_engine_events_2 : nextIs (exec .matrixQueueServe (serving (.mzero 0 .int32))) (fun t => t.matQ == [] && t.accGet 0 0 1 == 0) = true ∧
    nextIs (exec .matrixQueueServe (serving (.mma 0 0 4 small))) (fun t => t.accGet 0 0 0 == 19 && t.accGet 0 0 1 == 27 && t.accGet 0 1 0 == 0 && t.matQ == [{ matCmd (.mma 0 0 4 small) with done := 1 }]) = true ∧
    nextIs (exec .matrixQueueServe { serving (.mma 0 0 4 small) with matQ := [{ matCmd (.mma 0 0 4 small) with done := 1 }] }) (fun t => t.accGet 0 1 0 == 67 && t.accGet 0 1 1 == 78 && t.accGet 0 0 1 == 5 && t.matQ == []) = true ∧
    nextIs (exec .matrixQueueServe held) (fun t => t == held) = true ∧
    nextIs (exec .matrixQueueServe (serving (.mmav 3))) (fun t => t.matQ == [] && t.cmds == [copyCmd]) = true ∧
    nextIs (exec (.engineFaultDelivery 0) parked) (fun t => trapped 0x52 t && t.me.cfg.cestart == 1 && t.me.cfg.cestream == 2 && t.me.cfg.traprule == 31) = true := by decide +kernel

/-- R378 to R384. -/
theorem test_turnpike_events_1 : nextIs (exec .turnpikeEntry (piked { Pike.start with queue := [pikeCmd feed] })) (fun t => t.pike.chain == [{ bytes := [1,2,3,4,5,6,7,8,0,0,0,0,0,0,0,0], pass := 1, route := 0, rc := false, drop := false, feed := 3, epoch := 0 }]) = true ∧
    nextIs (exec .turnpikeEntry (piked { Pike.start with queue := [pikeCmd (.swap 3)] })) (fun t => t.pike.queue == []) = true ∧
    nextIs (exec .pkloadPerform (piked { Pike.start with queue := [pikeCmd (.load 2 {PkBank.clear with miss := 7})], chain := [rec1] })) (fun t => t.pike.queue == [] && listGet .clear t.pike.shadow 2 == {PkBank.clear with miss := 7}) = true ∧
    nextIs (exec .pkloadPerform (piked { Pike.start with queue := [pikeCmd (.load 2 {PkBank.clear with miss := 7})], chain := [rec1], swapped := listSet Pike.start.swapped 2 1 })) (fun t => t.pike.queue.length == 1) = true ∧
    nextIs (exec .pkcfgPerform (piked { Pike.start with queue := [pikeCmd (.cfg spools)]})) (fun t => t.pike.queue == [] && t.pike.conf == spools) = true ∧
    nextIs (exec .pkcfgPerform (piked { Pike.start with queue := [pikeCmd (.cfg spools)], chain := [rec1]})) (fun t => t.pike.queue.length == 1) = true ∧
    nextIs (exec .turnpikePassEnd (piked { Pike.start with conf := spools, chain := [rec1]})) (fun t => t.pike.chain == [] && Memory.getList t.sp 0x100 4 == [1,2,3,4] && t.pike.spoolCnt.headD 0 == 1) = true ∧
    nextIs (exec .turnpikePassEnd (piked { Pike.start with conf := spools, chain := [{rec1 with rc := true, pass := 3}]})) (fun t => t.pike.chain == [] && t.pike.reentry.length == 1) = true := by decide +kernel

/-- R378 to R384. -/
theorem test_turnpike_events_2 : nextIs (exec .turnpikePassEnd (piked { Pike.start with conf := {spools with ovf := 0}, chain := [{rec1 with rc := true, pass := 4}]})) (fun t => t.pike.chain == [] && t.pike.overp == 1 && t.pike.spoolCnt.headD 0 == 1) = true ∧
    nextIs (exec .turnpikePassEnd (piked { Pike.start with conf := {spools with ovf := 0}, chain := [{rec1 with route := 5}]})) (fun t => t.pike.chain == [] && t.pike.full == 1 && t.pike.spoolCnt.headD 0 == 1) = true ∧
    nextIs (exec .turnpikePassEnd (piked { Pike.start with conf := spools, chain := [{rec1 with route := 5}]})) (fun t => t.pike.chain == [] && t.pike.full == 1 && t.pike.lost == 1) = true := by decide +kernel

/-- R220, R235. -/
theorem test_wait_events : nextIs (exec (.grantWaitEnd 0) waiting) (fun t => t.me.stalled == false) = true ∧
    nextIs (exec .quarterMoveDone (on data (fun t => { t with cfg := { t.cfg with qreq := 3 } }))) (fun t => t.qcore == 1) = true := by decide +kernel

/-- R153, R345 to R353, R372. -/
theorem test_memory_events_1 : nextIs (exec (.elementAccess 0 0 2) loading) (fun t => firstRule t (fun r => r.flight == [⟨2, 0, false⟩])) = true ∧
    nextIs (exec (.elementAccess 0 0 0) loading) (fun t => firstRule t (fun r => r.flight == [⟨0, 0xF7060504B3A29180, false⟩])) = true ∧
    nextIs (exec (.elementAccess 0 0 0) storing) (fun t => firstRule t (fun r => r.done.getLsbD 0) && (List.range 8).all (fun k => t.finalByte (0x30000+k) == 0)) = true ∧
    nextIs (exec (.elementAccess 0 0 2) unmapped) (fun t => firstRule t (fun r => r.faults == [⟨2, 0x18, 0x2000000010⟩])) = true ∧
    nextIs (exec (.lineWriteback 0xC00) (lined 2)) (fun t => t.homeByte 0x30001 == 0x12 && t.homeByte 0x30000 == 0x80 && (t.findLine 0xC00).map (·.dirty) == some 0) = true ∧
    nextIs (exec (.lineDiscard 0xC00) (lined 0)) (fun t => t.lines == []) = true ∧
    nextIs (exec (.linePrefetch 0xC00) prefetching) (fun t => t.lines.length == 1) = true ∧
    nextIs (exec (.baseDieAtomic .add true 0x30000 1 0) data) (fun t => t.finalByte 0x30000 == 0x81) = true := by decide +kernel

/-- R153, R345 to R353, R372. -/
theorem test_memory_events_2 : nextIs (exec (.peerRequest 1 0x30000 (.atomic .add true 1 0)) data) (fun t => t.finalByte 0x30000 == 0x81) = true ∧
    nextIs (exec (.peerRequest 1 0x30000 (.write [1,2,3])) data) (fun t => t.finalByte 0x30000 == 1 && t.finalByte 0x30002 == 3 && t.finalByte 0x30003 == 0xB3) = true ∧
    nextIs (exec (.hostAtomicop pf .bar2 0x30000 .add true 1 0) data) (fun t => t.finalByte 0x30000 == 0x81) = true ∧
    nextIs (exec (.peerReply 5 9) (askedBy (2 * 2 ^ 39) (.read 8))) (fun t => t.reqs.map (·.status) == [.answered 9]) = true := by decide +kernel

/-- R346, R357, R390, R399. -/
theorem test_request_events : nextIs (exec (.peerReply 5 9) (asked (2 * 2 ^ 39) (.write [1]))) (fun t => t.reqs == []) = true ∧
    nextIs (exec (.routeTimeout 5) (asked (2 * 2 ^ 39) (.write [1]))) (fun t => t.reqs == [] && (t.errs.get 0).dropw == 1) = true ∧
    nextIs (exec (.pcieCompletion 5 9) (asked hostBase (.read 8))) (fun t => t.reqs.map (·.status) == [.answered 9]) = true ∧
    nextIs (exec (.hostBarAccess pf .bar2 0x30000 (.write [7])) data) (fun t => t.finalByte 0x30000 == 7) = true ∧
    nextIs (exec (.hostBarAccess vf .bar2 0x30000 (.write [7])) data) (fun t => t.mem == data.mem && (t.errs.get 3).ue == 1) = true := by decide +kernel

/-- R267 to R269. -/
theorem test_record_events : nextIs (exec .launchListTake launching) (fun t => t.tasks.length == 2 && t.waiting.length == 1 && t.launches == []) = true ∧
    nextIs (exec (.watchCounterRead 0) (watched 6)) (fun t => t == watched 6) = true := by decide +kernel

/-- R264, R272, R277, R280, R282. -/
theorem test_party_events : nextIs (exec .partyPlace (inn lodger)) (fun t => t.waiting == [] && (t.th 0).pc == 0x20000 && (t.th 0).sregs.get 31 == 0x50100 && (t.th 0).cfg.lalive == 64) = true ∧
    nextIs (exec .partyPlace (inn {lodger with saved := some guest})) (fun t => t.waiting == [] && (t.th 0).pc == 0x10000 && (t.th 0).sregs == data.me.sregs) = true ∧
    nextIs (exec (.priorityAging 6) (inn lodger)) (fun t => t.waiting.map (·.age) == [1]) = true ∧
    nextIs (exec (.firstPartyBlocksPlacement 7) (inn lodger)) (fun t => t.waiting.map (·.blocks) == [true]) = true ∧
    nextIs (exec (.preemption 1) yielding) (fun t => (t.th 0).occupied == false && (t.parties.map (fun p => p.saving.isSome)) == [true, false]) = true ∧
    nextIs (exec (.partyEnd 1) (leaving none 1)) (fun t => t.tasks == [] && t.parties == [] && t.homeByte 0x30078 == 4) = true ∧
    nextIs (exec (.partyEnd 1) (leaving none 2)) (fun t => t.tasks.map (·.open_) == [1] && t.parties == [] && t.mem == launcher.mem) = true := by decide +kernel

/-- R237, R398, R403, R406, R411, R412. -/
theorem test_power_events_1 : nextIs (exec .purseInterval data) (fun t => t.ctxs.map (·.g) == [8]) = true ∧
    nextIs (exec .coreGate empty) (fun t => t.gate == .gated && t.homeByte 64 == 7 && t.lines == []) = true ∧
    nextIs (exec .reset data) (fun t => t.ctxs == [] && t.parties == []) = true ∧
    nextIs (exec (.correctableError 0 (.lane 5) true) empty) (fun t => t.laneRetired.getLsbD 5) = true ∧
    nextIs (exec (.correctableError 0 (.lane 3) true) strip) (fun t => t.goodLanes.getLsbD 3 == false && t.laneRetired.getLsbD 3 == false) = true ∧
    nextIs (exec .coreRetire {empty with coreMarked := true}) (fun t => t.coreRetired && (t.errs.get 0).cret == 1 && t.replace) = true ∧
    nextIs (exec (.linkShed 4) (linked up)) (fun t => t == linked {up with changing := some 4}) = true ∧
    nextIs (exec (.linkWiden 4) (linked {up with width := 2})) (fun t => t == linked {up with width := 2, changing := some 4}) = true := by decide +kernel

/-- R237, R398, R403, R406, R411, R412. -/
theorem test_power_events_2 : nextIs (exec (.linkWidthChangeDone 4) (linked {up with changing := some 4})) (fun t => t == linked {up with width := 4}) = true ∧
    nextIs (exec (.linkFault 4) (linked up)) (fun t => t.linkdown && (t.linkOf 4).up == false) = true ∧
    nextIs (exec (.linkGainsTraining 4) (linked {up with up := false, down := true})) (fun t => t.linkdown == false && (t.linkOf 4).up) = true ∧
    nextIs (exec (.xtTargetReply 1 true) (withTxn (fun x => { x with phase := .phase1, await := [1, 2] }))) (fun t => t.me.txn.map (·.await) == some [2]) = true ∧
    nextIs (exec (.xtTargetReply 1 false) (withTxn (fun x => { x with stores := [⟨2 * 2 ^ 39, 1⟩], phase := .phase1, await := [1, 2] }))) (fun t => t.me.txn.map (·.code) == some 4) = true := by decide +kernel

/-- R419 to R422. -/
theorem test_services_1 : nextIs (exec (.ctxnew (.device 0)) (called 1 [0x6000, 0x20000, 1])) (fun t => t.ctxs.length == 2 && t.me.sregs.get 1 == 0 && t.me.sregs.get 2 == 2) = true ∧
    nextIs (exec (.ctxend (.device 0)) (called 2 [1,0])) (fun t => t.ctxs == [] && t.works.length == 1) = true ∧
    nextIs (exec (.postreg (.mailbox vf)) (mailed vf 4 [0, 0x38000])) (fun t => t.areas.length == 1 && (t.fnOf vf).mbox.status == 0 && (t.fnOf vf).mbox.vals.get 0 == 1) = true ∧
    nextIs (exec (.postunreg (.device 0)) {called 5 [1, 0x38000] with areas := [{ area with die := 1 }] }) (fun t => t.areas == [] && t.me.sregs.get 1 == 0) = true ∧
    nextIs (exec (.prepol (.device 0)) (called 6 [3, 0xFFFFF])) (fun t => t.policy.get 3 == 0xFFFFF && t.me.sregs.get 1 == 0) = true ∧
    nextIs (exec (.bkset (.device 0)) (called 7 [3, 0x20004])) (fun t => t.me.breaks.get 3 == some (0x20004, 1) && t.me.sregs.get 1 == 0) = true ∧
    nextIs (exec (.fwinset (.mailbox pf)) (bytes (mailed pf 8 [7, 7, 0x39000]) 0x39000 [64])) (fun t => (t.fnOf pf).mbox.status == 0 && (t.fnOf pf).mbox.doneseq == 1) = true ∧
    nextIs (exec (.linktest (.device 0)) (called 9 [17])) (fun t => (t.linkOf 17).armed) = true := by decide +kernel

/-- R419 to R422. -/
theorem test_services_2 : nextIs (exec (.mlimset (.device 0)) (called 10 [400])) (fun t => t.mlim == 400 && t.me.sregs.get 2 == 3600) = true ∧
    nextIs (exec (.mlimset (.device 0)) ({ called 10 [400] with ctxs := [{ fetchCtx with priv := true, budget := 400001 }] } )) (fun t => t.mlim == 3600 && t.me.sregs.get 1 == 5) = true ∧
    nextIs (exec (.vecbind (.mailbox pf)) (mailed pf 11 [3, 0, 63])) (fun t => t.binds.length == 1 && (t.fnOf pf).mbox.status == 0) = true ∧
    nextIs (exec (.speedtbl (.mailbox pf)) (mailed pf 14 [0x39000])) (fun t => (t.fnOf pf).mbox.status == 0 && (t.fnOf pf).mbox.vals.get 0 == 200) = true ∧
    nextIs (exec (.straggle (.mailbox pf)) (mailed pf 15 [3, 49, 0x39000, 0])) (fun t => (t.fnOf pf).mbox.status == 0) = true ∧
    nextIs (exec (.vfmem (.mailbox pf)) (mailed pf 16 [16, 0x10000, 0x20000])) (fun t => (t.fnOf {link := 0, fn := 16}).mem == some (0x10000, 0x20000)) = true ∧
    nextIs (exec (.chconfirm (.device 0)) ({ called 17 [1] with chMarked := 1 })) (fun t => t.chret == 1 && t.replace) = true ∧
    nextIs (exec (.taskabort (.mailbox vf)) aborting) (fun t => t.works.length == 1 && (t.fnOf vf).mbox.status == 0) = true := by decide +kernel

/-- R391, R392, R410, R422, R423. -/
theorem test_host_registers : nextIs (exec .serviceWorkDone { data with works := [{ counter := some 0x30000 }] }) (fun t => t.works == [] && t.finalByte 0x30000 == 0x81) = true ∧
    nextIs (exec (.registerWrite pf 0x10 0xF) data) (fun t => (t.fnOf pf).wsel == 7 && t.registerRead pf 0x10 == 7) = true ∧
    nextIs (exec (.linkGainsTraining 3) data) (fun t => t.registerRead pf 0x08 == 8) = true ∧
    nextIs (exec (.registerWrite pf 0x8000 0x1F2) data) (fun t => (t.fnOf pf).mbox.fn == 0xF2) = true ∧
    nextIs (exec (.registerWrite pf 0x8010 0x1F2) data) (fun t => (t.fnOf pf).mbox.args.get 1 == 0x1F2) = true ∧
    nextIs (exec (.registerWrite pf 0x1000 0) {data with errs := data.errs.map (fun e => {e with ce := 5})}) (fun t => (t.errs.get 0).ce == 0 && (t.errs.get 1).ce == 5) = true ∧
    nextIs (exec (.hostAtomicop pf .bar0 0x8080 .add true 1 0) data) (fun t => (t.fnOf pf).mbox.reqseq == 1) = true := by decide +kernel

/-- R202, R206, R207: an image in the first tile. -/
theorem test_image_words : nextIs (exec (.wsave 4) keeper) (fun t => t.sp == imageCells && t.me.pc == 0x10004 && t.me.held) = true ∧
    nextIs (exec (.wload 4) saver) (trapped 0x04) = false ∧ nextIs (exec (.wload 4) saver) (fun t => t.me.occupied == false) = true := by decide +kernel
/-- R211: the size of a full image of a core with two threads of 32 lanes at level 3. -/
theorem test_image_size : ({ record with tiles := 384 } : TaskRec).imageBytes (List.replicate 2 { Thread.free with cfg := { Cfg.start with lalive := 32, qcur := 3 } }) = 6284800 := by
  decide +kernel
/-- R232, R246, R41: a VADD becomes a rule of the VP; a word that no block may hold, and the 4,097th instruction, are faults of its element. -/
theorem test_block_rules :
    nextIs (exec (.vpCohortIssue 0) (blockWith 0x84221800)) (fun t => t.me.vpf.map (·.vps.map (fun p => (p.ops.length, p.count))) == some [(1, 1)]) = true ∧
    nextIs (exec (.vpCohortIssue 0) (blockWith 0x58000001)) (fun t => firstRule t (fun r => r.faults == [⟨3, 0x01, 0x10028⟩])) = true ∧
    nextIs (exec (.vpCohortIssue 0) runaway) (fun t => firstRule t (fun r => r.faults == [⟨3, 0x20, 0x10028⟩])) = true := by decide +kernel

/-! ## Values -/

/-- R77, R78: hand calculation. -/
theorem test_scalar_values : let s := regs base [(1, 0xFFFFFFFFFFFFFFF9), (2, 2), (3, 0x8000000000000000), (4, 0xFFFFFFFFFFFFFFFF)]
    let v (i : Instr) (w : Word) : Bool := nextIs (exec i s) (fun t => t.me.rd 9 == w && t.me.pc == 0x10004)
    v (.div 9 1 2) 0xFFFFFFFFFFFFFFFD = true ∧ v (.rem 9 1 2) 0xFFFFFFFFFFFFFFFF = true ∧ v (.div 9 1 0) 0xFFFFFFFFFFFFFFFF = true ∧
    v (.rem 9 1 0) 0xFFFFFFFFFFFFFFF9 = true ∧ v (.div 9 3 4) 0x8000000000000000 = true ∧ v (.rem 9 3 4) 0 = true ∧
    v (.mulh 9 1 2) 0xFFFFFFFFFFFFFFFF = true ∧ v (.mulhn 9 1 2) 1 = true ∧ v (.clz 9 2) 62 = true ∧ v (.ctz 9 0) 64 = true ∧
    v (.spopc 9 1) 62 = true ∧ v (.sra 9 1 2) 0xFFFFFFFFFFFFFFFE = true ∧ v (.ror 9 2 2) 0x8000000000000000 = true ∧ v (.slt 9 1 2) 1 = true ∧
    v (.sltn 9 1 2) 0 = true ∧ v (.maxn 9 1 2) 0xFFFFFFFFFFFFFFF9 = true ∧ v (.min 9 1 2) 0xFFFFFFFFFFFFFFF9 = true := by decide +kernel
/-- R79, R80: the compare immediate of SLTNI is zero-extended; LIX appends; ADDPC works on 64 KiB. -/
theorem test_immediate_values : let s := regs base [(1, 0xFFFFFFFFFFFFFFF9), (2, 0x12)]
    let v (i : Instr) (w : Word) : Bool := nextIs (exec i s) (fun t => t.me.rd 9 == w && t.me.pc == 0x10004)
    v (.addi 9 2 (-0x13)) 0xFFFFFFFFFFFFFFFF = true ∧ v (.andi 9 1 0xFFFF) 0xFFF9 = true ∧ v (.sltni 9 1 0xFFFF) 0 = true ∧ v (.slti 9 1 0) 1 = true ∧
    v (.lih 9 0x8000) 0xFFFFFFFF80000000 = true ∧ v (.lix 9 2 0x3456) 0x123456 = true ∧ v (.addpc 9 (-1)) 0 = true ∧ v (.rori 9 2 4) 0x2000000000000001 = true := by
  decide +kernel
/-- R87, R88: a taken and an untaken branch, and the words of R48 for J and BGE. -/
theorem test_branches : let s := regs base [(1, 0xFFFFFFFFFFFFFFF9), (2, 2)]
    let v (i : Instr) (w : Word) : Bool := nextIs (exec i s) (fun t => t.me.pc == w && t.me.sregs == s.me.sregs)
    v (.blt 1 2 (-2)) 0xFFF8 = true ∧ v (.bltn 1 2 4) 0x10004 = true ∧ v (.bge 2 0 4) 0x10010 = true ∧ v (.j (-7)) 0xFFE4 = true ∧
    v (.beq 1 1 3) 0x1000C = true ∧ v (.bgen 2 1 1) 0x10004 = true := by decide +kernel

/-- An element function gives bits, exception flags and VSTAT flags. -/
def gives (r : Res) (bits : Nat) (fl : BitVec 5) (vs : BitVec 3) : Bool := r.bits == bits && r.fl == fl && r.vs == vs
/-- R58, R110 to R114: clamped sums, the wrapped form, a quotient by zero, one that overflows, a shift. -/
theorem test_integer_elements :
    gives (fVadd .i8 0 ⟨100, .i8⟩ ⟨100, .i8⟩) 127 0 4 = true ∧ gives (fVaddw .i8 0 ⟨100, .i8⟩ ⟨100, .i8⟩) 200 0 0 = true ∧
    gives (fVsub .n8 0 ⟨3, .n8⟩ ⟨5, .n8⟩) 0 0 4 = true ∧ gives (fVmulh .i16 0 ⟨0xFFFF, .i16⟩ ⟨1, .i16⟩) 0xFFFF 0 0 = true ∧
    gives (fVdiv .i8 0 ⟨0x80, .i8⟩ ⟨0xFF, .i8⟩) 127 0 4 = true ∧ gives (fVdiv .i8 0 ⟨0xFB, .i8⟩ ⟨0, .i8⟩) 0x80 0 4 = true ∧
    gives (fVrem .i8 0 ⟨0xF9, .i8⟩ ⟨2, .i8⟩) 0xFF 0 0 = true ∧ gives (fVcvt .n8 0 ⟨0xFFFF, .i16⟩ ⟨0, .i8⟩) 0 0 4 = true := by decide +kernel
/-- R58 to R61: a tie to even with NX, 1 / 0 with DZ, 0 / 0, conversions that clamp, and of a NaN. -/
theorem test_float_elements :
    gives (fVadd .f32 0 ⟨0x3F800000, .f32⟩ ⟨0x33800000, .f32⟩) 0x3F800000 1 0 = true ∧
    gives (fVdiv .f32 0 ⟨0x3F800000, .f32⟩ ⟨0, .f32⟩) 0x7F800000 8 0 = true ∧
    gives (fVmul .f32 0 ⟨0x40400000, .f32⟩ ⟨0x40000000, .f32⟩) 0x40C00000 0 0 = true ∧
    gives (fVcvt .i8 0 ⟨0x43960000, .f32⟩ ⟨0, .f32⟩) 127 16 4 = true ∧ gives (fVcvt .i8 0 ⟨0x7FC00000, .f32⟩ ⟨0, .f32⟩) 0 16 0 = true ∧
    gives (fVcvt .bf16 0 ⟨0x3F800000, .f32⟩ ⟨0, .f32⟩) 0x3F80 0 0 = true ∧ gives (fVfsqrt .f32 0 ⟨0x40800000, .f32⟩ ⟨0, .f32⟩) 0x40000000 0 0 = true := by
  decide +kernel
/-- R118, R119: the rules' own examples, 3.0 and 4.0. -/
theorem test_estimates : (fVfrec .f32 0 ⟨0x40400000, .f32⟩ ⟨0, .f32⟩).bits = 0x3EAA0000 ∧ (fVfrsqrt .f32 0 ⟨0x40800000, .f32⟩ ⟨0, .f32⟩).bits = 0x3EFF0000 := by
  decide +kernel

end Sys2Proof.Tests
end

section
/-! SUPPORT. Writing dirty bytes back (R348, R349): what it changes, and that it leaves every byte of device memory as it finally stands. -/

namespace Sys2Proof.Machine

/-! ## Where a write-back may change the state -/

/-- Bytes written to the home store change only it and what is known to be lost there. -/
theorem State.foldl_putHome_frame (p : Nat → Bool) (a : Nat → Nat) (bs : Nat → List Byte) (l : List Nat) (s : State) :
    ∃ m q, l.foldl (fun s i => if p i then s.putHome (a i) (bs i) else s) s = { s with mem := m, poison := q } := by
  induction l generalizing s with
  | nil => exact ⟨s.mem, s.poison, rfl⟩
  | cons i r ih =>
    by_cases hp : p i = true
    · obtain ⟨m, q, h⟩ := ih (s.putHome (a i) (bs i))
      exact ⟨m, q, by rw [List.foldl_cons, if_pos hp, h]; rfl⟩
    · obtain ⟨m, q, h⟩ := ih s
      exact ⟨m, q, by rw [List.foldl_cons, if_neg hp, h]⟩

theorem State.flushBytes_frame (s : State) (l : Line) : ∃ m q, s.flushBytes l = { s with mem := m, poison := q } :=
  State.foldl_putHome_frame _ _ _ _ s

theorem State.flushLine_frame (s : State) (n : Nat) : ∃ m q k, s.flushLine n = { s with mem := m, poison := q, lines := k } := by
  unfold State.flushLine
  split
  · exact ⟨s.mem, s.poison, s.lines, rfl⟩
  · next l _ =>
    obtain ⟨m, q, h⟩ := s.flushBytes_frame l
    exact ⟨m, q, _, by rw [h]⟩

theorem State.foldl_flushLine_frame (l : List Nat) (s : State) :
    ∃ m q k, l.foldl State.flushLine s = { s with mem := m, poison := q, lines := k } := by
  induction l generalizing s with
  | nil => exact ⟨s.mem, s.poison, s.lines, rfl⟩
  | cons n r ih =>
    obtain ⟨m, q, k, h⟩ := s.flushLine_frame n
    obtain ⟨m', q', k', h'⟩ := ih (s.flushLine n)
    exact ⟨m', q', k', by rw [List.foldl_cons, h', h]⟩

/-- A release step changes the home store and the scalar cache only (R349). -/
theorem State.releaseLines_frame (s : State) : ∃ m q k, s.releaseLines = { s with mem := m, poison := q, lines := k } :=
  State.foldl_flushLine_frame _ s

@[simp] theorem State.releaseLines_cur (s : State) : s.releaseLines.cur = s.cur := by
  obtain ⟨m, q, k, h⟩ := s.releaseLines_frame; rw [h]
@[simp] theorem State.releaseLines_threads (s : State) : s.releaseLines.threads = s.threads := by
  obtain ⟨m, q, k, h⟩ := s.releaseLines_frame; rw [h]
@[simp] theorem State.releaseLines_seq (s : State) : s.releaseLines.seq = s.seq := by
  obtain ⟨m, q, k, h⟩ := s.releaseLines_frame; rw [h]
@[simp] theorem State.releaseLines_me (s : State) : s.releaseLines.me = s.me := by
  simp [State.me, State.th]

/-! ## The bytes that a write-back leaves -/

theorem State.homeByte_putHome_one (s : State) (a x : Nat) (b : Byte) :
    (s.putHome a [b]).homeByte x = if x = a then b else s.homeByte x := by
  by_cases h : x = a
  · subst h; simpa [State.homeByte, Memory.setList] using Memory.get_set_same s.mem x b
  · simpa [State.homeByte, Memory.setList, h] using Memory.get_set_ne s.mem a x b h

/-- The first n bytes of a line, written back: the dirty ones stand in the home store. -/
theorem State.homeByte_flushFirst (s : State) (l : Line) (x n : Nat) (hn : n ≤ 64) :
    ((List.range n).foldl (fun s i => if l.dirty.getLsbD i then s.putHome (64 * l.line + i) [l.byte i] else s) s).homeByte x =
      if x / 64 = l.line ∧ x % 64 < n ∧ l.dirty.getLsbD (x % 64) = true then l.byte (x % 64) else s.homeByte x := by
  induction n with
  | zero => simp
  | succ n ih =>
    have ih := ih (by omega)
    have hx : x = 64 * l.line + n ↔ x / 64 = l.line ∧ x % 64 = n := by omega
    rw [List.range_succ, List.foldl_append, List.foldl_cons, List.foldl_nil]
    by_cases hd : l.dirty.getLsbD n = true
    · rw [if_pos hd, State.homeByte_putHome_one, ih]
      by_cases he : x / 64 = l.line ∧ x % 64 = n
      · obtain ⟨hl, hm⟩ := he
        rw [if_pos (hx.mpr ⟨hl, hm⟩), if_pos ⟨hl, by omega, hm ▸ hd⟩, hm]
      · rw [if_neg (fun e => he (hx.mp e))]
        have : x / 64 = l.line → (x % 64 < n ↔ x % 64 < n + 1) := by omega
        grind
    · rw [if_neg hd, ih]
      have : x % 64 = n → ¬ l.dirty.getLsbD (x % 64) = true := fun e => e ▸ hd
      have : x % 64 < n + 1 ↔ x % 64 < n ∨ x % 64 = n := by omega
      grind

theorem State.homeByte_flushBytes (s : State) (l : Line) (x : Nat) :
    (s.flushBytes l).homeByte x = if x / 64 = l.line ∧ l.dirty.getLsbD (x % 64) = true then l.byte (x % 64) else s.homeByte x := by
  have h := State.homeByte_flushFirst s l x 64 (Nat.le_refl _)
  have hx : x % 64 < 64 := Nat.mod_lt _ (by decide)
  simpa [State.flushBytes, hx] using h

theorem State.line_of_findLine {s : State} {n : Nat} {l : Line} (h : s.findLine n = some l) : l.line = n := by
  simpa using List.find?_some h

theorem State.flushLine_of_findLine {s : State} {n : Nat} {l : Line} (h : s.findLine n = some l) :
    s.flushLine n = { s.flushBytes l with lines := s.lines.map (fun k => if k.line == n then { k with dirty := 0 } else k) } := by
  obtain ⟨m, q, hf⟩ := s.flushBytes_frame l
  simp only [State.flushLine, h, hf]

/-- A line that has been written back is clean; every other line is as it was. -/
theorem State.findLine_flushLine {s : State} {n : Nat} {l : Line} (h : s.findLine n = some l) (m : Nat) :
    (s.flushLine n).findLine m = if m = n then some { l with dirty := 0 } else s.findLine m := by
  have hp : ((fun k : Line => k.line == m) ∘ fun k => if k.line == n then { k with dirty := 0 } else k) = fun k => k.line == m := by
    funext k; simp only [Function.comp]; split <;> rfl
  have hm : (s.flushLine n).findLine m = (s.findLine m).map (fun k => if k.line == n then { k with dirty := 0 } else k) := by
    simp only [State.flushLine_of_findLine h, State.findLine, List.find?_map, hp]
  rw [hm]
  by_cases e : m = n
  · subst e; simp [h, State.line_of_findLine h]
  · rw [if_neg e]
    cases hk : s.findLine m with
    | none => rfl
    | some k => simp [State.line_of_findLine hk, e]

theorem State.homeByte_flushLine {s : State} {n : Nat} {l : Line} (h : s.findLine n = some l) (x : Nat) :
    (s.flushLine n).homeByte x = (s.flushBytes l).homeByte x := by
  rw [State.flushLine_of_findLine h]; rfl

/-- Writing a line back changes no byte as it finally stands (R348). -/
theorem State.finalByte_flushLine (s : State) (n x : Nat) : (s.flushLine n).finalByte x = s.finalByte x := by
  cases h : s.findLine n with
  | none => simp [State.flushLine, h]
  | some l =>
    have hl := State.line_of_findLine h
    simp only [State.finalByte, State.findLine_flushLine h, State.homeByte_flushLine h, State.homeByte_flushBytes, hl]
    by_cases e : x / 64 = n
    · simp [e, h]
    · simp [e]

theorem State.finalByte_foldl_flushLine (l : List Nat) (s : State) (x : Nat) : (l.foldl State.flushLine s).finalByte x = s.finalByte x := by
  induction l generalizing s with
  | nil => rfl
  | cons n r ih => rw [List.foldl_cons, ih, State.finalByte_flushLine]

/-- A release step changes no byte as it finally stands (R349). -/
@[simp] theorem State.finalByte_releaseLines (s : State) (x : Nat) : s.releaseLines.finalByte x = s.finalByte x :=
  State.finalByte_foldl_flushLine _ s x

end Sys2Proof.Machine
end

section
/-! SUPPORT, THEN O30. The return from a trap (R8, R94, R205). -/

namespace Sys2Proof.Machine

/-! ## What the steps of an ERET leave -/

@[simp] theorem State.dropWords_me (s : State) (c : BitVec 12) : (s.dropWords c).me = s.me := rfl

/-- The words of a context are gone once they have been discarded (R205). -/
theorem State.ctx_ne_of_mem_dropWords {s : State} {c : BitVec 12} {h : HeldWord} (hm : h ∈ (s.dropWords c).words) : h.ctx ≠ c := by
  simpa using (List.mem_filter.mp hm).2

/-- A rule as ERET reinstalls it: a walk is posted anew under the number `seq` (R205, R290). -/
def Rule.reposted (seq : Nat) (r : Rule) : Rule :=
  match r.instr with
  | .cwalk _ _ _ _ => { r with post := seq }
  | _ => r

/-- The thread as ERET leaves it, with its next posts numbered from `seq` on. -/
def Thread.returned (t : Thread) (seq : Nat) : Thread :=
  let u := t.eret
  { u with vec := if t.cfg.plev = 0 then { u.vec with window := u.vec.window.map (Rule.reposted seq) } else u.vec
           stalled := false, drain := false, found := none, wait := none }

/-- The handler may return: it runs above user level, and its stores and writes have performed (R205, R321). -/
structure State.MayReturn (s : State) : Prop where
  level  : s.me.level ≠ .user
  queue  : s.me.queue = []
  writes : s.writesOpen = false

/-- The state before the thread returns: dirty bytes written back, the words of the context discarded, and the faulted stream restarted
(R205, R321). -/
def State.readyToReturn (s : State) : State :=
  let u := s.releaseLines.dropWords s.me.ctx
  if isEngineCause s.me.cfg.trapcause then u.restartStream s.me.cfg.cestream.toNat else u

@[simp] theorem State.readyToReturn_cur (s : State) : s.readyToReturn.cur = s.cur := by
  unfold State.readyToReturn; split <;> exact s.releaseLines_cur
@[simp] theorem State.readyToReturn_seq (s : State) : s.readyToReturn.seq = s.seq := by
  unfold State.readyToReturn; split <;> exact s.releaseLines_seq

theorem State.ctx_ne_of_mem_readyToReturn {s : State} {h : HeldWord} (hm : h ∈ s.readyToReturn.words) : h.ctx ≠ s.me.ctx := by
  unfold State.readyToReturn at hm
  split at hm <;> exact State.ctx_ne_of_mem_dropWords hm

theorem State.finalByte_readyToReturn (s : State) (a : Nat) : s.readyToReturn.finalByte a = s.finalByte a := by
  unfold State.readyToReturn
  split <;> exact s.finalByte_releaseLines a

/-- The state after an ERET that returns (R205). -/
def State.afterEret (s : State) : State :=
  (({ s.readyToReturn with seq := s.seq + 1 } : State).dropScalar s.cur).setMe (s.me.returned s.seq)

theorem exec_eret {s : State} (h : s.MayReturn) (hr : s.me.cfg.plev = 0 → s.me.held = true) : exec .eret s = .next s.afterEret := by
  obtain ⟨hl, hq, hw⟩ := h
  have hb : (s.me.cfg.plev = 0 && !s.me.held) = false := by
    by_cases hp : s.me.cfg.plev = 0
    · rw [hr hp, Bool.not_true, Bool.and_false]
    · rw [decide_eq_false hp, Bool.false_and]
  have he : execEret s = .next ((({ s.readyToReturn with seq := s.readyToReturn.seq + 1 } : State).dropScalar s.readyToReturn.cur).setMe
      (s.me.returned s.readyToReturn.seq)) := by
    simp only [execEret, hl, hq, hw, if_false, bne_self_eq_false, Bool.or_self, Bool.false_eq_true]
    rw [if_neg (by rw [hb]; decide)]
    rfl
  rw [State.readyToReturn_cur, State.readyToReturn_seq] at he
  exact he

theorem State.me_afterEret (s : State) : s.afterEret.me = s.me.returned s.seq := by
  have hc : (({ s.readyToReturn with seq := s.seq + 1 } : State).dropScalar s.cur).cur = s.cur := s.readyToReturn_cur
  simp [State.afterEret]

theorem State.ctx_ne_of_mem_afterEret {s : State} {h : HeldWord} (hm : h ∈ s.afterEret.words) : h.ctx ≠ s.me.ctx :=
  State.ctx_ne_of_mem_readyToReturn hm

theorem State.finalByte_afterEret (s : State) (a : Nat) : s.afterEret.finalByte a = s.finalByte a :=
  s.finalByte_readyToReturn a

/-- With PLEV 0 and no image, ERET takes the bad-state trap (R205). -/
theorem exec_eret_badState {s : State} (h : s.MayReturn) (hp : s.me.cfg.plev = 0) (hi : s.me.held = false) :
    exec .eret s = .next ((s.releaseLines.dropWords s.me.ctx).trapped (wordInfo 0x04 s.me.pc s.me.pc)) := by
  obtain ⟨hl, hq, hw⟩ := h
  simp [exec, execEret, State.wordTrap, State.trapWord, State.trapped, hl, hq, hw, hp, hi]

/-! ## The thread after its return -/

/-- With PLEV 1 or 2 the thread goes on at EPC above user level, and its image is untouched (R205). -/
theorem Thread.returned_above (t : Thread) (seq : Nat) (h : t.cfg.plev ≠ 0) :
    t.returned seq = { t with pc := t.cfg.epc.setWidth 64, level := if t.cfg.plev = 1 then .supervisor else .firmware
                              cfg := { t.cfg with preempt := false }, early := []
                              stalled := false, drain := false, found := none, wait := none } := by
  simp only [Thread.returned, Thread.eret, if_neg h]

/-- VL, SEGSEL and FRM as fields of the VSW (R89, R205). -/
theorem Cfg.unVsw_eq (c : Cfg) (w : Word) :
    c.unVsw w = { c with vl := BitVec.ofNat 16 w.toNat, segsel := BitVec.ofNat 4 (w.toNat / 2 ^ 16), frm := BitVec.ofNat 3 (w.toNat / 2 ^ 20) } := by
  have hf (n k : Nat) : (w >>> k).setWidth n = BitVec.ofNat n (w.toNat / 2 ^ k) := by
    apply BitVec.eq_of_toNat_eq; simp [Nat.shiftRight_eq_div_pow]
  simp only [Cfg.unVsw, hf, BitVec.ofNat_toNat]

/-- A rule's fields as ERET reinstalls it (R8, R205, R290). -/
theorem Rule.reposted_eq (seq : Nat) (r : Rule) :
    r.reposted seq = { r with post := match r.instr with | .cwalk _ _ _ _ => seq | _ => r.post } := by
  unfold Rule.reposted
  split
  · next h => rw [h]
  · rfl

/-- With PLEV 0 the thread goes on at EPC at user level, under its held image (R8, R205). -/
theorem Thread.returned_user (t : Thread) (seq : Nat) (h : t.cfg.plev = 0) :
    t.returned seq = { t with
      pc := t.cfg.epc.setWidth 64, level := .user, held := false, cfg := ({ t.cfg with preempt := false } : Cfg).unVsw t.vsw
      vec := { t.vec with window := t.vec.window.map (fun r =>
        ({ r with faults := [], mark := r.mark || (r.faults != [] && isFf r.instr) } : Rule).reposted seq) }
      early := [], stalled := false, drain := false, found := none, wait := none } := by
  simp only [Thread.returned, Thread.eret, if_pos h, Vec.anew, List.map_map, Function.comp_def]

/-- Settles O30: above user level ERET runs to `State.afterEret`, whose thread is `Thread.returned`; the release step before it changes no byte
as it finally stands. -/
theorem eretReturns : Obligations.EretReturns := by
  intro s _ hl hq hw
  have hm : s.MayReturn := ⟨hl, hq, hw⟩
  have hwords : ∀ h ∈ s.afterEret.words, h.ctx ≠ s.me.ctx := fun _ => State.ctx_ne_of_mem_afterEret
  refine ⟨fun hp => ?_, fun hp hi => ?_, fun hp hi => exec_eret_badState hm hp hi⟩
  · have ht := s.me_afterEret.trans (s.me.returned_above s.seq hp)
    refine ⟨s.afterEret, exec_eret hm (fun h => absurd h hp), ?_, ?_, ?_, ?_, ?_, ?_, ?_, hwords, s.finalByte_afterEret⟩ <;> rw [ht]
  · have ht := s.me_afterEret.trans (s.me.returned_user s.seq hp)
    refine ⟨s.afterEret, exec_eret hm (fun _ => hi), ?_, ?_, ?_, ?_, ?_, ?_, ?_, hwords, s.finalByte_afterEret⟩ <;> rw [ht]
    · exact congrArg (fun f => { s.me.vec with window := s.me.vec.window.map f }) (funext fun _ => Rule.reposted_eq _ _)
    · rw [Cfg.unVsw_eq]

end Sys2Proof.Machine
end

section
/-! SUPPORT, THEN O42. Renaming of a vector name, and what VTAG, VMVS, MFFS and MPOPC make of the thread (R9, R133, R145, R187, R248). -/

namespace Sys2Proof.Machine

/-! ## VMVS (R145) -/

theorem State.commit_wr (s : State) (d : BitVec 5) (v : Word) : s.commit (s.me.wr d v) = .next (s.wrote d v) := by
  simp [State.commit, State.commitAt, State.wrote]

section
variable {s : State} {a b : BitVec 5} (d : BitVec 5)

/-- At or beyond the capacity VMVS gives 0 and raises RANGE. -/
theorem exec_vmvs_beyond (hu : s.me.level = .user) (hj : s.me.vlmax (s.me.vec.tag a).wlog ≤ (s.me.rd b).toNat) :
    exec (.vmvs d a b) s = .next (s.committed ((s.me.raise 0 vRANGE).wr d 0) (s.me.pc + 4)) := by
  simp [exec, execVmvs, hu, hj, State.commit, State.commitAt, Thread.raise]

/-- Within the capacity VMVS does what the element at the index says. -/
theorem exec_vmvs_within (hu : s.me.level = .user) (hj : (s.me.rd b).toNat < s.me.vlmax (s.me.vec.tag a).wlog) :
    exec (.vmvs d a b) s = match (s.me.vec.vreg (s.me.vec.vphys a)).get (s.me.rd b).toNat with
      | .absent => .next s.stalledMe
      | .void => .next (s.wrote d 0)
      | .present x => .next (s.wrote d (BitVec.ofNat 64 ((s.me.vec.tag a).extend x.toNat))) := by
  have hn := Nat.not_le.mpr hj
  cases he : (s.me.vec.vreg (s.me.vec.vphys a)).get (s.me.rd b).toNat with
  | absent => simp [exec, execVmvs, hu, hn, Vec.elem, he, State.stall]
  | present x => simp [exec, execVmvs, hu, hn, Vec.elem, he, State.commit_wr]
  | void => simp [exec, execVmvs, hu, hn, Vec.elem, he, State.commit_wr]

end

/-- RANGE is the only status bit that VMVS raises. -/
theorem Thread.raise_range (t : Thread) : t.raise 0 vRANGE = { t with cfg := { t.cfg with vstat := t.cfg.vstat ||| 2 } } := by
  simp [Thread.raise, vRANGE]

/-! ## MFFS and MPOPC (R9, R145) -/

/-- MFFS goes no further than this bit: it is set, or not there yet; a VOID bit counts as clear. -/
def PBit.stops : PBit → Bool
  | .absent => true
  | .present b => b
  | .void => false

theorem PBit.stops_eq_false_of_clear {b : PBit} (h : b = .present false ∨ b = .void) : b.stops = false := by
  rcases h with rfl | rfl <;> rfl

/-- MFFS gives all ones where nothing stops it. -/
theorem Vec.findFirst_of_clear (v : Vec) (p : Fin 48) {n : Nat} (hc : ∀ j, j < n → ((v.preg p).get j).stops = false) :
    v.findFirst (some p) n = some (BitVec.allOnes 64) := by
  have hf : (List.range n).find? (fun i => ((v.preg p).get i).stops) = none := by
    simpa using hc
  unfold Vec.findFirst
  split
  · rfl
  · next i hi => cases hi.symm.trans hf

/-- MFFS is decided by the first bit that stops it. -/
theorem Vec.findFirst_of_stops (v : Vec) (p : Fin 48) {n i : Nat} (hi : i < n) (hs : ((v.preg p).get i).stops = true)
    (hc : ∀ j, j < i → ((v.preg p).get j).stops = false) :
    v.findFirst (some p) n = if (v.preg p).get i = .absent then none else some (BitVec.ofNat 64 i) := by
  have hf : (List.range n).find? (fun i => ((v.preg p).get i).stops) = some i := by
    rw [List.find?_range_eq_some]
    exact ⟨hs, List.mem_range.mpr hi, fun j hj => by simp [hc j hj]⟩
  unfold Vec.findFirst
  split
  · next hn => cases hn.symm.trans hf
  · next j hj =>
    obtain rfl : j = i := Option.some.inj (hj.symm.trans hf)
    rfl

section
variable {s : State} {a : BitVec 5} (d : BitVec 5)

theorem exec_mffs_of_some (hu : s.me.level = .user) {v : Word}
    (hv : s.me.vec.findFirst (some (s.me.vec.mphys a.toNat)) (min s.me.cfg.vl.toNat (s.me.vlmax 0)) = some v) :
    exec (.mffs d a) s = .next (s.wrote d v) := by
  simp [exec, execMffs, hu, hv, State.commit_wr]

theorem exec_mffs_of_none (hu : s.me.level = .user)
    (hv : s.me.vec.findFirst (some (s.me.vec.mphys a.toNat)) (min s.me.cfg.vl.toNat (s.me.vlmax 0)) = none) :
    exec (.mffs d a) s = .next s.stalledMe := by
  simp [exec, execMffs, hu, hv, State.stall]

theorem exec_mpopc_whole (hu : s.me.level = .user)
    (hb : ∀ j, j < min s.me.cfg.vl.toNat (s.me.vlmax 0) → (s.me.vec.preg (s.me.vec.mphys a.toNat)).get j ≠ .absent) :
    exec (.mpopc d a) s = .next (s.wrote d (BitVec.ofNat 64 ((List.range (min s.me.cfg.vl.toNat (s.me.vlmax 0))).filter
      (fun j => (s.me.vec.preg (s.me.vec.mphys a.toNat)).get j == .present true)).length)) := by
  have hc : ((List.range (min s.me.cfg.vl.toNat (s.me.vlmax 0))).map
      (fun i => s.me.vec.bit (some (s.me.vec.mphys a.toNat)) i)).contains .absent = false := by
    simpa [Vec.bit] using hb
  simp only [exec, execMpopc, hu, hc, ne_eq, not_true_eq_false, if_false, Bool.false_eq_true, State.commit_wr, List.filter_map, List.length_map]
  rfl

theorem exec_mpopc_waits (hu : s.me.level = .user) {i : Nat} (hi : i < min s.me.cfg.vl.toNat (s.me.vlmax 0))
    (hb : (s.me.vec.preg (s.me.vec.mphys a.toNat)).get i = .absent) : exec (.mpopc d a) s = .next s.stalledMe := by
  have hc : ((List.range (min s.me.cfg.vl.toNat (s.me.vlmax 0))).map
      (fun i => s.me.vec.bit (some (s.me.vec.mphys a.toNat)) i)).contains .absent = true := by
    simp only [List.contains_iff_mem, List.mem_map, List.mem_range]
    exact ⟨i, hi, hb⟩
  simp only [exec, execMpopc, hu, hc, ne_eq, not_true_eq_false, if_false, if_true, State.stall]

end

/-! ## VTAG (R133, R187, R248) -/

section
variable {v : Vec} {p : Fin 128} {rest : List (Fin 128)} (h : v.vfree = p :: rest) (r : BitVec 5) (g : Tag)
include h

theorem Vec.renameV_of_free : v.renameV r g =
    { v with vmap := v.vmap.set r.toFin p, vtag := v.vtag.set r.toFin g, vfree := rest, vregs := v.vregs.set p.val (.fresh g.wlog) } := by
  simp only [Vec.renameV, h]

theorem Vec.renameV_vfree : (v.renameV r g).vfree = rest := by rw [Vec.renameV_of_free h]
theorem Vec.renameV_window : (v.renameV r g).window = v.window := by rw [Vec.renameV_of_free h]
theorem Vec.renameV_pregs : (v.renameV r g).pregs = v.pregs := by rw [Vec.renameV_of_free h]

theorem Vec.vphys_renameV_same : (v.renameV r g).vphys r = p := by
  rw [Vec.renameV_of_free h]; exact get_set_same v.vmap r.toFin p
theorem Vec.tag_renameV_same : (v.renameV r g).tag r = g := by
  rw [Vec.renameV_of_free h]; exact get_set_same v.vtag r.toFin g

theorem Vec.vphys_renameV_ne {q : BitVec 5} (hq : q ≠ r) : (v.renameV r g).vphys q = v.vphys q := by
  rw [Vec.renameV_of_free h]; exact get_set_ne v.vmap r.toFin q.toFin p (fun e => hq (BitVec.eq_of_toFin_eq e.symm))
theorem Vec.tag_renameV_ne {q : BitVec 5} (hq : q ≠ r) : (v.renameV r g).tag q = v.tag q := by
  rw [Vec.renameV_of_free h]; exact get_set_ne v.vtag r.toFin q.toFin g (fun e => hq (BitVec.eq_of_toFin_eq e.symm))
theorem Vec.vreg_renameV_ne {q : Fin 128} (hq : q ≠ p) : (v.renameV r g).vreg q = v.vreg q := by
  rw [Vec.renameV_of_free h]; exact get_set_ne v.vregs p q _ hq.symm

end

@[simp] theorem Vec.vreg_setVreg_same (v : Vec) (p : Fin 128) (x : VReg) : (v.setVreg p x).vreg p = x := get_set_same v.vregs p x
theorem Vec.vreg_setVreg_ne (v : Vec) {p q : Fin 128} (x : VReg) (h : q ≠ p) : (v.setVreg p x).vreg q = v.vreg q :=
  get_set_ne v.vregs p q x h.symm

@[simp] theorem VReg.full_zero (w cap : Nat) : (VReg.zero w).full cap = true := by simp [VReg.full, VReg.zero]

/-- The thread after a VTAG to another width, before its window records the renaming: the name maps the register p, which holds zeros. -/
def Thread.retagged (t : Thread) (d : BitVec 5) (g : Tag) (p : Fin 128) : Thread :=
  { t with vec := (t.vec.renameV d g).setVreg p (.zero g.wlog) }

theorem Thread.vreg_retagged_same (t : Thread) (d : BitVec 5) (g : Tag) (p : Fin 128) : (t.retagged d g p).vec.vreg p = .zero g.wlog :=
  Vec.vreg_setVreg_same _ p _

section
variable {t : Thread} {p : Fin 128} {rest : List (Fin 128)} (h : t.vec.vfree = p :: rest) (d : BitVec 5) (g : Tag)
include h

theorem Thread.vreg_retagged_ne {q : Fin 128} (hq : q ≠ p) : (t.retagged d g p).vec.vreg q = t.vec.vreg q :=
  (Vec.vreg_setVreg_ne _ _ hq).trans (Vec.vreg_renameV_ne h d g hq)

theorem Thread.preg_retagged (q : Fin 48) : (t.retagged d g p).vec.preg q = t.vec.preg q :=
  congrArg (·.get q) (Vec.renameV_pregs h d g)

/-- A register of zeros lacks no element, so a write-set that was whole still is (R245). -/
theorem Vpf.full_retagged {f : Vpf} (hf : f.full t = true) : f.full (t.retagged d g p) = true := by
  simp only [Vpf.full, Bool.and_eq_true, List.all_eq_true] at hf ⊢
  obtain ⟨hv, hm⟩ := hf
  refine ⟨fun n hn => ?_, fun n hn => ?_⟩
  · by_cases hq : f.vmap.get n = p
    · rw [hq, Thread.vreg_retagged_same, VReg.full_zero]
    · rw [Thread.vreg_retagged_ne h d g hq]; exact hv n hn
  · rw [Thread.preg_retagged h d g]; exact hm n hn

theorem Rule.complete_retagged {r : Rule} {sp : RuleSpec} (hc : r.complete sp t = true) : r.complete sp (t.retagged d g p) = true := by
  have hf : ∀ f : Vpf, (f.vps == [] && (r.count == 1 || f.full t)) = true →
      (f.vps == [] && (r.count == 1 || f.full (t.retagged d g p))) = true := by
    intro f hf
    simp only [Bool.and_eq_true, Bool.or_eq_true] at hf ⊢
    exact hf.imp_right (Or.imp_right (Vpf.full_retagged h d g))
  unfold Rule.complete at hc ⊢
  rw [Bool.and_eq_true] at hc ⊢
  obtain ⟨hr, hv⟩ := hc
  refine ⟨hr, ?_⟩
  split
  · next f hk ho =>
    simp only [hk, show t.vpfOf r.rid = some f from ho] at hv
    exact hf f hv
  · rfl

theorem Thread.vpfOpen_retagged (hv : t.vpfOpen = false) : (t.retagged d g p).vpfOpen = false := by
  have hw : (t.retagged d g p).vec.window = t.vec.window := Vec.renameV_window h d g
  simp only [Thread.vpfOpen, hw, List.any_eq_false, Bool.and_eq_true, Bool.not_eq_true', not_and, Bool.not_eq_false] at hv ⊢
  exact fun r hr hi => Rule.complete_retagged h d g (hv r hr hi)

end

/-! ## Recording a renaming (R248) -/

theorem Thread.recordRename_pc (t : Thread) (i : Instr) (old q : Option (Fin 128)) : (t.recordRename i old q).pc = t.pc := by
  unfold Thread.recordRename; split <;> rfl

/-- A renaming adds nothing but an entry to the window. -/
theorem Thread.recordRename_vec (t : Thread) (i : Instr) (old q : Option (Fin 128)) :
    ∃ w, (t.recordRename i old q).vec = { t.vec with window := w } ∧ (t.vpfOpen = false → w = t.vec.window) := by
  unfold Thread.recordRename
  split
  · next ho => exact ⟨_, rfl, fun hv => absurd ho (by rw [hv]; decide)⟩
  · exact ⟨t.vec.window, rfl, fun _ => rfl⟩

section
variable {s : State} {d : BitVec 5} {c : BitVec 4} {g : Tag} (hu : s.me.level = .user) (hg : Tag.ofCode c.toNat = some g)
include hu hg

theorem exec_vtag_sameWidth (hw : (s.me.vec.tag d).wlog = g.wlog) : exec (.vtag d c) s =
    .next (s.committed { s.me with vec := { s.me.vec with vtag := s.me.vec.vtag.set d.toFin g } } (s.me.pc + 4)) := by
  simp [exec, execVtag, hg, hu, hw, State.commit, State.commitAt]

theorem exec_vtag_otherWidth (hw : (s.me.vec.tag d).wlog ≠ g.wlog) (hv : s.me.vpfOpen = false ∨ s.me.entryFree = true) {p : Fin 128}
    {rest : List (Fin 128)} (hp : s.me.vec.vfree = p :: rest) : exec (.vtag d c) s =
    .next (s.committed ((s.me.retagged d g p).recordRename (.vtag d c) (some (s.me.vec.vphys d)) (some p)) (s.me.pc + 4)) := by
  have ho : (s.me.vpfOpen && !s.me.entryFree) = false := by rcases hv with hv | hv <;> simp [hv]
  have hn : s.me.poolHas 1 0 = true := by simp [Thread.poolHas, hp]
  have hl : (s.me.level ≠ .user) = False := by simp [hu]
  simp only [exec, execVtag, hg, hl, hw, ho, hn, if_false, Bool.false_eq_true, Bool.not_true,
    Vec.vphys_renameV_same hp d g, State.commit, State.commitAt, Thread.recordRename_pc]
  rfl

end

/-- Settles O42: each instruction by its equations; a VTAG to another width takes the lowest free register, and as that register holds zeros, no
VPF that was complete is open after the renaming. -/
theorem tagsAndMovesToScalars : Obligations.TagsAndMovesToScalars := by
  intro s d a b c g hu
  dsimp only
  refine ⟨fun hg => ⟨exec_vtag_sameWidth hu hg, fun p rest hw hv hp => ?_⟩, fun hj => ?_,
    fun hj => ⟨fun x he => ?_, fun he => ?_, fun he => ?_⟩, fun i hi hb hc => ?_, fun hc => ?_, fun i hi hb hc => ?_,
    exec_mpopc_whole d hu, fun i hi hb => exec_mpopc_waits d hu hi hb⟩
  · refine ⟨_, exec_vtag_otherWidth hu hg hw hv hp, ?_⟩
    obtain ⟨w, hr, hwin⟩ := (s.me.retagged d g p).recordRename_vec (.vtag d c) (some (s.me.vec.vphys d)) (some p)
    have hvec (q : Fin 128) : (({ (s.me.retagged d g p).vec with window := w } : Vec).vreg q) = (s.me.retagged d g p).vec.vreg q := rfl
    rw [State.committed_me]
    dsimp only
    rw [hr]
    refine ⟨Vec.vphys_renameV_same hp d g, Vec.tag_renameV_same hp d g, ?_, fun i => ?_, Vec.renameV_vfree hp d g,
      fun ho => (hwin (Thread.vpfOpen_retagged hp d g ho)).trans (Vec.renameV_window hp d g),
      fun q hq => ⟨Vec.vphys_renameV_ne hp d g hq, Vec.tag_renameV_ne hp d g hq⟩, rfl⟩
    · rw [hvec, Thread.vreg_retagged_same]; rfl
    · rw [hvec, Thread.vreg_retagged_same]; rfl
  · rw [exec_vmvs_beyond d hu hj, Thread.raise_range]
  · rw [exec_vmvs_within d hu hj, he]
  · rw [exec_vmvs_within d hu hj, he]
  · rw [exec_vmvs_within d hu hj, he]
  · have hf := s.me.vec.findFirst_of_stops (s.me.vec.mphys a.toNat) hi (by rw [hb]; rfl) (fun j hj => PBit.stops_eq_false_of_clear (hc j hj))
    exact exec_mffs_of_some d hu (by rw [hf, hb, if_neg (by decide)])
  · exact exec_mffs_of_some d hu (s.me.vec.findFirst_of_clear _ (fun j hj => PBit.stops_eq_false_of_clear (hc j hj)))
  · have hf := s.me.vec.findFirst_of_stops (s.me.vec.mphys a.toNat) hi (by rw [hb]; rfl) (fun j hj => PBit.stops_eq_false_of_clear (hc j hj))
    exact exec_mffs_of_none d hu (by rw [hf, hb, if_pos rfl])

end Sys2Proof.Machine
end

section
/-! O1 TO O3. The encoder and the decoder (R31 to R37): a word is taken apart into its fields, and put together from them. -/

namespace Sys2Proof

/-! ## The fields of a word

`no_index` lets `simp` use these rules on words, whose width is the numeral 32 and not a sum. -/

/-- A field of a word that lies below its last part's end is a field of that part. -/
theorem field_append_low {m n s l : Nat} (hi : BitVec m) (lo : BitVec n) (h : s + l ≤ n) :
    BitVec.extractLsb' (n := no_index (m + n)) s l (no_index (hi ++ lo)) = lo.extractLsb' s l :=
  BitVec.extractLsb'_append_eq_of_add_le h

/-- A field of a word that lies above its last part is a field of what stands before that part. -/
theorem field_append_high {m n s l : Nat} (hi : BitVec m) (lo : BitVec n) (h : n ≤ s) :
    BitVec.extractLsb' (n := no_index (m + n)) s l (no_index (hi ++ lo)) = hi.extractLsb' (s - n) l :=
  BitVec.extractLsb'_append_eq_of_le h

/-- A field is made of two parts just if its upper and its lower bits are those parts. -/
theorem field_eq_append_iff {k s m n : Nat} (w : BitVec k) (x : BitVec m) (y : BitVec n) :
    @Eq (BitVec (no_index (m + n))) (w.extractLsb' s (no_index (m + n))) (x ++ y) ↔
      w.extractLsb' (s + n) m = x ∧ w.extractLsb' s n = y := by
  rw [← BitVec.extractLsb'_append_extractLsb'_eq_extractLsb' rfl]
  refine ⟨fun h => ⟨?_, ?_⟩, fun ⟨hx, hy⟩ => by rw [hx, hy]⟩
  · simpa only [BitVec.extractLsb'_append_eq_left] using congrArg (BitVec.extractLsb' n m) h
  · simpa only [BitVec.extractLsb'_append_eq_right] using congrArg (BitVec.extractLsb' 0 n) h

/-- Two parts make a word just if they are its upper and its lower bits. -/
theorem append_eq_word_iff {m n : Nat} (x : BitVec m) (y : BitVec n) (w : BitVec (m + n)) :
    @Eq (BitVec (no_index (m + n))) (x ++ y) w ↔ w.extractLsb' n m = x ∧ w.extractLsb' 0 n = y := by
  rw [← BitVec.extractLsb'_eq_self (x := w), eq_comm, field_eq_append_iff, BitVec.extractLsb'_eq_self, Nat.zero_add]

theorem ofBool_beq_one (x : BitVec 1) : BitVec.ofBool (x == 1#1) = x := by
  revert x; decide

theorem beq_one_ofBool (b : Bool) : (BitVec.ofBool b == 1#1) = b := by
  cases b <;> rfl

/-! ## From the word to the instruction and back -/

open Machine (isEvent vectorRule)

/-- A row that the decoder finds encodes to the word: the major, the function value and each field of the row are the word's own bits, and
the unused fields are zero in both. -/
theorem encode_of_decodeFields {w : Insn} {i : Instr} (h : decodeFields w = .ok i) : encode i = some w := by
  simp only [decodeFields, decSalu, decShifti, decSld, decSst, decSamo, decCtlr, decSys, decSync, decVconf, decVarith, decVarithi,
    decVcmp, decVperm, decVwide, decVmovx, decVfx, decVfma, decVred, decVld, decVst, decVamo, decVlt, decVpb, decCur, decMat,
    decPike, decXt] at h
  repeat' split at h
  all_goals cases h
  all_goals
    refine congrArg some ?_
    simp only [append_eq_word_iff, field_eq_append_iff, ofBool_beq_one]
    simp only [true_and, and_true, Nat.reduceAdd, ← BitVec.toNat_inj, BitVec.toNat_ofNat, Nat.reducePow, Nat.reduceMod, and_self, *]
  all_goals
    simp only [← BitVec.toNat_inj, BitVec.extractLsb'_toNat, BitVec.toNat_ofNat, Nat.shiftRight_eq_div_pow, Nat.reducePow,
      Nat.reduceMod, Nat.div_one] at *
    omega

/-- An event has no word. -/
theorem isEvent_of_encode {i : Instr} {w : Insn} (h : encode i = some w) : isEvent i = false := by
  cases he : isEvent i
  · rfl
  · cases i <;> cases he <;> cases h

/-- Every other constructor has one. -/
theorem encode_of_not_isEvent {i : Instr} (he : isEvent i = false) : ∃ w, encode i = some w := by
  cases i <;> cases he <;> exact ⟨_, rfl⟩

/-- The decoder finds the row of a vector rule in its word: first by the major, then by the function value and the fields. -/
theorem decodeFields_of_encode_rule {i : Instr} {w : Insn} (hr : vectorRule i = true) (h : encode i = some w) :
    decodeFields w = .ok i := by
  cases i <;> cases hr
  all_goals
    injection h with h
    have hm := congrArg (BitVec.extractLsb' 26 6) h
    simp only [field_append_high, Nat.reduceSub, Nat.reduceLeDiff, Nat.reduceAdd, BitVec.extractLsb'_eq_self] at hm
    rw [decodeFields, ← hm]
    conv_lhs => whnf
    simp only [← h, field_append_low, field_append_high, Nat.reduceSub, Nat.reduceLeDiff, Nat.reduceAdd, BitVec.extractLsb'_eq_self,
      BitVec.toNat_ofNat, Nat.reducePow, Nat.reduceMod, BitVec.reduceExtractLsb', and_self, if_true, beq_one_ofBool]

/-- The decoder finds the row of every other instruction in its word, in the same way. -/
theorem decodeFields_of_encode_other {i : Instr} {w : Insn} (hr : vectorRule i = false) (he : isEvent i = false)
    (h : encode i = some w) : decodeFields w = .ok i := by
  cases i <;> cases hr <;> cases he
  case lih | addpc | cwalk =>
    all_goals
      cases h
      simp [decodeFields, field_append_low, field_append_high, -BitVec.extractLsb'_toNat]
  all_goals
    injection h with h
    have hm := congrArg (BitVec.extractLsb' 26 6) h
    simp only [field_append_high, Nat.reduceSub, Nat.reduceLeDiff, Nat.reduceAdd, BitVec.extractLsb'_eq_self] at hm
    rw [decodeFields, ← hm]
    conv_lhs => whnf
    simp only [← h, field_append_low, field_append_high, Nat.reduceSub, Nat.reduceLeDiff, Nat.reduceAdd, BitVec.extractLsb'_eq_self,
      BitVec.toNat_ofNat, Nat.reducePow, Nat.reduceMod, BitVec.reduceExtractLsb', BitVec.reduceEq, and_self, if_true, if_false,
      beq_one_ofBool]

theorem decodeFields_iff {w : Insn} {i : Instr} : decodeFields w = .ok i ↔ encode i = some w := by
  refine ⟨encode_of_decodeFields, fun h => ?_⟩
  cases hr : vectorRule i
  · exact decodeFields_of_encode_other hr (isEvent_of_encode h) h
  · exact decodeFields_of_encode_rule hr h

/-- The decoder reads the well-formed instruction of the word, if it has one. -/
theorem decode_iff {w : Insn} {i : Instr} : decode w = .ok i ↔ encode i = some w ∧ i.wellFormed = true := by
  rw [← decodeFields_iff, decode]
  cases hf : decodeFields w with
  | error e => simp
  | ok j =>
    by_cases hj : j.wellFormed = true
    · simp only [hj, if_true, Except.ok.injEq]
      exact ⟨fun h => ⟨h, h ▸ hj⟩, And.left⟩
    · simp only [hj, Bool.false_eq_true, if_false, reduceCtorEq, false_iff, Except.ok.injEq]
      exact fun ⟨h, hi⟩ => hj (h ▸ hi)

/-- Settles O2: the decoder reads an instruction from its own word, and only an event has none. -/
theorem encodeThenDecode : Obligations.EncodeThenDecode := by
  intro i hw he
  obtain ⟨w, h⟩ := encode_of_not_isEvent he
  exact ⟨w, h, decode_iff.mpr ⟨h, hw⟩⟩

/-- Settles O3: a word that decodes is its instruction's own. -/
theorem decodeThenEncode : Obligations.DecodeThenEncode := by
  intro w i h
  obtain ⟨he, hw⟩ := decode_iff.mp h
  exact ⟨hw, isEvent_of_encode he, he⟩

/-- Settles O1: each line encodes to its word and is well formed, so the decoder reads it back. -/
theorem specWordsDecodeAndEncode : Obligations.SpecWordsDecodeAndEncode := by
  intro p hp
  suffices h : encode p.2 = some p.1 ∧ p.2.wellFormed = true from ⟨decode_iff.mpr h, h.1⟩
  revert p
  decide

end Sys2Proof
end

section
/-! O5, O14, O18 AND O40. The step of a thread's next word, scalar immediates, and the words that trap (R37, R43, R79, R80, R91, R201). -/

namespace Sys2Proof.Machine

/-! ## The Porter's next word (R37, R284) -/

section
variable {s : State} {sl : Slot}

/-- With no event due, a step is a turn of the slot that has it. -/
theorem step_of_turn (ha : s.agenda = []) (ht : s.turn = some sl) : step s = State.runSlot { s with cur := sl } := by
  simp only [step, ha, ht]

/-- A thread whose call is not with the firmware, and whose Porter does not wait, runs its next word. -/
theorem State.runSlot_of_ready (hw : ∀ n, s.me.wait ≠ some (.service n)) (hr : s.waits s.cur = false) : s.runSlot = s.runWord := by
  unfold State.runSlot
  split
  · next n h => exact absurd h (hw n)
  · rw [if_neg (by simp [hr])]

variable {s1 : State} {w : Insn} {i : Instr}

/-- The next instruction is the one that the word at the pc decodes to. -/
theorem State.nextInstr_of_fetch (hb : s.me.breakAt s.me.pc = none) (hf : s.fetch s.me s.me.pc = .word s1 w) (hd : decode w = .ok i) :
    s.nextInstr = .instr i s1 := by
  simp only [State.nextInstr, hb, hf, hd]

/-- With no engine fault to take, the instruction runs, unless it waits for a resync's value. -/
theorem State.runWord_of_instr (he : s.engineReady s.cur = false) (hn : s.nextInstr = .instr i s1) :
    s.runWord = if s.me.passes i then exec i s1 else s1.stall := by
  simp only [State.runWord, he, hn, Bool.false_eq_true, if_false, State.runInstr]

end

/-- Settles O5: the step is the turn of the slot, whose thread runs the word that it has fetched. -/
theorem stepRunsDecoded : Obligations.StepRunsDecoded := by
  intro s s1 sl w i ha ht u t hwait hwaits hengine hbreak hfetch hdecode
  have h : step s = if t.passes i then exec i s1 else s1.stall :=
    calc step s = u.runSlot := step_of_turn ha ht
      _ = u.runWord := State.runSlot_of_ready hwait hwaits
      _ = _ := State.runWord_of_instr hengine (State.nextInstr_of_fetch hbreak hfetch hdecode)
  exact ⟨fun hp => by rw [h, if_pos hp], fun hp => by rw [h, hp]; rfl⟩

/-! ## Immediates (R79, R80) -/

theorem State.alu1_eq (s : State) (d a : BitVec 5) (f : Word → Word) : s.alu1 d a f = .next (s.wrote d (f (s.me.rd a))) :=
  s.commit_wr d _

/-- Two words are equal if their values are. -/
theorem eq_ofNat_of_toNat {x : Word} {n : Nat} (h : x.toNat = n % 2 ^ 64) : x = BitVec.ofNat 64 n :=
  BitVec.eq_of_toNat_eq (h.trans (BitVec.toNat_ofNat n 64).symm)

theorem eq_ofInt_of_toInt {x : Word} {n : Int} (h : x.toInt = n) : x = BitVec.ofInt 64 n := by
  rw [← h, BitVec.ofInt_toInt]

theorem setWidth_eq_ofNat (i : BitVec 16) : i.setWidth 64 = BitVec.ofNat 64 i.toNat := eq_ofNat_of_toNat (by simp)

theorem add_signExtend (x : Word) (i : BitVec 16) : x + i.signExtend 64 = BitVec.ofInt 64 (x.toInt + i.toInt) := by
  rw [BitVec.ofInt_add, BitVec.ofInt_toInt]
  rfl

theorem shiftLeft_eq_ofNat (x : Word) (n : Nat) : x <<< n = BitVec.ofNat 64 (x.toNat * 2 ^ n) :=
  eq_ofNat_of_toNat (by rw [BitVec.toNat_shiftLeft, Nat.shiftLeft_eq])

theorem ushiftRight_eq_ofNat (x : Word) (n : Nat) : x >>> n = BitVec.ofNat 64 (x.toNat / 2 ^ n) := by
  refine eq_ofNat_of_toNat ?_
  rw [BitVec.toNat_ushiftRight, Nat.shiftRight_eq_div_pow, Nat.mod_eq_of_lt (Nat.lt_of_le_of_lt (Nat.div_le_self _ _) x.isLt)]

theorem sshiftRight_eq_ofInt (x : Word) (n : Nat) : x.sshiftRight n = BitVec.ofInt 64 (x.toInt / 2 ^ n) :=
  eq_ofInt_of_toInt (by rw [BitVec.toInt_sshiftRight, Int.shiftRight_eq_div_pow]; rfl)

theorem rotateRight_eq (x : Word) (n : BitVec 6) : x.rotateRight n.toNat = (x >>> n.toNat) ||| (x <<< (64 - n.toNat)) := by
  rw [BitVec.rotateRight_def, Nat.mod_eq_of_lt n.isLt]

theorem signExtend_shiftLeft (i : BitVec 16) : i.signExtend 64 <<< 16 = BitVec.ofInt 64 (i.toInt * 2 ^ 16) := by
  rw [BitVec.shiftLeft_eq_mul_twoPow, BitVec.ofInt_mul]
  rfl

theorem shiftLeft_or_setWidth (x : Word) (i : BitVec 16) : (x <<< 16) ||| i.setWidth 64 = BitVec.ofNat 64 (x.toNat * 2 ^ 16 + i.toNat) := by
  refine eq_ofNat_of_toNat ?_
  have hi : i.toNat < 2 ^ 16 := i.isLt
  have hm : x.toNat * 2 ^ 16 % 2 ^ 64 = 2 ^ 16 * (x.toNat % 2 ^ 48) := by omega
  rw [BitVec.toNat_or, BitVec.toNat_shiftLeft, BitVec.toNat_setWidth_of_le (by decide), Nat.shiftLeft_eq, hm,
    ← Nat.two_pow_add_eq_or_of_lt hi]
  omega

theorem and_not_page (x : Word) : x &&& ~~~(0xFFFF#64) = BitVec.ofNat 64 (x.toNat / 2 ^ 16 * 2 ^ 16) := by
  have h : x &&& ~~~(0xFFFF#64) = x >>> 16 <<< 16 := by
    rw [show ~~~(0xFFFF#64) = BitVec.allOnes 64 <<< 16 by decide]
    ext j hj
    rw [BitVec.getElem_and, BitVec.getElem_shiftLeft, BitVec.getElem_shiftLeft]
    by_cases hl : j < 16
    · simp [hl]
    · simp [hl, hj, show 16 + (j - 16) = j by omega, -BitVec.reduceAllOnes]
  have hx : x.toNat / 2 ^ 16 < 2 ^ 64 := Nat.lt_of_le_of_lt (Nat.div_le_self _ _) x.isLt
  rw [h, shiftLeft_eq_ofNat, ushiftRight_eq_ofNat, BitVec.toNat_ofNat, Nat.mod_eq_of_lt hx]

/-- Settles O14: each form writes a function of its source register, whose value is the table's. -/
theorem scalarImmediateResults : Obligations.ScalarImmediateResults := by
  intro s d a i n
  dsimp only
  simp only [exec, execAddi, execAndi, execOri, execXori, execSlti, execSltni, execSlli, execSrli, execSrai, execRori, execLih, execLix,
    execAddpc, State.alu1_eq, State.commit_wr, flag, decide_eq_true_eq, BitVec.toInt_signExtend_of_le (show 16 ≤ 64 by decide),
    BitVec.toNat_setWidth_of_le (show 16 ≤ 64 by decide), add_signExtend, shiftLeft_or_setWidth, signExtend_shiftLeft, and_not_page,
    sshiftRight_eq_ofInt, rotateRight_eq, ← setWidth_eq_ofNat, ← shiftLeft_eq_ofNat, ← ushiftRight_eq_ofNat, BitVec.ofInt_add, BitVec.ofInt_natCast,
    and_self]

/-! ## Traps of a word (R37, R198) -/

/-- With no older rule in the window, a word's trap is taken at once. -/
theorem State.wordTrap_of_empty {s : State} (hw : s.me.vec.window = []) (c : BitVec 8) (a : Nat) :
    s.wordTrap c a = .next (s.trapped (wordInfo c (BitVec.ofNat 64 a) s.me.pc)) := by
  simp only [State.wordTrap, State.trapWord, hw, beq_self_eq_true, Bool.or_true, if_true, State.trapped]

/-- Above user level no rule stands in the way. -/
theorem State.wordTrap_above {s : State} (hl : s.me.level ≠ .user) (c : BitVec 8) (a : Nat) :
    s.wordTrap c a = .next (s.trapped (wordInfo c (BitVec.ofNat 64 a) s.me.pc)) := by
  simp only [State.wordTrap, State.trapWord, ne_eq, hl, not_false_eq_true, decide_true, Bool.true_or, if_true, State.trapped]

/-- The trap of a word with its own address. -/
theorem State.wordTrap_pc_of_empty {s : State} (hw : s.me.vec.window = []) (c : BitVec 8) :
    s.wordTrap c s.me.pc.toNat = .next (s.trapped (wordInfo c s.me.pc s.me.pc)) := by
  rw [State.wordTrap_of_empty hw, BitVec.ofNat_toNat, BitVec.setWidth_eq]

theorem State.illegal_of_empty {s : State} (hw : s.me.vec.window = []) : s.illegal = .next (s.trapped (wordInfo 0x01 s.me.pc s.me.pc)) :=
  State.wordTrap_pc_of_empty hw 0x01

theorem State.illegal_above {s : State} (hl : s.me.level ≠ .user) : s.illegal = .next (s.trapped (wordInfo 0x01 s.me.pc s.me.pc)) := by
  rw [State.illegal, State.wordTrap_above hl, BitVec.ofNat_toNat, BitVec.setWidth_eq]

/-- At user level nothing has to settle before a trap. -/
theorem State.trapped_of_user {s : State} (hu : s.me.level = .user) (i : TrapInfo) : s.trapped i = s.takeTrap s.cur i := by
  simp only [State.trapped, State.settleFor, hu, reduceCtorEq, if_false]

/-- With an empty window no earlier memory rule holds a scalar access back. -/
theorem State.scalarHeld_of_empty {s : State} (hw : s.me.vec.window = []) : s.scalarHeld s.cur = false := by
  have hw' : (s.th s.cur).vec.window = [] := hw
  simp only [State.scalarHeld, hw', List.any_nil, Bool.and_false]

/-- Settles O18: the target is checked before anything else, but for a CALLR's stack pointer. -/
theorem misalignedTargetsTrap : Obligations.MisalignedTargetsTrap := by
  intro s a ht hw
  refine ⟨?_, fun hsp => ?_⟩
  · simp only [exec, execJr, ht, ne_eq, not_false_eq_true, if_true, State.wordTrap_pc_of_empty hw]
  · simp only [exec, execCallr, State.call, State.scalarHeld_of_empty hw, Bool.false_eq_true, hsp, ht, ne_eq, not_true_eq_false, not_false_eq_true, if_true, if_false,
      State.wordTrap_pc_of_empty hw]

/-! ## Vector words (R37, R43, R201) -/

section
variable {s : State} (hl : s.me.level ≠ .user)
include hl

theorem State.issueRule_above (i : Instr) : s.issueRule i = s.illegal := by
  unfold State.issueRule
  cases ruleSpec i with
  | none => rfl
  | some sp => exact if_pos hl

theorem State.engineWord_above (go : State → Out) : s.engineWord go = s.illegal := if_pos hl
theorem State.accWord_above (a : BitVec 2) (go : State → Out) : s.accWord a go = s.illegal := State.engineWord_above hl _
theorem State.rows_above (gather : Bool) (g : BitVec 5) (str : BitVec 4) (v : BitVec 5) (c : Bool) (n i : BitVec 4) :
    s.rows gather g str v c n i = s.illegal := State.engineWord_above hl _
theorem State.grant_above (d : BitVec 5) (n : Nat) (w q : BitVec 2) : s.grant d n w q = s.illegal := if_pos hl
theorem State.vpf_above (i : Instr) (k : BitVec 4) (o : BitVec 20) : s.vpf i k o = s.illegal := if_pos hl

end

/-- A vector instruction whose whole effect is to issue its rule issues it. -/
theorem exec_of_vectorRule {i : Instr} (h : vectorRule i = true) (s : State) : exec i s = s.issueRule i := by
  cases i <;> cases h <;> rfl

/-- Every other vector word looks at the level before anything else, but for VTAG, whose illegal tags trap in the same way. -/
theorem exec_above_of_not_vectorRule {i : Instr} {s : State} (hm : vectorMajor i = true) (hr : vectorRule i = false)
    (hl : s.me.level ≠ .user) : exec i s = s.illegal := by
  cases i <;> cases hm <;> cases hr
  case setvl | setvli => all_goals exact State.grant_above hl ..
  case setfib | vmvs | mffs | mpopc => all_goals exact if_pos hl
  case vpbr | vpj | vpstop => all_goals rfl
  case vpf => exact State.vpf_above hl ..
  case cpyg | cpys => all_goals exact State.rows_above hl ..
  case cpy | cpymg | cwtld | csbar | cresume | mcfg | mmav | cwalk => all_goals
    simp only [exec, execCpy, execCpymg, execCwtld, execCsbar, execCresume, execMcfg, execMmav, execCwalk, State.engineWord_above hl]
  case mzero | mma | mst | mrd => all_goals simp only [exec, execMzero, execMma, execMst, execMrd, State.accWord_above hl]
  case tblb =>
    simp only [exec, execTblb, hl, decide_false, Bool.false_and, Bool.false_eq_true, if_false, State.issueRule_above hl]
  case vtag d c =>
    simp only [exec, execVtag]
    cases Tag.ofCode c.toNat with
    | none => rfl
    | some g => exact if_pos hl

theorem exec_vectorMajor_above {i : Instr} {s : State} (hm : vectorMajor i = true) (hl : s.me.level ≠ .user) : exec i s = s.illegal := by
  cases hr : vectorRule i
  · exact exec_above_of_not_vectorRule hm hr hl
  · rw [exec_of_vectorRule hr, State.issueRule_above hl]

/-- Settles O40: above user level each of the words is illegal; at user level an overlap is found before anything is issued. -/
theorem vectorWordsThatTrap : Obligations.VectorWordsThatTrap := by
  refine ⟨fun i s hm hl => ?_, fun i sp s hr hs hu ho hw => ?_⟩
  · rw [exec_vectorMajor_above hm hl, State.illegal_above hl]
  · simp only [exec_of_vectorRule hr, State.issueRule, hs, hu, ne_eq, not_true_eq_false, if_false, ho, if_true,
      State.wordTrap_pc_of_empty hw, State.trapped_of_user hu]

end Sys2Proof.Machine
end

section
/-! O44. The words of a block (R41, R216, R227 to R230, R244 to R246). -/

namespace Sys2Proof.Machine

/-! ## What a fetch leaves of the threads (R12, R31) -/

theorem foldl_threads {α : Type} {f : State → α → State} (hf : ∀ s x, (f s x).threads = s.threads) (l : List α) (s : State) :
    (l.foldl f s).threads = s.threads := by
  induction l generalizing s with
  | nil => rfl
  | cons x l ih => rw [List.foldl_cons, ih, hf]

theorem State.flushLine_threads (s : State) (n : Nat) : (s.flushLine n).threads = s.threads := by
  obtain ⟨m, q, k, h⟩ := s.flushLine_frame n
  rw [h]

theorem State.recall_threads (s : State) (pa n : Nat) : (s.recall pa n).threads = s.threads :=
  foldl_threads (f := fun s i => (s.flushLine (pa / 64 + i)).dropLine (pa / 64 + i)) (fun s _ => s.flushLine_threads _) _ s

theorem State.touch_threads (s : State) (l : Leaf) (write : Bool) : (s.touch l write).threads = s.threads := by
  unfold State.touch
  extract_lets need s1
  split
  · rfl
  · exact s.recall_threads l.addr 8

theorem State.tlbPut_frame (s : State) (ctx : BitVec 12) (va : Nat) (l : Leaf) : ∃ x, s.tlbPut ctx va l = { s with tlb := x } :=
  ⟨_, rfl⟩

theorem State.tlbPut_threads (s : State) (ctx : BitVec 12) (va : Nat) (l : Leaf) : (s.tlbPut ctx va l).threads = s.threads := by
  obtain ⟨x, h⟩ := s.tlbPut_frame ctx va l
  rw [h]

theorem State.lookup_threads (s : State) (ctx : BitVec 12) (va : Nat) : (s.lookup ctx va).1.threads = s.threads := by
  simp only [State.lookup]
  repeat' split
  all_goals simp only [State.tlbPut_threads, State.tlbDrop]

theorem State.xlate_threads {s s1 : State} {ctx : BitVec 12} {lvl : Level} {k : AccKind} {copied : List Nat} {va : Nat} {l : Leaf}
    (h : s.xlate ctx lvl k copied va = .ok s1 l) : s1.threads = s.threads := by
  have hl := s.lookup_threads ctx va
  unfold State.xlate at h
  repeat' split at h
  all_goals cases h
  simpa only [*] using hl

theorem State.holdWord_threads (s : State) (ctx : BitVec 12) (va : Nat) (w : Insn) : (s.holdWord ctx va w).1.threads = s.threads := by
  unfold State.holdWord
  repeat' split
  all_goals rfl

theorem State.fetchWord_threads {s s1 : State} {ctx : BitVec 12} {a : Nat} {locs : List Loc} {w : Insn}
    (h : s.fetchWord ctx a locs = .word s1 w) : s1.threads = s.threads := by
  unfold State.fetchWord at h
  split at h
  · cases h
  · cases h
    exact s.holdWord_threads _ _ _

theorem State.fetchRemote_threads {s s1 : State} {ctx : BitVec 12} {a pa n : Nat} {w : Insn}
    (h : s.fetchRemote ctx a pa n = .word s1 w) : s1.threads = s.threads := by
  unfold State.fetchRemote at h
  repeat' split at h
  all_goals cases h
  all_goals rfl

theorem State.winCheck_ok {s s1 : State} {t : Thread} {va n : Nat} {locs : List Loc} {l : Option Leaf}
    (h : s.winCheck t va n = .ok s1 locs l) : s1 = s := by
  simp only [State.winCheck] at h
  repeat' split at h
  all_goals cases h
  all_goals rfl

/-- A fetch that gives a word leaves the threads alone. -/
theorem State.fetch_threads {s s1 : State} {t : Thread} {va : Word} {w : Insn} (h : s.fetch t va = .word s1 w) :
    s1.threads = s.threads := by
  unfold State.fetch at h
  extract_lets at h
  split at h
  · cases h
  split at h
  · split at h
    · cases h
    · cases h
    · next hw =>
      rw [State.fetchWord_threads h, State.winCheck_ok hw]
  · split at h
    · cases h
    · cases h
    · next l hx =>
      extract_lets at h
      split at h
      · cases h
      · exact (State.fetchRemote_threads h).trans ((State.touch_threads _ _ _).trans (State.xlate_threads hx))
      · exact (State.fetchRemote_threads h).trans ((State.touch_threads _ _ _).trans (State.xlate_threads hx))
      · exact (State.fetchRemote_threads h).trans ((State.touch_threads _ _ _).trans (State.xlate_threads hx))
      · exact (State.fetchWord_threads h).trans ((State.touch_threads _ _ _).trans (State.xlate_threads hx))

/-! ## The only VP of a block (R230, R232) -/

/-- The VPF f of slot sl, with rule r, has one VP p, which runs and has met no fault. -/
structure OneVp (s : State) (sl : Slot) (f : Vpf) (r : Rule) (p : Vp) : Prop where
  occupied : (s.th sl).occupied = true
  held     : (s.th sl).held = false
  drain    : (s.th sl).drain = false
  fault    : (s.th sl).headFault = false
  vpf      : (s.th sl).vpf = some f
  vps      : f.vps = [p]
  rule     : (s.th sl).vec.window.find? (fun q => q.rid == f.rid) = some r
  gov      : vpfGov (s.th sl).vec r p.idx = .on
  clean    : ∀ x ∈ r.faults, x.elem ≠ p.idx

section
variable {s s1 : State} {sl : Slot} {f : Vpf} {r : Rule} {p : Vp} {w : Insn} {i : Instr}

theorem OneVp.exec (h : OneVp s sl f r p) : exec (.vpCohortIssue sl) s = .next ((s.cohortStep sl p.pc).getD s) := by
  have hp : cohortPcs f = [p.pc.toNat] := by simp [cohortPcs, h.vps, insertNat]
  have hs : s.vpCohortIssue sl = s.cohortStep sl p.pc := by
    simp [State.vpCohortIssue, Thread.frozen, h.occupied, h.held, h.drain, h.fault, h.vpf, hp, firstStep]
  rw [← hs]
  rfl

theorem OneVp.cohort (h : OneVp s sl f r p) :
    f.vps.filter (fun q => q.pc == p.pc && vpfGov (s.th sl).vec r q.idx == .on && !r.faults.any (fun x => x.elem == q.idx)) = [p] := by
  have hc : r.faults.any (fun x => x.elem == p.idx) = false := by simpa using h.clean
  simp [h.vps, h.gov, hc]

/-- A VP that has issued 4,096 instructions meets the runaway fault. -/
theorem OneVp.cohortStep_late (h : OneVp s sl f r p) (hc : 4096 ≤ p.count) :
    s.cohortStep sl p.pc = some (s.setRule sl (r.addFault p.idx 0x20 p.pc.toNat)) := by
  simp only [State.cohortStep, h.vpf, h.rule, h.cohort]
  simp [hc, State.wordFault]

/-- The word that is fetched for the VP decides its step. -/
theorem OneVp.cohortStep_word (h : OneVp s sl f r p) (hc : p.count < 4096) (hb : (s.th sl).breakAt p.pc = none)
    (hw : s.fetch (s.th sl) p.pc = .word s1 w) (hd : decode w = .ok i) :
    s.cohortStep sl p.pc = if blockLegal i then s1.cohortInstr sl f r [p] p.pc i
      else some (s1.setRule sl (r.addFault p.idx 0x01 p.pc.toNat)) := by
  simp only [State.cohortStep, h.vpf, h.rule, h.cohort]
  simp [show ¬ 4096 ≤ p.count by omega, hb, hw, hd, State.wordFault]

/-- A step that moves the VP leaves all else of the thread. -/
theorem vpsGo_single (hv : (s.th sl).vpf = some f) (hp : f.vps = [p]) {g : Vp → Option Vp} {q : Vp} (hg : g p = some q) (hi : q.idx = p.idx) :
    s.vpsGo sl [p] g = some (s.setTh sl { s.th sl with vpf := some { f with vps := [q] } }) := by
  simp [State.vpsGo, hg, Thread.setVp, hv, hp, hi]

theorem relTarget_eq {n : Nat} (pc : Word) (o : BitVec n) : relTarget pc o = BitVec.ofInt 64 (pc.toNat + o.toInt * 4) := by
  have ho : o.signExtend 64 = BitVec.ofInt 64 o.toInt := rfl
  rw [relTarget, ho, BitVec.ofInt_add, BitVec.ofInt_mul]
  simp

theorem Thread.vpBit_of_settled {t : Thread} {k : BitVec 4} (h : ∀ x ∈ p.ops, ∀ sp, ruleSpec x.instr = some sp → k.toNat ∉ sp.pdests) :
    t.vpBit f p k = (vpPreg t f p k.toFin).get p.idx := by
  refine if_neg ?_
  rw [Bool.not_eq_true, List.any_eq_false]
  intro x hx
  cases hs : ruleSpec x.instr with
  | none => simp
  | some sp => simpa using h x hx sp hs

/-- The names of a write-set of one register. -/
theorem vsetNames_single {f : Vpf} {n : Fin 32} (h : f.vset = 1#32 <<< n.val) : vsetNames f = [n] := by
  rw [vsetNames, h]
  clear h
  revert n
  decide

theorem msetNames_none {f : Vpf} (h : f.mset = 0) : msetNames f = [] := by
  rw [msetNames, h]
  decide

/-- A register whose element has been put reads it there. -/
theorem VReg.get_put_same (r : VReg) (i : Nat) (e : Elem) : (r.put i e).get i = e :=
  Cells.get_set_same r.rest i e r.cells

theorem Vec.vreg_putV_same (v : Vec) (d : Fin 128) (i : Nat) (e : Elem) : (v.putV (some d) i e).vreg d = (v.vreg d).put i e :=
  get_set_same v.vregs d _

theorem getLsbD_or_one_shiftLeft {w n : Nat} (x : BitVec w) (h : n < w) : (x ||| 1#w <<< n).getLsbD n = true := by
  simp [h]

theorem Rule.setDone_isDone (r : Rule) {n : Nat} (h : n < 8192) : (r.setDone n).isDone n = true :=
  getLsbD_or_one_shiftLeft r.done h

theorem Vec.mem_window_setRule {v : Vec} {q r : Rule} (h : q ∈ v.window) (hr : q.rid = r.rid) : r ∈ (v.setRule r).window :=
  List.mem_map.mpr ⟨q, h, by simp [hr]⟩

end

section
variable {s s1 : State} {sl : Slot} {f : Vpf} {r : Rule} {p : Vp} {w : Insn} {i : Instr}

/-- A VP goes on at pc with the rules ops. -/
def VpGoesOn (s : State) (sl : Slot) (f : Vpf) (p : Vp) (pc : Word) (ops : List VpOp) : Prop :=
  ∃ u g, Machine.exec (.vpCohortIssue sl) s = .next u ∧ (u.th sl).vpf = some g ∧
    g = { f with vps := [{ p with pc := pc, count := p.count + 1, ops := ops }] } ∧ (u.th sl).vec = (s.th sl).vec

theorem OneVp.vpGoesOn (h : OneVp s sl f r p) {s2 : State} (h2 : s2.th sl = s.th sl) {pc : Word} {ops : List VpOp} {g : Vp → Option Vp}
    (hg : g p = some { p with pc := pc, count := p.count + 1, ops := ops }) (hc : s.cohortStep sl p.pc = s2.vpsGo sl [p] g) :
    VpGoesOn s sl f p pc ops := by
  rw [vpsGo_single (h2 ▸ h.vpf) h.vps hg rfl] at hc
  refine ⟨_, { f with vps := [{ p with pc := pc, count := p.count + 1, ops := ops }] }, by rw [h.exec, hc, Option.getD_some], ?_⟩
  rw [State.th_setTh, h2]
  exact ⟨rfl, rfl, rfl⟩

/-- VPSTOP of the only VP, whose rules have all fired. -/
theorem OneVp.cohortInstr_vpstop (h : OneVp s sl f r p) (ho : p.ops = []) :
    s.cohortInstr sl f r [p] p.pc .vpstop = some (s.setTh sl ((s.th sl).vpStop f r p)) := by
  have hf : [p].filter (fun q => q.ops = []) = [p] := by simp [ho]
  unfold State.cohortInstr
  simp only [hf, List.foldl_cons, List.foldl_nil, h.vpf, h.rule]

theorem OneVp.of_threads (h : OneVp s sl f r p) (ht : s1.threads = s.threads) : OneVp s1 sl f r p := by
  have hs : s1.th sl = s.th sl := congrArg (fun v => v.get sl) ht
  exact ⟨hs ▸ h.occupied, hs ▸ h.held, hs ▸ h.drain, hs ▸ h.fault, hs ▸ h.vpf, h.vps, hs ▸ h.rule, hs ▸ h.gov, h.clean⟩

theorem foldl_window {α : Type} {f : Vec → α → Vec} (hf : ∀ v x, (f v x).window = v.window) (l : List α) (v : Vec) :
    (l.foldl f v).window = v.window := by
  induction l generalizing v with
  | nil => rfl
  | cons x l ih => rw [List.foldl_cons, ih, hf]

/-- Writing elements leaves the window alone, so the VPF's rule stands in it with its element done. -/
theorem Thread.vpStop_window {t : Thread} {f : Vpf} {r : Rule} {p : Vp} (h : r ∈ t.vec.window) :
    r.setDone p.idx ∈ (t.vpStop f r p).vec.window := by
  refine Vec.mem_window_setRule (q := r) ?_ rfl
  rw [foldl_window, foldl_window]
  · exact h
  · intro v x
    split <;> rfl
  · intro v x
    split <;> rfl

/-- What the thread holds once its only VP has stopped. -/
theorem OneVp.vpStop (h : OneVp s sl f r p) :
    ∃ g, ((s.th sl).vpStop f r p).vpf = some g ∧ g.vps = [] ∧ r.setDone p.idx ∈ ((s.th sl).vpStop f r p).vec.window ∧
      (∀ (n : Fin 32) (e : Elem), f.vset = 1#32 <<< n.val → f.mset = 0 → p.cell false n.val = some e →
        (((s.th sl).vpStop f r p).vec.vreg (f.vmap.get n)).get p.idx = e) := by
  refine ⟨_, rfl, by simp [h.vps], ?_, fun n e hv hm he => ?_⟩
  · exact Thread.vpStop_window (List.mem_of_find?_eq_some h.rule)
  · simp only [Thread.vpStop, vsetNames_single hv, msetNames_none hm, List.foldl_cons, List.foldl_nil, he]
    exact (congrArg (VReg.get · p.idx) (Vec.vreg_putV_same ..)).trans (VReg.get_put_same ..)

end

section
variable {s s1 : State} {sl : Slot} {f : Vpf} {r : Rule} {p : Vp} {w : Insn} {i : Instr}

/-- A rule whose destinations lie in the write-set joins the rules of the VP, one outside the write-set stops it. -/
theorem cohortInstr_of_ruleSpec {sp : RuleSpec} {ps : List Vp} {pc : Word} (hs : ruleSpec i = some sp) :
    s.cohortInstr sl f r ps pc i =
      if !inWriteSet f sp then s.wordFault sl r ps 0x01 pc.toNat
      else if sp.inBlock.overlaps then s.wordFault sl r ps 0x03 pc.toNat
      else if 24 ≤ (s.th sl).entries then none
      else State.vpsGo { s with seq := s.seq + 1 } sl ps (fun p => some { p.goTo (pc + 4) with ops := p.ops ++ [{ gid := s.seq, instr := i }] }) := by
  cases i <;> cases hs <;> rfl

end

/-- Settles O44: the step of the only VP follows its word, and outside a block the three words trap. -/
theorem blockWords : Obligations.BlockWords := by
  refine ⟨fun s k o hw => ?_, ?_⟩
  · have ht : s.illegal = .next (s.trapped (wordInfo 0x01 s.me.pc s.me.pc)) := State.illegal_of_empty hw
    exact ⟨ht, ht, ht⟩
  · intro s s1 sl f r p w t hocc hheld hdrain hfault hvpf hvps hrule hgov hclean
    have h : OneVp s sl f r p := ⟨hocc, hheld, hdrain, hfault, hvpf, hvps, hrule, hgov, hclean⟩
    refine ⟨fun hc => by rw [h.exec, h.cohortStep_late hc, Option.getD_some], fun hc hb hw => ?_⟩
    intro go
    have hth := State.fetch_threads hw
    have h1 : OneVp s1 sl f r p := h.of_threads hth
    have ht1 : s1.th sl = s.th sl := congrArg (fun v => v.get sl) hth
    have step {i : Instr} (hd : decode w = .ok i) (hl : blockLegal i = true) :
        s.cohortStep sl p.pc = s1.cohortInstr sl f r [p] p.pc i := by
      rw [h.cohortStep_word hc hb hw hd, if_pos hl]
    refine ⟨fun k o hd hk => ?_, fun o hd => ?_, fun i sp hd hs hl => ⟨fun hin hov he => ?_, fun hin => ?_⟩, fun i hd hl => ?_, fun hd ho => ?_⟩
    · have hbit : (s1.th sl).vpBit f p k = (vpPreg t f p k.toFin).get p.idx := by rw [ht1, Thread.vpBit_of_settled hk]
      refine ⟨fun hp => h.vpGoesOn ht1 ?_ (step hd rfl), fun hp => h.vpGoesOn ht1 ?_ (step hd rfl)⟩
      · simp only [hbit, hp, if_true, relTarget_eq, Vp.goTo]
      · rcases hp with hp | hp <;> simp [hbit, hp, Vp.goTo]
    · exact h.vpGoesOn ht1 (g := fun q => some (q.goTo (relTarget p.pc o))) (by simp only [relTarget_eq, Vp.goTo]) (step hd rfl)
    · have hr := cohortInstr_of_ruleSpec (s := s1) (sl := sl) (f := f) (r := r) (ps := [p]) (pc := p.pc) hs
      rw [hin, hov, ht1, Bool.not_true, if_neg Bool.false_ne_true, if_neg Bool.false_ne_true, if_neg (Nat.not_le.mpr he)] at hr
      exact h.vpGoesOn (s2 := { s1 with seq := s1.seq + 1 }) ht1 (by rfl) ((step hd hl).trans hr)
    · rw [h.exec, step hd hl, cohortInstr_of_ruleSpec hs, hin]
      rfl
    · rw [h.exec, h.cohortStep_word hc hb hw hd, hl]
      rfl
    · obtain ⟨g, hg, hgv, hwin, hfin⟩ := h1.vpStop
      refine ⟨_, g, r.setDone p.idx, by rw [h.exec, step hd rfl, h1.cohortInstr_vpstop ho, Option.getD_some], ?_⟩
      rw [State.th_setTh]
      exact ⟨hg, hgv, hwin, rfl, r.setDone_isDone, hfin⟩

end Sys2Proof.Machine
end

section
/-! O7 TO O9, FIRST PART. The canonical form of the byte memories, carried by what an operation answers (R31, R346). -/

namespace Sys2Proof.Machine

/-- The state that a translation leaves has its byte memories in canonical form. -/
def Xl.Wf : Xl → Prop
  | .ok s _ | .fault s _ | .wait s => s.memWf = true

/-- The state of a copy-on-write that waits, or found no page, is in form. -/
def CowRes.Wf : CowRes → Prop
  | .none => True
  | .wait s | .empty s => s.memWf = true

/-- The state that a checked access leaves is in form. -/
def Acc.Wf : Acc → Prop
  | .ok s _ _ | .trap s _ _ | .wait s => s.memWf = true

/-- The state that a scalar access leaves is in form. -/
def Access.Wf : Access → Prop
  | .done s _ | .trap s _ _ | .wait s => s.memWf = true

/-- The state that a fetch leaves is in form. -/
def Fetched.Wf : Fetched → Prop
  | .word s _ | .trap s _ _ | .wait s => s.memWf = true

/-- The state that the reading of a VPF header leaves is in form. -/
def Header.Wf : Header → Prop
  | .ok s _ _ | .trap s _ _ | .wait s => s.memWf = true

/-- The state that an element's checks leave, where they leave one, is in form. -/
def ElAcc.Wf : ElAcc → Prop
  | .ok s _ _ | .miss s => s.memWf = true
  | _ => True

/-- The state that the reads of remote bytes leave, where they leave one, is in form. -/
def Remote.Wf : Remote → Prop
  | .data s _ _ | .sent s => s.memWf = true
  | .wait => True

/-- The state in which copies have begun is in form. -/
def CowAll.Wf : CowAll → Prop
  | .started s => s.memWf = true
  | _ => True

/-- The state that a service's access to its record leaves, where it leaves one, is in form. -/
def SvcAcc.Wf : SvcAcc → Prop
  | .ok s _ _ | .wait s => s.memWf = true
  | .bad => True

/-- The state that a service's reply leaves, where it leaves one, is in form. -/
def Reply.Wf : Reply → Prop
  | .done s _ | .wait s => s.memWf = true
  | .fail _ => True

/-- The state of a span that was found is in form. -/
def Span.Wf : Span → Prop
  | .ok s _ _ => s.memWf = true
  | _ => True

/-- The state of an element's preparation, where there is one, is in form. -/
def Prep.Wf : Prep → Prop
  | .ok s _ _ | .skip s | .step s => s.memWf = true
  | _ => True

/-- What an operation over many words gives, or where it stopped. -/
def RunWf {β : Type} (p : β → State) : β ⊕ Access → Prop
  | .inl b => (p b).memWf = true
  | .inr a => a.Wf

/-- The next state of an event that can happen is in form. -/
def AllWf (o : Option State) : Prop := ∀ t, o = some t → t.memWf = true

theorem Acc.Wf.ite {c : Prop} {_ : Decidable c} {x y : Acc} (hx : x.Wf) (hy : y.Wf) : (if c then x else y).Wf := by
  split
  · exact hx
  · exact hy

theorem Reply.Wf.ite {c : Prop} {_ : Decidable c} {x y : Reply} (hx : x.Wf) (hy : y.Wf) : (if c then x else y).Wf := by
  split
  · exact hx
  · exact hy

theorem Reply.Wf.dite {c : Prop} {_ : Decidable c} {x : c → Reply} {y : ¬ c → Reply} (hx : ∀ h, (x h).Wf) (hy : ∀ h, (y h).Wf) :
    (if h : c then x h else y h).Wf := by
  split
  · exact hx _
  · exact hy _

theorem Reply.Wf.fail {st : Nat} : (Reply.fail st).Wf := trivial

theorem State.memWf_tlbPut (s : State) (ctx : BitVec 12) (va : Nat) (l : Leaf) (h : s.memWf = true) : (s.tlbPut ctx va l).memWf = true := by
  obtain ⟨x, hx⟩ : ∃ x, s.tlbPut ctx va l = { s with tlb := x } := ⟨_, rfl⟩
  rw [hx]
  exact h

theorem AllWf.getD {s : State} {o : Option State} (ho : AllWf o) (h : s.memWf = true) : (o.getD s).memWf = true := by
  cases o with
  | none => exact h
  | some t => exact ho t rfl

theorem AllWf.orElse {o : Option State} {p : Option State} (ho : AllWf o) (hp : AllWf p) : AllWf (o <|> p) := by
  cases o with
  | none => exact hp
  | some t => exact ho

theorem AllWf.some {s : State} (h : s.memWf = true) : AllWf (some s) := fun _ ht => Option.some.inj ht ▸ h

theorem AllWf.none : AllWf none := fun _ ht => nomatch ht

/-- Only the byte memories count for their form. -/
theorem State.memWf_congr {s t : State} (h : s.memWf = true) (hm : t.mem = s.mem) (hs : t.sp = s.sp) (ht : t.tables = s.tables) :
    t.memWf = true := by
  rw [State.memWf_iff] at h ⊢
  rw [hm, hs, ht]
  exact h

theorem State.memWf_ite {c : Prop} [Decidable c] {s t : State} (hs : s.memWf = true) (ht : t.memWf = true) :
    (if c then s else t).memWf = true := by
  split
  · exact hs
  · exact ht

theorem AllWf.findSome {α : Type} {f : α → Option State} (hf : ∀ x, AllWf (f x)) (l : List α) : AllWf (l.findSome? f) := fun t ht => by
  obtain ⟨x, _, hx⟩ := List.exists_of_findSome?_eq_some ht
  exact hf x t hx

theorem AllWf.firstStep {α : Type} {f : α → Option State} (hf : ∀ x, AllWf (f x)) (l : List α) : AllWf (firstStep l f) := .findSome hf l

theorem AllWf.foldl {α : Type} {f : Option State → α → Option State} (hf : ∀ o x, AllWf o → AllWf (f o x)) :
    ∀ (l : List α) (o : Option State), AllWf o → AllWf (l.foldl f o)
  | [], _, h => h
  | x :: l, o, h => AllWf.foldl hf l (f o x) (hf o x h)

theorem State.memWf_of_fst {β : Type} {r : State × β} {s : State} {b : β} (he : r = (s, b)) (hr : r.1.memWf = true) : s.memWf = true := by
  rwa [he] at hr

theorem AllWf.ite {c : Prop} {_ : Decidable c} {o p : Option State} (ho : AllWf o) (hp : AllWf p) : AllWf (if c then o else p) := by
  split
  · exact ho
  · exact hp

theorem AllWf.map {α : Type} {f : α → State} {o : Option α} (hf : ∀ x, o = Option.some x → (f x).memWf = true) : AllWf (o.map f) := by
  cases o with
  | none => exact .none
  | some x => exact .some (hf x rfl)

end Sys2Proof.Machine
end

section
/-! O7 TO O9, SECOND PART. Each operation of the machine keeps the canonical form of the byte memories. -/

namespace Sys2Proof.Machine

/-! ## The home store, the scalar cache, page tables and copy-on-write -/

theorem State.memWf_putHomeNat (s : State) (pa : Nat) (n : Nat) (x : Nat) (h : s.memWf = true) : (s.putHomeNat pa n x).memWf = true := by
  grind [State.putHomeNat, State.memWf_putHome, State.memWf]

theorem State.memWf_tlbDrop (s : State) (addr : Nat) (h : s.memWf = true) : (s.tlbDrop addr).memWf = true := by
  grind [State.tlbDrop, State.memWf]

theorem State.memWf_lookup (s : State) (ctx : BitVec 12) (va : Nat) (h : s.memWf = true) : (s.lookup ctx va).1.memWf = true := by
  grind [State.lookup, State.memWf_tlbPut, State.memWf_tlbDrop, State.memWf]

theorem State.memWf_xlate (s : State) (ctx : BitVec 12) (lvl : Level) (k : AccKind) (copied : List Nat) (va : Nat) (h : s.memWf = true) :
    (s.xlate ctx lvl k copied va).Wf := by
  grind [State.xlate, State.memWf_lookup, State.memWf_tlbDrop, Xl.Wf, State.memWf]

theorem State.memWf_cowStart (s : State) (l : Leaf) (h : s.memWf = true) : (s.cowStart l).Wf := by
  grind [State.cowStart, State.memWf_tlbDrop, State.memWf_putHomeNat, State.memWf_recall, CowRes.Wf, State.memWf]

theorem State.memWf_copyFrame (s : State) (old frame n : Nat) (h : s.memWf = true) : (s.copyFrame old frame n).memWf = true := by
  unfold State.copyFrame
  split
  · exact State.memWf_putHome _ _ _ h
  · exact State.memWf_putHome _ _ _ h

theorem State.memWf_cowFinish (s : State) (c : Cow) (h : s.memWf = true) : (s.cowFinish c).memWf = true := by
  have hcopy (n : Nat) := State.memWf_copyFrame _ c.old c.frame n
    (State.memWf_recall _ c.leaf 8 (State.memWf_recall _ c.frame n (State.memWf_recall s c.old n h)))
  have hput {t : State} (e : Nat) (l : List Cow) (ht : t.memWf = true) : State.memWf { t.putHomeNat c.leaf 8 e with cows := l } = true :=
    State.memWf_putHome t _ _ ht
  exact hput _ _ (hcopy _)

theorem State.memWf_copyNow (s : State) (l : Leaf) (h : s.memWf = true) : (s.copyNow l).memWf = true := by
  grind [State.copyNow, State.memWf_cowStart, State.memWf_cowFinish, CowRes.Wf, State.memWf]

theorem State.memWf_recallLoc (s : State) (x : Loc) (h : s.memWf = true) : (s.recallLoc x).memWf = true := by
  unfold State.recallLoc
  split
  · exact State.memWf_recall s _ 1 h
  · exact State.memWf_recall s _ 1 h
  · exact State.memWf_foldl _ (fun s a hs => State.memWf_recall s a 1 hs) _ s h
  · exact h

theorem State.memWf_sendTo (s : State) (fn : Nat) (ctx : BitVec 12) (who : ReqFor) (pa : Nat) (op : BusOp) (st : ReqStatus) (locs : List Loc)
    (h : s.memWf = true) : (s.sendTo fn ctx who pa op st locs).memWf = true := by
  grind [State.sendTo, State.memWf]

theorem State.memWf_send (s : State) (ctx : BitVec 12) (who : ReqFor) (pa : Nat) (op : BusOp) (st : ReqStatus) (h : s.memWf = true) :
    (s.send ctx who pa op st).memWf = true := by
  grind [State.send, State.memWf_sendTo, State.memWf]

theorem State.memWf_sendRead (s : State) (ctx : BitVec 12) (who : ReqFor) (locs : List Loc) (run : Nat × Nat) (h : s.memWf = true) :
    (s.sendRead ctx who locs run).memWf = true := by
  grind [State.sendRead, State.memWf_sendTo, State.memWf]

theorem State.memWf_sendWrites (s : State) (ctx : BitVec 12) (who : ReqFor) (locs : List Loc) (bs : List Byte) (h : s.memWf = true) :
    (s.sendWrites ctx who locs bs).memWf = true := by
  refine State.memWf_foldl _ (fun s p hs => ?_) _ s h
  split
  · exact State.memWf_putHome s p.1 p.2 hs
  · exact hs

theorem State.memWf_writeBytes (s : State) (ctx : BitVec 12) (who : ReqFor) (locs : List Loc) (bs : List Byte) (h : s.memWf = true) :
    (s.writeBytes ctx who locs bs).memWf = true := by
  grind [State.writeBytes, State.memWf_sendWrites, State.memWf_putLocs, State.memWf]

/-! ## Parties, barriers and pools -/

theorem State.memWf_addUe (s : State) (h : s.memWf = true) : s.addUe.memWf = true := by
  grind [State.addUe, State.memWf]

theorem State.memWf_setParty (s : State) (p : Party) (h : s.memWf = true) : (s.setParty p).memWf = true := by
  grind [State.setParty, State.memWf]

theorem State.memWf_setTask (s : State) (t : Task) (h : s.memWf = true) : (s.setTask t).memWf = true := by
  grind [State.setTask, State.memWf]

theorem State.memWf_mapSaved (s : State) (f : Thread → Thread) (h : s.memWf = true) : (s.mapSaved f).memWf = true := by
  grind [State.mapSaved, State.memWf]

theorem State.memWf_setFn (s : State) (f : PcieFn) (v : HostFn) (h : s.memWf = true) : (s.setFn f v).memWf = true := by
  exact h

theorem State.memWf_raiseVector (s : State) (v : PcieFn × Nat) (h : s.memWf = true) : (s.raiseVector v).memWf = true := by
  unfold State.raiseVector
  extract_lets f t
  split
  · exact h
  · exact h

theorem State.memWf_raiseEvent (s : State) (event : Nat) (ctx : BitVec 12) (h : s.memWf = true) : (s.raiseEvent event ctx).memWf = true :=
  State.memWf_foldl _ State.memWf_raiseVector _ s h

theorem State.memWf_setCtx (s : State) (c : Ctx) (h : s.memWf = true) : (s.setCtx c).memWf = true := by
  grind [State.setCtx, State.memWf]

theorem State.memWf_energyDebit (s : State) (ctx : BitVec 12) (uj : BitVec 32) (h : s.memWf = true) : AllWf (s.energyDebit ctx uj) :=
  .map (fun _ _ => h)

theorem State.memWf_billReply (s : State) (ctx : BitVec 12) (h : s.memWf = true) : (s.billReply ctx).memWf = true :=
  (State.memWf_energyDebit { s with fresh := s.fresh + 1 } ctx _ h).getD h

theorem State.memWf_sendFlits (s : State) (ms : List Nat) (h : s.memWf = true) : (s.sendFlits ms).1.memWf = true := by
  grind [State.sendFlits, State.memWf]

theorem State.memWf_discard (s : State) (x : Option Txn) (h : s.memWf = true) : (s.discard x).memWf = true := by
  unfold State.discard
  split
  · split
    · exact h
    · exact h
  · exact h

theorem State.memWf_innCow (s : State) (ctx : BitVec 12) (va : Nat) (h : s.memWf = true) : (s.innCow ctx va).memWf = true := by
  grind [State.innCow, State.memWf_cowFinish, State.memWf_copyNow, State.memWf]

theorem State.memWf_innSeen (s : State) (ctx : BitVec 12) (write : Bool) (va n : Nat) (h : s.memWf = true) :
    (s.innSeen ctx write va n).memWf = true := by
  refine State.memWf_foldl _ (fun s a hs => ?_) _ s h
  split
  · exact State.memWf_touch s _ write hs
  · exact hs

theorem State.memWf_innPut (s : State) (ctx : BitVec 12) (va : Nat) (bs : List Byte) (h : s.memWf = true) :
    (s.innPut ctx va bs).memWf = true := by
  unfold State.innPut
  extract_lets pages s1 s2 ps
  have h1 : s1.memWf = true := State.memWf_foldl _ (fun s a hs => State.memWf_innCow s ctx a hs) pages s h
  split
  · exact h1
  · have h2 : s2.memWf = true := State.memWf_innSeen s1 ctx true va _ h1
    exact State.memWf_writeBytes _ _ _ _ _ (State.memWf_foldl _ (fun s x hs => State.memWf_recallLoc s x hs) _ s2 h2)

theorem State.memWf_innAdd (s : State) (ctx : BitVec 12) (va inc : Nat) (h : s.memWf = true) : (s.innAdd ctx va inc).memWf = true := by
  unfold State.innAdd
  extract_lets s1 s2
  have h1 : s1.memWf = true := State.memWf_foldl _ (fun s a hs => State.memWf_innCow s ctx a hs) _ s h
  have h2 : s2.memWf = true := State.memWf_innSeen s1 ctx true va _ h1
  split
  · exact h1
  split
  · exact h2
  · exact h2
  · exact h2
  · have h3 (l : List Loc) : (l.foldl State.recallLoc s2).memWf = true := State.memWf_foldl _ State.memWf_recallLoc l s2 h2
    split
    · exact h3 _
    · exact State.memWf_writeBytes _ _ _ _ _ (h3 _)

theorem State.memWf_payOwed (s : State) (h : s.memWf = true) : s.payOwed.memWf = true := by
  refine State.memWf_foldl _ (fun s o hs => ?_) _ _ h
  split
  · exact State.memWf_innPut s _ _ _ hs
  · exact State.memWf_innAdd s _ _ _ hs

theorem State.memWf_putTaskState (s : State) (ctx : BitVec 12) (va : Word) (st : Nat) (h : s.memWf = true) :
    (s.putTaskState ctx va st).memWf = true := by
  grind [State.putTaskState, State.memWf_innPut, State.memWf]

theorem State.memWf_putTaskFault (s : State) (ctx : BitVec 12) (va : Word) (cause : BitVec 8) (thr : Nat) (pidx : Nat) (h : s.memWf = true) :
    (s.putTaskFault ctx va cause thr pidx).memWf = true := by
  grind [State.putTaskFault, State.memWf_innPut, State.memWf]

theorem State.memWf_reportFault (s : State) (pkey : Nat) (ptidx : Nat) (cause : BitVec 8) (h : s.memWf = true) :
    (s.reportFault pkey ptidx cause).memWf = true := by
  grind [State.reportFault, State.memWf_putTaskFault, State.memWf_putTaskState, State.memWf_raiseEvent, State.memWf_setTask, State.memWf]

theorem State.memWf_straggleAdd (s : State) (core : Nat) (late : BitVec 32) (h : s.memWf = true) : (s.straggleAdd core late).memWf = true := by
  grind [State.straggleAdd, State.memWf]

theorem State.memWf_completePhase (s : State) (p : Party) (n : Fin 16) (b : Barrier) (last : Nat) (first : Bool) (h : s.memWf = true) :
    (s.completePhase p n b last first).memWf = true := by
  grind [State.completePhase, State.memWf_setParty, State.memWf_straggleAdd, State.memWf]

theorem State.memWf_arrive (s : State) (p : Party) (n : Fin 16) (last : Nat) (first : Bool) (h : s.memWf = true) :
    (s.arrive p n last first).memWf = true := by
  grind [State.arrive, State.memWf_completePhase, State.memWf_setParty, State.memWf]

theorem State.memWf_remotePhase (s : State) (p : Party) (n : Fin 16) (h : s.memWf = true) : (s.remotePhase p n).memWf = true := by
  grind [State.remotePhase, State.memWf_completePhase, State.memWf_straggleAdd, State.memWf]

theorem State.memWf_barArrive (s : State) (pkey : Nat) (n : Fin 16) (last : Nat) (h : s.memWf = true) : (s.barArrive pkey n last).memWf = true := by
  grind [State.barArrive, State.memWf_setParty, State.memWf_arrive, State.memWf]

theorem State.memWf_barExpect (s : State) (pkey : Nat) (n : Fin 16) (c : Nat) (h : s.memWf = true) : (s.barExpect pkey n c).memWf = true := by
  grind [State.barExpect, State.memWf_setParty, State.memWf]

theorem State.memWf_barExits (s : State) (pkey : Nat) (h : s.memWf = true) : (s.barExits pkey).memWf = true := by
  refine State.memWf_foldl _ (fun s n hs => ?_) _ s h
  split
  · exact hs
  · exact State.memWf_ite (State.memWf_completePhase s _ _ _ _ _ hs) hs

theorem State.memWf_poolsExit (s : State) (pkey : Nat) (ptidx : Nat) (h : s.memWf = true) : (s.poolsExit pkey ptidx).memWf = true := by
  grind [State.poolsExit, State.memWf]

/-- Clearing lanes keeps the form of the lane tables. -/
theorem wf_foldl_clear (p : Nat → Bool) (lo : Nat → Nat) (n : Nat) (l : List Nat) (t : List Host.Cell) (h : Memory.wf t = true) :
    Memory.wf (l.foldl (fun t i => if p i then Cells.clear t (lo i) n else t) t) = true := by
  induction l generalizing t with
  | nil => exact h
  | cons i l ih =>
    refine ih _ ?_
    dsimp only
    split
    · exact Cells.wf_clear unwritten t _ _ h
    · exact h

theorem State.memWf_clearTables (s : State) (sl : Slot) (m : BitVec 64) (h : s.memWf = true) : (s.clearTables sl m).memWf = true := by
  rw [State.memWf_iff] at h ⊢
  obtain ⟨hm, hs, ht⟩ := h
  exact ⟨hm, hs, wf_foldl_clear (fun i => m.getLsbD i) (fun i => tableAddr sl i 0) 8192 _ _ ht⟩

theorem State.memWf_dropQ (s : State) (h : s.memWf = true) : s.dropQ.memWf = true := by
  grind [State.dropQ, State.memWf]

theorem State.memWf_noteRetired (s : State) (h : s.memWf = true) : s.noteRetired.memWf = true := by
  grind [State.noteRetired, State.memWf_raiseEvent, State.memWf]

theorem State.memWf_settleLanes (s : State) (h : s.memWf = true) : s.settleLanes.memWf = true := by
  grind [State.settleLanes, State.memWf_noteRetired, State.memWf]

theorem State.memWf_freeSlot (s : State) (sl : Slot) (h : s.memWf = true) : (s.freeSlot sl).memWf = true := by
  grind [State.freeSlot, State.memWf_discard, State.memWf_clearTables, State.memWf_setTh, State.memWf_settleLanes, State.memWf_dropQ, State.memWf]

theorem State.memWf_reportPost (s : State) (sl : Slot) (h : s.memWf = true) : (s.reportPost sl).memWf = true := by
  unfold State.reportPost
  extract_lets t causes s1
  have h1 : s1.memWf = true := State.memWf_foldl _ (fun s c hs => State.memWf_reportFault s _ _ _ hs) causes s h
  exact State.memWf_congr h1 rfl rfl rfl

theorem State.memWf_leave (s : State) (sl : Slot) (h : s.memWf = true) : (s.leave sl).memWf = true := by
  grind [State.leave, State.memWf_reportPost, State.memWf_setParty, State.memWf_freeSlot, State.memWf_poolsExit, State.memWf_barExits, State.memWf]

/-! ## Post areas, the launch list and watch entries -/

theorem State.memWf_completeTask (s : State) (ctx : BitVec 12) (va : Word) (f : TaskRec) (h : s.memWf = true) :
    (s.completeTask ctx va f).memWf = true := by
  grind [State.completeTask, State.memWf_putTaskState, State.memWf_innAdd, State.memWf]

theorem State.memWf_refuseTask (s : State) (ctx : BitVec 12) (va : Word) (st : Nat) (cause : BitVec 8) (h : s.memWf = true) :
    (s.refuseTask ctx va st cause).memWf = true := by
  grind [State.refuseTask, State.memWf_raiseEvent, State.memWf_putTaskState, State.memWf_putTaskFault, State.memWf]

theorem State.memWf_dispatch (s : State) (ctx : BitVec 12) (va wctr : Word) (h : s.memWf = true) : (s.dispatch ctx va wctr).memWf = true := by
  unfold State.dispatch
  extract_lets f
  split
  · exact State.memWf_refuseTask s _ _ _ _ h
  split
  · exact State.memWf_refuseTask s _ _ _ _ h
  · have h1 := State.memWf_putTaskState s ctx va 2 h
    have h2 := State.memWf_ite (c := f.indirect) (State.memWf_innSeen _ ctx false f.pcount.toNat 4 h1) h1
    have h3 := State.memWf_ite (c := f.poolt = 0) h2 (State.memWf_innSeen _ ctx false f.poolt.toNat 64 h2)
    exact State.memWf_ite (State.memWf_completeTask _ _ _ _ h3) (State.memWf_congr h3 rfl rfl rfl)

theorem State.memWf_joinWatch (s : State) (pa : Nat) (r : WaitRec) (h : s.memWf = true) : (s.joinWatch pa r).1.memWf = true := by
  grind [State.joinWatch, State.memWf]

theorem State.memWf_readWatch (s : State) (pa : Nat) (h : s.memWf = true) : (s.readWatch pa).memWf = true := by
  unfold State.readWatch
  split
  · exact h
  · next w _ =>
    extract_lets s1 v
    have h1 : s1.memWf = true := by
      dsimp only [s1]
      split
      · exact State.memWf_innSeen s _ _ _ _ h
      · exact h
    clear_value v
    split
    · exact h1
    · exact State.memWf_foldl _ (fun s r hs => State.memWf_dispatch s _ _ _ hs) _ _ h1

theorem State.memWf_promoteFirst (s : State) (h : s.memWf = true) : AllWf s.promoteFirst := by
  refine .findSome (fun r => ?_) _
  split
  · exact .none
  · next pa _ =>
    have hj := State.memWf_joinWatch s pa r h
    split
    · next t ht =>
      rw [ht] at hj
      exact .some (State.memWf_readWatch _ pa hj)
    · exact .none

theorem State.memWf_promoteUpTo (s : State) (n : Nat) (h : s.memWf = true) : (s.promoteUpTo n).memWf = true := by
  induction n generalizing s with
  | zero => exact h
  | succ n ih =>
    unfold State.promoteUpTo
    split
    · next t ht => exact ih t (State.memWf_promoteFirst s h t ht)
    · exact h

theorem State.memWf_promote (s : State) (h : s.memWf = true) : s.promote.memWf = true := State.memWf_promoteUpTo s _ h

theorem State.memWf_takeRecord (s : State) (ctx : BitVec 12) (va : Word) (h : s.memWf = true) : (s.takeRecord ctx va).memWf = true := by
  grind [State.takeRecord, State.memWf_innSeen, State.memWf_dispatch, State.memWf_putTaskState, State.memWf_joinWatch, State.memWf_promote,
    State.memWf_readWatch, State.memWf]

theorem State.memWf_watchCounterRead (s : State) (entry : Nat) (h : s.memWf = true) : AllWf (s.watchCounterRead entry) := by
  grind [State.watchCounterRead, State.memWf_promote, State.memWf_readWatch, AllWf, State.memWf]

theorem State.memWf_takeFrom (s : State) (k : Nat) (a : PostArea) (n : Nat) (h : s.memWf = true) : (s.takeFrom k a n).memWf = true := by
  induction n generalizing s a with
  | zero => exact h
  | succ n ih =>
    unfold State.takeFrom
    extract_lets next s1
    split
    · exact h
    split
    · exact State.memWf_ite (s := s) h (State.memWf_raiseEvent s _ _ h)
    · exact ih _ _ (State.memWf_takeRecord s _ _ h)

theorem State.memWf_postAreaTake (s : State) (k : Nat) (h : s.memWf = true) : AllWf (s.postAreaTake k) := by
  unfold State.postAreaTake
  split
  · exact .none
  split
  · exact .none
  split
  · exact .none
  · refine .some (State.memWf_takeFrom _ _ _ _ ?_)
    split
    · exact h
    · exact State.memWf_innSeen s _ _ _ _ h

theorem State.memWf_launchListTake (s : State) (h : s.memWf = true) : AllWf s.launchListTake := by
  grind [State.launchListTake, State.memWf_takeRecord, AllWf, State.memWf]

/-! ## The operations of a thread on its registers and memory -/

theorem State.memWf_setMe (s : State) (t : Thread) (h : s.memWf = true) : (s.setMe t).memWf = true := by
  grind [State.setMe, State.memWf_setTh, State.memWf]

theorem State.memWf_dropScalar (s : State) (sl : Slot) (h : s.memWf = true) : (s.dropScalar sl).memWf = true := by
  grind [State.dropScalar, State.memWf]

theorem State.memWf_stalledMe (s : State) (h : s.memWf = true) : s.stalledMe.memWf = true := by
  grind [State.stalledMe, State.memWf_setMe, State.memWf]

theorem State.memWf_dropReq (s : State) (id : Nat) (h : s.memWf = true) : (s.dropReq id).memWf = true := by
  grind [State.dropReq, State.memWf]

theorem State.memWf_sysReleaseFor (s : State) (ctx : BitVec 12) (h : s.memWf = true) : (s.sysReleaseFor ctx).1.memWf = true := by
  have h1 := State.memWf_releaseLines s h
  unfold State.sysReleaseFor
  extract_lets s1 hosts rest
  split
  · exact State.memWf_foldl _ (fun s _ hs => State.memWf_sendTo s _ _ _ _ _ _ _ hs) _ rest h1
  split
  · exact h1
  · exact h1

theorem State.memWf_sysRelease (s : State) (h : s.memWf = true) : s.sysRelease.1.memWf = true := by
  grind [State.sysRelease, State.memWf_sysReleaseFor, State.memWf]

theorem State.memWf_winCheck (s : State) (t : Thread) (va n : Nat) (h : s.memWf = true) : (s.winCheck t va n).Wf := by
  simp only [State.winCheck]
  split
  · exact h
  split
  · exact h
  · exact h

theorem State.memWf_scalarCheck (s : State) (t : Thread) (k : AccKind) (va : Word) (n : Nat) (h : s.memWf = true) : (s.scalarCheck t k va n).Wf := by
  grind [State.scalarCheck, State.memWf_winCheck, State.memWf_xlate, Acc.Wf, Xl.Wf, State.memWf]

theorem State.memWf_remote (s : State) (sl : Slot) (pa : Nat) (op : BusOp) (va : Nat) (h : s.memWf = true) : (s.remote sl pa op va).Wf := by
  unfold State.remote
  repeat' split
  all_goals exact h

theorem State.memWf_readNow (s : State) (sl : Slot) (locs : List Loc) (leaf : Option Leaf) (va : Word) (h : s.memWf = true) :
    (s.readNow sl locs leaf va).Wf := by
  unfold State.readNow
  extract_lets s1
  have h1 : s1.memWf = true := by
    dsimp only [s1]
    split
    · exact State.memWf_touch s _ _ h
    · exact h
  clear_value s1
  split
  · next pa k _ _ =>
    have hr := State.memWf_remote s1 sl pa (.read k) va.toNat h1
    split
    · next hd => rwa [hd] at hr
    · exact hr
  · next pa _ _ =>
    have hf := State.memWf_fillLine s1 (pa / 64) h1
    split
    · dsimp only
      split
      · exact hf
      · exact hf
    · split
      · exact h1
      · exact h1
  · split
    · exact h1
    · exact h1

theorem State.memWf_dropEarly (s : State) (sl : Slot) (locs : List Loc) (h : s.memWf = true) : (s.dropEarly sl locs).memWf = true := by
  grind [State.dropEarly, State.memWf_setTh, State.memWf]

theorem State.memWf_forgetEarly (s : State) (sl : Slot) (h : s.memWf = true) : (s.forgetEarly sl).memWf = true := by
  grind [State.forgetEarly, State.memWf_setTh, State.memWf]

theorem State.memWf_readEarly (s : State) (sl : Slot) (vec : Bool) (a : Nat) (h : s.memWf = true) : AllWf (s.readEarly sl vec a) := by
  unfold State.readEarly
  extract_lets t who
  split
  · next l _ _ =>
    extract_lets locs s1 s2 bytes e
    have h1 : s1.memWf = true := State.memWf_ite (State.memWf_tlbPut s _ _ l h) h
    clear_value s1
    have h2 : s2.memWf = true := by
      dsimp only [s2]
      split
      · exact State.memWf_foldl _ State.memWf_recallLoc _ s1 h1
      split
      · exact State.memWf_fillLine s1 _ h1
      · exact h1
    exact .ite .none (.ite .none (.ite .none (.ite .none (.some h2))))
  · exact .none

theorem State.memWf_load (s : State) (sl : Slot) (t : Thread) (va : Word) (n : Nat) (h : s.memWf = true) : (s.load sl t va n).Wf := by
  grind [State.load, State.memWf_scalarCheck, State.memWf_readNow, State.memWf_dropEarly, Access.Wf, Acc.Wf, State.memWf]

theorem State.memWf_storeLocs (s : State) (ctx : BitVec 12) (locs : List Loc) (cached : Bool) (bs : List Byte) (h : s.memWf = true) :
    (s.storeLocs ctx locs cached bs).memWf = true := by
  grind [State.storeLocs, State.memWf_writeBytes, State.memWf_lineWrite, State.memWf_putLocs, State.memWf]

theorem State.memWf_noteCopy (s : State) (leaf : Nat) (h : s.memWf = true) : (s.noteCopy leaf).memWf = true := by
  grind [State.noteCopy, State.memWf_setMe, State.memWf]

theorem State.memWf_storeCheck (s : State) (t : Thread) (va : Word) (n : Nat) (h : s.memWf = true) : (s.storeCheck t va n).Wf := by
  grind [State.storeCheck, State.memWf_scalarCheck, State.memWf_cowStart, State.memWf_noteCopy, Acc.Wf, CowRes.Wf, State.memWf]

theorem State.memWf_store (s : State) (t : Thread) (va : Word) (n : Nat) (v : Word) (h : s.memWf = true) : (s.store t va n v).Wf := by
  grind [State.store, State.memWf_storeCheck, State.memWf_touch, State.memWf_storeLocs, Access.Wf, Acc.Wf, State.memWf]

theorem State.memWf_homeAtomic (s : State) (op : AmoOp) (wide : Bool) (pa : Nat) (b : Word) (cmp : Word) (h : s.memWf = true) :
    (s.homeAtomic op wide pa b cmp).1.memWf = true := by
  grind [State.homeAtomic, State.memWf_putHomeNat, State.memWf_recall, State.memWf]

theorem State.memWf_lineAtomic (s : State) (op : AmoOp) (wide : Bool) (pa : Nat) (b : Word) (cmp : Word) (h : s.memWf = true) :
    (s.lineAtomic op wide pa b cmp).1.memWf = true := by
  grind [State.lineAtomic, State.memWf_fillLine, State.memWf_lineWrite, State.memWf]

theorem State.memWf_enqueue (s : State) (va : Nat) (locs : List Loc) (leaf : Option Leaf) (op : QOp) (h : s.memWf = true) :
    (s.enqueue va locs leaf op).memWf = true := by
  grind [State.enqueue, State.memWf_setMe, State.memWf]

theorem State.memWf_performQueued (s : State) (sl : Slot) (q : Queued) (h : s.memWf = true) : (s.performQueued sl q).memWf = true := by
  grind [State.performQueued, State.memWf_storeLocs, State.memWf_fillLine, State.memWf_dropEarly, State.memWf_setTh, State.memWf_lineAtomic,
    State.memWf_homeAtomic, State.memWf_putHomeNat, State.memWf_acquireLines, State.memWf_releaseLines, State.memWf_forgetEarly, State.memWf]

theorem State.memWf_queueEvent (s : State) (sl : Slot) (k : Nat) (h : s.memWf = true) : AllWf (s.queueEvent sl k) := by
  grind [State.queueEvent, State.memWf_performQueued, State.memWf_setTh, AllWf, State.memWf]

theorem State.memWf_queueNext (s : State) (sl : Slot) (h : s.memWf = true) : AllWf (s.queueNext sl) :=
  .findSome (fun k => State.memWf_queueEvent s sl k h) _

theorem State.memWf_drainQueue (s : State) (sl : Slot) (h : s.memWf = true) : (s.drainQueue sl).memWf = true :=
  State.memWf_foldl _ (fun s _ hs => (State.memWf_queueNext s sl hs).getD hs) _ s h

theorem State.memWf_acquireStep (s : State) (sl : Slot) (h : s.memWf = true) : (s.acquireStep sl).memWf = true := by
  grind [State.acquireStep, State.memWf_forgetEarly, State.memWf_acquireLines, State.memWf]

theorem State.memWf_dropWords (s : State) (ctx : BitVec 12) (h : s.memWf = true) : (s.dropWords ctx).memWf = true := by
  grind [State.dropWords, State.memWf]

theorem State.memWf_putWord (s : State) (ctx : BitVec 12) (va : Nat) (w : Insn) (h : s.memWf = true) : (s.putWord ctx va w).memWf = true := by
  grind [State.putWord, State.memWf]

theorem State.memWf_holdWord (s : State) (ctx : BitVec 12) (va : Nat) (w : Insn) (h : s.memWf = true) : (s.holdWord ctx va w).1.memWf = true := by
  grind [State.holdWord, State.memWf_putWord, State.memWf]

theorem State.memWf_fetchWord (s : State) (ctx : BitVec 12) (a : Nat) (locs : List Loc) (h : s.memWf = true) : (s.fetchWord ctx a locs).Wf := by
  grind [State.fetchWord, State.memWf_holdWord, Fetched.Wf, State.memWf]

theorem State.memWf_fetchRemote (s : State) (ctx : BitVec 12) (a : Nat) (pa : Nat) (n : Nat) (h : s.memWf = true) :
    (s.fetchRemote ctx a pa n).Wf := by
  grind [State.fetchRemote, State.memWf_putWord, State.memWf_dropReq, State.memWf_send, Fetched.Wf, State.memWf]

theorem State.memWf_fetch (s : State) (t : Thread) (va : Word) (h : s.memWf = true) : (s.fetch t va).Wf := by
  grind [State.fetch, State.memWf_winCheck, State.memWf_fetchWord, State.memWf_xlate, State.memWf_touch, State.memWf_fetchRemote, Fetched.Wf,
    Acc.Wf, Xl.Wf, State.memWf]

theorem State.memWf_dropVpReqs (s : State) (sl : Slot) (h : s.memWf = true) : (s.dropVpReqs sl).memWf = true := by
  grind [State.dropVpReqs, State.memWf]

theorem State.memWf_enterSupervisor (s : State) (sl : Slot) (i : TrapInfo) (entry : Word) (h : s.memWf = true) :
    (s.enterSupervisor sl i entry).memWf = true := by
  grind [State.enterSupervisor, State.memWf_setTh, State.memWf_dropVpReqs, State.memWf]

theorem State.memWf_endThread (s : State) (sl : Slot) (cause : BitVec 8) (h : s.memWf = true) : (s.endThread sl cause).memWf = true := by
  grind [State.endThread, State.memWf_leave, State.memWf_reportFault, State.memWf]

theorem State.memWf_parkReqs (s : State) (sl : Slot) (h : s.memWf = true) : (s.parkReqs sl).memWf = true := by
  grind [State.parkReqs, State.memWf]

theorem State.memWf_abortTask (s : State) (k : Task) (h : s.memWf = true) : (s.abortTask k).memWf = true := by
  grind [State.abortTask, State.memWf_freeSlot, State.memWf_releaseLines, State.memWf_drainQueue, State.memWf_parkReqs, State.memWf_putTaskState,
    State.memWf]

theorem State.memWf_endCtx (s : State) (ctx : BitVec 12) (h : s.memWf = true) : (s.endCtx ctx).memWf = true := by
  unfold State.endCtx
  extract_lets s1 recs s2
  have h1 : s1.memWf = true := State.memWf_foldl _ State.memWf_abortTask _ s h
  have h2 : s2.memWf = true := State.memWf_foldl _ (fun s va hs => State.memWf_putTaskState s ctx va 7 hs) _ s1 h1
  clear_value s2
  exact State.memWf_promote _ (State.memWf_congr h2 rfl rfl rfl)

theorem State.memWf_takeTrap (s : State) (sl : Slot) (i : TrapInfo) (h : s.memWf = true) : (s.takeTrap sl i).memWf = true := by
  grind [State.takeTrap, State.memWf_drainQueue, State.memWf_dropScalar, State.memWf_addUe, State.memWf_endThread, State.memWf_enterSupervisor,
    State.memWf_endCtx, State.memWf]

/-! ## The sticky status of a thread -/

theorem State.memWf_raise (s : State) (sl : Slot) (fl : BitVec 5) (vs : BitVec 3) (h : s.memWf = true) : (s.raise sl fl vs).memWf = true := by
  grind [State.raise, State.memWf_setTh, State.memWf]

theorem State.memWf_countVoid (s : State) (sl : Slot) (h : s.memWf = true) : (s.countVoid sl).memWf = true := by
  grind [State.countVoid, State.memWf_setTh, State.memWf]

theorem State.memWf_countDropped (s : State) (h : s.memWf = true) : s.countDropped.memWf = true := by
  grind [State.countDropped, State.memWf]

/-! ## Firing, carries and retirement -/

theorem State.memWf_fire (s : State) (sl : Slot) (rid : Nat) (i : Nat) (a : Act) (h : s.memWf = true) : (s.fire sl rid i a).memWf = true := by
  grind [State.fire, State.memWf_setTh, State.memWf_countVoid, State.memWf]

theorem State.memWf_elementFire (s : State) (sl : Slot) (lane : Fin 64) (cls : FClass) (h : s.memWf = true) :
    AllWf (s.elementFire sl lane cls) := by
  unfold State.elementFire
  extract_lets t ready
  split
  · exact .none
  split
  · exact .none
  · exact .some (State.memWf_foldl _ (fun s p hs => State.memWf_fire s _ _ _ _ hs) _ s h)

theorem State.memWf_carryRule (s : State) (sl : Slot) (lane : Nat) (r : Rule) (h : s.memWf = true) : AllWf (s.carryRule sl lane r) := by
  unfold State.carryRule
  extract_lets t
  split
  · dsimp only
    split
    · exact .map (fun _ _ => h)
    · exact .some h
  · split
    · exact .none
    · exact .some (State.memWf_foldl _ (fun s p hs => State.memWf_fire s _ _ _ _ hs) _ s h)

theorem State.memWf_carrySeg (s : State) (sl : Slot) (lane : Nat) (c : SegCarry) (h : s.memWf = true) : AllWf (s.carrySeg sl lane c) := by
  grind [State.carrySeg, State.memWf_setTh, AllWf, State.memWf]

theorem State.memWf_carryCopy (s : State) (sl : Slot) (lane : Fin 64) (h : s.memWf = true) : AllWf (s.carryCopy sl lane) := by
  unfold State.carryCopy
  extract_lets t
  split
  · exact .none
  split
  · next ht =>
    refine .some (AllWf.findSome (fun a => ?_) _ _ ht)
    split
    · exact State.memWf_carrySeg s _ _ _ h
    · exact State.memWf_carryRule s _ _ _ h
    · exact .none
  split
  · exact .some h
  · exact .none

theorem State.memWf_dataLanding (s : State) (sl : Slot) (pos : Nat) (e : Nat) (h : s.memWf = true) : AllWf (s.dataLanding sl pos e) := by
  grind [State.dataLanding, State.memWf_fire, AllWf, State.memWf]

theorem State.memWf_mrdRead (s : State) (sl : Slot) (l : List Rule) (h : s.memWf = true) : (s.mrdRead sl l).memWf = true := by
  grind [State.mrdRead, State.memWf]

theorem State.memWf_retire (s : State) (sl : Slot) (h : s.memWf = true) : AllWf (s.retire sl) := by
  grind [State.retire, State.memWf_setTh, State.memWf_mrdRead, AllWf, State.memWf]

theorem State.memWf_registerFree (s : State) (sl : Slot) (pred : Bool) (p : Nat) (h : s.memWf = true) : AllWf (s.registerFree sl pred p) := by
  grind [State.registerFree, State.memWf_setTh, AllWf, State.memWf]

/-! ## Element accesses of vector memory rules -/

theorem State.memWf_checkPage (s : State) (t : Thread) (k : ElKind) (a : Nat) (n : Nat) (h : s.memWf = true) :
    (s.checkPage t k a n).1.memWf = true := by
  grind [State.checkPage, State.memWf_xlate, Xl.Wf, State.memWf]

theorem State.memWf_checkElem (s : State) (t : Thread) (k : ElKind) (va n : Nat) (h : s.memWf = true) : (s.checkElem t k va n).Wf := by
  have hpage {s : State} (h : s.memWf = true) (a n : Nat) := State.memWf_checkPage s t k a n h
  unfold State.checkElem
  split
  · trivial
  split
  · trivial
  · trivial
  split
  · trivial
  split
  · exact h
  · next a0 _ =>
    dsimp only
    split
    · trivial
    · trivial
    · next s1 l0 h1 =>
      replace h1 : s1.memWf = true := State.memWf_of_fst h1 (hpage h a0 _)
      split
      · split
        · exact h1
        · exact h1
      · next a1 _ =>
        split
        · trivial
        · trivial
        · next s2 l1 h2 =>
          replace h2 : s2.memWf = true := State.memWf_of_fst h2 (hpage h1 a1 _)
          split
          · trivial
          split
          · exact h2
          · exact h2

theorem State.memWf_remoteRead (s : State) (ctx : BitVec 12) (who : ReqFor) (runs : List (Nat × Nat)) (h : s.memWf = true) :
    (s.remoteRead ctx who runs).Wf := by
  unfold State.remoteRead
  split
  · trivial
  dsimp only
  split
  · exact State.memWf_foldl _ (fun s p hs => State.memWf_sendRead s _ _ _ _ hs) _ s h
  split
  · trivial
  · exact h

theorem State.memWf_cowAll (s : State) (l : List (Leaf × Nat)) (h : s.memWf = true) : (s.cowAll l).Wf := by
  induction l with
  | nil => trivial
  | cons x l ih =>
    have hc := State.memWf_cowStart s x.1 h
    unfold State.cowAll
    split
    · exact ih
    · next hw =>
      rw [hw] at hc
      split
      · trivial
      · exact hc
    · trivial

theorem State.memWf_touchAll (s : State) (leaves : List (Leaf × Nat)) (write : Bool) (h : s.memWf = true) :
    (s.touchAll leaves write).memWf = true :=
  State.memWf_foldl _ (fun s l hs => State.memWf_touch s l.1 write hs) leaves s h

theorem State.memWf_recallAll (s : State) (locs : List Loc) (h : s.memWf = true) : (s.recallAll locs).memWf = true :=
  State.memWf_foldl _ State.memWf_recallLoc locs s h

theorem State.memWf_setRule (s : State) (sl : Slot) (r : Rule) (h : s.memWf = true) : (s.setRule sl r).memWf = true := by
  grind [State.setRule, State.memWf_setTh, State.memWf]

theorem State.memWf_trim (s : State) (sl : Slot) (r : Rule) (e : Nat) (h : s.memWf = true) : (s.trim sl r e).memWf = true := by
  grind [State.trim, State.memWf_setTh, State.memWf]

theorem State.memWf_settleM0 (s : State) (sl : Slot) (r : Rule) (i : Nat) (b : Bool) (h : s.memWf = true) : (s.settleM0 sl r i b).memWf = true := by
  grind [State.settleM0, State.memWf_setTh, State.memWf]

theorem State.memWf_addFlight (s : State) (sl : Slot) (r : Rule) (i : Nat) (bits : Nat) (lost : Bool) (h : s.memWf = true) :
    (s.addFlight sl r i bits lost).memWf = true := by
  grind [State.addFlight, State.memWf_setRule, State.memWf]

theorem State.memWf_storeDone (s : State) (sl : Slot) (r : Rule) (i : Nat) (fl : BitVec 5) (vs : BitVec 3) (h : s.memWf = true) :
    (s.storeDone sl r i fl vs).memWf = true := by
  grind [State.storeDone, State.memWf_raise, State.memWf_setRule, State.memWf]

theorem State.memWf_loadBytes (s : State) (sl : Slot) (r : Rule) (locs : List Loc) (h : s.memWf = true) : (s.loadBytes sl r locs).1.memWf = true := by
  grind [State.loadBytes, State.memWf]

theorem State.memWf_performElem (s : State) (sl : Slot) (r : Rule) (m : MemSpec) (i : Nat) (locs : List Loc) (leaves : List (Leaf × Nat))
    (h : s.memWf = true) : AllWf (s.performElem sl r m i locs leaves) := by
  unfold State.performElem
  extract_lets t who runs s1
  have h1 : s1.memWf = true := State.memWf_settleM0 _ _ _ _ _ (State.memWf_touchAll s leaves m.writes h)
  have h2 : (s1.dropEarly sl locs).memWf = true := State.memWf_dropEarly s1 sl locs h1
  clear_value s1
  split
  · exact .none
  split
  · have h3 (bs : List Byte) := State.memWf_writeBytes _ t.ctx who locs bs (State.memWf_recallAll _ locs h2)
    exact .some (State.memWf_ite (h3 _) (State.memWf_storeDone _ _ _ _ _ _ (h3 _)))
  · dsimp only
    split
    · exact .some (State.memWf_send _ _ _ _ _ _ h2)
    · exact .some (State.memWf_addFlight _ _ _ _ _ _ (State.memWf_homeAtomic _ _ _ _ _ _ h2))
    · exact .none
  · split
    · exact .some (State.memWf_addFlight _ _ _ _ _ _ (State.memWf_dropEarly _ _ _
        (State.memWf_loadBytes _ _ _ _ (State.memWf_recallAll s1 locs h1))))
    · exact .some (State.memWf_foldl _ (fun s p hs => State.memWf_sendRead s _ _ _ _ hs) runs s1 h1)

theorem State.memWf_elementReply (s : State) (sl : Slot) (r : Rule) (m : MemSpec) (i : Nat) (h : s.memWf = true) :
    AllWf (s.elementReply sl r m i) := by
  grind [State.elementReply, State.memWf_storeDone, State.memWf_addFlight, AllWf, State.memWf]

theorem State.memWf_elemFault (s : State) (sl : Slot) (r : Rule) (m : MemSpec) (i : Nat) (va : Word) (c : BitVec 8) (a : Nat)
    (h : s.memWf = true) : (s.elemFault sl r m i va c a).memWf = true := by
  grind [State.elemFault, State.memWf_setRule, State.memWf_trim, State.memWf]

theorem State.memWf_memAccess (s : State) (sl : Slot) (r : Rule) (m : MemSpec) (i : Nat) (va : Word) (h : s.memWf = true) :
    AllWf (s.memAccess sl r m i va) := by
  grind [State.memAccess, State.memWf_checkElem, State.memWf_elemFault, State.memWf_settleM0, State.memWf_cowAll, State.memWf_performElem, AllWf,
    ElAcc.Wf, CowAll.Wf, State.memWf]

/-- Writing bytes of the lane tables keeps their form. -/
theorem State.memWf_setTables (s : State) (a : Nat) (bs : List Byte) (l : List Nat) (h : s.memWf = true) :
    State.memWf { s with tables := Memory.setList s.tables a bs, ltPoison := l } = true := by
  rw [State.memWf_iff] at h ⊢
  obtain ⟨hm, hs, ht⟩ := h
  exact ⟨hm, hs, Memory.wf_setList bs s.tables a ht⟩

theorem State.memWf_laneAccess (s : State) (sl : Slot) (r : Rule) (m : MemSpec) (i : Nat) (o : Word) (h : s.memWf = true) :
    (s.laneAccess sl r m i o).memWf = true := by
  unfold State.laneAccess
  extract_lets t w
  split
  · exact h
  split
  · exact State.memWf_setTables _ _ _ _ (State.memWf_storeDone s sl r i 0 0 h)
  · exact State.memWf_addFlight s _ _ _ _ _ h

theorem State.memWf_tblbAccess (s : State) (sl : Slot) (r : Rule) (h : s.memWf = true) : AllWf (s.tblbAccess sl r) := by
  unfold State.tblbAccess
  extract_lets t n off busy before meets held
  split
  · exact .none
  split
  · exact .some h
  · exact .some (State.memWf_foldl _ (fun s k hs => State.memWf_setTables s _ _ _ hs) _ _ h)

theorem State.memWf_walkRead (s : State) (sl : Slot) (r : Rule) (va : Nat) (h : s.memWf = true) : (s.walkRead sl r va).1.memWf = true := by
  grind [State.walkRead, State.memWf_checkElem, State.memWf_touchAll, State.memWf_recallAll, State.memWf_addUe, State.memWf_sendRead, ElAcc.Wf,
    State.memWf]

theorem memWf_walkWord (sl : Slot) (r : Rule) (bases : List Nat) (c e nmax d w : Nat) (st : WalkSt) (h : st.s.memWf = true) :
    (walkWord sl r bases c e nmax d w st).s.memWf = true := by
  induction d generalizing w st with
  | zero =>
    unfold walkWord
    split
    · exact h
    dsimp only
    have hr := State.memWf_walkRead st.s sl r (listGet 0 bases (bases.length - 1 - 0) + 8 * w) h
    split
    · exact hr
    · refine List.foldlRecOn (motive := fun (st : WalkSt) => st.s.memWf = true) _ _ hr (fun st hs b _ => ?_)
      split
      · exact hs
      · exact hs
  | succ d ih =>
    unfold walkWord
    split
    · exact h
    dsimp only
    have hr := State.memWf_walkRead st.s sl r (listGet 0 bases (bases.length - 1 - (d + 1)) + 8 * w) h
    split
    · exact hr
    · refine List.foldlRecOn (motive := fun (st : WalkSt) => st.s.memWf = true) _ _ hr (fun st hs b _ => ?_)
      split
      · exact ih _ st hs
      · exact hs

theorem State.memWf_walkDone (s : State) (sl : Slot) (r : Rule) (width : Nat) (ps : List Nat) (cur : Word) (h : s.memWf = true) :
    (s.walkDone sl r width ps cur).memWf = true := by
  grind [State.walkDone, State.memWf_setTh, State.memWf]

/-- The words of a descriptor are read one after another. -/
theorem State.memWf_foldl_walkRead {β : Type} {f : State × β → Nat → State × β} (hf : ∀ a k, f a k = a ∨ (∃ sl r va, (f a k).1 = (a.1.walkRead sl
    r va).1))
    (l : List Nat) (a : State × β) (h : a.1.memWf = true) : (l.foldl f a).1.memWf = true := by
  refine List.foldlRecOn (motive := fun (a : State × β) => a.1.memWf = true) _ _ h (fun a ha k _ => ?_)
  rcases hf a k with he | ⟨sl, r, va, he⟩
  · rwa [he]
  · rw [he]
    exact State.memWf_walkRead a.1 sl r va ha

theorem State.memWf_cwalkAccess (s : State) (sl : Slot) (r : Rule) (h : s.memWf = true) : AllWf (s.cwalkAccess sl r) := by
  have h1 := State.memWf_walkRead s sl r r.count h
  unfold State.cwalkAccess
  extract_lets t older busy nmax errs
  split
  · exact .none
  split
  · exact .some (State.memWf_walkDone s _ _ _ _ _ h)
  split
  · exact .some h
  split
  · exact .none
  · next hw => rw [hw] at h1; exact .some h1
  · next hw => rw [hw] at h1; exact .some h1
  · next hw =>
    rw [hw] at h1
    dsimp only
    generalize hr : List.foldl _ _ _ = a
    have h2 : a.1.memWf = true := by
      rw [← hr]
      refine State.memWf_foldl_walkRead (fun a k => ?_) _ _ h1
      split
      · exact .inl rfl
      · exact .inr ⟨_, _, _, rfl⟩
    obtain ⟨s2, fin, bases⟩ := a
    dsimp only at h2 ⊢
    split
    · exact .none
    · exact .some h2
    · exact .some h2
    split
    · exact .some h2
    split
    · exact .some (State.memWf_walkDone _ _ _ _ _ _ h2)
    generalize hw : walkWord _ _ _ _ _ _ _ _ _ = w
    have h3 : w.s.memWf = true := by
      rw [← hw]
      exact memWf_walkWord _ _ _ _ _ _ _ _ _ h2
    split
    · exact .none
    · exact .some h3
    · exact .some h3
    · exact .some (State.memWf_walkDone _ _ _ _ _ _ h3)
    · exact .some (State.memWf_walkDone _ _ _ _ _ _ h3)

theorem State.memWf_porterAccess (s : State) (sl : Slot) (pos e : Nat) (h : s.memWf = true) : AllWf (s.porterAccess sl pos e) := by
  unfold State.porterAccess
  refine .ite .none ?_
  split
  · exact .some h
  · exact State.memWf_queueEvent s sl _ h
  · exact .map (fun _ _ => h)
  · exact .some h
  · exact State.memWf_readEarly s sl _ _ h

theorem State.memWf_elementAccess (s : State) (sl : Slot) (pos e : Nat) (h : s.memWf = true) : AllWf (s.elementAccess sl pos e) := by
  unfold State.elementAccess
  refine .ite (State.memWf_porterAccess s sl pos e h) (.ite .none ?_)
  cases (s.th sl).vec.window[pos]? with
  | none => exact .none
  | some r =>
    dsimp only
    generalize r.spec.kind = kind
    cases kind with
    | mem m =>
      refine .ite (State.memWf_elementReply s _ _ _ _ h) ?_
      split
      · exact .none
      · exact .ite (.some (State.memWf_laneAccess s _ _ _ _ _ h)) (State.memWf_memAccess s _ _ _ _ _ h)
    | tblb d => exact .ite (State.memWf_tblbAccess s _ _ h) .none
    | cwalk d => exact .ite (State.memWf_cwalkAccess s _ _ h) .none
    | _ => exact .none

/-! ## Virtual processors -/

theorem State.memWf_readHeader (s : State) (t : Thread) (a : Word) (h : s.memWf = true) : (s.readHeader t a).Wf := by
  grind [State.readHeader, State.memWf_fetch, Header.Wf, Fetched.Wf, State.memWf]

theorem State.memWf_vpTake (s : State) (sl : Slot) (t : Thread) (p : Vp) (o : VpOp) (r : Rule) (sp : RuleSpec) (access : Bool)
    (h : s.memWf = true) : (s.vpTake sl t p o r sp access).memWf = true := by
  grind [State.vpTake, State.memWf_setTh, State.memWf]

theorem State.memWf_vpFault (s : State) (sl : Slot) (vr : Rule) (p : Vp) (o : VpOp) (c : BitVec 8) (a : Nat) (h : s.memWf = true) :
    (s.vpFault sl vr p o c a).memWf = true := by
  grind [State.vpFault, State.memWf_setTh, State.memWf_setRule, State.memWf]

theorem State.memWf_vpRule (s : State) (sl : Slot) (f : Vpf) (vr : Rule) (p : Vp) (o : VpOp) (sp : RuleSpec) (h : s.memWf = true) :
    AllWf (s.vpRule sl f vr p o sp) := by
  have take {u : State} (hu : u.memWf = true) (t : Thread) (r : Rule) (access : Bool) : AllWf (some (u.vpTake sl t p o r sp access)) :=
    .some (State.memWf_vpTake u sl t p o r sp access hu)
  have fire {u : State} (hu : u.memWf = true) (r : Nat) (a : Act) : (u.fire sl r p.idx a).memWf = true :=
    State.memWf_fire u sl r p.idx a hu
  unfold State.vpRule
  refine .ite .none ?_
  split
  · exact .none
  next w _ =>
  have h1 : (s.setTh sl w.u).memWf = true := h
  refine .ite .none (.ite (take (fire h1 _ _) _ _ _) ?_)
  split
  · exact take h1 _ _ _
  · refine .ite .none ?_
    split
    · exact .none
    next s2 h2 =>
    replace h2 := State.memWf_elementAccess _ sl 0 p.idx h1 s2 h2
    split
    · split
      · exact .some (State.memWf_vpFault _ _ _ _ _ _ _ h2)
      refine .ite (take h2 _ _ _) ?_
      split
      · exact .some h2
      · exact take h2 _ _ _
      · exact take (fire h2 _ _) _ _ _
    · exact .none
  · exact .none
  · exact take (fire h1 _ _) _ _ _

theorem State.memWf_vpRun (s : State) (sl : Slot) (i gid : Nat) (h : s.memWf = true) : AllWf (s.vpRun sl i gid) := by
  unfold State.vpRun
  dsimp only
  split
  · exact .none
  split
  · split
    · exact .none
    split
    · exact .none
    · exact State.memWf_vpRule s _ _ _ _ _ _ h
  · exact .none

theorem State.memWf_vpExec (s : State) (sl : Slot) (h : s.memWf = true) : AllWf (s.vpExec sl) := by
  unfold State.vpExec
  split
  · exact .none
  · next f _ =>
    refine .foldl (fun o g ho => .foldl (fun o p ho => ?_) _ o ho) _ none .none
    split
    · next ht => exact .some (State.memWf_vpRun _ sl p.idx g (ho.getD h) _ ht)
    · exact ho

theorem State.memWf_wordFault (s : State) (sl : Slot) (vr : Rule) (ps : List Vp) (c : BitVec 8) (a : Nat) (h : s.memWf = true) :
    AllWf (s.wordFault sl vr ps c a) := by
  grind [State.wordFault, State.memWf_setRule, AllWf, State.memWf]

theorem State.memWf_vpsGo (s : State) (sl : Slot) (ps : List Vp) (f : Vp → Option Vp) (h : s.memWf = true) : AllWf (s.vpsGo sl ps f) := by
  grind [State.vpsGo, State.memWf_setTh, AllWf, State.memWf]

theorem State.memWf_cohortInstr (s : State) (sl : Slot) (f : Vpf) (vr : Rule) (ps : List Vp) (pc : Word) (i : Instr) (h : s.memWf = true) :
    AllWf (s.cohortInstr sl f vr ps pc i) := by
  have hrule : AllWf (match ruleSpec i with
      | none => none
      | some sp =>
        if !inWriteSet f sp then s.wordFault sl vr ps 0x01 pc.toNat
        else if sp.inBlock.overlaps then s.wordFault sl vr ps 0x03 pc.toNat
        else if 24 ≤ (s.th sl).entries then none
        else State.vpsGo { s with seq := s.seq + 1 } sl ps (fun p => some { p.goTo (pc + 4) with ops := p.ops ++ [{ gid := s.seq, instr := i }]
          })) := by
    split
    · exact .none
    · exact .ite (State.memWf_wordFault s _ _ _ _ _ h) (.ite (State.memWf_wordFault s _ _ _ _ _ h)
        (.ite .none (State.memWf_vpsGo _ _ _ _ h)))
  cases i
  case vpbr => exact State.memWf_vpsGo s _ _ _ h
  case vpj => exact State.memWf_vpsGo s _ _ _ h
  case vpstop =>
    unfold State.cohortInstr
    dsimp only
    split
    · exact .none
    · exact .some h
  all_goals exact hrule

theorem State.memWf_cohortStep (s : State) (sl : Slot) (pc : Word) (h : s.memWf = true) : AllWf (s.cohortStep sl pc) := by
  have hf := State.memWf_fetch s (s.th sl) pc h
  unfold State.cohortStep
  dsimp only
  split
  · exact .none
  split
  · exact .none
  refine .ite .none (.ite (State.memWf_wordFault s _ _ _ _ _ h) (.ite (State.memWf_wordFault s _ _ _ _ _ h) ?_))
  split
  · next hw =>
    rw [hw] at hf
    exact .ite .none (.some hf)
  · next hw =>
    rw [hw] at hf
    exact State.memWf_wordFault _ _ _ _ _ _ hf
  · next hw =>
    rw [hw] at hf
    split
    · exact State.memWf_wordFault _ _ _ _ _ _ hf
    · exact .ite (State.memWf_cohortInstr _ _ _ _ _ _ _ hf) (State.memWf_wordFault _ _ _ _ _ _ hf)

/-! ## Window events and traps -/

theorem memWf_sweep {α : Type} {f : State → α → Option State} (hf : ∀ s x, s.memWf = true → AllWf (f s x)) (l : List α) (s : State)
    (h : s.memWf = true) : AllWf (sweep l f s) := by
  refine .foldl (fun o x ho => ?_) l none .none
  split
  · next ht => exact .some (hf _ x (ho.getD h) _ ht)
  · exact ho

theorem State.memWf_ruleEvent (s : State) (sl : Slot) (p : Nat) (e : Nat) (h : s.memWf = true) : AllWf (s.ruleEvent sl p e) := by
  grind [State.ruleEvent, State.memWf_dataLanding, State.memWf_elementAccess, AllWf, State.memWf]

theorem State.memWf_windowEvent (s : State) (sl : Slot) (h : s.memWf = true) : AllWf (s.windowEvent sl) := by
  unfold State.windowEvent
  extract_lets t lanes
  split
  · exact .none
  · refine (State.memWf_retire s sl h).orElse (.orElse ?_ (.orElse ?_ (.orElse ?_ (State.memWf_vpExec s sl h))))
    · exact memWf_sweep (fun s q hs => memWf_sweep (fun s e hs => State.memWf_ruleEvent s _ _ _ hs) _ s hs) _ s h
    · exact memWf_sweep (fun s k hs => memWf_sweep (fun s c hs => State.memWf_elementFire s _ _ _ hs) _ s hs) lanes s h
    · exact memWf_sweep (fun s k hs => State.memWf_carryCopy s _ _ hs) lanes s h

theorem State.memWf_settleWindow (s : State) (sl : Slot) (n : Nat) (h : s.memWf = true) : (s.settleWindow sl n).memWf = true := by
  induction n generalizing s with
  | zero => exact h
  | succ n ih =>
    unfold State.settleWindow
    split
    · next t ht => exact ih t (State.memWf_windowEvent s sl h t ht)
    · exact h

theorem State.memWf_settleSlots (s : State) (p : Thread → Bool) (h : s.memWf = true) : (s.settleSlots p).memWf = true :=
  State.memWf_foldl _ (fun s sl hs => State.memWf_ite (State.memWf_settleWindow s sl _ hs) hs) _ s h

theorem State.memWf_settleFor (s : State) (t : Thread) (h : s.memWf = true) : (s.settleFor t).memWf = true := by
  grind [State.settleFor, State.memWf_settleSlots, State.memWf]

theorem State.memWf_branchResolve (s : State) (sl : Slot) (h : s.memWf = true) : AllWf (s.branchResolve sl) := by
  unfold State.branchResolve
  extract_lets t
  split
  · exact .none
  · refine .findSome (fun r => .ite .none ?_) _
    cases r.spec.kind with
    | compress => exact .ite .none (.some h)
    | mem m =>
      refine .ite .none ?_
      split
      · exact .none
      · exact .some h
    | _ => exact .none

theorem State.memWf_trapEntry (s : State) (sl : Slot) (h : s.memWf = true) : AllWf (s.trapEntry sl) := by
  grind [State.trapEntry, State.memWf_takeTrap, AllWf, State.memWf]

theorem State.memWf_vpCohortIssue (s : State) (sl : Slot) (h : s.memWf = true) : AllWf (s.vpCohortIssue sl) := by
  unfold State.vpCohortIssue
  refine .ite .none ?_
  split
  · exact .none
  · exact .firstStep (fun pc => State.memWf_cohortStep s sl _ h) _

/-! ## Scalar loads, stores, atomics, calls and returns -/

theorem State.memWf_deferLoad (s : State) (t : Thread) (d : BitVec 5) (sgn : Bool) (va : Word) (n : Nat) (h : s.memWf = true) :
    AllWf (s.deferLoad t d sgn va n) := by
  grind [State.deferLoad, State.memWf_scalarCheck, State.memWf_touch, State.memWf_enqueue, AllWf, Acc.Wf, State.memWf]

/-- A write to a page of which a copy is to be made first. -/
theorem State.acc_cowStart {s : State} (h : s.memWf = true) (l : Leaf) (locs : List Loc) (a : Nat) :
    Acc.Wf (match s.cowStart l with
      | .none => .ok s locs (some l)
      | .wait s => .wait s
      | .empty s => .trap s 0x1C a) := by
  have hc := State.memWf_cowStart s l h
  split
  · exact h
  · next hs => rwa [hs] at hc
  · next hs => rwa [hs] at hc

theorem State.memWf_amoCheck (s : State) (t : Thread) (op : AmoOp) (va : Word) (n : Nat) (h : s.memWf = true) : (s.amoCheck t op va n).Wf := by
  have hs := State.memWf_scalarCheck s t .write va n h
  unfold State.amoCheck
  refine .ite h (.ite h (.ite (.ite h h) ?_))
  split
  · next hx =>
    rw [hx] at hs
    exact .ite hs (State.acc_cowStart hs _ _ _)
  · exact hs

theorem State.memWf_release (s : State) (scope : Nat) (h : s.memWf = true) : (s.release scope).1.memWf = true := by
  grind [State.release, State.memWf_sysRelease, State.memWf_releaseLines, State.memWf]

theorem State.memWf_acquire (s : State) (scope : Nat) (h : s.memWf = true) : (s.acquire scope).memWf = true := by
  grind [State.acquire, State.memWf_acquireLines, State.memWf]

/-! ## System instructions -/

theorem State.memWf_markDelivered (s : State) (sl : Slot) (stream : Nat) (h : s.memWf = true) : (s.markDelivered sl stream).memWf = true := by
  grind [State.markDelivered, State.memWf]

theorem State.memWf_deliverEngine (s : State) (sl : Slot) (h : s.memWf = true) : (s.deliverEngine sl).memWf = true := by
  grind [State.deliverEngine, State.memWf_markDelivered, State.memWf_setTh, State.memWf_takeTrap, State.memWf]

theorem State.memWf_engineFaultDelivery (s : State) (sl : Slot) (h : s.memWf = true) : AllWf (s.engineFaultDelivery sl) := by
  grind [State.engineFaultDelivery, State.memWf_deliverEngine, AllWf, State.memWf]

theorem State.memWf_restartStream (s : State) (stream : Nat) (h : s.memWf = true) : (s.restartStream stream).memWf = true := by
  grind [State.restartStream, State.memWf]

theorem State.memWf_seenBinding (s : State) (ctx : BitVec 12) (bind : Nat) (n : Nat) (h : s.memWf = true) :
    (s.seenBinding ctx bind n).memWf = true := by
  grind [State.seenBinding, State.memWf_innSeen, State.memWf]

theorem State.memWf_linkLaunch (s : State) (ctx : BitVec 12) (va : Word) (h : s.memWf = true) : (s.linkLaunch ctx va).memWf = true := by
  grind [State.linkLaunch, State.memWf_innPut, State.memWf]

/-! ## Barriers, work pools and counters -/

theorem State.memWf_wake (s : State) (sl : Slot) (h : s.memWf = true) : AllWf (s.wake sl) := by
  grind [State.wake, State.memWf_setTh, AllWf, State.memWf]

theorem State.memWf_barrierWaitEnd (s : State) (sl : Slot) (h : s.memWf = true) : AllWf (s.barrierWaitEnd sl) := by
  grind [State.barrierWaitEnd, State.memWf_wake, State.memWf_remotePhase, AllWf, State.memWf]

theorem State.memWf_waitcCounterRead (s : State) (sl : Slot) (h : s.memWf = true) : AllWf (s.waitcCounterRead sl) := by
  grind [State.waitcCounterRead, State.memWf_wake, AllWf, State.memWf]

theorem State.memWf_takenAway (s : State) (k : Task) (q : Pool) (h : s.memWf = true) : (s.takenAway k q).1.memWf = true := by
  grind [State.takenAway, State.memWf]

theorem State.memWf_counterCheck (s : State) (t : Thread) (write : Bool) (va : Word) (h : s.memWf = true) : (s.counterCheck t write va).Wf := by
  have hs := State.memWf_scalarCheck s t (if write then .write else .read) va 8 h
  unfold State.counterCheck
  generalize winBase = base
  refine .ite h (.ite h (.ite (.ite h h) ?_))
  split
  · next hx =>
    rw [hx] at hs
    exact .ite hs (.ite (State.acc_cowStart hs _ _ _) hs)
  · exact hs

/-! ## The Courier -/

theorem State.memWf_addCmd (s : State) (stream : Nat) (kind : CmdKind) (counter : Word) (inc : Nat) (bar : Option (Fin 16)) (st : CmdState)
    (h : s.memWf = true) : (s.addCmd stream kind counter inc bar st).memWf = true := by
  grind [State.addCmd, State.memWf]

theorem State.memWf_setCmd (s : State) (c : Cmd) (h : s.memWf = true) : (s.setCmd c).memWf = true := by
  grind [State.setCmd, State.memWf]

theorem State.memWf_checkChunk (s : State) (t : Thread) (write : Bool) (a len : Nat) (h : s.memWf = true) :
    (s.checkChunk t write a len).Wf := by
  have hp := State.memWf_checkPage s t { write := write, amo := none, scope := none } a len h
  unfold State.checkChunk
  split
  · trivial
  split
  · split
    · trivial
    · exact h
  split
  · trivial
  · trivial
  · next hx =>
    rw [hx] at hp
    exact hp

theorem State.memWf_checkSpan (s : State) (t : Thread) (write : Bool) (fuel va n : Nat) (h : s.memWf = true) :
    (s.checkSpan t write fuel va n).Wf := by
  induction fuel generalizing s va n with
  | zero => exact h
  | succ fuel ih =>
    unfold State.checkSpan
    split
    · exact h
    extract_lets a k
    have hc := State.memWf_checkChunk s t write a k h
    split
    · next s1 l1 p1 h1 =>
      rw [h1] at hc
      have hs := ih s1 (a + k) (n - k) hc
      split
      · next h2 => rwa [h2] at hs
      · exact hs
    · exact hc

theorem State.memWf_span (s : State) (t : Thread) (write : Bool) (va : Nat) (n : Nat) (h : s.memWf = true) : (s.span t write va n).Wf := by
  grind [State.span, State.memWf_checkSpan, Span.Wf, State.memWf]

theorem State.memWf_spans (s : State) (t : Thread) (l : List (Nat × Nat)) (h : s.memWf = true) : (s.spans t l).Wf := by
  induction l generalizing s with
  | nil => exact h
  | cons x l ih =>
    have hc := State.memWf_span s t false x.1 x.2 h
    unfold State.spans
    split
    · next s1 l1 p1 h1 =>
      rw [h1] at hc
      have hs := ih s1 hc
      split
      · next h2 => rwa [h2] at hs
      · exact hs
    · exact hc

theorem State.memWf_countVoidOf (s : State) (c : Cmd) (h : s.memWf = true) : (s.countVoidOf c).memWf = true := by
  grind [State.countVoidOf, State.memWf_countVoid, State.memWf_mapSaved, State.memWf_setTh, State.memWf]

theorem State.memWf_cmdReads (s : State) (c : Cmd) (e : Nat) (ps : List (Nat × Nat)) (h : s.memWf = true) : (s.cmdReads c e ps).Wf := by
  grind [State.cmdReads, State.memWf_spans, State.memWf_recallAll, State.memWf_touchAll, State.memWf_remoteRead, State.memWf_countVoidOf,
    Prep.Wf, Span.Wf, Remote.Wf, State.memWf]

theorem State.memWf_cmdRead (s : State) (c : Cmd) (e : Nat) (va : Nat) (n : Nat) (h : s.memWf = true) : (s.cmdRead c e va n).Wf := by
  grind [State.cmdRead, State.memWf_cmdReads, Prep.Wf, State.memWf]

theorem Prep.Wf_into {p : Prep} (hp : p.Wf) (c : Cmd) (va n : Nat) : (p.into c va n).Wf := by
  unfold Prep.into
  split
  · next s bytes _ =>
    replace hp : s.memWf = true := hp
    have hs := State.memWf_span s c.asThread true va n hp
    split
    · trivial
    · trivial
    · next s1 locs leaves h1 =>
      rw [h1] at hs
      have hc := State.memWf_cowAll s1 leaves hs
      split
      · trivial
      · next h2 => rwa [h2] at hc
      · trivial
      · exact State.memWf_recallAll _ locs (State.memWf_touchAll s1 leaves true hs)
  · exact hp

theorem State.memWf_mgPrep (s : State) (c : Cmd) (e : Nat) (da : Word) (sa : Word) (nx : Nat) (ny : Nat) (nz : Nat) (op : Nat) (bnd : Nat)
    (sf : Nat) (df : Nat) (tbl : Nat) (h : s.memWf = true) : (s.mgPrep c e da sa nx ny nz op bnd sf df tbl).Wf := by
  grind [State.mgPrep, State.memWf_cmdReads, Prep.Wf_into, Prep.Wf, State.memWf]

theorem State.memWf_bankRead (s : State) (c : Cmd) (va : Nat) (n : Nat) (h : s.memWf = true) : (s.bankRead c va n).Wf := by
  grind [State.bankRead, State.memWf_cmdRead, State.memWf_span, State.memWf_xlate, Prep.Wf, Span.Wf, Xl.Wf, State.memWf]

theorem State.memWf_mmavPrep (s : State) (c : Cmd) (e : Nat) (x : Word) (b : Word) (y : Word) (n : Nat) (k : Nat) (h : s.memWf = true) :
    (s.mmavPrep c e x b y n k).Wf := by
  grind [State.mmavPrep, State.memWf_bankRead, State.memWf_addUe, Prep.Wf, State.memWf]

theorem State.memWf_courierBeginPerforming (s : State) (seq : Nat) (h : s.memWf = true) : AllWf (s.courierBeginPerforming seq) := by
  grind [State.courierBeginPerforming, State.memWf_setCmd, AllWf, State.memWf]

theorem State.memWf_prep (s : State) (c : Cmd) (e : Nat) (h : s.memWf = true) : (s.prep c e).Wf := by
  grind [State.prep, Prep.Wf_into, State.memWf_cmdRead, State.memWf_mgPrep, State.memWf_mmavPrep, Prep.Wf, State.memWf]

theorem State.memWf_cmdWrite (s : State) (c : Cmd) (e : Nat) (bytes : List Byte) (dst : List Loc) (h : s.memWf = true) :
    (s.cmdWrite c e bytes dst).memWf = true := by
  grind [State.cmdWrite, State.memWf_writeBytes, State.memWf]

theorem State.memWf_park (s : State) (c : Cmd) (cause : BitVec 8) (e : Nat) (addr : Nat) (counter : Bool) (h : s.memWf = true) :
    (s.park c cause e addr counter).memWf = true := by
  grind [State.park, State.memWf_setCmd, State.memWf_reportFault, State.memWf]

theorem State.memWf_lowerPrep (s : State) (c : Cmd) (l : List Nat) (acc : List Loc) (h : s.memWf = true) :
    ∀ r, s.lowerPrep c l acc = .inl r → r.1.memWf = true := by
  induction l generalizing s c acc with
  | nil =>
    intro r hr
    cases hr
    exact h
  | cons k l ih =>
    have hp := State.memWf_prep s c k h
    unfold State.lowerPrep
    split
    · exact ih s c _ h
    split
    · next he =>
      rw [he] at hp
      exact ih _ _ _ hp
    · next he =>
      rw [he] at hp
      exact ih _ _ _ hp
    · exact fun _ hr => nomatch hr

theorem State.memWf_transfer (s : State) (c : Cmd) (e : Nat) (bytes : List Byte) (dst : List Loc) (h : s.memWf = true) :
    (s.transfer c e bytes dst).memWf = true := by
  grind [State.transfer, State.memWf_setCmd, State.memWf_cmdWrite, State.memWf]

theorem State.memWf_settleReady (s : State) (c : Cmd) (h : s.memWf = true) : (s.settleReady c).memWf = true := by
  refine State.memWf_foldl _ (fun s e hs => ?_) _ s h
  split
  · exact hs
  split
  · exact hs
  · exact State.memWf_ite hs (State.memWf_transfer s _ _ _ _ hs)

theorem State.memWf_courierElementTransfer (s : State) (seq e : Nat) (h : s.memWf = true) : AllWf (s.courierElementTransfer seq e) := by
  have hstop (c : Cmd) (k : Nat) {p : Prep} (hp : p.Wf) : AllWf (match (generalizing := false) p with
      | .step s => some s
      | .fault cause a => if (List.range k).all c.xfer.contains then some (s.park c cause k a false) else none
      | _ => none) := by
    split
    · exact .some hp
    · exact .ite (.some (State.memWf_park s _ _ _ _ _ h)) .none
    · exact .none
  unfold State.courierElementTransfer
  split
  · exact .none
  next c _ =>
  refine .ite .none ?_
  dsimp only
  split
  · exact hstop c _ (State.memWf_prep s c _ h)
  next s1 c1 below hl =>
  have h1 : s1.memWf = true := State.memWf_lowerPrep s c _ _ h _ hl
  split
  · exact .ite .none (.some (State.memWf_transfer _ _ _ _ _ h1))
  have hp := State.memWf_prep s1 c1 e h1
  split
  · next he =>
    rw [he] at hp
    exact .ite .none (.some (State.memWf_transfer _ _ _ _ _ hp))
  · next he =>
    rw [he] at hp
    exact .some hp
  · exact hstop c _ (State.memWf_prep s c e h)

theorem State.memWf_finishCmd (s : State) (c : Cmd) (h : s.memWf = true) : (s.finishCmd c).memWf = true := by
  grind [State.finishCmd, State.memWf_barArrive, State.memWf]

theorem State.memWf_counterAdd (s : State) (c : Cmd) (h : s.memWf = true) : AllWf (s.counterAdd c) := by
  have hc := State.memWf_counterCheck s c.asThread true c.counter h
  have hpark {s : State} (h : s.memWf = true) (cause : BitVec 8) (e a : Nat) (b : Bool) : AllWf (some (s.park c cause e a b)) :=
    .some (State.memWf_park s c cause e a b h)
  have hfinish {s : State} (h : s.memWf = true) : AllWf (some (s.finishCmd c)) := .some (State.memWf_finishCmd s c h)
  have hreq {s : State} (h : s.memWf = true) (fn pa e x : Nat) (who : ReqFor) (op : BusOp) (o : Option Req) :
      AllWf (match (generalizing := false) o with
        | none => some (s.sendTo fn c.ctx who pa op .sent [])
        | some q =>
          match q.status with
          | .sent => none
          | .answered _ => some ((s.dropReq q.id).finishCmd c)
          | .failed => some ((s.dropReq q.id).park c 0x28 e x true)) := by
    split
    · exact .some h
    split
    · exact .none
    · exact hfinish (s := s.dropReq _) h
    · exact hpark (s := s.dropReq _) h _ _ _ _
  unfold State.counterAdd
  refine .ite (hfinish h) ?_
  split
  · next he =>
    rw [he] at hc
    exact hpark hc _ _ _ _
  · next he =>
    rw [he] at hc
    exact .ite .none (.some hc)
  next s1 locs leaf he =>
  rw [he] at hc
  cases leaf
  case' some l => replace hc := State.memWf_touch s1 l true hc
  all_goals
    dsimp only
    split
    · exact hreq hc _ _ _ _ _ _ _
    · exact hreq hc _ _ _ _ _ _ _
    · next pa _ =>
      have ha := State.memWf_homeAtomic _ .add true pa (BitVec.ofNat 64 c.inc) 0 hc
      split
      · next hx => exact hfinish (State.memWf_of_fst hx ha)
      · next hx => exact hpark (State.memWf_of_fst hx ha) _ _ _ _
    · exact hpark hc _ _ _ _

theorem State.memWf_commandComplete (s : State) (seq : Nat) (h : s.memWf = true) : AllWf (s.commandComplete seq) := by
  unfold State.commandComplete
  split
  · exact .none
  split
  · exact .ite .none (.some h)
  · exact .ite .none (.some ((State.memWf_counterAdd _ _ (State.memWf_setCmd s _ h)).getD (State.memWf_setCmd s _ h)))
  · exact State.memWf_counterAdd s _ h
  · exact .none

/-! ## The firmware service -/

theorem State.memWf_reply (s : State) (c : Caller) (status : Nat) (vals : List Word) (h : s.memWf = true) : (s.reply c status vals).memWf = true := by
  unfold State.reply
  split
  · split
    · exact State.memWf_acquireLines s h
    · exact h
  · exact State.memWf_foldl _ State.memWf_raiseVector _ _ h

theorem State.memWf_serve (s : State) (c : Caller) (n : Nat) (f : List Word → Reply) (h : s.memWf = true) (hf : ∀ l, (f l).Wf) :
    AllWf (s.serve c n f) := by
  unfold State.serve
  split
  · exact .none
  next args _ =>
  have ha := hf args
  split
  · exact .some (State.memWf_reply s _ _ _ h)
  · next he =>
    rw [he] at ha
    exact .some (State.memWf_reply _ _ _ _ ha)
  · next he =>
    rw [he] at ha
    exact .some ha

theorem State.memWf_serveUnknown (s : State) (c : Caller) (h : s.memWf = true) : (s.serveUnknown c).memWf = true := by
  grind [State.serveUnknown, State.memWf_reply, State.memWf]

theorem State.memWf_svcByte (s : State) (t : Thread) (write : Bool) (va : Nat) (h : s.memWf = true) : (s.svcByte t write va).Wf := by
  grind [State.svcByte, State.memWf_winCheck, State.memWf_xlate, SvcAcc.Wf, Acc.Wf, Xl.Wf, State.memWf]

theorem State.memWf_svcVirt (s : State) (t : Thread) (write : Bool) (va n : Nat) (h : s.memWf = true) : (s.svcVirt t write va n).Wf := by
  induction n generalizing s va with
  | zero => exact h
  | succ n ih =>
    have hb := State.memWf_svcByte s t write va h
    unfold State.svcVirt
    split
    · next s1 x l h1 =>
      rw [h1] at hb
      have hs := ih s1 (va + 1) hb
      split
      · next h2 => rwa [h2] at hs
      · exact hs
    · exact hb

theorem State.memWf_svcLocs (s : State) (c : Caller) (write : Bool) (a : Word) (n : Nat) (h : s.memWf = true) : (s.svcLocs c write a n).Wf := by
  have htouch (l : List Leaf) (s : State) (h : s.memWf = true) : (l.foldl (fun s x => s.touch x write) s).memWf = true :=
    State.memWf_foldl _ (fun s x hs => State.memWf_touch s x write hs) l s h
  unfold State.svcLocs
  split
  · next sl =>
    have hv := State.memWf_svcVirt s (s.th sl) write a.toNat n h
    dsimp only
    split
    · next s1 locs leaves h1 =>
      rw [h1] at hv
      split
      · exact htouch _ _ hv
      split
      · trivial
      have hw := State.memWf_svcVirt _ (s1.th sl) write a.toNat n (State.memWf_foldl State.copyNow State.memWf_copyNow
        ((leavesOnce leaves).filter (fun x => write && pteCow x.e)) s1 hv)
      split
      · next h2 =>
        rw [h2] at hw
        exact htouch _ _ hw
      · exact hw
    · exact hv
  · dsimp only
    split
    · exact h
    · trivial

theorem State.memWf_svcRead (s : State) (locs : List Loc) (h : s.memWf = true) : ∀ r, s.svcRead locs = some r → r.1.memWf = true := by
  have h1 := State.memWf_foldl State.recallLoc State.memWf_recallLoc locs s h
  intro r hr
  unfold State.svcRead at hr
  dsimp only at hr
  split at hr
  · cases hr
  · cases hr
    exact h1

theorem State.memWf_svcWrite (s : State) (locs : List Loc) (bs : List Byte) (h : s.memWf = true) : (s.svcWrite locs bs).memWf = true :=
  State.memWf_putLocs _ _ (State.memWf_foldl State.recallLoc State.memWf_recallLoc locs s h)

theorem State.memWf_writeOut (s : State) (c : Caller) (a : Word) (bs : List Byte) (after : State → State) (vals : List Word) (h : s.memWf = true)
    (ha : ∀ s, s.memWf = true → (after s).memWf = true) : (s.writeOut c a bs after vals).Wf := by
  have hl := State.memWf_svcLocs s c true a bs.length h
  unfold State.writeOut
  split
  · trivial
  · next he => rwa [he] at hl
  · next he =>
    rw [he] at hl
    exact ha _ (State.memWf_svcWrite _ _ _ hl)

theorem State.memWf_svcCounter (s : State) (c : Caller) (a : Word) (h : s.memWf = true) : (s.svcCounter c a).Wf := by
  grind [State.svcCounter, State.memWf_svcLocs, SvcAcc.Wf, State.memWf]

theorem State.memWf_startWork (s : State) (counter : List Loc) (ctx : BitVec 12) (fn : Nat) (h : s.memWf = true) :
    (s.startWork counter ctx fn).memWf = true := by
  grind [State.startWork, State.memWf]

theorem State.memWf_svcInfo (s : State) (c : Caller) (h : s.memWf = true) : AllWf (s.svcInfo c) := by
  refine State.memWf_serve s c _ _ h (fun args => ?_)
  exact h

theorem State.memWf_svcCtxnew (s : State) (c : Caller) (h : s.memWf = true) : AllWf (s.svcCtxnew c) := by
  refine State.memWf_serve s c _ _ h (fun args => ?_)
  refine .ite .fail (.ite .fail ?_)
  split
  · exact .fail
  split
  · exact .fail
  · exact h

theorem State.memWf_svcCtxend (s : State) (c : Caller) (h : s.memWf = true) : AllWf (s.svcCtxend c) := by
  refine State.memWf_serve s c _ _ h (fun args => ?_)
  split
  · exact .fail
  next x _ =>
  have hc := State.memWf_svcCounter s c (argOf args 2) h
  split
  · exact .fail
  · next he => rwa [he] at hc
  · next he =>
    rw [he] at hc
    exact State.memWf_startWork _ _ _ _ (State.memWf_endCtx _ _ (State.memWf_settleSlots _ _ hc))

theorem State.memWf_svcCtxreport (s : State) (c : Caller) (h : s.memWf = true) : AllWf (s.svcCtxreport c) := by
  refine State.memWf_serve s c _ _ h (fun args => ?_)
  refine .ite .fail ?_
  split
  · exact .ite h .fail
  split
  · exact .ite h .fail
  · exact .ite h .fail

theorem State.memWf_svcPostreg (s : State) (c : Caller) (h : s.memWf = true) : AllWf (s.svcPostreg c) := by
  refine State.memWf_serve s c _ _ h (fun args => ?_)
  dsimp only
  split
  · exact .fail
  refine .ite .fail ?_
  have hl := State.memWf_svcLocs s c false (argOf args 2) 16 h
  split
  · exact .fail
  · next he => rwa [he] at hl
  · next he =>
    rw [he] at hl
    refine .ite .fail (.ite .fail ?_)
    split
    · exact .fail
    · next he => exact State.memWf_svcRead _ _ hl _ he

theorem State.memWf_svcPostunreg (s : State) (c : Caller) (h : s.memWf = true) : AllWf (s.svcPostunreg c) := by
  refine State.memWf_serve s c _ _ h (fun args => ?_)
  dsimp only
  split
  · exact .fail
  · exact .ite .fail (State.memWf_ite (State.memWf_promote _ h) h)

theorem State.memWf_svcPrepol (s : State) (c : Caller) (h : s.memWf = true) : AllWf (s.svcPrepol c) := by
  refine State.memWf_serve s c _ _ h (fun args => ?_)
  exact .ite .fail (.dite (fun _ => .ite .fail h) (fun _ => .fail))

theorem State.memWf_svcBkset (s : State) (c : Caller) (h : s.memWf = true) : AllWf (s.svcBkset c) := by
  refine State.memWf_serve s c _ _ h (fun args => ?_)
  dsimp only
  split
  · exact .fail
  · exact .dite (fun _ => .ite .fail h) (fun _ => .fail)

theorem State.memWf_svcFwinset (s : State) (c : Caller) (h : s.memWf = true) : AllWf (s.svcFwinset c) := by
  refine State.memWf_serve s c _ _ h (fun args => ?_)
  refine .ite .fail (.ite .fail ?_)
  have hl := State.memWf_svcLocs s c false (argOf args 3) 64 h
  split
  · exact .fail
  · next he => rwa [he] at hl
  · next he =>
    rw [he] at hl
    split
    · exact .fail
    · next he => exact .ite .fail (State.memWf_svcRead _ _ hl _ he)

theorem State.memWf_svcLinktest (s : State) (c : Caller) (h : s.memWf = true) : AllWf (s.svcLinktest c) := by
  refine State.memWf_serve s c _ _ h (fun args => ?_)
  exact .ite .fail (.dite (fun _ => h) (fun _ => .fail))

theorem State.memWf_svcMlimset (s : State) (c : Caller) (h : s.memWf = true) : AllWf (s.svcMlimset c) := by
  refine State.memWf_serve s c _ _ h (fun args => ?_)
  exact .ite .fail (.ite .fail (.ite .fail h))

theorem State.memWf_svcVecbind (s : State) (c : Caller) (h : s.memWf = true) : AllWf (s.svcVecbind c) := by
  refine State.memWf_serve s c _ _ h (fun args => ?_)
  refine .ite .fail ?_
  split
  · exact .fail
  · exact .ite h (.ite .fail h)

theorem State.memWf_svcAttest (s : State) (c : Caller) (h : s.memWf = true) : AllWf (s.svcAttest c) := by
  refine State.memWf_serve s c _ _ h (fun args => ?_)
  have hl := State.memWf_svcLocs s c false (argOf args 1) 32 h
  split
  · exact .fail
  · next he => rwa [he] at hl
  · next he =>
    rw [he] at hl
    split
    · exact .fail
    · next he => exact State.memWf_writeOut _ c _ _ id _ (State.memWf_svcRead _ _ hl _ he) (fun _ hs => hs)

theorem State.memWf_svcIdkey (s : State) (c : Caller) (h : s.memWf = true) : AllWf (s.svcIdkey c) := by
  refine State.memWf_serve s c _ _ h (fun args => ?_)
  exact State.memWf_writeOut s c _ _ id _ h (fun _ hs => hs)

theorem State.memWf_svcSpeedtbl (s : State) (c : Caller) (h : s.memWf = true) : AllWf (s.svcSpeedtbl c) := by
  refine State.memWf_serve s c _ _ h (fun args => ?_)
  exact State.memWf_writeOut s c _ _ id _ h (fun _ hs => hs)

theorem State.memWf_svcStraggle (s : State) (c : Caller) (h : s.memWf = true) : AllWf (s.svcStraggle c) := by
  refine State.memWf_serve s c _ _ h (fun args => ?_)
  exact .ite .fail (.ite .fail (State.memWf_writeOut s c _ _ _ _ h (fun _ hs => State.memWf_ite hs hs)))

theorem State.memWf_svcVfmem (s : State) (c : Caller) (h : s.memWf = true) : AllWf (s.svcVfmem c) := by
  refine State.memWf_serve s c _ _ h (fun args => ?_)
  dsimp only
  split
  · exact .fail
  · exact .ite .fail (.dite (fun _ => .ite .fail h) (fun _ => .fail))

theorem State.memWf_svcChconfirm (s : State) (c : Caller) (h : s.memWf = true) : AllWf (s.svcChconfirm c) := by
  refine State.memWf_serve s c _ _ h (fun args => ?_)
  exact .ite .fail (.ite .fail (State.memWf_noteRetired _ h))

theorem State.memWf_abortRec (s : State) (r : BitVec 12 × Word) (h : s.memWf = true) : (s.abortRec r).memWf = true := by
  grind [State.abortRec, State.memWf_abortTask, State.memWf_settleSlots, State.memWf_putTaskState, State.memWf]

theorem State.memWf_svcTaskabort (s : State) (c : Caller) (h : s.memWf = true) : AllWf (s.svcTaskabort c) := by
  refine State.memWf_serve s c _ _ h (fun args => ?_)
  refine .ite .fail ?_
  have hl := State.memWf_svcLocs s c false (argOf args 1) 8 h
  split
  · exact .fail
  · next he => rwa [he] at hl
  · next s1 _ _ he =>
    rw [he] at hl
    split
    · exact .fail
    refine .ite .fail ?_
    have hc := State.memWf_svcCounter s1 c (argOf args 2) hl
    split
    · exact .fail
    · next he => rwa [he] at hc
    · next he =>
      rw [he] at hc
      exact State.memWf_startWork _ _ _ _ (State.memWf_promote _ (State.memWf_abortRec _ _ hc))

theorem State.memWf_serviceWorkDone (s : State) (h : s.memWf = true) : AllWf s.serviceWorkDone := by
  grind [State.serviceWorkDone, State.memWf_sendTo, State.memWf_send, State.memWf_homeAtomic, AllWf, State.memWf]

/-! ## Transactions across modules -/

theorem State.memWf_stageCheck (s : State) (t : Thread) (va : Word) (h : s.memWf = true) : (s.stageCheck t va).Wf := by
  have hs := State.memWf_scalarCheck s t .write va 8 h
  unfold State.stageCheck
  refine .ite h (.ite h (.ite h ?_))
  split
  · next hx =>
    rw [hx] at hs
    exact .ite hs (State.acc_cowStart hs _ _ _)
  · exact hs

theorem State.memWf_applyStores (s : State) (x : Txn) (m : Nat) (h : s.memWf = true) : (s.applyStores x m).memWf = true :=
  State.memWf_foldl _ (fun s w hs => State.memWf_putHomeNat _ _ _ _ (State.memWf_recall s w.pa 8 hs)) _ s h

theorem State.memWf_txDecide (s : State) (x : Txn) (h : s.memWf = true) : (s.txDecide x).memWf = true := by
  grind [State.txDecide, State.memWf_applyStores, State.memWf_sendFlits, State.memWf_setMe, State.memWf]

theorem State.memWf_replyTo (s : State) (x : Txn) (target : Nat) (held : Bool) (h : s.memWf = true) :
    ∀ r, (s.replyTo x target held) = some r → r.1.memWf = true := by
  grind [State.replyTo, State.memWf_applyStores, State.memWf]

theorem State.memWf_replySlot (s : State) (sl : Slot) (target : Nat) (held : Bool) (h : s.memWf = true) : AllWf (s.replySlot sl target held) := by
  unfold State.replySlot
  split
  · exact .none
  · exact .map (fun p hp => State.memWf_billReply _ _ (State.memWf_replyTo s _ target held h p hp))

theorem State.memWf_replyOrphan (s : State) (target : Nat) (h : s.memWf = true) : AllWf (s.replyOrphan target) := by
  refine .findSome (fun i => ?_) _
  split
  · exact .none
  · exact .map (fun p hp => State.memWf_billReply _ _ (State.memWf_congr (State.memWf_replyTo s _ target true h p hp) rfl rfl rfl))

theorem State.memWf_abortOver (s : State) (k : Fin 18) (h : s.memWf = true) : (s.abortOver k).memWf = true := by
  grind [State.abortOver, State.memWf]

/-! ## The links, requests and host accesses -/

theorem State.memWf_setLink (s : State) (k : Fin 18) (l : Link) (h : s.memWf = true) : (s.setLink k l).memWf = true := by
  grind [State.setLink, State.memWf]

theorem State.memWf_linkShed (s : State) (k : Fin 18) (h : s.memWf = true) : AllWf (s.linkShed k) := by
  grind [State.linkShed, State.memWf_setLink, AllWf, State.memWf]

theorem State.memWf_linkWiden (s : State) (k : Fin 18) (h : s.memWf = true) : AllWf (s.linkWiden k) := by
  grind [State.linkWiden, State.memWf_setLink, AllWf, State.memWf]

theorem State.memWf_linkWidthChangeDone (s : State) (k : Fin 18) (h : s.memWf = true) : AllWf (s.linkWidthChangeDone k) := by
  grind [State.linkWidthChangeDone, State.memWf_setLink, AllWf, State.memWf]

theorem State.memWf_setLinkdown (s : State) (h : s.memWf = true) : s.setLinkdown.memWf = true := by
  grind [State.setLinkdown, State.memWf_raiseEvent, State.memWf]

theorem State.memWf_linkFault (s : State) (k : Fin 18) (h : s.memWf = true) : AllWf (s.linkFault k) := by
  grind [State.linkFault, State.memWf_abortOver, State.memWf_setLinkdown, State.memWf_setLink, AllWf, State.memWf]

theorem State.memWf_linkGainsTraining (s : State) (k : Fin 18) (h : s.memWf = true) : AllWf (s.linkGainsTraining k) := by
  grind [State.linkGainsTraining, State.memWf_setLinkdown, State.memWf_setLink, AllWf, State.memWf]

theorem State.memWf_answer (s : State) (r : Req) (st : ReqStatus) (h : s.memWf = true) : (s.answer r st).memWf = true := by
  grind [State.answer, State.memWf]

theorem State.memWf_billReq (s : State) (r : Req) (h : s.memWf = true) : (s.billReq r).memWf = true := by
  grind [State.billReq, State.memWf_billReply, State.memWf]

theorem State.memWf_peerReply (s : State) (id : Nat) (data : Word) (h : s.memWf = true) : AllWf (s.peerReply id data) := by
  grind [State.peerReply, State.memWf_putHome, State.memWf_answer, State.memWf_dropReq, State.memWf_billReq, AllWf, State.memWf]

theorem State.memWf_pcieCompletion (s : State) (id : Nat) (data : Word) (h : s.memWf = true) : AllWf (s.pcieCompletion id data) := by
  grind [State.pcieCompletion, State.memWf_answer, AllWf, State.memWf]

theorem State.memWf_routeTimeout (s : State) (id : Nat) (h : s.memWf = true) : AllWf (s.routeTimeout id) := by
  grind [State.routeTimeout, State.memWf_countDropped, State.memWf_answer, State.memWf_dropReq, AllWf, State.memWf]

theorem State.memWf_peerRecall (s : State) (pa : Nat) (n : Nat) (h : s.memWf = true) : (s.peerRecall pa n).memWf = true := by
  grind [State.peerRecall, State.memWf_recall, State.memWf]

theorem State.memWf_peerRequest (s : State) (ctx : BitVec 12) (pa : Nat) (op : BusOp) (h : s.memWf = true) : AllWf (s.peerRequest ctx pa op) := by
  unfold State.peerRequest
  refine .ite .none ?_
  split
  · exact .some (State.memWf_peerRecall s _ _ h)
  · exact .some (State.memWf_putHome _ _ _ (State.memWf_peerRecall s _ _ h))
  · exact .ite (.some (State.memWf_homeAtomic s _ _ _ _ _ h)) .none

theorem State.memWf_baseDieAtomic (s : State) (op : AmoOp) (wide : Bool) (pa : Nat) (b : Word) (cmp : Word) (h : s.memWf = true) :
    AllWf (s.baseDieAtomic op wide pa b cmp) := by
  grind [State.baseDieAtomic, State.memWf_homeAtomic, AllWf, State.memWf]

theorem State.memWf_countUnsupported (s : State) (f : PcieFn) (h : s.memWf = true) : (s.countUnsupported f).memWf = true := by
  grind [State.countUnsupported, State.memWf]

theorem State.memWf_unsupported (s : State) (f : PcieFn) (h : s.memWf = true) : (s.unsupported f).memWf = true := by
  grind [State.unsupported, State.memWf_countUnsupported, State.memWf]

theorem State.memWf_hostBarAccess (s : State) (f : PcieFn) (bar : Bar) (off : Nat) (op : BusOp) (h : s.memWf = true) :
    AllWf (s.hostBarAccess f bar off op) := by
  unfold State.hostBarAccess
  refine .ite .none ?_
  split
  · exact .none
  · split
    · exact .some h
    · exact .some (State.memWf_unsupported s f h)
  · split
    · exact .some (State.memWf_putHome s _ _ h)
    · exact .some (State.memWf_unsupported s f h)

theorem State.memWf_setMbox (s : State) (f : PcieFn) (g : Mailbox → Mailbox) (h : s.memWf = true) : (s.setMbox f g).memWf = true := by
  grind [State.setMbox, State.memWf_setFn, State.memWf]

theorem State.memWf_mailboxRung (s : State) (f : PcieFn) (h : s.memWf = true) : (s.mailboxRung f).memWf = true := by
  grind [State.mailboxRung, State.memWf_setMbox, State.memWf_serveUnknown, State.memWf]

theorem State.memWf_hostAtomicop (s : State) (f : PcieFn) (bar : Bar) (off : Nat) (op : AmoOp) (wide : Bool) (b cmp : Word) (h : s.memWf = true) :
    AllWf (s.hostAtomicop f bar off op wide b cmp) := by
  unfold State.hostAtomicop
  dsimp only
  split
  · exact .ite (.some (State.memWf_mailboxRung _ f (State.memWf_setMbox s f _ h))) (.ite (.some h) .none)
  split
  · exact .some (State.memWf_unsupported s f h)
  · exact .ite (.some (State.memWf_homeAtomic s _ _ _ _ _ h)) (.some h)

theorem State.memWf_registerWrite (s : State) (f : PcieFn) (off : Nat) (v : Word) (h : s.memWf = true) : AllWf (s.registerWrite f off v) := by
  grind [State.registerWrite, State.memWf_setFn, State.memWf_setMbox, State.memWf_mailboxRung, AllWf, State.memWf]

/-! ## The window and tag image -/

theorem State.memWf_rangeCheck (s : State) (t : Thread) (va : Word) (n : Nat) (h : s.memWf = true) : RunWf id (s.rangeCheck t va n) := by
  induction n generalizing s va with
  | zero => exact h
  | succ n ih =>
    have hc := State.memWf_storeCheck s t va 8 h
    unfold State.rangeCheck
    split
    · next he => rwa [he] at hc
    · next he => rwa [he] at hc
    · next he =>
      rw [he] at hc
      exact ih _ _ hc

theorem State.memWf_storeWords (s : State) (t : Thread) (va : Word) (bs : List Byte) (h : s.memWf = true) : (s.storeWords t va bs).memWf = true := by
  fun_induction State.storeWords with
  | case1 s va b0 b1 b2 b3 b4 b5 b6 b7 r s1 _ he ih =>
    have hs := State.memWf_store s t va 8 (wordOf [b0, b1, b2, b3, b4, b5, b6, b7]) h
    rw [he] at hs
    exact ih hs
  | case2 => exact h
  | case3 => exact h

theorem State.memWf_loadWords (s : State) (sl : Slot) (t : Thread) (va : Word) (n : Nat) (acc : List Byte) (h : s.memWf = true) :
    RunWf Prod.fst (s.loadWords sl t va n acc) := by
  induction n generalizing s va acc with
  | zero => exact h
  | succ n ih =>
    have hl := State.memWf_load s sl t va 8 h
    unfold State.loadWords
    split
    · next he => rwa [he] at hl
    · next he => rwa [he] at hl
    · next he =>
      rw [he] at hl
      exact ih _ _ _ hl

theorem State.memWf_imgHeaders (s : State) (t : Thread) (img : Array Byte) (l : List Nat) (h : s.memWf = true) :
    (s.imgHeaders t img l).1.memWf = true := by
  induction l generalizing s with
  | nil => exact h
  | cons k l ih =>
    have hgo {s : State} (h : s.memWf = true) (vset hi : BitVec 32) : State.memWf (match s.imgHeaders t img l with
        | (s, some l) => (s, some ((vset, hi) :: l))
        | (s, none) => (s, none)).1 = true := by
      split
      · next he => exact State.memWf_of_fst he (ih s h)
      · next he => exact State.memWf_of_fst he (ih s h)
    have hany := fun vset hi => hgo (s := { s with fresh := s.fresh + 1 }) h vset hi
    have hr (u : Thread) (a : Word) := State.memWf_readHeader s u a h
    unfold State.imgHeaders
    dsimp only
    split
    · next he =>
      split
      · exact hgo (he ▸ hr _ _ : Header.Wf (.ok ..)) _ _
      · exact hany _ _
    · next he => exact (he ▸ hr _ _ : Header.Wf (.wait _))
    · exact hany _ _

theorem State.memWf_relinkMrd (s : State) (sl : Slot) (old : List Rule) (new : List Rule) (h : s.memWf = true) :
    (s.relinkMrd sl old new).memWf = true := by
  grind [State.relinkMrd, State.memWf]

/-! ## The matrix engine -/

theorem State.memWf_addMat (s : State) (op : MatOp) (h : s.memWf = true) : (s.addMat op).memWf = true := by
  grind [State.addMat, State.memWf]

theorem State.memWf_accPut (s : State) (a : Nat) (row : Nat) (col : Nat) (v : BitVec 32) (h : s.memWf = true) :
    (s.accPut a row col v).memWf = true := by
  grind [State.accPut, State.memWf]

theorem State.memWf_accSaturate (s : State) (a : Nat) (b : Bool) (h : s.memWf = true) : (s.accSaturate a b).memWf = true := by
  grind [State.accSaturate, State.memWf]

theorem State.memWf_mmaElem (s : State) (a : Nat) (x : Nat) (y : Nat) (p : Panel) (m : Nat) (g : Nat) (n : Nat) (h : s.memWf = true) :
    (s.mmaElem a x y p m g n).memWf = true := by
  grind [State.mmaElem, State.memWf_accPut, State.memWf_accSaturate, State.memWf]

theorem State.memWf_countLost (s : State) (l : Bool) (h : s.memWf = true) : (s.countLost l).memWf = true := by
  grind [State.countLost, State.memWf_addUe, State.memWf]

theorem State.memWf_mmaGo (s : State) (seq a x y : Nat) (p : Panel) (lost : Bool) (n done : Nat) (h : s.memWf = true) :
    (s.mmaGo seq a x y p lost n done).1.memWf = true := by
  induction n generalizing s lost done with
  | zero => exact h
  | succ n ih =>
    unfold State.mmaGo
    dsimp only
    split
    · exact h
    · exact ih _ _ _ (State.memWf_foldl _ (fun s c hs => State.memWf_mmaElem s _ _ _ _ _ _ _ hs) _ s h)

theorem State.memWf_doMzero (s : State) (a : Nat) (h : s.memWf = true) : (s.doMzero a).memWf = true := by
  grind [State.doMzero, State.memWf]

theorem State.memWf_doMst (s : State) (a x f : Nat) (p : Panel) (af : AccFmt) (h : s.memWf = true) : (s.doMst a x f p af).memWf = true :=
  State.memWf_countLost _ _ (State.memWf_foldl _ (fun now _ hs => State.memWf_accSaturate _ _ _ (State.memWf_putSpList _ now _ hs)) _ s h)

theorem State.memWf_matrixQueueServe (s : State) (h : s.memWf = true) : AllWf s.matrixQueueServe := by
  grind [State.matrixQueueServe, State.memWf_doMzero, State.memWf_mmaGo, State.memWf_countLost, State.memWf_doMst, AllWf, State.memWf]

/-! ## Translation maintenance -/

theorem State.memWf_tlbInvalidate (s : State) (ctx : BitVec 12) (a : Nat) (n : Nat) (h : s.memWf = true) :
    (s.tlbInvalidate ctx a n).memWf = true := by
  grind [State.tlbInvalidate, State.memWf]

theorem State.memWf_wordsInvalidate (s : State) (ctx : BitVec 12) (a : Nat) (n : Nat) (h : s.memWf = true) :
    (s.wordsInvalidate ctx a n).memWf = true := by
  grind [State.wordsInvalidate, State.memWf]

theorem State.memWf_snapMark (s : State) (ctx : BitVec 12) (x : Bool) (a pages : Nat) (h : s.memWf = true) :
    (s.snapMark ctx x a pages).1.memWf = true := by
  refine List.foldlRecOn (motive := fun (p : State × Nat) => p.1.memWf = true) _ _ h (fun p hp k _ => ?_)
  split
  · exact hp
  split
  · exact State.memWf_putHomeNat _ _ _ _ (State.memWf_recall p.1 _ 8 hp)
  · exact hp

theorem State.memWf_loadList (s : State) (sl : Slot) (t : Thread) (va : Word) (n : Nat) (h : s.memWf = true) :
    RunWf Prod.fst (s.loadList sl t va n) := by
  induction n generalizing s va with
  | zero => exact h
  | succ n ih =>
    have hl := State.memWf_load s sl t va 8 h
    unfold State.loadList
    split
    · next he => rwa [he] at hl
    · next he => rwa [he] at hl
    · next s1 v he =>
      rw [he] at hl
      have hs := ih s1 (va + 8) hl
      split
      · next h2 => rwa [h2] at hs
      · next h2 => rwa [h2] at hs

/-! ## The Turnpike chain -/

theorem State.memWf_addPike (s : State) (op : PikeOp) (h : s.memWf = true) : (s.addPike op).memWf = true := by
  grind [State.addPike, State.memWf]

theorem State.memWf_spoolPut (s : State) (feed : Nat) (q : Nat) (rcd : List Byte) (h : s.memWf = true) : (s.spoolPut feed q rcd).memWf = true := by
  grind [State.spoolPut, State.memWf_putSpList, State.memWf]

theorem State.memWf_loseRecord (s : State) (h : s.memWf = true) : s.loseRecord.memWf = true := by
  grind [State.loseRecord, State.memWf_addUe, State.memWf]

theorem State.memWf_recordLeaves (s : State) (feed : Nat) (q : Nat) (rcd : List Byte) (h : s.memWf = true) :
    (s.recordLeaves feed q rcd).memWf = true := by
  grind [State.recordLeaves, State.memWf_spoolPut, State.memWf_loseRecord, State.memWf]

theorem State.memWf_turnpikePassEnd (s : State) (h : s.memWf = true) : AllWf s.turnpikePassEnd := by
  grind [State.turnpikePassEnd, State.memWf_recordLeaves, AllWf, State.memWf]

theorem State.memWf_recordEnters (s : State) (rcd : List Byte) (pass route feed : Nat) (h : s.memWf = true) :
    (s.recordEnters rcd pass route feed).memWf = true := by
  have h1 (n : Nat) : ((List.range n).foldl (fun (s : State) _ => s.addUe) s).memWf = true :=
    State.memWf_foldl _ (fun s _ hs => State.memWf_addUe s hs) _ s h
  unfold State.recordEnters
  exact h1 _

theorem State.memWf_reenter (s : State) (h : s.memWf = true) : AllWf s.reenter := by
  grind [State.reenter, State.memWf_recordEnters, AllWf, State.memWf]

theorem State.memWf_feedOne (s : State) (c : PikeCmd) (rest : List PikeCmd) (a : Nat) (n : Nat) (next : Nat) (rsz : Nat) (sp : List PkSpool)
    (h : s.memWf = true) : (s.feedOne c rest a n next rsz sp).memWf = true := by
  grind [State.feedOne, State.memWf_loseRecord, State.memWf_recordEnters, State.memWf]

theorem State.memWf_turnpikeEntry (s : State) (h : s.memWf = true) : AllWf s.turnpikeEntry := by
  grind [State.turnpikeEntry, State.memWf_reenter, State.memWf_feedOne, AllWf, State.memWf]

theorem State.memWf_pkloadPerform (s : State) (h : s.memWf = true) : AllWf s.pkloadPerform := by
  grind [State.pkloadPerform, AllWf, State.memWf]

theorem State.memWf_pkcfgPerform (s : State) (h : s.memWf = true) : AllWf s.pkcfgPerform := by
  grind [State.pkcfgPerform, AllWf, State.memWf]

/-! ## Grants, segments and tags -/

theorem State.memWf_moveTables (s : State) (sl : Slot) (old new : BitVec 64) (h : s.memWf = true) : (s.moveTables sl old new).memWf = true := by
  have hc := State.memWf_clearTables s sl (old ^^^ new) h
  rw [State.memWf_iff] at hc ⊢
  obtain ⟨hm, hs, ht⟩ := hc
  refine ⟨hm, hs, ?_⟩
  exact List.foldlRecOn (motive := fun t => Memory.wf t = true) _ _ ht (fun t ht k _ => Memory.wf_foldSet (fun c => (_, c.2)) _ t ht)

theorem State.memWf_takeGrant (s : State) (sl : Slot) (wlog : BitVec 2) (q : Option (BitVec 2)) (h : s.memWf = true) :
    (s.takeGrant sl wlog q).memWf = true :=
  State.memWf_settleLanes _ (State.memWf_dropQ _ (State.memWf_foldl _ (fun s _ hs => State.memWf_countVoid s sl hs) _ _
    (State.memWf_moveTables _ sl _ _ h)))

theorem State.memWf_grantWaitEnd (s : State) (sl : Slot) (h : s.memWf = true) : AllWf (s.grantWaitEnd sl) := by
  grind [State.grantWaitEnd, State.memWf_setTh, AllWf, State.memWf]

theorem State.memWf_quarterMoveDone (s : State) (h : s.memWf = true) : AllWf s.quarterMoveDone := by
  grind [State.quarterMoveDone, State.memWf_fitLines, State.memWf_releaseLines, AllWf, State.memWf]

theorem State.memWf_packRows (s : State) (t : Thread) (sl : Slot) (base : Word) (cap n : Nat) (p : Packed) (h : s.memWf = true) :
    RunWf Prod.fst (s.packRows t sl base cap n p) := by
  induction n generalizing s p with
  | zero => exact h
  | succ n ih =>
    have hl := State.memWf_load s sl t (base + BitVec.ofNat 64 (4 * p.rows)) 4 h
    unfold State.packRows
    split
    · next he => rwa [he] at hl
    · next he => rwa [he] at hl
    · next he =>
      rw [he] at hl
      dsimp only
      split
      · exact hl
      · exact ih _ _ hl

/-! ## Placement, ends and pre-emption of parties -/

theorem State.memWf_setParts (s : State) (parts : List (Slot × Nat)) (h : s.memWf = true) : (s.setParts parts).memWf = true := by
  unfold State.setParts
  dsimp only
  split
  · exact h
  · split
    · exact h
    · exact h
  · exact h

theorem State.memWf_freshEngine (s : State) (h : s.memWf = true) : s.freshEngine.memWf = true := by
  grind [State.freshEngine, State.memWf]

theorem State.memWf_startParty (s : State) (k : Task) (w : WaitParty) (sls : List Slot) (ver entry : Nat) (h : s.memWf = true) :
    (s.startParty k w sls ver entry).memWf = true := by
  have hfresh {s : State} (h : s.memWf = true) : State.memWf { s with fresh := s.fresh + 1 } = true := h
  unfold State.startParty
  extract_lets f pos s1 s2 s3 args ids s4 p join s5
  have h1 : s1.memWf = true := State.memWf_ite h (hfresh h)
  have h2 : s2.memWf = true := State.memWf_setParts s1 _ h1
  have h3 : s3.memWf = true := State.memWf_ite (State.memWf_freshEngine s2 h2) h2
  have h4 : s4.memWf = true := by
    refine State.memWf_foldl _ (fun s sl hs => ?_) sls s3 h3
    exact hs
  have h5 : s5.memWf = true := State.memWf_congr h4 rfl rfl rfl
  exact State.memWf_ite h5 (State.memWf_putTaskState s5 _ _ _ h5)

theorem State.memWf_settleBarrier (s : State) (key : Nat) (n : Fin 16) (now : Bool) (k : Nat) (h : s.memWf = true) :
    (s.settleBarrier key n now k).memWf = true := by
  induction k generalizing s now with
  | zero => exact h
  | succ k ih =>
    unfold State.settleBarrier
    split
    · exact h
    · exact ih _ _ (State.memWf_arrive s _ _ _ _ h)

theorem State.memWf_settleBarriers (s : State) (key : Nat) (h : s.memWf = true) : (s.settleBarriers key).memWf = true := by
  refine State.memWf_foldl _ (fun s n hs => ?_) _ s h
  split
  · exact hs
  · exact State.memWf_settleBarrier _ _ _ _ _ hs

theorem State.memWf_unparkReqs (s : State) (key : Nat) (seats : List (Nat × Slot)) (h : s.memWf = true) : (s.unparkReqs key seats).memWf = true := by
  grind [State.unparkReqs, State.memWf]

/-- What is laid over the lane tables keeps their form. -/
theorem State.memWf_overlayTables (s : State) (got : List Host.Cell) (l : List Nat) (h : s.memWf = true) :
    State.memWf { s with tables := overlay unwritten s.tables (fun _ => false) got, ltPoison := l } = true := by
  rw [State.memWf_iff] at h ⊢
  obtain ⟨hm, hs, ht⟩ := h
  refine ⟨hm, hs, ?_⟩
  exact Cells.wf_overlay unwritten s.tables (fun _ => false) got ht

theorem State.memWf_loadTables (s : State) (v : Saved) (cells : Option (List Host.Cell)) (from_ sl : Slot) (old new : BitVec 64) (first : Nat)
    (h : s.memWf = true) : (s.loadTables v cells from_ sl old new first).memWf = true :=
  State.memWf_overlayTables _ _ _ (State.memWf_clearTables s sl _ h)

theorem State.memWf_readWindow (s : State) (ctx : BitVec 12) (a : Nat) (t : Thread) (h : s.memWf = true) : (s.readWindow ctx a t).1.memWf = true := by
  grind [State.readWindow, State.memWf_imgHeaders, State.memWf]

theorem State.memWf_readWindows (s : State) (ctx : BitVec 12) (a : Nat) (l : List (Slot × Thread)) (h : s.memWf = true) :
    (s.readWindows ctx a l).1.memWf = true := by
  induction l generalizing s a with
  | nil => exact h
  | cons x l ih => exact ih _ _ (State.memWf_readWindow s ctx a x.2 h)

theorem State.memWf_raiseQ (s : State) (q : BitVec 2) (h : s.memWf = true) : (s.raiseQ q).memWf = true := by
  grind [State.raiseQ, State.memWf_fitLines, State.memWf_releaseLines, State.memWf]

theorem State.memWf_resumeParty (s : State) (k : Task) (w : WaitParty) (sls : List Slot) (v : Saved) (h : s.memWf = true) :
    (s.resumeParty k w sls v).memWf = true := by
  unfold State.resumeParty
  extract_lets ts base read s1 v1 s2 moves tabs engine s3 p s4 s5
  have h1 : s1.memWf = true := State.memWf_readWindows s _ _ _ h
  have h2 : s2.memWf = true := State.memWf_setParts s1 _ h1
  have h3 : s3.memWf = true := by
    refine List.foldlRecOn (motive := fun (a : State × Nat) => a.1.memWf = true) _ _ h2 (fun a ha q _ => ?_)
    refine State.memWf_loadTables _ _ _ _ _ _ _ _ (State.memWf_congr ?_ rfl rfl rfl)
    exact State.memWf_raiseQ _ _ ha
  have h4 : s4.memWf = true := State.memWf_congr h3 rfl rfl rfl
  clear_value s4 engine
  have h5 : s5.memWf = true := by
    dsimp only [s5]
    split
    · exact State.memWf_loadEngine s4 _ _ _ h4
    · exact h4
  exact State.memWf_settleBarriers _ _ (State.memWf_unparkReqs _ _ _ h5)

theorem State.memWf_takeTable (s : State) (h : s.memWf = true) : s.takeTable.memWf = true := by
  grind [State.takeTable, State.memWf]

theorem State.memWf_placeParty (s : State) (w : WaitParty) (sls : List Slot) (h : s.memWf = true) : AllWf (s.placeParty w sls) := by
  grind [State.placeParty, State.memWf_takeTable, State.memWf_dropWords, State.memWf_resumeParty, State.memWf_startParty, AllWf, State.memWf]

theorem State.memWf_partyPlace (s : State) (h : s.memWf = true) : AllWf s.partyPlace := by
  grind [State.partyPlace, State.memWf_placeParty, AllWf, State.memWf]

theorem State.memWf_placeAway (s : State) (key : Nat) (h : s.memWf = true) : AllWf (s.placeAway key) := by
  grind [State.placeAway, State.memWf_putTaskState, AllWf, State.memWf]

theorem State.memWf_partyEnd (s : State) (key : Nat) (h : s.memWf = true) : AllWf (s.partyEnd key) := by
  grind [State.partyEnd, State.memWf_placeAway, State.memWf_sysReleaseFor, State.memWf_completeTask, State.memWf_setTask, AllWf, State.memWf]

theorem State.memWf_priorityAging (s : State) (task : Nat) (h : s.memWf = true) : AllWf (s.priorityAging task) := by
  grind [State.priorityAging, AllWf, State.memWf]

theorem State.memWf_firstPartyBlocks (s : State) (key : Nat) (h : s.memWf = true) : AllWf (s.firstPartyBlocks key) := by
  grind [State.firstPartyBlocks, AllWf, State.memWf]

theorem State.memWf_changeSaved (s : State) (key ptidx : Nat) (f : Thread → Thread) (h : s.memWf = true) :
    (s.changeSaved key ptidx f).memWf = true := by
  refine State.memWf_mapSaved _ _ (State.memWf_foldl _ (fun s w hs => ?_) _ s h)
  dsimp only
  split
  · refine List.foldlRecOn (motive := fun (a : State × Nat) => a.1.memWf = true) _ _ hs (fun a ha t _ => ?_)
    split
    · exact State.memWf_foldl _ (fun s p hs => State.memWf_innPut s _ _ _ hs) _ _ ha
    · exact ha
  · exact hs

theorem State.memWf_landSaved (s : State) (t : Thread) (rid e : Nat) (data : Word) (lost : Bool) (h : s.memWf = true) :
    (s.landSaved t rid e data lost).1.memWf = true := by
  have h1 : (s.setTh 0 { t with held := false, occupied := true }).memWf = true := h
  unfold State.landSaved
  dsimp only
  split
  · exact h
  · next r _ =>
    have h2 := State.memWf_addFlight _ 0 r e data.toNat lost h1
    exact State.memWf_setTh _ _ _ ((State.memWf_dataLanding _ _ _ _ h2).getD h2)

theorem State.memWf_writeSaved (s : State) (q : Req) (key : Nat) (ptidx : Nat) (rid : Nat) (e : Nat) (data : Word) (lost : Bool)
    (h : s.memWf = true) : (s.writeSaved q key ptidx rid e data lost).memWf = true := by
  grind [State.writeSaved, State.memWf_dropReq, State.memWf_changeSaved, State.memWf_landSaved, State.memWf]

theorem State.memWf_settleSaved (s : State) (h : s.memWf = true) : s.settleSaved.memWf = true := by
  refine State.memWf_foldl _ (fun s q hs => ?_) _ s h
  split
  · exact State.memWf_writeSaved s _ _ _ _ _ _ _ hs
  · exact State.memWf_writeSaved s _ _ _ _ _ _ _ hs
  · exact hs

theorem State.memWf_replySaved (s : State) (target : Nat) (h : s.memWf = true) : AllWf (s.replySaved target) := by
  refine .findSome (fun t => ?_) _
  split
  · exact .none
  split
  · exact .none
  · exact .map (fun p hp => State.memWf_billReply _ _ (State.memWf_changeSaved _ _ _ _ (State.memWf_replyTo s _ target true h p hp)))

theorem State.memWf_xtTargetReply (s : State) (target : Nat) (held : Bool) (h : s.memWf = true) : AllWf (s.xtTargetReply target held) :=
  (State.memWf_replySlot s 0 target held h).orElse ((State.memWf_replySlot s 1 target held h).orElse
    ((State.memWf_replySaved s target h).orElse (State.memWf_replyOrphan s target h)))

theorem State.memWf_dropReads (s : State) (sl : Slot) (h : s.memWf = true) : (s.dropReads sl).memWf = true := by
  grind [State.dropReads, State.memWf_setTh, State.memWf]

theorem State.memWf_trapFirst (s : State) (sl : Slot) (h : s.memWf = true) : (s.trapFirst sl).memWf = true := by
  grind [State.trapFirst, State.memWf_setTh, State.memWf_takeTrap, State.memWf_deliverEngine, State.memWf]

theorem State.memWf_sentDone (s : State) (sl : Slot) (h : s.memWf = true) : (s.sentDone sl).memWf = true := by
  refine State.memWf_foldl _ (fun s q hs => ?_) _ s h
  split
  · split
    · split
      · exact State.memWf_ite hs (State.memWf_storeDone s _ _ _ _ _ hs)
      · exact hs
    · exact hs
  · exact hs

theorem State.memWf_finishChain (n : Nat) (s : State) (h : s.memWf = true) : (s.finishChain n).memWf = true := by
  induction n generalizing s with
  | zero => exact h
  | succ n ih =>
    unfold State.finishChain
    split
    · next ht => exact ih _ (State.memWf_turnpikePassEnd s h _ ht)
    split
    · next ht => exact ih _ (State.memWf_reenter s h _ ht)
    · exact h

theorem State.memWf_finishMma (n : Nat) (s : State) (h : s.memWf = true) : (s.finishMma n).memWf = true := by
  induction n generalizing s with
  | zero => exact h
  | succ n ih =>
    unfold State.finishMma
    split
    · split
      · exact h
      split
      · next ht => exact ih _ (State.memWf_matrixQueueServe s h _ ht)
      · exact h
    · exact h

theorem State.memWf_takeEngine (s : State) (tiles : Nat) (h : s.memWf = true) : (s.takeEngine tiles).1.memWf = true := by
  unfold State.takeEngine
  generalize 200 = m
  generalize 300 = n
  have h1 := State.memWf_finishMma n _ (State.memWf_finishChain m s h)
  have h2 (l : List Cmd) := State.memWf_foldl State.settleReady State.memWf_settleReady l _ h1
  exact h2 _

theorem State.memWf_stopThreads (s : State) (sls : List Slot) (h : s.memWf = true) : (s.stopThreads sls).memWf = true :=
  State.memWf_releaseLines _ (State.memWf_foldl _ (fun s sl hs => State.memWf_drainQueue _ sl (State.memWf_parkReqs s sl hs)) sls s h)

theorem State.memWf_preemption (s : State) (key : Nat) (h : s.memWf = true) : AllWf (s.preemption key) := by
  unfold State.preemption
  extract_lets aged sls s1 s2 sls1 s3
  have ha : aged.memWf = true := h
  have h1 : s1.memWf = true := State.memWf_foldl _ State.memWf_dropReads sls aged ha
  have h2 : s2.memWf = true := State.memWf_foldl _ State.memWf_trapFirst sls _ (State.memWf_foldl _ State.memWf_sentDone sls s1 h1)
  have h3 : s3.memWf = true := State.memWf_stopThreads s2 sls1 h2
  clear_value s3
  refine AllWf.ite (AllWf.ite AllWf.none (AllWf.some ha)) (AllWf.ite AllWf.none ?_)
  generalize s3.partyOf key = o
  cases o with
  | none => exact AllWf.some h3
  | some p =>
    dsimp -zeta only
    extract_lets f base s4 v s5
    have h4 : s4.memWf = true := State.memWf_ite h3 (State.memWf_congr (t := { s3 with fresh := s3.fresh + 1 }) h3 rfl rfl rfl)
    clear_value s4
    have h5 : s5.memWf = true := by
      refine State.memWf_foldl _ State.memWf_freeSlot sls1 _ ?_
      cases f.isEngine with
      | true => exact State.memWf_takeEngine s4 f.tiles h4
      | false => exact h4
    clear_value s5
    refine AllWf.some (State.memWf_settleSaved _ ?_)
    exact State.memWf_congr h5 rfl rfl rfl

theorem State.memWf_partySaveDone (s : State) (key : Nat) (h : s.memWf = true) : AllWf (s.partySaveDone key) := by
  grind [State.partySaveDone, State.memWf_innPut, AllWf, State.memWf]

/-! ## Power, wear and reset -/

theorem State.memWf_cowCopyDone (s : State) (leaf : Nat) (h : s.memWf = true) : AllWf (s.cowCopyDone leaf) :=
  .map (fun c _ => State.memWf_cowFinish s c h)

theorem State.memWf_lineWriteback (s : State) (n : Nat) (h : s.memWf = true) : AllWf (s.lineWriteback n) := by
  grind [State.lineWriteback, State.memWf_flushLine, AllWf, State.memWf]

theorem State.memWf_lineDiscard (s : State) (n : Nat) (h : s.memWf = true) : AllWf (s.lineDiscard n) := by
  grind [State.lineDiscard, State.memWf_dropLine, AllWf, State.memWf]

theorem State.memWf_linePrefetch (s : State) (n : Nat) (h : s.memWf = true) : AllWf (s.linePrefetch n) := by
  grind [State.linePrefetch, State.memWf_fillLine, AllWf, State.memWf]

theorem State.memWf_purseInterval (s : State) (h : s.memWf = true) : s.purseInterval.memWf = true := by
  grind [State.purseInterval, State.memWf]

theorem State.memWf_droopDetect (s : State) (h : s.memWf = true) : AllWf s.droopDetect := by
  grind [State.droopDetect, AllWf, State.memWf]

theorem State.memWf_droopEnd (s : State) (h : s.memWf = true) : AllWf s.droopEnd := by
  grind [State.droopEnd, AllWf, State.memWf]

theorem State.memWf_clockStep (s : State) (h : s.memWf = true) : AllWf s.clockStep := by
  grind [State.clockStep, AllWf, State.memWf]

theorem State.memWf_coreGate (s : State) (h : s.memWf = true) : AllWf s.coreGate := by
  have hr := State.memWf_releaseLines s h
  rw [State.memWf_iff] at hr
  exact .ite (.some ((State.memWf_iff _).mpr ⟨hr.1, rfl, rfl⟩)) .none

theorem State.memWf_wakeRequest (s : State) (h : s.memWf = true) : s.wakeRequest.memWf = true := by
  grind [State.wakeRequest, State.memWf]

theorem State.memWf_wakeRampDone (s : State) (h : s.memWf = true) : AllWf s.wakeRampDone := by
  grind [State.wakeRampDone, AllWf, State.memWf]

theorem State.memWf_addCe (s : State) (d : Fin 4) (h : s.memWf = true) : (s.addCe d).memWf = true := by
  grind [State.addCe, State.memWf]

theorem State.memWf_markLane (s : State) (k : Fin 64) (h : s.memWf = true) : (s.markLane k).memWf = true := by
  grind [State.markLane, State.memWf_settleLanes, State.memWf]

theorem State.memWf_correctableError (s : State) (die : Fin 4) (site : ErrSite) (marks : Bool) (h : s.memWf = true) :
    (s.correctableError die site marks).memWf = true := by
  grind [State.correctableError, State.memWf_addCe, State.memWf_markLane, State.memWf]

theorem State.memWf_coreRetire (s : State) (h : s.memWf = true) : AllWf s.coreRetire := by
  grind [State.coreRetire, State.memWf_noteRetired, AllWf, State.memWf]

theorem State.memWf_resetEvent (s : State) : s.resetEvent.memWf = true := rfl

/-! ## What the core does by itself -/

theorem State.memWf_cmdEvent (s : State) (c : Cmd) (h : s.memWf = true) : AllWf (s.cmdEvent c) := by
  refine (State.memWf_courierBeginPerforming s _ h).orElse (.orElse ?_ (State.memWf_commandComplete s _ h))
  split
  · exact State.memWf_courierElementTransfer s _ _ h
  · exact .none

theorem State.memWf_engineEvent (s : State) (h : s.memWf = true) : AllWf s.engineEvent :=
  (AllWf.firstStep (fun c => .some (State.memWf_cowFinish s c h)) _).orElse ((AllWf.firstStep (fun c => State.memWf_cmdEvent s c h) _).orElse
    ((State.memWf_matrixQueueServe s h).orElse ((State.memWf_turnpikePassEnd s h).orElse ((State.memWf_turnpikeEntry s h).orElse
      ((State.memWf_pkloadPerform s h).orElse (State.memWf_pkcfgPerform s h))))))

theorem State.memWf_slotEvent (s : State) (sl : Slot) (h : s.memWf = true) : AllWf (s.slotEvent sl) :=
  (State.memWf_windowEvent s sl h).orElse ((State.memWf_branchResolve s sl h).orElse (State.memWf_vpCohortIssue s sl h))

theorem State.memWf_freeEvent (s : State) (sl : Slot) (h : s.memWf = true) : AllWf (s.freeEvent sl) :=
  (AllWf.firstStep (fun k => State.memWf_registerFree s sl false k h) _).orElse (.firstStep (fun k => State.memWf_registerFree s sl true k h) _)

theorem State.memWf_internal (s : State) (sl : Slot) (h : s.memWf = true) : AllWf (s.internal sl) :=
  (State.memWf_queueNext s _ h).orElse ((State.memWf_queueNext s _ h).orElse ((State.memWf_slotEvent s _ h).orElse ((State.memWf_engineEvent s
    h).orElse
    ((State.memWf_slotEvent s _ h).orElse ((State.memWf_freeEvent s _ h).orElse (State.memWf_trapEntry s _ h))))))

theorem State.memWf_idleEvent (s : State) (h : s.memWf = true) : AllWf s.idleEvent :=
  (State.memWf_engineEvent s h).orElse ((AllWf.firstStep (fun (p : Party) => State.memWf_partyEnd s p.key h) _).orElse
    ((AllWf.firstStep (fun (p : Party) => State.memWf_partySaveDone s p.key h) _).orElse ((State.memWf_launchListTake s h).orElse
      ((State.memWf_serviceWorkDone s h).orElse (State.memWf_partyPlace s h)))))

theorem State.memWf_service (s : State) (sl : Slot) (n : Nat) (h : s.memWf = true) : AllWf (s.service sl n) := by
  unfold State.service
  dsimp only
  split
  · exact State.memWf_svcInfo s _ h
  · exact State.memWf_svcCtxnew s _ h
  · exact State.memWf_svcCtxend s _ h
  · exact State.memWf_svcCtxreport s _ h
  · exact State.memWf_svcPostreg s _ h
  · exact State.memWf_svcPostunreg s _ h
  · exact State.memWf_svcPrepol s _ h
  · exact State.memWf_svcBkset s _ h
  · exact State.memWf_svcFwinset s _ h
  · exact State.memWf_svcLinktest s _ h
  · exact State.memWf_svcMlimset s _ h
  · exact State.memWf_svcVecbind s _ h
  · exact State.memWf_svcAttest s _ h
  · exact State.memWf_svcIdkey s _ h
  · exact State.memWf_svcSpeedtbl s _ h
  · exact State.memWf_svcStraggle s _ h
  · exact State.memWf_svcVfmem s _ h
  · exact State.memWf_svcChconfirm s _ h
  · exact State.memWf_svcTaskabort s _ h
  · exact .some (State.memWf_serveUnknown s _ h)

theorem State.memWf_unstall (s : State) (sl : Slot) (h : s.memWf = true) : (s.unstall sl).memWf = true := by
  grind [State.unstall, State.memWf_setTh, State.memWf]

end Sys2Proof.Machine
end

section
/-! O7 TO O9, THIRD PART. Each instruction and event answers, with the form kept (R37, R196). -/

namespace Sys2Proof.Machine

/-- An outcome that answers: a next state, whose byte memories are in canonical form where `w` holds. -/
def Answers (w : Prop) (o : Out) : Prop := ∃ t, o = .next t ∧ (w → t.memWf = true)

theorem answers_next_iff {w : Prop} {t : State} : Answers w (.next t) ↔ (w → t.memWf = true) := by
  constructor
  · rintro ⟨u, he, hu⟩
    cases he
    exact hu
  · exact fun h => ⟨t, rfl, h⟩

theorem Answers.next {w : Prop} {t : State} (h : w → t.memWf = true) : Answers w (.next t) := ⟨t, rfl, h⟩

theorem Answers.ite {w c : Prop} {_ : Decidable c} {o p : Out} (ho : Answers w o) (hp : Answers w p) : Answers w (if c then o else p) := by
  split
  · exact ho
  · exact hp

theorem State.answers_after {w : Prop} {s : State} {o : Option State} (h : w → s.memWf = true) (ho : w → AllWf o) : Answers w (s.after o) :=
  .next fun hw => (ho hw).getD (h hw)

/-! ## The operations of a thread on its registers and memory -/

theorem State.answers_commitAt {w : Prop} (s : State) (t : Thread) (pc : Word) (h : w → s.memWf = true) : Answers w (s.commitAt t pc) := by
  grind [State.commitAt, State.memWf_committed, answers_next_iff]

theorem State.answers_commit {w : Prop} (s : State) (t : Thread) (h : w → s.memWf = true) : Answers w (s.commit t) := by
  grind [State.commit, State.answers_commitAt, answers_next_iff]

theorem State.answers_stall {w : Prop} (s : State) (h : w → s.memWf = true) : Answers w s.stall := by
  grind [State.stall, State.memWf_stalledMe, answers_next_iff]

/-! ## Window events and traps -/

theorem State.answers_trapWord {w : Prop} (s : State) (i : TrapInfo) (h : w → s.memWf = true) : Answers w (s.trapWord i) := by
  grind [State.trapWord, State.memWf_takeTrap, State.memWf_settleFor, State.memWf_setMe, answers_next_iff]

theorem State.answers_wordTrap {w : Prop} (s : State) (cause : BitVec 8) (addr : Nat) (h : w → s.memWf = true) :
    Answers w (s.wordTrap cause addr) := by
  grind [State.wordTrap, State.answers_trapWord, answers_next_iff]

theorem State.answers_illegal {w : Prop} (s : State) (h : w → s.memWf = true) : Answers w s.illegal := by
  grind [State.illegal, State.answers_wordTrap, answers_next_iff]

theorem State.answers_stallPool {w : Prop} (s : State) (h : w → s.memWf = true) : Answers w s.stallPool := by
  grind [State.stallPool, State.answers_stall, State.memWf_setMe, answers_next_iff]

theorem State.answers_issueRule {w : Prop} (s : State) (i : Instr) (h : w → s.memWf = true) : Answers w (s.issueRule i) := by
  grind [State.issueRule, State.answers_illegal, State.answers_wordTrap, State.answers_stall, State.answers_stallPool, State.answers_commit,
    answers_next_iff]

theorem State.answers_vpf {w : Prop} (s : State) (i : Instr) (k : BitVec 4) (o : BitVec 20) (h : w → s.memWf = true) : Answers w (s.vpf i k o) := by
  grind [State.vpf, State.answers_illegal, State.answers_wordTrap, State.answers_stall, State.answers_stallPool, State.answers_commit,
    State.memWf_readHeader, answers_next_iff, Header.Wf]

/-! ## Scalar arithmetic and branches -/

theorem State.answers_alu2 {w : Prop} (s : State) (d : BitVec 5) (a : BitVec 5) (b : BitVec 5) (f : Word → Word → Word)
    (h : w → s.memWf = true) : Answers w (s.alu2 d a b f) := by
  grind [State.alu2, State.answers_commit, answers_next_iff]

theorem State.answers_alu1 {w : Prop} (s : State) (d : BitVec 5) (a : BitVec 5) (f : Word → Word) (h : w → s.memWf = true) :
    Answers w (s.alu1 d a f) := by
  grind [State.alu1, State.answers_commit, answers_next_iff]

theorem answers_execLih {w : Prop} (d : BitVec 5) (i : BitVec 16) (s : State) (h : w → s.memWf = true) : Answers w (execLih d i s) := by
  grind [execLih, State.answers_commit, answers_next_iff]

theorem answers_execAddpc {w : Prop} (d : BitVec 5) (i : BitVec 16) (s : State) (h : w → s.memWf = true) : Answers w (execAddpc d i s) := by
  grind [execAddpc, State.answers_commit, answers_next_iff]

theorem State.answers_branch {w : Prop} (s : State) (a : BitVec 5) (b : BitVec 5) (o : BitVec 16) (c : Word → Word → Bool)
    (h : w → s.memWf = true) : Answers w (s.branch a b o c) := by
  grind [State.branch, State.answers_commitAt, answers_next_iff]

theorem answers_execJ {w : Prop} (o : BitVec 26) (s : State) (h : w → s.memWf = true) : Answers w (execJ o s) := by
  grind [execJ, State.answers_commitAt, answers_next_iff]

theorem answers_execJr {w : Prop} (a : BitVec 5) (s : State) (h : w → s.memWf = true) : Answers w (execJr a s) := by
  grind [execJr, State.answers_wordTrap, State.answers_commitAt, answers_next_iff]

/-! ## Scalar loads, stores, atomics, calls and returns -/

theorem State.answers_scalarLoad {w : Prop} (s : State) (d : BitVec 5) (a : BitVec 5) (o : BitVec 12) (n : Nat) (sgn : Bool)
    (h : w → s.memWf = true) : Answers w (s.scalarLoad d a o n sgn) := by
  grind [State.scalarLoad, State.answers_stall, State.answers_commit, State.answers_wordTrap, State.memWf_deferLoad, State.memWf_load,
    answers_next_iff, AllWf, Access.Wf]

theorem State.answers_scalarStore {w : Prop} (s : State) (d : BitVec 5) (a : BitVec 5) (o : BitVec 12) (n : Nat) (h : w → s.memWf = true) :
    Answers w (s.scalarStore d a o n) := by
  grind [State.scalarStore, State.answers_stall, State.answers_wordTrap, State.answers_commit, State.memWf_storeCheck, State.memWf_dropEarly,
    State.memWf_touch, State.memWf_enqueue, State.memWf_storeLocs, answers_next_iff, Acc.Wf]

theorem State.memWf_touchLeaf (s : State) (leaf : Option Leaf) (write : Bool) (h : s.memWf = true) :
    (match leaf with | some l => s.touch l write | none => s).memWf = true := by
  cases leaf with
  | none => exact h
  | some l => exact State.memWf_touch s l write h

theorem State.answers_samo {w : Prop} (s : State) (op : AmoOp) (d a b : BitVec 5) (sc : BitVec 3) (o w1 : BitVec 2) (h : w → s.memWf = true) :
    Answers w (s.samo op d a b sc o w1) := by
  unfold State.samo
  extract_lets t va wide n rel acq
  refine .ite (State.answers_stall s h) ?_
  have hc := fun hw => State.memWf_amoCheck s t op va n (h hw)
  generalize s.amoCheck t op va n = r at hc ⊢
  rcases r with ⟨s1, locs, leaf⟩ | ⟨s1, c, x⟩ | s1
  case trap => exact State.answers_wordTrap s1 _ _ hc
  case wait => exact State.answers_stall s1 hc
  dsimp -zeta only
  extract_lets e cached inLine st sq done
  have hdone (s : State) (v : Word) (hs : w → s.memWf = true) : Answers w (done s v) :=
    State.answers_commit _ _ fun hw =>
      State.memWf_dropEarly _ _ _ (State.memWf_ite (State.memWf_forgetEarly _ _ (State.memWf_acquire _ _ (hs hw))) (hs hw))
  clear_value done
  have touched (s : State) (hs : w → s.memWf = true) := fun hw => State.memWf_touchLeaf s leaf true (hs hw)
  refine .ite (State.answers_commit _ _ fun hw => State.memWf_enqueue _ _ _ _ _ (touched s1 hc hw)) (.ite (State.answers_stall s1 hc) ?_)
  have hr : w → (if rel = true then s1.release sc.toNat else (s1, true)).1.memWf = true := fun hw => by
    split
    · exact State.memWf_release s1 _ (hc hw)
    · exact hc hw
  generalize (if rel = true then s1.release sc.toNat else (s1, true)) = r at hr ⊢
  obtain ⟨s2, done⟩ := r
  cases done with
  | false => exact State.answers_stall s2 hr
  | true =>
    dsimp -zeta only
    extract_lets s3
    have h3 : w → s3.memWf = true := touched s2 hr
    clear_value s3
    have hremote (pa : Nat) : Answers w (match s3.remote s3.cur pa (.atomic op (decide wide) (t.rd b) (t.rd d)) va.toNat with
        | .done s v => done s v
        | .wait s => s.stall
        | .trap s c x => s.wordTrap c x) := by
      have hq := fun hw => State.memWf_remote s3 s3.cur pa (.atomic op (decide wide) (t.rd b) (t.rd d)) va.toNat (h3 hw)
      generalize s3.remote s3.cur pa (.atomic op (decide wide) (t.rd b) (t.rd d)) va.toNat = q at hq ⊢
      rcases q with ⟨s4, v⟩ | ⟨s4, c, x⟩ | s4
      · exact hdone s4 v hq
      · exact State.answers_wordTrap s4 c x hq
      · exact State.answers_stall s4 hq
    cases firstLoc locs with
    | peer pa | host pa => exact hremote pa
    | home pa =>
      have hq : w → (if inLine then s3.lineAtomic op (decide wide) pa (t.rd b) (t.rd d) else s3.homeAtomic op (decide wide) pa (t.rd b) (t.rd
        d)).1.memWf = true :=
        fun hw => by
          split
          · exact State.memWf_lineAtomic s3 _ _ _ _ _ (h3 hw)
          · exact State.memWf_homeAtomic s3 _ _ _ _ _ (h3 hw)
      dsimp only
      generalize (if inLine then s3.lineAtomic op (decide wide) pa (t.rd b) (t.rd d) else s3.homeAtomic op (decide wide) pa (t.rd b) (t.rd d)) =
        q at hq ⊢
      obtain ⟨s4, v⟩ := q
      cases v with
      | none => exact State.answers_wordTrap s4 _ _ hq
      | some v => exact hdone s4 v hq
    | sp | tol | ptol | view | nowhere => exact State.answers_wordTrap s3 _ _ h3

theorem State.answers_call {w : Prop} (s : State) (target : Word) (h : w → s.memWf = true) : Answers w (s.call target) := by
  grind [State.call, State.answers_stall, State.answers_wordTrap, State.answers_commitAt, State.memWf_storeCheck, State.memWf_touch,
    State.memWf_storeLocs, State.memWf_dropEarly, answers_next_iff, Acc.Wf]

theorem answers_execRet {w : Prop} (s : State) (h : w → s.memWf = true) : Answers w (execRet s) := by
  grind [execRet, State.answers_stall, State.answers_wordTrap, State.answers_commitAt, State.memWf_load, answers_next_iff, Access.Wf]

/-! ## System instructions -/

theorem State.answers_trapWhenDone {w : Prop} (s : State) (i : TrapInfo) (h : w → s.memWf = true) : Answers w (s.trapWhenDone i) := by
  grind [State.trapWhenDone, State.answers_stall, State.memWf_takeTrap, State.memWf_settleFor, answers_next_iff]

theorem State.answers_serviceCall {w : Prop} (s : State) (n : BitVec 7) (i : TrapInfo) (h : w → s.memWf = true) : Answers w (s.serviceCall n i) := by
  grind [State.serviceCall, State.memWf_releaseLines, State.memWf_setMe, answers_next_iff]

theorem answers_execTrap {w : Prop} (n : BitVec 7) (s : State) (h : w → s.memWf = true) : Answers w (execTrap n s) := by
  grind [execTrap, State.answers_serviceCall, State.answers_trapWhenDone, answers_next_iff]

theorem answers_execEret {w : Prop} (s : State) (h : w → s.memWf = true) : Answers w (execEret s) := by
  grind [execEret, State.answers_wordTrap, State.answers_stall, State.memWf_dropWords, State.memWf_releaseLines, State.memWf_restartStream,
    State.memWf_setMe, State.memWf_dropScalar, answers_next_iff, State.memWf]

theorem answers_execRdcfg {w : Prop} (d : BitVec 5) (c : BitVec 7) (s : State) (h : w → s.memWf = true) : Answers w (execRdcfg d c s) := by
  grind [execRdcfg, State.answers_illegal, State.answers_wordTrap, State.answers_stall, State.answers_commit, answers_next_iff]

theorem State.answers_writePurse {w : Prop} (s : State) (v : Word) (h : w → s.memWf = true) : Answers w (s.writePurse v) := by
  grind [State.writePurse, State.answers_wordTrap, State.answers_commit, State.memWf_setCtx, answers_next_iff]

theorem answers_execWrcfg {w : Prop} (a : BitVec 5) (c : BitVec 7) (s : State) (h : w → s.memWf = true) : Answers w (execWrcfg a c s) := by
  grind [execWrcfg, State.answers_illegal, State.answers_wordTrap, State.answers_stall, State.answers_writePurse, State.answers_commit,
    answers_next_iff]

theorem answers_execFence {w : Prop} (p : Bool) (q : Bool) (r : Bool) (t : Bool) (sc : BitVec 3) (s : State) (h : w → s.memWf = true) :
    Answers w (execFence p q r t sc s) := by
  grind [execFence, State.answers_stall, State.answers_commit, State.memWf_enqueue, State.memWf_release, State.memWf_forgetEarly,
    State.memWf_acquire, answers_next_iff]

theorem answers_execExit {w : Prop} (s : State) (h : w → s.memWf = true) : Answers w (execExit s) := by
  grind [execExit, State.answers_stall, State.memWf_leave, State.memWf_dropScalar, State.memWf_releaseLines, answers_next_iff]

theorem answers_execYield {w : Prop} (s : State) (h : w → s.memWf = true) : Answers w (execYield s) := by
  grind [execYield, State.answers_commit, answers_next_iff]

theorem answers_execSplice {w : Prop} (n : BitVec 8) (s : State) (h : w → s.memWf = true) : Answers w (execSplice n s) := by
  grind [execSplice, State.answers_stall, State.answers_commit, State.answers_commitAt, State.memWf_acquireStep, State.memWf_seenBinding,
    answers_next_iff]

theorem answers_execLaunch {w : Prop} (a : BitVec 5) (s : State) (h : w → s.memWf = true) : Answers w (execLaunch a s) := by
  grind [execLaunch, State.answers_stall, State.answers_wordTrap, State.answers_commit, State.memWf_scalarCheck, State.memWf_touch,
    State.memWf_linkLaunch, State.memWf_releaseLines, answers_next_iff, Acc.Wf]

/-! ## Barriers, work pools and counters -/

theorem State.answers_barReturn {w : Prop} (s : State) (d : BitVec 5) (report : Word) (h : w → s.memWf = true) :
    Answers w (s.barReturn d report) := by
  grind [State.barReturn, State.answers_commit, State.memWf_acquireStep, answers_next_iff]

theorem answers_execBar {w : Prop} (d : BitVec 5) (n : BitVec 4) (s : State) (h : w → s.memWf = true) : Answers w (execBar d n s) := by
  grind [execBar, State.answers_barReturn, State.answers_stall, State.memWf_releaseLines, State.memWf_setMe, State.memWf_barArrive, answers_next_iff]

theorem answers_execBara {w : Prop} (d : BitVec 5) (n : BitVec 4) (s : State) (h : w → s.memWf = true) : Answers w (execBara d n s) := by
  grind [execBara, State.answers_stall, State.answers_commit, State.memWf_releaseLines, State.memWf_barArrive, answers_next_iff]

theorem answers_execBarw {w : Prop} (d : BitVec 5) (a : BitVec 5) (n : BitVec 4) (s : State) (h : w → s.memWf = true) :
    Answers w (execBarw d a n s) := by
  grind [execBarw, State.answers_barReturn, State.answers_stall, answers_next_iff]

theorem answers_execBarexp {w : Prop} (a : BitVec 5) (n : BitVec 4) (s : State) (h : w → s.memWf = true) : Answers w (execBarexp a n s) := by
  grind [execBarexp, State.answers_wordTrap, State.answers_commit, State.memWf_barExpect, answers_next_iff]

theorem answers_execTake {w : Prop} (d : BitVec 5) (p : BitVec 3) (s : State) (h : w → s.memWf = true) : Answers w (execTake d p s) := by
  grind [execTake, State.answers_commit, State.memWf_takenAway, State.memWf_setTask, answers_next_iff]

theorem answers_execLrel {w : Prop} (p : BitVec 3) (s : State) (h : w → s.memWf = true) : Answers w (execLrel p s) := by
  grind [execLrel, State.answers_commit, State.memWf_setTask, answers_next_iff]

theorem answers_execWaitc {w : Prop} (d : BitVec 5) (a : BitVec 5) (b : BitVec 5) (s : State) (h : w → s.memWf = true) :
    Answers w (execWaitc d a b s) := by
  unfold execWaitc
  extract_lets t va done
  have hdone (s : State) (v : Word) (hs : w → s.memWf = true) : Answers w (done s v) :=
    State.answers_commit _ _ fun hw => State.memWf_acquireStep s _ (hs hw)
  clear_value done
  refine .ite (State.answers_stall s h) ?_
  have hr := fun hw => State.memWf_counterCheck s t false va (h hw)
  generalize s.counterCheck t false va = r at hr ⊢
  rcases r with ⟨s1, locs, leaf⟩ | ⟨s1, c, x⟩ | s1
  case trap => exact State.answers_wordTrap s1 _ _ hr
  case wait => exact State.answers_stall s1 hr
  refine .ite (State.answers_stall s1 hr) ?_
  extract_lets s2
  have h2 : w → s2.memWf = true := fun hw => State.memWf_touchLeaf s1 leaf false (hr hw)
  clear_value s2
  have hread (s2 : State) (pa : Nat) (h2 : w → s2.memWf = true) : Answers w (match s2.remote s2.cur pa (.read 8) va.toNat with
      | .trap s c x => s.wordTrap c x
      | .wait s => s.stall
      | .done s v => if (t.rd b).toNat ≤ v.toNat then done s v else (s.dropScalar s.cur).stall) := by
    have hq := fun hw => State.memWf_remote s2 s2.cur pa (.read 8) va.toNat (h2 hw)
    generalize s2.remote s2.cur pa (.read 8) va.toNat = q at hq ⊢
    rcases q with ⟨s3, v⟩ | ⟨s3, c, x⟩ | s3
    · exact .ite (hdone s3 v hq) (State.answers_stall _ fun hw => State.memWf_dropScalar s3 _ (hq hw))
    · exact State.answers_wordTrap s3 c x hq
    · exact State.answers_stall s3 hq
  have hlocal (s : State) (hs : w → s.memWf = true) : Answers w (if locs.any s.locLost then s.wordTrap 0x28 va.toNat
      else if (t.rd b).toNat ≤ (wordOf (locs.map s.locByte)).toNat then done s (wordOf (locs.map s.locByte)) else s.stall) :=
    .ite (State.answers_wordTrap s _ _ hs) (.ite (hdone s _ hs) (State.answers_stall s hs))
  cases firstLoc locs with
  | peer pa | host pa => exact hread s2 pa h2
  | home pa => exact hlocal _ fun hw => State.memWf_flushLine s2 _ (h2 hw)
  | sp | tol | ptol | view | nowhere => exact hlocal s2 h2

theorem answers_execCadd {w : Prop} (d : BitVec 5) (a : BitVec 5) (b : BitVec 5) (s : State) (h : w → s.memWf = true) :
    Answers w (execCadd d a b s) := by
  grind [execCadd, State.answers_stall, State.answers_wordTrap, State.answers_commit, State.memWf_counterCheck, State.memWf_releaseLines,
    State.memWf_touch, State.memWf_remote, State.memWf_homeAtomic, answers_next_iff, Acc.Wf, Access.Wf]

/-! ## The Courier -/

theorem State.answers_engineWord {w : Prop} (s : State) (go : State → Out) (h : w → s.memWf = true)
    (hgo : ∀ s, (w → s.memWf = true) → Answers w (go s)) : Answers w (s.engineWord go) := by
  grind [State.engineWord, State.answers_illegal, State.answers_wordTrap, answers_next_iff]

theorem State.answers_post {w : Prop} (s : State) (room : Bool) (stream : Nat) (ext : List Extent) (bases : List (Word × Nat))
    (put : State → State) (h : w → s.memWf = true) (hput : ∀ s, s.memWf = true → (put s).memWf = true) :
    Answers w (s.post room stream ext bases put) := by
  grind [State.post, State.answers_stall, State.answers_commit, State.memWf_releaseLines, answers_next_iff, State.memWf]

theorem State.answers_postCmd {w : Prop} (s : State) (str : BitVec 4) (kind : CmdKind) (bases : List (Word × Nat)) (counter : Word) (c : Bool)
    (n : BitVec 4) (i : BitVec 4) (h : w → s.memWf = true) : Answers w (s.postCmd str kind bases counter c n i) := by
  grind [State.postCmd, State.answers_post, State.memWf_addCmd, answers_next_iff]

theorem answers_execCpy {w : Prop} (g : BitVec 5) (str : BitVec 4) (v : BitVec 5) (c : Bool) (n : BitVec 4) (i : BitVec 4) (s : State)
    (h : w → s.memWf = true) : Answers w (execCpy g str v c n i s) := by
  grind [execCpy, State.answers_engineWord, State.answers_wordTrap, State.answers_postCmd, answers_next_iff]

theorem State.answers_rows {w : Prop} (s : State) (gather : Bool) (g : BitVec 5) (str : BitVec 4) (v : BitVec 5) (c : Bool) (n : BitVec 4)
    (i : BitVec 4) (h : w → s.memWf = true) : Answers w (s.rows gather g str v c n i) := by
  grind [State.rows, State.answers_engineWord, State.answers_wordTrap, State.answers_postCmd, answers_next_iff]

theorem answers_execCpymg {w : Prop} (g : BitVec 5) (str : BitVec 4) (v : BitVec 5) (c : Bool) (n : BitVec 4) (i : BitVec 4) (s : State)
    (h : w → s.memWf = true) : Answers w (execCpymg g str v c n i s) :=
  State.answers_engineWord s _ h fun s hs => .ite (State.answers_wordTrap s _ _ hs) (State.answers_postCmd s _ _ _ _ _ _ _ hs)

theorem answers_execCwtld {w : Prop} (g : BitVec 5) (str : BitVec 4) (c : Bool) (n : BitVec 4) (i : BitVec 4) (s : State)
    (h : w → s.memWf = true) : Answers w (execCwtld g str c n i s) := by
  grind [execCwtld, State.answers_engineWord, State.answers_wordTrap, State.answers_postCmd, answers_next_iff]

theorem answers_execCsbar {w : Prop} (g : BitVec 5) (s : State) (h : w → s.memWf = true) : Answers w (execCsbar g s) := by
  grind [execCsbar, State.answers_engineWord, State.answers_wordTrap, State.answers_commit, State.answers_post, State.memWf_addCmd, answers_next_iff]

theorem answers_execCresume {w : Prop} (str : BitVec 4) (s : State) (h : w → s.memWf = true) : Answers w (execCresume str s) := by
  grind [execCresume, State.answers_engineWord, State.answers_commit, State.memWf_restartStream, answers_next_iff]

/-! ## Transactions across modules -/

theorem answers_execXbegin {w : Prop} (s : State) (h : w → s.memWf = true) : Answers w (execXbegin s) := by
  grind [execXbegin, State.answers_wordTrap, State.answers_commit, answers_next_iff]

theorem answers_execXabort {w : Prop} (s : State) (h : w → s.memWf = true) : Answers w (execXabort s) := by
  grind [execXabort, State.answers_commit, State.memWf_discard, answers_next_iff]

theorem answers_execXst {w : Prop} (d : BitVec 5) (a : BitVec 5) (s : State) (h : w → s.memWf = true) : Answers w (execXst d a s) := by
  grind [execXst, State.answers_wordTrap, State.answers_commit, State.answers_stall, State.memWf_stageCheck, State.memWf_touch,
    State.memWf_sendFlits, answers_next_iff, Acc.Wf]

theorem State.answers_closeTxn {w : Prop} (s : State) (d : BitVec 5) (code : BitVec 8) (h : w → s.memWf = true) : Answers w (s.closeTxn d code) := by
  grind [State.closeTxn, State.answers_commit, answers_next_iff]

theorem answers_execXcommit {w : Prop} (d : BitVec 5) (s : State) (h : w → s.memWf = true) : Answers w (execXcommit d s) := by
  grind [execXcommit, State.answers_commit, State.answers_stall, State.answers_closeTxn, State.memWf_sysRelease, State.memWf_discard,
    State.memWf_sendFlits, State.memWf_txDecide, State.memWf_setMe, answers_next_iff]

/-! ## The window and tag image -/

theorem answers_execWsave {w : Prop} (a : BitVec 5) (s : State) (h : w → s.memWf = true) : Answers w (execWsave a s) := by
  unfold execWsave
  extract_lets t va
  refine .ite (State.answers_wordTrap s _ _ h) (.ite (State.answers_illegal s h) (.ite ?_ (.ite (State.answers_wordTrap s _ _ h)
    (.ite (State.answers_stall s h) ?_))))
  · exact .ite (State.answers_stall s h) (State.answers_commit s t h)
  have hr := fun hw => State.memWf_rangeCheck s t va (imageSize t.regBytes / 8) (h hw)
  generalize s.rangeCheck t va (imageSize t.regBytes / 8) = r at hr ⊢
  rcases r with s1 | ⟨s1, _⟩ | ⟨s1, c, x⟩ | s1
  case inr.trap => exact State.answers_wordTrap s1 _ _ hr
  case inr.wait => exact State.answers_stall s1 hr
  case inr.done => exact State.answers_stall s1 hr
  have h2 : w → (s1.storeWords t va t.image).releaseLines.memWf = true :=
    fun hw => State.memWf_releaseLines _ (State.memWf_storeWords s1 t va _ (hr hw))
  exact .ite (.next fun hw => State.memWf_setMe _ _ (h2 hw)) (State.answers_commit _ _ h2)

theorem answers_execWload {w : Prop} (a : BitVec 5) (s : State) (h : w → s.memWf = true) : Answers w (execWload a s) := by
  unfold execWload
  extract_lets t va
  refine .ite (State.answers_wordTrap s _ _ h) (.ite (State.answers_illegal s h) (.ite (State.answers_wordTrap s _ _ h) ?_))
  have hr := fun hw => State.memWf_loadWords s s.cur t va (imageSize t.regBytes / 8) [] (h hw)
  generalize s.loadWords s.cur t va (imageSize t.regBytes / 8) [] = r at hr ⊢
  rcases r with ⟨s1, l⟩ | ⟨s1, _⟩ | ⟨s1, c, x⟩ | s1
  case inr.trap => exact State.answers_wordTrap s1 _ _ hr
  case inr.wait => exact State.answers_stall s1 hr
  case inr.done => exact State.answers_stall s1 hr
  have hi := fun hw => State.memWf_imgHeaders s1 s1.me l.reverse.toArray (imgVpfEntries l.reverse.toArray) (hr hw)
  generalize hg : s1.imgHeaders s1.me l.reverse.toArray (imgVpfEntries l.reverse.toArray) = g at hi
  dsimp only
  rw [hg]
  obtain ⟨s2, heads⟩ := g
  cases heads with
  | none => exact State.answers_stall s2 hi
  | some heads =>
    dsimp only
    cases s2.me.install l.reverse.toArray heads with
    | none => exact State.answers_wordTrap s2 _ _ hi
    | some u => exact State.answers_commit _ u fun hw => State.memWf_relinkMrd s2 _ _ _ (hi hw)

/-! ## The matrix engine -/

theorem answers_execMcfg {w : Prop} (m : BitVec 5) (n : BitVec 5) (k : BitVec 5) (a : BitVec 2) (b : BitVec 4) (s : State)
    (h : w → s.memWf = true) : Answers w (execMcfg m n k a b s) := by
  grind [execMcfg, State.answers_engineWord, State.answers_wordTrap, State.answers_commit, answers_next_iff, State.memWf]

theorem State.answers_accWord {w : Prop} (s : State) (a : BitVec 2) (go : State → Out) (h : w → s.memWf = true)
    (hgo : ∀ s, (w → s.memWf = true) → Answers w (go s)) : Answers w (s.accWord a go) := by
  grind [State.accWord, State.answers_engineWord, State.answers_wordTrap, answers_next_iff]

theorem answers_execMzero {w : Prop} (a : BitVec 2) (s : State) (h : w → s.memWf = true) : Answers w (execMzero a s) := by
  grind [execMzero, State.answers_accWord, State.answers_stall, State.answers_commit, State.memWf_releaseLines, State.memWf_addMat,
    answers_next_iff, State.memWf]

theorem answers_execMma {w : Prop} (c : BitVec 2) (x : BitVec 5) (y : BitVec 5) (s : State) (h : w → s.memWf = true) :
    Answers w (execMma c x y s) := by
  grind [execMma, State.answers_accWord, State.answers_wordTrap, State.answers_post, State.memWf_addMat, answers_next_iff, State.memWf]

theorem answers_execMst {w : Prop} (c : BitVec 2) (x : BitVec 5) (f : BitVec 3) (s : State) (h : w → s.memWf = true) :
    Answers w (execMst c x f s) := by
  grind [execMst, State.answers_accWord, State.answers_post, State.memWf_addMat, answers_next_iff]

theorem answers_execMmav {w : Prop} (g : BitVec 5) (v : BitVec 5) (str : BitVec 4) (s : State) (h : w → s.memWf = true) :
    Answers w (execMmav g v str s) := by
  grind [execMmav, State.answers_engineWord, State.answers_wordTrap, State.answers_post, State.memWf_addMat, State.memWf_addCmd, answers_next_iff]

theorem answers_execMrd {w : Prop} (c : BitVec 2) (d : BitVec 5) (q : BitVec 5) (m : BitVec 4) (s : State) (h : w → s.memWf = true) :
    Answers w (execMrd c d q m s) := by
  grind [execMrd, State.answers_accWord, State.answers_wordTrap, State.answers_illegal, State.answers_stall, State.answers_stallPool,
    State.answers_commit, State.memWf_releaseLines, State.memWf_addMat, answers_next_iff]

/-! ## Translation maintenance -/

theorem State.answers_snapr {w : Prop} (s : State) (d : BitVec 5) (a : BitVec 5) (b : BitVec 5) (x : Bool) (h : w → s.memWf = true) :
    Answers w (s.snapr d a b x) := by
  grind [State.snapr, State.answers_wordTrap, State.answers_stall, State.answers_commit, State.memWf_releaseLines, State.memWf_snapMark,
    State.memWf_tlbInvalidate, answers_next_iff]

theorem answers_execTlbinv {w : Prop} (a : BitVec 5) (b : BitVec 5) (s : State) (h : w → s.memWf = true) : Answers w (execTlbinv a b s) := by
  grind [execTlbinv, State.answers_wordTrap, State.answers_stall, State.answers_commit, State.memWf_wordsInvalidate, State.memWf_tlbInvalidate,
    answers_next_iff]

theorem answers_execPgpool {w : Prop} (d : BitVec 5) (a : BitVec 5) (b : BitVec 5) (s : State) (h : w → s.memWf = true) :
    Answers w (execPgpool d a b s) := by
  unfold execPgpool
  extract_lets t va n
  refine .ite (State.answers_wordTrap s _ _ h) (.ite (State.answers_wordTrap s _ _ h) ?_)
  have hr := fun hw => State.memWf_loadList s s.cur t va n (h hw)
  generalize s.loadList s.cur t va n = r at hr ⊢
  rcases r with ⟨s1, l⟩ | ⟨s1, _⟩ | ⟨s1, c, x⟩ | s1
  case inr.trap => exact State.answers_wordTrap s1 _ _ hr
  case inr.wait => exact State.answers_stall s1 hr
  case inr.done => exact State.answers_stall s1 hr
  refine .ite (State.answers_wordTrap s1 _ _ hr) (State.answers_commit _ _ fun hw => State.memWf_payOwed _ ?_)
  exact State.memWf_congr (hr hw) rfl rfl rfl

/-! ## The Turnpike chain -/

theorem State.answers_pikeWord {w : Prop} (s : State) (go : State → Out) (h : w → s.memWf = true)
    (hgo : ∀ s, (w → s.memWf = true) → Answers w (go s)) : Answers w (s.pikeWord go) := by
  grind [State.pikeWord, State.answers_wordTrap, answers_next_iff]

theorem answers_execPkcfg {w : Prop} (a : BitVec 5) (s : State) (h : w → s.memWf = true) : Answers w (execPkcfg a s) := by
  refine State.answers_pikeWord s _ h fun s h => ?_
  extract_lets t va
  refine .ite (State.answers_wordTrap s _ _ h) (.ite (State.answers_stall s h) ?_)
  have hr := fun hw => State.memWf_loadList s s.cur t va 64 (h hw)
  generalize s.loadList s.cur t va 64 = r at hr ⊢
  rcases r with ⟨s1, l⟩ | ⟨s1, _⟩ | ⟨s1, c, x⟩ | s1
  case inr.trap => exact State.answers_wordTrap s1 _ _ hr
  case inr.wait => exact State.answers_stall s1 hr
  case inr.done => exact State.answers_stall s1 hr
  exact .ite (State.answers_wordTrap s1 _ _ hr)
    (State.answers_post s1 _ _ _ _ _ hr fun s hs =>
      State.memWf_congr (State.memWf_addPike s (.cfg (pkConf (wordBytes l))) hs) rfl rfl rfl)

theorem answers_execPkload {w : Prop} (a : BitVec 5) (n : BitVec 4) (s : State) (h : w → s.memWf = true) : Answers w (execPkload a n s) := by
  refine State.answers_pikeWord s _ h fun s h => ?_
  extract_lets t va c kind
  refine .ite (State.answers_wordTrap s _ _ h) (.ite (State.answers_stall s h) ?_)
  have hr := fun hw => State.memWf_loadList s s.cur t va 2 (h hw)
  generalize s.loadList s.cur t va 2 = r at hr ⊢
  rcases r with ⟨s1, l⟩ | ⟨s1, _⟩ | ⟨s1, c, x⟩ | s1
  case inr.trap => exact State.answers_wordTrap s1 _ _ hr
  case inr.wait => exact State.answers_stall s1 hr
  case inr.done => exact State.answers_stall s1 hr
  obtain ⟨cap, size⟩ := kind.entries
  dsimp -zeta only
  extract_lets hd nact nent zeros
  refine .ite (State.answers_wordTrap s1 _ _ hr) ?_
  have hr := fun hw => State.memWf_loadList s1 s1.cur t (va + 16) (2 * nact + nent * (size / 8)) (hr hw)
  generalize s1.loadList s1.cur t (va + 16) (2 * nact + nent * (size / 8)) = r at hr ⊢
  rcases r with ⟨s1, l⟩ | ⟨s1, _⟩ | ⟨s1, c, x⟩ | s1
  case inr.trap => exact State.answers_wordTrap s1 _ _ hr
  case inr.wait => exact State.answers_stall s1 hr
  case inr.done => exact State.answers_stall s1 hr
  exact .ite (State.answers_wordTrap s1 _ _ hr) (State.answers_post s1 _ _ _ _ _ hr fun s hs => State.memWf_addPike s _ hs)

theorem answers_execPkswap {w : Prop} (m : BitVec 12) (s : State) (h : w → s.memWf = true) : Answers w (execPkswap m s) := by
  grind [execPkswap, State.answers_pikeWord, State.answers_wordTrap, State.answers_commit, State.answers_post, State.memWf_addPike, answers_next_iff]

theorem answers_execPkfeed {w : Prop} (a : BitVec 5) (b : BitVec 5) (s : State) (h : w → s.memWf = true) : Answers w (execPkfeed a b s) := by
  grind [execPkfeed, State.answers_pikeWord, State.answers_wordTrap, State.answers_commit, State.answers_post, State.memWf_addPike, answers_next_iff]

theorem answers_execPkmiss {w : Prop} (d : BitVec 5) (n : BitVec 7) (s : State) (h : w → s.memWf = true) : Answers w (execPkmiss d n s) := by
  grind [execPkmiss, State.answers_pikeWord, State.answers_wordTrap, State.answers_stall, State.answers_commit, answers_next_iff]

theorem State.answers_drainSpool {w : Prop} (s : State) (d : BitVec 5) (a : BitVec 5) (clr : Bool) (h : w → s.memWf = true) :
    Answers w (s.drainSpool d a clr) := by
  grind [State.drainSpool, State.answers_pikeWord, State.answers_wordTrap, State.answers_stall, State.answers_commit, answers_next_iff, State.memWf]

/-! ## Grants, segments and tags -/

theorem State.answers_grant {w : Prop} (s : State) (d : BitVec 5) (request : Nat) (wlog : BitVec 2) (q : BitVec 2) (h : w → s.memWf = true) :
    Answers w (s.grant d request wlog q) := by
  grind [State.grant, State.answers_illegal, State.answers_stall, State.answers_commit, State.memWf_takeGrant, answers_next_iff]

theorem answers_execSetfib {w : Prop} (d : BitVec 5) (a : BitVec 5) (b : BitVec 5) (wd : BitVec 2) (k : BitVec 4) (s : State)
    (h : w → s.memWf = true) : Answers w (execSetfib d a b wd k s) := by
  unfold execSetfib
  extract_lets t g
  refine .ite (State.answers_illegal s h) (.ite (State.answers_stall s h) (.ite (State.answers_stallPool s h) ?_))
  have hr := fun hw => State.memWf_packRows s t s.cur (t.rd a) (g.grantCap s.gfact wd.toNat) (min (t.rd b).toNat 256)
    { rows := 0, total := 0, starts := [] } (h hw)
  generalize s.packRows t s.cur (t.rd a) (g.grantCap s.gfact wd.toNat) (min (t.rd b).toNat 256)
    { rows := 0, total := 0, starts := [] } = r at hr ⊢
  rcases r with ⟨s1, l⟩ | ⟨s1, _⟩ | ⟨s1, c, x⟩ | s1
  case inr.trap => exact State.answers_wordTrap s1 _ _ hr
  case inr.wait => exact State.answers_stall s1 hr
  case inr.done => exact State.answers_stall s1 hr
  have h2 : w → (s1.takeGrant s1.cur wd none).memWf = true := fun hw => State.memWf_takeGrant s1 _ _ _ (hr hw)
  exact .ite (State.answers_commit _ _ h2) (State.answers_commit _ _ h2)

theorem answers_execVtag {w : Prop} (d : BitVec 5) (c : BitVec 4) (s : State) (h : w → s.memWf = true) : Answers w (execVtag d c s) := by
  grind [execVtag, State.answers_illegal, State.answers_commit, State.answers_stall, State.answers_stallPool, answers_next_iff]

/-! ## Events -/

theorem answers_execPurseInterval {w : Prop} (s : State) (h : w → s.memWf = true) : Answers w (execPurseInterval s) := by
  grind [execPurseInterval, State.memWf_purseInterval, answers_next_iff]

theorem answers_execWakeRequest {w : Prop} (s : State) (h : w → s.memWf = true) : Answers w (execWakeRequest s) := by
  grind [execWakeRequest, State.memWf_wakeRequest, answers_next_iff]

theorem answers_execCorrectableError {w : Prop} (die : Fin 4) (site : ErrSite) (marks : Bool) (s : State) (h : w → s.memWf = true) :
    Answers w (execCorrectableError die site marks s) := by
  grind [execCorrectableError, State.memWf_correctableError, answers_next_iff]

theorem answers_execReset {w : Prop} (s : State) : Answers w (execReset s) :=
  .next fun _ => State.memWf_resetEvent s

/-! ## Mask results in scalar registers -/

theorem answers_execMffs {w : Prop} (d : BitVec 5) (a : BitVec 5) (s : State) (h : w → s.memWf = true) : Answers w (execMffs d a s) := by
  grind [execMffs, State.answers_illegal, State.answers_stall, State.answers_commit, answers_next_iff]

theorem answers_execMpopc {w : Prop} (d : BitVec 5) (a : BitVec 5) (s : State) (h : w → s.memWf = true) : Answers w (execMpopc d a s) := by
  grind [execMpopc, State.answers_illegal, State.answers_stall, State.answers_commit, answers_next_iff]

/-! ## Lane tables -/

theorem answers_execTblb {w : Prop} (d : BitVec 5) (a : BitVec 5) (b : BitVec 5) (s : State) (h : w → s.memWf = true) :
    Answers w (execTblb d a b s) := by
  grind [execTblb, State.answers_wordTrap, State.answers_issueRule, answers_next_iff]

/-! ## Moves between the vector and scalar sides -/

theorem answers_execVmvs {w : Prop} (d : BitVec 5) (a : BitVec 5) (b : BitVec 5) (s : State) (h : w → s.memWf = true) :
    Answers w (execVmvs d a b s) := by
  grind [execVmvs, State.answers_illegal, State.answers_commit, State.answers_stall, answers_next_iff]

/-! ## The coordinate walker -/

theorem answers_execCwalk {w : Prop} (d : BitVec 5) (c : BitVec 5) (e : BitVec 5) (p : BitVec 5) (s : State) (h : w → s.memWf = true) :
    Answers w (execCwalk d c e p s) := by
  grind [execCwalk, State.answers_engineWord, State.answers_wordTrap, State.answers_illegal, State.answers_stall, State.answers_post,
    State.memWf_setMe, answers_next_iff, State.memWf]

/-! ## What the core does by itself -/

theorem State.answers_runInstr {w : Prop} (s : State) (s1 : State) (i : Instr) (run : State → Out) (h : w → s1.memWf = true)
    (hrun : ∀ s, (w → s.memWf = true) → Answers w (run s)) : Answers w (s.runInstr s1 i run) :=
  .ite (hrun s1 h) (State.answers_stall s1 h)

theorem exec_answers {w : Prop} (i : Instr) (s : State) (h : w → s.memWf = true) : Answers w (exec i s) := by
  unfold exec
  cases i with
    | add | sub | and | or | xor | sll | srl | sra | ror | slt | sltn | mul | mulh | mulhn | div | divn | rem | remn | min | max | minn |
    maxn =>
    exact State.answers_alu2 s _ _ _ _ h
    | clz | ctz | spopc | sextb | sexth | sextw | addi | andi | ori | xori | slti | sltni | slli | srli | srai | rori | lix =>
    exact State.answers_alu1 s _ _ _ h
    | lih => exact answers_execLih _ _ s h
    | addpc => exact answers_execAddpc _ _ s h
    | ldb | ldh | ldw | ldd | ldbn | ldhn | ldwn => exact State.answers_scalarLoad s _ _ _ _ _ h
    | stb | sth | stw | std => exact State.answers_scalarStore s _ _ _ _ h
    | amoadd | amoand | amoor | amoxor | amomin | amomax | amominn | amomaxn | amoswap | amocas => exact State.answers_samo s _ _ _ _ _ _ _ h
    | beq | bne | blt | bge | bltn | bgen => exact State.answers_branch s _ _ _ _ h
    | j => exact answers_execJ _ s h
    | call | callr => exact State.answers_call s _ h
    | jr => exact answers_execJr _ s h
    | ret => exact answers_execRet s h
    | trap => exact answers_execTrap _ s h
    | eret => exact answers_execEret s h
    | rdcfg => exact answers_execRdcfg _ _ s h
    | wrcfg => exact answers_execWrcfg _ _ s h
    | fence => exact answers_execFence _ _ _ _ _ s h
    | brk => exact State.answers_trapWhenDone s _ h
    | exit => exact answers_execExit s h
    | yield => exact answers_execYield s h
    | splice => exact answers_execSplice _ s h
    | launch => exact answers_execLaunch _ s h
    | wsave => exact answers_execWsave _ s h
    | wload => exact answers_execWload _ s h
    | snapr | snaprX => exact State.answers_snapr s _ _ _ _ h
    | tlbinv => exact answers_execTlbinv _ _ s h
    | pgpool => exact answers_execPgpool _ _ _ s h
    | bar => exact answers_execBar _ _ s h
    | bara => exact answers_execBara _ _ s h
    | barw => exact answers_execBarw _ _ _ s h
    | barexp => exact answers_execBarexp _ _ s h
    | take => exact answers_execTake _ _ s h
    | lrel => exact answers_execLrel _ s h
    | waitc => exact answers_execWaitc _ _ _ s h
    | cadd => exact answers_execCadd _ _ _ s h
    | setvl | setvli => exact State.answers_grant s _ _ _ _ h
    | setfib => exact answers_execSetfib _ _ _ _ _ s h
    | vtag => exact answers_execVtag _ _ s h
    | vadd | vsub | vrsub | vaddw | vsubw | vmul | vmulh | vdiv | vrem | vmin | vmax | vabs | vneg | vand | vor | vxor | vsll | vsrl | vsra
    | vcvt | vaddi | vsubi | vrsubi | vaddwi | vsubwi | vmuli | vmini | vmaxi | vandi | vori | vxori | vslli | vsrli | vsrai | vcmpeq |
    vcmpne | vcmplt | vcmple | vcmpgt | vcmpge | vcmpun | mand | mor | mxor | mandn | mnot | msbf | msif | msof | viota | vid | vrgather |
    vrgather2 | vslideup | vslidedown | vslide1up | vslide1down | vcompress | vpush | vwmul | vwmacc | vwadd | vncvt | vnshr | vsplat | vext
    | vfsqrt | vfrec | vfrsqrt | vfclass | vfsgnj | vfsgnjn | vfsgnjx | vfmadd | vfmsub | vfrmsub | vfnmadd | vredsumo | vredsumt | vredmin
    | vredmax | vredand | vredor | vredxor | vscansum | vscanmin | vscanmax | vld | vldStrided | vldIndexed | vldFf | vst | vstStrided |
    vstIndexed | vamoadd | vamoand | vamoor | vamoxor | vamomin | vamomax | vamominn | vamomaxn | vamoswap | vamocas | vltl | vlts =>
    exact State.answers_issueRule s _ h
    | vmvs => exact answers_execVmvs _ _ _ s h
    | mffs => exact answers_execMffs _ _ s h
    | mpopc => exact answers_execMpopc _ _ s h
    | tblb => exact answers_execTblb _ _ _ s h
    | vpf => exact State.answers_vpf s _ _ _ h
    | vpbr | vpj | vpstop => exact State.answers_illegal s h
    | cpy => exact answers_execCpy _ _ _ _ _ _ s h
    | cpyg | cpys => exact State.answers_rows s _ _ _ _ _ _ _ h
    | cpymg => exact answers_execCpymg _ _ _ _ _ _ s h
    | cwtld => exact answers_execCwtld _ _ _ _ _ s h
    | csbar => exact answers_execCsbar _ s h
    | cresume => exact answers_execCresume _ s h
    | mcfg => exact answers_execMcfg _ _ _ _ _ s h
    | mzero => exact answers_execMzero _ s h
    | mma => exact answers_execMma _ _ _ s h
    | mmav => exact answers_execMmav _ _ _ s h
    | mrd => exact answers_execMrd _ _ _ _ s h
    | mst => exact answers_execMst _ _ _ s h
    | cwalk => exact answers_execCwalk _ _ _ _ s h
    | pkcfg => exact answers_execPkcfg _ s h
    | pkload => exact answers_execPkload _ _ s h
    | pkswap => exact answers_execPkswap _ s h
    | pkfeed => exact answers_execPkfeed _ _ s h
    | pkmiss => exact answers_execPkmiss _ _ s h
    | pkdrain | pkdrainClr => exact State.answers_drainSpool s _ _ _ h
    | xbegin => exact answers_execXbegin s h
    | xst => exact answers_execXst _ _ s h
    | xcommit => exact answers_execXcommit _ s h
    | xabort => exact answers_execXabort s h
    | elementFire => exact State.answers_after h fun hw => State.memWf_elementFire s _ _ _ (h hw)
    | carryCopy => exact State.answers_after h fun hw => State.memWf_carryCopy s _ _ (h hw)
    | retire => exact State.answers_after h fun hw => State.memWf_retire s _ (h hw)
    | registerFree => exact State.answers_after h fun hw => State.memWf_registerFree s _ _ _ (h hw)
    | branchResolve => exact State.answers_after h fun hw => State.memWf_branchResolve s _ (h hw)
    | elementAccess => exact State.answers_after h fun hw => State.memWf_elementAccess s _ _ _ (h hw)
    | dataLanding => exact State.answers_after h fun hw => State.memWf_dataLanding s _ _ _ (h hw)
    | cowCopyDone => exact State.answers_after h fun hw => State.memWf_cowCopyDone s _ (h hw)
    | baseDieAtomic => exact State.answers_after h fun hw => State.memWf_baseDieAtomic s _ _ _ _ _ (h hw)
    | lineWriteback => exact State.answers_after h fun hw => State.memWf_lineWriteback s _ (h hw)
    | lineDiscard => exact State.answers_after h fun hw => State.memWf_lineDiscard s _ (h hw)
    | linePrefetch => exact State.answers_after h fun hw => State.memWf_linePrefetch s _ (h hw)
    | dirtyLineTimeout => exact State.answers_after h fun hw => State.memWf_lineWriteback s _ (h hw)
    | cleanLineTimeout => exact State.answers_after h fun hw => State.memWf_lineDiscard s _ (h hw)
    | trapEntry => exact State.answers_after h fun hw => State.memWf_trapEntry s _ (h hw)
    | vpCohortIssue => exact State.answers_after h fun hw => State.memWf_vpCohortIssue s _ (h hw)
    | grantWaitEnd => exact State.answers_after h fun hw => State.memWf_grantWaitEnd s _ (h hw)
    | quarterMoveDone => exact State.answers_after h fun hw => State.memWf_quarterMoveDone s (h hw)
    | engineFaultDelivery => exact State.answers_after h fun hw => State.memWf_engineFaultDelivery s _ (h hw)
    | courierBeginPerforming => exact State.answers_after h fun hw => State.memWf_courierBeginPerforming s _ (h hw)
    | courierElementTransfer => exact State.answers_after h fun hw => State.memWf_courierElementTransfer s _ _ (h hw)
    | commandComplete => exact State.answers_after h fun hw => State.memWf_commandComplete s _ (h hw)
    | matrixQueueServe => exact State.answers_after h fun hw => State.memWf_matrixQueueServe s (h hw)
    | barrierWaitEnd => exact State.answers_after h fun hw => State.memWf_barrierWaitEnd s _ (h hw)
    | waitcCounterRead => exact State.answers_after h fun hw => State.memWf_waitcCounterRead s _ (h hw)
    | turnpikeEntry => exact State.answers_after h fun hw => State.memWf_turnpikeEntry s (h hw)
    | turnpikePassEnd => exact State.answers_after h fun hw => State.memWf_turnpikePassEnd s (h hw)
    | pkloadPerform => exact State.answers_after h fun hw => State.memWf_pkloadPerform s (h hw)
    | pkcfgPerform => exact State.answers_after h fun hw => State.memWf_pkcfgPerform s (h hw)
    | postAreaTake => exact State.answers_after h fun hw => State.memWf_postAreaTake s _ (h hw)
    | launchListTake => exact State.answers_after h fun hw => State.memWf_launchListTake s (h hw)
    | watchCounterRead => exact State.answers_after h fun hw => State.memWf_watchCounterRead s _ (h hw)
    | partyPlace => exact State.answers_after h fun hw => State.memWf_partyPlace s (h hw)
    | preemption => exact State.answers_after h fun hw => State.memWf_preemption s _ (h hw)
    | partySaveDone => exact State.answers_after h fun hw => State.memWf_partySaveDone s _ (h hw)
    | partyEnd => exact State.answers_after h fun hw => State.memWf_partyEnd s _ (h hw)
    | priorityAging => exact State.answers_after h fun hw => State.memWf_priorityAging s _ (h hw)
    | purseInterval => exact answers_execPurseInterval s h
    | energyDebit => exact State.answers_after h fun hw => State.memWf_energyDebit s _ _ (h hw)
    | droopDetect => exact State.answers_after h fun hw => State.memWf_droopDetect s (h hw)
    | droopEnd => exact State.answers_after h fun hw => State.memWf_droopEnd s (h hw)
    | clockStep => exact State.answers_after h fun hw => State.memWf_clockStep s (h hw)
    | coreGate => exact State.answers_after h fun hw => State.memWf_coreGate s (h hw)
    | wakeRequest => exact answers_execWakeRequest s h
    | wakeRampDone => exact State.answers_after h fun hw => State.memWf_wakeRampDone s (h hw)
    | correctableError => exact answers_execCorrectableError _ _ _ s h
    | coreRetire => exact State.answers_after h fun hw => State.memWf_coreRetire s (h hw)
    | linkShed => exact State.answers_after h fun hw => State.memWf_linkShed s _ (h hw)
    | linkWiden => exact State.answers_after h fun hw => State.memWf_linkWiden s _ (h hw)
    | linkWidthChangeDone => exact State.answers_after h fun hw => State.memWf_linkWidthChangeDone s _ (h hw)
    | linkFault => exact State.answers_after h fun hw => State.memWf_linkFault s _ (h hw)
    | routeTimeout =>
    exact State.answers_after h fun hw => .map fun x hx => State.memWf_settleSaved x (State.memWf_routeTimeout s _ (h hw) x hx)
    | peerRequest => exact State.answers_after h fun hw => State.memWf_peerRequest s _ _ _ (h hw)
    | peerReply => exact State.answers_after h fun hw => .map fun x hx => State.memWf_settleSaved x (State.memWf_peerReply s _ _ (h hw) x hx)
    | xtTargetReply => exact State.answers_after h fun hw => State.memWf_xtTargetReply s _ _ (h hw)
    | hostBarAccess => exact State.answers_after h fun hw => State.memWf_hostBarAccess s _ _ _ _ (h hw)
    | hostAtomicop => exact State.answers_after h fun hw => State.memWf_hostAtomicop s _ _ _ _ _ _ _ (h hw)
    | registerWrite => exact State.answers_after h fun hw => State.memWf_registerWrite s _ _ _ (h hw)
    | reset => exact answers_execReset s
    | info => exact State.answers_after h fun hw => State.memWf_svcInfo s _ (h hw)
    | ctxnew => exact State.answers_after h fun hw => State.memWf_svcCtxnew s _ (h hw)
    | ctxend => exact State.answers_after h fun hw => State.memWf_svcCtxend s _ (h hw)
    | ctxreport => exact State.answers_after h fun hw => State.memWf_svcCtxreport s _ (h hw)
    | postreg => exact State.answers_after h fun hw => State.memWf_svcPostreg s _ (h hw)
    | postunreg => exact State.answers_after h fun hw => State.memWf_svcPostunreg s _ (h hw)
    | prepol => exact State.answers_after h fun hw => State.memWf_svcPrepol s _ (h hw)
    | bkset => exact State.answers_after h fun hw => State.memWf_svcBkset s _ (h hw)
    | fwinset => exact State.answers_after h fun hw => State.memWf_svcFwinset s _ (h hw)
    | linktest => exact State.answers_after h fun hw => State.memWf_svcLinktest s _ (h hw)
    | mlimset => exact State.answers_after h fun hw => State.memWf_svcMlimset s _ (h hw)
    | vecbind => exact State.answers_after h fun hw => State.memWf_svcVecbind s _ (h hw)
    | attest => exact State.answers_after h fun hw => State.memWf_svcAttest s _ (h hw)
    | idkey => exact State.answers_after h fun hw => State.memWf_svcIdkey s _ (h hw)
    | speedtbl => exact State.answers_after h fun hw => State.memWf_svcSpeedtbl s _ (h hw)
    | straggle => exact State.answers_after h fun hw => State.memWf_svcStraggle s _ (h hw)
    | vfmem => exact State.answers_after h fun hw => State.memWf_svcVfmem s _ (h hw)
    | chconfirm => exact State.answers_after h fun hw => State.memWf_svcChconfirm s _ (h hw)
    | taskabort => exact State.answers_after h fun hw => State.memWf_svcTaskabort s _ (h hw)
    | serviceWorkDone => exact State.answers_after h fun hw => State.memWf_serviceWorkDone s (h hw)
    | firstPartyBlocksPlacement => exact State.answers_after h fun hw => State.memWf_firstPartyBlocks s _ (h hw)
    | linkGainsTraining => exact State.answers_after h fun hw => State.memWf_linkGainsTraining s _ (h hw)
    | pcieCompletion =>
    exact State.answers_after h fun hw => .map fun x hx => State.memWf_settleSaved x (State.memWf_pcieCompletion s _ _ (h hw) x hx)

end Sys2Proof.Machine
end

section
/-! O7 TO O9, LAST PART. A step of the machine (R37, R196, R284). -/

namespace Sys2Proof.Machine

/-- What the Porter finds at the pc: an instruction with the state after its fetch, or an outcome that answers. -/
theorem State.nextInstr_cases {w : Prop} (s : State) (h : w → s.memWf = true) :
    (∃ i t, s.nextInstr = .instr i t ∧ (w → t.memWf = true)) ∨ ∃ o, s.nextInstr = .out o ∧ Answers w o := by
  unfold State.nextInstr
  extract_lets t
  cases t.breakAt t.pc with
  | some k => exact .inr ⟨_, rfl, State.answers_trapWord s _ h⟩
  | none =>
    have hf := fun hw => State.memWf_fetch s t t.pc (h hw)
    generalize s.fetch t t.pc = f at hf
    cases f with
    | trap s1 c a => exact .inr ⟨_, rfl, State.answers_wordTrap s1 c a hf⟩
    | wait s1 => exact .inr ⟨_, rfl, State.answers_stall s1 hf⟩
    | word s1 v =>
      dsimp only
      cases decode v with
      | ok i => exact .inl ⟨i, s1, rfl, hf⟩
      | error e => exact .inr ⟨_, rfl, State.answers_illegal s1 hf⟩

theorem State.answers_engineFirst {w : Prop} (s : State) (isExit : Bool) (o : Out) (h : w → s.memWf = true) (ho : Answers w o) :
    Answers w (s.engineFirst isExit o) := by
  unfold State.engineFirst
  extract_lets t
  refine .ite ho (.ite ?_ (.next fun hw => State.memWf_setMe s _ (h hw)))
  cases t.vec.oldestFault with
  | some f => exact .next fun hw => State.memWf_takeTrap s _ _ (h hw)
  | none => exact .next fun hw => State.memWf_deliverEngine s _ (h hw)

theorem State.answers_runWord {w : Prop} (s : State) (h : w → s.memWf = true) : Answers w s.runWord := by
  have hr : Answers w (match s.nextInstr with | .instr i s' => (isExit i, s.runInstr s' i (exec i)) | .out o => (false, o)).2 := by
    obtain ⟨i, t, he, ht⟩ | ⟨o, he, ho⟩ := s.nextInstr_cases h
    · rw [he]
      exact State.answers_runInstr s t i _ ht fun u hu => exec_answers i u hu
    · rw [he]
      exact ho
  exact .ite (State.answers_engineFirst s _ _ h hr) hr

theorem State.answers_runSlot {w : Prop} (s : State) (h : w → s.memWf = true) : Answers w s.runSlot := by
  have hword : Answers w (if s.waits s.cur then .next ((s.internal s.cur).getD (s.unstall s.cur)) else s.runWord) :=
    .ite (.next fun hw => (State.memWf_internal s _ (h hw)).getD (State.memWf_unstall s _ (h hw))) (State.answers_runWord s h)
  unfold State.runSlot
  cases s.me.wait with
  | none => exact hword
  | some k =>
    cases k with
    | service n =>
      refine .next fun hw => AllWf.getD (.orElse (.firstStep (fun c => .some (State.memWf_cowFinish s c (h hw))) _) ?_) (h hw)
      exact State.memWf_service s _ _ (h hw)
    | _ => exact hword

/-- A word tried at a boundary: the slot's own state, what the word leaves, or that with ESTATUS.PREEMPT set. -/
theorem State.memWf_tryWord (s : State) (sl : Slot) (mark : Bool) (h : s.memWf = true) : (s.tryWord sl mark State.runWord).memWf = true := by
  unfold State.tryWord
  extract_lets t
  refine State.memWf_ite h ?_
  obtain ⟨s1, he, h1⟩ := State.answers_runWord (w := s.memWf = true) { s with cur := sl } (fun h => h)
  rw [he]
  have h2 : State.memWf { s1 with cur := s.cur } = true := h1 h
  exact State.memWf_ite h2 (State.memWf_ite (State.memWf_setTh _ _ _ h2) h)

theorem State.memWf_atBoundary (s : State) (e : Instr) (h : s.memWf = true) : (s.atBoundary e State.runWord).memWf = true := by
  unfold State.atBoundary
  cases e with
  | preemption key =>
    have hs := State.memWf_foldl (fun s sl => s.tryWord sl true State.runWord) (fun s sl hs => State.memWf_tryWord s sl true hs)
      (s.slotsOf key) s h
    exact State.memWf_ite (State.memWf_ite hs h) h
  | engineFaultDelivery sl => exact State.memWf_ite (State.memWf_tryWord s sl false h) h
  | _ => exact h

/-- A step faults on an agenda that begins with no event, and otherwise answers. -/
theorem step_cases (s : State) : (s.agendaOk = true ∧ Answers (s.memWf = true) (step s)) ∨ (s.agendaOk = false ∧ step s = .fault .notAnEvent) := by
  unfold State.agendaOk step
  cases s.agenda with
  | nil =>
    refine .inl ⟨rfl, ?_⟩
    dsimp only
    cases s.turn with
    | some sl => exact State.answers_runSlot _ fun h => State.memWf_congr h rfl rfl rfl
    | none => exact .next fun h => (State.memWf_idleEvent s h).getD h
  | cons e rest =>
    dsimp only
    cases e.wellFormed && (encode e).isNone with
    | true =>
      rw [if_pos rfl]
      exact .inl ⟨rfl, exec_answers e _ fun h => State.memWf_atBoundary { s with agenda := rest } e h⟩
    | false => exact .inr ⟨rfl, if_neg Bool.false_ne_true⟩

/-- Settles O7: each arm of `exec` answers (`exec_answers`). -/
theorem execAlwaysAnswers : Obligations.ExecAlwaysAnswers := by
  unfold Obligations.ExecAlwaysAnswers
  intro i s
  obtain ⟨t, he, -⟩ := exec_answers (w := False) i s False.elim
  exact ⟨t, he⟩

/-- Settles O8: `step_cases`. -/
theorem stepStopsOnlyOnBadAgenda : Obligations.StepStopsOnlyOnBadAgenda := by
  unfold Obligations.StepStopsOnlyOnBadAgenda
  intro s
  obtain ⟨hok, t, he, -⟩ | ⟨hbad, he⟩ := step_cases s
  · exact ⟨fun _ => ⟨t, he⟩, fun h => Bool.noConfusion (hok.symm.trans h)⟩
  · exact ⟨fun h => Bool.noConfusion (hbad.symm.trans h), fun _ => he⟩

/-- Settles O9: an answer of `step` keeps the canonical form (`step_cases`). -/
theorem stepKeepsMemoryForm : Obligations.StepKeepsMemoryForm := by
  unfold Obligations.StepKeepsMemoryForm
  intro s t h ht
  obtain ⟨-, u, he, hu⟩ | ⟨-, he⟩ := step_cases s
  · cases he.symm.trans ht
    exact hu h
  · exact nomatch he.symm.trans ht

end Sys2Proof.Machine
end

section
/-! O45, FIRST PART. Integers and patterns at an element: exact results clamped, wrapped or cut to vd's width, the narrowing shift, shifts and signs
(R58, R59, R111 to R113, R121, R124). -/

namespace Sys2Proof.Machine

theorem Tag.bits_cases (t : Tag) : t.bits = 8 ∨ t.bits = 16 ∨ t.bits = 32 ∨ t.bits = 64 := by cases t <;> decide

theorem Tag.fmt_of_not_float {t : Tag} (h : t.isFloat = false) : t.fmt = none := by
  simpa [Tag.isFloat] using h

/-- The halves of the pattern space of an integer tag, as `omega` reads them. -/
theorem Tag.two_pow_bits (t : Tag) : (2 ^ t.bits : Nat) = 2 * 2 ^ (t.bits - 1) ∧ 0 < 2 ^ (t.bits - 1) := by
  refine ⟨?_, Nat.two_pow_pos _⟩
  have h : t.bits = t.bits - 1 + 1 := by have := t.bits_cases; omega
  conv_lhs => rw [h, Nat.pow_succ, Nat.mul_comm]

theorem intBits_lt (n : Nat) (v : Int) : intBits n v < 2 ^ n := by
  have h := Int.emod_lt_of_pos v (show (0 : Int) < 2 ^ n by positivity)
  have h0 := Int.emod_nonneg v (show (2 ^ n : Int) ≠ 0 by positivity)
  zify
  rw [intBits, Int.toNat_of_nonneg h0]
  exact h

theorem intBits_cast (n : Nat) (v : Int) : (intBits n v : Int) = v % 2 ^ n :=
  Int.toNat_of_nonneg (Int.emod_nonneg v (by positivity))

/-- A number in the range of a tag is read back from its pattern (R58). -/
theorem Tag.toInt_intBits (t : Tag) {v : Int} (hl : t.lo ≤ v) (hh : v ≤ t.hi) : t.toInt (intBits t.bits v) = v := by
  have hb := intBits_cast t.bits v
  have hlt := intBits_lt t.bits v
  obtain ⟨h2, hp⟩ := t.two_pow_bits
  have h2i : (2 ^ t.bits : Int) = 2 * 2 ^ (t.bits - 1) := by exact_mod_cast h2
  have hpi : ((2 ^ (t.bits - 1) : Nat) : Int) = 2 ^ (t.bits - 1) := by push_cast; rfl
  unfold Tag.lo Tag.hi at *
  simp only [Tag.toInt, Nat.mod_eq_of_lt hlt]
  generalize intBits t.bits v = b at *
  cases hs : t.isSigned <;> simp only [hs, if_true, Bool.false_eq_true, if_false, Bool.true_and, Bool.false_and, decide_eq_true_eq] at *
  · rw [hb, Int.emod_eq_of_lt hl (by omega)]
  · by_cases hv : 0 ≤ v
    · rw [Int.emod_eq_of_lt hv (by omega)] at hb
      rw [if_neg (by omega), hb]
    · rw [← Int.add_emod_right, Int.emod_eq_of_lt (by omega) (by omega)] at hb
      rw [if_pos (by omega)]; omega

theorem Tag.lo_le_hi (t : Tag) : t.lo ≤ t.hi := by cases t <;> decide

theorem Tag.clamped_clamp (t : Tag) (v : Int) : Clamped t v (t.clamp v) := by
  have hlh := t.lo_le_hi
  unfold Tag.clamp
  split_ifs with h1 h2
  · exact ⟨by rw [t.toInt_intBits (le_refl _) hlh]; omega, intBits_lt _ _, rfl, (if_neg (by omega)).symm⟩
  · exact ⟨by rw [t.toInt_intBits hlh (le_refl _)]; omega, intBits_lt _ _, rfl, (if_neg (by omega)).symm⟩
  · exact ⟨by rw [Res.plain, t.toInt_intBits (by omega) (by omega)]; omega, intBits_lt _ _, rfl, (if_pos (by omega)).symm⟩

@[simp] theorem Tag.clamp_fl (t : Tag) (v : Int) : (t.clamp v).fl = 0 := (t.clamped_clamp v).2.2.1

theorem Val.int_toTag {td : Tag} (h : td.isFloat = false) (n : Int) (rm : Nat) : (Val.int n).toTag td rm = td.clamp n := by
  simp only [Val.toTag, Tag.fmt_of_not_float h]

theorem Tag.value_int {t : Tag} (h : t.isFloat = false) (b : Nat) : t.value b = .int (t.toInt b) := by
  simp only [Tag.value, Tag.fmt_of_not_float h]

theorem computing_ints {a b : Tag} (ha : a.isFloat = false) (hb : b.isFloat = false) : computing [a, b] = none := by
  simp [computing, ha, hb]

section
variable {td ta tb : Tag} (hd : td.isFloat = false) (ha : ta.isFloat = false) (hb : tb.isFloat = false)
include ha

theorem Opd.isSig_int (x : Nat) : Opd.isSig { bits := x, tag := ta } = false := by
  simp only [Opd.isSig, Tag.fmt_of_not_float ha]

include hb

theorem ints_int (x y : Nat) : ints { bits := x, tag := ta } { bits := y, tag := tb } = true := by simp [ints, ha, hb]

include hd

/-- Between integers the exact result is clamped to vd's range (R58, R108). -/
theorem arith2_int (fi : Int → Int → Int) (ff : Nat → FVal → FVal → Exact) (rm x y : Nat) :
    arith2 fi ff td rm { bits := x, tag := ta } { bits := y, tag := tb } = td.clamp (fi (ta.toInt x) (tb.toInt y)) := by
  simp only [arith2, computing_ints ha hb, Val.int_toTag hd, Opd.int]

omit hb in
theorem arith1_int (fi : Int → Int) (ff : FVal → Exact) (rm x : Nat) (ob : Opd) :
    arith1 fi ff td rm { bits := x, tag := ta } ob = td.clamp (fi (ta.toInt x)) := by
  rw [arith1, arith2_int hd ha ha]

theorem pick2_int (fi : Int → Int → Int) (isMax : Bool) (rm x y : Nat) :
    pick2 fi isMax td rm { bits := x, tag := ta } { bits := y, tag := tb } = td.clamp (fi (ta.toInt x) (tb.toInt y)) := by
  have h : (td.clamp (fi (ta.toInt x) (tb.toInt y))).fl ||| 0 = (td.clamp (fi (ta.toInt x) (tb.toInt y))).fl := BitVec.or_zero
  simp only [pick2, arith2_int hd ha hb, Opd.isSig_int ha, Opd.isSig_int hb, Bool.or_self, Bool.false_eq_true, if_false, h]

theorem wrap2_int (fi : Int → Int → Int) (plain : ElemFn) (rm x y : Nat) :
    wrap2 fi plain td rm { bits := x, tag := ta } { bits := y, tag := tb } = .plain (intBits td.bits (fi (ta.toInt x) (tb.toInt y))) := by
  simp only [wrap2, ints_int ha hb, hd, Bool.not_false, Bool.and_self, if_true, Opd.int]

theorem fVmulh_int (rm x y : Nat) :
    fVmulh td rm { bits := x, tag := ta } { bits := y, tag := tb } = .plain (intBits td.bits (ta.toInt x * tb.toInt y / 2 ^ td.bits)) := by
  simp only [fVmulh, ints_int ha hb, hd, Bool.not_false, Bool.and_self, if_true, Opd.int]

theorem fVdiv_int {y : Nat} (hy : tb.toInt y ≠ 0) (rm x : Nat) :
    fVdiv td rm { bits := x, tag := ta } { bits := y, tag := tb } = td.clamp ((ta.toInt x).tdiv (tb.toInt y)) := by
  simp only [fVdiv, Opd.int, hy, decide_false, Bool.and_false, Bool.false_eq_true, if_false, arith2_int hd ha hb]

theorem fVdiv_int_zero {y : Nat} (hy : tb.toInt y = 0) (rm x : Nat) :
    fVdiv td rm { bits := x, tag := ta } { bits := y, tag := tb } =
      { bits := intBits td.bits (if 0 < ta.toInt x then td.hi else if ta.toInt x < 0 then td.lo else 0), fl := 0, vs := vSAT } := by
  simp only [fVdiv, ints_int ha hb, Opd.int, hy, decide_true, Bool.and_self, if_true, Tag.fmt_of_not_float hd]
  rfl

theorem fVrem_int {y : Nat} (hy : tb.toInt y ≠ 0) (rm x : Nat) :
    fVrem td rm { bits := x, tag := ta } { bits := y, tag := tb } =
      td.clamp (ta.toInt x - tb.toInt y * (ta.toInt x).tdiv (tb.toInt y)) := by
  simp only [fVrem, ints_int ha hb, if_true, Opd.int, hy, if_false, Val.int_toTag hd, Int.tmod_def]

theorem fVrem_int_zero {y : Nat} (hy : tb.toInt y = 0) (rm x : Nat) :
    fVrem td rm { bits := x, tag := ta } { bits := y, tag := tb } = .plain (td.clamp (ta.toInt x)).bits := by
  simp only [fVrem, ints_int ha hb, if_true, Opd.int, hy, Val.int_toTag hd, Int.tmod_zero]

/-- The addend has the destination's tag (R116). -/
theorem fma3_int (negP negC : Bool) (rm x y z : Nat) :
    fma3 negP negC td rm { bits := x, tag := ta } { bits := y, tag := tb } { bits := z, tag := td } =
      td.clamp ((if negP then -(ta.toInt x * tb.toInt y) else ta.toInt x * tb.toInt y) + (if negC then -td.toInt z else td.toInt z)) := by
  simp only [fma3, computing, List.all_cons, List.all_nil, hd, ha, hb, Bool.not_false, Bool.and_self, if_true, Val.int_toTag hd, Opd.int]

end

theorem Tag.zero_mem (t : Tag) : t.lo ≤ 0 ∧ 0 ≤ t.hi := by cases t <;> decide

/-- R111: the quotient by zero is the end of the range on the dividend's side. -/
theorem Tag.toInt_end (t : Tag) (a : Int) :
    t.toInt (intBits t.bits (if 0 < a then t.hi else if a < 0 then t.lo else 0)) = if 0 < a then t.hi else if a < 0 then t.lo else 0 := by
  have h := t.zero_mem
  exact t.toInt_intBits (by split_ifs <;> omega) (by split_ifs <;> omega)

theorem fVcvt_int {td ta : Tag} (hd : td.isFloat = false) (ha : ta.isFloat = false) (rm x : Nat) (ob : Opd) :
    fVcvt td rm { bits := x, tag := ta } ob = td.clamp (ta.toInt x) := by
  simp only [fVcvt, Opd.val, Tag.value_int ha, Val.int_toTag hd]

theorem fVfclass_int {td ta : Tag} (hd : td.isFloat = false) (ha : ta.isFloat = false) (rm x : Nat) (ob : Opd) :
    fVfclass td rm { bits := x, tag := ta } ob = td.clamp (if ta.toInt x = 0 then 1 else if 0 < ta.toInt x then 4 else 64) := by
  simp only [fVfclass, classBit, Tag.fmt_of_not_float ha, Val.int_toTag hd, Opd.int]
  congr 1
  by_cases h0 : ta.toInt x = 0
  · simp [h0]
  · by_cases hp : 0 < ta.toInt x <;> simp [h0, hp]

/-! ## The narrowing shift (R59, R124) -/

/-- VNSHR of an integer: the quotient by 2^s is rounded and clamped (R124). -/
theorem fVnshr_int {td ta : Tag} (hd : td.isFloat = false) (ha : ta.isFloat = false) (rm x : Nat) (ob : Opd) :
    fVnshr td rm { bits := x, tag := ta } ob =
      td.clamp (roundInt rm (decide (ta.toInt x < 0)) (ta.toInt x).natAbs (-((ob.bits % 64 : Nat) : Int)) false).1 := by
  simp only [fVnshr, ha, hd, Bool.or_self, Bool.false_eq_true, if_false, Opd.int]
  rfl

/-- A number of counts of 2^-s rounds to the signed quotient of its magnitude (R59). -/
theorem roundInt_quotient (rm : Nat) (a : Int) (s : Nat) :
    (roundInt rm (decide (a < 0)) a.natAbs (-(s : Int)) false).1 =
      if a < 0 then -((roundShift rm (decide (a < 0)) a.natAbs s false).1 : Int) else (roundShift rm (decide (a < 0)) a.natAbs s false).1 := by
  have h : roundAt rm (decide (a < 0)) a.natAbs (-(s : Int)) 0 false = roundShift rm (decide (a < 0)) a.natAbs s false := by
    unfold roundAt
    split_ifs with hs
    · simp
    · obtain rfl : s = 0 := by omega
      simp
  simp [roundInt, h]

/-- The chosen quotient lies as far from the exact one as that of the magnitudes, and is as even. -/
theorem signed_quotient (a : Int) (q p : Nat) :
    ((if a < 0 then -(q : Int) else q) * p - a).natAbs = (((q * p : Nat) : Int) - (a.natAbs : Int)).natAbs ∧
      ((if a < 0 then -(q : Int) else q) % 2 = 0 ↔ q % 2 = 0) ∧ ((if a < 0 then -(q : Int) else q) % 2 = 1 ↔ q % 2 = 1) := by
  have hp : ((q : Int) * p) = ((q * p : Nat) : Int) := (Nat.cast_mul q p).symm
  split_ifs with h
  · refine ⟨?_, by omega, by omega⟩
    rw [Int.neg_mul, hp]
    generalize q * p = n
    omega
  · refine ⟨?_, by omega, by omega⟩
    rw [hp]
    generalize q * p = n
    omega

section
variable (m d : Nat)

/-- The distance of each of the two neighbours of m / 2^d, in counts of 2^-d. -/
theorem quotient_dist : (((m / 2 ^ d * 2 ^ d : Nat) : Int) - m).natAbs = m % 2 ^ d ∧
    ((((m / 2 ^ d + 1) * 2 ^ d : Nat) : Int) - m).natAbs = 2 ^ d - m % 2 ^ d ∧ m % 2 ^ d < 2 ^ d := by
  have hr := Nat.mod_lt m (Nat.two_pow_pos d)
  have hm := Nat.div_add_mod' m (2 ^ d)
  rw [Nat.add_mul, Nat.one_mul]
  generalize m % 2 ^ d = r at *
  generalize m / 2 ^ d * 2 ^ d = n at *
  generalize 2 ^ d = p at *
  omega

theorem roundShift_nearest (neg : Bool) :
    2 * ((((roundShift 0 neg m d false).1 * 2 ^ d : Nat) : Int) - m).natAbs ≤ 2 ^ d ∧
      (2 * ((((roundShift 0 neg m d false).1 * 2 ^ d : Nat) : Int) - m).natAbs = 2 ^ d → (roundShift 0 neg m d false).1 % 2 = 0) := by
  have key : ∀ p q r : Nat, r < p → (2 * r > p ∨ 2 * r = p ∧ q % 2 = 1 → 2 * (p - r) ≤ p ∧ (2 * (p - r) = p → (q + 1) % 2 = 0)) ∧
      (¬(2 * r > p ∨ 2 * r = p ∧ q % 2 = 1) → 2 * r ≤ p ∧ (2 * r = p → q % 2 = 0)) := by omega
  obtain ⟨hq, hq1, hr⟩ := quotient_dist m d
  simp only [roundShift, Bool.false_or, Bool.or_eq_true, Bool.and_eq_true, decide_eq_true_eq]
  split_ifs with hu
  · rw [hq1]; exact (key _ _ _ hr).1 hu
  · rw [hq]; exact (key _ _ _ hr).2 hu

theorem roundShift_odd (neg : Bool) :
    ((((roundShift 4 neg m d false).1 * 2 ^ d : Nat) : Int) - m).natAbs < 2 ^ d ∧
      (((((roundShift 4 neg m d false).1 * 2 ^ d : Nat) : Int) - m).natAbs ≠ 0 → (roundShift 4 neg m d false).1 % 2 = 1) := by
  have key : ∀ p q r : Nat, r < p → (r ≠ 0 ∧ q % 2 = 0 → p - r < p ∧ (p - r ≠ 0 → (q + 1) % 2 = 1)) ∧
      (¬(r ≠ 0 ∧ q % 2 = 0) → r < p ∧ (r ≠ 0 → q % 2 = 1)) := by omega
  obtain ⟨hq, hq1, hr⟩ := quotient_dist m d
  simp only [roundShift, Bool.or_false, Bool.and_eq_true, decide_eq_true_eq]
  split_ifs with hu
  · rw [hq1]; exact (key _ _ _ hr).1 hu
  · rw [hq]; exact (key _ _ _ hr).2 hu

theorem roundShift_down (neg : Bool) : (roundShift 1 neg m d false).1 = m / 2 ^ d := by simp [roundShift]

/-- Away from zero, the quotient of the magnitude rounds up (R59). -/
theorem roundShift_away (rm : Nat) (neg : Bool) (h : rm = 2 ∧ neg = true ∨ rm = 3 ∧ neg = false) :
    ((roundShift rm neg m d false).1 : Int) = -(-(m : Int) / 2 ^ d) := by
  obtain ⟨-, -, hr⟩ := quotient_dist m d
  have hm : (m : Int) = (2 ^ d : Nat) * (m / 2 ^ d : Nat) + (m % 2 ^ d : Nat) := by exact_mod_cast (Nat.div_add_mod m (2 ^ d)).symm
  have hP : ((2 ^ d : Nat) : Int) = 2 ^ d := by push_cast; rfl
  have hup : (roundShift rm neg m d false).1 = if m % 2 ^ d ≠ 0 then m / 2 ^ d + 1 else m / 2 ^ d := by
    obtain ⟨rfl, rfl⟩ | ⟨rfl, rfl⟩ := h <;> simp [roundShift]
  rw [hup, eq_comm, neg_eq_iff_eq_neg, ← hP]
  split_ifs with h0
  all_goals
    generalize m % 2 ^ d = r at *
    generalize m / 2 ^ d = q at *
    generalize 2 ^ d = p at *
  · exact ((Int.ediv_emod_unique (by omega) (r := p - r)).mpr ⟨by push_cast at *; linarith, by omega, by omega⟩).1
  · obtain rfl : r = 0 := by omega
    exact ((Int.ediv_emod_unique (by omega) (r := 0)).mpr ⟨by push_cast at *; linarith, by omega, by omega⟩).1

/-- Toward zero, it rounds down (R59). -/
theorem roundShift_toward (rm : Nat) (neg : Bool) (h : rm = 2 ∧ neg = false ∨ rm = 3 ∧ neg = true) :
    (roundShift rm neg m d false).1 = m / 2 ^ d := by
  obtain ⟨rfl, rfl⟩ | ⟨rfl, rfl⟩ := h <;> simp [roundShift]

end

section
variable (a : Int) (s : Nat)

theorem roundInt_nearest : let v := (roundInt 0 (decide (a < 0)) a.natAbs (-(s : Int)) false).1
    2 * (v * 2 ^ s - a).natAbs ≤ 2 ^ s ∧ (2 * (v * 2 ^ s - a).natAbs = 2 ^ s → v % 2 = 0) := by
  obtain ⟨hd, he, -⟩ := signed_quotient a (roundShift 0 (decide (a < 0)) a.natAbs s false).1 (2 ^ s)
  rw [Nat.cast_pow, Nat.cast_ofNat] at hd
  simp only [roundInt_quotient, hd, he]
  exact roundShift_nearest a.natAbs s (decide (a < 0))

theorem roundInt_odd : let v := (roundInt 4 (decide (a < 0)) a.natAbs (-(s : Int)) false).1
    (v * 2 ^ s - a).natAbs < 2 ^ s ∧ (v * 2 ^ s ≠ a → v % 2 = 1) := by
  obtain ⟨hd, -, ho⟩ := signed_quotient a (roundShift 4 (decide (a < 0)) a.natAbs s false).1 (2 ^ s)
  obtain ⟨hlt, hodd⟩ := roundShift_odd a.natAbs s (decide (a < 0))
  rw [Nat.cast_pow, Nat.cast_ofNat] at hd
  simp only [roundInt_quotient, hd, ho]
  exact ⟨hlt, fun hne => hodd (hd ▸ by omega)⟩

theorem roundInt_trunc : (roundInt 1 (decide (a < 0)) a.natAbs (-(s : Int)) false).1 = a.tdiv (2 ^ s) := by
  rw [roundInt_quotient, roundShift_down]
  split_ifs with h
  · obtain ⟨n, rfl⟩ : ∃ n : Nat, a = -n := ⟨a.natAbs, by omega⟩
    rw [Int.neg_tdiv, Int.natAbs_neg]; rfl
  · obtain ⟨n, rfl⟩ : ∃ n : Nat, a = n := ⟨a.natAbs, by omega⟩
    rfl

theorem roundInt_floor : (roundInt 2 (decide (a < 0)) a.natAbs (-(s : Int)) false).1 = a / 2 ^ s := by
  rw [roundInt_quotient]
  split_ifs with h
  · rw [roundShift_away _ _ _ _ (.inl ⟨rfl, decide_eq_true h⟩), neg_neg, show -(a.natAbs : Int) = a by omega]
  · rw [roundShift_toward _ _ _ _ (.inl ⟨rfl, decide_eq_false h⟩), Int.natCast_div, Nat.cast_pow, Nat.cast_ofNat,
      Int.natAbs_of_nonneg (by omega)]

theorem roundInt_ceil : (roundInt 3 (decide (a < 0)) a.natAbs (-(s : Int)) false).1 = -(-a / 2 ^ s) := by
  rw [roundInt_quotient]
  split_ifs with h
  · rw [roundShift_toward _ _ _ _ (.inr ⟨rfl, decide_eq_true h⟩), Int.natCast_div, Nat.cast_pow, Nat.cast_ofNat,
      show (a.natAbs : Int) = -a by omega]
  · rw [roundShift_away _ _ _ _ (.inr ⟨rfl, decide_eq_false h⟩), show (a.natAbs : Int) = a by omega]

end

theorem wrapped_plain (n : Nat) (v : Int) :
    ((Res.plain (intBits n v)).bits : Int) = v % 2 ^ n ∧ (Res.plain (intBits n v)).fl = 0 ∧ (Res.plain (intBits n v)).vs = 0 :=
  ⟨intBits_cast n v, rfl, rfl⟩

/-! ## Patterns (R113, R121) -/

theorem bitwise_plain_mod {n v : Nat} {f : Nat → Bool} (h : ∀ j, j < n → v.testBit j = f j) : Bitwise n f (.plain (v % 2 ^ n)) :=
  ⟨Nat.mod_lt _ (Nat.two_pow_pos n), rfl, rfl, fun j hj => by rw [Res.plain, Nat.testBit_mod_two_pow, decide_eq_true hj, Bool.true_and, h j hj]⟩

/-- A tag reads a pattern as a number that is congruent to it. -/
theorem Tag.toInt_emod (t : Tag) (y : Nat) : t.toInt y % 2 ^ t.bits = (y : Int) % 2 ^ t.bits := by
  simp only [Tag.toInt]
  split_ifs
  · rw [Int.sub_emod_right]; simp
  · simp

/-- Every width divides the size of every pattern space. -/
theorem Tag.bits_dvd_two_pow (td tb : Tag) : td.bits ∣ 2 ^ tb.bits := by
  refine (show td.bits ∣ 2 ^ 8 from ?_).trans (pow_dvd_pow 2 ?_)
  · obtain h | h | h | h := td.bits_cases <;> rw [h] <;> decide
  · obtain h | h | h | h := tb.bits_cases <;> rw [h] <;> decide

/-- The shift count is the low bits of b's pattern, whatever its tag (R113). -/
theorem Tag.extend_mod (td tb : Tag) (y : Nat) : tb.extend y % td.bits = y % td.bits := by
  have hb := td.bits_dvd_two_pow tb
  have hbi : (td.bits : Int) ∣ 2 ^ tb.bits := by exact_mod_cast hb
  have h64 : (td.bits : Int) ∣ 2 ^ 64 := by exact_mod_cast td.bits_dvd_two_pow .i64
  unfold Tag.extend
  split_ifs with hs
  · zify
    rw [intBits_cast, Int.emod_emod_of_dvd _ h64, ← Int.emod_emod_of_dvd _ hbi, tb.toInt_emod, Int.emod_emod_of_dvd _ hbi]
  · exact Nat.mod_mod_of_dvd _ hb

/-- An arithmetic right shift of an n-bit pattern repeats its highest bit. -/
theorem testBit_shiftRight_signed (n x k j : Nat) (hj : j < n) (hk : k < n) :
    (intBits n ((if 2 ^ (n - 1) ≤ x % 2 ^ n then ((x % 2 ^ n : Nat) : Int) - 2 ^ n else ((x % 2 ^ n : Nat) : Int)) / 2 ^ k)).testBit j =
      x.testBit (min (j + k) (n - 1)) := by
  have hsigned : (if 2 ^ (n - 1) ≤ x % 2 ^ n then ((x % 2 ^ n : Nat) : Int) - 2 ^ n else ((x % 2 ^ n : Nat) : Int)) = (BitVec.ofNat n x).toInt := by
    obtain ⟨m, rfl⟩ : ∃ m, n = m + 1 := ⟨n - 1, by omega⟩
    have hp := Nat.pow_succ 2 m
    rw [BitVec.toInt_eq_toNat_cond, BitVec.toNat_ofNat]
    simp only [Nat.add_sub_cancel]
    by_cases h : 2 ^ m ≤ x % 2 ^ (m + 1)
    · rw [if_pos h, if_neg (by omega)]; push_cast; rfl
    · rw [if_neg h, if_pos (by omega)]
  have hshift : intBits n ((BitVec.ofNat n x).toInt / 2 ^ k) = ((BitVec.ofNat n x).sshiftRight k).toNat := by
    have h := BitVec.toInt_sshiftRight (x := BitVec.ofNat n x) (n := k)
    rw [Int.shiftRight_eq_div_pow] at h
    push_cast at h
    rw [← h, intBits, ← BitVec.ofInt_toInt (x := (BitVec.ofNat n x).sshiftRight k), BitVec.toNat_ofInt, BitVec.ofInt_toInt]
    push_cast; rfl
  rw [hsigned, hshift, BitVec.testBit_toNat, BitVec.getLsbD_sshiftRight, BitVec.msb_eq_getLsbD_last]
  simp only [show ¬ n ≤ j by omega, decide_false, Bool.not_false, Bool.true_and, BitVec.getLsbD_ofNat]
  by_cases h : k + j < n
  · rw [if_pos h, show min (j + k) (n - 1) = k + j by omega, decide_eq_true h, Bool.true_and]
  · rw [if_neg h, show min (j + k) (n - 1) = n - 1 by omega, decide_eq_true (show n - 1 < n by omega), Bool.true_and]

section
variable (td ta tb : Tag) (rm x y : Nat)

theorem bits2_bitwise (f : Nat → Nat → Nat) (g : Bool → Bool → Bool) (h : ∀ a b j, (f a b).testBit j = g (a.testBit j) (b.testBit j)) :
    Bitwise td.bits (fun j => g ((ta.extend x).testBit j) ((tb.extend y).testBit j))
      (bits2 f td rm { bits := x, tag := ta } { bits := y, tag := tb }) :=
  bitwise_plain_mod fun j _ => h _ _ j

theorem fVsll_bitwise : Bitwise td.bits (fun j => decide (y % td.bits ≤ j) && (ta.extend x).testBit (j - y % td.bits))
    (fVsll td rm { bits := x, tag := ta } { bits := y, tag := tb }) := by
  simp only [fVsll, shift2, td.extend_mod tb y]
  refine bitwise_plain_mod fun j hj => ?_
  rw [Nat.testBit_mul_two_pow, Nat.testBit_mod_two_pow, decide_eq_true (show j - y % td.bits < td.bits by omega), Bool.true_and]

theorem fVsrl_bitwise : Bitwise td.bits (fun j => decide (j + y % td.bits < td.bits) && (ta.extend x).testBit (j + y % td.bits))
    (fVsrl td rm { bits := x, tag := ta } { bits := y, tag := tb }) := by
  simp only [fVsrl, shift2, td.extend_mod tb y]
  refine bitwise_plain_mod fun j hj => ?_
  rw [Nat.testBit_div_two_pow, Nat.testBit_mod_two_pow, Nat.add_comm]

theorem fVsra_bitwise : Bitwise td.bits (fun j => (ta.extend x).testBit (min (j + y % td.bits) (td.bits - 1)))
    (fVsra td rm { bits := x, tag := ta } { bits := y, tag := tb }) := by
  simp only [fVsra, shift2, td.extend_mod tb y]
  have hn : 0 < td.bits := by have := td.bits_cases; omega
  exact bitwise_plain_mod fun j hj => testBit_shiftRight_signed td.bits _ _ j hj (Nat.mod_lt _ hn)

end

@[simp] theorem Fmt.bits_sub_one (q : Fmt) : q.bits - 1 = q.ew + q.fw := by rw [Fmt.bits]; omega

/-- A pattern with its sign put in (R121). -/
theorem Fmt.bitwise_signed (q : Fmt) (s : Bool) (x : Nat) :
    Bitwise q.bits (fun j => if j = q.bits - 1 then s else x.testBit j) (.plain (q.signed s (x % 2 ^ (q.bits - 1)))) := by
  have hlt := Nat.mod_lt x (Nat.two_pow_pos (q.ew + q.fw))
  have hb : q.bits = q.ew + q.fw + 1 := by rw [Fmt.bits]; omega
  rw [q.bits_sub_one, hb]
  refine ⟨?_, rfl, rfl, fun j hj => ?_⟩
  · rw [Nat.pow_succ]
    cases s <;> simp only [Res.plain, Fmt.signed, if_true, Bool.false_eq_true, if_false] <;> omega
  · by_cases h : j = q.ew + q.fw
    · subst h
      cases s
      · simp [Res.plain, Fmt.signed]
      · simp [Res.plain, Fmt.signed, Nat.testBit_two_pow_add_eq]
    · have hj' : j < q.ew + q.fw := by omega
      cases s <;> simp [Res.plain, Fmt.signed, h, hj', Nat.testBit_two_pow_add_gt hj']

/-- Sign injection puts the sign that its function makes of the two signs into the magnitude of a (R121). -/
theorem sgnj_bitwise {td : Tag} {q : Fmt} (hq : td.fmt = some q) (f : Bool → Bool → Bool) (rm x y : Nat) :
    Bitwise q.bits (fun j => if j = q.bits - 1 then f (x.testBit (q.bits - 1)) (y.testBit (q.bits - 1)) else x.testBit j)
      (sgnj f td rm { bits := x, tag := td } { bits := y, tag := td }) := by
  simp only [sgnj, hq, if_true, Opd.sign, Nat.testBit_eq_decide_div_mod_eq]
  simpa only [Nat.testBit_eq_decide_div_mod_eq] using q.bitwise_signed _ x

end Sys2Proof.Machine
end

section
/-! O45, SECOND PART. Floating values at an element: what rounds to itself, operations of one format, NaNs, conversions, classes and compares (R54 to R62,
R71, R108, R114 to R120, R135). -/

namespace Sys2Proof.Machine

/-! ## Rounding of what is already a value of the format (R57, R59) -/

theorem bitLen_eq {m k : Nat} (hl : 2 ^ k ≤ m) (hh : m < 2 ^ (k + 1)) : bitLen m = k + 1 := by
  have hm : m ≠ 0 := by have := Nat.two_pow_pos k; omega
  rw [bitLen, if_neg hm, (Nat.log2_eq_iff hm).mpr ⟨hl, hh⟩]

theorem bitLen_le {m k : Nat} (hh : m < 2 ^ k) : bitLen m ≤ k := by
  unfold bitLen
  split_ifs with h
  · omega
  · have := (Nat.log2_lt h).mpr hh; omega

/-- A count that is given whole is exact under every mode. -/
theorem roundShift_zero (rm : Nat) (neg : Bool) (m : Nat) : roundShift rm neg m 0 false = (m, false) := by
  unfold roundShift
  simp only [pow_zero, Nat.div_one, Nat.mod_one, ne_eq, not_true_eq_false, decide_false, Bool.or_false, Bool.and_false, Bool.false_and, Nat.mul_zero]
  split <;> simp

theorem roundAt_same (rm : Nat) (neg : Bool) (m : Nat) (e : Int) : roundAt rm neg m e e false = (m, false) := by
  simp [roundAt, roundShift_zero]

/-- A number whose last place is that of the format, and not beyond its largest value, rounds to itself. -/
theorem Fmt.round_exact (f : Fmt) (rm : Nat) (neg : Bool) {m : Nat} {e : Int} (hm : m ≠ 0)
    (hq : max (e + (bitLen m : Int) - ((f.fw : Int) + 1)) f.qmin = e) (hc : (e - f.qmin).toNat * 2 ^ f.fw + m ≤ f.maxCode) :
    f.round rm neg m e false = .plain (f.signed neg ((e - f.qmin).toNat * 2 ^ f.fw + m)) := by
  simp only [Fmt.round, hm, decide_false, Bool.false_and, Bool.false_eq_true, if_false, hq, roundAt_same, show ¬ _ > f.maxCode from Nat.not_lt.mpr hc]
  rfl

@[simp] theorem Fmt.round_zero (f : Fmt) (rm : Nat) (neg : Bool) (e : Int) : f.round rm neg 0 e false = .plain (f.signed neg 0) := rfl

/-- The formats F32 and F64 with their tags. -/
def Single (T : Fmt) (t : Tag) : Prop := (T = .f32 ∧ t = .f32) ∨ (T = .f64 ∧ t = .f64)

/-- What a pattern with sign n and code c stands for (R54). -/
theorem Fmt.decode_signed {T : Fmt} {t : Tag} (h : Single T t) (n : Bool) {c : Nat} (hc : c < 2 ^ (T.ew + T.fw)) :
    T.decode (T.signed n c) =
      if c / 2 ^ T.fw = 2 ^ T.ew - 1 then (if c % 2 ^ T.fw = 0 then .inf n else .nan (decide (c % 2 ^ T.fw < 2 ^ (T.fw - 1))))
      else if c / 2 ^ T.fw = 0 then .fin n (c % 2 ^ T.fw) T.qmin
      else .fin n (2 ^ T.fw + c % 2 ^ T.fw) (T.qmin + (c / 2 ^ T.fw : Nat) - 1) := by
  have hs : T.signed n c / 2 ^ (T.ew + T.fw) % 2 = if n then 1 else 0 := by
    cases n <;> simp only [Fmt.signed, if_true, Bool.false_eq_true, if_false]
    · rw [Nat.div_eq_of_lt hc]
    · rw [Nat.add_div_left _ (Nat.two_pow_pos _), Nat.div_eq_of_lt hc]
  have hx : T.signed n c % 2 ^ T.fw = c % 2 ^ T.fw := by
    cases n <;> simp [Fmt.signed, Nat.pow_add]
  have he : T.signed n c / 2 ^ T.fw % 2 ^ T.ew = c / 2 ^ T.fw := by
    have hlt : c / 2 ^ T.fw < 2 ^ T.ew := by
      rw [Nat.div_lt_iff_lt_mul (Nat.two_pow_pos _), ← Nat.pow_add]; exact hc
    cases n <;> simp [Fmt.signed, Nat.pow_add, Nat.mul_comm (2 ^ T.ew), Nat.mul_add_div (Nat.two_pow_pos _), Nat.mod_eq_of_lt hlt]
  have hn : decide ((if n = true then 1 else 0) = 1) = n := by cases n <;> rfl
  obtain ⟨rfl, -⟩ | ⟨rfl, -⟩ := h <;> simp only [Fmt.decode, hs, hx, he, hn]

/-- A code below that of the infinity has another exponent field than the infinity. -/
theorem Fmt.lt_infCode_iff (T : Fmt) {c : Nat} (hc : c < 2 ^ (T.ew + T.fw)) : c < T.infCode ↔ c / 2 ^ T.fw ≠ 2 ^ T.ew - 1 := by
  have hlt : c / 2 ^ T.fw < 2 ^ T.ew := by rw [Nat.div_lt_iff_lt_mul (Nat.two_pow_pos _), ← Nat.pow_add]; exact hc
  rw [Fmt.infCode, ← Nat.div_lt_iff_lt_mul (Nat.two_pow_pos _)]
  omega

section
variable {T : Fmt} {t : Tag} (h : Single T t)
include h

theorem Single.infCode_eq : T.infCode = T.maxCode + 1 := by obtain ⟨rfl, -⟩ | ⟨rfl, -⟩ := h <;> rfl

theorem Single.infCode_lt : T.infCode < 2 ^ (T.ew + T.fw) := by obtain ⟨rfl, -⟩ | ⟨rfl, -⟩ := h <;> decide

theorem Single.round_inf (rm : Nat) (n dz : Bool) :
    (Exact.inf n dz).round T rm = { bits := T.signed n T.infCode, fl := if dz then fDZ else 0, vs := 0 } := by
  obtain ⟨rfl, -⟩ | ⟨rfl, -⟩ := h <;> rfl

theorem Single.decode_nanCode : T.decode T.nanCode = .nan false := by obtain ⟨rfl, -⟩ | ⟨rfl, -⟩ := h <;> decide

/-- The codes above the infinity are those of the NaNs (R54). -/
theorem Single.decode_isNan (n : Bool) {c : Nat} (hc : c < 2 ^ (T.ew + T.fw)) :
    (T.decode (T.signed n c)).isNan = decide (T.infCode < c) := by
  have hd := Nat.div_add_mod' c (2 ^ T.fw)
  rw [Fmt.decode_signed h n hc]
  by_cases h1 : c / 2 ^ T.fw = 2 ^ T.ew - 1
  · have hci : T.infCode + c % 2 ^ T.fw = c := by rw [Fmt.infCode, ← h1, hd]
    rw [if_pos h1]
    split_ifs with h2
    · exact (decide_eq_false (by omega)).symm
    · exact (decide_eq_true (by omega)).symm
  · have hci := (T.lt_infCode_iff hc).mpr h1
    rw [if_neg h1, decide_eq_false (by omega)]
    split_ifs <;> rfl

/-- A value of the format rounds to its own pattern and raises nothing. -/
theorem Single.round_decode (rm : Nat) (n : Bool) {c : Nat} (hc : c ≤ T.infCode) :
    (T.decode (T.signed n c)).exact.round T rm = .plain (T.signed n c) := by
  have hlt := Nat.lt_of_le_of_lt hc h.infCode_lt
  have hd := Nat.div_add_mod' c (2 ^ T.fw)
  have hx := Nat.mod_lt c (Nat.two_pow_pos T.fw)
  have hmax := h.infCode_eq
  rw [Fmt.decode_signed h n hlt]
  by_cases h1 : c / 2 ^ T.fw = 2 ^ T.ew - 1
  · have hci : T.infCode + c % 2 ^ T.fw = c := by rw [Fmt.infCode, ← h1, hd]
    rw [if_pos h1, if_pos (by omega), FVal.exact, h.round_inf, show T.infCode = c by omega]
    rfl
  · have hcm : c ≤ T.maxCode := by have := (T.lt_infCode_iff hlt).mpr h1; omega
    rw [if_neg h1]
    split_ifs with h0
    · rw [h0, Nat.zero_mul, Nat.zero_add] at hd
      rw [hd] at hx ⊢
      by_cases hz : c = 0
      · rw [hz]; rfl
      · have hb := bitLen_le hx
        have hr := T.round_exact rm n hz (e := T.qmin) (by omega) (by simpa using hcm)
        rwa [Int.sub_self, Int.toNat_zero, Nat.zero_mul, Nat.zero_add] at hr
    · have hb : bitLen (2 ^ T.fw + c % 2 ^ T.fw) = T.fw + 1 := bitLen_eq (by omega) (by rw [Nat.pow_succ]; omega)
      have hcode : (T.qmin + ((c / 2 ^ T.fw : Nat) : Int) - 1 - T.qmin).toNat * 2 ^ T.fw + (2 ^ T.fw + c % 2 ^ T.fw) = c := by
        rw [show (T.qmin + ((c / 2 ^ T.fw : Nat) : Int) - 1 - T.qmin).toNat = c / 2 ^ T.fw - 1 by omega, Nat.sub_mul, Nat.one_mul]
        have := Nat.le_mul_of_pos_left (2 ^ T.fw) (Nat.pos_of_ne_zero h0)
        omega
      have hp := Nat.two_pow_pos T.fw
      have hE := Nat.pos_of_ne_zero h0
      refine (T.round_exact rm n (by omega) (by rw [hb]; omega) (by rw [hcode]; exact hcm)).trans ?_
      rw [hcode]

/-- What a rounding gives: a pattern of the format that is no NaN, or the canonical NaN (R56, R57, R59). -/
theorem Single.round_cases (x : Exact) (rm : Nat) :
    (x.round T rm).vs = 0 ∧ ((x.round T rm).bits = T.nanCode ∨ ∃ n c, c ≤ T.infCode ∧ (x.round T rm).bits = T.signed n c) := by
  have hmax := h.infCode_eq
  cases x with
  | nan nv => exact ⟨rfl, .inl rfl⟩
  | inf n dz => rw [h.round_inf]; exact ⟨rfl, .inr ⟨n, _, le_refl _, rfl⟩⟩
  | num n m e s =>
    simp only [Exact.round, Fmt.round]
    split
    · exact ⟨rfl, .inr ⟨n, 0, Nat.zero_le _, rfl⟩⟩
    · split
      · split
        · exact absurd h (by simp [Single])
        · exact absurd h (by simp [Single])
        · refine ⟨rfl, .inr ⟨n, _, ?_, rfl⟩⟩
          split_ifs <;> omega
      · exact ⟨rfl, .inr ⟨n, _, by omega, rfl⟩⟩

/-- Converting a result to the format that it has been rounded to changes nothing (R62). -/
theorem Single.finish_eq_round (x : Exact) (rm : Nat) : x.finish T t rm = x.round T rm := by
  have htag : ∀ y : Exact, y.toTag t rm = y.round T rm := by obtain ⟨rfl, rfl⟩ | ⟨rfl, rfl⟩ := h <;> exact fun _ => rfl
  obtain ⟨hvs, hbits⟩ := h.round_cases x rm
  have hagain : (T.decode (x.round T rm).bits).exact.round T rm = .plain (x.round T rm).bits := by
    obtain hb | ⟨n, c, hc, hb⟩ := hbits <;> rw [hb]
    · rw [h.decode_nanCode]; rfl
    · exact h.round_decode rm n hc
  have hfl : (x.round T rm).fl ||| 0 = (x.round T rm).fl := BitVec.or_zero
  simp only [Exact.finish, htag, hagain, Res.plain, hfl, ← hvs]

end

/-! ## Functions of F32 and F64 (R62, R108, R116 to R119) -/

section
variable {T : Fmt} {t : Tag} (h : Single T t) (rm x y z : Nat)
include h

theorem Single.fmt : t.fmt = some T := by obtain ⟨rfl, rfl⟩ | ⟨rfl, rfl⟩ := h <;> rfl

theorem Single.value : t.value x = .flt (T.decode x) := by rw [Tag.value, h.fmt]

theorem Single.isFloat : t.isFloat = true := by rw [Tag.isFloat, h.fmt]; rfl

theorem Single.arith2_eq (fi : Int → Int → Int) (ff : Nat → FVal → FVal → Exact) :
    arith2 fi ff t rm { bits := x, tag := t } { bits := y, tag := t } = (ff rm (T.decode x) (T.decode y)).round T rm := by
  have hc : computing [t, t] = some T := by obtain ⟨rfl, rfl⟩ | ⟨rfl, rfl⟩ := h <;> rfl
  have hfl (r : Res) : r.fl ||| 0 = r.fl := BitVec.or_zero
  simp only [arith2, hc, Opd.val, h.value, Val.toFmt, h.finish_eq_round, hfl]

theorem Single.arith1_eq (fi : Int → Int) (ff : FVal → Exact) (ob : Opd) :
    arith1 fi ff t rm { bits := x, tag := t } ob = (ff (T.decode x)).round T rm := by
  rw [arith1, h.arith2_eq]

theorem Single.fVdiv_eq : fVdiv t rm { bits := x, tag := t } { bits := y, tag := t } = (divExact (T.decode x) (T.decode y)).round T rm := by
  simp only [fVdiv, ints, h.isFloat, Bool.not_true, Bool.false_and, Bool.false_eq_true, if_false, h.arith2_eq]

theorem Single.fma3_eq (negP negC : Bool) :
    fma3 negP negC t rm { bits := x, tag := t } { bits := y, tag := t } { bits := z, tag := t } =
      (fmaExact rm (if negP then (T.decode x).neg else T.decode x) (T.decode y) (if negC then (T.decode z).neg else T.decode z)).round T rm := by
  have hc : computing [t, t, t] = some T := by obtain ⟨rfl, rfl⟩ | ⟨rfl, rfl⟩ := h <;> rfl
  simp only [fma3, hc, Opd.val, h.value, Val.fval, h.finish_eq_round]

theorem Single.floatUnary_eq (f : FVal → Exact) (ob : Opd) :
    floatUnary f t rm { bits := x, tag := t } ob = (f (T.decode x)).round T rm := by
  have hw : (if t.wide then Fmt.f64 else .f32) = T := by obtain ⟨rfl, rfl⟩ | ⟨rfl, rfl⟩ := h <;> rfl
  have hfl (r : Res) : r.fl ||| 0 = r.fl := BitVec.or_zero
  simp only [floatUnary, hw, Opd.val, h.value, Val.toFmt, h.finish_eq_round, hfl]

omit h in
/-- A pattern of the format is a sign and a code. -/
theorem Fmt.exists_signed (T : Fmt) {x : Nat} (hx : x < 2 ^ T.bits) : ∃ n c, c < 2 ^ (T.ew + T.fw) ∧ x = T.signed n c := by
  rw [show T.bits = T.ew + T.fw + 1 by rw [Fmt.bits]; omega, Nat.pow_succ] at hx
  by_cases hs : x < 2 ^ (T.ew + T.fw)
  · exact ⟨false, x, hs, by simp [Fmt.signed]⟩
  · exact ⟨true, x - 2 ^ (T.ew + T.fw), by omega, by simp only [Fmt.signed, if_true]; omega⟩

/-- The sign alone makes the value negative. -/
theorem Single.decode_neg (n : Bool) {c : Nat} (hc : c < 2 ^ (T.ew + T.fw)) : (T.decode (T.signed n c)).neg = T.decode (T.signed (!n) c) := by
  rw [Fmt.decode_signed h n hc, Fmt.decode_signed h (!n) hc]
  split_ifs <;> rfl

theorem Single.decode_isNeg (n : Bool) {c : Nat} (hc : c < 2 ^ (T.ew + T.fw)) (hn : (T.decode (T.signed n c)).isNan = false) :
    (T.decode (T.signed n c)).isNeg = n := by
  rw [Fmt.decode_signed h n hc] at hn ⊢
  by_cases he : c / 2 ^ T.fw = 2 ^ T.ew - 1
  · rw [if_pos he] at hn ⊢
    by_cases hx : c % 2 ^ T.fw = 0
    · rw [if_pos hx]; rfl
    · rw [if_neg hx] at hn; cases hn
  · rw [if_neg he]
    split_ifs <;> rfl

theorem Single.fVneg_eq {x : Nat} (hn : (T.decode x).isNan = false) (hx : x < 2 ^ T.bits) (ob : Opd) :
    fVneg t rm { bits := x, tag := t } ob = .plain ((x + 2 ^ (T.bits - 1)) % 2 ^ T.bits) := by
  obtain ⟨n, c, hc, rfl⟩ := T.exists_signed hx
  rw [h.decode_isNan n hc, decide_eq_false_iff_not, Nat.not_lt] at hn
  rw [fVneg, h.arith1_eq, h.decode_neg n hc, h.round_decode rm _ hn, T.bits_sub_one, show T.bits = T.ew + T.fw + 1 by rw [Fmt.bits]; omega, Nat.pow_succ]
  cases n <;> simp only [Fmt.signed, Bool.not_true, Bool.not_false, if_true, Bool.false_eq_true, if_false]
  · rw [Nat.mod_eq_of_lt (by omega), Nat.add_comm]
  · rw [show 2 ^ (T.ew + T.fw) + c + 2 ^ (T.ew + T.fw) = c + 2 ^ (T.ew + T.fw) * 2 by omega, Nat.add_mod_right, Nat.mod_eq_of_lt (by omega)]

theorem Single.fVabs_eq {x : Nat} (hn : (T.decode x).isNan = false) (hx : x < 2 ^ T.bits) (ob : Opd) :
    fVabs t rm { bits := x, tag := t } ob = .plain (x % 2 ^ (T.bits - 1)) := by
  obtain ⟨n, c, hc, rfl⟩ := T.exists_signed hx
  have hneg := h.decode_isNeg n hc hn
  rw [h.decode_isNan n hc, decide_eq_false_iff_not, Nat.not_lt] at hn
  have hpos : (if (T.decode (T.signed n c)).isNeg then (T.decode (T.signed n c)).neg else T.decode (T.signed n c)) = T.decode (T.signed false c) := by
    rw [hneg, h.decode_neg n hc]
    cases n <;> rfl
  rw [fVabs, h.arith1_eq, hpos, h.round_decode rm _ hn, T.bits_sub_one]
  congr 1
  cases n <;> simp [Fmt.signed, Nat.mod_eq_of_lt hc]

end

/-! ## NaNs, conversions and classes (R56, R58, R60, R114, R120) -/

/-- A NaN leaves every operation as the canonical NaN of vd (R56). -/
theorem Exact.finish_nan (nv : Bool) (T : Fmt) {td : Tag} {q : Fmt} (hq : td.fmt = some q) (rm : Nat) :
    (Exact.nan nv).finish T td rm = { bits := q.nanCode, fl := if nv then fNV else 0, vs := 0 } := by
  have hd : T.decode T.nanCode = .nan false := by cases T <;> decide +kernel
  have hfl (f : BitVec 5) : f ||| 0 = f := BitVec.or_zero
  simp only [Exact.finish, Exact.round, hd, FVal.exact, Exact.toTag, hq, Bool.false_eq_true, if_false, hfl]

theorem Tag.fval_isNan_int {t : Tag} (h : t.isFloat = false) (x : Nat) : (t.value x).fval.isNan = false := by
  rw [Tag.value_int h]; rfl

/-- A NaN is brought to the computing format as it is. -/
theorem Val.toFmt_of_isNan {v : Val} (h : v.fval.isNan = true) (f : Fmt) (rm : Nat) : (v.toFmt f rm).1 = v.fval := by
  cases v with
  | int n => exact absurd h (by simp [Val.fval, FVal.isNan])
  | flt x => rfl

theorem FVal.isNan_of_isSig {x : FVal} (h : x.isSig = true) : x.isNan = true := by
  cases x with
  | nan => rfl
  | inf | fin => cases h

@[simp] theorem FVal.neg_isNan (x : FVal) : x.neg.isNan = x.isNan := by cases x <;> rfl
@[simp] theorem FVal.neg_isSig (x : FVal) : x.neg.isSig = x.isSig := by cases x <;> rfl

/-- An operation of which a NaN makes a NaN, with NV for a signalling one (R56). -/
def NanOp (ff : Nat → FVal → FVal → Exact) : Prop :=
  ∀ rm x y, (x.isNan || y.isNan) = true → ∃ nv, ff rm x y = .nan nv ∧ ((x.isSig || y.isSig) = true → nv = true)

theorem nanOp_add : NanOp addExact := fun _ _ _ h => ⟨_, if_pos h, id⟩
theorem nanOp_mul : NanOp (fun _ x y => mulExact x y) := fun _ _ _ h => ⟨_, if_pos h, id⟩
theorem nanOp_div : NanOp (fun _ x y => divExact x y) := fun _ _ _ h => ⟨_, if_pos h, id⟩
theorem nanOp_sub : NanOp (fun rm x y => addExact rm x y.neg) := fun _ _ _ h => ⟨_, if_pos (by simpa using h), by simp⟩
theorem nanOp_rsub : NanOp (fun rm x y => addExact rm y x.neg) := fun _ _ _ h => ⟨_, if_pos (by simpa [or_comm] using h), by simp [or_comm]⟩

/-- Only a computing format meets a NaN (R108). -/
theorem computing_of_isFloat {ts : List Tag} {t : Tag} (hm : t ∈ ts) (h : t.isFloat = true) : ∃ T, computing ts = some T := by
  have hall : ts.all (fun t => !t.isFloat) = false := by
    rw [List.all_eq_false]
    exact ⟨t, hm, by simp [h]⟩
  rw [computing, hall]
  exact ⟨_, (if_neg Bool.false_ne_true).trans (apply_ite some _ _ _).symm⟩

theorem Tag.isFloat_of_isNan {t : Tag} {x : Nat} (h : (t.value x).fval.isNan = true) : t.isFloat = true := by
  by_contra hf
  rw [Tag.fval_isNan_int (Bool.eq_false_of_not_eq_true hf)] at h
  cases h

/-- The sign of a factor makes no difference to an invalid product. -/
theorem mulExact_neg_nan {a b : FVal} (h : mulExact a b = .nan true) : mulExact a.neg b = .nan true := by
  unfold mulExact at h ⊢
  rw [FVal.neg_isNan, FVal.neg_isSig]
  by_cases hn : (a.isNan || b.isNan) = true
  · rwa [if_pos hn] at h ⊢
  · rw [if_neg hn] at h ⊢
    cases a <;> cases b <;> simp_all [FVal.neg]

section
variable {td : Tag} {q : Fmt} (hq : td.fmt = some q) (ta tb : Tag) (rm x y : Nat)
include hq

/-- A NaN operand gives the canonical NaN, a signalling one with NV (R56). -/
theorem arith2_nan (fi : Int → Int → Int) {ff : Nat → FVal → FVal → Exact} (hff : NanOp ff)
    (hn : ((ta.value x).fval.isNan || (tb.value y).fval.isNan) = true) :
    (arith2 fi ff td rm { bits := x, tag := ta } { bits := y, tag := tb }).bits = q.nanCode ∧
      (((ta.value x).fval.isSig || (tb.value y).fval.isSig) = true →
        (arith2 fi ff td rm { bits := x, tag := ta } { bits := y, tag := tb }).fl &&& fNV = fNV) := by
  have hnv (f g : BitVec 5) : (fNV ||| f ||| g) &&& fNV = fNV := by revert f g; decide
  obtain ⟨T, hT⟩ : ∃ T, computing [ta, tb] = some T := by
    obtain h | h := Bool.or_eq_true _ _ |>.mp hn
    · exact computing_of_isFloat (by simp) (Tag.isFloat_of_isNan h)
    · exact computing_of_isFloat (by simp) (Tag.isFloat_of_isNan h)
  obtain ⟨nv, he, hsig⟩ := hff rm ((ta.value x).toFmt T rm).1 ((tb.value y).toFmt T rm).1 (by
    obtain h | h := Bool.or_eq_true _ _ |>.mp hn <;> simp [Val.toFmt_of_isNan h, h])
  have hr : arith2 fi ff td rm { bits := x, tag := ta } { bits := y, tag := tb } =
      { bits := q.nanCode, fl := (if nv then fNV else 0) ||| ((ta.value x).toFmt T rm).2 ||| ((tb.value y).toFmt T rm).2, vs := 0 } := by
    simp only [arith2, hT, Opd.val, he, Exact.finish_nan nv T hq]
  rw [hr]
  refine ⟨rfl, fun hs => ?_⟩
  rw [hsig (by obtain h | h := Bool.or_eq_true _ _ |>.mp hs <;> simp [Val.toFmt_of_isNan (FVal.isNan_of_isSig h), h])]
  exact hnv _ _

omit hq in
theorem fVdiv_nan (hn : ((ta.value x).fval.isNan || (tb.value y).fval.isNan) = true) :
    fVdiv td rm { bits := x, tag := ta } { bits := y, tag := tb } =
      arith2 (fun x y => Int.tdiv x y) (fun _ x y => divExact x y) td rm { bits := x, tag := ta } { bits := y, tag := tb } := by
  refine if_neg ?_
  obtain h | h := Bool.or_eq_true _ _ |>.mp hn <;> simp [ints, Tag.isFloat_of_isNan h]

/-- Infinity times zero, or a signalling NaN, gives the canonical NaN with NV whatever the addend (R116). -/
theorem fma3_nan (negP negC : Bool) (z : Nat) (hm : mulExact (ta.value x).fval (tb.value y).fval = .nan true) :
    fma3 negP negC td rm { bits := x, tag := ta } { bits := y, tag := tb } { bits := z, tag := td } = { bits := q.nanCode, fl := fNV, vs := 0 } := by
  obtain ⟨T, hT⟩ : ∃ T, computing [ta, tb, td] = some T := computing_of_isFloat (t := td) (by simp) (by rw [Tag.isFloat, hq]; rfl)
  have hm' : mulExact (if negP then (ta.value x).fval.neg else (ta.value x).fval) (tb.value y).fval = .nan true := by
    cases negP
    · exact hm
    · exact mulExact_neg_nan hm
  simp only [fma3, hT, Opd.val, fmaExact, hm', Bool.true_or, Exact.finish_nan true T hq, if_true]

end

section
variable {td ta : Tag} {q : Fmt} (hd : td.isFloat = false) (hq : ta.fmt = some q) (rm x : Nat) (ob : Opd)
include hq

/-- A floating operand is converted from its exact value (R60, R114). -/
theorem fVcvt_float : fVcvt td rm { bits := x, tag := ta } ob = (q.decode x).exact.toTag td rm := by
  simp only [fVcvt, Opd.val, Tag.value, hq, Val.toTag]

include hd

theorem fVcvt_nan {sig : Bool} (h : q.decode x = .nan sig) : fVcvt td rm { bits := x, tag := ta } ob = { bits := 0, fl := fNV, vs := 0 } := by
  rw [fVcvt_float hq, h]
  simp only [FVal.exact, Exact.toTag, Tag.fmt_of_not_float hd]

theorem fVcvt_inf {n : Bool} (h : q.decode x = .inf n) :
    fVcvt td rm { bits := x, tag := ta } ob = { bits := intBits td.bits (if n then td.lo else td.hi), fl := fNV, vs := vSAT } := by
  have hfl : fNV ||| 0 = fNV := BitVec.or_zero
  rw [fVcvt_float hq, h]
  simp only [FVal.exact, Exact.toTag, Tag.fmt_of_not_float hd, Bool.false_eq_true, if_false, hfl]

end

theorem Tag.toInt_bound (t : Tag) (n : Bool) : t.toInt (intBits t.bits (if n then t.lo else t.hi)) = if n then t.lo else t.hi := by
  have hl := t.lo_le_hi
  exact t.toInt_intBits (by split_ifs <;> omega) (by split_ifs <;> omega)

/-- The class of an F32 pattern by its fields (R120). -/
theorem classBit_f32 (x : Nat) :
    let e := x / 2 ^ 23 % 256
    let m := x % 2 ^ 23
    let s := if x / 2 ^ 31 % 2 = 1 then 4 else 0
    classBit { bits := x, tag := .f32 } =
      if e = 255 then (if m = 0 then 3 + s else if 2 ^ 22 ≤ m then 8 else 9) else if e = 0 then (if m = 0 then 0 else 1) + s else 2 + s := by
  have hm : x % 2 ^ 23 < 2 ^ 23 := Nat.mod_lt _ (by decide)
  have hd : Fmt.decode .f32 x = (
      if x / 2 ^ 23 % 256 = 255 then (if x % 2 ^ 23 = 0 then .inf (decide (x / 2 ^ 31 % 2 = 1)) else .nan (decide (x % 2 ^ 23 < 2 ^ 22)))
      else if x / 2 ^ 23 % 256 = 0 then .fin (decide (x / 2 ^ 31 % 2 = 1)) (x % 2 ^ 23) (Fmt.qmin .f32)
      else .fin (decide (x / 2 ^ 31 % 2 = 1)) (2 ^ 23 + x % 2 ^ 23) (Fmt.qmin .f32 + (x / 2 ^ 23 % 256 : Nat) - 1)) := rfl
  simp only [classBit, Tag.fmt, hd, Fmt.fw]
  by_cases he : x / 2 ^ 23 % 256 = 255
  · by_cases hz : x % 2 ^ 23 = 0
    · by_cases hs : x / 2 ^ 31 % 2 = 1 <;> simp only [he, hz, hs, if_true, if_false, decide_true, decide_false, Bool.false_eq_true]
    · by_cases hq : 2 ^ 22 ≤ x % 2 ^ 23
      · simp only [he, hz, hq, if_true, if_false, decide_eq_true_eq, Nat.not_lt.mpr hq]
      · simp only [he, hz, hq, if_true, if_false, decide_eq_true_eq, Nat.not_le.mp hq]
  · by_cases h0 : x / 2 ^ 23 % 256 = 0
    · simp only [if_neg he, if_pos h0, decide_eq_true_eq, hm, if_true]
      split_ifs <;> omega
    · simp only [if_neg he, if_neg h0, decide_eq_true_eq, show ¬ 2 ^ 23 + x % 2 ^ 23 = 0 by omega, show ¬ 2 ^ 23 + x % 2 ^ 23 < 2 ^ 23 by omega, if_false]
      split_ifs <;> omega

theorem fVfclass_f32 {td : Tag} (hd : td.isFloat = false) (rm x : Nat) (ob : Opd) :
    fVfclass td rm { bits := x, tag := .f32 } ob = td.clamp (2 ^ classBit { bits := x, tag := .f32 }) := by
  simp only [fVfclass, Val.int_toTag hd, Nat.cast_pow, Nat.cast_ofNat]

/-! ## Compares (R135) -/

/-- Integers compare as the numbers that they are. -/
theorem FVal.lt_int (i j : Int) : FVal.lt false (Val.int i).fval (Val.int j).fval = decide (i < j) := by
  have hs (n : Int) : scaled (decide (n < 0)) n.natAbs 0 (min 0 0) = n := by
    simp only [scaled, decide_eq_true_eq, min_self, Int.sub_self, Int.toNat_zero, pow_zero, mul_one]
    split_ifs <;> omega
  simp only [Val.fval, FVal.lt, hs, Bool.false_and, Bool.or_false]

theorem compare2_int {ta tb : Tag} (ha : ta.isFloat = false) (hb : tb.isFloat = false) (u nv : Bool) (f : FVal → FVal → Bool) (x y : Nat) :
    compare2 u nv f { bits := x, tag := ta } { bits := y, tag := tb } = ⟨f (Val.int (ta.toInt x)).fval (Val.int (tb.toInt y)).fval, 0⟩ := by
  simp only [compare2, Opd.val, Tag.value_int ha, Tag.value_int hb]
  rfl

section
variable {oa ob : Opd}

theorem compare2_nan (h : (oa.val.fval.isNan || ob.val.fval.isNan) = true) (u nv : Bool) (f : FVal → FVal → Bool) :
    compare2 u nv f oa ob = ⟨u, if oa.val.fval.isSig || ob.val.fval.isSig || nv then fNV else 0⟩ := if_pos h

theorem compare2_number (h : (oa.val.fval.isNan || ob.val.fval.isNan) = false) (u nv : Bool) (f : FVal → FVal → Bool) :
    compare2 u nv f oa ob = ⟨f oa.val.fval ob.val.fval, 0⟩ := if_neg (by rw [h]; exact Bool.false_ne_true)

end

end Sys2Proof.Machine
end

section
/-! O45, THIRD PART. The governing mask, mask instructions and permutations at an element (R104, R122, R135 to R144). -/

namespace Sys2Proof.Machine

/-! ## The governing mask and the operands (R104, R122) -/

section
variable {t : Thread} {r : Rule} {sp : RuleSpec} {i : Nat}

theorem governed_of_le (h : r.vle ≤ i) (a : Act) : governed t.vec r i a = .carry 0 := if_pos h

section
variable (h : i < r.vle)
include h

theorem governed_off (hg : gov t.vec r i = .off) (a : Act) : governed t.vec r i a = .carry 0 := by
  rw [governed, if_neg (Nat.not_le.mpr h), hg]

theorem governed_void (hg : gov t.vec r i = .void) (a : Act) : governed t.vec r i a = .void 0 := by
  rw [governed, if_neg (Nat.not_le.mpr h), hg]

theorem governed_wait (hg : gov t.vec r i = .wait) (a : Act) : governed t.vec r i a = .wait := by
  rw [governed, if_neg (Nat.not_le.mpr h), hg]

end

theorem Active.governed (h : Active t r i) (a : Act) : Machine.governed t.vec r i a = a := by
  rw [Machine.governed, if_neg (Nat.not_le.mpr h.1), h.2]

theorem combine_void {td : Tag} {b : ElOp} (hb : b ≠ .wait) (f : List Opd → Act) : combine td [.void, b] f = .void 0 := by
  cases b with
  | wait => exact absurd rfl hb
  | void | bad | opd => rfl

theorem combine_bad {td : Tag} (b : Opd) (f : List Opd → Act) : combine td [.bad, .opd b] f = .val (invalidRes td) := rfl
theorem combine_two {td : Tag} (a b : Opd) (f : List Opd → Act) : combine td [.opd a, .opd b] f = f [a, b] := rfl
theorem combine_three {td : Tag} (a b c : Opd) (f : List Opd → Act) : combine td [.opd a, .opd b, .opd c] f = f [a, b, c] := rfl

/-- An element-wise function fires under its governing mask (R104). -/
theorem evalAt_ew {f : ElemFn} (hk : sp.kind = .ew f) : ∃ act : List Opd → Act, (∀ a b, act [a, b] = .val (f r.td r.rm a b)) ∧
    evalAt t r sp i = governed t.vec r i (combine r.td [readA t r sp i, readB t r sp i] act) := by
  refine ⟨_, fun a b => ?_, by simp only [evalAt, hk]; rfl⟩
  rfl

theorem evalAt_fma {g : FmaFn} {rm : Nat} (hk : sp.kind = .fma g rm) (h : Active t r i) {a b c : Opd}
    (ha : readA t r sp i = .opd a) (hb : readB t r sp i = .opd b) (hc : readOld t r sp i = .opd c) :
    evalAt t r sp i = .val (g r.td (if rm = 7 then r.frm.toNat else rm) a b c) := by
  simp only [evalAt, hk, h.governed, ha, hb, hc, combine_three, Rule.rm]

theorem evalAt_cmp {f : CmpFn} (hk : sp.kind = .cmp f) (h : Active t r i) {a b : Opd}
    (ha : readA t r sp i = .opd a) (hb : readB t r sp i = .opd b) : evalAt t r sp i = .bit (f a b).bit (f a b).fl := by
  simp only [evalAt, hk, h.governed, ha, hb, combine_two]

theorem readA_pair_first {q : BitVec 5} (ha : sp.a = .pair q) (h : i < t.vlmax r.ta.wlog) :
    readA t r sp i = .ofElem (t.vec.elem r.a0 i) r.ta := by
  simp only [readA, ha, groupElem, if_pos h]

theorem readA_pair_second {q : BitVec 5} (ha : sp.a = .pair q) (hl : t.vlmax r.ta.wlog ≤ i) (hh : i < 2 * t.vlmax r.ta.wlog)
    {p : Fin 128} (hp : r.a1 = some p) : readA t r sp i =
      if (t.vec.vreg p).wlog = r.ta.wlog then .ofElem ((t.vec.vreg p).get (i - t.vlmax r.ta.wlog)) r.ta else .bad := by
  simp only [readA, ha, groupElem, if_neg (Nat.not_lt.mpr hl), if_neg (Nat.not_le.mpr hh), hp]

end

/-- What holds of an instruction's operand form holds of every form that the instruction has. -/
theorem of_ruleSpec {ins : Instr} {sp : RuleSpec} {P : RuleSpec → Prop} (h : ruleSpec ins = some sp) (hp : P sp) :
    ∀ q, ruleSpec ins = some q → P q := by
  intro q hq
  cases h.symm.trans hq
  exact hp

/-! ## Masks (R135 to R137) -/

section
variable {t : Thread} {r : Rule} {sp : RuleSpec} {i : Nat} (h : Active t r i)
include h

theorem evalAt_mask2 {f : Bool → Bool → Bool} {k : Nat} (hk : sp.kind = .mask2 f) (hb : sp.b = .m k) {u v : Bool}
    (hx : t.vec.bit r.pa i = .present u) (hy : t.vec.bit r.pb i = .present v) : evalAt t r sp i = .bit (f u v) 0 := by
  simp only [evalAt, hk, h.governed, hb, hx, hy]

theorem evalAt_mask2_one {f : Bool → Bool → Bool} (hk : sp.kind = .mask2 f) (hb : sp.b = .none) {u : Bool}
    (hx : t.vec.bit r.pa i = .present u) : evalAt t r sp i = .bit (f u false) 0 := by
  simp only [evalAt, hk, h.governed, hb, hx]

theorem evalAt_mask2_void {f : Bool → Bool → Bool} {k : Nat} (hk : sp.kind = .mask2 f) (hb : sp.b = .m k)
    (hxy : (t.vec.bit r.pa i = .void ∧ t.vec.bit r.pb i ≠ .absent) ∨ (t.vec.bit r.pa i ≠ .absent ∧ t.vec.bit r.pb i = .void)) :
    evalAt t r sp i = .void 0 := by
  simp only [evalAt, hk, h.governed, hb]
  cases hx : t.vec.bit r.pa i <;> cases hy : t.vec.bit r.pb i <;> simp_all

end

/-- The scan of R136 by one index: a bit it needs is ABSENT, nothing is found yet, or the first set bit stands. -/
def Found.next (v : Vec) (r : Rule) (a : Found) (j : Nat) : Found :=
  match a with
  | .wait => .wait
  | .none =>
    match gov v r j, v.bit r.pa j with
    | .wait, _ => .wait
    | _, .absent => .wait
    | .void, _ => .at j true
    | .off, _ => .none
    | .on, .void => .at j true
    | .on, .present b => if b then .at j false else .none
  | .at f w =>
    match gov v r j, v.bit r.pa j with
    | .wait, _ => .wait
    | _, .absent => .wait
    | _, _ => .at f w

theorem firstSet_eq (v : Vec) (r : Rule) (i : Nat) : firstSet v r i = (List.range (i + 1)).foldl (Found.next v r) .none := rfl

/-- A bit that the scan passes: left out by the mask, or clear. -/
def Idle (t : Thread) (r : Rule) (j : Nat) : Prop :=
  (gov t.vec r j = .off ∧ t.vec.bit r.pa j ≠ .absent) ∨ (gov t.vec r j = .on ∧ t.vec.bit r.pa j = .present false)

section
variable {t : Thread} {r : Rule}

theorem Found.next_idle {j : Nat} (h : Idle t r j) : Found.next t.vec r .none j = .none := by
  obtain ⟨hg, hb⟩ | ⟨hg, hb⟩ := h <;> simp only [Found.next, hg, hb, Bool.false_eq_true, if_false]

theorem Found.next_set {j : Nat} (hg : gov t.vec r j = .on) (hb : t.vec.bit r.pa j = .present true) : Found.next t.vec r .none j = .at j false := by
  simp only [Found.next, hg, hb]; rfl

theorem Found.next_at {f j : Nat} (hg : Decided t r j) (hb : t.vec.bit r.pa j ≠ .absent) : Found.next t.vec r (.at f false) j = .at f false := by
  obtain hg | hg := hg <;> simp only [Found.next, hg]

theorem foldl_next_idle : ∀ n, (∀ j, j < n → Idle t r j) → (List.range n).foldl (Found.next t.vec r) .none = .none
  | 0, _ => rfl
  | n + 1, h => by
    rw [List.range_succ, List.foldl_append, foldl_next_idle n fun j hj => h j (by omega)]
    exact Found.next_idle (h n (by omega))

theorem firstSet_none {i : Nat} (h : ∀ j, j ≤ i → Idle t r j) : firstSet t.vec r i = .none :=
  foldl_next_idle (i + 1) fun j hj => h j (by omega)

/-- The first set bit is found, and stays found (R136). -/
theorem firstSet_at {f : Nat} (hon : gov t.vec r f = .on) (hset : t.vec.bit r.pa f = .present true) (hbelow : ∀ j, j < f → Idle t r j) :
    ∀ {i : Nat}, f ≤ i → (∀ j, f < j → j ≤ i → Decided t r j ∧ t.vec.bit r.pa j ≠ .absent) → firstSet t.vec r i = .at f false := by
  intro i
  induction i with
  | zero =>
    intro hf _
    obtain rfl : f = 0 := by omega
    exact Found.next_set hon hset
  | succ i ih =>
    intro hf hafter
    rw [firstSet_eq, List.range_succ, List.foldl_append]
    by_cases he : f = i + 1
    · subst he
      rw [foldl_next_idle _ hbelow]
      exact Found.next_set hon hset
    · rw [← firstSet_eq, ih (by omega) fun j hj hji => hafter j hj (by omega)]
      obtain ⟨hd, hb⟩ := hafter (i + 1) (by omega) (le_refl _)
      exact Found.next_at hd hb

variable {sp : RuleSpec} {i : Nat} {row : Bool × Bool × Bool × Bool}

theorem evalAt_first_none (h : Active t r i) (hk : sp.kind = .first row) (hf : firstSet t.vec r i = .none) : evalAt t r sp i = .bit row.1 0 := by
  simp only [evalAt, hk, h.governed, hf]

theorem evalAt_first_at (h : Active t r i) (hk : sp.kind = .first row) {f : Nat} (hf : firstSet t.vec r i = .at f false) :
    evalAt t r sp i = .bit (if f = i then row.2.1 else row.2.2.1) 0 := by
  simp only [evalAt, hk, h.governed, hf, Bool.false_eq_true, if_false]

/-- The set active bits below an index are counted, once they are there (R137). -/
theorem countSet_eq : ∀ n, (∀ j, j < n → gov t.vec r j = .off ∨ (gov t.vec r j = .on ∧ ∃ u, t.vec.bit r.pa j = .present u)) →
    countSet t.vec r n = some (some ((List.range n).filter (fun j => gov t.vec r j == .on && t.vec.bit r.pa j == .present true)).length)
  | 0, _ => rfl
  | n + 1, h => by
    have ih := countSet_eq n fun j hj => h j (by omega)
    rw [countSet, ih, List.range_succ, List.filter_append, List.length_append]
    obtain hg | ⟨hg, u, hb⟩ := h n (by omega)
    · simp [hg]
    · cases u <;> simp [hg, hb]

end

/-! ## Permutations (R138 to R144) -/

section
variable {t : Thread} {r : Rule} {i : Nat}

/-- What stands at index j of va is moved as it is between equal widths (R139). -/
theorem moved_source (hw : r.td.wlog = r.ta.wlog) {ins : Instr} {sp : RuleSpec} (hs : ruleSpec ins = some sp) {j : Nat}
    (he : evalAt t r sp i = moved r.td r.ta (.ofElem (t.vec.elem r.a0 j) r.ta)) :
    (∀ x, t.vec.elem r.a0 j = .present x → ∀ sp, ruleSpec ins = some sp → evalAt t r sp i = .val (.plain x.toNat)) ∧
      (t.vec.elem r.a0 j = .void → ∀ sp, ruleSpec ins = some sp → evalAt t r sp i = .void 0) ∧
      (t.vec.elem r.a0 j = .absent → ∀ sp, ruleSpec ins = some sp → evalAt t r sp i = .wait) := by
  refine ⟨fun x hx => of_ruleSpec hs ?_, fun hx => of_ruleSpec hs ?_, fun hx => of_ruleSpec hs ?_⟩ <;> rw [he, hx]
  · exact if_pos hw
  · rfl
  · rfl

theorem beyond_same (hw : r.td.wlog = r.ta.wlog) (vs : BitVec 3) : beyond r.td r.ta vs = .val { bits := 0, fl := 0, vs := vs } := if_pos hw

theorem moved_scalar (hw : r.td.wlog = r.ta.wlog) (o : Opd) : moved r.td r.ta (.opd o) = .val (.plain o.bits) := if_pos hw

section
variable {sp : RuleSpec} (h : Active t r i)
include h

section
variable {a : BitVec 5} (hk : sp.kind = .gather) (ha : sp.a = .v a) {x : Word} (hx : t.vec.elem r.b0 i = .present x) (hb : r.tb.isFloat = false)
include hk ha hx hb

theorem evalAt_gather (hj : x.toNat % 2 ^ r.tb.bits < t.vlmax r.ta.wlog) :
    evalAt t r sp i = moved r.td r.ta (.ofElem (t.vec.elem r.a0 (x.toNat % 2 ^ r.tb.bits)) r.ta) := by
  simp only [evalAt, hk, h.governed, hx, ElOp.ofElem, ha, indexOf, hb, Bool.false_eq_true, if_false, if_neg (Nat.not_le.mpr hj), groupElem, if_pos hj]

theorem evalAt_gather_beyond (hj : t.vlmax r.ta.wlog ≤ x.toNat % 2 ^ r.tb.bits) : evalAt t r sp i = beyond r.td r.ta vRANGE := by
  simp only [evalAt, hk, h.governed, hx, ElOp.ofElem, ha, indexOf, hb, Bool.false_eq_true, if_false, if_pos hj]

end

theorem evalAt_slideup (hk : sp.kind = .slide 0) (hs : r.opb.toNat ≤ i) (hc : i - r.opb.toNat < t.vlmax r.ta.wlog) :
    evalAt t r sp i = moved r.td r.ta (.ofElem (t.vec.elem r.a0 (i - r.opb.toNat)) r.ta) := by
  simp only [evalAt, hk, h.governed, if_pos hs, if_pos hc]

theorem evalAt_slideup_below (hk : sp.kind = .slide 0) (hw : r.td.wlog = r.ta.wlog) (hs : i < r.opb.toNat) : evalAt t r sp i = .carry 0 := by
  simp only [evalAt, hk, h.governed, if_neg (Nat.not_le.mpr hs), if_pos hw]

theorem evalAt_slidedown (hk : sp.kind = .slide 1) (hc : i + r.opb.toNat < t.vlmax r.ta.wlog) :
    evalAt t r sp i = moved r.td r.ta (.ofElem (t.vec.elem r.a0 (i + r.opb.toNat)) r.ta) := by
  simp only [evalAt, hk, h.governed, if_pos hc]

theorem evalAt_slidedown_beyond (hk : sp.kind = .slide 1) (hc : t.vlmax r.ta.wlog ≤ i + r.opb.toNat) : evalAt t r sp i = beyond r.td r.ta 0 := by
  simp only [evalAt, hk, h.governed, if_neg (Nat.not_lt.mpr hc)]

theorem evalAt_slide1up_first (hk : sp.kind = .slide 2) (hi : i = 0) :
    evalAt t r sp i = moved r.td r.ta (.opd { bits := r.opb.toNat % 2 ^ r.ta.bits, tag := r.ta }) := by
  simp only [evalAt, hk, h.governed, if_pos hi]

theorem evalAt_slide1up (hk : sp.kind = .slide 2) (hi : 0 < i) (hc : i - 1 < t.vlmax r.ta.wlog) :
    evalAt t r sp i = moved r.td r.ta (.ofElem (t.vec.elem r.a0 (i - 1)) r.ta) := by
  simp only [evalAt, hk, h.governed, if_neg (Nat.pos_iff_ne_zero.mp hi), if_pos hc]

theorem evalAt_slide1down_last (hk : sp.kind = .slide 3) (hi : i + 1 = r.vle) :
    evalAt t r sp i = moved r.td r.ta (.opd { bits := r.opb.toNat % 2 ^ r.ta.bits, tag := r.ta }) := by
  simp only [evalAt, hk, h.governed, if_pos hi]

theorem evalAt_slide1down (hk : sp.kind = .slide 3) (hi : i + 1 < r.vle) (hc : i + 1 < t.vlmax r.ta.wlog) :
    evalAt t r sp i = moved r.td r.ta (.ofElem (t.vec.elem r.a0 (i + 1)) r.ta) := by
  simp only [evalAt, hk, h.governed, if_neg (Nat.ne_of_lt hi), if_pos hc]

theorem evalAt_splat (hk : sp.kind = .splat) : evalAt t r sp i = .val (.plain (r.opb.toNat % 2 ^ r.td.bits)) := by
  simp only [evalAt, hk, h.governed]

theorem evalAt_ext (hk : sp.kind = .ext) (hs : r.opb.toNat < t.vlmax r.ta.wlog) :
    evalAt t r sp i = moved r.td r.ta (.ofElem (t.vec.elem r.a0 r.opb.toNat) r.ta) := by
  simp only [evalAt, hk, h.governed, if_neg (Nat.not_le.mpr hs)]

theorem evalAt_ext_beyond (hk : sp.kind = .ext) (hs : t.vlmax r.ta.wlog ≤ r.opb.toNat) : evalAt t r sp i = beyond r.td r.ta vRANGE := by
  simp only [evalAt, hk, h.governed, if_pos hs]

end

/-- The k-th set bit of mb from the index where n bits are left, of which `seen` stand below (R142). -/
theorem nthSet_eq (v : Vec) (r : Rule) (k : Nat) (hb : ∀ j, j < r.vle → v.bit r.pb j ≠ .absent) :
    ∀ n seen, n ≤ r.vle → seen ≤ k →
      nthSet v r k n seen = some (((List.range' (r.vle - n) n).filter (fun j => v.bit r.pb j == .present true))[k - seen]?)
  | 0, seen, _, _ => by simp [nthSet]
  | n + 1, seen, hn, hs => by
    have ih := nthSet_eq v r k hb n
    rw [nthSet, List.range'_succ, show r.vle - (n + 1) + 1 = r.vle - n by omega]
    cases hx : v.bit r.pb (r.vle - (n + 1)) with
    | absent => exact absurd hx (hb _ (by omega))
    | void => simp [hx, ih seen (by omega) hs]
    | present u =>
      cases u
      · simp [hx, ih seen (by omega) hs]
      · by_cases he : seen = k
        · simp [hx, he]
        · simp only [he, if_false, ih (seen + 1) (by omega) (by omega)]
          rw [List.filter_cons_of_pos (by simp [hx]), show k - seen = k - (seen + 1) + 1 by omega, List.getElem?_cons_succ]

section
variable {sp : RuleSpec} (hk : sp.kind = .compress) (hi : i < r.vle) (hb : ∀ j, j < r.vle → t.vec.bit r.pb j ≠ .absent)
include hk hi hb

/-- Element i of a compression is the i-th of those that mb selects (R142). -/
theorem evalAt_compress {j : Nat} (hj : ((List.range r.vle).filter (fun j => t.vec.bit r.pb j == .present true))[i]? = some j) :
    evalAt t r sp i = moved r.td r.ta (.ofElem (t.vec.elem r.a0 j) r.ta) := by
  have hn := nthSet_eq t.vec r i hb r.vle 0 (le_refl _) (Nat.zero_le _)
  rw [Nat.sub_self, Nat.sub_zero, ← List.range_eq_range', hj] at hn
  simp only [evalAt, hk, if_neg (Nat.not_le.mpr hi), hn]

theorem evalAt_compress_past (hl : ((List.range r.vle).filter (fun j => t.vec.bit r.pb j == .present true)).length ≤ i) :
    evalAt t r sp i = .carry 0 := by
  have hn := nthSet_eq t.vec r i hb r.vle 0 (le_refl _) (Nat.zero_le _)
  rw [Nat.sub_self, Nat.sub_zero, ← List.range_eq_range', List.getElem?_eq_none hl] at hn
  simp only [evalAt, hk, if_neg (Nat.not_le.mpr hi), hn]

end

/-- Element j pushes to element i (R143). -/
def Aims (t : Thread) (r : Rule) (i j : Nat) : Prop := ∃ x, t.vec.elem r.b0 j = .present x ∧ x.toNat % 2 ^ r.tb.bits = i

theorem find?_filter_ne {α : Type} {ws : List (Nat × α)} {a i : Nat} (h : ¬ a = i) :
    (ws.filter (fun w => w.1 != a)).find? (fun w => w.1 == i) = ws.find? (fun w => w.1 == i) := by
  rw [List.find?_filter]
  congr 1
  funext w
  by_cases hw : w.1 = i
  · simp [hw, Ne.symm h]
  · simp [hw]

/-- Of the pushes below n, the last one to an element stands (R143). -/
theorem pushes_eq (hb : r.tb.isFloat = false) (hi : i < r.vle) : ∀ n,
    (∀ j, j < n → gov t.vec r j = .on ∧ ∃ x, t.vec.elem r.b0 j = .present x) →
    ∃ ws vs, pushes t r n = some (ws, vs) ∧
      (∀ j, j < n → Aims t r i j → (∀ l, j < l → l < n → ¬ Aims t r i l) → ws.find? (fun w => w.1 == i) = some (i, j, false)) ∧
      ((∀ j, j < n → ¬ Aims t r i j) → ws.find? (fun w => w.1 == i) = none)
  | 0, _ => ⟨[], 0, rfl, fun j hj => absurd hj (Nat.not_lt_zero j), fun _ => rfl⟩
  | n + 1, h => by
    obtain ⟨ws, vs, hp, hlast, hnone⟩ := pushes_eq hb hi n fun j hj => h j (by omega)
    obtain ⟨hg, x, hx⟩ := h n (by omega)
    have haims : Aims t r i n ↔ x.toNat % 2 ^ r.tb.bits = i := by simp [Aims, hx]
    have hidx : indexOf { bits := x.toNat, tag := r.tb } r.vle = x.toNat % 2 ^ r.tb.bits := by simp [indexOf, hb]
    by_cases hout : r.vle ≤ x.toNat % 2 ^ r.tb.bits
    · have hna : ¬ Aims t r i n := by rw [haims]; omega
      refine ⟨ws, vs ||| vRANGE, by simp only [pushes, hp, hg, hx, ElOp.ofElem, hidx, if_pos hout], fun j hj ha hl => ?_,
        fun hn => hnone fun j hj => hn j (by omega)⟩
      have hjn : j ≠ n := by rintro rfl; exact hna ha
      exact hlast j (by omega) ha fun l hl1 hl2 => hl l hl1 (by omega)
    · refine ⟨_, _, by simp only [pushes, hp, hg, hx, ElOp.ofElem, hidx, if_neg hout]; rfl, fun j hj ha hl => ?_, fun hn => ?_⟩
      · by_cases hjn : j = n
        · subst hjn
          rw [List.find?_cons_of_pos (by simpa using haims.mp ha), haims.mp ha]; rfl
        · have hna : ¬ x.toNat % 2 ^ r.tb.bits = i := fun e => hl n (by omega) (by omega) (haims.mpr e)
          rw [List.find?_cons_of_neg (by simpa using hna), find?_filter_ne hna]
          exact hlast j (by omega) ha fun l hl1 hl2 => hl l hl1 (by omega)
      · have hna : ¬ x.toNat % 2 ^ r.tb.bits = i := fun e => hn n (by omega) (haims.mpr e)
        rw [List.find?_cons_of_neg (by simpa using hna), find?_filter_ne hna]
        exact hnone fun j hj => hn j (by omega)

section
variable (hi : i < r.vle) (hb : r.tb.isFloat = false)
  (h : ∀ j, j < r.vle → gov t.vec r j = .on ∧ ∃ x, t.vec.elem r.b0 j = .present x)
include hi hb h

theorem evalAt_push (hw : r.td.wlog = r.ta.wlog) {j : Nat} {x : Word} (hj : j < r.vle) (ha : Aims t r i j)
    (hl : ∀ l, j < l → l < r.vle → ¬ Aims t r i l) (hx : t.vec.elem r.a0 j = .present x) :
    ∃ vs, ∀ sp : RuleSpec, sp.kind = .push → evalAt t r sp i = .val { bits := x.toNat, fl := 0, vs := vs } := by
  obtain ⟨ws, vs, hp, hlast, -⟩ := pushes_eq hb hi r.vle h
  refine ⟨0 ||| vs, fun sp hk => ?_⟩
  simp only [evalAt, hk, if_neg (Nat.not_le.mpr hi), hp, hlast j hj ha hl, Bool.false_eq_true, if_false, hx, ElOp.ofElem, moved_scalar hw, Res.plain]

theorem evalAt_push_none (ha : ∀ j, j < r.vle → ¬ Aims t r i j) : ∃ vs, ∀ sp : RuleSpec, sp.kind = .push → evalAt t r sp i = .carry vs := by
  obtain ⟨ws, vs, hp, -, hnone⟩ := pushes_eq hb hi r.vle h
  refine ⟨vs, fun sp hk => ?_⟩
  simp only [evalAt, hk, if_neg (Nat.not_le.mpr hi), hp, hnone ha]

end

end

end Sys2Proof.Machine
end

section
/-! O45, FOURTH PART. Reductions to one segment, and scans, of integers (R69, R70, R146 to R148). -/

namespace Sys2Proof.Machine

/-! ## Reductions and scans of integers (R69, R70, R146 to R148) -/

/-- A list in which what takes no part stands as the identity folds as the list of what does. -/
theorem foldl_with_identity {α β : Type} (f : β → β → β) {e : β} (he : ∀ b, f b e = b) (p : α → Bool) (g : α → β) (l : List α) (b : β) :
    (l.map (fun x => if p x then g x else e)).foldl f b = ((l.filter p).map g).foldl f b := by
  induction l generalizing b with
  | nil => rfl
  | cons x l ih =>
    cases hp : p x
    · simp [hp, he, ih]
    · simp [hp, ih]

section
variable {α : Type} {f : α → α → α} {e : α} [Std.Associative f] [Std.LawfulIdentity f e]
  {op : RedOp} {rm : Nat} {φ : α → Run} (hstep : ∀ a b, redStep op none rm (φ a) (φ b) = φ (f a b)) (hident : redIdent op none = φ e)
include hstep

omit [Std.Associative f] in
theorem foldl_redStep (l : List α) (a : α) : (l.map φ).foldl (redStep op none rm) (φ a) = φ (l.foldl f a) := by
  induction l generalizing a with
  | nil => rfl
  | cons x l ih => rw [List.map_cons, List.foldl_cons, hstep, ih, List.foldl_cons]

include hident

omit [Std.Associative f] in
/-- The ordered form combines from the left (R70). -/
theorem redOrdered_map (l : List α) : redOrdered op none rm (l.map φ) = φ (l.foldl f e) := by
  cases l with
  | nil => exact hident
  | cons x l => rw [List.map_cons, redOrdered, foldl_redStep hstep, List.foldl_cons, Std.LawfulLeftIdentity.left_id (op := f)]

omit hident in
/-- A level of the tree form halves the list and keeps what it combines to. -/
theorem redPairs_map : ∀ l : List α, ∃ m : List α, redPairs op none rm (l.map φ) = m.map φ ∧ m.length = (l.length + 1) / 2 ∧
    ∀ a, m.foldl f a = l.foldl f a
  | [] => ⟨[], by simp [redPairs]⟩
  | [x] => ⟨[x], by simp [redPairs]⟩
  | x :: y :: l => by
    obtain ⟨m, hm, hlen, hfold⟩ := redPairs_map l
    refine ⟨f x y :: m, ?_, ?_, fun a => ?_⟩
    · simp only [List.map_cons, redPairs, hstep, hm]
    · simp only [List.length_cons, hlen]; omega
    · simp only [List.foldl_cons, hfold, Std.Associative.assoc]

theorem redTree_map (k : Nat) : ∀ l : List α, l.length ≤ 2 ^ k → redTree op none rm k (l.map φ) = φ (l.foldl f e) := by
  induction k with
  | zero =>
    intro l hl
    match l, hl with
    | [], _ => exact hident
    | [x], _ => simp [redTree, Std.LawfulLeftIdentity.left_id (op := f)]
  | succ k ih =>
    intro l hl
    obtain ⟨m, hm, hlen, hfold⟩ := redPairs_map hstep l
    rw [redTree, hm, ih m (by rw [hlen]; rw [Nat.pow_succ] at hl; omega), hfold]

omit hstep hident in
theorem le_two_pow_log2Up (n : Nat) : n ≤ 2 ^ log2Up n := by
  unfold log2Up
  split_ifs with h
  · simpa using h
  · have := Nat.lt_log2_self (n := n - 1)
    omega

omit hstep hident [Std.Associative f] in
theorem foldl_append_identity (l : List α) (n : Nat) (a : α) : (l ++ List.replicate n e).foldl f a = l.foldl f a := by
  induction n with
  | zero => simp
  | succ n ih => rw [List.replicate_succ', ← List.append_assoc, List.foldl_append, ih, List.foldl_cons, List.foldl_nil,
      Std.LawfulRightIdentity.right_id (op := f)]

/-- Both forms give the same integer, whatever the padding of the tree (R70). -/
theorem redList_map (l : List α) : redList op none rm (l.map φ) = φ (l.foldl f e) := by
  by_cases hop : op = .sumT
  · subst hop
    have hpad := le_two_pow_log2Up l.length
    rw [redList, List.length_map, hident, ← List.map_replicate, ← List.map_append,
      redTree_map hstep hident _ _ (by rw [List.length_append, List.length_replicate]; omega), foldl_append_identity]
  · have hord : redList op none rm (l.map φ) = redOrdered op none rm (l.map φ) := by
      cases op with
      | sumT => exact absurd rfl hop
      | sumO | min | max | and | or | xor => rfl
    rw [hord, redOrdered_map hstep hident]

end

/-! ## One segment (R147) -/

/-- The pattern of an element that is there. -/
def elemBits (e : Elem) : Nat := match e with | .present x => x.toNat | _ => 0

theorem activeInts_eq (t : Thread) (r : Rule) (n : Nat) : activeInts t r n =
    ((List.range n).filter (fun j => gov t.vec r j == .on)).map (fun j => r.ta.toInt (elemBits (t.vec.elem r.a0 j))) := rfl

theorem activePatterns_eq (t : Thread) (r : Rule) (n : Nat) : activePatterns t r n =
    ((List.range n).filter (fun j => gov t.vec r j == .on)).map (fun j => r.ta.extend (elemBits (t.vec.elem r.a0 j))) := rfl

section
variable {t : Thread} {r : Rule} {sp : RuleSpec}

/-- The mask bit of an element is known, and the element is there. -/
def Known (t : Thread) (r : Rule) (j : Nat) : Prop := Decided t r j ∧ t.vec.elem r.a0 j ≠ .absent ∧ t.vec.elem r.a0 j ≠ .void

theorem redInput_of_known {j : Nat} (h : Known t r j) :
    redInput t r j = if gov t.vec r j == .on then .opd { bits := elemBits (t.vec.elem r.a0 j), tag := r.ta } else .void := by
  obtain ⟨hg | hg, ha, hv⟩ := h
  · cases hx : t.vec.elem r.a0 j with
    | absent => exact absurd hx ha
    | void => exact absurd hx hv
    | present x => simp [redInput, hg, hx, ElOp.ofElem, elemBits]
  · simp [redInput, hg]

theorem findSeg_rest (hsp : r.sp = none) (v : Vec) : ∀ k j, 0 < j → findSeg v r 0 k j 1 (some 0) = .seg 0 (r.vle - 1)
  | 0, _, _ => rfl
  | k + 1, j, hj => by
    have hs : segStart v r j = some false := by rw [segStart, if_neg (Nat.pos_iff_ne_zero.mp hj), hsp]
    rw [findSeg, hs]
    exact findSeg_rest hsp v k (j + 1) (Nat.succ_pos j)

/-- Without segment bits there is one segment (R147). -/
theorem findSeg_one (hsp : r.sp = none) (v : Vec) (h : 0 < r.vle) : findSeg v r 0 r.vle 0 0 none = .seg 0 (r.vle - 1) := by
  obtain ⟨n, hn⟩ : ∃ n, r.vle = n + 1 := ⟨r.vle - 1, by omega⟩
  rw [hn, findSeg]
  simpa [segStart, hn] using findSeg_rest hsp v n 1 Nat.one_pos

theorem segBegin_one (hsp : r.sp = none) (v : Vec) : ∀ i, segBegin v r i = some 0
  | 0 => rfl
  | i + 1 => by
    have hs : segStart v r (i + 1) = some false := by rw [segStart, if_neg (Nat.succ_ne_zero i), hsp]
    rw [segBegin, hs]
    exact segBegin_one hsp v i

variable {α : Type} {f : α → α → α} {e : α} [Std.Associative f] [Std.LawfulIdentity f e] {op : RedOp} {φ : α → Run} {g : Nat → α}

/-- The elements of the rule that take part among the first n, as values. -/
def activeVals (t : Thread) (r : Rule) (g : Nat → α) (n : Nat) : List α :=
  ((List.range n).filter (fun j => gov t.vec r j == .on)).map (fun j => g (elemBits (t.vec.elem r.a0 j)))

/-- The operands of a reduction: what takes part, and the identity for the rest. -/
def redVals (t : Thread) (r : Rule) (g : Nat → α) (e : α) (n : Nat) : List α :=
  (List.range n).map (fun j => if gov t.vec r j == .on then g (elemBits (t.vec.elem r.a0 j)) else e)

omit [Std.Associative f] in
theorem foldl_redVals (n : Nat) (a : α) : (redVals t r g e n).foldl f a = (activeVals t r g n).foldl f a :=
  foldl_with_identity f (Std.LawfulRightIdentity.right_id (op := f)) _ _ _ a

omit [Std.Associative f] [Std.LawfulIdentity f e] in
theorem redRuns_eq {rm n : Nat} (hident : redIdent op none = φ e) (hg : ∀ b, redOf op none rm { bits := b, tag := r.ta } = φ (g b))
    (h : ∀ j, j < n → Known t r j) :
    redRuns op none rm ((List.range n).map (fun k => redInput t r (0 + k))) = some ((redVals t r g e n).map φ) := by
  have hin : (List.range n).map (fun k => redInput t r (0 + k)) =
      (List.range n).map (fun j => if gov t.vec r j == .on then ElOp.opd { bits := elemBits (t.vec.elem r.a0 j), tag := r.ta } else .void) :=
    List.map_congr_left fun j hj => by rw [Nat.zero_add, redInput_of_known (h j (List.mem_range.mp hj))]
  have hwait : ((List.range n).map (fun k => redInput t r (0 + k))).contains .wait = false := by
    rw [hin, List.contains_eq_any_beq, List.any_map, List.any_eq_false]
    intro j _
    by_cases hgj : gov t.vec r j = .on <;> simp [hgj]
  rw [redRuns, hwait, if_neg Bool.false_ne_true, hin, redVals, List.map_map, List.map_map]
  congr 1
  refine List.map_congr_left fun j _ => ?_
  by_cases hgj : gov t.vec r j = .on <;> simp [hgj, hg, hident]

variable (hstep : ∀ a b, redStep op none r.rm (φ a) (φ b) = φ (f a b)) (hident : redIdent op none = φ e)
  (hg : ∀ b, redOf op none r.rm { bits := b, tag := r.ta } = φ (g b)) (hsp : r.sp = none) (hta : r.ta.isFloat = false)
include hstep hident hg hsp hta

/-- A reduction of one segment combines the start with what takes part (R147). -/
theorem evalReduce_eq (hcap : 0 < redCap t r sp) (hvle : 0 < r.vle) (h : ∀ j, j < r.vle → Known t r j) (htb : r.tb.isFloat = false)
    {o : Opd} (ho : readB t r sp 0 = .opd o) {a : α} (ha : redOf op none r.rm o = φ a) :
    evalReduce t r sp op 0 = .val (redOut op none r.rm r.td (φ ((activeVals t r g r.vle).foldl f a))) := by
  have hlen : r.vle - 1 + 1 - 0 = r.vle := by omega
  have hany : (List.range r.vle).any (fun k => t.vec.elem r.a0 (0 + k) == .absent) = false := by
    rw [List.any_eq_false]
    intro j hj
    rw [Nat.zero_add]
    simpa using (h j (List.mem_range.mp hj)).2.1
  have hfold : f a ((activeVals t r g r.vle).foldl f e) = (activeVals t r g r.vle).foldl f a := by
    rw [← List.foldl_assoc (op := f), Std.LawfulRightIdentity.right_id (op := f)]
  simp only [evalReduce, if_neg (Nat.not_le.mpr hcap), findSeg_one hsp t.vec hvle, hlen, hany, Bool.false_eq_true, if_false,
    computing_ints hta htb, redRuns_eq hident hg h, ho, ha, redList_map hstep hident, hstep, foldl_redVals, hfold]

omit [Std.Associative f] in
/-- Element i of a scan combines what takes part up to i (R148). -/
theorem evalScan_eq {i : Nat} (hi : Active t r i) (h : ∀ j, j ≤ i → Known t r j) :
    evalScan t r op i = .val (redOut op none r.rm r.td (φ ((activeVals t r g (i + 1)).foldl f e))) := by
  have hk : ∀ j, j < i + 1 → Known t r j := fun j hj => h j (by omega)
  have hnone : ((List.range (i + 1)).map (fun k => redInput t r (0 + k))).all (fun o => o == .void) = false := by
    rw [List.all_eq_false]
    refine ⟨_, List.mem_map.mpr ⟨i, List.mem_range.mpr (Nat.lt_succ_self i), rfl⟩, ?_⟩
    rw [Nat.zero_add, redInput_of_known (h i (le_refl _)), hi.2]
    simp
  simp only [evalScan, hi.governed, segBegin_one hsp, Nat.sub_zero, computing_ints hta hta, redRuns_eq hident hg hk, hnone,
    Bool.false_and, Bool.false_eq_true, if_false, redOrdered_map hstep hident, foldl_redVals]

end

/-! ## The running values of integers and patterns -/

/-- An integer that runs through a sum. -/
def Run.ofInt (n : Int) : Run := { v := .int n, fl := 0 }

/-- An integer that runs through a minimum or maximum, or no value yet. -/
def Run.ofOption : Option Int → Run
  | none => { v := .ident, fl := 0 }
  | some n => Run.ofInt n

/-- A pattern that runs through a bitwise reduction. -/
def Run.ofPattern (x : BitVec 64) : Run := { v := .pat x.toNat, fl := 0 }

theorem redStep_sum {op : RedOp} (hop : op = .sumO ∨ op = .sumT) (rm : Nat) (a b : Int) :
    redStep op none rm (.ofInt a) (.ofInt b) = .ofInt (a + b) := by obtain rfl | rfl := hop <;> simp [redStep, Run.ofInt]

theorem redStep_min (rm : Nat) (a b : Option Int) : redStep .min none rm (.ofOption a) (.ofOption b) = .ofOption (Option.merge min a b) := by
  cases a <;> cases b <;> simp [redStep, Run.ofOption, Run.ofInt]

theorem redStep_max (rm : Nat) (a b : Option Int) : redStep .max none rm (.ofOption a) (.ofOption b) = .ofOption (Option.merge max a b) := by
  cases a <;> cases b <;> simp [redStep, Run.ofOption, Run.ofInt]

theorem redStep_and (rm : Nat) (a b : BitVec 64) : redStep .and none rm (.ofPattern a) (.ofPattern b) = .ofPattern (a &&& b) := by
  simp [redStep, Run.ofPattern]

theorem redStep_or (rm : Nat) (a b : BitVec 64) : redStep .or none rm (.ofPattern a) (.ofPattern b) = .ofPattern (a ||| b) := by
  simp [redStep, Run.ofPattern]

theorem redStep_xor (rm : Nat) (a b : BitVec 64) : redStep .xor none rm (.ofPattern a) (.ofPattern b) = .ofPattern (a ^^^ b) := by
  simp [redStep, Run.ofPattern]

theorem redOut_ofInt {td : Tag} (h : td.isFloat = false) (op : RedOp) (rm : Nat) (n : Int) : redOut op none rm td (.ofInt n) = td.clamp n := by
  have hfl : (td.clamp n).fl ||| 0 = (td.clamp n).fl := BitVec.or_zero
  simp only [redOut, Run.ofInt, Val.int_toTag h, hfl]

/-- The extension of a pattern fits 64 bits (R113). -/
theorem Tag.extend_lt (t : Tag) (b : Nat) : t.extend b < 2 ^ 64 := by
  unfold Tag.extend
  split_ifs
  · exact intBits_lt 64 _
  · refine Nat.lt_of_lt_of_le (Nat.mod_lt _ (Nat.two_pow_pos _)) (Nat.pow_le_pow_right (by decide) ?_)
    have := t.bits_cases; omega

theorem foldl_merge_some (f : Int → Int → Int) (l : List Int) (a : Int) :
    (l.map some).foldl (Option.merge f) (some a) = some (l.foldl f a) := by
  rw [List.foldl_map]
  exact List.foldl_hom some fun _ _ => rfl

/-- Combining with an element of the list first changes nothing. -/
theorem foldl_absorb (f : Int → Int → Int) [Std.Associative f] [Std.Commutative f] [Std.IdempotentOp f] {v : Int} (l : List Int) :
    ∀ x, v ∈ x :: l → l.foldl f (f v x) = l.foldl f x := by
  induction l with
  | nil =>
    intro x hv
    obtain rfl := List.mem_singleton.mp hv
    exact Std.IdempotentOp.idempotent v
  | cons y l ih =>
    intro x hv
    rw [List.foldl_cons, List.foldl_cons, Std.Associative.assoc (op := f)]
    obtain rfl | rfl | hl : v = x ∨ v = y ∨ v ∈ l := by simpa using hv
    · rw [← Std.Associative.assoc (op := f), Std.IdempotentOp.idempotent (op := f)]
    · rw [Std.Commutative.comm (op := f) x v, ← Std.Associative.assoc (op := f), Std.IdempotentOp.idempotent (op := f)]
    · exact ih _ (List.mem_cons_of_mem _ hl)

/-- From no value, a minimum or maximum is that of the list, begun at any element of it. -/
theorem foldl_merge_none (f : Int → Int → Int) [Std.Associative f] [Std.Commutative f] [Std.IdempotentOp f] {v : Int} {l : List Int} (hv : v ∈ l) :
    (l.map some).foldl (Option.merge f) none = some (l.foldl f v) := by
  cases l with
  | nil => exact absurd hv (List.not_mem_nil)
  | cons x l =>
    rw [List.map_cons, List.foldl_cons, Option.merge_none_left, foldl_merge_some, List.foldl_cons, foldl_absorb f l x hv]

theorem foldl_add (l : List Int) (a : Int) : l.foldl (· + ·) a = a + l.sum := by
  induction l generalizing a with
  | nil => simp
  | cons x l ih => rw [List.foldl_cons, ih, List.sum_cons, add_assoc]

/-- A bitwise fold of patterns of 64 bits, as numbers. -/
theorem toNat_foldl_pattern {f : BitVec 64 → BitVec 64 → BitVec 64} {F : Nat → Nat → Nat} (hf : ∀ x y, (f x y).toNat = F x.toNat y.toNat)
    (l : List Nat) (hl : ∀ p ∈ l, p < 2 ^ 64) (x : BitVec 64) : ((l.map (BitVec.ofNat 64)).foldl f x).toNat = l.foldl F x.toNat := by
  induction l generalizing x with
  | nil => rfl
  | cons p l ih =>
    rw [List.map_cons, List.foldl_cons, ih (fun q hq => hl q (List.mem_cons_of_mem p hq)), hf, BitVec.toNat_ofNat,
      Nat.mod_eq_of_lt (hl p List.mem_cons_self), List.foldl_cons]

section
variable (t : Thread) (r : Rule) (n : Nat)

theorem activeVals_int : activeVals t r r.ta.toInt n = activeInts t r n := rfl

theorem activeVals_some : activeVals t r (fun b => some (r.ta.toInt b)) n = (activeInts t r n).map some := by
  rw [activeInts_eq, List.map_map]; rfl

theorem activeVals_pattern : activeVals t r (fun b => BitVec.ofNat 64 (r.ta.extend b)) n = (activePatterns t r n).map (BitVec.ofNat 64) := by
  rw [activePatterns_eq, List.map_map]; rfl

theorem activePatterns_lt : ∀ p ∈ activePatterns t r n, p < 2 ^ 64 := by
  intro p hp
  rw [activePatterns_eq] at hp
  obtain ⟨j, -, rfl⟩ := List.mem_map.mp hp
  exact r.ta.extend_lt _

end

section
variable {t : Thread} {r : Rule} {sp : RuleSpec} {op : RedOp} (hk : sp.kind = .reduce op) {k : BitVec 5} (hb : sp.b = .s k)
  (hsp : r.sp = none) (htd : r.td.isFloat = false) (hta : r.ta.isFloat = false) {o : Opd} (hot : o.tag.isFloat = false) (hvle : 0 < r.vle)
  (hcap : 0 < t.vlmax r.td.wlog) (htb : r.tb = o.tag) (hbits : o.bits = r.opb.toNat % 2 ^ r.tb.bits) (h : ∀ j, j < r.vle → Known t r j)
include hk hb hsp hta hot hvle hcap htb hbits h

/-- A reduction to one segment, from a scalar start, combines the start with what takes part (R147). -/
theorem evalAt_reduce {α : Type} {f : α → α → α} {e : α} [Std.Associative f] [Std.LawfulIdentity f e] {φ : α → Run} {g : Nat → α}
    (hstep : ∀ a b, redStep op none r.rm (φ a) (φ b) = φ (f a b)) (hident : redIdent op none = φ e)
    (hg : ∀ b, redOf op none r.rm { bits := b, tag := r.ta } = φ (g b)) {a : α} (ha : redOf op none r.rm o = φ a) :
    evalAt t r sp 0 = .val (redOut op none r.rm r.td (φ ((activeVals t r g r.vle).foldl f a))) := by
  have hread : readB t r sp 0 = .opd o := by
    simp only [readB, hb]
    rw [← hbits, htb]
  have hc : redCap t r sp = t.vlmax r.td.wlog := by simp only [redCap, hb]
  have he : evalAt t r sp 0 = evalReduce t r sp op 0 := by simp only [evalAt, hk]
  rw [he, evalReduce_eq hstep hident hg hsp hta (by rwa [hc]) hvle h (by rw [htb, hot]) hread ha]

section
include htd

theorem evalAt_reduce_sum (hop : op = .sumO ∨ op = .sumT) :
    evalAt t r sp 0 = .val (r.td.clamp (o.int + (activeInts t r r.vle).sum)) := by
  have hof : ∀ q : Opd, redOf op none r.rm q = .ofInt q.int := by obtain rfl | rfl := hop <;> exact fun _ => rfl
  rw [evalAt_reduce hk hb hsp hta hot hvle hcap htb hbits h (redStep_sum hop r.rm) (by obtain rfl | rfl := hop <;> rfl) (g := r.ta.toInt)
    (fun b => hof _) (hof o), redOut_ofInt htd, activeVals_int, foldl_add]

theorem evalAt_reduce_min (hop : op = .min) : evalAt t r sp 0 = .val (r.td.clamp ((activeInts t r r.vle).foldl min o.int)) := by
  subst hop
  rw [evalAt_reduce hk hb hsp hta hot hvle hcap htb hbits h (redStep_min r.rm) rfl (g := fun b => some (r.ta.toInt b)) (fun b => rfl)
    (a := some o.int) rfl, activeVals_some, foldl_merge_some, Run.ofOption, redOut_ofInt htd]

theorem evalAt_reduce_max (hop : op = .max) : evalAt t r sp 0 = .val (r.td.clamp ((activeInts t r r.vle).foldl max o.int)) := by
  subst hop
  rw [evalAt_reduce hk hb hsp hta hot hvle hcap htb hbits h (redStep_max r.rm) rfl (g := fun b => some (r.ta.toInt b)) (fun b => rfl)
    (a := some o.int) rfl, activeVals_some, foldl_merge_some, Run.ofOption, redOut_ofInt htd]

end

/-- A bitwise reduction works on patterns of 64 bits, and cuts its result to vd's width (R113, R146). -/
theorem evalAt_reduce_bits {f : BitVec 64 → BitVec 64 → BitVec 64} {e : BitVec 64} [Std.Associative f] [Std.LawfulIdentity f e]
    {F : Nat → Nat → Nat} (hF : ∀ x y, (f x y).toNat = F x.toNat y.toNat)
    (hstep : ∀ a b, redStep op none r.rm (.ofPattern a) (.ofPattern b) = .ofPattern (f a b)) (hident : redIdent op none = .ofPattern e)
    (hof : ∀ q : Opd, redOf op none r.rm q = { v := .pat (q.tag.extend q.bits), fl := 0 }) :
    evalAt t r sp 0 = .val (.plain ((activePatterns t r r.vle).foldl F (o.tag.extend o.bits) % 2 ^ r.td.bits)) := by
  have hpat (q : Opd) : redOf op none r.rm q = .ofPattern (BitVec.ofNat 64 (q.tag.extend q.bits)) := by
    rw [hof, Run.ofPattern, BitVec.toNat_ofNat, Nat.mod_eq_of_lt (q.tag.extend_lt _)]
  rw [evalAt_reduce hk hb hsp hta hot hvle hcap htb hbits h hstep hident (g := fun b => BitVec.ofNat 64 (r.ta.extend b)) (fun b => hpat _) (hpat o),
    activeVals_pattern]
  simp only [redOut, Run.ofPattern, toNat_foldl_pattern hF _ (activePatterns_lt t r r.vle), BitVec.toNat_ofNat,
    Nat.mod_eq_of_lt (o.tag.extend_lt o.bits)]

end

section
variable {t : Thread} {r : Rule} {sp : RuleSpec} {i : Nat} (hsp : r.sp = none) (htd : r.td.isFloat = false) (hta : r.ta.isFloat = false)
  (hi : Active t r i) (h : ∀ j, j ≤ i → Known t r j)
include hsp htd hta hi h

theorem evalAt_scan_sum (hk : sp.kind = .scan .sumO) : evalAt t r sp i = .val (r.td.clamp (activeInts t r (i + 1)).sum) := by
  simp only [evalAt, hk]
  rw [evalScan_eq (redStep_sum (.inl rfl) r.rm) (e := 0) rfl (g := r.ta.toInt) (fun b => rfl) hsp hta hi h, redOut_ofInt htd, activeVals_int, foldl_add,
    zero_add]

theorem evalAt_scan_min (hk : sp.kind = .scan .min) {v : Int} (hv : (activeInts t r (i + 1)).getLast? = some v) :
    evalAt t r sp i = .val (r.td.clamp ((activeInts t r (i + 1)).foldl min v)) := by
  simp only [evalAt, hk]
  rw [evalScan_eq (redStep_min r.rm) (e := none) rfl (g := fun b => some (r.ta.toInt b)) (fun b => rfl) hsp hta hi h, activeVals_some,
    foldl_merge_none min (List.mem_of_getLast? hv), Run.ofOption, redOut_ofInt htd]

theorem evalAt_scan_max (hk : sp.kind = .scan .max) {v : Int} (hv : (activeInts t r (i + 1)).getLast? = some v) :
    evalAt t r sp i = .val (r.td.clamp ((activeInts t r (i + 1)).foldl max v)) := by
  simp only [evalAt, hk]
  rw [evalScan_eq (redStep_max r.rm) (e := none) rfl (g := fun b => some (r.ta.toInt b)) (fun b => rfl) hsp hta hi h, activeVals_some,
    foldl_merge_none max (List.mem_of_getLast? hv), Run.ofOption, redOut_ofInt htd]

end

end Sys2Proof.Machine
end

section
/-! O45. What a vector function computes at an element. -/

namespace Sys2Proof.Machine

/-- Settles O45: clause by clause, by the lemmas above. -/
theorem elementValues : Obligations.ElementValues := by
  refine ⟨?integers, ?patterns, ?floats, ?singles, ?conversions, ?classes, ?compares, ?wide, ?governed, ?masks, ?permutations, ?reductions, ?estimate⟩
  case integers =>
    intro td ta tb rm x y z hd ha hb
    have hclamp {v : Int} {e : Res} (h : e = td.clamp v) : Clamped td v e := h ▸ td.clamped_clamp v
    refine ⟨hclamp (arith2_int hd ha hb ..), hclamp (arith2_int hd ha hb ..), hclamp (arith2_int hd ha hb ..), hclamp (arith2_int hd ha hb ..),
      hclamp (pick2_int hd ha hb ..), hclamp (pick2_int hd ha hb ..), hclamp (arith1_int hd ha ..), hclamp (arith1_int hd ha ..), ?_,
      fun hy => hclamp (fVrem_int hd ha hb hy ..), fun hy => ?_, ?_, ?_, ?_, fun hy => hclamp (fVdiv_int hd ha hb hy ..), fun hy => ?_,
      hclamp (fma3_int hd ha hb ..), hclamp (fma3_int hd ha hb ..), hclamp ?_, hclamp (fma3_int hd ha hb ..), hclamp (fVfclass_int hd ha ..), ?_⟩
    · exact hclamp (fVcvt_int hd ha ..)
    · rw [fVrem_int_zero hd ha hb hy]
      exact ⟨(td.clamped_clamp _).1, rfl, rfl⟩
    · rw [fVaddw, wrap2_int hd ha hb]; exact wrapped_plain _ _
    · rw [fVsubw, wrap2_int hd ha hb]; exact wrapped_plain _ _
    · rw [fVmulh_int hd ha hb]; exact wrapped_plain _ _
    · rw [fVdiv_int_zero hd ha hb hy]
      exact ⟨td.toInt_end _, rfl, rfl⟩
    · rw [fVfrmsub, fma3_int hd ha hb]
      congr 1
      simp only [if_true, Bool.false_eq_true, if_false]
      ring
    · simp only [fVnshr_int hd ha]
      refine ⟨?_, ?_, ?_, ?_, ?_⟩ <;> rintro rfl
      · exact ⟨_, td.clamped_clamp _, roundInt_nearest _ _⟩
      · rw [roundInt_trunc]; exact td.clamped_clamp _
      · rw [roundInt_floor]; exact td.clamped_clamp _
      · rw [roundInt_ceil]; exact td.clamped_clamp _
      · exact ⟨_, td.clamped_clamp _, roundInt_odd _ _⟩
  case patterns =>
    intro td ta tb rm x y
    exact ⟨bits2_bitwise td ta tb rm x y _ (· && ·) Nat.testBit_and, bits2_bitwise td ta tb rm x y _ (· || ·) Nat.testBit_or,
      bits2_bitwise td ta tb rm x y _ (· ^^ ·) Nat.testBit_xor, fVsll_bitwise .., fVsrl_bitwise .., fVsra_bitwise ..⟩
  case floats =>
    intro td ta tb q rm x y z hq
    refine ⟨fun hn => ?_, fun hm => ?_, ?_⟩
    · simp only [List.forall_mem_cons, List.not_mem_nil, false_imp_iff, implies_true, and_true]
      refine ⟨arith2_nan hq ta tb rm x y _ nanOp_add hn, arith2_nan hq ta tb rm x y _ nanOp_sub hn, arith2_nan hq ta tb rm x y _ nanOp_rsub hn,
        arith2_nan hq ta tb rm x y _ nanOp_mul hn, ?_⟩
      rw [fVdiv_nan ta tb rm x y hn]
      exact arith2_nan hq ta tb rm x y _ nanOp_div hn
    · have hfma (negP negC : Bool) := fma3_nan hq ta tb rm x y negP negC z hm
      simp only [List.forall_mem_cons, List.not_mem_nil, false_imp_iff, implies_true, and_true, fVfmadd, fVfmsub, fVfrmsub, fVfnmadd, hfma]
      decide
    · rintro - rfl rfl
      exact ⟨sgnj_bitwise hq _ rm x y, sgnj_bitwise hq _ rm x y, sgnj_bitwise hq _ rm x y⟩
  case singles =>
    intro T t rm x y z h
    refine ⟨Single.arith2_eq h .., Single.arith2_eq h .., Single.arith2_eq h .., Single.fVdiv_eq h .., Single.fma3_eq h .., Single.fma3_eq h ..,
      Single.fma3_eq h .., Single.fma3_eq h .., fun hn hx => ⟨Single.fVneg_eq h rm hn hx _, Single.fVabs_eq h rm hn hx _⟩, ?_, ?_, ?_, ?_, ?_⟩
    · intro n e ha
      simp only [fVfsqrt, fVfrec, fVfrsqrt, Single.floatUnary_eq h, ha, sqrtExact, recExact, rsqrtExact, if_true, Single.round_inf h, and_self, and_true]
      rfl
    · rintro (ha | ⟨m, e, ha⟩) <;>
        simp only [fVfsqrt, fVfrsqrt, Single.floatUnary_eq h, ha, sqrtExact, rsqrtExact, if_true, Nat.succ_ne_zero, if_false]
      all_goals exact ⟨rfl, rfl⟩
    · intro n ha
      simp only [fVfrec, Single.floatUnary_eq h, ha, recExact]
      rfl
    · intro ha
      simp only [fVfsqrt, fVfrsqrt, Single.floatUnary_eq h, ha, sqrtExact, rsqrtExact, Bool.false_eq_true, if_false, Single.round_inf h]
      exact ⟨rfl, rfl⟩
    · intro sig ha
      simp only [List.forall_mem_cons, List.not_mem_nil, false_imp_iff, implies_true, and_true, fVfsqrt, fVfrec, fVfrsqrt, Single.floatUnary_eq h, ha,
        sqrtExact, recExact, rsqrtExact]
      exact ⟨rfl, rfl, rfl⟩
  case conversions =>
    intro td ta q rm x ob hd hq
    refine ⟨fun sig h => fVcvt_nan hd hq rm x ob h, fun n h => ?_⟩
    rw [fVcvt_inf hd hq rm x ob h]
    exact ⟨rfl, rfl, td.toInt_bound n⟩
  case classes =>
    intro td rm x ob hd
    rw [fVfclass_f32 hd, classBit_f32]
    exact td.clamped_clamp _
  case compares =>
    intro ta tb x y
    refine ⟨fun ha hb => ?_, fun hn => ?_, fun hn => ?_⟩
    · simp only [fVcmpeq, fVcmpne, fVcmplt, fVcmple, fVcmpgt, fVcmpge, fVcmpun, compare2_int ha hb, FVal.lt_int, CmpRes.mk.injEq, and_true, true_and]
      refine ⟨?_, ?_, ?_, ?_⟩
      all_goals
        rw [Bool.eq_iff_iff]
        simp only [Bool.and_eq_true, Bool.or_eq_true, Bool.not_eq_true', decide_eq_true_eq, decide_eq_false_iff_not]
        omega
    · have hc (u nv : Bool) (f : FVal → FVal → Bool) := compare2_nan (oa := { bits := x, tag := ta }) (ob := { bits := y, tag := tb }) hn u nv f
      simp only [List.forall_mem_cons, List.not_mem_nil, false_imp_iff, implies_true, and_true, fVcmpeq, fVcmpne, fVcmplt, fVcmple, fVcmpgt, fVcmpge,
        fVcmpun, hc, Bool.or_true, Bool.or_false, if_true]
      trivial
    · have hc (u nv : Bool) (f : FVal → FVal → Bool) := compare2_number (oa := { bits := x, tag := ta }) (ob := { bits := y, tag := tb }) hn u nv f
      have hc' (u nv : Bool) (f : FVal → FVal → Bool) := compare2_number (oa := { bits := y, tag := tb }) (ob := { bits := x, tag := ta })
        (by rw [Bool.or_comm]; exact hn) u nv f
      simp [fVcmpeq, fVcmpne, fVcmplt, fVcmple, fVcmpgt, fVcmpge, fVcmpun, hc, hc']
  case wide =>
    intro d a b m x
    exact ⟨⟨_, rfl, rfl, rfl⟩, ⟨_, rfl, rfl, rfl⟩, ⟨_, rfl, rfl, rfl⟩, ⟨_, rfl, rfl, rfl⟩, ⟨_, rfl, rfl, rfl⟩⟩
  case governed =>
    intro t r sp f g h q rm i a b c
    refine ⟨fun hk => ?_, ?_, fun ha => ?_⟩
    · obtain ⟨act, hact, he⟩ := evalAt_ew (t := t) (r := r) (i := i) hk
      rw [he]
      refine ⟨fun hi => governed_of_le hi _, fun hi => ⟨fun hg => governed_off hi hg _, fun hg => governed_void hi hg _,
        fun hg => governed_wait hi hg _, fun hg ha hb => ?_, fun hg ha hb => ?_, fun hg ha hb => ?_⟩⟩
      · rw [Active.governed ⟨hi, hg⟩, ha, combine_void hb]
      · rw [Active.governed ⟨hi, hg⟩, ha, hb, combine_bad]
      · rw [Active.governed ⟨hi, hg⟩, ha, hb, combine_two, hact]
    · exact fun hi ha hb => ⟨fun hk hc => evalAt_fma hk hi ha hb hc, fun hk => evalAt_cmp hk hi ha hb⟩
    · exact ⟨fun hi => readA_pair_first ha hi, fun p hl hh hp => readA_pair_second ha hl hh hp⟩
  case masks =>
    intro t r d a b m i hi
    refine ⟨fun u v hx hy => ?_, fun u hx => ?_, fun hxy => ?_, fun hidle => ?_, fun f hf htakes hbelow hafter => ?_, fun htd => ⟨fun hb => ?_, ?_⟩⟩
    · exact ⟨of_ruleSpec rfl (evalAt_mask2 hi rfl rfl hx hy), of_ruleSpec rfl (evalAt_mask2 hi rfl rfl hx hy),
        of_ruleSpec rfl (evalAt_mask2 hi rfl rfl hx hy), of_ruleSpec rfl (evalAt_mask2 (f := fun x y => x && !y) hi rfl rfl hx hy)⟩
    · exact of_ruleSpec rfl (evalAt_mask2_one (f := fun x _ => !x) hi rfl rfl hx)
    · exact ⟨of_ruleSpec rfl (evalAt_mask2_void hi rfl rfl hxy), of_ruleSpec rfl (evalAt_mask2_void hi rfl rfl hxy)⟩
    · have hnone := firstSet_none hidle
      exact ⟨of_ruleSpec rfl (evalAt_first_none (row := (true, _)) hi rfl hnone), of_ruleSpec rfl (evalAt_first_none (row := (true, _)) hi rfl hnone),
        of_ruleSpec rfl (evalAt_first_none (row := (false, _)) hi rfl hnone)⟩
    · have hat := firstSet_at htakes.1 htakes.2 hbelow hf hafter
      refine ⟨of_ruleSpec rfl ?_, of_ruleSpec rfl ?_, of_ruleSpec rfl ?_⟩ <;> rw [evalAt_first_at hi rfl hat] <;> simp
    · refine ⟨_, of_ruleSpec rfl ?_, r.td.clamped_clamp _⟩
      simp only [evalAt, hi.governed, countSet_eq i hb, Val.int_toTag htd]
    · refine ⟨_, of_ruleSpec rfl ?_, r.td.clamped_clamp _⟩
      simp only [evalAt, hi.governed, Val.int_toTag htd]
  case permutations =>
    intro t r d a b m i hw
    refine ⟨fun hi => ⟨fun x hx hb => ⟨fun hj => ?_, fun hj => ?_⟩, fun hs hc => ?_, fun hs => ?_, fun hc => ?_, fun hc => ?_,
        fun h0 => ?_, fun h0 hc => ?_, fun hl => ?_, fun hl hc => ?_, ?_, fun hs => ?_, fun hs => ?_⟩,
      fun hi hb => ⟨fun j hj => ?_, fun hl => ?_⟩,
      fun hi hb hall => ⟨fun j x hj ha hl hx => ?_, fun ha => ?_⟩⟩
    · exact moved_source hw rfl (evalAt_gather hi rfl rfl hx hb hj)
    · exact of_ruleSpec rfl ((evalAt_gather_beyond hi rfl rfl hx hb hj).trans (beyond_same hw _))
    · exact moved_source hw rfl (evalAt_slideup hi rfl hs hc)
    · exact of_ruleSpec rfl (evalAt_slideup_below hi rfl hw hs)
    · exact moved_source hw rfl (evalAt_slidedown hi rfl hc)
    · exact of_ruleSpec rfl ((evalAt_slidedown_beyond hi rfl hc).trans (beyond_same hw _))
    · exact of_ruleSpec rfl ((evalAt_slide1up_first hi rfl h0).trans (moved_scalar hw _))
    · exact moved_source hw rfl (evalAt_slide1up hi rfl h0 hc)
    · exact of_ruleSpec rfl ((evalAt_slide1down_last hi rfl hl).trans (moved_scalar hw _))
    · exact moved_source hw rfl (evalAt_slide1down hi rfl hl hc)
    · exact of_ruleSpec rfl (evalAt_splat hi rfl)
    · exact moved_source hw rfl (evalAt_ext hi rfl hs)
    · exact of_ruleSpec rfl ((evalAt_ext_beyond hi rfl hs).trans (beyond_same hw _))
    · exact moved_source hw rfl (evalAt_compress rfl hi hb hj)
    · exact of_ruleSpec rfl (evalAt_compress_past rfl hi hb hl)
    · obtain ⟨vs, he⟩ := evalAt_push hi hb hall hw hj ha hl hx
      exact ⟨vs, of_ruleSpec rfl (he _ rfl)⟩
    · obtain ⟨vs, he⟩ := evalAt_push_none hi hb hall ha
      exact ⟨vs, of_ruleSpec rfl (he _ rfl)⟩
  case reductions =>
    intro t r d a b m i hsp htd hta
    refine ⟨fun o hot hi hvle hcap htb hbits h => ?_, fun hi h => ?_⟩
    · subst hi
      exact ⟨of_ruleSpec rfl ⟨_, evalAt_reduce_sum rfl rfl hsp htd hta hot hvle hcap htb hbits h (.inl rfl), r.td.clamped_clamp _⟩,
        of_ruleSpec rfl ⟨_, evalAt_reduce_sum rfl rfl hsp htd hta hot hvle hcap htb hbits h (.inr rfl), r.td.clamped_clamp _⟩,
        of_ruleSpec rfl ⟨_, evalAt_reduce_min rfl rfl hsp htd hta hot hvle hcap htb hbits h rfl, r.td.clamped_clamp _⟩,
        of_ruleSpec rfl ⟨_, evalAt_reduce_max rfl rfl hsp htd hta hot hvle hcap htb hbits h rfl, r.td.clamped_clamp _⟩,
        of_ruleSpec rfl ⟨_, evalAt_reduce_bits rfl rfl hsp hta hot hvle hcap htb hbits h BitVec.toNat_and (redStep_and r.rm) rfl fun _ => rfl, rfl⟩,
        of_ruleSpec rfl ⟨_, evalAt_reduce_bits rfl rfl hsp hta hot hvle hcap htb hbits h BitVec.toNat_or (redStep_or r.rm) rfl fun _ => rfl, rfl⟩,
        of_ruleSpec rfl ⟨_, evalAt_reduce_bits rfl rfl hsp hta hot hvle hcap htb hbits h BitVec.toNat_xor (redStep_xor r.rm) rfl fun _ => rfl, rfl⟩⟩
    · refine ⟨of_ruleSpec rfl ⟨_, evalAt_scan_sum hsp htd hta hi h rfl, r.td.clamped_clamp _⟩,
        fun v hv => ⟨of_ruleSpec rfl ⟨_, ?_, r.td.clamped_clamp _⟩, of_ruleSpec rfl ⟨_, ?_, r.td.clamped_clamp _⟩⟩⟩
      · exact evalAt_scan_min hsp htd hta hi h rfl hv
      · exact evalAt_scan_max hsp htd hta hi h rfl hv
  case estimate => decide +kernel

end Sys2Proof.Machine
end

section
/-! O54, FIRST PART. Courier commands: their slots, entering performing, and the order of their elements (R208, R293, R295, R296). -/

namespace Sys2Proof.Machine

/-! ## Commands by number -/

theorem State.mem_of_cmdOf {s : State} {seq : Nat} {c : Cmd} (h : s.cmdOf seq = some c) : c ∈ s.cmds := List.mem_of_find?_eq_some h

theorem State.seq_of_cmdOf {s : State} {seq : Nat} {c : Cmd} (h : s.cmdOf seq = some c) : c.seq = seq := by
  simpa using List.find?_some h

/-- A command stands in its slot with its new record. -/
theorem State.mem_setCmd {s : State} {c d : Cmd} (h : c ∈ s.cmds) (hd : d.seq = c.seq) : d ∈ (s.setCmd d).cmds :=
  List.mem_map.mpr ⟨c, h, by rw [if_pos (by rw [hd]; exact beq_self_eq_true c.seq)]⟩

/-- What leaves no command of a number leaves none of its new record. -/
theorem State.filter_setCmd (s : State) (d : Cmd) : (s.setCmd d).cmds.filter (fun x => x.seq != d.seq) = s.cmds.filter (fun x => x.seq != d.seq) := by
  rw [State.setCmd, List.filter_map]
  have hp : ((fun x : Cmd => x.seq != d.seq) ∘ fun x => if x.seq == d.seq then d else x) = fun x => x.seq != d.seq := by
    funext x
    by_cases h : x.seq = d.seq <;> simp [h]
  rw [hp]
  refine (List.map_congr_left fun x hx => ?_).trans (List.map_id _)
  exact if_neg (by simpa using (List.mem_filter.mp hx).2)

/-! ## Entering performing (R293, R295, R319, R320) -/

section
variable {s : State} {seq : Nat} {c : Cmd} (hc : s.cmdOf seq = some c) (hst : c.st = .posted) (hk : ∀ m, c.kind ≠ .csbar m)
include hc hst hk

/-- A posted command enters performing unless something earlier, its weight table or every element's read holds it back. -/
theorem State.courierBeginPerforming_posted : s.courierBeginPerforming seq =
    if s.cmds.any (fun d => d.seq < c.seq && (d.onStream c.stream || d.barsStream c.stream)) || s.tableHeld c ||
        (0 < c.kind.count && (List.range c.kind.count).all (fun e => s.readHeld c e)) then none
    else some (s.setCmd { c with st := .performing }) := by
  simp only [State.courierBeginPerforming, hc, hst]


theorem State.courierBeginPerforming_free (hearlier : ∀ d ∈ s.cmds, d.seq < c.seq → d.onStream c.stream = false ∧ d.barsStream c.stream = false)
    (htable : s.tableHeld c = false) (hread : c.kind.count = 0 ∨ ∃ e, e < c.kind.count ∧ s.readHeld c e = false) :
    s.courierBeginPerforming seq = some (s.setCmd { c with st := .performing }) := by
  rw [State.courierBeginPerforming_posted hc hst hk, if_neg]
  have hany : s.cmds.any (fun d => d.seq < c.seq && (d.onStream c.stream || d.barsStream c.stream)) = false := by
    rw [List.any_eq_false]
    intro d hd
    by_cases hlt : d.seq < c.seq
    · simp [hearlier d hd hlt]
    · simp [hlt]
  have hall : (0 < c.kind.count && (List.range c.kind.count).all (fun e => s.readHeld c e)) = false := by
    obtain h0 | ⟨e, he, hr⟩ := hread
    · simp [h0]
    · rw [Bool.and_eq_false_iff]
      exact .inr (List.all_eq_false.mpr ⟨e, List.mem_range.mpr he, by simp [hr]⟩)
  rw [hany, htable, hall]
  exact Bool.false_ne_true

theorem State.courierBeginPerforming_behind (h : ∃ d ∈ s.cmds, d.seq < c.seq ∧ d.onStream c.stream = true) :
    s.courierBeginPerforming seq = none := by
  obtain ⟨d, hd, hlt, hon⟩ := h
  have hany : s.cmds.any (fun d => d.seq < c.seq && (d.onStream c.stream || d.barsStream c.stream)) = true :=
    List.any_eq_true.mpr ⟨d, hd, by simp [hlt, hon]⟩
  rw [State.courierBeginPerforming_posted hc hst hk, hany]
  rfl

end

/-! ## Elements in order (R208, R296) -/

/-- The first element of those below f that still stand, when it is e. -/
theorem filter_range_first {p : Nat → Bool} {e f : Nat} (hlow : ∀ k, k < e → p k = false) (he : p e = true) (hf : e < f) :
    ∃ rest, (List.range f).filter p = e :: rest ∧ ((∀ k, e < k → k < f → p k = false) → rest = []) := by
  induction f with
  | zero => omega
  | succ f ih =>
    rw [List.range_succ, List.filter_append]
    by_cases hef : e = f
    · subst hef
      have hnil : (List.range e).filter p = [] := List.filter_eq_nil_iff.mpr fun k hk => by simp [hlow k (List.mem_range.mp hk)]
      exact ⟨[], by simp [hnil, he], fun _ => rfl⟩
    · obtain ⟨rest, hr, hnil⟩ := ih (by omega)
      refine ⟨rest ++ [f].filter p, by rw [hr]; rfl, fun hk => ?_⟩
      rw [hnil fun k h1 h2 => hk k h1 (by omega)]
      simp [hk f (by omega) (by omega)]

/-- The reads of an element do not look at the elements that have passed. -/
theorem State.cmdReads_ready (s : State) (c : Cmd) (l : List ReadyElem) (e : Nat) (ps : List (Nat × Nat)) :
    s.cmdReads { c with ready := l } e ps = s.cmdReads c e ps := rfl

theorem State.mgPrep_ready (s : State) (c : Cmd) (l : List ReadyElem) (e : Nat) (da sa : Word) (nx ny nz op bnd sf df tbl : Nat) :
    s.mgPrep { c with ready := l } e da sa nx ny nz op bnd sf df tbl = s.mgPrep c e da sa nx ny nz op bnd sf df tbl := rfl

theorem State.mmavPrep_ready (s : State) (c : Cmd) (l : List ReadyElem) (e : Nat) (x b y : Word) (n k : Nat) :
    s.mmavPrep { c with ready := l } e x b y n k = s.mmavPrep c e x b y n k := rfl

theorem State.cmdRead_ready (s : State) (c : Cmd) (l : List ReadyElem) (e va n : Nat) :
    s.cmdRead { c with ready := l } e va n = s.cmdRead c e va n := rfl

theorem Prep.into_ready (p : Prep) (c : Cmd) (l : List ReadyElem) (va n : Nat) : p.into { c with ready := l } va n = p.into c va n := rfl

theorem State.readHeld_ready (s : State) (c : Cmd) (l : List ReadyElem) (e : Nat) : s.readHeld { c with ready := l } e = s.readHeld c e := rfl

theorem State.rowIndex_ready (s : State) (c : Cmd) (l : List ReadyElem) (reg : Fin 128) (kept : Option VReg) (i : Nat) :
    s.rowIndex { c with ready := l } reg kept i = s.rowIndex c reg kept i := rfl

/-- The checks of an element do not look at the elements that have passed. -/
theorem State.prep_ready (s : State) (c : Cmd) (l : List ReadyElem) (f : Nat) : s.prep { c with ready := l } f = s.prep c f := by
  simp only [State.prep, State.mgPrep_ready, State.mmavPrep_ready, State.cmdRead_ready, Prep.into_ready, State.readHeld_ready,
    State.rowIndex_ready]
  rfl

section
variable {s : State} {seq e : Nat} {c : Cmd}

/-- No element below e still stands. -/
theorem filter_range_below (hlow : ∀ k, k < e → k ∈ c.xfer) : (List.range e).filter (fun k => !c.xfer.contains k) = [] :=
  List.filter_eq_nil_iff.mpr fun k hk => by simp [hlow k (List.mem_range.mp hk)]

theorem State.posterLives_setCmd (s : State) (c d : Cmd) : (s.setCmd d).posterLives c = s.posterLives c := rfl

theorem State.park_of_posterLives (h : s.posterLives c = true) (cause : BitVec 8) (e a : Nat) (k : Bool) :
    s.park c cause e a k = s.setCmd { c with st := .parked cause e (BitVec.ofNat 64 a) false k, ready := [] } := by
  simp only [State.park, State.posterLives_setCmd, h, if_true]

variable (hc : s.cmdOf seq = some c) (hst : c.st = .performing) (hr : c.ready = []) (hlow : ∀ k, k < e → k ∈ c.xfer)
include hc hst hr hlow

section
variable (hx : e ∉ c.xfer)
include hx

/-- A higher element finds the lowest that still stands in its way, whose checks do not pass. -/
theorem State.courierElementTransfer_blocked {f : Nat} (hef : e ≤ f) (hf : f < c.kind.count) (hfx : f ∉ c.xfer)
    (hp : (∃ cause a, s.prep c e = .fault cause a) ∨ s.prep c e = .wait) : s.courierElementTransfer seq f =
      match s.prep c e with
      | .fault cause a => some (s.park c cause e a false)
      | _ => none := by
  have hall : (List.range e).all c.xfer.contains = true := List.all_eq_true.mpr fun k hk => by simpa using hlow k (List.mem_range.mp hk)
  have hready (k : Nat) : c.readyAt k = none := by rw [Cmd.readyAt, hr]; rfl
  have hgo : (decide (c.st ≠ .performing) || decide (c.kind.count ≤ f) || c.xfer.contains f) = false := by simp [hst, hf, hfx]
  simp only [State.courierElementTransfer, hc, hgo, Bool.false_eq_true, if_false]
  obtain rfl | hlt : e = f ∨ e < f := by omega
  · simp only [filter_range_below hlow, State.lowerPrep, hready]
    obtain ⟨cause, a, hp⟩ | hp := hp <;> simp only [hp, hall, if_true]
  · obtain ⟨rest, hrest, -⟩ := filter_range_first (p := fun k => !c.xfer.contains k) (fun k hk => by simp [hlow k hk]) (by simp [hx]) hlt
    obtain ⟨cause, a, hp⟩ | hp := hp <;> simp only [hrest, State.lowerPrep, hready, hp, hall, if_true]

/-- While a lower element that has passed its checks stands, one that fails does nothing. -/
theorem State.courierElementTransfer_unready {f : Nat} (hef : e < f) (hf : f < c.kind.count) (hfx : f ∉ c.xfer)
    (hbetween : ∀ k, e < k → k < f → k ∈ c.xfer) {v : State} {bytes : List Byte} {dst : List Loc} (hp : s.prep c e = .ok v bytes dst)
    {cause : BitVec 8} {a : Nat} (hpf : s.prep c f = .fault cause a) {cause' : BitVec 8} {a' : Nat}
    (hpv : v.prep { c with ready := [{ elem := e, va := s.destVa c e, bytes := bytes, locs := dst }] } f = .fault cause' a') :
    s.courierElementTransfer seq f = none := by
  have hall : (List.range f).all c.xfer.contains = false := List.all_eq_false.mpr ⟨e, List.mem_range.mpr hef, by simp [hx]⟩
  have hready (k : Nat) : c.readyAt k = none := by rw [Cmd.readyAt, hr]; rfl
  have hgo : (decide (c.st ≠ .performing) || decide (c.kind.count ≤ f) || c.xfer.contains f) = false := by simp [hst, hf, hfx]
  obtain ⟨rest, hrest, hnil⟩ := filter_range_first (p := fun k => !c.xfer.contains k) (fun k hk => by simp [hlow k hk]) (by simp [hx]) hef
  rw [hnil fun k h1 h2 => by simp [hbetween k h1 h2]] at hrest
  rw [State.prep_ready] at hpv
  simp only [State.courierElementTransfer, hc, hgo, Bool.false_eq_true, if_false, hrest, State.lowerPrep, hready, hp, hr, List.nil_append,
    State.prep_ready, hpv, hpf, hall, if_false]

end

/-- The lowest element that stands is transferred once it has passed its checks and its rows are free. -/
theorem State.courierElementTransfer_next (he : e < c.kind.count) (hx : e ∉ c.xfer) {v : State} {bytes : List Byte} {dst : List Loc}
    (hp : s.prep c e = .ok v bytes dst) (hw : v.rangeHeld c.seq [] (c.kind.elemWrites e) = false) :
    s.courierElementTransfer seq e = some (v.transfer c e bytes dst) := by
  have hready (k : Nat) : c.readyAt k = none := by rw [Cmd.readyAt, hr]; rfl
  have hgo : (decide (c.st ≠ .performing) || decide (c.kind.count ≤ e) || c.xfer.contains e) = false := by simp [hst, he, hx]
  have hbelow : dst.any ([] : List Loc).contains = false := List.any_eq_false.mpr fun _ _ => by simp
  simp only [State.courierElementTransfer, hc, hgo, Bool.false_eq_true, if_false, filter_range_below hlow, State.lowerPrep, hready, hp, hbelow, hw,
    Bool.or_self]

end

end Sys2Proof.Machine
end

section
/-! O54, SECOND PART. An element of a CPY between two places of the scratchpad tiles (R294, R296, R311). -/

namespace Sys2Proof.Machine

/-! ## An element between two places of the scratchpad (R294, R296, R311) -/

theorem tilesAt_append (off n m : Nat) : tilesAt off n ++ tilesAt (off + n) m = tilesAt off (n + m) := by
  simp only [tilesAt, List.range_add, List.map_append, List.map_map, Function.comp_def, Nat.add_assoc]

theorem State.checkChunk_window (s : State) (t : Thread) (write : Bool) {off n : Nat} (h : off + n ≤ s.spTop t) :
    s.checkChunk t write (winBase + off) n = .ok s (tilesAt off n) [] := by
  have htop : s.spTop t ≤ 0x180000 := Nat.min_le_left _ _
  have h56 : ¬ 2 ^ 56 ≤ winBase + off := by simp only [winBase]; omega
  have hin : inWindow (winBase + off) = true := by
    rw [inWindow, winBase, Bool.and_eq_true]
    exact ⟨decide_eq_true (by omega), decide_eq_true (by omega)⟩
  rw [State.checkChunk, if_neg h56, if_pos hin, Nat.add_sub_cancel_left, if_neg (by omega)]
  rfl

/-- A span of the party's tiles is checked without a step of its own. -/
theorem State.checkSpan_window (s : State) (t : Thread) (write : Bool) (fuel : Nat) : ∀ off n, off + n ≤ s.spTop t →
    (n = 0 ∨ n + off % 2 ^ 16 ≤ fuel * 2 ^ 16) → s.checkSpan t write fuel (winBase + off) n = .ok s (tilesAt off n) [] := by
  have htop : s.spTop t ≤ 0x180000 := Nat.min_le_left _ _
  induction fuel with
  | zero =>
    intro off n _ hf
    obtain rfl : n = 0 := by omega
    rfl
  | succ fuel ih =>
    intro off n h hf
    rw [State.checkSpan]
    split
    · next h0 => rw [h0]; rfl
    · have hmod : (winBase + off) % 2 ^ 64 = winBase + off := Nat.mod_eq_of_lt (by simp only [winBase]; omega)
      have h16 : (winBase + off) % 2 ^ 16 = off % 2 ^ 16 := by simp only [winBase]; omega
      simp only [hmod, h16]
      obtain ⟨k, hk, hkn, hrest⟩ : ∃ k, min n (2 ^ 16 - off % 2 ^ 16) = k ∧ k ≤ n ∧
          (n - k = 0 ∨ n - k + (off + k) % 2 ^ 16 ≤ fuel * 2 ^ 16) := ⟨_, rfl, by omega, by omega⟩
      simp only [hk, State.checkChunk_window s t write (show off + k ≤ s.spTop t by omega), Nat.add_assoc winBase off k,
        ih (off + k) (n - k) (by omega) hrest, tilesAt_append, Nat.add_sub_cancel' hkn, List.append_nil]

theorem State.span_window (s : State) (t : Thread) (write : Bool) {off n : Nat} (h : off + n ≤ s.spTop t) :
    s.span t write (winBase + off) n = .ok s (tilesAt off n) [] :=
  s.checkSpan_window t write _ off n h (.inr (by omega))

theorem State.spans_window (s : State) (t : Thread) {off n : Nat} (h : off + n ≤ s.spTop t) :
    s.spans t [(winBase + off, n)] = .ok s (tilesAt off n) [] := by
  simp only [State.spans, s.span_window t false h, List.append_nil]

theorem mem_tilesAt {off n : Nat} {l : Loc} (h : l ∈ tilesAt off n) : ∃ k, l = .sp k := by
  obtain ⟨k, -, rfl⟩ := List.mem_map.mp h
  exact ⟨_, rfl⟩

/-- A function of the places that leaves the state as it is for a byte of the tiles leaves it for each of them. -/
theorem foldl_tilesAt {α : Type} (f : α → Loc → α) (hf : ∀ a k, f a (.sp k) = a) (off n : Nat) (a : α) : (tilesAt off n).foldl f a = a :=
  List.foldlRecOn (motive := fun b => b = a) _ f rfl fun b hb l hl => by
    obtain ⟨k, rfl⟩ := mem_tilesAt hl
    rw [hf, hb]

theorem State.recallAll_tilesAt (s : State) (off n : Nat) : s.recallAll (tilesAt off n) = s :=
  foldl_tilesAt State.recallLoc (fun _ _ => rfl) off n s

theorem remoteRuns_tilesAt (off n : Nat) : remoteRuns (tilesAt off n) = [] := by
  rw [remoteRuns, foldl_tilesAt _ (fun _ _ => rfl) off n []]
  rfl

theorem State.cmdRead_window (s : State) (c : Cmd) (e : Nat) {off n : Nat} (h : off + n ≤ s.spTop c.asThread)
    (hp : ∀ i, i < n → off + i ∉ s.spPoison) :
    s.cmdRead c e (winBase + off) n = .ok s ((List.range n).map fun i => Memory.get s.sp (off + i)) [] := by
  have hlost (va : List Nat) : (va.zip (tilesAt off n)).find? (fun p => !p.2.far && s.locLost p.2) = none := by
    rw [List.find?_eq_none]
    intro p hmem
    obtain ⟨i, hi, hloc⟩ := List.mem_map.mp (List.of_mem_zip hmem).2
    simpa [← hloc, State.locLost] using fun _ => hp i (List.mem_range.mp hi)
  simp only [State.cmdRead, State.cmdReads, s.spans_window c.asThread h, State.touchAll, List.foldl_nil, State.recallAll_tilesAt, hlost,
    remoteRuns_tilesAt, eights, List.flatMap_nil, if_true]
  rw [tilesAt, List.map_map]
  rfl

theorem Prep.into_window (s : State) (c : Cmd) (bytes : List Byte) {off n : Nat} (h : off + n ≤ s.spTop c.asThread) :
    (Prep.ok s bytes []).into c (winBase + off) n = .ok s bytes (tilesAt off n) := by
  simp only [Prep.into, s.span_window c.asThread true h, State.cowAll, State.touchAll, List.foldl_nil, State.recallAll_tilesAt]

theorem putByte_tiles (bs : List Byte) (s : State) (off : Nat) :
    ((tilesAt off bs.length).zip bs).foldl State.putByte s = s.putSpList off bs := by
  induction bs generalizing s off with
  | nil => rfl
  | cons b r ih =>
    have hcons : tilesAt off (b :: r).length = .sp off :: tilesAt (off + 1) r.length := by
      rw [List.length_cons, Nat.add_comm, ← tilesAt_append off 1 r.length]
      rfl
    rw [hcons, List.zip_cons_cons, List.foldl_cons, ih, State.putSpList]
    rfl

/-- Bytes written to the tiles change the scratchpad and what of it is known to be wrong. -/
theorem State.putSpList_eq (bs : List Byte) (s : State) (off : Nat) :
    ∃ p, s.putSpList off bs = { s with sp := Memory.setList s.sp off bs, spPoison := p } := by
  induction bs generalizing s off with
  | nil => exact ⟨s.spPoison, rfl⟩
  | cons b r ih => exact ih (s.putSp off b) (off + 1)

theorem filter_tilesAt (p : Loc → Bool) (hp : ∀ k, p (.sp k) = true) (off n : Nat) : (tilesAt off n).filter p = tilesAt off n :=
  List.filter_eq_self.mpr fun l hl => by
    obtain ⟨k, rfl⟩ := mem_tilesAt hl
    exact hp k

theorem filterMap_tilesAt {α : Type} (f : Loc → Option α) (hf : ∀ k, f (.sp k) = none) (off n : Nat) : (tilesAt off n).filterMap f = [] :=
  List.filterMap_eq_nil_iff.mpr fun l hl => by
    obtain ⟨k, rfl⟩ := mem_tilesAt hl
    exact hf k

/-- No byte of the tiles is elsewhere. -/
theorem State.remoteWrites_tilesAt (s : State) (off n : Nat) (bs : List Byte) : s.remoteWrites (tilesAt off n) bs = [] := by
  simp only [State.remoteWrites]
  rw [filter_tilesAt _ fun _ => rfl, filterMap_tilesAt _ fun _ => rfl, remoteRuns_tilesAt]
  rfl

theorem State.writeBytes_window (s : State) (ctx : BitVec 12) (who : ReqFor) (off : Nat) (bs : List Byte) :
    s.writeBytes ctx who (tilesAt off bs.length) bs = s.putSpList off bs := by
  have htiles : ∀ p ∈ (tilesAt off bs.length).zip bs, ∃ k, p.1 = .sp k := fun p hp => mem_tilesAt (List.of_mem_zip hp).1
  have hnear : ((tilesAt off bs.length).zip bs).filter (fun p => !p.1.far) = (tilesAt off bs.length).zip bs :=
    List.filter_eq_self.mpr fun p hp => by obtain ⟨k, hk⟩ := htiles p hp; rw [hk]; rfl
  have htol : tolWords ((tilesAt off bs.length).zip bs) = [] := by
    rw [tolWords, List.filterMap_eq_nil_iff.mpr fun p hp => by obtain ⟨k, hk⟩ := htiles p hp; rw [hk], List.dedup_nil]
  rw [State.writeBytes, hnear, State.putLocs, htol, List.foldl_nil, putByte_tiles, State.sendWrites, State.remoteWrites_tilesAt, List.foldl_nil]

section
variable {s : State} {seq e : Nat} {c : Cmd} {da sa : Word} {n0 n1 n2 : Nat} {ds1 ss1 ds2 ss2 : Word} {so dof : Nat}

theorem State.prep_cpy_window (hk : c.kind = .cpy da sa n0 n1 n2 ds1 ss1 ds2 ss2) (hsrc : runStart sa ss1 ss2 n1 e = winBase + so)
    (hdst : runStart da ds1 ds2 n1 e = winBase + dof) (hs : so + n0 ≤ s.spTop c.asThread) (hd : dof + n0 ≤ s.spTop c.asThread)
    (hp : ∀ i, i < n0 → so + i ∉ s.spPoison) (hheld : s.readHeld c e = false) :
    s.prep c e = .ok s ((List.range n0).map fun i => Memory.get s.sp (so + i)) (tilesAt dof n0) := by
  simp only [State.prep, hheld, Bool.false_eq_true, if_false, hk, hsrc, hdst, s.cmdRead_window c e hs hp, Prep.into_window s c _ hd]

theorem State.transfer_cpy_window (hk : c.kind = .cpy da sa n0 n1 n2 ds1 ss1 ds2 ss2) (bs : List Byte) :
    s.transfer c e bs (tilesAt dof bs.length) = (s.putSpList dof bs).setCmd
      { c with xfer := e :: c.xfer, ready := c.ready.filter (fun x => x.elem != e) } := by
  rw [State.transfer, State.cmdWrite, hk]
  simp only [State.writeBytes_window]

variable (hc : s.cmdOf seq = some c) (hst : c.st = .performing) (hr : c.ready = []) (hlow : ∀ k, k < e → k ∈ c.xfer) (he : e < c.kind.count)
  (hx : e ∉ c.xfer)
include hc hst hr hlow he hx

/-- An element of a CPY between two places of the tiles copies its run and nothing else. -/
theorem State.courierElementTransfer_cpy_window (hk : c.kind = .cpy da sa n0 n1 n2 ds1 ss1 ds2 ss2)
    (hsrc : runStart sa ss1 ss2 n1 e = winBase + so) (hdst : runStart da ds1 ds2 n1 e = winBase + dof)
    (hs : so + n0 ≤ s.spTop c.asThread) (hd : dof + n0 ≤ s.spTop c.asThread)
    (hp : ∀ i, i < n0 → so + i ∉ s.spPoison) (hheld : s.readHeld c e = false) (hw : s.rangeHeld c.seq [] (c.kind.elemWrites e) = false) :
    ∃ u c', s.courierElementTransfer seq e = some u ∧ c' ∈ u.cmds ∧ c'.seq = seq ∧ c'.xfer = e :: c.xfer ∧
      (∀ i, i < n0 → Memory.get u.sp (dof + i) = Memory.get s.sp (so + i)) ∧
      (∀ a, Outside dof n0 a → Memory.get u.sp a = Memory.get s.sp a) ∧ u.mem = s.mem ∧ u.threads = s.threads := by
  obtain ⟨bs, hbs⟩ : ∃ bs, (List.range n0).map (fun i => Memory.get s.sp (so + i)) = bs := ⟨_, rfl⟩
  have hlen : bs.length = n0 := by rw [← hbs, List.length_map, List.length_range]
  have hbyte (i : Nat) (hi : i < n0) : bs.getD i 0 = Memory.get s.sp (so + i) := by
    rw [← hbs]; simp [hi]
  have hgo := s.courierElementTransfer_next hc hst hr hlow he hx (State.prep_cpy_window hk hsrc hdst hs hd hp hheld) hw
  rw [hbs, ← hlen, State.transfer_cpy_window hk] at hgo
  obtain ⟨p, hput⟩ := s.putSpList_eq bs dof
  rw [hput] at hgo
  refine ⟨_, { c with xfer := e :: c.xfer, ready := c.ready.filter (fun x => x.elem != e) }, hgo,
    State.mem_setCmd (State.mem_of_cmdOf hc) rfl, (State.seq_of_cmdOf hc :), rfl, fun i hi => ?_, fun a ha => ?_, rfl, rfl⟩
  · exact (Memory.get_setList_in bs s.sp dof i (by omega)).trans (hbyte i hi)
  · exact Memory.get_setList_out bs s.sp dof a (by rw [hlen]; exact ha)

end

end Sys2Proof.Machine
end

section
/-! O54, THIRD PART. A recall of the scalar cache, atomics on the home store, and the completion of a command (R292, R297, R320, R348). -/

namespace Sys2Proof.Machine

/-! ## A recall of the scalar cache (R348) -/

theorem State.findLine_dropLine (s : State) (n m : Nat) : (s.dropLine n).findLine m = if m = n then none else s.findLine m := by
  rw [State.dropLine, State.findLine, List.find?_filter]
  split
  · next h =>
    subst h
    exact List.find?_eq_none.mpr fun l _ => by simp
  · next h =>
    refine congrArg (fun p => List.find? p s.lines) (funext fun l => ?_)
    by_cases hl : l.line = m <;> simp [hl, h]

/-- A line that has been written back and dropped is gone, and no other line. -/
theorem State.findLine_flushDrop (s : State) (n m : Nat) : ((s.flushLine n).dropLine n).findLine m = if m = n then none else s.findLine m := by
  rw [State.findLine_dropLine]
  cases h : s.findLine n with
  | none => simp only [State.flushLine, h]
  | some l =>
    rw [State.findLine_flushLine h]
    split <;> rfl

theorem State.homeByte_dropLine (s : State) (n x : Nat) : (s.dropLine n).homeByte x = s.homeByte x := rfl

/-- Dropping a line that has been written back changes no byte as it finally stands. -/
theorem State.finalByte_flushDrop (s : State) (n x : Nat) : ((s.flushLine n).dropLine n).finalByte x = s.finalByte x := by
  rw [← State.finalByte_flushLine s n x]
  simp only [State.finalByte, State.findLine_dropLine, State.homeByte_dropLine]
  by_cases hx : x / 64 = n
  · rw [if_pos hx, hx]
    cases h : s.findLine n with
    | none => simp only [State.flushLine, h]
    | some l => simp [State.findLine_flushLine h]
  · rw [if_neg hx]

theorem State.poison_flushLine {s : State} {n a : Nat} (h : a ∈ (s.flushLine n).poison) : a ∈ s.poison := by
  unfold State.flushLine at h
  split at h
  · exact h
  · next l _ =>
    refine List.foldlRecOn (motive := fun u : State => a ∈ u.poison → a ∈ s.poison) (List.range 64) _ id (fun u hu i _ h => ?_) h
    split at h
    · exact hu (List.mem_of_mem_filter h)
    · exact hu h

theorem State.recall_frame (s : State) (pa n : Nat) : ∃ m q k, s.recall pa n = { s with mem := m, poison := q, lines := k } :=
  List.foldlRecOn (motive := fun u : State => ∃ m q k, u = { s with mem := m, poison := q, lines := k }) _ _ ⟨s.mem, s.poison, s.lines, rfl⟩
    fun u ⟨m, q, k, hu⟩ i _ => by
      obtain ⟨m', q', k', hf⟩ := u.flushLine_frame (pa / 64 + i)
      exact ⟨m', q', _, by rw [hf, hu]; rfl⟩

@[simp] theorem State.recall_cmds (s : State) (pa n : Nat) : (s.recall pa n).cmds = s.cmds := by
  obtain ⟨m, q, k, h⟩ := s.recall_frame pa n; rw [h]
@[simp] theorem State.recall_sp (s : State) (pa n : Nat) : (s.recall pa n).sp = s.sp := by
  obtain ⟨m, q, k, h⟩ := s.recall_frame pa n; rw [h]

/-- A recall changes no byte as it finally stands. -/
theorem State.finalByte_recall (s : State) (pa n x : Nat) : (s.recall pa n).finalByte x = s.finalByte x :=
  List.foldlRecOn (motive := fun u : State => u.finalByte x = s.finalByte x) _ _ rfl
    fun u hu i _ => (u.finalByte_flushDrop (pa / 64 + i) x).trans hu

theorem State.poison_recall {s : State} {pa n a : Nat} (h : a ∈ (s.recall pa n).poison) : a ∈ s.poison :=
  List.foldlRecOn (motive := fun u : State => a ∈ u.poison → a ∈ s.poison) _
    (fun s i => (s.flushLine (pa / 64 + i)).dropLine (pa / 64 + i)) id (fun _ hu _ _ h => hu (State.poison_flushLine h)) h

/-- The lines named are gone, and no other. -/
theorem State.findLine_foldl_flushDrop (b m : Nat) (l : List Nat) (s : State) :
    (l.foldl (fun s i => (s.flushLine (b + i)).dropLine (b + i)) s).findLine m = if m ∈ l.map (b + ·) then none else s.findLine m := by
  induction l generalizing s with
  | nil => simp
  | cons i r ih =>
    rw [List.foldl_cons, ih, State.findLine_flushDrop, List.map_cons]
    by_cases hr : m ∈ r.map (b + ·)
    · rw [if_pos hr, if_pos (List.mem_cons_of_mem _ hr)]
    · rw [if_neg hr]
      simp only [List.mem_cons, hr, or_false]

/-- A recalled byte is in no line. -/
theorem State.findLine_recall (s : State) {pa n x : Nat} (hlo : pa ≤ x) (hhi : x < pa + n) : (s.recall pa n).findLine (x / 64) = none := by
  have hle : pa / 64 ≤ x / 64 := Nat.div_le_div_right hlo
  have hge : x / 64 ≤ (pa + n - 1) / 64 := Nat.div_le_div_right (by omega)
  rw [State.recall, State.findLine_foldl_flushDrop, if_pos]
  exact List.mem_map.mpr ⟨x / 64 - pa / 64, List.mem_range.mpr (by omega), by omega⟩

theorem State.homeByte_recall (s : State) {pa n x : Nat} (hlo : pa ≤ x) (hhi : x < pa + n) :
    (s.recall pa n).homeByte x = s.finalByte x := by
  rw [← s.finalByte_recall pa n x, State.finalByte, s.findLine_recall hlo hhi]

theorem State.poison_touch {s : State} {l : Leaf} {write : Bool} {a : Nat} (h : a ∈ (s.touch l write).poison) : a ∈ s.poison := by
  unfold State.touch at h
  extract_lets need s1 e s2 at h
  split at h
  · exact h
  · exact State.poison_recall (List.mem_of_mem_filter h)

/-! ## Words of the home store -/

theorem Memory.getList_eq_map (m : List Host.Cell) (a n : Nat) : Memory.getList m a n = (List.range n).map fun i => Memory.get m (a + i) := by
  induction n generalizing a with
  | zero => rfl
  | succ n ih =>
    rw [Memory.getList, ih, List.range_succ_eq_map, List.map_cons, List.map_map]
    simp only [Function.comp_def, Nat.add_succ, Nat.succ_add, Nat.add_zero]

theorem getD_leBytes (n x k : Nat) (hk : k < n) : (leBytes n x).getD k 0 = BitVec.ofNat 8 (x / 256 ^ k) := by
  induction n generalizing x k with
  | zero => omega
  | succ n ih =>
    cases k with
    | zero => simp [leBytes]
    | succ k =>
      rw [leBytes, List.getD_cons_succ, ih _ _ (by omega), Nat.div_div_eq_div_mul, Nat.pow_succ, Nat.mul_comm]

theorem ofNat_div_eq_extract (v : Word) (k : Nat) : BitVec.ofNat 8 (v.toNat / 256 ^ k) = v.extractLsb' (8 * k) 8 := by
  apply BitVec.eq_of_toNat_eq
  rw [BitVec.toNat_ofNat, BitVec.extractLsb'_toNat, Nat.shiftRight_eq_div_pow, Nat.pow_mul]

/-- The word at an address as its bytes finally stand. -/
def State.finalWord (s : State) (pa : Nat) : Word := BitVec.ofNat 64 (leNat ((List.range 8).map (fun k => s.finalByte (pa + k))))

/-- An atomic on a doubleword of the home store that is not lost: its word as it finally stands, and the state with the result in its place. -/
theorem State.homeAtomic_wide {s : State} {pa : Nat} (hp : ∀ k, k < 8 → pa + k ∉ s.poison) (op : AmoOp) (b cmp : Word) :
    s.homeAtomic op true pa b cmp =
    ((s.recall pa 8).putHomeNat pa 8 (amoNew op true (s.finalWord pa) b cmp).toNat, some (s.finalWord pa)) := by
  have hlost : (s.recall pa 8).homeLost pa 8 = false := by
    rw [State.homeLost, List.any_eq_false]
    intro a ha hin
    rw [Bool.and_eq_true, decide_eq_true_eq, decide_eq_true_eq] at hin
    exact hp (a - pa) (by omega) (by rw [Nat.add_sub_cancel' hin.1]; exact State.poison_recall ha)
  have hold : BitVec.ofNat 64 ((s.recall pa 8).homeNat pa 8) = s.finalWord pa := by
    rw [State.homeNat, Memory.getList_eq_map, State.finalWord]
    congr 2
    exact List.map_congr_left fun k hk => s.homeByte_recall (Nat.le_add_right _ _) (Nat.add_lt_add_left (List.mem_range.mp hk) _)
  simp only [State.homeAtomic, if_true, hlost, Bool.false_eq_true, if_false, hold]

/-- A doubleword put in the home store after its recall stands there, and every other byte as before. -/
theorem State.finalByte_putHomeNat_recall (s : State) (pa : Nat) (v : Word) :
    (∀ k, k < 8 → ((s.recall pa 8).putHomeNat pa 8 v.toNat).finalByte (pa + k) = v.extractLsb' (8 * k) 8) ∧
    ∀ a, Outside pa 8 a → ((s.recall pa 8).putHomeNat pa 8 v.toNat).finalByte a = s.finalByte a := by
  refine ⟨fun k hk => ?_, fun a ha => ?_⟩
  · have hline : ((s.recall pa 8).putHomeNat pa 8 v.toNat).findLine ((pa + k) / 64) = none :=
      s.findLine_recall (Nat.le_add_right _ _) (Nat.add_lt_add_left hk _)
    rw [State.finalByte, hline]
    refine (Memory.get_setList_in (leBytes 8 v.toNat) _ pa k (by rw [length_leBytes]; exact hk)).trans ?_
    rw [getD_leBytes _ _ _ hk, ofNat_div_eq_extract]
  · rw [← s.finalByte_recall pa 8 a]
    have hbyte : ((s.recall pa 8).putHomeNat pa 8 v.toNat).homeByte a = (s.recall pa 8).homeByte a :=
      Memory.get_setList_out (leBytes 8 v.toNat) _ pa a (by rw [length_leBytes]; exact ha)
    simp only [State.finalByte, hbyte]
    rfl

/-! ## Completion (R292, R297, R320) -/

theorem State.finishCmd_of_bar {s : State} {c : Cmd} (h : c.bar = none) : s.finishCmd c = { s with cmds := s.cmds.filter (fun d => d.seq != c.seq) } := by
  rw [State.finishCmd, h]

theorem State.counterAdd_uncounted (s : State) {c : Cmd} (h : c.counter = 0) : s.counterAdd c = some (s.finishCmd c) := by
  simp only [State.counterAdd, h, if_true]

/-- A counter in the home store gets the increment in one step. -/
theorem State.counterAdd_home {s s1 : State} {c : Cmd} {locs : List Loc} {l : Leaf} {pa : Nat} (hne : c.counter ≠ 0)
    (hcheck : s.counterCheck c.asThread true c.counter = .ok s1 locs (some l)) (hloc : firstLoc locs = .home pa)
    (hp : ∀ k, k < 8 → pa + k ∉ s1.poison) : s.counterAdd c = some ((((s1.touch l true).recall pa 8).putHomeNat pa 8
      ((s1.touch l true).finalWord pa + BitVec.ofNat 64 c.inc).toNat).finishCmd c) := by
  have hatomic := State.homeAtomic_wide (s := s1.touch l true) (fun k hk h => hp k hk (State.poison_touch h)) .add (BitVec.ofNat 64 c.inc) 0
  simp only [State.counterAdd, hne, if_false, hcheck, hloc, hatomic]
  rfl

section
variable {s : State} {seq : Nat} {c : Cmd} (hc : s.cmdOf seq = some c)
include hc

section
variable (hst : c.st = .performing) (hk : ∀ m, c.kind ≠ .csbar m) (hx : c.xfer.length = c.kind.count) (hw : s.cmdWritesOpen c = false)
include hst hk hx hw

theorem State.commandComplete_transferred : s.commandComplete seq =
    some (((s.setCmd { c with st := .adding }).counterAdd { c with st := .adding }).getD (s.setCmd { c with st := .adding })) := by
  have hgo : (decide (c.xfer.length ≠ c.kind.count) || s.cmdWritesOpen c) = false := by simp [hx, hw]
  simp only [State.commandComplete, hc, hst, hgo, Bool.false_eq_true, if_false]

/-- A command without a counter leaves its slot. -/
theorem State.commandComplete_uncounted (hbar : c.bar = none) (h0 : c.counter = 0) :
    s.commandComplete seq = some { s with cmds := s.cmds.filter (fun d => d.seq != c.seq) } := by
  rw [State.commandComplete_transferred hc hst hk hx hw, State.counterAdd_uncounted _ (c := { c with st := .adding }) h0, Option.getD_some,
    State.finishCmd_of_bar (c := { c with st := .adding }) hbar, State.filter_setCmd s { c with st := .adding }]
  rfl

/-- A command whose counter is in the home store adds its increment there and leaves its slot. -/
theorem State.commandComplete_counted {s1 : State} {locs : List Loc} {l : Leaf} {pa : Nat} (hbar : c.bar = none) (hne : c.counter ≠ 0)
    (hcheck : (s.setCmd { c with st := .adding }).counterCheck c.asThread true c.counter = .ok s1 locs (some l))
    (hloc : firstLoc locs = .home pa) (hp : ∀ k, k < 8 → pa + k ∉ s1.poison) :
    let t := ((s1.touch l true).recall pa 8).putHomeNat pa 8 ((s1.touch l true).finalWord pa + BitVec.ofNat 64 c.inc).toNat
    s.commandComplete seq = some { t with cmds := t.cmds.filter (fun d => d.seq != c.seq) } := by
  rw [State.commandComplete_transferred hc hst hk hx hw, State.counterAdd_home (c := { c with st := .adding }) hne hcheck hloc hp, Option.getD_some,
    State.finishCmd_of_bar (c := { c with st := .adding }) hbar]

end

/-- A CSBAR leaves once no earlier command stands on its streams. -/
theorem State.commandComplete_csbar {m : BitVec 16} (hk : c.kind = .csbar m) : s.commandComplete seq =
    if s.cmds.any (fun d => d.seq < c.seq && (List.range 16).any (fun k => m.getLsbD k && d.onStream k)) then none
    else some { s with cmds := s.cmds.filter (fun d => d.seq != c.seq) } := by
  simp only [State.commandComplete, hc, hk]

theorem State.commandComplete_csbar_alone {m : BitVec 16} (hk : c.kind = .csbar m)
    (h : ∀ d ∈ s.cmds, d.seq < c.seq → ∀ k, k < 16 → m.getLsbD k = true → d.onStream k = false) :
    s.commandComplete seq = some { s with cmds := s.cmds.filter (fun d => d.seq != c.seq) } := by
  rw [State.commandComplete_csbar hc hk, if_neg]
  rw [Bool.not_eq_true, List.any_eq_false]
  intro d hd hin
  obtain ⟨hlt, k, hk16, hbit, hon⟩ : d.seq < c.seq ∧ ∃ k, k < 16 ∧ m.getLsbD k = true ∧ d.onStream k = true := by simpa using hin
  exact Bool.false_ne_true ((h d hd hlt k hk16 hbit).symm.trans hon)

theorem State.commandComplete_csbar_behind {m : BitVec 16} (hk : c.kind = .csbar m)
    (h : ∃ d ∈ s.cmds, d.seq < c.seq ∧ ∃ k, k < 16 ∧ m.getLsbD k = true ∧ d.onStream k = true) : s.commandComplete seq = none := by
  obtain ⟨d, hd, hlt, k, hk16, hbit, hon⟩ := h
  rw [State.commandComplete_csbar hc hk, if_pos]
  exact List.any_eq_true.mpr ⟨d, hd, by simpa [hlt] using ⟨k, hk16, hbit, hon⟩⟩

end

end Sys2Proof.Machine
end

section
/-! O54, FOURTH PART. The matrix queue: MZERO, MMA and MMAV (R67, R68, R328, R329, R332). -/

namespace Sys2Proof.Machine

/-! ## Cells of an accumulator -/

theorem Cells.get_clear {α : Type} (d : α) (lo n a : Nat) (l : List (Nat × α)) :
    Cells.get d (Cells.clear l lo n) a = if lo ≤ a ∧ a < lo + n then d else Cells.get d l a := by
  induction l with
  | nil => simp [Cells.clear, Cells.get]
  | cons c r ih =>
    rw [Cells.clear, List.filter_cons, Cells.get]
    by_cases ha : a = c.1
    · subst ha
      by_cases hin : lo ≤ c.1 ∧ c.1 < lo + n
      · rw [if_neg (by simp; omega), if_pos hin]
        exact ih.trans (if_pos hin)
      · rw [if_pos (by simp; omega), if_neg hin, Cells.get, if_pos rfl, if_pos rfl]
    · rw [if_neg ha]
      split
      · rw [Cells.get, if_neg ha]; exact ih
      · exact ih

theorem accKey_inj {a b r row c col : Nat} (hr : r < 256) (hrow : row < 256) (hc : c < 256) (hcol : col < 256) :
    accKey a r c = accKey b row col ↔ a = b ∧ r = row ∧ c = col := by
  simp only [accKey]; omega

theorem State.accGet_key (s : State) (a row col : Nat) : s.accGet a row col = Cells.get 0 s.acc (accKey a row col) := rfl

/-! ## MZERO and MMAV (R328, R332) -/

section
variable {s : State} {c : MatCmd} {rest : List MatCmd} (hq : s.matQ = c :: rest)
include hq

theorem State.matrixQueueServe_mzero {a : Nat} {fmt : AccFmt} (hop : c.op = .mzero a fmt) :
    s.matrixQueueServe = some { s.doMzero a with matQ := rest } := by
  simp only [State.matrixQueueServe, hq, hop]

theorem State.matrixQueueServe_mmav {q : Nat} (hop : c.op = .mmav q) : s.matrixQueueServe =
    some { s with cmds := s.cmds.map (fun d => if d.seq = q ∧ d.st = .queued then { d with st := .posted } else d), matQ := rest } := by
  simp only [State.matrixQueueServe, hq, hop, Bool.and_eq_true, beq_iff_eq]

end

theorem State.accGet_doMzero_same (s : State) {a row col : Nat} (hrow : row < 256) (hcol : col < 256) : (s.doMzero a).accGet a row col = 0 :=
  (Cells.get_clear 0 _ _ _ s.acc).trans (if_pos (by omega))

theorem State.accGet_doMzero_ne (s : State) {a b row col : Nat} (hrow : row < 256) (hcol : col < 256) (h : b ≠ a) :
    (s.doMzero a).accGet b row col = s.accGet b row col :=
  (Cells.get_clear 0 _ _ _ s.acc).trans (if_neg (by omega))

theorem State.accSat_doMzero (s : State) {a : Nat} (h : a < 4) : (s.doMzero a).accSat.get ⟨a, h⟩ = false := by
  simp [State.doMzero, Vector.get_eq_getElem]

/-! ## A row of an MMA (R67, R68, R329) -/

/-- The state differs at most in the accumulators and their saturation bits. -/
def State.AccOnly (s u : State) : Prop := ∃ acc sat, u = { s with acc := acc, accSat := sat }

theorem State.AccOnly.refl (s : State) : s.AccOnly s := ⟨s.acc, s.accSat, rfl⟩

theorem State.AccOnly.trans {s u v : State} (h : s.AccOnly u) (h' : u.AccOnly v) : s.AccOnly v := by
  obtain ⟨_, _, rfl⟩ := h
  obtain ⟨_, _, rfl⟩ := h'
  exact ⟨_, _, rfl⟩

/-- An element of an accumulator after one K-group. -/
def State.mmaValue (s : State) (x y : Nat) (p : Panel) (m n : Nat) (v : BitVec 32) (g : Nat) : BitVec 32 :=
  if p.acc = .fp32 then BitVec.ofNat 32 (fltGroup v.toNat ((kGroup p.k g).map (s.fltProduct x y p m n)))
  else BitVec.ofInt 32 (intGroup (Tag.i32.toInt v.toNat) ((kGroup p.k g).map (s.intProduct x y p m n))).1

theorem State.AccOnly.mmaValue {s u : State} (h : s.AccOnly u) (x y : Nat) (p : Panel) (m n : Nat) (v : BitVec 32) (g : Nat) :
    u.mmaValue x y p m n v g = s.mmaValue x y p m n v g := by
  obtain ⟨_, _, rfl⟩ := h
  rfl

theorem State.AccOnly.rangeHeld {s u : State} (h : s.AccOnly u) (seq : Nat) (r w : List Extent) : u.rangeHeld seq r w = s.rangeHeld seq r w := by
  obtain ⟨_, _, rfl⟩ := h
  rfl

theorem State.AccOnly.accPoison {s u : State} (h : s.AccOnly u) : u.accPoison = s.accPoison := by
  obtain ⟨_, _, rfl⟩ := h
  rfl

theorem State.AccOnly.spPoison {s u : State} (h : s.AccOnly u) : u.spPoison = s.spPoison := by
  obtain ⟨_, _, rfl⟩ := h
  rfl

theorem State.accSaturate_eq (s : State) (a : Nat) (b : Bool) : ∃ sat, s.accSaturate a b = { s with accSat := sat } := by
  cases b
  · exact ⟨s.accSat, rfl⟩
  · exact ⟨_, rfl⟩

/-- Where no data is lost, an element takes its value after the group. -/
theorem State.mmaElem_eq (s : State) (a x y : Nat) (p : Panel) (m g n : Nat) (h : s.accPoison = []) : ∃ sat, s.mmaElem a x y p m g n =
    { s with acc := Cells.set 0 s.acc (accKey a m n) (s.mmaValue x y p m n (s.accGet a m n) g), accSat := sat } := by
  have hlost : s.accLost a m n = false := by rw [State.accLost, h]; rfl
  have hput (v : BitVec 32) : s.accPut a m n v = { s with acc := Cells.set 0 s.acc (accKey a m n) v } := by
    rw [State.accPut, h]
    rfl
  simp only [State.mmaElem, hlost, Bool.false_eq_true, if_false, State.mmaValue, hput]
  cases hf : p.acc with
  | fp32 => exact ⟨s.accSat, by rw [if_pos rfl]⟩
  | int32 =>
    obtain ⟨sat, hsat⟩ := State.accSaturate_eq _ a _
    exact ⟨sat, hsat⟩
  | unset =>
    obtain ⟨sat, hsat⟩ := State.accSaturate_eq _ a _
    exact ⟨sat, hsat⟩

section
variable {s : State} {a x y m : Nat} {p : Panel} (hap : s.accPoison = []) (hm : m < 256)
include hap hm

/-- The elements of a row after one K-group. -/
theorem State.mmaGroup_spec (g n : Nat) (hn : n ≤ 256) {u : State} (hu : s.AccOnly u) :
    let w := (List.range n).foldl (fun u c => u.mmaElem a x y p m g c) u
    s.AccOnly w ∧ ∀ b row col, row < 256 → col < 256 → w.accGet b row col =
      if b = a ∧ row = m ∧ col < n then s.mmaValue x y p m col (u.accGet a m col) g else u.accGet b row col := by
  induction n with
  | zero => exact ⟨hu, fun b row col _ _ => (if_neg (by omega)).symm⟩
  | succ n ih =>
    obtain ⟨hw, hget⟩ := ih (by omega)
    intro w
    have hstep : w = ((List.range n).foldl (fun u c => u.mmaElem a x y p m g c) u).mmaElem a x y p m g n := by
      simp only [w, List.range_succ, List.foldl_append, List.foldl_cons, List.foldl_nil]
    obtain ⟨sat, he⟩ := State.mmaElem_eq _ a x y p m g n (hw.accPoison.trans hap)
    rw [he] at hstep
    refine ⟨hw.trans ⟨_, _, hstep⟩, fun b row col hrow hcol => ?_⟩
    rw [State.accGet_key, hstep]
    by_cases hk : b = a ∧ row = m ∧ col = n
    · obtain ⟨rfl, rfl, rfl⟩ := hk
      rw [if_pos (by omega)]
      refine (Cells.get_set_same 0 _ _ _).trans ?_
      rw [hw.mmaValue, hget b row col hrow hcol, if_neg (by omega)]
    · refine (Cells.get_set_ne 0 (accKey a m n) (accKey b row col) _ (fun e => hk ((accKey_inj hrow hm hcol (by omega)).mp e)) _).trans ?_
      rw [← State.accGet_key, hget b row col hrow hcol]
      have hiff : (b = a ∧ row = m ∧ col < n) ↔ (b = a ∧ row = m ∧ col < n + 1) := by omega
      simp only [hiff]

/-- The rest of a row, group by group. -/
theorem State.mmaGo_spec (hsp : s.spPoison = []) (hn : p.n ≤ 256) (seq : Nat) (lost : Bool) (k g : Nat) (hg : g + k ≤ p.groups)
    (hheld : ∀ i, g ≤ i → i < g + k → s.rangeHeld seq (p.groupReads x y m i) [] = false) {u : State} (hu : s.AccOnly u) :
    ∃ w, u.mmaGo seq a x y p lost k (m * p.groups + g) = (w, m * p.groups + (g + k), lost) ∧ s.AccOnly w ∧
      ∀ b row col, row < 256 → col < 256 → w.accGet b row col =
        if b = a ∧ row = m ∧ col < p.n then (List.range k).foldl (fun v i => s.mmaValue x y p m col v (g + i)) (u.accGet a m col)
        else u.accGet b row col := by
  induction k generalizing g u with
  | zero => exact ⟨u, rfl, hu, fun b row col _ _ => by split <;> simp_all⟩
  | succ k ih =>
    obtain ⟨hgroup, hget⟩ := State.mmaGroup_spec (a := a) (x := x) (y := y) (p := p) hap hm g p.n hn hu
    obtain ⟨w, hgo, hw, hrow⟩ := ih (g + 1) (by omega) (fun i h1 h2 => hheld i (by omega) (by omega)) hgroup
    have hdiv : (m * p.groups + g) / p.groups = m := by
      rw [Nat.mul_comm, Nat.mul_add_div (by omega), Nat.div_eq_of_lt (by omega), Nat.add_zero]
    have hmod : (m * p.groups + g) % p.groups = g := by
      rw [Nat.mul_comm, Nat.mul_add_mod, Nat.mod_eq_of_lt (by omega)]
    have hsplost (off n : Nat) : u.spLost off n = false := by rw [State.spLost, hu.spPoison, hsp]; rfl
    have hacclost (c : Nat) : u.accLost a m c = false := by rw [State.accLost, hu.accPoison, hap]; rfl
    have hbad : ((p.groupReads x y m g).any (fun e => u.spLost e.1 e.2) || (List.range p.n).any (fun c => u.accLost a m c)) = false := by
      simp [hsplost, hacclost]
    refine ⟨w, ?_, hw, fun b row col hr hc => ?_⟩
    · simp only [State.mmaGo, hdiv, hmod, hu.rangeHeld, hheld g (Nat.le_refl _) (by omega), Bool.false_eq_true, if_false, hbad, Bool.or_false]
      rw [Nat.add_assoc, hgo, Nat.add_right_comm, Nat.add_assoc]
    · rw [hrow b row col hr hc]
      by_cases hin : b = a ∧ row = m ∧ col < p.n
      · rw [if_pos hin, if_pos hin, hget a m col hm hc, if_pos ⟨rfl, rfl, hin.2.2⟩, List.range_succ_eq_map, List.foldl_cons, List.foldl_map]
        simp only [Nat.add_zero, Nat.succ_eq_add_one, Nat.add_right_comm g 1, Nat.add_assoc]
      · rw [if_neg hin, if_neg hin, hget b row col hr hc, if_neg hin]

end

theorem Panel.ok_bounds {p : Panel} (h : p.ok = true) : p.m ≤ 256 ∧ p.n ≤ 256 := by
  simp only [Panel.ok, Bool.and_eq_true, decide_eq_true_eq] at h
  omega

theorem Panel.groups_pos {p : Panel} {done : Nat} (h : done < p.m * p.groups) : 0 < p.groups :=
  Nat.pos_of_mul_pos_left (Nat.zero_lt_of_lt h)

theorem Panel.row_lt {p : Panel} {done : Nat} (h : done < p.m * p.groups) : done / p.groups < p.m :=
  (Nat.div_lt_iff_lt_mul (Panel.groups_pos h)).mpr h

section
variable {s : State} {c : MatCmd} {rest : List MatCmd} {a x y : Nat} {p : Panel} (hq : s.matQ = c :: rest) (hop : c.op = .mma a x y p)
include hq hop

/-- An MMA whose next rows have still to be written stands. -/
theorem State.matrixQueueServe_mma_held (hdone : c.done < p.m * p.groups)
    (hheld : s.rangeHeld c.seq (p.groupReads x y (c.done / p.groups) (c.done % p.groups)) [] = true) : s.matrixQueueServe = none := by
  have hpos : 0 < p.groups := Panel.groups_pos hdone
  obtain ⟨k, hk⟩ := Nat.exists_eq_add_of_lt (Nat.mod_lt c.done hpos)
  have hgo : s.mmaGo c.seq a x y p c.lost (p.groups - c.done % p.groups) c.done = (s, c.done, c.lost) := by
    rw [show p.groups - c.done % p.groups = k + 1 by omega, State.mmaGo]
    exact if_pos hheld
  simp only [State.matrixQueueServe, hq, hop, hgo, if_true]

/-- What an MMA makes of the accumulators: the rest of row m, from K-group `first` on, is summed. -/
def State.RowSummed (s u : State) (a x y : Nat) (p : Panel) (m first : Nat) : Prop :=
  ∀ b row col, row < 256 → col < 256 → u.accGet b row col =
    if b = a ∧ row = m ∧ col < p.n then
      (List.range (p.groups - first)).foldl (fun v i => s.mmaValue x y p m col v (first + i)) (s.accGet a m col)
    else s.accGet b row col

/-- An MMA sums the rest of its row, and leaves the queue with its last. -/
theorem State.matrixQueueServe_mma (hok : p.ok = true) (hdone : c.done < p.m * p.groups)
    (hheld : ∀ g, c.done % p.groups ≤ g → g < p.groups → s.rangeHeld c.seq (p.groupReads x y (c.done / p.groups) g) [] = false)
    (hsp : s.spPoison = []) (hap : s.accPoison = []) : ∃ u, s.matrixQueueServe = some u ∧
      u.matQ = (if (c.done / p.groups + 1) * p.groups = p.m * p.groups then rest else { c with done := (c.done / p.groups + 1) * p.groups } :: rest) ∧
      s.RowSummed u a x y p (c.done / p.groups) (c.done % p.groups) ∧ u.sp = s.sp ∧ u.mem = s.mem ∧ u.threads = s.threads := by
  have hpos : 0 < p.groups := Panel.groups_pos hdone
  have hfirst : c.done % p.groups < p.groups := Nat.mod_lt c.done hpos
  have hrow : c.done / p.groups < p.m := Panel.row_lt hdone
  obtain ⟨hm, hn⟩ := Panel.ok_bounds hok
  have hsplit : c.done / p.groups * p.groups + c.done % p.groups = c.done := Nat.div_add_mod' c.done p.groups
  have hend : c.done / p.groups * p.groups + (c.done % p.groups + (p.groups - c.done % p.groups)) = (c.done / p.groups + 1) * p.groups := by
    rw [Nat.add_sub_cancel' hfirst.le, Nat.succ_mul]
  obtain ⟨w, hgo, ⟨acc, sat, rfl⟩, hsum⟩ := State.mmaGo_spec (a := a) (x := x) (y := y) hap (Nat.lt_of_lt_of_le hrow hm) hsp hn c.seq c.lost
    (p.groups - c.done % p.groups) (c.done % p.groups) (by omega) (fun i h1 h2 => hheld i h1 (by omega)) (State.AccOnly.refl s)
  rw [hsplit, hend] at hgo
  have hne : (c.done / p.groups + 1) * p.groups ≠ c.done := by rw [Nat.succ_mul]; omega
  simp only [State.matrixQueueServe, hq, hop, hgo, hne, if_false]
  split
  · refine ⟨_, rfl, rfl, fun b row col hr hc => ?_, ?_⟩
    · rw [← hsum b row col hr hc]
      cases c.lost <;> rfl
    · cases c.lost <;> exact ⟨rfl, rfl, rfl⟩
  · exact ⟨_, rfl, rfl, hsum, rfl, rfl, rfl⟩

end

end Sys2Proof.Machine
end

section
/-! O54, FIFTH PART. What the queued accesses of a thread leave of it (R200). -/

namespace Sys2Proof.Machine

/-! ## What the queued accesses of a thread leave (R200) -/

/-- The contexts, and the configuration registers of a thread, are the same. -/
def State.SameCfg (sl : Slot) (s u : State) : Prop := u.ctxs = s.ctxs ∧ (u.th sl).cfg = (s.th sl).cfg

theorem State.SameCfg.trans {sl : Slot} {s u v : State} (h : s.SameCfg sl u) (h' : u.SameCfg sl v) : s.SameCfg sl v :=
  ⟨h'.1.trans h.1, h'.2.trans h.2⟩

section
variable {sl : Slot}

theorem State.sameCfg_foldl {α : Type} {f : State → α → State} (hf : ∀ (s : State) x, s.SameCfg sl (f s x)) (l : List α) (s : State) :
    s.SameCfg sl (l.foldl f s) :=
  List.foldlRecOn (motive := fun u => s.SameCfg sl u) l f ⟨rfl, rfl⟩ fun u hu x _ => hu.trans (hf u x)

theorem State.sameCfg_setTh (s : State) {t : Thread} (h : t.cfg = (s.th sl).cfg) : s.SameCfg sl (s.setTh sl t) :=
  ⟨rfl, by rw [State.th_setTh]; exact h⟩

theorem State.sameCfg_flushLine (s : State) (n : Nat) : s.SameCfg sl (s.flushLine n) := by
  obtain ⟨m, q, k, h⟩ := s.flushLine_frame n
  rw [h]
  exact ⟨rfl, rfl⟩

theorem State.sameCfg_releaseLines (s : State) : s.SameCfg sl s.releaseLines := State.sameCfg_foldl State.sameCfg_flushLine _ s

theorem State.sameCfg_acquireLines (s : State) : s.SameCfg sl s.acquireLines := s.sameCfg_releaseLines.trans ⟨rfl, rfl⟩

theorem State.sameCfg_recall (s : State) (pa n : Nat) : s.SameCfg sl (s.recall pa n) := by
  obtain ⟨m, q, k, h⟩ := s.recall_frame pa n
  rw [h]
  exact ⟨rfl, rfl⟩

theorem State.sameCfg_fillLine (s : State) (n : Nat) : s.SameCfg sl (s.fillLine n) := by
  unfold State.fillLine
  split
  · exact ⟨rfl, rfl⟩
  · exact State.SameCfg.trans (u := { s with lines := _ }) ⟨rfl, rfl⟩
      (State.sameCfg_foldl (f := fun s (l : Line) => (s.flushLine l.line).dropLine l.line)
        (fun s l => (s.sameCfg_flushLine l.line).trans ⟨rfl, rfl⟩) _ _)

theorem State.sameCfg_lineWrite (s : State) (pa : Nat) (bs : List Byte) : s.SameCfg sl (s.lineWrite pa bs) :=
  (s.sameCfg_fillLine (pa / 64)).trans ⟨rfl, rfl⟩

theorem State.sameCfg_putByte (s : State) (p : Loc × Byte) : s.SameCfg sl (s.putByte p) := by
  unfold State.putByte
  split <;> exact ⟨rfl, rfl⟩

theorem State.sameCfg_putTolWord (s : State) (frame j : Nat) (bs : List (Nat × Byte)) : s.SameCfg sl (s.putTolWord frame j bs) := by
  unfold State.putTolWord State.putHomeNat
  exact ⟨rfl, rfl⟩

theorem State.sameCfg_putLocs (s : State) (l : List (Loc × Byte)) : s.SameCfg sl (s.putLocs l) := by
  unfold State.putLocs
  refine State.SameCfg.trans (u := l.foldl State.putByte s) (State.sameCfg_foldl State.sameCfg_putByte l s) (State.sameCfg_foldl (fun u w => ?_) _ _)
  exact u.sameCfg_putTolWord w.1 w.2 _

theorem State.sameCfg_sendTo (s : State) (fn : Nat) (ctx : BitVec 12) (who : ReqFor) (pa : Nat) (op : BusOp) (st : ReqStatus) (locs : List Loc) :
    s.SameCfg sl (s.sendTo fn ctx who pa op st locs) := ⟨rfl, rfl⟩

theorem State.sameCfg_sendWrites (s : State) (ctx : BitVec 12) (who : ReqFor) (locs : List Loc) (bs : List Byte) :
    s.SameCfg sl (s.sendWrites ctx who locs bs) := by
  unfold State.sendWrites
  refine State.sameCfg_foldl (fun u p => ?_) _ _
  split
  · exact State.SameCfg.trans (u := u.putHome p.1 p.2) ⟨rfl, rfl⟩ (State.sameCfg_sendTo _ _ _ _ _ _ _ _)
  · exact u.sameCfg_sendTo _ _ _ _ _ _ _

theorem State.sameCfg_writeBytes (s : State) (ctx : BitVec 12) (who : ReqFor) (locs : List Loc) (bs : List Byte) :
    s.SameCfg sl (s.writeBytes ctx who locs bs) := by
  unfold State.writeBytes
  exact (s.sameCfg_putLocs _).trans (State.sameCfg_sendWrites _ ctx who locs bs)

theorem State.sameCfg_storeLocs (s : State) (ctx : BitVec 12) (locs : List Loc) (cached : Bool) (bs : List Byte) :
    s.SameCfg sl (s.storeLocs ctx locs cached bs) := by
  unfold State.storeLocs
  split
  case h_4 pa _ =>
    split
    · exact s.sameCfg_lineWrite pa bs
    · exact s.sameCfg_putLocs _
  case h_5 => exact s.sameCfg_putLocs _
  all_goals exact s.sameCfg_writeBytes ctx .posted locs bs

theorem State.sameCfg_homeAtomic (s : State) (op : AmoOp) (wide : Bool) (pa : Nat) (b cmp : Word) : s.SameCfg sl (s.homeAtomic op wide pa b cmp).1 := by
  unfold State.homeAtomic
  extract_lets n u old
  have hu : s.SameCfg sl u := s.sameCfg_recall pa n
  split
  · exact hu
  · exact hu.trans ⟨rfl, rfl⟩

theorem State.sameCfg_lineAtomic (s : State) (op : AmoOp) (wide : Bool) (pa : Nat) (b cmp : Word) : s.SameCfg sl (s.lineAtomic op wide pa b cmp).1 := by
  unfold State.lineAtomic
  extract_lets n u old
  have hu : s.SameCfg sl u := s.sameCfg_fillLine (pa / 64)
  split
  · exact hu
  · exact hu.trans (u.sameCfg_lineWrite pa _)

theorem State.sameCfg_dropEarly (s : State) (locs : List Loc) : s.SameCfg sl (s.dropEarly sl locs) := by
  unfold State.dropEarly
  split
  · exact ⟨rfl, rfl⟩
  · exact s.sameCfg_setTh rfl

theorem State.sameCfg_forgetEarly (s : State) : s.SameCfg sl (s.forgetEarly sl) := by
  unfold State.forgetEarly
  split
  · exact ⟨rfl, rfl⟩
  · exact s.sameCfg_setTh rfl

/-- A register that takes a value leaves the configuration registers. -/
theorem State.sameCfg_wr (s : State) (locs : List Loc) (d : BitVec 5) (v : Word) :
    s.SameCfg sl ((s.dropEarly sl locs).setTh sl (((s.dropEarly sl locs).th sl).wr d v)) :=
  (s.sameCfg_dropEarly locs).trans (State.sameCfg_setTh _ (Thread.wr_cfg _ _ _))

theorem State.sameCfg_performQueued (s : State) (q : Queued) : s.SameCfg sl (s.performQueued sl q) := by
  unfold State.performQueued
  extract_lets t
  split
  case h_1 bs _ => exact s.sameCfg_storeLocs t.ctx q.locs q.cached bs
  case h_2 u w _ d sgn kept _ =>
    have hu : s.SameCfg sl u := by
      simp only [u]
      split
      · exact s.sameCfg_fillLine _
      · exact ⟨rfl, rfl⟩
    split
    exact hu.trans (u.sameCfg_wr q.locs d _)
  case h_3 op wide inLine d b cmp kept _ =>
    split
    · next pa _ =>
      have hatomic : s.SameCfg sl (if inLine = true then s.lineAtomic op wide pa b cmp else s.homeAtomic op wide pa b cmp).1 := by
        split
        · exact s.sameCfg_lineAtomic op wide pa b cmp
        · exact s.sameCfg_homeAtomic op wide pa b cmp
      split
      next u r hur =>
        rw [hur] at hatomic
        extract_lets v w
        have hv : u.SameCfg sl v := by
          simp only [v]
          split <;> exact ⟨rfl, rfl⟩
        exact (hatomic.trans hv).trans (v.sameCfg_wr q.locs d _)
    · exact ⟨rfl, rfl⟩
  case h_4 sr _ scope _ =>
    extract_lets u
    have hu : s.SameCfg sl u := by
      simp only [u]
      split
      · split
        · exact s.sameCfg_acquireLines
        · exact s.sameCfg_releaseLines
      · exact ⟨rfl, rfl⟩
    split
    · exact hu.trans u.sameCfg_forgetEarly
    · exact hu

theorem State.sameCfg_queueEvent {s u : State} {k : Nat} (h : s.queueEvent sl k = some u) : s.SameCfg sl u := by
  unfold State.queueEvent at h
  extract_lets t at h
  split at h
  · exact nomatch h
  · next q _ =>
    split at h
    · exact nomatch h
    · cases h
      exact (s.sameCfg_performQueued q).trans (State.sameCfg_setTh _ rfl)

theorem State.sameCfg_drainQueue (s : State) : s.SameCfg sl (s.drainQueue sl) :=
  State.sameCfg_foldl (fun s _ => by
    cases h : s.queueNext sl with
    | none => exact ⟨rfl, rfl⟩
    | some u =>
      obtain ⟨k, -, hk⟩ := List.exists_of_findSome?_eq_some h
      exact State.sameCfg_queueEvent hk) _ s

end

end Sys2Proof.Machine
end

section
/-! O54, SIXTH PART. The delivery of an engine fault (R197, R208, R311). -/

namespace Sys2Proof.Machine

/-! ## The trap of an engine fault (R197, R208, R311) -/

theorem toNat_epcOf (v : Word) : (epcOf v).toNat = v.toNat % 2 ^ 56 / 4 * 4 := by
  have hbits : epcOf v = (v.setWidth 56 >>> 2) <<< 2 := by
    refine BitVec.eq_of_getLsbD_eq fun i hi => ?_
    have h3 : (3#56).getLsbD i = decide (i < 2) := by
      match i with
      | 0 => rfl
      | 1 => rfl
      | i + 2 => simp [BitVec.getLsbD, Nat.testBit_add]
    simp only [epcOf, BitVec.getLsbD_and, BitVec.getLsbD_not, h3, BitVec.getLsbD_shiftLeft, BitVec.getLsbD_ushiftRight, hi, decide_true, Bool.true_and]
    by_cases h : i < 2
    · simp [h]
    · simp [h, Nat.add_sub_cancel' (Nat.not_lt.mp h)]
  rw [hbits, BitVec.toNat_shiftLeft, BitVec.toNat_ushiftRight, BitVec.toNat_setWidth, Nat.shiftRight_eq_div_pow, Nat.shiftLeft_eq]
  omega

theorem Thread.squash_cfg (t : Thread) : t.squash.cfg = t.cfg := by
  unfold Thread.squash
  split <;> rfl

theorem State.markDelivered_frame (s : State) (sl : Slot) (stream : Nat) :
    (s.markDelivered sl stream).threads = s.threads ∧ (s.markDelivered sl stream).ctxs = s.ctxs := by
  unfold State.markDelivered
  split <;> exact ⟨rfl, rfl⟩

/-- A trap from user level enters the handler of the context, after the accesses that stand in the queue. -/
theorem State.takeTrap_user {s : State} {sl : Slot} {k : Ctx} (hl : (s.th sl).level = .user) (hk : s.ctxOf (s.th sl).ctx = some k)
    (he : k.entry ≠ 0) (i : TrapInfo) : ∃ v, s.SameCfg sl v ∧ s.takeTrap sl i = v.enterSupervisor sl i k.entry := by
  obtain ⟨v, hv⟩ : ∃ v, ((if i.cause = 0x28 || i.cause = 0x29 then s.addUe else s).dropScalar sl).drainQueue sl = v := ⟨_, rfl⟩
  have hue : s.SameCfg sl ((if i.cause = 0x28 || i.cause = 0x29 then s.addUe else s).dropScalar sl) := by
    split <;> exact ⟨rfl, rfl⟩
  have hsame : s.SameCfg sl v := hv ▸ hue.trans (State.sameCfg_drainQueue _)
  have hctx : v.ctxOf (s.th sl).ctx = some k := by rw [State.ctxOf, hsame.1]; exact hk
  refine ⟨v, hsame, ?_⟩
  simp only [State.takeTrap, hv, hl, hctx, he, if_false]

/-- What a thread is after it has entered the handler. -/
theorem State.th_enterSupervisor (s : State) (sl : Slot) (i : TrapInfo) (entry : Word) :
    let t := (s.enterSupervisor sl i entry).th sl
    t.level = .supervisor ∧ t.pc = entry ∧ ∃ lvl e eng, t.cfg = (s.th sl).cfg.trapped i lvl e eng := by
  intro t
  have ht : t = _ := State.th_setTh _ _ _
  rw [ht, Thread.squash_cfg]
  exact ⟨rfl, rfl, _, _, _, rfl⟩

/-- The trap of an engine fault (R208). -/
def engineTrap (cause : BitVec 8) (a pc : Word) : TrapInfo := { cause := 0x40 + cause, rule := 31, elem := 0, addr := a, epc := pc, inv := false }

/-- The fault of the lowest stream is delivered as a trap at rule 31. -/
theorem State.engineFaultDelivery_spec {s : State} {sl : Slot} {stream e : Nat} {cause : BitVec 8} {a : Word} {k : Ctx}
    (hready : s.engineReady sl = true) (hdrain : (s.th sl).drain = false) (hk : s.ctxOf (s.th sl).ctx = some k) (he : k.entry ≠ 0)
    (hwin : (s.th sl).vec.window = []) (hf : lowestStream (s.engFaults sl) = some (stream, cause, e, a)) :
    ∃ u, s.engineFaultDelivery sl = some u ∧ (u.th sl).level = .supervisor ∧ (u.th sl).pc = k.entry ∧
      ∃ (c : Cfg) (lvl : Level) (es : Option Nat) (eng : Bool), c.cestart = BitVec.ofNat 32 e ∧ c.cestream = BitVec.ofNat 4 stream ∧
        (u.th sl).cfg = c.trapped (engineTrap cause a (s.th sl).pc) lvl es eng := by
  have hgo : s.engineFaultDelivery sl = some (s.deliverEngine sl) := by
    simp only [State.engineFaultDelivery, hready, hdrain, hwin]
    rfl
  obtain ⟨hth, hctxs⟩ := s.markDelivered_frame sl stream
  have hsl : (s.markDelivered sl stream).th sl = s.th sl := by rw [State.th, hth]; rfl
  obtain ⟨v, hv⟩ : ∃ v, (s.markDelivered sl stream).setTh sl { s.th sl with cfg :=
      { (s.th sl).cfg with cestart := BitVec.ofNat 32 e, cestream := BitVec.ofNat 4 stream } } = v := ⟨_, rfl⟩
  have hvth : v.th sl = { s.th sl with cfg :=
      { (s.th sl).cfg with cestart := BitVec.ofNat 32 e, cestream := BitVec.ofNat 4 stream } } := hv ▸ State.th_setTh _ _ _
  have hlevel : (s.th sl).level = .user := by
    simp only [State.engineReady, Bool.and_eq_true, beq_iff_eq] at hready
    exact hready.1.1.1.2
  have hctx : v.ctxOf (v.th sl).ctx = some k := by
    rw [hvth, ← hk, State.ctxOf, State.ctxOf, ← hctxs, ← hv]
    rfl
  obtain ⟨w, ⟨-, hcfg⟩, htrap⟩ := State.takeTrap_user (by rw [hvth]; exact hlevel) hctx he (engineTrap cause a (s.th sl).pc)
  obtain ⟨hl, hpc, lvl, es, eng, hc⟩ := w.th_enterSupervisor sl (engineTrap cause a (s.th sl).pc) k.entry
  have hdel : s.deliverEngine sl = w.enterSupervisor sl (engineTrap cause a (s.th sl).pc) k.entry := by
    simp only [State.deliverEngine, hf, hsl, hv]
    exact htrap
  refine ⟨_, hgo, ?_⟩
  rw [hdel]
  exact ⟨hl, hpc, _, lvl, es, eng, by rw [hcfg, hvth], by rw [hcfg, hvth], hc⟩

/-! ## The events together -/

theorem State.after_some (s u : State) {o : Option State} (h : o = some u) : s.after o = .next u := by rw [h]; rfl

theorem State.after_none (s : State) {o : Option State} (h : o = none) : s.after o = .next s := by rw [h]; rfl

end Sys2Proof.Machine
end

section
/-! O54, LAST PART. The events together (R67, R68, R208, R292, R295, R296, R297, R311, R320, R328, R329, R332). -/

namespace Sys2Proof.Machine

/-- Settles O54: each event by its own lemmas above. -/
theorem engineEvents : Obligations.EngineEvents := by
  refine ⟨?begins, ?elements, ?completes, ?matrix, ?faults⟩
  case begins =>
    intro s seq c hc hst hk
    exact ⟨fun hearlier htable hread => s.after_some _ (State.courierBeginPerforming_free hc hst hk hearlier htable hread),
      fun h => s.after_none (State.courierBeginPerforming_behind hc hst hk h)⟩
  case elements =>
    intro s seq e c hc hst hr he hx hlow
    refine ⟨fun da sa n0 n1 n2 ds1 ss1 ds2 ss2 so dof hk hsrc hdst hs hd hp hheld hw => ?_,
      fun f hef hf hfx => ⟨fun cause a hp hlives => ?_, fun hp => ?_⟩,
      fun f v bytes dst cause a cause' a' hef hf hfx hbetween hp hpf hpv => ?_⟩
    · obtain ⟨u, c', hgo, h⟩ := State.courierElementTransfer_cpy_window hc hst hr hlow he hx hk hsrc hdst hs hd hp hheld hw
      exact ⟨u, c', s.after_some u hgo, h⟩
    · refine s.after_some _ ((State.courierElementTransfer_blocked hc hst hr hlow hx hef hf hfx (.inl ⟨cause, a, hp⟩)).trans ?_)
      simp only [hp, State.park_of_posterLives hlives, hr]
    · refine s.after_none ((State.courierElementTransfer_blocked hc hst hr hlow hx hef hf hfx (.inr hp)).trans ?_)
      rw [hp]
    · exact s.after_none (State.courierElementTransfer_unready hc hst hr hlow hx hef hf hfx hbetween hp hpf hpv)
  case completes =>
    intro s seq c hc hbar
    refine ⟨fun hst hk hx hw => ⟨fun h0 => ?_, fun s1 locs l pa hne hcheck hloc hp => ?_⟩, fun m hk => ⟨fun h => ?_, fun h => ?_⟩⟩
    · exact ⟨_, s.after_some _ (State.commandComplete_uncounted hc hst hk hx hw hbar h0), rfl, rfl, rfl, rfl⟩
    · obtain ⟨hword, houtside⟩ := State.finalByte_putHomeNat_recall (s1.touch l true) pa ((s1.touch l true).finalWord pa + BitVec.ofNat 64 c.inc)
      refine ⟨_, s.after_some _ (State.commandComplete_counted hc hst hk hx hw hbar hne hcheck hloc hp), fun d hd => ?_, hword, houtside,
        (s1.touch l true).recall_sp pa 8⟩
      simpa using (List.mem_filter.mp hd).2
    · exact s.after_some _ (State.commandComplete_csbar_alone hc hk h)
    · exact s.after_none (State.commandComplete_csbar_behind hc hk h)
  case matrix =>
    intro s c rest hq
    refine ⟨fun a fmt hop => ?_, fun a x y p hop hok hdone => ⟨fun hheld => ?_, fun hheld hsp hap => ?_⟩, fun q hop => ?_⟩
    · refine ⟨_, s.after_some _ (State.matrixQueueServe_mzero hq hop), rfl, fun row col hr hc => s.accGet_doMzero_same hr hc,
        fun b row col hr hc h => s.accGet_doMzero_ne hr hc (h.resolve_right (not_not_intro trivial)), fun h => s.accSat_doMzero h, rfl, rfl, rfl⟩
    · exact s.after_none (State.matrixQueueServe_mma_held hq hop hdone hheld)
    · obtain ⟨u, hgo, hmatQ, hsum, hframe⟩ := State.matrixQueueServe_mma hq hop hok hdone hheld hsp hap
      obtain ⟨hm, hn⟩ := Panel.ok_bounds hok
      have hrow : c.done / p.groups < 256 := Nat.lt_of_lt_of_le (Panel.row_lt hdone) hm
      refine ⟨u, s.after_some u hgo, hmatQ, fun n hnp => ?_, fun b row col hr hc h => ?_, hframe⟩
      · have hat := (hsum a (c.done / p.groups) n hrow (by omega)).trans (if_pos ⟨rfl, rfl, hnp⟩)
        exact ⟨fun hf => by simpa only [State.mmaValue, hf, if_true] using hat, fun hf => by simpa only [State.mmaValue, hf, if_false] using hat⟩
      · exact (hsum b row col hr hc).trans (if_neg fun ⟨h1, h2, h3⟩ => h.elim (fun e => e h1) fun e => e ⟨h2, h3⟩)
    · exact ⟨_, s.after_some _ (State.matrixQueueServe_mmav hq hop), rfl, rfl⟩
  case faults =>
    intro s sl stream e cause a k hready hdrain hk he hwin hf
    obtain ⟨u, hgo, hl, hpc, c, lvl, es, eng, hstart, hstream, hcfg⟩ := State.engineFaultDelivery_spec hready hdrain hk he hwin hf
    refine ⟨u, s.after_some u hgo, hl, ?_⟩
    rw [hcfg]
    exact ⟨rfl, rfl, rfl, hpc, toNat_epcOf _, hstart, hstream⟩

end Sys2Proof.Machine
end
